-- ==== Sys2Proof/Word.lean ====
section
/-!
DEFINITION. Word.lean: the word type of the VX-24 scalar side and its plainest readings (R7, R59).
-/
namespace Sys2Proof

/-- A 64-bit word: an x register, an address while it is computed, a CSR value. -/
abbrev Word := BitVec 64

/-- One byte of memory. -/
abbrev Byte := BitVec 8

/-- A string of bits of no fixed length, bit 0 first: the contents of a vector, mask, scale or
accumulator register (R4, R45, R46, R59). Bits beyond the string's last set bit are 0. -/
abbrev Bits := Nat

end Sys2Proof
end

