-- ==== Sys2Proof/Syntax.lean ====
section
/-!
DEFINITION. Syntax.lean: the instructions of the VX-24, one constructor for each row of the opcode table.

The first 286 rows are encoded instructions: their arguments are the fields of the encoding, by the letters of the
opcode table (d, a, b registers; m the mask or repurposed field; i an immediate; s a scope; q and l the aq and rl bits;
t a type code; k, c, f, n, w the row's own codes). The compressed rows hold 3-bit register names, which stand for x8 to
x15 (R204). The last 80 rows are steps of the part that no encoding selects; their arguments say what the step meets:
which hart, queue, line or tier it concerns, and what arrives from outside. Hart, core, tier and line arguments are
global numbers (R15).
-/
namespace Sys2Proof

/-- Who sends a write or request to a device window or mailbox: a hart (through its page tables), or a fabric endpoint by
its 10-bit identifier (R373). -/
inductive Caller where
  | hart (g : Nat)
  | fabric (id : Nat)
  deriving DecidableEq, Repr

/-- The mailbox a call arrives in (R370, R375): a partition's own, or the management mailbox. -/
inductive Mbox where
  | part (p : Nat)
  | mgmt
  deriving DecidableEq, Repr

/-- A request from the fabric (R373): addresses are local addresses of the package. -/
inductive FabReq where
  /-- Read n bytes. -/
  | read (addr n : Nat)
  /-- Write the bytes given, from addr upward. -/
  | write (addr : Nat) (data : List Byte)
  /-- An atomic of 4 or 8 bytes; op is the operation code of R192. -/
  | atomic (addr size op : Nat) (operand compare : Word)
  deriving DecidableEq, Repr

/-- Where an uncorrectable error is met (R112, R350, R349, R151). -/
inductive ErrSite where
  /-- A clean copy in a cache of the named core or of its cluster, or in the slice of the line's home. -/
  | cleanLine (core line : Nat)
  /-- A dirty line, on eviction or write-back. -/
  | dirtyLine (line : Nat)
  /-- A DRAM line, on read. -/
  | dramLine (line : Nat)
  /-- The register, accumulator or history state of a hart. -/
  | hartState (g : Nat)
  /-- A residue-7 mismatch of the matrix array while hart g accumulates. -/
  | residue (g : Nat)
  /-- The partition table's entry of a partition. -/
  | partEntry (p : Nat)
  /-- A correctable error, met and corrected in a core's storage. -/
  | corrected (core : Nat)
  /-- A correctable error, met and corrected in a tier's slices or cluster caches. -/
  | correctedTier (tier : Nat)
  /-- A parity error in the loop buffer of hart g. -/
  | loopBuffer (g : Nat)
  deriving DecidableEq, Repr

/-- The connection data of QPCONN (R376, R379). -/
structure QpConn where
  peerAddr : BitVec 128
  v6       : Bool
  peerMac  : BitVec 48
  peerQp   : BitVec 24
  sendPsn  : BitVec 24
  recvPsn  : BitVec 24
  mtu      : Nat
  tclass   : BitVec 8
  deriving DecidableEq, Repr

/-- The algorithms an SPDM requester may offer, by what the responder supports (R382). -/
inductive SpdmAlg where
  | ecdheP384
  | aes256Gcm
  | sha384
  | hssVendor
  | other (code : Nat)
  deriving DecidableEq, Repr

/-- One constructor for each row of the opcode table. The rows of R215 and R216 stand after the other rows of 4 and 8 bytes (their
place among the constructors carries no meaning). -/
inductive Instr where
  /-- LIH (R217): Loads a sign-extended imm19 shifted left by 14. -/
  | lih (d : BitVec 5) (i : BitVec 19)
  /-- ADDPC (R217): Writes the instruction address plus a byte offset. -/
  | addpc (d : BitVec 5) (i : BitVec 19)
  /-- JAL (R219): Writes the link and jumps PC-relative in parcels. -/
  | jal (d : BitVec 5) (i : BitVec 19)
  /-- JALR (R219): Writes the link and jumps to x[a] plus an offset. -/
  | jalr (d a : BitVec 5) (i : BitVec 14)
  /-- BEQ (R218): Branches when x[a] equals x[b]. -/
  | beq (a b : BitVec 5) (i : BitVec 14)
  /-- BNE (R218): Branches when x[a] differs from x[b]. -/
  | bne (a b : BitVec 5) (i : BitVec 14)
  /-- BLT (R218): Branches when x[a] is below x[b] signed. -/
  | blt (a b : BitVec 5) (i : BitVec 14)
  /-- BGE (R218): Branches when x[a] is at or above x[b] signed. -/
  | bge (a b : BitVec 5) (i : BitVec 14)
  /-- BLTN (R218): Branches when x[a] is below x[b] natural. -/
  | bltn (a b : BitVec 5) (i : BitVec 14)
  /-- BGEN (R218): Branches when x[a] is at or above x[b] natural. -/
  | bgen (a b : BitVec 5) (i : BitVec 14)
  /-- LOOP (R220): Starts a counted loop over the following body, or skips it at count 0. -/
  | loop (a : BitVec 5) (i : BitVec 14)
  /-- LD_S8 (R224): Loads a sign-extended byte. -/
  | ldS8 (d a : BitVec 5) (i : BitVec 14)
  /-- LD_N8 (R224): Loads a zero-extended byte. -/
  | ldN8 (d a : BitVec 5) (i : BitVec 14)
  /-- LD_S16 (R224): Loads a sign-extended half-word. -/
  | ldS16 (d a : BitVec 5) (i : BitVec 14)
  /-- LD_N16 (R224): Loads a zero-extended half-word. -/
  | ldN16 (d a : BitVec 5) (i : BitVec 14)
  /-- LD_S32 (R224): Loads a sign-extended word. -/
  | ldS32 (d a : BitVec 5) (i : BitVec 14)
  /-- LD_N32 (R224): Loads a zero-extended word. -/
  | ldN32 (d a : BitVec 5) (i : BitVec 14)
  /-- LD_64 (R224): Loads 8 bytes. -/
  | ld64 (d a : BitVec 5) (i : BitVec 14)
  /-- ST_8 (R225): Stores the low byte of x[b]. -/
  | st8 (a b : BitVec 5) (i : BitVec 14)
  /-- ST_16 (R225): Stores the low half-word of x[b]. -/
  | st16 (a b : BitVec 5) (i : BitVec 14)
  /-- ST_32 (R225): Stores the low word of x[b]. -/
  | st32 (a b : BitVec 5) (i : BitVec 14)
  /-- ST_64 (R225): Stores all 8 bytes of x[b]. -/
  | st64 (a b : BitVec 5) (i : BitVec 14)
  /-- FADD (R228): Scalar floating-point addition, rounded once. -/
  | fadd (d a b : BitVec 5) (f : BitVec 2)
  /-- FSUB (R228): Scalar floating-point subtraction. -/
  | fsub (d a b : BitVec 5) (f : BitVec 2)
  /-- FMUL (R228): Scalar floating-point multiplication. -/
  | fmul (d a b : BitVec 5) (f : BitVec 2)
  /-- FDIV (R228): Scalar floating-point division. -/
  | fdiv (d a b : BitVec 5) (f : BitVec 2)
  /-- FSQRT (R228): Scalar floating-point square root. -/
  | fsqrt (d a : BitVec 5) (f : BitVec 2)
  /-- FMA (R228): Fused multiply-add into x[d], rounded once. -/
  | fma (d a b : BitVec 5) (f : BitVec 2)
  /-- FMIN (R228): Floating-point minimum under R40. -/
  | fmin (d a b : BitVec 5) (f : BitVec 2)
  /-- FMAX (R228): Floating-point maximum under R40. -/
  | fmax (d a b : BitVec 5) (f : BitVec 2)
  /-- FCMP (R229): Writes 1 or 0 by the EQ, LT, LE or UN condition. -/
  | fcmp (d a b : BitVec 5) (f c : BitVec 2)
  /-- FCLASS (R229): Writes a one-hot class mask of x[a]. -/
  | fclass (d a : BitVec 5) (f : BitVec 2)
  /-- FCVT_TO_FLOAT (R230): Converts an integer or float of type b to format m. -/
  | fcvtToFloat (d a b : BitVec 5) (f : BitVec 2)
  /-- FCVT_TO_INT (R230): Converts a float of format m to the integer type b. -/
  | fcvtToInt (d a b : BitVec 5) (f : BitVec 2)
  /-- CSRRW (R231): Reads a CSR and writes x[a] into it. -/
  | csrrw (d a : BitVec 5) (c : BitVec 12)
  /-- CSRRS (R231): Reads a CSR and sets the bits of x[a] when a is not x0. -/
  | csrrs (d a : BitVec 5) (c : BitVec 12)
  /-- CSRRC (R231): Reads a CSR and clears the bits of x[a] when a is not x0. -/
  | csrrc (d a : BitVec 5) (c : BitVec 12)
  /-- TRAP (R233): Traps with cause TRAP and the code in EVAL. -/
  | trap (k : BitVec 5)
  /-- BRK (R233): Traps with cause BREAK. -/
  | brk
  /-- ERET (R213): Returns from a trap, resuming the scalar unit or the kept vector queue and restarting faulted channels. -/
  | eret
  /-- WFE (R234): Waits for a pending event, a barrier change or 65,536 cycles. -/
  | wfe
  /-- ICSYNC (R235): Waits for stores at .clus, invalidates the instruction cache and unpins loop bodies. -/
  | icsync
  /-- TLBI (R236): Drops translations of the pages around x[a] across the partition and waits for pins. -/
  | tlbi (a : BitVec 5)
  /-- TLBI_ALL (R236): Drops every translation of the partition. -/
  | tlbiAll
  /-- SAVECTX (R237): Saves the hart's interrupted context into an image and clears its vector state. -/
  | savectx (a : BitVec 5)
  /-- RSTCTX (R238): Checks and restores a context image, writing a status. -/
  | rstctx (d a : BitVec 5)
  /-- QUIESCE (R239): Pauses placement, pre-empts the partition's other gangs and saves the queue state. -/
  | quiesce (d : BitVec 5)
  /-- RETIRE (R240): Ends the hart after draining, stopping channels, closing streams and freeing its slot. -/
  | retire
  /-- FENCE_SV (R172): Orders earlier scalar accesses before later vector accesses at a scope. -/
  | fenceSv (s : BitVec 3)
  /-- FENCE_VS (R172): Orders earlier vector accesses before later scalar accesses at a scope. -/
  | fenceVs (s : BitVec 3)
  /-- FENCE_VV (R172): Orders earlier vector accesses before later vector accesses at a scope. -/
  | fenceVv (s : BitVec 3)
  /-- FENCE_ALL (R172): Orders both sides against both sides at a scope. -/
  | fenceAll (s : BitVec 3)
  /-- FENCE_SYS (R178): A system-scope FENCE.ALL that also awaits peer acknowledgements and writes a status. -/
  | fenceSys (d : BitVec 5)
  /-- AMO_ADD_W (R277): Atomic 4-byte add at the scope's point of coherence. -/
  | amoAddW (d a b : BitVec 5) (s : BitVec 3) (q l : BitVec 1)
  /-- AMO_AND_W (R277): Atomic 4-byte AND. -/
  | amoAndW (d a b : BitVec 5) (s : BitVec 3) (q l : BitVec 1)
  /-- AMO_OR_W (R277): Atomic 4-byte OR. -/
  | amoOrW (d a b : BitVec 5) (s : BitVec 3) (q l : BitVec 1)
  /-- AMO_XOR_W (R277): Atomic 4-byte XOR. -/
  | amoXorW (d a b : BitVec 5) (s : BitVec 3) (q l : BitVec 1)
  /-- AMO_MIN_W (R277): Atomic 4-byte signed minimum. -/
  | amoMinW (d a b : BitVec 5) (s : BitVec 3) (q l : BitVec 1)
  /-- AMO_MAX_W (R277): Atomic 4-byte signed maximum. -/
  | amoMaxW (d a b : BitVec 5) (s : BitVec 3) (q l : BitVec 1)
  /-- AMO_MINN_W (R277): Atomic 4-byte natural minimum. -/
  | amoMinnW (d a b : BitVec 5) (s : BitVec 3) (q l : BitVec 1)
  /-- AMO_MAXN_W (R277): Atomic 4-byte natural maximum. -/
  | amoMaxnW (d a b : BitVec 5) (s : BitVec 3) (q l : BitVec 1)
  /-- AMO_SWAP_W (R277): Atomic 4-byte swap. -/
  | amoSwapW (d a b : BitVec 5) (s : BitVec 3) (q l : BitVec 1)
  /-- AMO_CAS_W (R277): Atomic 4-byte compare and swap. -/
  | amoCasW (d a b : BitVec 5) (s : BitVec 3) (q l : BitVec 1)
  /-- AMO_ADD_D (R277): Atomic 8-byte add. -/
  | amoAddD (d a b : BitVec 5) (s : BitVec 3) (q l : BitVec 1)
  /-- AMO_AND_D (R277): Atomic 8-byte AND. -/
  | amoAndD (d a b : BitVec 5) (s : BitVec 3) (q l : BitVec 1)
  /-- AMO_OR_D (R277): Atomic 8-byte OR. -/
  | amoOrD (d a b : BitVec 5) (s : BitVec 3) (q l : BitVec 1)
  /-- AMO_XOR_D (R277): Atomic 8-byte XOR. -/
  | amoXorD (d a b : BitVec 5) (s : BitVec 3) (q l : BitVec 1)
  /-- AMO_MIN_D (R277): Atomic 8-byte signed minimum. -/
  | amoMinD (d a b : BitVec 5) (s : BitVec 3) (q l : BitVec 1)
  /-- AMO_MAX_D (R277): Atomic 8-byte signed maximum. -/
  | amoMaxD (d a b : BitVec 5) (s : BitVec 3) (q l : BitVec 1)
  /-- AMO_MINN_D (R277): Atomic 8-byte natural minimum. -/
  | amoMinnD (d a b : BitVec 5) (s : BitVec 3) (q l : BitVec 1)
  /-- AMO_MAXN_D (R277): Atomic 8-byte natural maximum. -/
  | amoMaxnD (d a b : BitVec 5) (s : BitVec 3) (q l : BitVec 1)
  /-- AMO_SWAP_D (R277): Atomic 8-byte swap. -/
  | amoSwapD (d a b : BitVec 5) (s : BitVec 3) (q l : BitVec 1)
  /-- AMO_CAS_D (R277): Atomic 8-byte compare and swap. -/
  | amoCasD (d a b : BitVec 5) (s : BitVec 3) (q l : BitVec 1)
  /-- VSETL_T (R246): Writes a type into VTYPE with group 1 and grants min(request, MVL). -/
  | vsetlT (d a : BitVec 5) (t : BitVec 8)
  /-- VSETL (R246): Grants min(request, MVL) under the current VTYPE. -/
  | vsetl (d a : BitVec 5)
  /-- VCFG (R245): Sets banks and named registers, moving banks and zeroing the vector registers. -/
  | vcfg (b n : BitVec 2)
  /-- VSETT (R296): Grants accumulator tile rows and columns, zeroing tiles on a changed grant. -/
  | vsett (d a b : BitVec 5)
  /-- VADD (R247): Elementwise add modulo 2^W. -/
  | vadd (d a b : BitVec 5) (m : BitVec 4)
  /-- VSUB (R247): Elementwise subtract. -/
  | vsub (d a b : BitVec 5) (m : BitVec 4)
  /-- VMUL (R247): Elementwise low product. -/
  | vmul (d a b : BitVec 5) (m : BitVec 4)
  /-- VMULH (R247): Elementwise high product. -/
  | vmulh (d a b : BitVec 5) (m : BitVec 4)
  /-- VMACC (R247): Elementwise multiply-accumulate into vd. -/
  | vmacc (d a b : BitVec 5) (m : BitVec 4)
  /-- VDIV (R247): Elementwise quotient under R35. -/
  | vdiv (d a b : BitVec 5) (m : BitVec 4)
  /-- VREM (R247): Elementwise remainder under R35. -/
  | vrem (d a b : BitVec 5) (m : BitVec 4)
  /-- VMIN (R247): Elementwise minimum. -/
  | vmin (d a b : BitVec 5) (m : BitVec 4)
  /-- VMAX (R247): Elementwise maximum. -/
  | vmax (d a b : BitVec 5) (m : BitVec 4)
  /-- VAND (R247): Elementwise AND. -/
  | vand (d a b : BitVec 5) (m : BitVec 4)
  /-- VOR (R247): Elementwise OR. -/
  | vor (d a b : BitVec 5) (m : BitVec 4)
  /-- VXOR (R247): Elementwise XOR. -/
  | vxor (d a b : BitVec 5) (m : BitVec 4)
  /-- VSLL (R247): Elementwise left shift. -/
  | vsll (d a b : BitVec 5) (m : BitVec 4)
  /-- VSRL (R247): Elementwise logical right shift. -/
  | vsrl (d a b : BitVec 5) (m : BitVec 4)
  /-- VSRA (R247): Elementwise arithmetic right shift. -/
  | vsra (d a b : BitVec 5) (m : BitVec 4)
  /-- VADDS (R247): Elementwise saturating add. -/
  | vadds (d a b : BitVec 5) (m : BitVec 4)
  /-- VSUBS (R247): Elementwise saturating subtract. -/
  | vsubs (d a b : BitVec 5) (m : BitVec 4)
  /-- VADC (R248): Add with carry in and out through the carry mask. -/
  | vadc (d a b : BitVec 5) (m : BitVec 4)
  /-- VSBC (R248): Subtract with borrow through the carry mask. -/
  | vsbc (d a b : BitVec 5) (m : BitVec 4)
  /-- VMERGE (R249): Selects vb where the mask is set and va elsewhere. -/
  | vmerge (d a b : BitVec 5) (m : BitVec 4)
  /-- VADD_X (R247): Elementwise add of a scalar. -/
  | vaddX (d a b : BitVec 5) (m : BitVec 4)
  /-- VSUB_X (R247): Elementwise subtract of a scalar. -/
  | vsubX (d a b : BitVec 5) (m : BitVec 4)
  /-- VMUL_X (R247): Elementwise low product with a scalar. -/
  | vmulX (d a b : BitVec 5) (m : BitVec 4)
  /-- VMULH_X (R247): Elementwise high product with a scalar. -/
  | vmulhX (d a b : BitVec 5) (m : BitVec 4)
  /-- VMACC_X (R247): Elementwise multiply-accumulate with a scalar. -/
  | vmaccX (d a b : BitVec 5) (m : BitVec 4)
  /-- VDIV_X (R247): Elementwise quotient by a scalar. -/
  | vdivX (d a b : BitVec 5) (m : BitVec 4)
  /-- VREM_X (R247): Elementwise remainder by a scalar. -/
  | vremX (d a b : BitVec 5) (m : BitVec 4)
  /-- VMIN_X (R247): Elementwise minimum with a scalar. -/
  | vminX (d a b : BitVec 5) (m : BitVec 4)
  /-- VMAX_X (R247): Elementwise maximum with a scalar. -/
  | vmaxX (d a b : BitVec 5) (m : BitVec 4)
  /-- VAND_X (R247): Elementwise AND with a scalar. -/
  | vandX (d a b : BitVec 5) (m : BitVec 4)
  /-- VOR_X (R247): Elementwise OR with a scalar. -/
  | vorX (d a b : BitVec 5) (m : BitVec 4)
  /-- VXOR_X (R247): Elementwise XOR with a scalar. -/
  | vxorX (d a b : BitVec 5) (m : BitVec 4)
  /-- VSLL_X (R247): Elementwise left shift by a scalar. -/
  | vsllX (d a b : BitVec 5) (m : BitVec 4)
  /-- VSRL_X (R247): Elementwise logical right shift by a scalar. -/
  | vsrlX (d a b : BitVec 5) (m : BitVec 4)
  /-- VSRA_X (R247): Elementwise arithmetic right shift by a scalar. -/
  | vsraX (d a b : BitVec 5) (m : BitVec 4)
  /-- VADDS_X (R247): Elementwise saturating add of a scalar. -/
  | vaddsX (d a b : BitVec 5) (m : BitVec 4)
  /-- VSUBS_X (R247): Elementwise saturating subtract of a scalar. -/
  | vsubsX (d a b : BitVec 5) (m : BitVec 4)
  /-- VADC_X (R248): Add a scalar with carry through the carry mask. -/
  | vadcX (d a b : BitVec 5) (m : BitVec 4)
  /-- VSBC_X (R248): Subtract a scalar with borrow through the carry mask. -/
  | vsbcX (d a b : BitVec 5) (m : BitVec 4)
  /-- VMERGE_X (R249): Selects a scalar where the mask is set and va elsewhere. -/
  | vmergeX (d a b : BitVec 5) (m : BitVec 4)
  /-- VCMPEQ (R250): Integer equality compare into a mask. -/
  | vcmpeq (d a b : BitVec 5) (m : BitVec 4)
  /-- VCMPNE (R250): Integer inequality compare into a mask. -/
  | vcmpne (d a b : BitVec 5) (m : BitVec 4)
  /-- VCMPLT (R250): Integer less-than compare into a mask. -/
  | vcmplt (d a b : BitVec 5) (m : BitVec 4)
  /-- VCMPLE (R250): Integer less-or-equal compare into a mask. -/
  | vcmple (d a b : BitVec 5) (m : BitVec 4)
  /-- VCMPGT (R250): Integer greater-than compare into a mask. -/
  | vcmpgt (d a b : BitVec 5) (m : BitVec 4)
  /-- VCMPGE (R250): Integer greater-or-equal compare into a mask. -/
  | vcmpge (d a b : BitVec 5) (m : BitVec 4)
  /-- VFCMPEQ (R250): Floating-point equality compare into a mask. -/
  | vfcmpeq (d a b : BitVec 5) (m : BitVec 4)
  /-- VFCMPLT (R250): Floating-point less-than compare into a mask. -/
  | vfcmplt (d a b : BitVec 5) (m : BitVec 4)
  /-- VFCMPLE (R250): Floating-point less-or-equal compare into a mask. -/
  | vfcmple (d a b : BitVec 5) (m : BitVec 4)
  /-- VFCMPNE (R250): Floating-point inequality compare into a mask. -/
  | vfcmpne (d a b : BitVec 5) (m : BitVec 4)
  /-- VFCMPUN (R250): Unordered compare into a mask. -/
  | vfcmpun (d a b : BitVec 5) (m : BitVec 4)
  /-- VFADD (R251): Elementwise floating-point add. -/
  | vfadd (d a b : BitVec 5) (m : BitVec 4)
  /-- VFSUB (R251): Elementwise floating-point subtract. -/
  | vfsub (d a b : BitVec 5) (m : BitVec 4)
  /-- VFMUL (R251): Elementwise floating-point multiply. -/
  | vfmul (d a b : BitVec 5) (m : BitVec 4)
  /-- VFMA (R251): Elementwise fused multiply-add. -/
  | vfma (d a b : BitVec 5) (m : BitVec 4)
  /-- VFDIV (R251): Elementwise floating-point divide. -/
  | vfdiv (d a b : BitVec 5) (m : BitVec 4)
  /-- VFSQRT (R251): Elementwise square root. -/
  | vfsqrt (d a : BitVec 5) (m : BitVec 4)
  /-- VFMIN (R251): Elementwise floating-point minimum. -/
  | vfmin (d a b : BitVec 5) (m : BitVec 4)
  /-- VFMAX (R251): Elementwise floating-point maximum. -/
  | vfmax (d a b : BitVec 5) (m : BitVec 4)
  /-- VFCVT (R253): Converts each element to the target named by the conversion code. -/
  | vfcvt (d a : BitVec 5) (m : BitVec 4) (k : BitVec 5)
  /-- VFRCP (R252): Elementwise reciprocal, rounded once. -/
  | vfrcp (d a : BitVec 5) (m : BitVec 4)
  /-- VFRSQ (R252): Elementwise reciprocal square root. -/
  | vfrsq (d a : BitVec 5) (m : BitVec 4)
  /-- VFEXP2 (R252): Elementwise base-2 exponential. -/
  | vfexp2 (d a : BitVec 5) (m : BitVec 4)
  /-- VFLOG2 (R252): Elementwise base-2 logarithm. -/
  | vflog2 (d a : BitVec 5) (m : BitVec 4)
  /-- VFTANH (R252): Elementwise hyperbolic tangent. -/
  | vftanh (d a : BitVec 5) (m : BitVec 4)
  /-- VFADD_X (R251): Elementwise floating-point add of a scalar. -/
  | vfaddX (d a b : BitVec 5) (m : BitVec 4)
  /-- VFSUB_X (R251): Elementwise floating-point subtract of a scalar. -/
  | vfsubX (d a b : BitVec 5) (m : BitVec 4)
  /-- VFMUL_X (R251): Elementwise floating-point multiply by a scalar. -/
  | vfmulX (d a b : BitVec 5) (m : BitVec 4)
  /-- VFMA_X (R251): Elementwise fused multiply-add with a scalar. -/
  | vfmaX (d a b : BitVec 5) (m : BitVec 4)
  /-- VFMIN_X (R251): Elementwise floating-point minimum with a scalar. -/
  | vfminX (d a b : BitVec 5) (m : BitVec 4)
  /-- VFMAX_X (R251): Elementwise floating-point maximum with a scalar. -/
  | vfmaxX (d a b : BitVec 5) (m : BitVec 4)
  /-- VMV (R254): Copies active elements of va into vd. -/
  | vmv (d a : BitVec 5) (m : BitVec 4)
  /-- VMV_FROM_SCALAR (R254): Writes a scalar into every active element. -/
  | vmvFromScalar (d a : BitVec 5) (m : BitVec 4)
  /-- VSLIDEUP (R255): Slides elements up by a scalar amount. -/
  | vslideup (d a b : BitVec 5) (m : BitVec 4)
  /-- VSLIDEDN (R255): Slides elements down by a scalar amount, filling with zero. -/
  | vslidedn (d a b : BitVec 5) (m : BitVec 4)
  /-- VPERM (R256): Gathers elements of va by an index vector. -/
  | vperm (d a b : BitVec 5) (m : BitVec 4)
  /-- VCOMPRESS (R257): Packs the selected elements of va to the bottom of vd. -/
  | vcompress (d a b : BitVec 5)
  /-- VIOTA (R257): Writes running counts of set mask bits. -/
  | viota (d a : BitVec 5) (m : BitVec 4)
  /-- VID (R254): Writes each element's index. -/
  | vid (d : BitVec 5) (m : BitVec 4)
  /-- VMV_TO_SCALE (R254): Copies byte elements into a scale register. -/
  | vmvToScale (d a : BitVec 5)
  /-- VMV_FROM_SCALE (R254): Copies a scale register into byte elements. -/
  | vmvFromScale (d a : BitVec 5)
  /-- VRED_ADD (R258): Integer sum reduction into an x register. -/
  | vredAdd (d a b : BitVec 5) (m : BitVec 4)
  /-- VRED_AND (R258): AND reduction. -/
  | vredAnd (d a b : BitVec 5) (m : BitVec 4)
  /-- VRED_OR (R258): OR reduction. -/
  | vredOr (d a b : BitVec 5) (m : BitVec 4)
  /-- VRED_XOR (R258): XOR reduction. -/
  | vredXor (d a b : BitVec 5) (m : BitVec 4)
  /-- VRED_MIN (R258): Minimum reduction. -/
  | vredMin (d a b : BitVec 5) (m : BitVec 4)
  /-- VRED_MAX (R258): Maximum reduction. -/
  | vredMax (d a b : BitVec 5) (m : BitVec 4)
  /-- VFREDO (R259): Ordered floating-point sum reduction. -/
  | vfredo (d a b : BitVec 5) (m : BitVec 4)
  /-- VFREDT (R259): Fixed-tree floating-point sum reduction. -/
  | vfredt (d a b : BitVec 5) (m : BitVec 4)
  /-- MAND (R260): Mask AND. -/
  | mand (d a b : BitVec 5)
  /-- MOR (R260): Mask OR. -/
  | mor (d a b : BitVec 5)
  /-- MXOR (R260): Mask XOR. -/
  | mxor (d a b : BitVec 5)
  /-- MANDN (R260): Mask AND NOT. -/
  | mandn (d a b : BitVec 5)
  /-- MNOT (R260): Mask NOT. -/
  | mnot (d a : BitVec 5)
  /-- MWHILE (R261): Sets mask bits below a scalar count. -/
  | mwhile (d a : BitVec 5)
  /-- MPOP (R262): Counts set mask bits below VL into an x register. -/
  | mpop (d a : BitVec 5)
  /-- MPOP_VL (R262): Counts set mask bits and also sets VL to the count. -/
  | mpopVl (d a : BitVec 5)
  /-- MFIRST (R263): Writes the lowest set mask index, or all ones. -/
  | mfirst (d a : BitVec 5)
  /-- MLAST (R263): Writes the highest set mask index, or all ones. -/
  | mlast (d a : BitVec 5)
  /-- MSHUP (R264): Shifts mask bits up by one element. -/
  | mshup (d a : BitVec 5)
  /-- VTOPK (R265): Marks the k highest-ranked candidate elements in a mask. -/
  | vtopk (d a b : BitVec 5) (m : BitVec 4)
  /-- VLD (R269): Unit-stride vector load after translating and pinning pages. -/
  | vld (d a : BitVec 5) (m : BitVec 4)
  /-- VLDS (R269): Strided vector load. -/
  | vlds (d a b : BitVec 5) (m : BitVec 4)
  /-- VLX (R269): Indexed gather load. -/
  | vlx (d a b : BitVec 5) (m : BitVec 4)
  /-- VLDFF (R273): Unit-stride load that trims VL at an unmapped page. -/
  | vldff (d a : BitVec 5) (m : BitVec 4)
  /-- VLXFF (R273): Gather that trims VL at an unmapped page. -/
  | vlxff (d a b : BitVec 5) (m : BitVec 4)
  /-- VLD_SCALE (R271): Loads scale codes into a w register. -/
  | vldScale (d a : BitVec 5)
  /-- VLD_MASK (R271): Loads mask bits into an m register. -/
  | vldMask (d a : BitVec 5)
  /-- VST (R269): Unit-stride vector store. -/
  | vst (d a : BitVec 5) (m : BitVec 4)
  /-- VSTS (R269): Strided vector store. -/
  | vsts (d a b : BitVec 5) (m : BitVec 4)
  /-- VSX (R269): Indexed scatter store. -/
  | vsx (d a b : BitVec 5) (m : BitVec 4)
  /-- VSCADD (R276): Merges addends per address and adds each sum atomically at its home. -/
  | vscadd (d a b : BitVec 5) (m : BitVec 4)
  /-- VST_SCALE (R271): Stores a w register's scale codes. -/
  | vstScale (d a : BitVec 5)
  /-- VST_MASK (R271): Stores a mask register's bits. -/
  | vstMask (d a : BitVec 5)
  /-- VXLATE (R275): Translates virtual addresses to physical ones with a fault mask. -/
  | vxlate (d a b : BitVec 5) (m : BitVec 4)
  /-- VXLATEFF (R275): Translates addresses, trimming VL at the first unmapped one. -/
  | vxlateff (d a b : BitVec 5) (m : BitVec 4)
  /-- VAMO_ADD (R278): Vector atomic add per element. -/
  | vamoAdd (d b : BitVec 5) (m : BitVec 4) (s : BitVec 3) (q l : BitVec 1)
  /-- VAMO_AND (R278): Vector atomic AND. -/
  | vamoAnd (d b : BitVec 5) (m : BitVec 4) (s : BitVec 3) (q l : BitVec 1)
  /-- VAMO_OR (R278): Vector atomic OR. -/
  | vamoOr (d b : BitVec 5) (m : BitVec 4) (s : BitVec 3) (q l : BitVec 1)
  /-- VAMO_XOR (R278): Vector atomic XOR. -/
  | vamoXor (d b : BitVec 5) (m : BitVec 4) (s : BitVec 3) (q l : BitVec 1)
  /-- VAMO_MIN (R278): Vector atomic signed minimum. -/
  | vamoMin (d b : BitVec 5) (m : BitVec 4) (s : BitVec 3) (q l : BitVec 1)
  /-- VAMO_MAX (R278): Vector atomic signed maximum. -/
  | vamoMax (d b : BitVec 5) (m : BitVec 4) (s : BitVec 3) (q l : BitVec 1)
  /-- VAMO_MINN (R278): Vector atomic natural minimum. -/
  | vamoMinn (d b : BitVec 5) (m : BitVec 4) (s : BitVec 3) (q l : BitVec 1)
  /-- VAMO_MAXN (R278): Vector atomic natural maximum. -/
  | vamoMaxn (d b : BitVec 5) (m : BitVec 4) (s : BitVec 3) (q l : BitVec 1)
  /-- VAMO_SWAP (R278): Vector atomic swap. -/
  | vamoSwap (d b : BitVec 5) (m : BitVec 4) (s : BitVec 3) (q l : BitVec 1)
  /-- FWDMOVE (R283): Moves each source line to its destination and leaves a forwarding record. -/
  | fwdmove (a b : BitVec 5) (m : BitVec 4)
  /-- FWDRES (R285): Resolves pointers through their forwarding chains. -/
  | fwdres (d a : BitVec 5) (m : BitVec 4)
  /-- FWDRESFF (R285): Resolves pointers, trimming VL at a miss, depth or stale fault. -/
  | fwdresff (d a : BitVec 5) (m : BitVec 4)
  /-- PCMPR (R286): Compares pointers by where their chains end. -/
  | pcmpr (d a b : BitVec 5) (m : BitVec 4)
  /-- FWDPATH (R287): Rewrites multi-hop chains to point at their final line. -/
  | fwdpath (a : BitVec 5) (m : BitVec 4)
  /-- FWDRECL (R288): Sets a region to RECLAIM, waits for in-flight accesses, then returns its lines to NORMAL. -/
  | fwdrecl (a : BitVec 5)
  /-- FWDRECL_TOMB (R288): Sets a region to TOMB and its forwarded lines to TOMBSTONE. -/
  | fwdreclTomb (a : BitVec 5)
  /-- CPSTEP (R291): Retires the oldest unretired strip of a copy channel. -/
  | cpstep (c : BitVec 5)
  /-- CPWAIT (R291): Releases every strip and waits until the channel has landed all or stopped. -/
  | cpwait (c : BitVec 5)
  /-- CPLAND (R291): Returns the channel's landed count without waiting. -/
  | cpland (d c : BitVec 5)
  /-- CPCFG (R290): Reads a copy descriptor, configures a channel and releases strips 0 to 3. -/
  | cpcfg (a c : BitVec 5) (t : BitVec 8)
  /-- LAUNCH (R332): Releases at .sys and submits a launch packet to a queue, writing a status. -/
  | launch (d a b : BitVec 5)
  /-- CLAIM (R333): Takes a chunk of elements from the launch's claim counter. -/
  | claim (d a : BitVec 5)
  /-- GRUN (R335): Releases at .sys and starts a graph from a graph-start line. -/
  | grun (d a : BitVec 5)
  /-- GBAR (R320): Releases, arrives at the gang barrier, waits for the episode and acquires. -/
  | gbar
  /-- SOPEN (R324): Binds a local register as consumer of another member's register stream. -/
  | sopen (d a k : BitVec 5)
  /-- SCLOSE (R327): Ends a stream binding and zeroes the register. -/
  | sclose (d : BitVec 5)
  /-- BST_VECTOR (R328): Releases at .towr and queues broadcast writes of vector elements. -/
  | bstVector (d a : BitVec 5) (m : BitVec 4)
  /-- BST_SCALAR (R328): Queues a broadcast write of 8 scalar bytes. -/
  | bstScalar (a b : BitVec 5)
  /-- BACQ (R330): Waits until the tier has applied the broadcast order up to its target, then acquires. -/
  | bacq
  /-- MOPA (R298): Accumulates an outer product of two operands into a tile. -/
  | mopa (d a b : BitVec 5) (ta tb : BitVec 8) (sa sb : BitVec 3) (sat scl : Bool)
  /-- MZERO (R300): Zeroes every cell of a granted tile. -/
  | mzero (d : BitVec 5)
  /-- MFILL (R300): Sets every cell of a tile to a scalar value. -/
  | mfill (d a : BitVec 5)
  /-- MDRAIN (R301): Stores tile columns to memory with a row stride. -/
  | mdrain (d a b : BitVec 5) (m : BitVec 4) (ta : BitVec 8)
  /-- MRDROW (R302): Reads one tile row into a vector register. -/
  | mrdrow (d a b : BitVec 5) (ta : BitVec 8)
  /-- VHAD (R307): Applies a blockwise Hadamard transform and narrows the result. -/
  | vhad (d a : BitVec 5) (m : BitVec 4) (ta tb : BitVec 8) (n : BitVec 4)
  /-- VCVTN (R304): Narrows wide floats to a narrow format with one rounding. -/
  | vcvtn (d a : BitVec 5) (m : BitVec 4) (ta tb : BitVec 8) (sa : BitVec 3) (scl : Bool)
  /-- VCVTW (R305): Widens narrow elements times their scales. -/
  | vcvtw (d a : BitVec 5) (m : BitVec 4) (ta tb : BitVec 8) (sa : BitVec 3) (scl : Bool)
  /-- VSCALE (R306): Derives per-block scale codes from block maxima. -/
  | vscale (d a : BitVec 5) (ta tb : BitVec 8)
  /-- XCFG (R309): Configures a Lacewing history and reserves its space. -/
  | xcfg (d a : BitVec 5)
  /-- XCKPT (R310): Appends each element's value to its history. -/
  | xckpt (d a : BitVec 5) (m : BitVec 4)
  /-- XDRAIN (R311): Writes each element's extrapolated estimate and updates its flags. -/
  | xdrain (d a : BitVec 5) (m : BitVec 4)
  /-- XSTAT (R316): Copies a history flag into a mask. -/
  | xstat (d a : BitVec 5) (m : BitVec 4) (f : BitVec 2)
  /-- XCLR (R316): Clears every element's entries, PREV and flags. -/
  | xclr (d : BitVec 5)
  /-- ADD (R215): Adds two x registers modulo 2^64. -/
  | add (d a b : BitVec 5)
  /-- SUB (R215): Subtracts x[b] from x[a] modulo 2^64. -/
  | sub (d a b : BitVec 5)
  /-- AND (R215): Bitwise AND of two x registers. -/
  | and (d a b : BitVec 5)
  /-- OR (R215): Bitwise OR of two x registers. -/
  | or (d a b : BitVec 5)
  /-- XOR (R215): Bitwise XOR of two x registers. -/
  | xor (d a b : BitVec 5)
  /-- SLL (R215): Shifts x[a] left by the natural count in x[b], under R36. -/
  | sll (d a b : BitVec 5)
  /-- SRL (R215): Shifts x[a] right logically by x[b]. -/
  | srl (d a b : BitVec 5)
  /-- SRA (R215): Shifts x[a] right arithmetically by x[b]. -/
  | sra (d a b : BitVec 5)
  /-- MUL (R215): Writes the low 64 bits of the product. -/
  | mul (d a b : BitVec 5)
  /-- MULH (R215): Writes the high 64 bits of the signed product. -/
  | mulh (d a b : BitVec 5)
  /-- MULHN (R215): Writes the high 64 bits of the natural product. -/
  | mulhn (d a b : BitVec 5)
  /-- DIV (R215): Signed quotient under R35. -/
  | div (d a b : BitVec 5)
  /-- DIVN (R215): Natural quotient under R35. -/
  | divn (d a b : BitVec 5)
  /-- REM (R215): Signed remainder under R35. -/
  | rem (d a b : BitVec 5)
  /-- REMN (R215): Natural remainder under R35. -/
  | remn (d a b : BitVec 5)
  /-- SLT (R215): Writes 1 when x[a] is below x[b] signed, else 0. -/
  | slt (d a b : BitVec 5)
  /-- SLTN (R215): Writes 1 when x[a] is below x[b] natural, else 0. -/
  | sltn (d a b : BitVec 5)
  /-- MIN (R215): Signed minimum of two x registers. -/
  | min (d a b : BitVec 5)
  /-- MAX (R215): Signed maximum of two x registers. -/
  | max (d a b : BitVec 5)
  /-- MINN (R215): Natural minimum of two x registers. -/
  | minn (d a b : BitVec 5)
  /-- MAXN (R215): Natural maximum of two x registers. -/
  | maxn (d a b : BitVec 5)
  /-- CLZ (R215): Counts leading zero bits of x[a]. -/
  | clz (d a : BitVec 5)
  /-- CTZ (R215): Counts trailing zero bits of x[a]. -/
  | ctz (d a : BitVec 5)
  /-- POPC (R215): Counts set bits of x[a]. -/
  | popc (d a : BitVec 5)
  /-- SEXT (R215): Sign-extends the low 8, 16 or 32 bits of x[a]. -/
  | sext (d a w : BitVec 5)
  /-- ZEXT (R215): Zero-extends the low 8, 16 or 32 bits of x[a]. -/
  | zext (d a w : BitVec 5)
  /-- ADDI (R216): Adds a sign-extended 14-bit immediate. -/
  | addi (d a : BitVec 5) (i : BitVec 14)
  /-- ANDI (R216): Bitwise AND with a sign-extended immediate. -/
  | andi (d a : BitVec 5) (i : BitVec 14)
  /-- ORI (R216): Bitwise OR with a sign-extended immediate. -/
  | ori (d a : BitVec 5) (i : BitVec 14)
  /-- XORI (R216): Bitwise XOR with a sign-extended immediate. -/
  | xori (d a : BitVec 5) (i : BitVec 14)
  /-- SLTI (R216): Signed compare with an immediate. -/
  | slti (d a : BitVec 5) (i : BitVec 14)
  /-- SLLI (R216): Shifts left by an immediate count. -/
  | slli (d a : BitVec 5) (c : BitVec 6)
  /-- SRLI (R216): Shifts right logically by an immediate count. -/
  | srli (d a : BitVec 5) (c : BitVec 6)
  /-- SRAI (R216): Shifts right arithmetically by an immediate count. -/
  | srai (d a : BitVec 5) (c : BitVec 6)
  /-- C_ADD (R204): Compressed ADD on x8 to x15. -/
  | cAdd (d a b : BitVec 3)
  /-- C_SUB (R204): Compressed SUB. -/
  | cSub (d a b : BitVec 3)
  /-- C_AND (R204): Compressed AND. -/
  | cAnd (d a b : BitVec 3)
  /-- C_OR (R204): Compressed OR. -/
  | cOr (d a b : BitVec 3)
  /-- C_XOR (R204): Compressed XOR. -/
  | cXor (d a b : BitVec 3)
  /-- C_ADDI (R204): Compressed ADDI with a 5-bit signed immediate. -/
  | cAddi (d a : BitVec 3) (i : BitVec 5)
  /-- C_LI (R204): Compressed ADDI from x0. -/
  | cLi (d : BitVec 3) (i : BitVec 5)
  /-- C_SLLI (R204): Compressed SLLI. -/
  | cSlli (d a : BitVec 3) (i : BitVec 5)
  /-- C_SRLI (R204): Compressed SRLI. -/
  | cSrli (d a : BitVec 3) (i : BitVec 5)
  /-- C_SRAI (R204): Compressed SRAI. -/
  | cSrai (d a : BitVec 3) (i : BitVec 5)
  /-- C_LD_S32 (R204): Compressed word load with a scaled offset. -/
  | cLdS32 (d a : BitVec 3) (i : BitVec 5)
  /-- C_LD_64 (R204): Compressed 8-byte load with a scaled offset. -/
  | cLd64 (d a : BitVec 3) (i : BitVec 5)
  /-- C_ST_32 (R204): Compressed word store. -/
  | cSt32 (d a : BitVec 3) (i : BitVec 5)
  /-- C_ST_64 (R204): Compressed 8-byte store. -/
  | cSt64 (d a : BitVec 3) (i : BitVec 5)
  /-- C_BEQ (R204): Compressed branch when a register is zero. -/
  | cBeq (a : BitVec 3) (i : BitVec 8)
  /-- C_BNE (R204): Compressed branch when a register is nonzero. -/
  | cBne (a : BitVec 3) (i : BitVec 8)
  /-- VTYPE_WRITE (R66): A CSR write of VTYPE validates it, sets or clears VILL and clamps VL. -/
  | vtypeWrite (g : Nat) (v : Word)
  /-- VSTART_WRITE (R64): A CSR write of VSTART that the next sent vector instruction captures. -/
  | vstartWrite (g : Nat) (v : Word)
  /-- RMODE_WRITE (R67): A CSR write of RMODE, setting reserved modes to 0, for later sends. -/
  | rmodeWrite (g : Nat) (v : Word)
  /-- VLCAP_WRITE (R81): A VLCAP write rounded and clamped, taking effect at the next VSETL, VSETT or VTYPE write. -/
  | vlcapWrite (g : Nat) (v : Word)
  /-- SPBANKS_WRITE (R79): A SPBANKS write that waits for scratchpad accesses, zeroes the new scratchpad and moves banks. -/
  | spbanksWrite (g : Nat) (v : Word)
  /-- PTROOT_WRITE (R231): A PTROOT write applying to walks that begin after it. -/
  | ptrootWrite (g : Nat) (v : Word)
  /-- CSR_WRITE (R61): A CSR write to a register with no behaviour of its own. -/
  | csrWrite (g : Nat) (c : BitVec 12) (v : Word)
  /-- ENQUEUE_STORE (R122): A full-line write to a launch queue window is checked and accepted or refused with a status. -/
  | enqueueStore (w : Caller) (q off : Nat) (line : BitVec 1024) (full : Bool)
  /-- GRAPH_START_WINDOW (R121): A full-line write to offset 0x080 of a launch queue window starts a graph. -/
  | graphStartWindow (w : Caller) (q : Nat) (line : BitVec 1024) (full : Bool)
  /-- PLACE_GANG (R117): Each cycle a tower's front end chooses a partition and queue and places one gang. -/
  | placeGang (tower : Nat)
  /-- AGING_STEP (R116): After 65,536 ready unplaced cycles a queue's step count rises; at 8 it becomes urgent. -/
  | agingStep (q : Nat)
  /-- PREEMPTION (R343): A hart is stopped at a resumable position and its image written within 24,000 cycles. -/
  | preemption (g : Nat)
  /-- GRAPH_NODE_START (R149): The walker starts a READY node by enqueuing its packet or starting its copy. -/
  | graphNodeStart (gr node : Nat)
  /-- VECTOR_ENTRY_COMPLETE (R124): A vector-queue entry completes in program order and fills its read-queue entry. -/
  | vectorEntryComplete (g : Nat)
  /-- FAULT_RECORD_POST (R127): A fault record is written to the fault queue, PROD advanced, and the trap delivered. -/
  | faultRecordPost (p : Nat)
  /-- EVENT_DELIVERY (R374): The partition event word is delivered to its target hart as an asynchronous event. -/
  | eventDelivery (p : Nat)
  /-- EVENT_WINDOW_WRITE (R374): An 8-byte write to an event window ORs soft bits into the event word. -/
  | eventWindowWrite (w : Caller) (p : Nat) (v : Word)
  /-- WFE_TIMEOUT (R234): WFE completes after 65,536 cycles. -/
  | wfeTimeout (g : Nat)
  /-- STRIP_FETCH (R126): A copy channel fetches elements of a released strip while it has buffer room. -/
  | stripFetch (g ch elem : Nat)
  /-- ELEMENT_LANDING (R292): A fetched copy element lands, advancing LAND and WMARK when it extends the leading run. -/
  | elementLanding (g ch elem : Nat)
  /-- MOVE_COMPLETE (R101): A moving line's data reaches its destination and the line becomes FORWARDED with its record. -/
  | moveComplete (line : Nat)
  /-- RECLAIM_COMPLETE (R288): After the awaited accesses finish, region lines return to NORMAL and the region to FREE. -/
  | reclaimComplete (p idx : Nat)
  /-- POSTED_WRITE_FOLLOW (R398): A completed write that reaches a forwarded line is followed and performed or posted as failed. -/
  | postedWriteFollow (g : Nat)
  /-- SCRUB (R111): The home slice scrubs each DRAM line once in 24 hours. -/
  | scrub (tier line : Nat) (corrected : Nat) (passEnd : Bool)
  /-- UNCORRECTABLE_ERROR (R112): An uncorrectable error is handled according to where it occurs. -/
  | uncorrectableError (site : ErrSite)
  /-- LANE_GROUP_RETIREMENT (R80): The device retires a lane group of a core whose harts are all pre-empted. -/
  | laneGroupRetirement (core lg : Nat)
  /-- FRAME_BOUNDARY (R159): Every 256 cycles the tower's frame counter advances and pending slot-table writes take effect. -/
  | frameBoundary (tower : Nat)
  /-- SLOT_TRANSMISSION (R147): In each slot the owning or borrowing tier transmits the head write of a partition queue. -/
  | slotTransmission (tower slot : Nat) (crcOk : Bool)
  /-- BROADCAST_APPLY (R329): A tier applies a transmitted broadcast write to its replica in sequence order. -/
  | broadcastApply (tier : Nat) (crcOk : Bool)
  /-- TIER_SLEEP (R383): A tier idle for 65,536 cycles under its sleep policy enters SLEEP. -/
  | tierSleep (tier : Nat)
  /-- TIER_WAKE (R383): A sleeping tier's wake ends and replay or refill begins. -/
  | tierWake (tier : Nat)
  /-- WAKE_LOG_REPLAY_END (R128): Replay empties the wake log, the replica becomes CURRENT and the tier's cores may run. -/
  | wakeLogReplayEnd (tier : Nat)
  /-- REPLICA_REFILL_END (R106): A STALE replica finishes refilling from a neighbour and becomes CURRENT. -/
  | replicaRefillEnd (tier : Nat)
  /-- POWER_SAMPLE (R384): Every 1,100 cycles the power controller adjusts MXRATE and may set THERMAL. -/
  | powerSample (watts : Nat) (hot : Bool)
  /-- THERMAL_SHUTDOWN (R384): A junction above 110 °C for 1 ms makes the management controller remove power. -/
  | thermalShutdown
  /-- POWER_UP (R386): Bring-up runs secure boot, DRAM initialisation, lane tests and link training in order. -/
  | powerUp (imageOk versionOk : Bool) (lanes : List (Nat × Nat)) (deadLinks : List Nat)
  /-- LINK_RETRAIN_ENTRY (R372): A link leaves UP for RETRAIN after repeated CRC failure or lane loss. -/
  | linkRetrainEntry (k : Nat)
  /-- TRAINING_ATTEMPT_END (R372): A training attempt succeeds, returning the link to UP, or fails at 110,000 cycles and restarts. -/
  | trainingAttemptEnd (k : Nat) (ok : Bool)
  /-- LINK_DOWN_TIMEOUT (R372): A link 1 ms out of UP without success enters DOWN. -/
  | linkDownTimeout (k : Nat)
  /-- FABRIC_REQUEST (R373): A request from the fabric is checked against the access table and performed or refused. -/
  | fabricRequest (id : Nat) (part : Option Nat) (req : FabReq)
  /-- PART_INFO (R376): Returns the partition's entry. -/
  | partInfo (m : Mbox) (w : Caller) (tag : BitVec 16)
  /-- COUNTERS (R376): Returns a counter-window row that belongs to the partition. -/
  | counters (m : Mbox) (w : Caller) (tag : BitVec 16) (off : Nat)
  /-- SHOOTDOWN (R376): Runs the TLBI steps over the partition. -/
  | shootdown (m : Mbox) (w : Caller) (tag : BitVec 16) (va : Word) (all : Bool)
  /-- RESUME (R376): Reloads the launch queues from the save area and clears PAUSE. -/
  | resume (m : Mbox) (w : Caller) (tag : BitVec 16)
  /-- ABANDON (R351): Discards a launch or graph and writes its FAILED record and journal status. -/
  | abandon (m : Mbox) (w : Caller) (tag : BitVec 16) (paddr : Word) (abcode : BitVec 16)
  /-- SETEVENT (R376): Sets the event target hart and HEVADDR. -/
  | setevent (m : Mbox) (w : Caller) (tag : BitVec 16) (target : Nat) (hevaddr : Word)
  /-- QUOTA (R376): Writes the partition's hart quotas. -/
  | quota (m : Mbox) (w : Caller) (tag : BitVec 16) (q0 q1 : Nat)
  /-- QPAIR (R376): Claims Ethernet queue pairs on a port. -/
  | qpair (m : Mbox) (w : Caller) (tag : BitVec 16) (port count : Nat)
  /-- MREG (R376): Registers a memory range for inbound RDMA and returns a key. -/
  | mreg (m : Mbox) (w : Caller) (tag : BitVec 16) (port : Nat) (va : Word) (len : Nat) (rd wr : Bool)
  /-- MDEREG (R376): Ends a registration once its inbound accesses complete. -/
  | mdereg (m : Mbox) (w : Caller) (tag : BitVec 16) (key : Nat)
  /-- QPCONN (R379): Connects a claimed queue pair as a reliable connection. -/
  | qpconn (m : Mbox) (w : Caller) (tag : BitVec 16) (port qp : Nat) (conn : QpConn)
  /-- CREATE (R151): Creates a partition, FREE to CONFIG. -/
  | create (m : Mbox) (w : Caller) (tag : BitVec 16) (p : Nat) (entry : BitVec 2048)
  /-- LOCK (R151): Locks a partition after overlap and range checks, CONFIG to LOCKED. -/
  | lock (m : Mbox) (w : Caller) (tag : BitVec 16) (p : Nat)
  /-- START (R151): Starts a partition, LOCKED to RUN. -/
  | start (m : Mbox) (w : Caller) (tag : BitVec 16) (p : Nat)
  /-- STOP (R151): Pre-empts every placed gang, saves the queue state and returns the partition to CONFIG. -/
  | stop (m : Mbox) (w : Caller) (tag : BitVec 16) (p : Nat)
  /-- TEARDOWN (R151): Zeroes the partition's memory, clears its clusters and frees it. -/
  | teardown (m : Mbox) (w : Caller) (tag : BitVec 16) (p : Nat)
  /-- SLOTS (R376): Writes a tower's slot table, broadcast region and wake-log offsets. -/
  | slots (m : Mbox) (w : Caller) (tag : BitVec 16) (tower : Nat) (entries : List (BitVec 16)) (off len : Nat) (wlogs : List Nat)
  /-- ACCESS (R373): Writes an access-table entry. -/
  | access (m : Mbox) (w : Caller) (tag : BitVec 16) (id : Nat) (pmask : Word) (mgmt : Bool)
  /-- LINK (R372): Moves a DOWN link to RETRAIN. -/
  | link (m : Mbox) (w : Caller) (tag : BitVec 16) (k : Nat)
  /-- DOMAIN (R376): Sets the package number. -/
  | domain (m : Mbox) (w : Caller) (tag : BitVec 16) (pkg : Nat)
  /-- MIGRATE (R352): Transfers a partition to or from a peer over a secure session. -/
  | migrate (m : Mbox) (w : Caller) (tag : BitVec 16) (p peer : Nat) (out : Bool) (entry : BitVec 2048) (image : List (Nat × BitVec 8))
  /-- SLEEP (R376): Sets or clears the sleep policy of named tiers. -/
  | sleep (m : Mbox) (w : Caller) (tag : BitVec 16) (tower mask : Nat) (on : Bool)
  /-- WORK_LINE_POST (R378): A full-line write posts an Ethernet work line, answered with a status. -/
  | workLinePost (w : Caller) (port p : Nat) (line : BitVec 1024) (full : Bool)
  /-- WORK_LINE_COMPLETION (R378): The port writes a work line's 16-byte completion with release at .sys. -/
  | workLineCompletion (port p : Nat) (ok : Bool) (data : List (BitVec 8))
  /-- RECEIVE_LINE_POST (R379): A full-line write posts a receive buffer for a queue pair. -/
  | receiveLinePost (w : Caller) (port p : Nat) (line : BitVec 1024) (full : Bool)
  /-- INBOUND_SEND (R379): An inbound SEND fills the oldest posted receive line or is NAKed. -/
  | inboundSend (port qp : Nat) (data : List (BitVec 8))
  /-- INBOUND_RDMA_WRITE (R379): An inbound RDMA WRITE is checked against its key and performed at its home. -/
  | inboundRdmaWrite (port qp key : Nat) (va : Word) (data : List (BitVec 8))
  /-- INBOUND_RDMA_READ (R379): An inbound RDMA READ is checked against its key and answered. -/
  | inboundRdmaRead (port qp key : Nat) (va : Word) (len : Nat)
  /-- GET_VERSION (R382): SPDM request for supported versions. -/
  | getVersion (peer : Nat)
  /-- GET_CAPABILITIES (R382): SPDM request for capabilities. -/
  | getCapabilities (peer : Nat)
  /-- NEGOTIATE_ALGORITHMS (R382): SPDM algorithm negotiation. -/
  | negotiateAlgorithms (peer : Nat) (offer : List SpdmAlg)
  /-- GET_DIGESTS (R382): SPDM request for certificate digests. -/
  | getDigests (peer : Nat)
  /-- GET_CERTIFICATE (R382): SPDM request for a certificate chain. -/
  | getCertificate (peer : Nat) (off len : Nat)
  /-- CHALLENGE (R382): SPDM challenge answered with an HSS signature. -/
  | challenge (peer : Nat) (nonce : BitVec 256)
  /-- GET_MEASUREMENTS (R381): SPDM request for the signed measurements. -/
  | getMeasurements (peer : Nat) (index : Nat) (signed : Bool)
  /-- KEY_EXCHANGE (R382): SPDM ECDHE key exchange; a fifth session is refused. -/
  | keyExchange (peer : Nat) (share : Nat)
  /-- FINISH (R382): SPDM session finish. -/
  | finish (peer session : Nat)
  /-- END_SESSION (R382): SPDM session end. -/
  | endSession (peer session : Nat)
  /-- POSTED_WRITE_ACK (R178): A peer package's or host's home acknowledges a hart's posted write, removing it from the writes FENCE.SYS waits for. -/
  | postedWriteAck (g k : Nat)
  /-- FLIT_CRC_FAILURE (R372): A received Dvorder flit fails its CRC and is replayed from the 128-flit buffer, counting toward the eight successive retries that send the link to RETRAIN. -/
  | flitCrcFailure (k : Nat)
  deriving DecidableEq, Repr

end Sys2Proof
end

