-- ==== Sys2Proof/WellFormed.lean ====
section
/-!
DEFINITION. WellFormed.lean: the static checks of R206, by name. An instruction that fails one is no instruction: the
device raises ILLEGAL for its words whatever the hart's state. The checks that need the hart's state (the named count,
the register group, the captured VTYPE, the privilege) are made when the instruction executes.
-/
namespace Sys2Proof

/-- Why the words of an instruction select nothing (R206), one name for each kind of field. -/
inductive IllFormed where
  /-- m is 13, 14 or 15 where it is a mask (R184), or 12 where a carry or selection mask is required (R194). -/
  | maskField
  /-- a field of kind M, W, T or E outside its limit (R183). -/
  | registerKind
  /-- a reserved type code, or one the row does not list (R185, R202). -/
  | typeCode
  /-- a scope code the row does not accept (R186). -/
  | scopeCode
  /-- a conversion code the row does not list (R190, R195). -/
  | conversionCode
  /-- a channel above 3 (R199). -/
  | channel
  /-- a constant or format code outside the row (R189, R190, R193). -/
  | constant
  /-- an immediate outside the row's range (LOOP, R182). -/
  | immediate
  /-- CLAIM with a = x0 or a = d (R200). -/
  | claimRegisters
  /-- a TA and TB that form no pair of R203, or FLAGS that the pair forbids. -/
  | mopaPair
  /-- FLAGS outside the row (R202, R303). -/
  | flags
  /-- the compressed form whose parcel would be 0x0000 (R204). -/
  | zeroParcel
  deriving DecidableEq, Repr

/-- CLASS of a type code (R185, R65). -/
def codeClass (t : BitVec 8) : Nat := (t.extractLsb' 0 4).toNat

/-- SUB of a type code (R185, R65). -/
def codeSub (t : BitVec 8) : Nat := (t.extractLsb' 4 4).toNat

/-- A type code that R185 lists: SUB 0 for the packed integers and .b1, any SUB for the narrow integers, SUB 0 to 8 for
floating point. -/
def codeValid (t : BitVec 8) : Bool :=
  match codeClass t with
  | 8 | 9 => true
  | 11 => decide (codeSub t ≤ 8)
  | 12 | 13 | 14 | 15 => false
  | _ => codeSub t == 0

/-- A narrow floating-point format: CLASS 11 with SUB 0 to 4 (R202). -/
def codeNarrowFloat (t : BitVec 8) : Bool := codeClass t == 11 && decide (codeSub t ≤ 4)

/-- A narrow format (R202): CLASS 8, 9 or 10, or CLASS 11 with SUB 0 to 4. -/
def codeNarrow (t : BitVec 8) : Bool :=
  codeValid t && (codeClass t == 8 || codeClass t == 9 || codeClass t == 10 || codeNarrowFloat t)

/-- .f32 or .bf16, the wide operand of the narrowing conversions (R202). -/
def codeWide (t : BitVec 8) : Bool := t == 0x7B#8 || t == 0x6B#8

/-- .s32, .n32 or .f32, the formats of MDRAIN and MRDROW (R202). -/
def codeCell (t : BitVec 8) : Bool := t == 0x02#8 || t == 0x06#8 || t == 0x7B#8

/-- An integer format of R203's second row: .i w, .z w, .s8, .n8, .s16 or .n16. -/
def codeMopaInt (t : BitVec 8) : Bool :=
  codeClass t == 8 || codeClass t == 9 || t == 0x00#8 || t == 0x04#8 || t == 0x01#8 || t == 0x05#8

/-- A float format of R203's third row: .e2m1 to .bf16. -/
def codeMopaFloat (t : BitVec 8) : Bool := codeClass t == 11 && decide (codeSub t ≤ 6)

/-- .b1 (R185). -/
def codeB1 (t : BitVec 8) : Bool := t == 0x0A#8

/-- The pairs of R203: an integer pair allows SAT and no scale; a float or mixed pair allows scales and no SAT, and a mixed
pair leaves the integer operand's scale field zero. -/
def mopaPairOk (ta tb : BitVec 8) (sa sb : BitVec 3) (sat scl : Bool) : Bool :=
  let int := (codeB1 ta || codeMopaInt ta) && (codeB1 tb || codeMopaInt tb)
  let flt := codeMopaFloat ta && codeMopaFloat tb
  let mixA := codeMopaFloat ta && codeMopaInt tb
  let mixB := codeMopaInt ta && codeMopaFloat tb
  if int then !scl
  else if flt then !sat
  else if mixA then !sat && sb == 0#3
  else if mixB then !sat && sa == 0#3
  else false

/-- The m field as a mask: 0 to 12 (R184). -/
def maskOk (m : BitVec 4) : Bool := decide (m.toNat ≤ 12)

/-- The m field naming a carry or selection mask: 0 to 11 (R194). -/
def carryOk (m : BitVec 4) : Bool := decide (m.toNat ≤ 11)

/-- A field of kind M (R183). -/
def mRegOk (r : BitVec 5) : Bool := decide (r.toNat ≤ 11)

/-- A field of kind W (R183). -/
def wRegOk (r : BitVec 5) : Bool := decide (r.toNat ≤ 7)

/-- A field of kind T or E (R183). -/
def tRegOk (r : BitVec 5) : Bool := decide (r.toNat ≤ 3)

/-- Scope 0 to 6 (R192, R198). -/
def scopeOk (s : BitVec 3) : Bool := decide (s.toNat ≤ 6)

/-- The first failing check of a list, if any. -/
def firstFailing : List (Bool × IllFormed) → Option IllFormed
  | [] => none
  | (ok, e) :: rest => if ok then firstFailing rest else some e

namespace Instr

/-- The static checks of an instruction (R206): each condition with the name of its failure. -/
def checks : Instr → List (Bool × IllFormed)
  | .add _ _ _ => []
  | .sub _ _ _ => []
  | .and _ _ _ => []
  | .or _ _ _ => []
  | .xor _ _ _ => []
  | .sll _ _ _ => []
  | .srl _ _ _ => []
  | .sra _ _ _ => []
  | .mul _ _ _ => []
  | .mulh _ _ _ => []
  | .mulhn _ _ _ => []
  | .div _ _ _ => []
  | .divn _ _ _ => []
  | .rem _ _ _ => []
  | .remn _ _ _ => []
  | .slt _ _ _ => []
  | .sltn _ _ _ => []
  | .min _ _ _ => []
  | .max _ _ _ => []
  | .minn _ _ _ => []
  | .maxn _ _ _ => []
  | .clz _ _ => []
  | .ctz _ _ => []
  | .popc _ _ => []
  | .sext _ _ w => [(decide (w.toNat ≤ 2), .constant)]
  | .zext _ _ w => [(decide (w.toNat ≤ 2), .constant)]
  | .addi _ _ _ => []
  | .andi _ _ _ => []
  | .ori _ _ _ => []
  | .xori _ _ _ => []
  | .slti _ _ _ => []
  | .slli _ _ _ => []
  | .srli _ _ _ => []
  | .srai _ _ _ => []
  | .lih _ _ => []
  | .addpc _ _ => []
  | .jal _ _ => []
  | .jalr _ _ _ => []
  | .beq _ _ _ => []
  | .bne _ _ _ => []
  | .blt _ _ _ => []
  | .bge _ _ _ => []
  | .bltn _ _ _ => []
  | .bgen _ _ _ => []
  | .loop _ i => [(decide (3 ≤ i.toNat), .immediate)]
  | .ldS8 _ _ _ => []
  | .ldN8 _ _ _ => []
  | .ldS16 _ _ _ => []
  | .ldN16 _ _ _ => []
  | .ldS32 _ _ _ => []
  | .ldN32 _ _ _ => []
  | .ld64 _ _ _ => []
  | .st8 _ _ _ => []
  | .st16 _ _ _ => []
  | .st32 _ _ _ => []
  | .st64 _ _ _ => []
  | .fadd _ _ _ f => [(decide (f.toNat ≤ 1), .constant)]
  | .fsub _ _ _ f => [(decide (f.toNat ≤ 1), .constant)]
  | .fmul _ _ _ f => [(decide (f.toNat ≤ 1), .constant)]
  | .fdiv _ _ _ f => [(decide (f.toNat ≤ 1), .constant)]
  | .fsqrt _ _ f => [(decide (f.toNat ≤ 1), .constant)]
  | .fma _ _ _ f => [(decide (f.toNat ≤ 1), .constant)]
  | .fmin _ _ _ f => [(decide (f.toNat ≤ 1), .constant)]
  | .fmax _ _ _ f => [(decide (f.toNat ≤ 1), .constant)]
  | .fcmp _ _ _ f _ => [(decide (f.toNat ≤ 1), .constant)]
  | .fclass _ _ f => [(decide (f.toNat ≤ 1), .constant)]
  | .fcvtToFloat _ _ b f => [(decide (f.toNat ≤ 1), .constant), ([2, 3, 6, 7, 18, 19].contains b.toNat, .conversionCode)]
  | .fcvtToInt _ _ b f => [(decide (f.toNat ≤ 1), .constant), ([2, 3, 6, 7].contains b.toNat, .conversionCode)]
  | .csrrw _ _ _ => []
  | .csrrs _ _ _ => []
  | .csrrc _ _ _ => []
  | .trap _ => []
  | .brk => []
  | .eret => []
  | .wfe => []
  | .icsync => []
  | .tlbi _ => []
  | .tlbiAll => []
  | .savectx _ => []
  | .rstctx _ _ => []
  | .quiesce _ => []
  | .retire => []
  | .fenceSv s => [(scopeOk s, .scopeCode)]
  | .fenceVs s => [(scopeOk s, .scopeCode)]
  | .fenceVv s => [(scopeOk s, .scopeCode)]
  | .fenceAll s => [(scopeOk s, .scopeCode)]
  | .fenceSys _ => []
  | .amoAddW _ _ _ s _ _ => [(scopeOk s, .scopeCode)]
  | .amoAndW _ _ _ s _ _ => [(scopeOk s, .scopeCode)]
  | .amoOrW _ _ _ s _ _ => [(scopeOk s, .scopeCode)]
  | .amoXorW _ _ _ s _ _ => [(scopeOk s, .scopeCode)]
  | .amoMinW _ _ _ s _ _ => [(scopeOk s, .scopeCode)]
  | .amoMaxW _ _ _ s _ _ => [(scopeOk s, .scopeCode)]
  | .amoMinnW _ _ _ s _ _ => [(scopeOk s, .scopeCode)]
  | .amoMaxnW _ _ _ s _ _ => [(scopeOk s, .scopeCode)]
  | .amoSwapW _ _ _ s _ _ => [(scopeOk s, .scopeCode)]
  | .amoCasW _ _ _ s _ _ => [(scopeOk s, .scopeCode)]
  | .amoAddD _ _ _ s _ _ => [(scopeOk s, .scopeCode)]
  | .amoAndD _ _ _ s _ _ => [(scopeOk s, .scopeCode)]
  | .amoOrD _ _ _ s _ _ => [(scopeOk s, .scopeCode)]
  | .amoXorD _ _ _ s _ _ => [(scopeOk s, .scopeCode)]
  | .amoMinD _ _ _ s _ _ => [(scopeOk s, .scopeCode)]
  | .amoMaxD _ _ _ s _ _ => [(scopeOk s, .scopeCode)]
  | .amoMinnD _ _ _ s _ _ => [(scopeOk s, .scopeCode)]
  | .amoMaxnD _ _ _ s _ _ => [(scopeOk s, .scopeCode)]
  | .amoSwapD _ _ _ s _ _ => [(scopeOk s, .scopeCode)]
  | .amoCasD _ _ _ s _ _ => [(scopeOk s, .scopeCode)]
  | .vsetlT _ _ t => [(codeValid t, .typeCode)]
  | .vsetl _ _ => []
  | .vcfg b n => [(decide (b.toNat ≤ 2) && decide (n.toNat ≤ 2), .constant)]
  | .vsett _ _ _ => []
  | .vadd _ _ _ m => [(maskOk m, .maskField)]
  | .vsub _ _ _ m => [(maskOk m, .maskField)]
  | .vmul _ _ _ m => [(maskOk m, .maskField)]
  | .vmulh _ _ _ m => [(maskOk m, .maskField)]
  | .vmacc _ _ _ m => [(maskOk m, .maskField)]
  | .vdiv _ _ _ m => [(maskOk m, .maskField)]
  | .vrem _ _ _ m => [(maskOk m, .maskField)]
  | .vmin _ _ _ m => [(maskOk m, .maskField)]
  | .vmax _ _ _ m => [(maskOk m, .maskField)]
  | .vand _ _ _ m => [(maskOk m, .maskField)]
  | .vor _ _ _ m => [(maskOk m, .maskField)]
  | .vxor _ _ _ m => [(maskOk m, .maskField)]
  | .vsll _ _ _ m => [(maskOk m, .maskField)]
  | .vsrl _ _ _ m => [(maskOk m, .maskField)]
  | .vsra _ _ _ m => [(maskOk m, .maskField)]
  | .vadds _ _ _ m => [(maskOk m, .maskField)]
  | .vsubs _ _ _ m => [(maskOk m, .maskField)]
  | .vadc _ _ _ m => [(carryOk m, .maskField)]
  | .vsbc _ _ _ m => [(carryOk m, .maskField)]
  | .vmerge _ _ _ m => [(carryOk m, .maskField)]
  | .vaddX _ _ _ m => [(maskOk m, .maskField)]
  | .vsubX _ _ _ m => [(maskOk m, .maskField)]
  | .vmulX _ _ _ m => [(maskOk m, .maskField)]
  | .vmulhX _ _ _ m => [(maskOk m, .maskField)]
  | .vmaccX _ _ _ m => [(maskOk m, .maskField)]
  | .vdivX _ _ _ m => [(maskOk m, .maskField)]
  | .vremX _ _ _ m => [(maskOk m, .maskField)]
  | .vminX _ _ _ m => [(maskOk m, .maskField)]
  | .vmaxX _ _ _ m => [(maskOk m, .maskField)]
  | .vandX _ _ _ m => [(maskOk m, .maskField)]
  | .vorX _ _ _ m => [(maskOk m, .maskField)]
  | .vxorX _ _ _ m => [(maskOk m, .maskField)]
  | .vsllX _ _ _ m => [(maskOk m, .maskField)]
  | .vsrlX _ _ _ m => [(maskOk m, .maskField)]
  | .vsraX _ _ _ m => [(maskOk m, .maskField)]
  | .vaddsX _ _ _ m => [(maskOk m, .maskField)]
  | .vsubsX _ _ _ m => [(maskOk m, .maskField)]
  | .vadcX _ _ _ m => [(carryOk m, .maskField)]
  | .vsbcX _ _ _ m => [(carryOk m, .maskField)]
  | .vmergeX _ _ _ m => [(carryOk m, .maskField)]
  | .vcmpeq d _ _ m => [(mRegOk d, .registerKind), (maskOk m, .maskField)]
  | .vcmpne d _ _ m => [(mRegOk d, .registerKind), (maskOk m, .maskField)]
  | .vcmplt d _ _ m => [(mRegOk d, .registerKind), (maskOk m, .maskField)]
  | .vcmple d _ _ m => [(mRegOk d, .registerKind), (maskOk m, .maskField)]
  | .vcmpgt d _ _ m => [(mRegOk d, .registerKind), (maskOk m, .maskField)]
  | .vcmpge d _ _ m => [(mRegOk d, .registerKind), (maskOk m, .maskField)]
  | .vfcmpeq d _ _ m => [(mRegOk d, .registerKind), (maskOk m, .maskField)]
  | .vfcmplt d _ _ m => [(mRegOk d, .registerKind), (maskOk m, .maskField)]
  | .vfcmple d _ _ m => [(mRegOk d, .registerKind), (maskOk m, .maskField)]
  | .vfcmpne d _ _ m => [(mRegOk d, .registerKind), (maskOk m, .maskField)]
  | .vfcmpun d _ _ m => [(mRegOk d, .registerKind), (maskOk m, .maskField)]
  | .vfadd _ _ _ m => [(maskOk m, .maskField)]
  | .vfsub _ _ _ m => [(maskOk m, .maskField)]
  | .vfmul _ _ _ m => [(maskOk m, .maskField)]
  | .vfma _ _ _ m => [(maskOk m, .maskField)]
  | .vfdiv _ _ _ m => [(maskOk m, .maskField)]
  | .vfsqrt _ _ m => [(maskOk m, .maskField)]
  | .vfmin _ _ _ m => [(maskOk m, .maskField)]
  | .vfmax _ _ _ m => [(maskOk m, .maskField)]
  | .vfcvt _ _ m k => [(maskOk m, .maskField), (decide (k.toNat ≤ 7) || (decide (16 ≤ k.toNat) && decide (k.toNat ≤ 19)), .conversionCode)]
  | .vfrcp _ _ m => [(maskOk m, .maskField)]
  | .vfrsq _ _ m => [(maskOk m, .maskField)]
  | .vfexp2 _ _ m => [(maskOk m, .maskField)]
  | .vflog2 _ _ m => [(maskOk m, .maskField)]
  | .vftanh _ _ m => [(maskOk m, .maskField)]
  | .vfaddX _ _ _ m => [(maskOk m, .maskField)]
  | .vfsubX _ _ _ m => [(maskOk m, .maskField)]
  | .vfmulX _ _ _ m => [(maskOk m, .maskField)]
  | .vfmaX _ _ _ m => [(maskOk m, .maskField)]
  | .vfminX _ _ _ m => [(maskOk m, .maskField)]
  | .vfmaxX _ _ _ m => [(maskOk m, .maskField)]
  | .vmv _ _ m => [(maskOk m, .maskField)]
  | .vmvFromScalar _ _ m => [(maskOk m, .maskField)]
  | .vslideup _ _ _ m => [(maskOk m, .maskField)]
  | .vslidedn _ _ _ m => [(maskOk m, .maskField)]
  | .vperm _ _ _ m => [(maskOk m, .maskField)]
  | .vcompress _ _ b => [(mRegOk b, .registerKind)]
  | .viota _ a m => [(mRegOk a, .registerKind), (maskOk m, .maskField)]
  | .vid _ m => [(maskOk m, .maskField)]
  | .vmvToScale d _ => [(wRegOk d, .registerKind)]
  | .vmvFromScale _ a => [(wRegOk a, .registerKind)]
  | .vredAdd _ _ _ m => [(maskOk m, .maskField)]
  | .vredAnd _ _ _ m => [(maskOk m, .maskField)]
  | .vredOr _ _ _ m => [(maskOk m, .maskField)]
  | .vredXor _ _ _ m => [(maskOk m, .maskField)]
  | .vredMin _ _ _ m => [(maskOk m, .maskField)]
  | .vredMax _ _ _ m => [(maskOk m, .maskField)]
  | .vfredo _ _ _ m => [(maskOk m, .maskField)]
  | .vfredt _ _ _ m => [(maskOk m, .maskField)]
  | .mand d a b => [(mRegOk d && mRegOk a && mRegOk b, .registerKind)]
  | .mor d a b => [(mRegOk d && mRegOk a && mRegOk b, .registerKind)]
  | .mxor d a b => [(mRegOk d && mRegOk a && mRegOk b, .registerKind)]
  | .mandn d a b => [(mRegOk d && mRegOk a && mRegOk b, .registerKind)]
  | .mnot d a => [(mRegOk d && mRegOk a, .registerKind)]
  | .mwhile d _ => [(mRegOk d, .registerKind)]
  | .mpop _ a => [(mRegOk a, .registerKind)]
  | .mpopVl _ a => [(mRegOk a, .registerKind)]
  | .mfirst _ a => [(mRegOk a, .registerKind)]
  | .mlast _ a => [(mRegOk a, .registerKind)]
  | .mshup d a => [(mRegOk d && mRegOk a, .registerKind)]
  | .vtopk d _ _ m => [(mRegOk d, .registerKind), (maskOk m, .maskField)]
  | .vld _ _ m => [(maskOk m, .maskField)]
  | .vlds _ _ _ m => [(maskOk m, .maskField)]
  | .vlx _ _ _ m => [(maskOk m, .maskField)]
  | .vldff _ _ m => [(maskOk m, .maskField)]
  | .vlxff _ _ _ m => [(maskOk m, .maskField)]
  | .vldScale d _ => [(wRegOk d, .registerKind)]
  | .vldMask d _ => [(mRegOk d, .registerKind)]
  | .vst _ _ m => [(maskOk m, .maskField)]
  | .vsts _ _ _ m => [(maskOk m, .maskField)]
  | .vsx _ _ _ m => [(maskOk m, .maskField)]
  | .vscadd _ _ _ m => [(maskOk m, .maskField)]
  | .vstScale d _ => [(wRegOk d, .registerKind)]
  | .vstMask d _ => [(mRegOk d, .registerKind)]
  | .vxlate _ _ b m => [(mRegOk b, .registerKind), (maskOk m, .maskField)]
  | .vxlateff _ _ b m => [(mRegOk b, .registerKind), (maskOk m, .maskField)]
  | .vamoAdd _ _ m s _ _ => [(scopeOk s, .scopeCode), (maskOk m, .maskField)]
  | .vamoAnd _ _ m s _ _ => [(scopeOk s, .scopeCode), (maskOk m, .maskField)]
  | .vamoOr _ _ m s _ _ => [(scopeOk s, .scopeCode), (maskOk m, .maskField)]
  | .vamoXor _ _ m s _ _ => [(scopeOk s, .scopeCode), (maskOk m, .maskField)]
  | .vamoMin _ _ m s _ _ => [(scopeOk s, .scopeCode), (maskOk m, .maskField)]
  | .vamoMax _ _ m s _ _ => [(scopeOk s, .scopeCode), (maskOk m, .maskField)]
  | .vamoMinn _ _ m s _ _ => [(scopeOk s, .scopeCode), (maskOk m, .maskField)]
  | .vamoMaxn _ _ m s _ _ => [(scopeOk s, .scopeCode), (maskOk m, .maskField)]
  | .vamoSwap _ _ m s _ _ => [(scopeOk s, .scopeCode), (maskOk m, .maskField)]
  | .fwdmove _ _ m => [(maskOk m, .maskField)]
  | .fwdres _ _ m => [(maskOk m, .maskField)]
  | .fwdresff _ _ m => [(maskOk m, .maskField)]
  | .pcmpr d _ _ m => [(mRegOk d, .registerKind), (maskOk m, .maskField)]
  | .fwdpath _ m => [(maskOk m, .maskField)]
  | .fwdrecl _ => []
  | .fwdreclTomb _ => []
  | .cpstep c => [(decide (c.toNat ≤ 3), .channel)]
  | .cpwait c => [(decide (c.toNat ≤ 3), .channel)]
  | .cpland _ c => [(decide (c.toNat ≤ 3), .channel)]
  | .cpcfg _ c t => [(decide (c.toNat ≤ 3), .channel), (codeValid t, .typeCode)]
  | .launch _ _ _ => []
  | .claim d a => [(a != 0#5 && a != d, .claimRegisters)]
  | .grun _ _ => []
  | .gbar => []
  | .sopen _ _ _ => []
  | .sclose _ => []
  | .bstVector _ _ m => [(maskOk m, .maskField)]
  | .bstScalar _ _ => []
  | .bacq => []
  | .mopa d _ _ ta tb sa sb sat scl => [(tRegOk d, .registerKind), (codeValid ta && codeValid tb, .typeCode), (mopaPairOk ta tb sa sb sat scl, .mopaPair)]
  | .mzero d => [(tRegOk d, .registerKind)]
  | .mfill d _ => [(tRegOk d, .registerKind)]
  | .mdrain d _ _ m ta => [(tRegOk d, .registerKind), (maskOk m, .maskField), (codeCell ta, .typeCode)]
  | .mrdrow _ a _ ta => [(tRegOk a, .registerKind), (codeCell ta, .typeCode)]
  | .vhad _ _ m ta tb n => [(maskOk m, .maskField), (ta == 0x7B#8 || (codeClass ta == 8 || codeClass ta == 9) || codeNarrowFloat ta, .typeCode), (codeWide tb, .typeCode), (decide (1 ≤ n.toNat) && decide (n.toNat ≤ 7), .flags)]
  | .vcvtn _ _ m ta tb _ scl => [(maskOk m, .maskField), (codeNarrow ta && codeWide tb, .typeCode), (!scl || codeNarrowFloat ta, .flags)]
  | .vcvtw _ _ m ta tb _ scl => [(maskOk m, .maskField), (codeNarrow ta && (codeWide tb || tb == 0x5B#8), .typeCode), (!scl || codeNarrowFloat ta, .flags)]
  | .vscale d _ ta tb => [(wRegOk d, .registerKind), (codeNarrowFloat ta && codeWide tb, .typeCode)]
  | .xcfg d _ => [(tRegOk d, .registerKind)]
  | .xckpt d _ m => [(tRegOk d, .registerKind), (maskOk m, .maskField)]
  | .xdrain _ a m => [(tRegOk a, .registerKind), (maskOk m, .maskField)]
  | .xstat d a m _ => [(mRegOk d && tRegOk a, .registerKind), (maskOk m, .maskField)]
  | .xclr d => [(tRegOk d, .registerKind)]
  | .cAdd d a b => [(decide (¬ (d = 0#3 ∧ a = 0#3 ∧ b = 0#3)), .zeroParcel)]
  | .cSub _ _ _ => []
  | .cAnd _ _ _ => []
  | .cOr _ _ _ => []
  | .cXor _ _ _ => []
  | .cAddi _ _ _ => []
  | .cLi _ _ => []
  | .cSlli _ _ _ => []
  | .cSrli _ _ _ => []
  | .cSrai _ _ _ => []
  | .cLdS32 _ _ _ => []
  | .cLd64 _ _ _ => []
  | .cSt32 _ _ _ => []
  | .cSt64 _ _ _ => []
  | .cBeq _ _ => []
  | .cBne _ _ => []
  | .vtypeWrite _ _ => []
  | .vstartWrite _ _ => []
  | .rmodeWrite _ _ => []
  | .vlcapWrite _ _ => []
  | .spbanksWrite _ _ => []
  | .ptrootWrite _ _ => []
  | .csrWrite _ _ _ => []
  | .enqueueStore _ _ _ _ _ => []
  | .graphStartWindow _ _ _ _ => []
  | .placeGang _ => []
  | .agingStep _ => []
  | .preemption _ => []
  | .graphNodeStart _ _ => []
  | .vectorEntryComplete _ => []
  | .faultRecordPost _ => []
  | .eventDelivery _ => []
  | .eventWindowWrite _ _ _ => []
  | .wfeTimeout _ => []
  | .stripFetch _ _ _ => []
  | .elementLanding _ _ _ => []
  | .moveComplete _ => []
  | .reclaimComplete _ _ => []
  | .postedWriteFollow _ => []
  | .scrub _ _ _ _ => []
  | .uncorrectableError _ => []
  | .laneGroupRetirement _ _ => []
  | .frameBoundary _ => []
  | .slotTransmission _ _ _ => []
  | .broadcastApply _ _ => []
  | .tierSleep _ => []
  | .tierWake _ => []
  | .wakeLogReplayEnd _ => []
  | .replicaRefillEnd _ => []
  | .powerSample _ _ => []
  | .thermalShutdown => []
  | .powerUp _ _ _ _ => []
  | .linkRetrainEntry _ => []
  | .trainingAttemptEnd _ _ => []
  | .linkDownTimeout _ => []
  | .fabricRequest _ _ _ => []
  | .partInfo _ _ _ => []
  | .counters _ _ _ _ => []
  | .shootdown _ _ _ _ _ => []
  | .resume _ _ _ => []
  | .abandon _ _ _ _ _ => []
  | .setevent _ _ _ _ _ => []
  | .quota _ _ _ _ _ => []
  | .qpair _ _ _ _ _ => []
  | .mreg _ _ _ _ _ _ _ _ => []
  | .mdereg _ _ _ _ => []
  | .qpconn _ _ _ _ _ _ => []
  | .create _ _ _ _ _ => []
  | .lock _ _ _ _ => []
  | .start _ _ _ _ => []
  | .stop _ _ _ _ => []
  | .teardown _ _ _ _ => []
  | .slots _ _ _ _ _ _ _ _ => []
  | .access _ _ _ _ _ _ => []
  | .link _ _ _ _ => []
  | .domain _ _ _ _ => []
  | .migrate _ _ _ _ _ _ _ _ => []
  | .sleep _ _ _ _ _ _ => []
  | .workLinePost _ _ _ _ _ => []
  | .workLineCompletion _ _ _ _ => []
  | .receiveLinePost _ _ _ _ _ => []
  | .inboundSend _ _ _ => []
  | .inboundRdmaWrite _ _ _ _ _ => []
  | .inboundRdmaRead _ _ _ _ _ => []
  | .getVersion _ => []
  | .getCapabilities _ => []
  | .negotiateAlgorithms _ _ => []
  | .getDigests _ => []
  | .getCertificate _ _ _ => []
  | .challenge _ _ => []
  | .getMeasurements _ _ _ => []
  | .keyExchange _ _ => []
  | .finish _ _ => []
  | .endSession _ _ => []
  | .postedWriteAck _ _ => []
  | .flitCrcFailure _ => []

/-- The name of the first static check an instruction fails, if any. -/
def illFormed (i : Instr) : Option IllFormed := firstFailing i.checks

/-- An instruction that passes every static check of R206. -/
def wf (i : Instr) : Bool := i.illFormed.isNone

end Instr

end Sys2Proof
end

