-- ==== Sys2Proof/Decode.lean ====
section
/-!
DEFINITION. Decode.lean: from parcels to instructions (R179 to R208), and back. Fields are pulled out here once; a word
that selects nothing is rejected by name. The encoder is written from the same layouts.

Lean's code generator has no tags for an inductive with this many constructors, so the definitions that build
constructors of high number are marked noncomputable: no compiled code is made for them. They are ordinary structural
definitions, and the kernel evaluates them.
-/
namespace Sys2Proof

/-- Why a string of parcels is no instruction (R206), by name. -/
inductive DecodeError where
  /-- fewer bytes than the first parcel's length (R179). -/
  | truncated
  /-- major 0x00 or 0x37 to 0x3E (R188). -/
  | reservedMajor
  /-- an EXT word standing alone (R201). -/
  | extAlone
  /-- a prefix of a reserved PCLASS (R201). -/
  | reservedPclass
  /-- a prefixed form whose base word is not EXT (R201). -/
  | baseNotExt
  /-- a minor that the tables do not list. -/
  | reservedMinor
  /-- a field of kind 0, a reserved immediate bit or a reserved FLAGS bit that is not zero. -/
  | reservedBits
  /-- the parcel 0x0000 (R204). -/
  | zeroParcel
  /-- a static check of R206 fails. -/
  | illFormed (why : IllFormed)
  deriving DecidableEq, Repr

/-- What the words of one instruction select. -/
abbrev Decoded := Except DecodeError Instr

/-- A field that must hold one value. -/
def need {n : Nat} (x v : BitVec n) (k : Decoded) : Decoded := if x = v then k else .error .reservedBits

/-! ### Layouts of R181, R201 and R204 -/

/-- The R layout. -/
def rWord (major : BitVec 6) (minor : BitVec 5) (m : BitVec 4) (b a d : BitVec 5) : BitVec 32 :=
  minor ++ (m ++ (b ++ (a ++ (d ++ (major ++ 1#2)))))

/-- The I layout. -/
def iWord (major : BitVec 6) (imm : BitVec 14) (a d : BitVec 5) : BitVec 32 :=
  imm ++ (a ++ (d ++ (major ++ 1#2)))

/-- The S and B layouts: imm[13:5] stands above b, imm[4:0] in the place of d. -/
def sWord (major : BitVec 6) (imm : BitVec 14) (b a : BitVec 5) : BitVec 32 :=
  (imm.extractLsb' 5 9) ++ (b ++ (a ++ ((imm.extractLsb' 0 5) ++ (major ++ 1#2))))

/-- The J layout. -/
def jWord (major : BitVec 6) (imm : BitVec 19) (d : BitVec 5) : BitVec 32 :=
  imm ++ (d ++ (major ++ 1#2))

/-- The prefix word of an 8-byte form. -/
def pWord (pclass : BitVec 6) (ta tb flags : BitVec 8) : BitVec 32 :=
  flags ++ (tb ++ (ta ++ (pclass ++ 3#2)))

/-- A compressed parcel. -/
def cWord (op : BitVec 4) (hi : BitVec 5) (a d : BitVec 3) : BitVec 16 :=
  hi ++ (a ++ (d ++ (op ++ 0#1)))

/-- The major opcode, [7:2]. -/
def fMajor (w : BitVec 32) : BitVec 6 := w.extractLsb' 2 6
/-- The d field, [12:8]. -/
def fD (w : BitVec 32) : BitVec 5 := w.extractLsb' 8 5
/-- The a field, [17:13]. -/
def fA (w : BitVec 32) : BitVec 5 := w.extractLsb' 13 5
/-- The b field, [22:18]. -/
def fB (w : BitVec 32) : BitVec 5 := w.extractLsb' 18 5
/-- The m field, [26:23]. -/
def fM (w : BitVec 32) : BitVec 4 := w.extractLsb' 23 4
/-- The minor function, [31:27]. -/
def fMinor (w : BitVec 32) : BitVec 5 := w.extractLsb' 27 5
/-- imm14 of an I word, [31:18]. -/
def fImmI (w : BitVec 32) : BitVec 14 := w.extractLsb' 18 14
/-- imm14 of an S or B word, [31:23] above [12:8]. -/
def fImmS (w : BitVec 32) : BitVec 14 := (w.extractLsb' 23 9) ++ (w.extractLsb' 8 5)
/-- imm19 of a J word, [31:13]. -/
def fImmJ (w : BitVec 32) : BitVec 19 := w.extractLsb' 13 19

/-! ### Base words, one function for each major with minors (R189 to R200) -/

/-- Major 0x01 (OP). -/
noncomputable def decOp (minor : BitVec 5) (m : BitVec 4) (b a d : BitVec 5) : Decoded :=
  match minor.toNat with
  | 0 => need m 0#4 (.ok (.add d a b))
  | 1 => need m 0#4 (.ok (.sub d a b))
  | 2 => need m 0#4 (.ok (.and d a b))
  | 3 => need m 0#4 (.ok (.or d a b))
  | 4 => need m 0#4 (.ok (.xor d a b))
  | 5 => need m 0#4 (.ok (.sll d a b))
  | 6 => need m 0#4 (.ok (.srl d a b))
  | 7 => need m 0#4 (.ok (.sra d a b))
  | 8 => need m 0#4 (.ok (.mul d a b))
  | 9 => need m 0#4 (.ok (.mulh d a b))
  | 10 => need m 0#4 (.ok (.mulhn d a b))
  | 11 => need m 0#4 (.ok (.div d a b))
  | 12 => need m 0#4 (.ok (.divn d a b))
  | 13 => need m 0#4 (.ok (.rem d a b))
  | 14 => need m 0#4 (.ok (.remn d a b))
  | 15 => need m 0#4 (.ok (.slt d a b))
  | 16 => need m 0#4 (.ok (.sltn d a b))
  | 17 => need m 0#4 (.ok (.min d a b))
  | 18 => need m 0#4 (.ok (.max d a b))
  | 19 => need m 0#4 (.ok (.minn d a b))
  | 20 => need m 0#4 (.ok (.maxn d a b))
  | 21 => need b 0#5 (need m 0#4 (.ok (.clz d a)))
  | 22 => need b 0#5 (need m 0#4 (.ok (.ctz d a)))
  | 23 => need b 0#5 (need m 0#4 (.ok (.popc d a)))
  | 24 => need m 0#4 (.ok (.sext d a b))
  | 25 => need m 0#4 (.ok (.zext d a b))
  | _ => .error .reservedMinor

/-- Major 0x07, SHI: the shift kind in imm[13:12], imm[11:6] zero (R182). -/
noncomputable def decShi (imm : BitVec 14) (a d : BitVec 5) : Decoded :=
  match (imm.extractLsb' 6 8).toNat with
  | 0 => .ok (.slli d a (imm.extractLsb' 0 6))
  | 64 => .ok (.srli d a (imm.extractLsb' 0 6))
  | 128 => .ok (.srai d a (imm.extractLsb' 0 6))
  | _ => .error .reservedBits

/-- Major 0x1E (FP). -/
def decFp (minor : BitVec 5) (m : BitVec 4) (b a d : BitVec 5) : Decoded :=
  match minor.toNat with
  | 0 => need (m.extractLsb' 2 2) 0#2 (.ok (.fadd d a b (m.extractLsb' 0 2)))
  | 1 => need (m.extractLsb' 2 2) 0#2 (.ok (.fsub d a b (m.extractLsb' 0 2)))
  | 2 => need (m.extractLsb' 2 2) 0#2 (.ok (.fmul d a b (m.extractLsb' 0 2)))
  | 3 => need (m.extractLsb' 2 2) 0#2 (.ok (.fdiv d a b (m.extractLsb' 0 2)))
  | 4 => need b 0#5 (need (m.extractLsb' 2 2) 0#2 (.ok (.fsqrt d a (m.extractLsb' 0 2))))
  | 5 => need (m.extractLsb' 2 2) 0#2 (.ok (.fma d a b (m.extractLsb' 0 2)))
  | 6 => need (m.extractLsb' 2 2) 0#2 (.ok (.fmin d a b (m.extractLsb' 0 2)))
  | 7 => need (m.extractLsb' 2 2) 0#2 (.ok (.fmax d a b (m.extractLsb' 0 2)))
  | 8 => .ok (.fcmp d a b (m.extractLsb' 0 2) (m.extractLsb' 2 2))
  | 9 => need b 0#5 (need (m.extractLsb' 2 2) 0#2 (.ok (.fclass d a (m.extractLsb' 0 2))))
  | 10 => need (m.extractLsb' 2 2) 0#2 (.ok (.fcvtToFloat d a b (m.extractLsb' 0 2)))
  | 11 => need (m.extractLsb' 2 2) 0#2 (.ok (.fcvtToInt d a b (m.extractLsb' 0 2)))
  | _ => .error .reservedMinor

/-- Major 0x22 (SYS). -/
def decSys (minor : BitVec 5) (m : BitVec 4) (b a d : BitVec 5) : Decoded :=
  match minor.toNat with
  | 0 => need d 0#5 (need a 0#5 (need m 0#4 (.ok (.trap b))))
  | 1 => need d 0#5 (need a 0#5 (need b 0#5 (need m 0#4 (.ok (.brk)))))
  | 2 => need d 0#5 (need a 0#5 (need b 0#5 (need m 0#4 (.ok (.eret)))))
  | 3 => need d 0#5 (need a 0#5 (need b 0#5 (need m 0#4 (.ok (.wfe)))))
  | 4 => need d 0#5 (need a 0#5 (need b 0#5 (need m 0#4 (.ok (.icsync)))))
  | 5 => if b = 1#5 then need d 0#5 (need a 0#5 (need m 0#4 (.ok (.tlbiAll)))) else need d 0#5 (need b 0#5 (need m 0#4 (.ok (.tlbi a))))
  | 6 => need d 0#5 (need b 0#5 (need m 0#4 (.ok (.savectx a))))
  | 7 => need b 0#5 (need m 0#4 (.ok (.rstctx d a)))
  | 8 => need a 0#5 (need b 0#5 (need m 0#4 (.ok (.quiesce d))))
  | 9 => need d 0#5 (need a 0#5 (need b 0#5 (need m 0#4 (.ok (.retire)))))
  | _ => .error .reservedMinor

/-- Major 0x23 (FENCE). -/
def decFence (minor : BitVec 5) (m : BitVec 4) (b a d : BitVec 5) : Decoded :=
  match minor.toNat with
  | 0 => need d 0#5 (need a 0#5 (need b 0#5 (need (m.extractLsb' 3 1) 0#1 (.ok (.fenceSv (m.extractLsb' 0 3))))))
  | 1 => need d 0#5 (need a 0#5 (need b 0#5 (need (m.extractLsb' 3 1) 0#1 (.ok (.fenceVs (m.extractLsb' 0 3))))))
  | 2 => need d 0#5 (need a 0#5 (need b 0#5 (need (m.extractLsb' 3 1) 0#1 (.ok (.fenceVv (m.extractLsb' 0 3))))))
  | 3 => need d 0#5 (need a 0#5 (need b 0#5 (need (m.extractLsb' 3 1) 0#1 (.ok (.fenceAll (m.extractLsb' 0 3))))))
  | 4 => need a 0#5 (need b 0#5 (need m 6#4 (.ok (.fenceSys d))))
  | _ => .error .reservedMinor

/-- Major 0x24 (AMOW). -/
def decAmoW (minor : BitVec 5) (m : BitVec 4) (b a d : BitVec 5) : Decoded :=
  match (minor.extractLsb' 0 4).toNat with
  | 0 => .ok (.amoAddW d a b (m.extractLsb' 0 3) (m.extractLsb' 3 1) (minor.extractLsb' 4 1))
  | 1 => .ok (.amoAndW d a b (m.extractLsb' 0 3) (m.extractLsb' 3 1) (minor.extractLsb' 4 1))
  | 2 => .ok (.amoOrW d a b (m.extractLsb' 0 3) (m.extractLsb' 3 1) (minor.extractLsb' 4 1))
  | 3 => .ok (.amoXorW d a b (m.extractLsb' 0 3) (m.extractLsb' 3 1) (minor.extractLsb' 4 1))
  | 4 => .ok (.amoMinW d a b (m.extractLsb' 0 3) (m.extractLsb' 3 1) (minor.extractLsb' 4 1))
  | 5 => .ok (.amoMaxW d a b (m.extractLsb' 0 3) (m.extractLsb' 3 1) (minor.extractLsb' 4 1))
  | 6 => .ok (.amoMinnW d a b (m.extractLsb' 0 3) (m.extractLsb' 3 1) (minor.extractLsb' 4 1))
  | 7 => .ok (.amoMaxnW d a b (m.extractLsb' 0 3) (m.extractLsb' 3 1) (minor.extractLsb' 4 1))
  | 8 => .ok (.amoSwapW d a b (m.extractLsb' 0 3) (m.extractLsb' 3 1) (minor.extractLsb' 4 1))
  | 9 => .ok (.amoCasW d a b (m.extractLsb' 0 3) (m.extractLsb' 3 1) (minor.extractLsb' 4 1))
  | _ => .error .reservedMinor

/-- Major 0x25 (AMOD). -/
def decAmoD (minor : BitVec 5) (m : BitVec 4) (b a d : BitVec 5) : Decoded :=
  match (minor.extractLsb' 0 4).toNat with
  | 0 => .ok (.amoAddD d a b (m.extractLsb' 0 3) (m.extractLsb' 3 1) (minor.extractLsb' 4 1))
  | 1 => .ok (.amoAndD d a b (m.extractLsb' 0 3) (m.extractLsb' 3 1) (minor.extractLsb' 4 1))
  | 2 => .ok (.amoOrD d a b (m.extractLsb' 0 3) (m.extractLsb' 3 1) (minor.extractLsb' 4 1))
  | 3 => .ok (.amoXorD d a b (m.extractLsb' 0 3) (m.extractLsb' 3 1) (minor.extractLsb' 4 1))
  | 4 => .ok (.amoMinD d a b (m.extractLsb' 0 3) (m.extractLsb' 3 1) (minor.extractLsb' 4 1))
  | 5 => .ok (.amoMaxD d a b (m.extractLsb' 0 3) (m.extractLsb' 3 1) (minor.extractLsb' 4 1))
  | 6 => .ok (.amoMinnD d a b (m.extractLsb' 0 3) (m.extractLsb' 3 1) (minor.extractLsb' 4 1))
  | 7 => .ok (.amoMaxnD d a b (m.extractLsb' 0 3) (m.extractLsb' 3 1) (minor.extractLsb' 4 1))
  | 8 => .ok (.amoSwapD d a b (m.extractLsb' 0 3) (m.extractLsb' 3 1) (minor.extractLsb' 4 1))
  | 9 => .ok (.amoCasD d a b (m.extractLsb' 0 3) (m.extractLsb' 3 1) (minor.extractLsb' 4 1))
  | _ => .error .reservedMinor

/-- Major 0x26, VSETL: imm[8] says whether a type code is given, imm[13:9] zero (R182). -/
def decVsetl (imm : BitVec 14) (a d : BitVec 5) : Decoded :=
  match (imm.extractLsb' 8 6).toNat with
  | 0 => need (imm.extractLsb' 0 8) 0#8 (.ok (.vsetl d a))
  | 1 => .ok (.vsetlT d a (imm.extractLsb' 0 8))
  | _ => .error .reservedBits

/-- Major 0x27 (VCONF). -/
def decVconf (minor : BitVec 5) (m : BitVec 4) (b a d : BitVec 5) : Decoded :=
  match minor.toNat with
  | 0 => need d 0#5 (need (a.extractLsb' 4 1) 0#1 (need b 0#5 (need m 0#4 (.ok (.vcfg (a.extractLsb' 2 2) (a.extractLsb' 0 2))))))
  | 1 => need m 0#4 (.ok (.vsett d a b))
  | _ => .error .reservedMinor

/-- Major 0x28 (VINT). -/
def decVint (minor : BitVec 5) (m : BitVec 4) (b a d : BitVec 5) : Decoded :=
  match minor.toNat with
  | 0 => .ok (.vadd d a b m)
  | 1 => .ok (.vsub d a b m)
  | 2 => .ok (.vmul d a b m)
  | 3 => .ok (.vmulh d a b m)
  | 4 => .ok (.vmacc d a b m)
  | 5 => .ok (.vdiv d a b m)
  | 6 => .ok (.vrem d a b m)
  | 7 => .ok (.vmin d a b m)
  | 8 => .ok (.vmax d a b m)
  | 9 => .ok (.vand d a b m)
  | 10 => .ok (.vor d a b m)
  | 11 => .ok (.vxor d a b m)
  | 12 => .ok (.vsll d a b m)
  | 13 => .ok (.vsrl d a b m)
  | 14 => .ok (.vsra d a b m)
  | 15 => .ok (.vadds d a b m)
  | 16 => .ok (.vsubs d a b m)
  | 17 => .ok (.vadc d a b m)
  | 18 => .ok (.vsbc d a b m)
  | 19 => .ok (.vmerge d a b m)
  | _ => .error .reservedMinor

/-- Major 0x29 (VINTX). -/
def decVintx (minor : BitVec 5) (m : BitVec 4) (b a d : BitVec 5) : Decoded :=
  match minor.toNat with
  | 0 => .ok (.vaddX d a b m)
  | 1 => .ok (.vsubX d a b m)
  | 2 => .ok (.vmulX d a b m)
  | 3 => .ok (.vmulhX d a b m)
  | 4 => .ok (.vmaccX d a b m)
  | 5 => .ok (.vdivX d a b m)
  | 6 => .ok (.vremX d a b m)
  | 7 => .ok (.vminX d a b m)
  | 8 => .ok (.vmaxX d a b m)
  | 9 => .ok (.vandX d a b m)
  | 10 => .ok (.vorX d a b m)
  | 11 => .ok (.vxorX d a b m)
  | 12 => .ok (.vsllX d a b m)
  | 13 => .ok (.vsrlX d a b m)
  | 14 => .ok (.vsraX d a b m)
  | 15 => .ok (.vaddsX d a b m)
  | 16 => .ok (.vsubsX d a b m)
  | 17 => .ok (.vadcX d a b m)
  | 18 => .ok (.vsbcX d a b m)
  | 19 => .ok (.vmergeX d a b m)
  | _ => .error .reservedMinor

/-- Major 0x2A (VCMP). -/
def decVcmp (minor : BitVec 5) (m : BitVec 4) (b a d : BitVec 5) : Decoded :=
  match minor.toNat with
  | 0 => .ok (.vcmpeq d a b m)
  | 1 => .ok (.vcmpne d a b m)
  | 2 => .ok (.vcmplt d a b m)
  | 3 => .ok (.vcmple d a b m)
  | 4 => .ok (.vcmpgt d a b m)
  | 5 => .ok (.vcmpge d a b m)
  | 8 => .ok (.vfcmpeq d a b m)
  | 9 => .ok (.vfcmplt d a b m)
  | 10 => .ok (.vfcmple d a b m)
  | 11 => .ok (.vfcmpne d a b m)
  | 12 => .ok (.vfcmpun d a b m)
  | _ => .error .reservedMinor

/-- Major 0x2B (VFP). -/
def decVfp (minor : BitVec 5) (m : BitVec 4) (b a d : BitVec 5) : Decoded :=
  match minor.toNat with
  | 0 => .ok (.vfadd d a b m)
  | 1 => .ok (.vfsub d a b m)
  | 2 => .ok (.vfmul d a b m)
  | 3 => .ok (.vfma d a b m)
  | 4 => .ok (.vfdiv d a b m)
  | 5 => need b 0#5 (.ok (.vfsqrt d a m))
  | 6 => .ok (.vfmin d a b m)
  | 7 => .ok (.vfmax d a b m)
  | 8 => .ok (.vfcvt d a m b)
  | 9 => need b 0#5 (.ok (.vfrcp d a m))
  | 10 => need b 0#5 (.ok (.vfrsq d a m))
  | 11 => need b 0#5 (.ok (.vfexp2 d a m))
  | 12 => need b 0#5 (.ok (.vflog2 d a m))
  | 13 => need b 0#5 (.ok (.vftanh d a m))
  | _ => .error .reservedMinor

/-- Major 0x2C (VFPX). -/
def decVfpx (minor : BitVec 5) (m : BitVec 4) (b a d : BitVec 5) : Decoded :=
  match minor.toNat with
  | 0 => .ok (.vfaddX d a b m)
  | 1 => .ok (.vfsubX d a b m)
  | 2 => .ok (.vfmulX d a b m)
  | 3 => .ok (.vfmaX d a b m)
  | 6 => .ok (.vfminX d a b m)
  | 7 => .ok (.vfmaxX d a b m)
  | _ => .error .reservedMinor

/-- Major 0x2D (VPERM). -/
def decVperm (minor : BitVec 5) (m : BitVec 4) (b a d : BitVec 5) : Decoded :=
  match minor.toNat with
  | 0 => need b 0#5 (.ok (.vmv d a m))
  | 1 => need b 0#5 (.ok (.vmvFromScalar d a m))
  | 2 => .ok (.vslideup d a b m)
  | 3 => .ok (.vslidedn d a b m)
  | 4 => .ok (.vperm d a b m)
  | 5 => need m 12#4 (.ok (.vcompress d a b))
  | 6 => need b 0#5 (.ok (.viota d a m))
  | 7 => need a 0#5 (need b 0#5 (.ok (.vid d m)))
  | 8 => need b 0#5 (need m 12#4 (.ok (.vmvToScale d a)))
  | 9 => need b 0#5 (need m 12#4 (.ok (.vmvFromScale d a)))
  | _ => .error .reservedMinor

/-- Major 0x2E (VRED). -/
def decVred (minor : BitVec 5) (m : BitVec 4) (b a d : BitVec 5) : Decoded :=
  match minor.toNat with
  | 0 => .ok (.vredAdd d a b m)
  | 1 => .ok (.vredAnd d a b m)
  | 2 => .ok (.vredOr d a b m)
  | 3 => .ok (.vredXor d a b m)
  | 4 => .ok (.vredMin d a b m)
  | 5 => .ok (.vredMax d a b m)
  | 8 => .ok (.vfredo d a b m)
  | 9 => .ok (.vfredt d a b m)
  | _ => .error .reservedMinor

/-- Major 0x2F (MASK). -/
def decMask (minor : BitVec 5) (m : BitVec 4) (b a d : BitVec 5) : Decoded :=
  match minor.toNat with
  | 0 => need m 12#4 (.ok (.mand d a b))
  | 1 => need m 12#4 (.ok (.mor d a b))
  | 2 => need m 12#4 (.ok (.mxor d a b))
  | 3 => need m 12#4 (.ok (.mandn d a b))
  | 4 => need b 0#5 (need m 12#4 (.ok (.mnot d a)))
  | 5 => need b 0#5 (need m 12#4 (.ok (.mwhile d a)))
  | 6 => need b 0#5 (need m 12#4 (.ok (.mpop d a)))
  | 7 => need b 0#5 (need m 12#4 (.ok (.mpopVl d a)))
  | 8 => need b 0#5 (need m 12#4 (.ok (.mfirst d a)))
  | 9 => need b 0#5 (need m 12#4 (.ok (.mlast d a)))
  | 10 => need b 0#5 (need m 12#4 (.ok (.mshup d a)))
  | 11 => .ok (.vtopk d a b m)
  | _ => .error .reservedMinor

/-- Major 0x30 (VMEM). -/
def decVmem (minor : BitVec 5) (m : BitVec 4) (b a d : BitVec 5) : Decoded :=
  match minor.toNat with
  | 0 => need b 0#5 (.ok (.vld d a m))
  | 1 => .ok (.vlds d a b m)
  | 2 => .ok (.vlx d a b m)
  | 3 => need b 0#5 (.ok (.vldff d a m))
  | 4 => .ok (.vlxff d a b m)
  | 5 => need b 0#5 (need m 12#4 (.ok (.vldScale d a)))
  | 6 => need b 0#5 (need m 12#4 (.ok (.vldMask d a)))
  | 8 => need b 0#5 (.ok (.vst d a m))
  | 9 => .ok (.vsts d a b m)
  | 10 => .ok (.vsx d a b m)
  | 11 => .ok (.vscadd d a b m)
  | 12 => need b 0#5 (need m 12#4 (.ok (.vstScale d a)))
  | 13 => need b 0#5 (need m 12#4 (.ok (.vstMask d a)))
  | 16 => .ok (.vxlate d a b m)
  | 17 => .ok (.vxlateff d a b m)
  | _ => .error .reservedMinor

/-- Major 0x31 (VAMO). -/
def decVamo (minor : BitVec 5) (m : BitVec 4) (b a d : BitVec 5) : Decoded :=
  match minor.toNat with
  | 0 => .ok (.vamoAdd d b m (a.extractLsb' 0 3) (a.extractLsb' 3 1) (a.extractLsb' 4 1))
  | 1 => .ok (.vamoAnd d b m (a.extractLsb' 0 3) (a.extractLsb' 3 1) (a.extractLsb' 4 1))
  | 2 => .ok (.vamoOr d b m (a.extractLsb' 0 3) (a.extractLsb' 3 1) (a.extractLsb' 4 1))
  | 3 => .ok (.vamoXor d b m (a.extractLsb' 0 3) (a.extractLsb' 3 1) (a.extractLsb' 4 1))
  | 4 => .ok (.vamoMin d b m (a.extractLsb' 0 3) (a.extractLsb' 3 1) (a.extractLsb' 4 1))
  | 5 => .ok (.vamoMax d b m (a.extractLsb' 0 3) (a.extractLsb' 3 1) (a.extractLsb' 4 1))
  | 6 => .ok (.vamoMinn d b m (a.extractLsb' 0 3) (a.extractLsb' 3 1) (a.extractLsb' 4 1))
  | 7 => .ok (.vamoMaxn d b m (a.extractLsb' 0 3) (a.extractLsb' 3 1) (a.extractLsb' 4 1))
  | 8 => .ok (.vamoSwap d b m (a.extractLsb' 0 3) (a.extractLsb' 3 1) (a.extractLsb' 4 1))
  | _ => .error .reservedMinor

/-- Major 0x32 (FWD). -/
def decFwd (minor : BitVec 5) (m : BitVec 4) (b a d : BitVec 5) : Decoded :=
  match minor.toNat with
  | 0 => need d 0#5 (.ok (.fwdmove a b m))
  | 1 => need b 0#5 (.ok (.fwdres d a m))
  | 2 => need b 0#5 (.ok (.fwdresff d a m))
  | 3 => .ok (.pcmpr d a b m)
  | 4 => need d 0#5 (need b 0#5 (.ok (.fwdpath a m)))
  | 5 => need d 0#5 (need b 0#5 (need m 12#4 (.ok (.fwdrecl a))))
  | 6 => need d 0#5 (need b 0#5 (need m 12#4 (.ok (.fwdreclTomb a))))
  | _ => .error .reservedMinor

/-- Major 0x33 (COPY). -/
def decCopy (minor : BitVec 5) (m : BitVec 4) (b a d : BitVec 5) : Decoded :=
  match minor.toNat with
  | 0 => need d 0#5 (need a 0#5 (need m 12#4 (.ok (.cpstep b))))
  | 1 => need d 0#5 (need a 0#5 (need m 12#4 (.ok (.cpwait b))))
  | 2 => need a 0#5 (need m 12#4 (.ok (.cpland d b)))
  | _ => .error .reservedMinor

/-- Major 0x35 (WORK). -/
def decWork (minor : BitVec 5) (m : BitVec 4) (b a d : BitVec 5) : Decoded :=
  match minor.toNat with
  | 0 => need m 0#4 (.ok (.launch d a b))
  | 1 => need b 0#5 (need m 0#4 (.ok (.claim d a)))
  | 2 => need b 0#5 (need m 0#4 (.ok (.grun d a)))
  | _ => .error .reservedMinor

/-- Major 0x36 (GANG). -/
def decGang (minor : BitVec 5) (m : BitVec 4) (b a d : BitVec 5) : Decoded :=
  match minor.toNat with
  | 0 => need d 0#5 (need a 0#5 (need b 0#5 (need m 0#4 (.ok (.gbar)))))
  | 1 => need m 0#4 (.ok (.sopen d a b))
  | 2 => need a 0#5 (need b 0#5 (need m 0#4 (.ok (.sclose d))))
  | 4 => need b 0#5 (.ok (.bstVector d a m))
  | 5 => need d 0#5 (need m 0#4 (.ok (.bstScalar a b)))
  | 6 => need d 0#5 (need a 0#5 (need b 0#5 (need m 7#4 (.ok (.bacq)))))
  | _ => .error .reservedMinor

/-! ### The 8-byte forms (R201, R202) -/

/-- MATRIX, PCLASS 0. -/
def decMatrix (flags tb ta : BitVec 8) (minor : BitVec 5) (m : BitVec 4) (b a d : BitVec 5) : Decoded :=
  match minor.toNat with
  | 0 => need m 12#4 (.ok (.mopa d a b ta tb (flags.extractLsb' 0 3) (flags.extractLsb' 3 3)
      (flags.extractLsb' 6 1 == 1#1) (flags.extractLsb' 7 1 == 1#1)))
  | 1 => need m 12#4 (need b 0#5 (need a 0#5 (need ta 0#8 (need tb 0#8 (need flags 0#8 (.ok (.mzero d)))))))
  | 2 => need m 12#4 (need b 0#5 (need ta 0#8 (need tb 0#8 (need flags 0#8 (.ok (.mfill d a))))))
  | 3 => need tb 0#8 (need flags 0#8 (.ok (.mdrain d a b m ta)))
  | 4 => need m 12#4 (need tb 0#8 (need flags 0#8 (.ok (.mrdrow d a b ta))))
  | _ => .error .reservedMinor

/-- NARROW, PCLASS 1. -/
def decNarrow (flags tb ta : BitVec 8) (minor : BitVec 5) (m : BitVec 4) (b a d : BitVec 5) : Decoded :=
  match minor.toNat with
  | 0 => need b 0#5 (need (flags.extractLsb' 4 4) 0#4 (.ok (.vhad d a m ta tb (flags.extractLsb' 0 4))))
  | 1 => need b 0#5 (need (flags.extractLsb' 3 4) 0#4
      (.ok (.vcvtn d a m ta tb (flags.extractLsb' 0 3) (flags.extractLsb' 7 1 == 1#1))))
  | 2 => need b 0#5 (need (flags.extractLsb' 3 4) 0#4
      (.ok (.vcvtw d a m ta tb (flags.extractLsb' 0 3) (flags.extractLsb' 7 1 == 1#1))))
  | 3 => need m 12#4 (need b 0#5 (need flags 0#8 (.ok (.vscale d a ta tb))))
  | _ => .error .reservedMinor

/-- HIST, PCLASS 2. -/
def decHist (flags tb ta : BitVec 8) (minor : BitVec 5) (m : BitVec 4) (b a d : BitVec 5) : Decoded :=
  need b 0#5 (need ta 0#8 (need tb 0#8
    (match minor.toNat with
     | 0 => need m 12#4 (need flags 0#8 (.ok (.xcfg d a)))
     | 1 => need flags 0#8 (.ok (.xckpt d a m))
     | 2 => need flags 0#8 (.ok (.xdrain d a m))
     | 3 => need (flags.extractLsb' 2 6) 0#6 (.ok (.xstat d a m (flags.extractLsb' 0 2)))
     | 4 => need m 12#4 (need a 0#5 (need flags 0#8 (.ok (.xclr d))))
     | _ => .error .reservedMinor)))

/-- An 8-byte form: prefix word p, base word w. -/
def raw64 (p w : BitVec 32) : Decoded :=
  if w.extractLsb' 0 2 = 1#2 ∧ fMajor w = 0x3F#6 then
    match (p.extractLsb' 2 6).toNat with
    | 0 => decMatrix (p.extractLsb' 24 8) (p.extractLsb' 16 8) (p.extractLsb' 8 8) (fMinor w) (fM w) (fB w) (fA w) (fD w)
    | 1 => decNarrow (p.extractLsb' 24 8) (p.extractLsb' 16 8) (p.extractLsb' 8 8) (fMinor w) (fM w) (fB w) (fA w) (fD w)
    | 2 => decHist (p.extractLsb' 24 8) (p.extractLsb' 16 8) (p.extractLsb' 8 8) (fMinor w) (fM w) (fB w) (fA w) (fD w)
    | _ => .error .reservedPclass
  else .error .baseNotExt

/-! ### Compressed parcels (R204) -/

/-- A compressed parcel's operation, by its fields. -/
noncomputable def decC (op : BitVec 4) (hi : BitVec 5) (a d : BitVec 3) : Decoded :=
  match op.toNat with
  | 0 => need (hi.extractLsb' 3 2) 0#2 (.ok (.cAdd d a (hi.extractLsb' 0 3)))
  | 1 => need (hi.extractLsb' 3 2) 0#2 (.ok (.cSub d a (hi.extractLsb' 0 3)))
  | 2 => need (hi.extractLsb' 3 2) 0#2 (.ok (.cAnd d a (hi.extractLsb' 0 3)))
  | 3 => need (hi.extractLsb' 3 2) 0#2 (.ok (.cOr d a (hi.extractLsb' 0 3)))
  | 4 => need (hi.extractLsb' 3 2) 0#2 (.ok (.cXor d a (hi.extractLsb' 0 3)))
  | 5 => .ok (.cAddi d a hi)
  | 6 => need a 0#3 (.ok (.cLi d hi))
  | 7 => .ok (.cSlli d a hi)
  | 8 => .ok (.cSrli d a hi)
  | 9 => .ok (.cSrai d a hi)
  | 10 => .ok (.cLdS32 d a hi)
  | 11 => .ok (.cLd64 d a hi)
  | 12 => .ok (.cSt32 d a hi)
  | 13 => .ok (.cSt64 d a hi)
  | 14 => .ok (.cBeq a (d ++ hi))
  | _ => .ok (.cBne a (d ++ hi))

/-- A compressed parcel. The parcel 0x0000 is ILLEGAL. -/
noncomputable def raw16 (p : BitVec 16) : Decoded :=
  if p = 0#16 then .error .zeroParcel
  else decC (p.extractLsb' 1 4) (p.extractLsb' 11 5) (p.extractLsb' 8 3) (p.extractLsb' 5 3)

/-- A base word of the majors whose instructions may pass through the vector queue (R123, R188). -/
def raw32Queue (w : BitVec 32) : Decoded :=
  match (fMajor w).toNat with
  | 0x23 => decFence (fMinor w) (fM w) (fB w) (fA w) (fD w)
  | 0x28 => decVint (fMinor w) (fM w) (fB w) (fA w) (fD w)
  | 0x29 => decVintx (fMinor w) (fM w) (fB w) (fA w) (fD w)
  | 0x2A => decVcmp (fMinor w) (fM w) (fB w) (fA w) (fD w)
  | 0x2B => decVfp (fMinor w) (fM w) (fB w) (fA w) (fD w)
  | 0x2C => decVfpx (fMinor w) (fM w) (fB w) (fA w) (fD w)
  | 0x2D => decVperm (fMinor w) (fM w) (fB w) (fA w) (fD w)
  | 0x2E => decVred (fMinor w) (fM w) (fB w) (fA w) (fD w)
  | 0x2F => decMask (fMinor w) (fM w) (fB w) (fA w) (fD w)
  | 0x30 => decVmem (fMinor w) (fM w) (fB w) (fA w) (fD w)
  | 0x31 => decVamo (fMinor w) (fM w) (fB w) (fA w) (fD w)
  | 0x32 => decFwd (fMinor w) (fM w) (fB w) (fA w) (fD w)
  | 0x33 => decCopy (fMinor w) (fM w) (fB w) (fA w) (fD w)
  | 0x34 => need ((fImmI w).extractLsb' 8 6) 0#6 (.ok (.cpcfg (fA w) (fD w) ((fImmI w).extractLsb' 0 8)))
  | 0x36 => decGang (fMinor w) (fM w) (fB w) (fA w) (fD w)
  | 0x3F => .error .extAlone
  | _ => .error .reservedMajor

/-- A base word: the major opcode map of R188. -/
noncomputable def raw32 (w : BitVec 32) : Decoded :=
  match (fMajor w).toNat with
  | 0x01 => decOp (fMinor w) (fM w) (fB w) (fA w) (fD w)
  | 0x02 => .ok (.addi (fD w) (fA w) (fImmI w))
  | 0x03 => .ok (.andi (fD w) (fA w) (fImmI w))
  | 0x04 => .ok (.ori (fD w) (fA w) (fImmI w))
  | 0x05 => .ok (.xori (fD w) (fA w) (fImmI w))
  | 0x06 => .ok (.slti (fD w) (fA w) (fImmI w))
  | 0x07 => decShi (fImmI w) (fA w) (fD w)
  | 0x08 => .ok (.lih (fD w) (fImmJ w))
  | 0x09 => .ok (.addpc (fD w) (fImmJ w))
  | 0x0A => .ok (.jal (fD w) (fImmJ w))
  | 0x0B => .ok (.jalr (fD w) (fA w) (fImmI w))
  | 0x0C => .ok (.beq (fA w) (fB w) (fImmS w))
  | 0x0D => .ok (.bne (fA w) (fB w) (fImmS w))
  | 0x0E => .ok (.blt (fA w) (fB w) (fImmS w))
  | 0x0F => .ok (.bge (fA w) (fB w) (fImmS w))
  | 0x10 => .ok (.bltn (fA w) (fB w) (fImmS w))
  | 0x11 => .ok (.bgen (fA w) (fB w) (fImmS w))
  | 0x12 => need (fD w) 0#5 (.ok (.loop (fA w) (fImmI w)))
  | 0x13 => .ok (.ldS8 (fD w) (fA w) (fImmI w))
  | 0x14 => .ok (.ldN8 (fD w) (fA w) (fImmI w))
  | 0x15 => .ok (.ldS16 (fD w) (fA w) (fImmI w))
  | 0x16 => .ok (.ldN16 (fD w) (fA w) (fImmI w))
  | 0x17 => .ok (.ldS32 (fD w) (fA w) (fImmI w))
  | 0x18 => .ok (.ldN32 (fD w) (fA w) (fImmI w))
  | 0x19 => .ok (.ld64 (fD w) (fA w) (fImmI w))
  | 0x1A => .ok (.st8 (fA w) (fB w) (fImmS w))
  | 0x1B => .ok (.st16 (fA w) (fB w) (fImmS w))
  | 0x1C => .ok (.st32 (fA w) (fB w) (fImmS w))
  | 0x1D => .ok (.st64 (fA w) (fB w) (fImmS w))
  | 0x1E => decFp (fMinor w) (fM w) (fB w) (fA w) (fD w)
  | 0x1F => need ((fImmI w).extractLsb' 12 2) 0#2 (.ok (.csrrw (fD w) (fA w) ((fImmI w).extractLsb' 0 12)))
  | 0x20 => need ((fImmI w).extractLsb' 12 2) 0#2 (.ok (.csrrs (fD w) (fA w) ((fImmI w).extractLsb' 0 12)))
  | 0x21 => need ((fImmI w).extractLsb' 12 2) 0#2 (.ok (.csrrc (fD w) (fA w) ((fImmI w).extractLsb' 0 12)))
  | 0x22 => decSys (fMinor w) (fM w) (fB w) (fA w) (fD w)
  | 0x24 => decAmoW (fMinor w) (fM w) (fB w) (fA w) (fD w)
  | 0x25 => decAmoD (fMinor w) (fM w) (fB w) (fA w) (fD w)
  | 0x26 => decVsetl (fImmI w) (fA w) (fD w)
  | 0x27 => decVconf (fMinor w) (fM w) (fB w) (fA w) (fD w)
  | 0x35 => decWork (fMinor w) (fM w) (fB w) (fA w) (fD w)
  | _ => raw32Queue w

/-! ### Whole instructions -/

/-- The words of one instruction: a compressed parcel, a base word, or a prefix word and a base word (R179). -/
inductive Words where
  | parcel (p : BitVec 16)
  | base (w : BitVec 32)
  | prefixed (p w : BitVec 32)
  deriving DecidableEq, Repr

/-- The length in bytes that the first parcel fixes (R179). -/
def parcelLength (p : BitVec 16) : Nat :=
  if p.extractLsb' 0 1 = 0#1 then 2 else if p.extractLsb' 0 2 = 1#2 then 4 else 8

/-- The instruction the words' bits select, before the static checks. -/
noncomputable def rawDecode : Words → Decoded
  | .parcel p => raw16 p
  | .base w => raw32 w
  | .prefixed p w => raw64 p w

/-- The instruction the words select (R206). -/
noncomputable def decode (ws : Words) : Decoded :=
  match rawDecode ws with
  | .ok i => match i.illFormed with
    | none => .ok i
    | some e => .error (.illFormed e)
  | .error e => .error e

/-- The instruction that a saved queue entry's words select (R345). -/
def decodeQueued (ws : Words) : Decoded :=
  let r : Decoded := match ws with
    | .parcel _ => .error .reservedMajor
    | .base w => raw32Queue w
    | .prefixed p w => raw64 p w
  match r with
  | .ok i => match i.illFormed with
    | none => .ok i
    | some e => .error (.illFormed e)
  | .error e => .error e

/-- Length in bytes of an instruction's words. -/
def Words.size : Words → Nat
  | .parcel _ => 2
  | .base _ => 4
  | .prefixed _ _ => 8

/-- The words that begin at bit 0 of a 64-bit string of bytes, lowest byte first (R4, R179). -/
def wordsOf (x : BitVec 64) : Words :=
  if x.extractLsb' 0 1 = 0#1 then .parcel (x.extractLsb' 0 16)
  else if x.extractLsb' 0 2 = 1#2 then .base (x.extractLsb' 0 32)
  else .prefixed (x.extractLsb' 0 32) (x.extractLsb' 32 32)

/-- Little-endian value of a list of bytes (R4). -/
def bytesValue : List Byte → Nat
  | [] => 0
  | x :: xs => x.toNat + 256 * bytesValue xs

/-- Decode the instruction at the head of a list of bytes: the instruction and the bytes after it. -/
noncomputable def decodeBytes (bs : List Byte) : Except DecodeError (Instr × List Byte) :=
  if bs.length < 2 then .error .truncated
  else
    let n := parcelLength (BitVec.ofNat 16 (bytesValue (bs.take 2)))
    if bs.length < n then .error .truncated
    else match decode (wordsOf (BitVec.ofNat 64 (bytesValue (bs.take n)))) with
      | .ok i => .ok (i, bs.drop n)
      | .error e => .error e

/-! ### The encoder -/

/-- A Bool as a one-bit field. -/
def flagBit (x : Bool) : BitVec 1 := BitVec.ofBool x

/-- The words of an instruction, from the same layouts; the rows that no encoding selects have none. -/
def encode : Instr → Option Words
  | .add d a b => some (.base (rWord 0x01#6 0#5 0#4 b a d))
  | .sub d a b => some (.base (rWord 0x01#6 1#5 0#4 b a d))
  | .and d a b => some (.base (rWord 0x01#6 2#5 0#4 b a d))
  | .or d a b => some (.base (rWord 0x01#6 3#5 0#4 b a d))
  | .xor d a b => some (.base (rWord 0x01#6 4#5 0#4 b a d))
  | .sll d a b => some (.base (rWord 0x01#6 5#5 0#4 b a d))
  | .srl d a b => some (.base (rWord 0x01#6 6#5 0#4 b a d))
  | .sra d a b => some (.base (rWord 0x01#6 7#5 0#4 b a d))
  | .mul d a b => some (.base (rWord 0x01#6 8#5 0#4 b a d))
  | .mulh d a b => some (.base (rWord 0x01#6 9#5 0#4 b a d))
  | .mulhn d a b => some (.base (rWord 0x01#6 10#5 0#4 b a d))
  | .div d a b => some (.base (rWord 0x01#6 11#5 0#4 b a d))
  | .divn d a b => some (.base (rWord 0x01#6 12#5 0#4 b a d))
  | .rem d a b => some (.base (rWord 0x01#6 13#5 0#4 b a d))
  | .remn d a b => some (.base (rWord 0x01#6 14#5 0#4 b a d))
  | .slt d a b => some (.base (rWord 0x01#6 15#5 0#4 b a d))
  | .sltn d a b => some (.base (rWord 0x01#6 16#5 0#4 b a d))
  | .min d a b => some (.base (rWord 0x01#6 17#5 0#4 b a d))
  | .max d a b => some (.base (rWord 0x01#6 18#5 0#4 b a d))
  | .minn d a b => some (.base (rWord 0x01#6 19#5 0#4 b a d))
  | .maxn d a b => some (.base (rWord 0x01#6 20#5 0#4 b a d))
  | .clz d a => some (.base (rWord 0x01#6 21#5 0#4 0#5 a d))
  | .ctz d a => some (.base (rWord 0x01#6 22#5 0#4 0#5 a d))
  | .popc d a => some (.base (rWord 0x01#6 23#5 0#4 0#5 a d))
  | .sext d a w => some (.base (rWord 0x01#6 24#5 0#4 w a d))
  | .zext d a w => some (.base (rWord 0x01#6 25#5 0#4 w a d))
  | .addi d a i => some (.base (iWord 0x02#6 i a d))
  | .andi d a i => some (.base (iWord 0x03#6 i a d))
  | .ori d a i => some (.base (iWord 0x04#6 i a d))
  | .xori d a i => some (.base (iWord 0x05#6 i a d))
  | .slti d a i => some (.base (iWord 0x06#6 i a d))
  | .slli d a c => some (.base (iWord 0x07#6 (0#8 ++ c) a d))
  | .srli d a c => some (.base (iWord 0x07#6 (64#8 ++ c) a d))
  | .srai d a c => some (.base (iWord 0x07#6 (128#8 ++ c) a d))
  | .lih d i => some (.base (jWord 0x08#6 i d))
  | .addpc d i => some (.base (jWord 0x09#6 i d))
  | .jal d i => some (.base (jWord 0x0A#6 i d))
  | .jalr d a i => some (.base (iWord 0x0B#6 i a d))
  | .beq a b i => some (.base (sWord 0x0C#6 i b a))
  | .bne a b i => some (.base (sWord 0x0D#6 i b a))
  | .blt a b i => some (.base (sWord 0x0E#6 i b a))
  | .bge a b i => some (.base (sWord 0x0F#6 i b a))
  | .bltn a b i => some (.base (sWord 0x10#6 i b a))
  | .bgen a b i => some (.base (sWord 0x11#6 i b a))
  | .loop a i => some (.base (iWord 0x12#6 i a 0#5))
  | .ldS8 d a i => some (.base (iWord 0x13#6 i a d))
  | .ldN8 d a i => some (.base (iWord 0x14#6 i a d))
  | .ldS16 d a i => some (.base (iWord 0x15#6 i a d))
  | .ldN16 d a i => some (.base (iWord 0x16#6 i a d))
  | .ldS32 d a i => some (.base (iWord 0x17#6 i a d))
  | .ldN32 d a i => some (.base (iWord 0x18#6 i a d))
  | .ld64 d a i => some (.base (iWord 0x19#6 i a d))
  | .st8 a b i => some (.base (sWord 0x1A#6 i b a))
  | .st16 a b i => some (.base (sWord 0x1B#6 i b a))
  | .st32 a b i => some (.base (sWord 0x1C#6 i b a))
  | .st64 a b i => some (.base (sWord 0x1D#6 i b a))
  | .fadd d a b f => some (.base (rWord 0x1E#6 0#5 (0#2 ++ f) b a d))
  | .fsub d a b f => some (.base (rWord 0x1E#6 1#5 (0#2 ++ f) b a d))
  | .fmul d a b f => some (.base (rWord 0x1E#6 2#5 (0#2 ++ f) b a d))
  | .fdiv d a b f => some (.base (rWord 0x1E#6 3#5 (0#2 ++ f) b a d))
  | .fsqrt d a f => some (.base (rWord 0x1E#6 4#5 (0#2 ++ f) 0#5 a d))
  | .fma d a b f => some (.base (rWord 0x1E#6 5#5 (0#2 ++ f) b a d))
  | .fmin d a b f => some (.base (rWord 0x1E#6 6#5 (0#2 ++ f) b a d))
  | .fmax d a b f => some (.base (rWord 0x1E#6 7#5 (0#2 ++ f) b a d))
  | .fcmp d a b f c => some (.base (rWord 0x1E#6 8#5 (c ++ f) b a d))
  | .fclass d a f => some (.base (rWord 0x1E#6 9#5 (0#2 ++ f) 0#5 a d))
  | .fcvtToFloat d a b f => some (.base (rWord 0x1E#6 10#5 (0#2 ++ f) b a d))
  | .fcvtToInt d a b f => some (.base (rWord 0x1E#6 11#5 (0#2 ++ f) b a d))
  | .csrrw d a c => some (.base (iWord 0x1F#6 (0#2 ++ c) a d))
  | .csrrs d a c => some (.base (iWord 0x20#6 (0#2 ++ c) a d))
  | .csrrc d a c => some (.base (iWord 0x21#6 (0#2 ++ c) a d))
  | .trap k => some (.base (rWord 0x22#6 0#5 0#4 k 0#5 0#5))
  | .brk => some (.base (rWord 0x22#6 1#5 0#4 0#5 0#5 0#5))
  | .eret => some (.base (rWord 0x22#6 2#5 0#4 0#5 0#5 0#5))
  | .wfe => some (.base (rWord 0x22#6 3#5 0#4 0#5 0#5 0#5))
  | .icsync => some (.base (rWord 0x22#6 4#5 0#4 0#5 0#5 0#5))
  | .tlbi a => some (.base (rWord 0x22#6 5#5 0#4 0#5 a 0#5))
  | .tlbiAll => some (.base (rWord 0x22#6 5#5 0#4 1#5 0#5 0#5))
  | .savectx a => some (.base (rWord 0x22#6 6#5 0#4 0#5 a 0#5))
  | .rstctx d a => some (.base (rWord 0x22#6 7#5 0#4 0#5 a d))
  | .quiesce d => some (.base (rWord 0x22#6 8#5 0#4 0#5 0#5 d))
  | .retire => some (.base (rWord 0x22#6 9#5 0#4 0#5 0#5 0#5))
  | .fenceSv s => some (.base (rWord 0x23#6 0#5 (0#1 ++ s) 0#5 0#5 0#5))
  | .fenceVs s => some (.base (rWord 0x23#6 1#5 (0#1 ++ s) 0#5 0#5 0#5))
  | .fenceVv s => some (.base (rWord 0x23#6 2#5 (0#1 ++ s) 0#5 0#5 0#5))
  | .fenceAll s => some (.base (rWord 0x23#6 3#5 (0#1 ++ s) 0#5 0#5 0#5))
  | .fenceSys d => some (.base (rWord 0x23#6 4#5 6#4 0#5 0#5 d))
  | .amoAddW d a b s q l => some (.base (rWord 0x24#6 (l ++ 0#4) (q ++ s) b a d))
  | .amoAndW d a b s q l => some (.base (rWord 0x24#6 (l ++ 1#4) (q ++ s) b a d))
  | .amoOrW d a b s q l => some (.base (rWord 0x24#6 (l ++ 2#4) (q ++ s) b a d))
  | .amoXorW d a b s q l => some (.base (rWord 0x24#6 (l ++ 3#4) (q ++ s) b a d))
  | .amoMinW d a b s q l => some (.base (rWord 0x24#6 (l ++ 4#4) (q ++ s) b a d))
  | .amoMaxW d a b s q l => some (.base (rWord 0x24#6 (l ++ 5#4) (q ++ s) b a d))
  | .amoMinnW d a b s q l => some (.base (rWord 0x24#6 (l ++ 6#4) (q ++ s) b a d))
  | .amoMaxnW d a b s q l => some (.base (rWord 0x24#6 (l ++ 7#4) (q ++ s) b a d))
  | .amoSwapW d a b s q l => some (.base (rWord 0x24#6 (l ++ 8#4) (q ++ s) b a d))
  | .amoCasW d a b s q l => some (.base (rWord 0x24#6 (l ++ 9#4) (q ++ s) b a d))
  | .amoAddD d a b s q l => some (.base (rWord 0x25#6 (l ++ 0#4) (q ++ s) b a d))
  | .amoAndD d a b s q l => some (.base (rWord 0x25#6 (l ++ 1#4) (q ++ s) b a d))
  | .amoOrD d a b s q l => some (.base (rWord 0x25#6 (l ++ 2#4) (q ++ s) b a d))
  | .amoXorD d a b s q l => some (.base (rWord 0x25#6 (l ++ 3#4) (q ++ s) b a d))
  | .amoMinD d a b s q l => some (.base (rWord 0x25#6 (l ++ 4#4) (q ++ s) b a d))
  | .amoMaxD d a b s q l => some (.base (rWord 0x25#6 (l ++ 5#4) (q ++ s) b a d))
  | .amoMinnD d a b s q l => some (.base (rWord 0x25#6 (l ++ 6#4) (q ++ s) b a d))
  | .amoMaxnD d a b s q l => some (.base (rWord 0x25#6 (l ++ 7#4) (q ++ s) b a d))
  | .amoSwapD d a b s q l => some (.base (rWord 0x25#6 (l ++ 8#4) (q ++ s) b a d))
  | .amoCasD d a b s q l => some (.base (rWord 0x25#6 (l ++ 9#4) (q ++ s) b a d))
  | .vsetlT d a t => some (.base (iWord 0x26#6 (1#6 ++ t) a d))
  | .vsetl d a => some (.base (iWord 0x26#6 0#14 a d))
  | .vcfg b n => some (.base (rWord 0x27#6 0#5 0#4 0#5 (0#1 ++ (b ++ n)) 0#5))
  | .vsett d a b => some (.base (rWord 0x27#6 1#5 0#4 b a d))
  | .vadd d a b m => some (.base (rWord 0x28#6 0#5 m b a d))
  | .vsub d a b m => some (.base (rWord 0x28#6 1#5 m b a d))
  | .vmul d a b m => some (.base (rWord 0x28#6 2#5 m b a d))
  | .vmulh d a b m => some (.base (rWord 0x28#6 3#5 m b a d))
  | .vmacc d a b m => some (.base (rWord 0x28#6 4#5 m b a d))
  | .vdiv d a b m => some (.base (rWord 0x28#6 5#5 m b a d))
  | .vrem d a b m => some (.base (rWord 0x28#6 6#5 m b a d))
  | .vmin d a b m => some (.base (rWord 0x28#6 7#5 m b a d))
  | .vmax d a b m => some (.base (rWord 0x28#6 8#5 m b a d))
  | .vand d a b m => some (.base (rWord 0x28#6 9#5 m b a d))
  | .vor d a b m => some (.base (rWord 0x28#6 10#5 m b a d))
  | .vxor d a b m => some (.base (rWord 0x28#6 11#5 m b a d))
  | .vsll d a b m => some (.base (rWord 0x28#6 12#5 m b a d))
  | .vsrl d a b m => some (.base (rWord 0x28#6 13#5 m b a d))
  | .vsra d a b m => some (.base (rWord 0x28#6 14#5 m b a d))
  | .vadds d a b m => some (.base (rWord 0x28#6 15#5 m b a d))
  | .vsubs d a b m => some (.base (rWord 0x28#6 16#5 m b a d))
  | .vadc d a b m => some (.base (rWord 0x28#6 17#5 m b a d))
  | .vsbc d a b m => some (.base (rWord 0x28#6 18#5 m b a d))
  | .vmerge d a b m => some (.base (rWord 0x28#6 19#5 m b a d))
  | .vaddX d a b m => some (.base (rWord 0x29#6 0#5 m b a d))
  | .vsubX d a b m => some (.base (rWord 0x29#6 1#5 m b a d))
  | .vmulX d a b m => some (.base (rWord 0x29#6 2#5 m b a d))
  | .vmulhX d a b m => some (.base (rWord 0x29#6 3#5 m b a d))
  | .vmaccX d a b m => some (.base (rWord 0x29#6 4#5 m b a d))
  | .vdivX d a b m => some (.base (rWord 0x29#6 5#5 m b a d))
  | .vremX d a b m => some (.base (rWord 0x29#6 6#5 m b a d))
  | .vminX d a b m => some (.base (rWord 0x29#6 7#5 m b a d))
  | .vmaxX d a b m => some (.base (rWord 0x29#6 8#5 m b a d))
  | .vandX d a b m => some (.base (rWord 0x29#6 9#5 m b a d))
  | .vorX d a b m => some (.base (rWord 0x29#6 10#5 m b a d))
  | .vxorX d a b m => some (.base (rWord 0x29#6 11#5 m b a d))
  | .vsllX d a b m => some (.base (rWord 0x29#6 12#5 m b a d))
  | .vsrlX d a b m => some (.base (rWord 0x29#6 13#5 m b a d))
  | .vsraX d a b m => some (.base (rWord 0x29#6 14#5 m b a d))
  | .vaddsX d a b m => some (.base (rWord 0x29#6 15#5 m b a d))
  | .vsubsX d a b m => some (.base (rWord 0x29#6 16#5 m b a d))
  | .vadcX d a b m => some (.base (rWord 0x29#6 17#5 m b a d))
  | .vsbcX d a b m => some (.base (rWord 0x29#6 18#5 m b a d))
  | .vmergeX d a b m => some (.base (rWord 0x29#6 19#5 m b a d))
  | .vcmpeq d a b m => some (.base (rWord 0x2A#6 0#5 m b a d))
  | .vcmpne d a b m => some (.base (rWord 0x2A#6 1#5 m b a d))
  | .vcmplt d a b m => some (.base (rWord 0x2A#6 2#5 m b a d))
  | .vcmple d a b m => some (.base (rWord 0x2A#6 3#5 m b a d))
  | .vcmpgt d a b m => some (.base (rWord 0x2A#6 4#5 m b a d))
  | .vcmpge d a b m => some (.base (rWord 0x2A#6 5#5 m b a d))
  | .vfcmpeq d a b m => some (.base (rWord 0x2A#6 8#5 m b a d))
  | .vfcmplt d a b m => some (.base (rWord 0x2A#6 9#5 m b a d))
  | .vfcmple d a b m => some (.base (rWord 0x2A#6 10#5 m b a d))
  | .vfcmpne d a b m => some (.base (rWord 0x2A#6 11#5 m b a d))
  | .vfcmpun d a b m => some (.base (rWord 0x2A#6 12#5 m b a d))
  | .vfadd d a b m => some (.base (rWord 0x2B#6 0#5 m b a d))
  | .vfsub d a b m => some (.base (rWord 0x2B#6 1#5 m b a d))
  | .vfmul d a b m => some (.base (rWord 0x2B#6 2#5 m b a d))
  | .vfma d a b m => some (.base (rWord 0x2B#6 3#5 m b a d))
  | .vfdiv d a b m => some (.base (rWord 0x2B#6 4#5 m b a d))
  | .vfsqrt d a m => some (.base (rWord 0x2B#6 5#5 m 0#5 a d))
  | .vfmin d a b m => some (.base (rWord 0x2B#6 6#5 m b a d))
  | .vfmax d a b m => some (.base (rWord 0x2B#6 7#5 m b a d))
  | .vfcvt d a m k => some (.base (rWord 0x2B#6 8#5 m k a d))
  | .vfrcp d a m => some (.base (rWord 0x2B#6 9#5 m 0#5 a d))
  | .vfrsq d a m => some (.base (rWord 0x2B#6 10#5 m 0#5 a d))
  | .vfexp2 d a m => some (.base (rWord 0x2B#6 11#5 m 0#5 a d))
  | .vflog2 d a m => some (.base (rWord 0x2B#6 12#5 m 0#5 a d))
  | .vftanh d a m => some (.base (rWord 0x2B#6 13#5 m 0#5 a d))
  | .vfaddX d a b m => some (.base (rWord 0x2C#6 0#5 m b a d))
  | .vfsubX d a b m => some (.base (rWord 0x2C#6 1#5 m b a d))
  | .vfmulX d a b m => some (.base (rWord 0x2C#6 2#5 m b a d))
  | .vfmaX d a b m => some (.base (rWord 0x2C#6 3#5 m b a d))
  | .vfminX d a b m => some (.base (rWord 0x2C#6 6#5 m b a d))
  | .vfmaxX d a b m => some (.base (rWord 0x2C#6 7#5 m b a d))
  | .vmv d a m => some (.base (rWord 0x2D#6 0#5 m 0#5 a d))
  | .vmvFromScalar d a m => some (.base (rWord 0x2D#6 1#5 m 0#5 a d))
  | .vslideup d a b m => some (.base (rWord 0x2D#6 2#5 m b a d))
  | .vslidedn d a b m => some (.base (rWord 0x2D#6 3#5 m b a d))
  | .vperm d a b m => some (.base (rWord 0x2D#6 4#5 m b a d))
  | .vcompress d a b => some (.base (rWord 0x2D#6 5#5 12#4 b a d))
  | .viota d a m => some (.base (rWord 0x2D#6 6#5 m 0#5 a d))
  | .vid d m => some (.base (rWord 0x2D#6 7#5 m 0#5 0#5 d))
  | .vmvToScale d a => some (.base (rWord 0x2D#6 8#5 12#4 0#5 a d))
  | .vmvFromScale d a => some (.base (rWord 0x2D#6 9#5 12#4 0#5 a d))
  | .vredAdd d a b m => some (.base (rWord 0x2E#6 0#5 m b a d))
  | .vredAnd d a b m => some (.base (rWord 0x2E#6 1#5 m b a d))
  | .vredOr d a b m => some (.base (rWord 0x2E#6 2#5 m b a d))
  | .vredXor d a b m => some (.base (rWord 0x2E#6 3#5 m b a d))
  | .vredMin d a b m => some (.base (rWord 0x2E#6 4#5 m b a d))
  | .vredMax d a b m => some (.base (rWord 0x2E#6 5#5 m b a d))
  | .vfredo d a b m => some (.base (rWord 0x2E#6 8#5 m b a d))
  | .vfredt d a b m => some (.base (rWord 0x2E#6 9#5 m b a d))
  | .mand d a b => some (.base (rWord 0x2F#6 0#5 12#4 b a d))
  | .mor d a b => some (.base (rWord 0x2F#6 1#5 12#4 b a d))
  | .mxor d a b => some (.base (rWord 0x2F#6 2#5 12#4 b a d))
  | .mandn d a b => some (.base (rWord 0x2F#6 3#5 12#4 b a d))
  | .mnot d a => some (.base (rWord 0x2F#6 4#5 12#4 0#5 a d))
  | .mwhile d a => some (.base (rWord 0x2F#6 5#5 12#4 0#5 a d))
  | .mpop d a => some (.base (rWord 0x2F#6 6#5 12#4 0#5 a d))
  | .mpopVl d a => some (.base (rWord 0x2F#6 7#5 12#4 0#5 a d))
  | .mfirst d a => some (.base (rWord 0x2F#6 8#5 12#4 0#5 a d))
  | .mlast d a => some (.base (rWord 0x2F#6 9#5 12#4 0#5 a d))
  | .mshup d a => some (.base (rWord 0x2F#6 10#5 12#4 0#5 a d))
  | .vtopk d a b m => some (.base (rWord 0x2F#6 11#5 m b a d))
  | .vld d a m => some (.base (rWord 0x30#6 0#5 m 0#5 a d))
  | .vlds d a b m => some (.base (rWord 0x30#6 1#5 m b a d))
  | .vlx d a b m => some (.base (rWord 0x30#6 2#5 m b a d))
  | .vldff d a m => some (.base (rWord 0x30#6 3#5 m 0#5 a d))
  | .vlxff d a b m => some (.base (rWord 0x30#6 4#5 m b a d))
  | .vldScale d a => some (.base (rWord 0x30#6 5#5 12#4 0#5 a d))
  | .vldMask d a => some (.base (rWord 0x30#6 6#5 12#4 0#5 a d))
  | .vst d a m => some (.base (rWord 0x30#6 8#5 m 0#5 a d))
  | .vsts d a b m => some (.base (rWord 0x30#6 9#5 m b a d))
  | .vsx d a b m => some (.base (rWord 0x30#6 10#5 m b a d))
  | .vscadd d a b m => some (.base (rWord 0x30#6 11#5 m b a d))
  | .vstScale d a => some (.base (rWord 0x30#6 12#5 12#4 0#5 a d))
  | .vstMask d a => some (.base (rWord 0x30#6 13#5 12#4 0#5 a d))
  | .vxlate d a b m => some (.base (rWord 0x30#6 16#5 m b a d))
  | .vxlateff d a b m => some (.base (rWord 0x30#6 17#5 m b a d))
  | .vamoAdd d b m s q l => some (.base (rWord 0x31#6 0#5 m b (l ++ (q ++ s)) d))
  | .vamoAnd d b m s q l => some (.base (rWord 0x31#6 1#5 m b (l ++ (q ++ s)) d))
  | .vamoOr d b m s q l => some (.base (rWord 0x31#6 2#5 m b (l ++ (q ++ s)) d))
  | .vamoXor d b m s q l => some (.base (rWord 0x31#6 3#5 m b (l ++ (q ++ s)) d))
  | .vamoMin d b m s q l => some (.base (rWord 0x31#6 4#5 m b (l ++ (q ++ s)) d))
  | .vamoMax d b m s q l => some (.base (rWord 0x31#6 5#5 m b (l ++ (q ++ s)) d))
  | .vamoMinn d b m s q l => some (.base (rWord 0x31#6 6#5 m b (l ++ (q ++ s)) d))
  | .vamoMaxn d b m s q l => some (.base (rWord 0x31#6 7#5 m b (l ++ (q ++ s)) d))
  | .vamoSwap d b m s q l => some (.base (rWord 0x31#6 8#5 m b (l ++ (q ++ s)) d))
  | .fwdmove a b m => some (.base (rWord 0x32#6 0#5 m b a 0#5))
  | .fwdres d a m => some (.base (rWord 0x32#6 1#5 m 0#5 a d))
  | .fwdresff d a m => some (.base (rWord 0x32#6 2#5 m 0#5 a d))
  | .pcmpr d a b m => some (.base (rWord 0x32#6 3#5 m b a d))
  | .fwdpath a m => some (.base (rWord 0x32#6 4#5 m 0#5 a 0#5))
  | .fwdrecl a => some (.base (rWord 0x32#6 5#5 12#4 0#5 a 0#5))
  | .fwdreclTomb a => some (.base (rWord 0x32#6 6#5 12#4 0#5 a 0#5))
  | .cpstep c => some (.base (rWord 0x33#6 0#5 12#4 c 0#5 0#5))
  | .cpwait c => some (.base (rWord 0x33#6 1#5 12#4 c 0#5 0#5))
  | .cpland d c => some (.base (rWord 0x33#6 2#5 12#4 c 0#5 d))
  | .cpcfg a c t => some (.base (iWord 0x34#6 (0#6 ++ t) a c))
  | .launch d a b => some (.base (rWord 0x35#6 0#5 0#4 b a d))
  | .claim d a => some (.base (rWord 0x35#6 1#5 0#4 0#5 a d))
  | .grun d a => some (.base (rWord 0x35#6 2#5 0#4 0#5 a d))
  | .gbar => some (.base (rWord 0x36#6 0#5 0#4 0#5 0#5 0#5))
  | .sopen d a k => some (.base (rWord 0x36#6 1#5 0#4 k a d))
  | .sclose d => some (.base (rWord 0x36#6 2#5 0#4 0#5 0#5 d))
  | .bstVector d a m => some (.base (rWord 0x36#6 4#5 m 0#5 a d))
  | .bstScalar a b => some (.base (rWord 0x36#6 5#5 0#4 b a 0#5))
  | .bacq => some (.base (rWord 0x36#6 6#5 7#4 0#5 0#5 0#5))
  | .mopa d a b ta tb sa sb sat scl => some (.prefixed (pWord 0#6 ta tb (flagBit scl ++ (flagBit sat ++ (sb ++ sa)))) (rWord 0x3F#6 0#5 12#4 b a d))
  | .mzero d => some (.prefixed (pWord 0#6 0#8 0#8 0#8) (rWord 0x3F#6 1#5 12#4 0#5 0#5 d))
  | .mfill d a => some (.prefixed (pWord 0#6 0#8 0#8 0#8) (rWord 0x3F#6 2#5 12#4 0#5 a d))
  | .mdrain d a b m ta => some (.prefixed (pWord 0#6 ta 0#8 0#8) (rWord 0x3F#6 3#5 m b a d))
  | .mrdrow d a b ta => some (.prefixed (pWord 0#6 ta 0#8 0#8) (rWord 0x3F#6 4#5 12#4 b a d))
  | .vhad d a m ta tb n => some (.prefixed (pWord 1#6 ta tb (0#4 ++ n)) (rWord 0x3F#6 0#5 m 0#5 a d))
  | .vcvtn d a m ta tb sa scl => some (.prefixed (pWord 1#6 ta tb (flagBit scl ++ (0#4 ++ sa))) (rWord 0x3F#6 1#5 m 0#5 a d))
  | .vcvtw d a m ta tb sa scl => some (.prefixed (pWord 1#6 ta tb (flagBit scl ++ (0#4 ++ sa))) (rWord 0x3F#6 2#5 m 0#5 a d))
  | .vscale d a ta tb => some (.prefixed (pWord 1#6 ta tb 0#8) (rWord 0x3F#6 3#5 12#4 0#5 a d))
  | .xcfg d a => some (.prefixed (pWord 2#6 0#8 0#8 0#8) (rWord 0x3F#6 0#5 12#4 0#5 a d))
  | .xckpt d a m => some (.prefixed (pWord 2#6 0#8 0#8 0#8) (rWord 0x3F#6 1#5 m 0#5 a d))
  | .xdrain d a m => some (.prefixed (pWord 2#6 0#8 0#8 0#8) (rWord 0x3F#6 2#5 m 0#5 a d))
  | .xstat d a m f => some (.prefixed (pWord 2#6 0#8 0#8 (0#6 ++ f)) (rWord 0x3F#6 3#5 m 0#5 a d))
  | .xclr d => some (.prefixed (pWord 2#6 0#8 0#8 0#8) (rWord 0x3F#6 4#5 12#4 0#5 0#5 d))
  | .cAdd d a b => some (.parcel (cWord 0#4 (0#2 ++ b) a d))
  | .cSub d a b => some (.parcel (cWord 1#4 (0#2 ++ b) a d))
  | .cAnd d a b => some (.parcel (cWord 2#4 (0#2 ++ b) a d))
  | .cOr d a b => some (.parcel (cWord 3#4 (0#2 ++ b) a d))
  | .cXor d a b => some (.parcel (cWord 4#4 (0#2 ++ b) a d))
  | .cAddi d a i => some (.parcel (cWord 5#4 i a d))
  | .cLi d i => some (.parcel (cWord 6#4 i 0#3 d))
  | .cSlli d a i => some (.parcel (cWord 7#4 i a d))
  | .cSrli d a i => some (.parcel (cWord 8#4 i a d))
  | .cSrai d a i => some (.parcel (cWord 9#4 i a d))
  | .cLdS32 d a i => some (.parcel (cWord 10#4 i a d))
  | .cLd64 d a i => some (.parcel (cWord 11#4 i a d))
  | .cSt32 d a i => some (.parcel (cWord 12#4 i a d))
  | .cSt64 d a i => some (.parcel (cWord 13#4 i a d))
  | .cBeq a i => some (.parcel (cWord 14#4 (i.extractLsb' 0 5) a (i.extractLsb' 5 3)))
  | .cBne a i => some (.parcel (cWord 15#4 (i.extractLsb' 0 5) a (i.extractLsb' 5 3)))
  | .vtypeWrite _ _ => none
  | .vstartWrite _ _ => none
  | .rmodeWrite _ _ => none
  | .vlcapWrite _ _ => none
  | .spbanksWrite _ _ => none
  | .ptrootWrite _ _ => none
  | .csrWrite _ _ _ => none
  | .enqueueStore _ _ _ _ _ => none
  | .graphStartWindow _ _ _ _ => none
  | .placeGang _ => none
  | .agingStep _ => none
  | .preemption _ => none
  | .graphNodeStart _ _ => none
  | .vectorEntryComplete _ => none
  | .faultRecordPost _ => none
  | .eventDelivery _ => none
  | .eventWindowWrite _ _ _ => none
  | .wfeTimeout _ => none
  | .stripFetch _ _ _ => none
  | .elementLanding _ _ _ => none
  | .moveComplete _ => none
  | .reclaimComplete _ _ => none
  | .postedWriteFollow _ => none
  | .scrub _ _ _ _ => none
  | .uncorrectableError _ => none
  | .laneGroupRetirement _ _ => none
  | .frameBoundary _ => none
  | .slotTransmission _ _ _ => none
  | .broadcastApply _ _ => none
  | .tierSleep _ => none
  | .tierWake _ => none
  | .wakeLogReplayEnd _ => none
  | .replicaRefillEnd _ => none
  | .powerSample _ _ => none
  | .thermalShutdown => none
  | .powerUp _ _ _ _ => none
  | .linkRetrainEntry _ => none
  | .trainingAttemptEnd _ _ => none
  | .linkDownTimeout _ => none
  | .fabricRequest _ _ _ => none
  | .partInfo _ _ _ => none
  | .counters _ _ _ _ => none
  | .shootdown _ _ _ _ _ => none
  | .resume _ _ _ => none
  | .abandon _ _ _ _ _ => none
  | .setevent _ _ _ _ _ => none
  | .quota _ _ _ _ _ => none
  | .qpair _ _ _ _ _ => none
  | .mreg _ _ _ _ _ _ _ _ => none
  | .mdereg _ _ _ _ => none
  | .qpconn _ _ _ _ _ _ => none
  | .create _ _ _ _ _ => none
  | .lock _ _ _ _ => none
  | .start _ _ _ _ => none
  | .stop _ _ _ _ => none
  | .teardown _ _ _ _ => none
  | .slots _ _ _ _ _ _ _ _ => none
  | .access _ _ _ _ _ _ => none
  | .link _ _ _ _ => none
  | .domain _ _ _ _ => none
  | .migrate _ _ _ _ _ _ _ _ => none
  | .sleep _ _ _ _ _ _ => none
  | .workLinePost _ _ _ _ _ => none
  | .workLineCompletion _ _ _ _ => none
  | .receiveLinePost _ _ _ _ _ => none
  | .inboundSend _ _ _ => none
  | .inboundRdmaWrite _ _ _ _ _ => none
  | .inboundRdmaRead _ _ _ _ _ => none
  | .getVersion _ => none
  | .getCapabilities _ => none
  | .negotiateAlgorithms _ _ => none
  | .getDigests _ => none
  | .getCertificate _ _ _ => none
  | .challenge _ _ => none
  | .getMeasurements _ _ _ => none
  | .keyExchange _ _ => none
  | .finish _ _ => none
  | .endSession _ _ => none
  | .postedWriteAck _ _ => none
  | .flitCrcFailure _ => none

/-! ### The table's numbering of words -/

/-- The bits of an instruction's words as one string, the first word lowest. -/
def Words.bits : Words → BitVec 64
  | .parcel p => p.zeroExtend 64
  | .base w => w.zeroExtend 64
  | .prefixed p w => w ++ p

/-- The instruction the decoder reads from a word of the opcode table: bit 0 is the least significant bit of the first
word, later words count on from it, and every bit at and above nbits is 0. -/
noncomputable def decodeTableWord (nbits w : Nat) : Option Instr :=
  match decode (wordsOf (BitVec.ofNat 64 (w % 2 ^ nbits))) with
  | .ok i => some i
  | .error _ => none

end Sys2Proof
end

