-- ==== Sys2Proof/Config.lean ====
section
/-!
DEFINITION. Config.lean: what the spec fixes for every part, and the free values: constants with no body, which stand for
what the spec leaves open. Nothing can be proved of a free value but what holds for every value.
-/
namespace Sys2Proof.Config

/-- Harts, cores, clusters, tiers and towers of a package (R15). -/
def numHarts : Nat := 1536
def numCores : Nat := 384
def numClusters : Nat := 96
def numTiers : Nat := 24
def numTowers : Nat := 2

/-- Bytes of DRAM on one tier (R88). -/
def tierBytes : Nat := 12 * 2 ^ 30

/-- Bytes of local DRAM: local addresses below this are backed (R88). -/
def localBytes : Nat := 24 * tierBytes

/-- Entries of a vector queue, a read queue, a launch queue, a transmit queue, a wake log and the banks of a core. -/
def vqDepth : Nat := 32
def rqDepth : Nat := 8
def lqDepth : Nat := 32
def txDepth : Nat := 64
def wlogDepth : Nat := 4096
def coreBanks : Nat := 96

/-- The first address of the scratchpad window, and its end (R84). -/
def spadBase : Nat := 0x01FFFFFFFFF80000
def spadEnd : Nat := 0x0200000000000000

/-- A fresh free value for each number, read as many bits as the place needs. It stands for a value that the spec does not
state (log entry 5, DESIGN CHOICE). -/
opaque freeValue : Nat → Nat

/-- The Dvorder link that carries this package's traffic to a peer package or host: the spec gives 18 links and no map from
peers to links (R371). -/
opaque linkOf : Nat → Fin 18

/-- Whether a peer package performs, at a cycle, a request of this package that names a partition: for a line, to write or to read.
The peer's access table and the line's PTAG there decide (R373), and no state of this package holds them
(log entry 88, DESIGN CHOICE). -/
opaque peerPerforms (pkg line part cycle : Nat) (write : Bool) : Bool

/-- The bytes of an HSS signature under the leaf of the given index, over the given message (R381): the algorithm is
RFC 8554's, outside the spec's text. -/
opaque hssSignature : Nat → List (BitVec 8) → List (BitVec 8)

/-- The SHA-256 digest of a string of bytes (R381). -/
opaque sha256 : List (BitVec 8) → BitVec 256

/-- The SHA-384 digest of a string of bytes, for SPDM's transcripts and digests (R382). -/
opaque sha384 : List (BitVec 8) → BitVec 384

/-- The boot ROM, the monitor image and the certificate chain, which the spec names but does not print (R380 to R382). -/
opaque bootRom : List (BitVec 8)
opaque monitorImage : List (BitVec 8)
opaque certChain : List (BitVec 8)

/-- The responder's ECDHE share for the n-th key exchange (R382). -/
opaque ecdheShare : Nat → Nat

end Sys2Proof.Config
end

