-- ==== Sys2Proof/Machine/State.lean ====
section
/-!
DEFINITION. Machine/State.lean: the state of one package, as plain data, and its reset value.

A table is a list of (key, value) pairs with keys strictly rising; a key that is not listed stands for the reset record.
-/
namespace Sys2Proof.Machine

/-- A table: keys strictly rising; an unlisted key stands for the default record of the field. -/
abbrev Tab (α : Type) := List (Nat × α)

/-! ### Turns -/

/-- What moves next: a hart, a step of the part, time alone, the replacement of a cached line or of a region's directory entry
(R96, R97), a hart that keeps a translation it has walked (R138), or the spilling or filling of a hart's v, m and w registers
(R83). -/
inductive Turn where
  | hart (g : Nat)
  | event (i : Instr)
  | pass (n : Nat)
  | dropScalar (core line : Nat)
  | dropL1 (core line : Nat)
  | dropIcache (core line : Nat)
  | dropCluster (cluster line : Nat)
  | dropRegion (region : Nat)
  | keep (g va : Nat)
  | spill (g : Nat)
  | fill (g : Nat)
  deriving DecidableEq, Repr

/-! ### The hart -/

/-- A translation that a hart holds (R138, R140): the page's virtual base and the log of its size, the leaf line's address and its
bits as the walk read them. -/
structure Held where
  base : Nat
  size : Nat
  line : Nat
  bits : Bits
  deriving DecidableEq, Repr

/-- What the oldest vector-queue entry keeps while it waits in the middle of a memory instruction (R140, R145): the VSTART its
execution began with, the element above the last of the section under way, 0 for none, whether elements have begun to perform, its
pins, the source line of a move that its home has taken, with its element, the lines hopped out of to reach it and its own virtual
line, and the lines hopped out of and the lines moved by committed elements, whose counts are still to be added. -/
structure Flight where
  start : Nat
  upto  : Nat := 0
  begun : Bool := false
  pins  : List Held := []
  move  : Option Nat := none
  lead  : Nat := 0
  pend  : List Nat := []
  mover : Nat := 0
  hops  : List Nat := []
  moved : List Nat := []
  deriving DecidableEq, Repr

/-- An element's Lacewing history (R308): its entries, oldest first, as codes of the register's precision; PREV and its
valid bit; the four flags. -/
structure HistElem where
  entries : List Nat
  prev    : Option Nat
  nzd     : Bool
  stag    : Bool
  conv    : Bool
  div     : Bool
  deriving DecidableEq, Repr

/-- A history register (R308): the configuration word, NEL and the elements below it. -/
structure Hist where
  cfg   : Word
  nel   : Nat
  elems : List HistElem
  deriving DecidableEq, Repr

/-- A vector-queue entry (R123). The instruction stands for INSN; vlPend and begun are the marks of R345. ten holds RMODE's trap
enables as they stood at the send (R26, R64), size the register size that gave MVL then (R76), and freed the released strips of the
four channels then: the strips that a later instruction has released are later than the entry in program order (R167). -/
structure VEntry where
  pc     : Word
  insn   : Instr
  vtype  : Word
  mode   : BitVec 3
  seed   : BitVec 32
  opa    : Word
  opb    : Word
  vl     : BitVec 23
  vstart : BitVec 23
  rq     : Option (BitVec 3)
  vlPend : Bool
  begun  : Bool
  ten    : BitVec 5
  size   : Nat
  freed  : List Nat
  deriving DecidableEq, Repr

/-- A read-queue entry (R125): the x register it fills, the vector-queue position, and the value once it has arrived. -/
structure RqEntry where
  reg   : BitVec 5
  qpos  : BitVec 5
  value : Option Word
  deriving DecidableEq, Repr

/-- A copy channel (R126, R156, R289 to R293, R345): the five descriptor words, the captured type, mode and seed, its
counts and watermark; the elements fetched and not landed, with their bytes; the elements landed above the leading run; and
the CPCFG's address. -/
structure Chan where
  desc     : Vector Word 5
  typ      : BitVec 8
  mode     : BitVec 3
  seed     : BitVec 32
  active   : Bool
  faulted  : Bool
  exp      : BitVec 23
  retired  : Nat
  released : Nat
  land     : Nat
  wmark    : Word
  above    : List Nat
  fetched  : Tab Nat
  cfgPc    : Word
  /-- its last fetch or landing was held at a line or waits on MIG. -/
  held     : Bool
  /-- the address whose page a TLBI must name before it goes on (R139). -/
  mig      : Option Nat := none
  deriving DecidableEq, Repr

/-- An interlock entry (R142). -/
structure Ilk where
  v    : Bool
  kind : BitVec 3
  ch   : BitVec 2
  qpos : BitVec 5
  lo   : BitVec 57
  hi   : BitVec 57
  deriving DecidableEq, Repr

/-- What waits for the count of a trip that has ended on a vector instruction which writes the count register (R125, R220):
nothing, the pc, or the resume PC of a trap taken since. -/
inductive TripWait where
  | no
  | atPc
  | atResume
  deriving DecidableEq, Repr

/-- The loop state (R220 to R222): ACTIVE, the start of the body, END, the count register, the bytes of the body, if it is
pinned, and the decision that waits for the count. -/
structure LoopState where
  active : Bool
  start  : Word
  stop   : Word
  reg    : BitVec 5
  pinned : Option Bits
  trip   : TripWait := .no
  deriving DecidableEq, Repr

/-- A write that its instruction has completed and that is not yet performed (R398): the virtual address, the size and the
bytes, the writer's instruction address, whether the vector side wrote it, where its own address was translated to, and the address
whose page a TLBI must name before it goes on (R139). -/
structure Posted where
  va   : Word
  pa   : Nat
  size : Nat
  data : Nat
  pc   : Word
  vec  : Bool
  mig  : Option Nat := none
  deriving DecidableEq, Repr

/-- What the ERET that ends a trap does (R213): it goes to EPC after a trap that the queue drained for (or, within a handler,
was held for) and after an event, which stopped the queue; it resumes the queue and the resume PC after the others. -/
inductive TrapKind where
  | drained
  | event
  | queue
  deriving DecidableEq, Repr

/-- What a trap writes once its fault record has found room (R127, R212): the cause, EPC, and whether ERET resumes the
queue. -/
structure PendingTrap where
  cause  : BitVec 16
  epc    : Word
  resume : Bool
  deriving DecidableEq, Repr

/-- Why a placed hart executes nothing. -/
inductive HStop where
  /-- it runs. -/
  | run
  /-- its fault record waits for room in the fault queue (R127). -/
  | faultWait (t : PendingTrap)
  /-- its state is lost (R350). -/
  | lost
  /-- a device access it needed failed its walk (R399). -/
  | error
  deriving DecidableEq, Repr

/-- Where a hart stands in a launch: the launch, the gang, its index in the gang, and the cycle it was placed. -/
structure Place where
  launch : Nat
  gang   : Nat
  index  : Nat
  since  : Nat
  deriving DecidableEq, Repr

/-- One hart. Register names are those of "Registers". -/
structure Hart where
  x        : Vector Word 32
  v        : Vector Bits 32
  m        : Vector Bits 12
  w        : Vector Bits 8
  a        : Vector Bits 4
  e        : Vector Hist 4
  pc       : Word
  /-- the privilege: true in supervisor. -/
  sup      : Bool
  fflags   : BitVec 5
  rmode    : Word
  vstart   : BitVec 23
  /-- VSTART holds a value that a CSR write left and no send has taken (R64). -/
  vsWritten : Bool
  vtype    : Word
  ftrim    : BitVec 23
  vl       : BitVec 23
  vcfg     : BitVec 4
  tilem    : BitVec 8
  tilen    : BitVec 8
  tilek    : BitVec 6
  status   : BitVec 3
  tvec     : Word
  epc      : Word
  ecause   : BitVec 16
  eval     : Word
  eqpos    : BitVec 5
  kscratch : Word
  ptroot   : Word
  vlcap    : Word
  fwdlim   : BitVec 2
  partid   : BitVec 6
  bpaddr   : Vector Word 8
  bpctl    : Vector Word 8
  hrun     : Word
  instret  : Word
  egops    : Word
  mxcyc    : Word
  fwdhops  : Word
  ilkstall : Word
  bacqwait : Word
  xfallbk  : Word
  preempts : Word
  traps    : Word
  lp       : LoopState
  /-- the resume PC (R212): hidden. -/
  resumePc : Word
  /-- the traps that no ERET has ended, the latest first: hidden. -/
  erets    : List TrapKind
  /-- the vector queue is held by a trap: its entries wait for ERET or for a send of the handler (R213, R214). -/
  vqHeld   : Bool
  /-- the next fetch is the first after ERET, which no breakpoint matches (R355). -/
  bpSkip   : Bool
  /-- the register-size cap in force: VLCAP as the last VSETL, VSETT or VTYPE write took it (R81). -/
  capNow   : Nat
  /-- the saved S a restored hart keeps (R346). -/
  sFix     : Option Nat
  /-- the register size the hart's registers are laid out by (R45): S as its last VCFG, VSETL, VSETT, VTYPE write, start or
  restore took it (log entry 7, DEDUCED). -/
  lay      : Nat
  vq       : List VEntry
  /-- the oldest entry has stopped once, at a trap or a pre-emption: a breakpoint in the group of its VSTART does not match it
  again (R356). -/
  stoppedAt : Bool
  rq       : List RqEntry
  chans    : Vector Chan 4
  ilk      : Vector Ilk 16
  place    : Option Place
  /-- ARRIVED: the hart has arrived in the current barrier episode (R323), and the episode it arrived in. -/
  arrived  : Bool
  epochAt  : BitVec 16
  /-- a broadcast barrier write of the hart waits for its slot (R321). -/
  barrierQ : Bool
  /-- broadcast writes of the hart queued and not transmitted, and one above the number of the last transmitted one
  (R158). -/
  bstQueued : Nat
  bstNext   : Option Nat
  /-- completed writes not yet performed, oldest first (R398). -/
  posted   : List Posted
  /-- remote writes not yet acknowledged: an identifier and the peer (R178). -/
  remote   : Tab Nat
  hstop    : HStop
  /-- the cycle a WFE began, with the barrier's EPOCH and STATE then (R234). -/
  wfe      : Option (Nat × BitVec 16 × BitVec 2)
  /-- a BACQ waits: SEQ when it issued (R158). -/
  bacq     : Option Nat
  /-- a MIG wait of the scalar side, and one of the vector side: the virtual address whose page a TLBI must name (R139). -/
  migWait  : Option Nat
  migVec   : Option Nat
  /-- translations held beside the pins (R138, R231). -/
  tlb      : List Held
  /-- what the oldest entry keeps while it waits in the middle of a memory instruction (R140). -/
  flight   : Option Flight
  /-- what a TLBI of the hart that waits for pins names: an address, or every page (R140, R236). -/
  shooting : Option (Option Nat)
  /-- the v, m and w registers stand in the backing area alone (R83). -/
  spilled  : Bool
  /-- the last access of the scalar side, and of the vector side, was held at a line or waits on MIG (R103, R139). -/
  holdS    : Bool
  holdV    : Bool
  /-- an access of the hart stalls on its interlock table, a BACQ of it waits: the first cycle not yet counted (R164). -/
  ilkAt    : Option Nat := none
  bacqAt   : Option Nat := none
  deriving DecidableEq, Repr

/-! ### Cores and caches -/

/-- A copied line: the virtual line it was filled by, and its 128 bytes (R90 to R92). -/
structure CLine where
  va   : Nat
  data : Bits
  deriving DecidableEq, Repr

/-- The cluster-cache states of R93; an unlisted line is I. -/
inductive CcState where
  | s
  | e
  | m
  | l
  deriving DecidableEq, Repr

/-- A cluster-cache line: its state, and for state L its bytes and dirty mask (R93); and its filter entry's mask of the cores that
have touched it (R97). Lines in S, E and M hold what the home holds. -/
structure CcLine where
  st   : CcState
  data : Bits
  mask : Bits
  cores : BitVec 4
  deriving DecidableEq, Repr

/-- What the four harts of a core share (R62, R165): lane groups, scratchpad, caches, error counters. -/
structure Core where
  lglive  : BitVec 8
  spbanks : BitVec 7
  spad    : List Host.Cell
  l1      : Tab CLine
  scache  : Tab CLine
  icache  : Tab CLine
  cecor   : Nat
  ceunc   : Nat
  resmis  : Nat
  lgret   : Nat
  deriving DecidableEq, Repr

/-! ### Lines -/

/-- A move under way (R101): its destination line, the new virtual line, the mover's partition, and whether the write of the
destination has met an uncorrectable error. -/
structure Move where
  dst    : Nat
  newva  : Nat
  part   : Nat
  failed : Bool
  deriving DecidableEq, Repr

/-- A DRAM line's metadata (R98), whether a move's destination reservation holds it (R101), the move under way when it is MOVING,
and the turns whose accesses its home holds, in arrival order (R103). -/
structure LineMeta where
  mark     : Bool
  st       : BitVec 2
  ptag     : Nat
  poison   : Bool
  reserved : Bool
  move     : Option Move
  held     : List Turn
  deriving DecidableEq, Repr

/-! ### Cicada -/

/-- What a broadcast write carries (R329, R321). -/
inductive BKind where
  /-- a block of the broadcast region: index, word mask, payload. -/
  | block (index : Nat) (mask : Bits) (payload : Bits)
  /-- a gang-barrier record: an arrival. -/
  | arrive (gang : Nat)
  /-- a gang-barrier record: SIZE lowered by a RETIRE. -/
  | lower (gang : Nat)
  /-- a gang-barrier record: a member is lost. -/
  | broken (gang : Nat)
  deriving DecidableEq, Repr

/-- A broadcast write in a transmit queue or on its way to the tiers: its hart and content, and the number that a transmission whose
CRC failed has given it (R110, R157). -/
structure BWrite where
  hart : Nat
  what : BKind
  num  : Option Nat := none
  deriving DecidableEq, Repr

/-- A gang's barrier as a tier holds it (R69, R321): SIZE, ARR, EPOCH and STATE. -/
structure Barrier where
  size : BitVec 7
  arr  : BitVec 7
  epoch : BitVec 16
  st   : BitVec 2
  deriving DecidableEq, Repr

/-- A tier's replica states (R106). -/
inductive Replica where
  | current
  | logging
  | stale
  deriving DecidableEq, Repr

/-- A tier's power states (R383): awake, whether ACTIVE or IDLE; asleep; waking; awake again but for its replica, which is
being replayed or refilled (R106). -/
inductive TierPower where
  | awake
  | asleep
  | waking
  | replaying
  deriving DecidableEq, Repr

/-- One tier: its power state, the cycle it became idle, its sleep policy; its replica, APPLIED and wake-log count; its
transmit queues by partition; its error counts in the order of R162; and its tower's SEQ as its last wake began (R177). -/
structure Tier where
  power    : TierPower
  idleFrom : Nat
  policy   : Bool
  replica  : Replica
  applied  : Nat
  wlogged  : Nat
  tx       : Tab (List BWrite)
  drcor    : Nat
  drunc    : Nat
  srcor    : Nat
  srunc    : Nat
  poisonwb : Nat
  scrubs   : Nat
  crcdrop  : Nat
  wakeovf  : Nat
  wakeSeq  : Nat := 0
  deriving DecidableEq, Repr

/-- The contents of a tower's slot-table window (R146): slot entries, broadcast region (tier offset and length in bytes),
wake-log offsets of its twelve tiers. -/
structure SlotTable where
  slots : List (BitVec 16)
  bOff  : Nat
  bLen  : Nat
  wlogs : List Nat
  deriving DecidableEq, Repr

/-- One tower: SEQ, the frame counter, the slot table in force and the one pending the next frame boundary, the front end's
last winning partition, and the transmitted writes that some tier has still to apply, by sequence number. -/
structure Tower where
  seq      : Nat
  frame    : BitVec 64
  table    : SlotTable
  pending  : Option SlotTable
  lastPart : Nat
  sent     : Tab BWrite
  deriving DecidableEq, Repr

/-! ### Partitions, queues and launches -/

/-- Partition states (R150). -/
inductive PState where
  | free
  | config
  | locked
  | run
  | error
  deriving DecidableEq, Repr

/-- What a suspended hart keeps that its image has no place for (log entry 10, DEDUCED): its privilege, STATUS, the traps not ended,
the resume PC of the last vector-side trap, TVEC, the marks of its queue, the register-size cap in force, its channels'
CPCFG addresses, its remote writes not acknowledged, the trip that waits for its count, the items that its streams hold unread (vd,
bits, VLp and element width), the sizes of its gang's retired members, the trap enables of its queue's entries, and a trap whose
fault record waits for room, with the record's address once it has found it (R127). -/
structure Hidden where
  sup       : Bool
  status    : BitVec 3
  erets     : List TrapKind
  resumePc  : Word
  tvec      : Word
  vqHeld    : Bool
  vsWritten : Bool
  bpSkip    : Bool
  stoppedAt : Bool
  capNow    : Nat
  cfgPcs    : List Word
  remote    : Tab Nat
  trip      : TripWait := .no
  items     : List (Nat × Bits × Nat × Option Nat) := []
  sRet      : List Nat := []
  tens      : List (BitVec 5) := []
  fault     : Option (PendingTrap × Option Nat) := none
  deriving DecidableEq, Repr

/-- A partition's entry (R150), its last-winner queue on each tower (R117), its event word and target (R374, R376), and what
the image slots of its save area leave out, by slot (log entry 10, DEDUCED). -/
structure Part where
  state    : PState
  pceil    : Nat
  fwdlim   : BitVec 2
  pause    : Bool
  clusters : Bits
  queues   : Bits
  quota0   : Nat
  quota1   : Nat
  nodecnt  : Nat
  fqbase   : Nat
  dlbase   : Nat
  dlcap    : Nat
  jbase    : Nat
  relbase  : Nat
  ctxbase  : Nat
  nodebase : Nat
  proot    : Word
  tvbase   : Word
  lvlcap   : Nat
  ctxcap   : Nat
  rbbase   : Nat
  ranges   : List (Nat × Nat)
  last0    : Nat
  last1    : Nat
  event    : Word
  target   : Option Nat
  hevaddr  : Word
  /-- fault records that found the queue full, oldest first: the hart that waits, if any, the record and its entries (R127); a
  number from 1,536 up stands for the suspended hart whose image is in the slot of the number above 1,536. -/
  waiting  : List (Option Nat × Nat × Nat)
  hidden   : Tab Hidden
  /-- QUIESCE has written the save area and nothing has stopped the partition since: the launches it names still stand. -/
  kept     : Bool
  /-- the hart whose QUIESCE is under way (R239). -/
  quiescer : Option Nat
  /-- the launches that the save area's records name, by index, while kept is set (R348). -/
  stood    : List Nat := []
  /-- what a SHOOTDOWN call that waits for pins names: an address, or every page (R140, R236). -/
  shooting : Option (Option Nat) := none
  deriving DecidableEq, Repr

/-- A suspended gang (R119, R348): its index, its suspended-gang record, the image slot of each member (0xFFFF for one that has
retired or is lost), the cluster each member left, the members retired and lost, and the retired members' sizes. -/
structure Susp where
  gang     : Nat
  rec'     : Nat
  slots    : List Nat
  clusters : List Nat
  retired  : List Nat
  lost     : List Nat
  sRet     : List Nat
  deriving DecidableEq, Repr

/-- A launch (R114, R23, R348): the packet's 128 bytes, PADDR, SRC, SEQ, its partition and queue, whether the packet is
queued, NEXTG, the suspended gangs oldest first, the claim counter, the harts placed or suspended and not retired, the graph
node that issued it, and whether it failed. -/
structure Launch where
  packet : Bits
  paddr  : Word
  src    : Nat
  seq    : Nat
  part   : Nat
  queue  : Nat
  queued : Bool
  nextg  : Nat
  resume : List Susp
  claim  : Nat
  live   : Nat
  node   : Option (Nat × Nat)
  deriving DecidableEq, Repr

/-- A launch queue (R114 to R116, R162): launches in queue order, the resume list, whether it is ready and its ready cycle,
the cycle its current aging step began, STEP, the cycle it became urgent, and its accept and refusal counts. -/
structure Queue where
  pkts   : List Nat
  resume : List Nat
  ready  : Option Nat
  ageAt  : Nat
  step   : Nat
  urgent : Option Nat
  accept : Nat
  refuse : List Nat
  deriving DecidableEq, Repr

/-- A stream between two members of a gang (R324 to R327): producer index and register, consumer index and register, items
written and read, the current item (its bits, VLp and element width, if known), and whether the producer has retired. -/
structure Stream where
  prod    : Nat
  k       : Nat
  cons    : Nat
  vd      : Nat
  written : Nat
  read    : Nat
  item    : Option (Bits × Nat × Option Nat)
  done    : Bool
  deriving DecidableEq, Repr

/-- A placed gang: its launch and index, the harts of its members by index, the members retired and lost, the cycle it was
placed, whether from an urgent queue, the barrier's SIZE, ARR, EPOCH and STATE (R69), its streams, the sizes of retired
members for SG (R18), and for a gang that spans tiers the barrier as each of its tiers has counted it (R321). -/
structure Gang where
  launch  : Nat
  index   : Nat
  members : List Nat
  retired : List Nat
  lost    : List Nat
  placed  : Nat
  urgent  : Bool
  size    : BitVec 7
  arr     : BitVec 7
  epoch   : BitVec 16
  st      : BitVec 2
  streams : List Stream
  sRet    : List Nat
  views   : Tab Barrier := []
  deriving DecidableEq, Repr

/-- A running graph (R160, R335, R348): the start line's address and journal number, its partition and queue, GDONE, the
live-node count, whether a node failed, whether its first node has started, its READY and RUNNING nodes, and whether it has
been abandoned (R351). -/
structure Graph where
  addr  : Word
  seq   : Nat
  part  : Nat
  queue : Nat
  gdone : Word
  live  : Nat
  fail  : Bool
  begun : Bool
  nodes : List Nat
  abandoned : Bool
  deriving DecidableEq, Repr

/-! ### The package's edge -/

/-- Link states (R372). -/
inductive LinkState where
  | up
  | retrain
  | down
  deriving DecidableEq, Repr

/-- A Dvorder link: state, successive CRC failures of one flit, the cycles it left UP and its attempt began, and its six counts in the order of R370. -/
structure Link where
  st      : LinkState
  retries : Nat
  leftAt  : Nat
  tryAt   : Nat
  counts  : List Nat
  deriving DecidableEq, Repr

/-- A registered range of MREG (R376, R379). -/
structure MReg where
  part : Nat
  port : Nat
  va   : Nat
  len  : Nat
  rd   : Bool
  wr   : Bool
  deriving DecidableEq, Repr

/-- An Ethernet port: the partition of each claimed queue pair, the connections, the outstanding work lines in posting
order (partition and line), the posted receive lines in posting order (queue pair, partition and line), and six counts. -/
structure EthPort where
  owner  : Tab Nat
  conns  : Tab QpConn
  work   : List (Nat × Bits)
  recv   : List (Nat × Nat × Bits)
  counts : List Nat
  deriving DecidableEq, Repr

/-- A mailbox: CALL and TAG of the call that runs, 0 for none, and the response line (R375). -/
structure Mailbox where
  request  : Nat
  response : Bits
  deriving DecidableEq, Repr

/-- How far bring-up has come (R386). -/
inductive Boot where
  /-- before power, or after power is removed. -/
  | off
  /-- the ROM refused the image: only the management mailbox answers (R380). -/
  | refused
  /-- steps 1 to 4 have ended; DOMAIN and ACCESS may be given. -/
  | monitor
  /-- step 5 has ended. -/
  | open
  deriving DecidableEq, Repr

/-- An SPDM session (R382): its peer, and whether FINISH has ended its handshake. -/
structure Session where
  peer     : Nat
  finished : Bool
  deriving DecidableEq, Repr

/-- The security processor and monitor (R380 to R382): the next leaf index, sessions, key exchanges made, the peers that have
asked for the version and for the capabilities, those that have negotiated, and the digest of each partition's entry as
locked. -/
structure Security where
  boot      : Boot
  leaf      : Nat
  sessions  : Tab Session
  exchanges : Nat
  versioned : List Nat
  capable : List Nat
  negotiated : List Nat
  measured  : Tab (BitVec 256)
  deriving DecidableEq, Repr

/-- What the package answers to the outside: a status word, a completion with data, a refusal, a message of the port. -/
inductive Reply where
  | status (w : Nat)
  | data (bytes : List Byte)
  | denied
  | ok
  /-- a FORWARDED or TOMBSTONE line's record (R103). -/
  | record (line : Bits)
  | poison
  | nak (why : Nat)
  | rnr
  | spdm (what : Nat) (bytes : List Byte)
  /-- what MIGRATE sends to a peer: a partition's entry and the cells of its memory ranges, by local address (R352). -/
  | partition (entry : Bits) (image : List Host.Cell)
  | spdmError (why : Nat)
  deriving DecidableEq, Repr

/-! ### The whole -/

/-- A reclamation under way (R288): partition, relocation-table entry, the frames of the region's mapped pages (physical
address and length), and the accesses it awaits: a hart, with 0 for its completed writes not yet performed, 1 for a held
scalar access, 2 for a held vector access, 3 and up for a held copy channel. -/
structure Reclaim where
  part    : Nat
  idx     : Nat
  frames  : List (Nat × Nat)
  awaited : List (Nat × Nat)
  deriving DecidableEq, Repr

/-- Which kinds of work wait for their own events rather than complete at once: vector-queue entries, posted writes, moves,
reclaims (log entry 4, DESIGN CHOICE). -/
structure Lag where
  vside   : Bool
  stores  : Bool
  moves   : Bool
  reclaim : Bool
  deriving DecidableEq, Repr

/-- The state of one package. doing is the turn under way, which a line that holds its access remembers (R103). -/
structure State where
  cycle    : Nat
  pkg      : Nat
  mem      : List Host.Cell
  lines    : Tab LineMeta
  harts    : Tab Hart
  cores    : Tab Core
  clusters : Tab (Tab CcLine)
  tiers    : Tab Tier
  towers   : Tab Tower
  parts    : Tab Part
  queues   : Tab Queue
  launches : Tab Launch
  gangs    : Tab Gang
  graphs   : Tab Graph
  links    : Tab Link
  access   : Tab (Word × Bool)
  mailboxes : Tab Mailbox
  mgmtBox  : Mailbox
  ports    : Tab EthPort
  mregs    : Tab MReg
  nextId   : Nat
  security : Security
  mxrate   : Nat
  powered  : Bool
  replies  : List Reply
  sched    : List Turn
  doing    : Turn
  cur      : Nat
  lag      : Lag
  freeCtr  : Nat
  reclaims : List Reclaim
  deriving DecidableEq, Repr

/-- Why a step stops with a fault. -/
inductive Fault where
  /-- Power has been removed or not applied (R384, R386): nothing executes. Raised by step. Safe. -/
  | unpowered
  deriving DecidableEq, Repr

/-- Why a step has no meaning. -/
inductive Refusal where
  /-- The instruction has no meaning in this model yet. Raised by Dispatch. Safe. -/
  | notModelled (mnemonic : String)
  deriving DecidableEq, Repr

/-! ### Reset records -/

/-- An unconfigured history. -/
def Hist.reset : Hist := { cfg := 0, nel := 0, elems := [] }

/-- A channel never configured (R154, R291). -/
def Chan.reset : Chan :=
  { desc := Vector.replicate 5 0, typ := 0, mode := 0, seed := 0, active := false, faulted := false, exp := 0,
    retired := 0, released := 0, land := 0, wmark := 0, above := [], fetched := [], cfgPc := 0, held := false }

/-- An unused interlock entry (R142). -/
def Ilk.reset : Ilk := { v := false, kind := 0, ch := 0, qpos := 0, lo := 0, hi := 0 }

/-- No loop active. -/
def LoopState.reset : LoopState := { active := false, start := 0, stop := 0, reg := 0, pinned := none }

/-- A hart at reset (R59, R62): every register at the spec's value, and where it gives none at the value of log entry 3. -/
def Hart.reset : Hart :=
  { x := Vector.replicate 32 0, v := Vector.replicate 32 0, m := Vector.replicate 12 0, w := Vector.replicate 8 0,
    a := Vector.replicate 4 0, e := Vector.replicate 4 Hist.reset, pc := 0, sup := false, fflags := 0, rmode := 0,
    vstart := 0, vsWritten := false, vtype := 0, ftrim := 0, vl := 0, vcfg := 6, tilem := 0, tilen := 0, tilek := 16, status := 0, tvec := 0,
    epc := 0, ecause := 0, eval := 0, eqpos := 0, kscratch := 0, ptroot := 0, vlcap := 0x10000, fwdlim := 0, partid := 0,
    bpaddr := Vector.replicate 8 0, bpctl := Vector.replicate 8 0, hrun := 0, instret := 0, egops := 0, mxcyc := 0,
    fwdhops := 0, ilkstall := 0, bacqwait := 0, xfallbk := 0, preempts := 0, traps := 0, lp := LoopState.reset,
    resumePc := 0, erets := [], vqHeld := false, bpSkip := false, capNow := 0x10000, sFix := none, lay := 8192, vq := [], stoppedAt := false,
    rq := [], chans := Vector.replicate 4 Chan.reset, ilk := Vector.replicate 16 Ilk.reset, place := none,
    arrived := false, epochAt := 0, barrierQ := false, bstQueued := 0, bstNext := none, posted := [], remote := [],
    hstop := .run, wfe := none, bacq := none, migWait := none, migVec := none,
    holdS := false, holdV := false, tlb := [], flight := none, shooting := none, spilled := false }

/-- A core at reset (R62, R82): all lane groups live, no scratchpad, empty caches. -/
def Core.reset : Core :=
  { lglive := 0xFF, spbanks := 0, spad := [], l1 := [], scache := [], icache := [], cecor := 0, ceunc := 0, resmis := 0,
    lgret := 0 }

/-- A line at reset (R98, R99). -/
def LineMeta.reset : LineMeta :=
  { mark := false, st := 0, ptag := 127, poison := false, reserved := false, move := none, held := [] }

/-- A tier at reset (R106, R154). -/
def Tier.reset : Tier :=
  { power := .awake, idleFrom := 0, policy := false, replica := .current, applied := 0, wlogged := 0, tx := [],
    drcor := 0, drunc := 0, srcor := 0, srunc := 0, poisonwb := 0, scrubs := 0, crcdrop := 0, wakeovf := 0 }

/-- A slot table at reset: every slot FREE (R146). -/
def SlotTable.reset : SlotTable := { slots := List.replicate 256 15, bOff := 0, bLen := 0, wlogs := List.replicate 12 0 }

/-- A tower at reset (R157, R159); the first rotation turn goes to partition 0 (log entry 3, DESIGN CHOICE). -/
def Tower.reset : Tower :=
  { seq := 0, frame := 0, table := SlotTable.reset, pending := none, lastPart := 63, sent := [] }

/-- A partition at reset: FREE (log entry 3, DESIGN CHOICE). -/
def Part.reset : Part :=
  { state := .free, pceil := 0, fwdlim := 0, pause := false, clusters := 0, queues := 0, quota0 := 0, quota1 := 0,
    nodecnt := 0, fqbase := 0, dlbase := 0, dlcap := 0, jbase := 0, relbase := 0, ctxbase := 0, nodebase := 0, proot := 0,
    tvbase := 0, lvlcap := 0, ctxcap := 0, rbbase := 0, ranges := [], last0 := 63, last1 := 63, event := 0,
    target := none, hevaddr := 0, waiting := [], hidden := [], kept := false, quiescer := none }

/-- A launch queue at reset: empty. -/
def Queue.reset : Queue :=
  { pkts := [], resume := [], ready := none, ageAt := 0, step := 0, urgent := none, accept := 0,
    refuse := List.replicate 6 0 }

/-- A link before bring-up has trained it (log entry 3, DESIGN CHOICE). -/
def Link.reset : Link := { st := .down, retries := 0, leftAt := 0, tryAt := 0, counts := List.replicate 6 0 }

/-- A port with nothing claimed. -/
def EthPort.reset : EthPort := { owner := [], conns := [], work := [], recv := [], counts := List.replicate 6 0 }

/-- A mailbox nothing has reached. -/
def Mailbox.reset : Mailbox := { request := 0, response := 0 }

/-- The package right after reset: power applied, bring-up not yet run (R386), no partition, no hart placed. -/
def State.reset : State :=
  { cycle := 0, pkg := 0, mem := [], lines := [], harts := [], cores := [], clusters := [], tiers := [], towers := [],
    parts := [], queues := [], launches := [], gangs := [], graphs := [], links := [], access := [], mailboxes := [],
    mgmtBox := Mailbox.reset, ports := [], mregs := [], nextId := 0,
    security := { boot := .off, leaf := 0, sessions := [], exchanges := 0, versioned := [], capable := [], negotiated := [], measured := [] },
    mxrate := 8, powered := true, replies := [], sched := [], doing := .pass 0, cur := 0,
    lag := { vside := false, stores := false, moves := false, reclaim := false }, freeCtr := 0, reclaims := [] }

end Sys2Proof.Machine
end

