-- ==== Sys2Proof/Machine/Ops.lean ====
section
/-!
DEFINITION. Machine/Ops.lean: the named operations over tables, bit strings, memory and registers; the primitive updates of
the state and the programs built from them; completing an instruction (with the LOOP trip of R220), taking a trap (R211)
and returning from one (R213).
-/
namespace Sys2Proof.Machine

/-! ### Tables -/

/-- The record of a key; an unlisted key stands for the default. -/
def tabGet {α : Type} (dflt : α) : Tab α → Nat → α
  | [], _ => dflt
  | (k, v) :: rest, j => if k = j then v else tabGet dflt rest j

/-- The record of a key, if listed. -/
def tabFind {α : Type} : Tab α → Nat → Option α
  | [], _ => none
  | (k, v) :: rest, j => if k = j then some v else tabFind rest j

/-- Write the record of a key, keeping the keys in rising order. -/
def tabPut {α : Type} : Tab α → Nat → α → Tab α
  | [], j, x => [(j, x)]
  | (k, v) :: rest, j, x =>
    if j < k then (j, x) :: (k, v) :: rest
    else if k = j then (j, x) :: rest
    else (k, v) :: tabPut rest j x

/-- Remove a key. -/
def tabDel {α : Type} (t : Tab α) (j : Nat) : Tab α := t.filter (fun e => e.1 != j)

/-- Write or remove the record of a key. -/
def tabSet {α : Type} (t : Tab α) (j : Nat) : Option α → Tab α
  | some x => tabPut t j x
  | none => tabDel t j

/-! ### Bit strings -/

/-- Bits [i + w - 1 : i] of a bit string. -/
def bitsGet (v : Bits) (i w : Nat) : Nat := (v >>> i) % 2 ^ w

/-- Replace bits [i + w - 1 : i] of a bit string by the low w bits of x. -/
def bitsSet (v : Bits) (i w x : Nat) : Bits := v ^^^ ((bitsGet v i w ^^^ (x % 2 ^ w)) <<< i)

/-- Bit i of a bit string. -/
def bitAt (v : Bits) (i : Nat) : Bool := v.testBit i

/-- Set bit i of a bit string. -/
def bitPut (v : Bits) (i : Nat) (b : Bool) : Bits := if v.testBit i == b then v else v ^^^ (1 <<< i)

/-- The low w bits of x as a signed number (R7). -/
def signedOf (w x : Nat) : Int :=
  let y := x % 2 ^ w
  if y < 2 ^ (w - 1) then (y : Int) else (y : Int) - (2 ^ w : Nat)

/-- The low w bits that stand for an integer modulo 2^w (R34). -/
def wrapTo (w : Nat) (x : Int) : Nat := (x % ((2 ^ w : Nat) : Int)).toNat

/-- Smallest multiple of m at or above n. -/
def roundUp (n m : Nat) : Nat := if m = 0 then n else (n + m - 1) / m * m

/-- ceil(n / m). -/
def ceilDiv (n m : Nat) : Nat := if m = 0 then 0 else (n + m - 1) / m

/-- The numbers from i up, n of them. -/
def range' (i n : Nat) : List Nat := (List.range n).map (· + i)

/-! ### Memory: bytes at 54-bit physical addresses -/

/-- One byte; a byte that no cell lists is zero (R99). -/
def memByte : List Host.Cell → Nat → Byte
  | [], _ => 0
  | (k, v) :: rest, a => if k = a then v else memByte rest a

/-- The n bytes from a upward as one little-endian number (R4). -/
def memBits : List Host.Cell → Nat → Nat → Bits
  | [], _, _ => 0
  | (k, v) :: rest, a, n =>
    if a ≤ k ∧ k < a + n then v.toNat * 2 ^ (8 * (k - a)) + memBits rest a n else memBits rest a n

/-- The cells of the 2^d bytes of v from a upward, zero bytes left out. -/
def cellsOf : Nat → Nat → Bits → List Host.Cell
  | 0, a, v => if v = 0 then [] else [(a, BitVec.ofNat 8 v)]
  | d + 1, a, v =>
    if v = 0 then []
    else cellsOf d a (v % 2 ^ (8 * 2 ^ d)) ++ cellsOf d (a + 2 ^ d) (v / 2 ^ (8 * 2 ^ d))

/-- Write the low n bytes of v from a upward, keeping the canonical form. -/
def memWrite (m : List Host.Cell) (a n : Nat) (v : Bits) : List Host.Cell :=
  m.filter (fun c => decide (c.1 < a)) ++ (if v = 0 then [] else cellsOf (Nat.log2 n + 1) a (v % 2 ^ (8 * n)))
    ++ m.filter (fun c => decide (a + n ≤ c.1))

/-- The canonical form of a memory: addresses strictly rising, no zero byte listed. -/
def memWf : List Host.Cell → Bool
  | [] => true
  | [(_, v)] => v != 0
  | (a, v) :: (b, w) :: rest => decide (a < b) && v != 0 && memWf ((b, w) :: rest)

/-! ### Numbers of R15 -/

/-- The core of a hart. -/
def coreOf (g : Nat) : Nat := g / 4
/-- The cluster of a hart. -/
def clusterOf (g : Nat) : Nat := g / 16
/-- The global tier of a hart. -/
def tierOf (g : Nat) : Nat := g / 64
/-- The tower of a hart. -/
def towerOf (g : Nat) : Nat := g / 768
/-- The four harts of a core. -/
def coreHarts (c : Nat) : List Nat := [4 * c, 4 * c + 1, 4 * c + 2, 4 * c + 3]

end Sys2Proof.Machine

namespace Sys2Proof.Machine.State

/-! ### Reading the state -/

/-- Hart g. -/
def hart (s : State) (g : Nat) : Hart := tabGet Hart.reset s.harts g
/-- Core c. -/
def core (s : State) (c : Nat) : Core := tabGet Core.reset s.cores c
/-- The metadata of a line, by line number. -/
def line (s : State) (l : Nat) : LineMeta := tabGet LineMeta.reset s.lines l
/-- A cluster's cache lines. -/
def cluster (s : State) (c : Nat) : Tab CcLine := tabGet [] s.clusters c
/-- A tier. -/
def tier (s : State) (t : Nat) : Tier := tabGet Tier.reset s.tiers t
/-- A tower. -/
def tower (s : State) (t : Nat) : Tower := tabGet Tower.reset s.towers t
/-- A partition. -/
def part (s : State) (p : Nat) : Part := tabGet Part.reset s.parts p
/-- A launch queue. -/
def queue (s : State) (q : Nat) : Queue := tabGet Queue.reset s.queues q
/-- A link. -/
def link (s : State) (k : Nat) : Link := tabGet Link.reset s.links k
/-- An Ethernet port. -/
def port (s : State) (e : Nat) : EthPort := tabGet EthPort.reset s.ports e
/-- A partition's mailbox. -/
def mailbox (s : State) (p : Nat) : Mailbox := tabGet Mailbox.reset s.mailboxes p
/-- An access-table entry (R373): PMASK and MGMT. -/
def accessOf (s : State) (id : Nat) : Word × Bool := tabGet (0, false) s.access id
/-- One byte of memory at a physical address. -/
def byte (s : State) (a : Nat) : Byte := memByte s.mem a
/-- n bytes of memory at a physical address, little-endian. -/
def bytes (s : State) (a n : Nat) : Bits := memBits s.mem a n

end Sys2Proof.Machine.State

namespace Sys2Proof.Machine

/-! ### Primitive updates: all that any step can do to the state -/

/-- One primitive update. -/
inductive Prim where
  | hart (g : Nat) (h : Hart)
  | core (c : Nat) (k : Core)
  | spad (c a n : Nat) (v : Bits)
  | mem (a n : Nat) (v : Bits)
  | line (l : Nat) (x : LineMeta)
  | cc (c l : Nat) (x : Option CcLine)
  | tier (t : Nat) (x : Tier)
  | tower (t : Nat) (x : Tower)
  | part (p : Nat) (x : Part)
  | queue (q : Nat) (x : Queue)
  | launch (i : Nat) (x : Option Launch)
  | gang (i : Nat) (x : Option Gang)
  | graph (i : Nat) (x : Option Graph)
  | link (k : Nat) (x : Link)
  | access (i : Nat) (x : Word × Bool)
  | mailbox (p : Nat) (x : Mailbox)
  | mgmtBox (x : Mailbox)
  | port (e : Nat) (x : EthPort)
  | mreg (i : Nat) (x : Option MReg)
  | nextId (n : Nat)
  | pkg (n : Nat)
  | security (x : Security)
  | mxrate (n : Nat)
  | powerOn
  | powered (b : Bool)
  | reply (r : Reply)
  | freeCtr (n : Nat)
  | reclaims (l : List Reclaim)
  | sched (l : List Turn)

/-- Bits of RMODE that are not reserved (R67). -/
def rmodeMask : Word := 0xFFFFFFFF000000FF
/-- Bits of VTYPE that are not reserved (R65). -/
def vtypeMask : Word := 0x8FFF
/-- Bits of TVEC and of BPADDRn that are not reserved (R62, R152). -/
def addrMask : Word := 0x01FFFFFFFFFFFFFE
/-- Bits of PTROOT that are not reserved (R62). -/
def ptrootMask : Word := 0x003FFFFFFFFFF000
/-- Bits of BPCTLn that are not reserved (R152). -/
def bpctlMask : Word := 0x7FFFFF07

/-- What every hart record keeps: x0 holds 0 (R59), the pc is even (R62, R180), reserved bits are 0 (R6). -/
def Hart.canon (h : Hart) : Hart :=
  { h with
    x := h.x.set 0 0
    pc := h.pc &&& ~~~1#64
    rmode := h.rmode &&& rmodeMask
    vtype := h.vtype &&& vtypeMask
    tvec := h.tvec &&& addrMask
    ptroot := h.ptroot &&& ptrootMask }

/-- A list by rising keys with the keys of stretch a (keys a·w to a·w + w - 1) moved to stretch b, in place of what stands
there. -/
def rekey {α : Type} (w a b : Nat) (t : List (Nat × α)) : List (Nat × α) :=
  let rest := t.filter (fun e => e.1 / w != a && e.1 / w != b)
  rest.filter (fun e => decide (e.1 / w < b))
    ++ (t.filter (fun e => e.1 / w == a)).map (fun e => (b * w + e.1 % w, e.2))
    ++ rest.filter (fun e => decide (b < e.1 / w))

/-- Carry out one primitive update. -/
def Prim.apply (s : State) : Prim → State
  | .hart g h => { s with harts := tabPut s.harts g h.canon }
  | .core c k => { s with cores := tabPut s.cores c { k with spad := (s.core c).spad } }
  | .spad c a n v => { s with cores := tabPut s.cores c { s.core c with spad := memWrite (s.core c).spad a n v } }
  | .mem a n v => { s with mem := memWrite s.mem a n v }
  | .line l x => { s with lines := if x = LineMeta.reset then tabDel s.lines l else tabPut s.lines l x }
  | .cc c l x => { s with clusters := tabPut s.clusters c (tabSet (s.cluster c) l x) }
  | .tier t x => { s with tiers := tabPut s.tiers t x }
  | .tower t x => { s with towers := tabPut s.towers t x }
  | .part p x => { s with parts := tabPut s.parts p x }
  | .queue q x => { s with queues := tabPut s.queues q x }
  | .launch i x => { s with launches := tabSet s.launches i x }
  | .gang i x => { s with gangs := tabSet s.gangs i x }
  | .graph i x => { s with graphs := tabSet s.graphs i x }
  | .link k x => { s with links := tabPut s.links k x }
  | .access i x => { s with access := tabPut s.access i x }
  | .mailbox p x => { s with mailboxes := tabPut s.mailboxes p x }
  | .mgmtBox x => { s with mgmtBox := x }
  | .port e x => { s with ports := tabPut s.ports e x }
  | .mreg i x => { s with mregs := tabSet s.mregs i x }
  | .nextId n => { s with nextId := n }
  | .pkg n => { s with pkg := n, mem := rekey (2 ^ 44) s.pkg n s.mem, lines := rekey (2 ^ 37) s.pkg n s.lines, clusters := [] }
  | .security x => { s with security := x }
  | .mxrate n => { s with mxrate := n }
  | .powerOn =>
    { State.reset with
      sched := s.sched
      lag := s.lag
      freeCtr := s.freeCtr
      security := { State.reset.security with leaf := s.security.leaf }
      replies := s.replies }
  | .powered b => { s with powered := b }
  | .reply r => { s with replies := s.replies ++ [r] }
  | .freeCtr n => { s with freeCtr := n }
  | .reclaims l => { s with reclaims := l }
  | .sched l => { s with sched := l }

/-- A program of a step: primitive updates and looks at the state, ending in a next state, a fault, a refusal, the execution of an
instruction, or a wait of the step as a whole, which leaves the state as it stood but for some updates. -/
inductive Act where
  | done
  | again (p : List Prim)
  | goOn (i : Instr)
  | fault (f : Fault)
  | refuse (r : Refusal)
  | upd (p : Prim) (k : Act)
  | look (k : State → Act)

/-- Run a program that began in state b, an instruction that it goes on to being executed by f. -/
def Act.runFrom (f : Instr → State → Host.Outcome State Fault Refusal) (b : State) : Act → State → Host.Outcome State Fault Refusal
  | .done, s => .next s
  | .again ps, _ => .next (ps.foldl Prim.apply b)
  | .goOn i, s => f i s
  | .fault r, _ => .fault r
  | .refuse r, _ => .refused r
  | .upd p k, s => k.runFrom f b (p.apply s)
  | .look k, s => (k s).runFrom f b s

/-- Run a program from a state. -/
def Act.runInto (f : Instr → State → Host.Outcome State Fault Refusal) (a : Act) (s : State) : Host.Outcome State Fault Refusal :=
  a.runFrom f s s

/-- Run a program that goes on to no instruction: an instruction's meaning. -/
def Act.run (a : Act) (s : State) : Host.Outcome State Fault Refusal := a.runInto (fun _ s => .next s) s

/-- Programs with a result, in continuation-passing form. -/
abbrev M (α : Type) := ContT Act Id α

/-- The state as it stands. -/
def getState : M State := fun k => Act.look k

/-- A function of the state as it stands. -/
def gets {α : Type} (f : State → α) : M α := fun k => Act.look (fun s => k (f s))

/-- One primitive update. -/
def upd (p : Prim) : M Unit := fun k => Act.upd p (k ())

/-- End the step here: what has been updated stays, nothing after this happens. -/
def halt {α : Type} : M α := fun _ => Act.done

/-- End the step as a wait: nothing of it has happened but some updates, and what moved in it moves again. -/
def waitStep {α : Type} (ps : List Prim) : M α := fun _ => Act.again ps

/-- End the step with a fault. -/
def faultWith {α : Type} (f : Fault) : M α := fun _ => Act.fault f

/-- The outcome of a program. -/
def runM (m : M Unit) (s : State) : Host.Outcome State Fault Refusal := Act.run (m (fun _ => Act.done)) s

/-- The hart in turn. -/
def getHart (g : Nat) : M Hart := gets (fun s => s.hart g)

/-- Write a hart's record. -/
def putHart (g : Nat) (h : Hart) : M Unit := upd (.hart g h)

/-- Change a hart's record. -/
def modHart (g : Nat) (f : Hart → Hart) : M Unit := do putHart g (f (← getHart g))

/-- Change a core's record. -/
def modCore (c : Nat) (f : Core → Core) : M Unit := do upd (.core c (f (← gets (fun s => s.core c))))

/-- Change a tier's record. -/
def modTier (t : Nat) (f : Tier → Tier) : M Unit := do upd (.tier t (f (← gets (fun s => s.tier t))))

/-- Change a tower's record. -/
def modTower (t : Nat) (f : Tower → Tower) : M Unit := do upd (.tower t (f (← gets (fun s => s.tower t))))

/-- Change a partition's record. -/
def modPart (p : Nat) (f : Part → Part) : M Unit := do upd (.part p (f (← gets (fun s => s.part p))))

/-- Change a queue's record. -/
def modQueue (q : Nat) (f : Queue → Queue) : M Unit := do upd (.queue q (f (← gets (fun s => s.queue q))))

/-- Change a launch, if it is there. -/
def modLaunch (i : Nat) (f : Launch → Launch) : M Unit := do
  match ← gets (fun s => tabFind s.launches i) with
  | some l => upd (.launch i (some (f l)))
  | none => pure ()

/-- Change a gang, if it is there. -/
def modGang (i : Nat) (f : Gang → Gang) : M Unit := do
  match ← gets (fun s => tabFind s.gangs i) with
  | some l => upd (.gang i (some (f l)))
  | none => pure ()

/-- Change a graph, if it is there. -/
def modGraph (i : Nat) (f : Graph → Graph) : M Unit := do
  match ← gets (fun s => tabFind s.graphs i) with
  | some l => upd (.graph i (some (f l)))
  | none => pure ()

/-- Change a link. -/
def modLink (k : Nat) (f : Link → Link) : M Unit := do upd (.link k (f (← gets (fun s => s.link k))))

/-- Change a port. -/
def modPort (e : Nat) (f : EthPort → EthPort) : M Unit := do upd (.port e (f (← gets (fun s => s.port e))))

/-- Do the program only when the condition holds. -/
def whenM (b : Bool) (m : M Unit) : M Unit := if b then m else pure ()

/-- Carry out a program for each item of a list, in order. -/
def eachM {α : Type} : List α → (α → M Unit) → M Unit
  | [], _ => pure ()
  | x :: xs, f => do f x; eachM xs f

/-- A fresh identifier for a launch, gang, graph or registration. -/
def freshId : M Nat := do
  let n ← gets (fun s => s.nextId)
  upd (.nextId (n + 1))
  pure n

/-- A free value of w bits (log entry 5, DESIGN CHOICE). -/
def freeBits (w : Nat) : M Nat := do
  let n ← gets (fun s => s.freeCtr)
  upd (.freeCtr (n + 1))
  pure (Config.freeValue n % 2 ^ w)

/-! ### Registers of a hart -/

/-- Read an x register (R59). -/
def Hart.getX (h : Hart) (r : BitVec 5) : Word := h.x[r.toNat]'(r.isLt)

/-- Write an x register; a write to x0 is discarded (R59). -/
def Hart.setX (h : Hart) (r : BitVec 5) (v : Word) : Hart :=
  if r = 0#5 then h else { h with x := h.x.set r.toNat v r.isLt }

/-- The x register that a compressed field names (R204). -/
def cReg (r : BitVec 3) : BitVec 5 := 1#2 ++ r

/-- The word with bit 0 cleared. -/
def evenWord (w : Word) : Word := w &&& ~~~1#64

/-- An address lies in the running body of the hart's loop (R220). -/
def Hart.inBody (h : Hart) (a : Word) : Bool :=
  h.lp.active && decide (h.lp.start.toNat ≤ a.toNat) && decide (a.toNat < h.lp.stop.toNat)

/-- Retire the oldest unretired strip of a channel and release the strip four above it (R126, R291). -/
def Chan.retireStrip (c : Chan) : Chan :=
  if c.active ∧ c.retired * c.exp.toNat < bitsGet c.desc[0].toNat 0 48 then
    { c with retired := c.retired + 1, released := max c.released (c.retired + 5) }
  else c

/-- How an instruction reached its next pc: in line, by a taken branch or plain jump, or by a call (R221). -/
inductive Flow where
  | inline
  | jump
  | call
  deriving DecidableEq, Repr

/-- AUTO of a channel's descriptor (R289). -/
def Chan.auto (c : Chan) : Bool := (c.desc[0]).toNat.testBit 57

/-- The trip end of R220, if completing at the hart's pc with the given next pc ends a trip. -/
def Hart.tripEnd (h : Hart) : Hart :=
  let chans := h.chans.map (fun c => if c.auto then c.retireStrip else c)
  if (h.getX h.lp.reg).toNat ≤ 1 then
    { (h.setX h.lp.reg 0) with lp := { h.lp with active := false, pinned := none }, pc := h.lp.stop, chans := chans }
  else
    { (h.setX h.lp.reg (h.getX h.lp.reg - 1)) with pc := h.lp.start, chans := chans }

/-- Go to the next pc, deciding the trip of the active loop (R220, R221). -/
def Hart.goto (h : Hart) (flow : Flow) (next : Word) : Hart :=
  if h.inBody h.pc then
    if next = h.lp.stop then h.tripEnd
    else if flow = .jump ∧ ¬ (h.lp.start.toNat ≤ next.toNat ∧ next.toNat ≤ h.lp.stop.toNat) then
      { h with lp := { h.lp with active := false, pinned := none }, pc := next }
    else { h with pc := next }
  else { h with pc := next }

/-- Complete a scalar instruction of the given length in line (R164, R220). -/
def Hart.advance (h : Hart) (len : Nat) : Hart :=
  { (h.goto .inline (h.pc + BitVec.ofNat 64 len)) with instret := h.instret + 1 }

/-- Complete a scalar instruction that transfers control. -/
def Hart.transfer (h : Hart) (flow : Flow) (next : Word) : Hart :=
  { (h.goto flow next) with instret := h.instret + 1 }

/-! ### Taking a trap, and returning -/

/-- The cause codes of R338. -/
inductive Cause where
  | illegal | break_ | trap | event | xlateNone | xlateBad | xlatePerm | bcastWrite | cwWrite | addrNone | spadRange
  | misalign | poison | linkDown | fwdBad | fwdStale | fwdDepth | fwdRegion | fwdMove | fpe | vcfgSpace | histBad
  | histSpace | cpBad | cpFault | streamBad | gangLost | hartLost | poisonWb | graphBad | recordLost
  deriving DecidableEq, Repr

/-- The code of a cause (R338). -/
def Cause.code : Cause → Nat
  | .illegal => 0x01 | .break_ => 0x02 | .trap => 0x03 | .event => 0x04 | .xlateNone => 0x08 | .xlateBad => 0x09
  | .xlatePerm => 0x0A | .bcastWrite => 0x0B | .cwWrite => 0x0C | .addrNone => 0x0D | .spadRange => 0x0E
  | .misalign => 0x0F | .poison => 0x10 | .linkDown => 0x11 | .fwdBad => 0x18 | .fwdStale => 0x19 | .fwdDepth => 0x1A
  | .fwdRegion => 0x1B | .fwdMove => 0x1C | .fpe => 0x20 | .vcfgSpace => 0x24 | .histBad => 0x25 | .histSpace => 0x26
  | .cpBad => 0x27 | .cpFault => 0x28 | .streamBad => 0x29 | .gangLost => 0x2A | .hartLost => 0x30 | .poisonWb => 0x31
  | .graphBad => 0x32 | .recordLost => 0x33

/-- The causes of a walk (R139, R88), which a trimming load looks for in either phase (R273). -/
def Cause.translation : Cause → Bool
  | .xlateNone | .xlateBad | .xlatePerm | .bcastWrite | .cwWrite | .addrNone => true
  | _ => false

/-- Trap entry (R211): STATUS takes the privilege and EIE, the privilege becomes supervisor, the trap registers are written,
and the pc goes to TVEC. held says whether the queue's entries now wait for ERET. -/
def Hart.enterTrap (h : Hart) (cause : BitVec 16) (epc eval : Word) (eqpos : BitVec 5) (kind : TrapKind) (held : Bool) : Hart :=
  { h with
    status := (h.status.extractLsb' 1 1) ++ (0#1 ++ BitVec.ofBool h.sup)
    sup := true
    epc := epc
    ecause := cause
    eval := eval
    eqpos := eqpos
    pc := evenWord h.tvec
    traps := h.traps + 1
    erets := kind :: h.erets
    vqHeld := held
    wfe := none }

/-- The loop state of a hart whose pc becomes the resume PC. -/
def LoopState.toResume (l : LoopState) : LoopState := { l with trip := if l.trip = .atPc then .atResume else .no }

/-- The loop state of a hart whose resume PC becomes the pc. -/
def LoopState.fromResume (l : LoopState) : LoopState := { l with trip := if l.trip = .atResume then .atPc else l.trip }

/-- Return from a trap (R213): the privilege and EIE come back, the queue may run, FAULTED channels restart, and the pc goes
to EPC, or to the resume PC after a trap that kept the queue. The queue stays held while an outer handler holds it. -/
def Hart.returnTrap (h : Hart) : Hart :=
  let queue := h.erets.head? == some .queue
  { h with
    sup := h.status.extractLsb' 0 1 == 1#1
    status := (h.status.extractLsb' 2 1) ++ ((h.status.extractLsb' 2 1) ++ (h.status.extractLsb' 0 1))
    pc := if queue then h.resumePc else evenWord h.epc
    lp := if queue then h.lp.fromResume else h.lp
    vstart := if queue then 0 else h.vstart
    erets := h.erets.tail
    vqHeld := h.vqHeld && h.erets.tail.any (fun k => k != .drained)
    bpSkip := true
    chans := h.chans.map (fun c => { c with faulted := false })
    instret := h.instret + 1 }

/-- Take a trap of a scalar instruction (R212), whose queue has drained (R210) or is held by an outer handler, and end the
step. -/
def scalarTrap {α : Type} (g : Nat) (cause : Cause) (epc eval : Word) : M α := do
  modHart g (fun h => h.enterTrap (BitVec.ofNat 16 cause.code) epc eval 0 .drained h.vqHeld)
  halt

end Sys2Proof.Machine
end

