-- ==== Sys2Proof/Machine/Xlate.lean ====
section
/-!
DEFINITION. Machine/Xlate.lean: where an address leads. The physical map and device windows (R88, R370), the four-level walk
in the order of R139 with the translations that a hart holds (R138, R140), and the A and D bits (R137).
-/
namespace Sys2Proof.Machine

/-! ### The physical map (R88, R370) -/

/-- The windows of R370. -/
inductive Win where
  | launch (q : Nat)
  | slots (tower : Nat)
  | counters
  | event (p : Nat)
  | mbox (p : Nat)
  | mgmt
  | eth (e p : Nat)
  deriving DecidableEq, Repr

/-- The window that covers a local address, with the offset in it. -/
def windowAt (a : Nat) : Option (Win × Nat) :=
  let o := a % 2 ^ 32
  match a / 2 ^ 32 with
  | 0xF00 => if o < 0x40000 then some (.launch (o / 0x1000), o % 0x1000) else none
  | 0xF01 => if o < 0x2000 then some (.slots (o / 0x1000), o % 0x1000) else none
  | 0xF02 => if o < 0x4000 then some (.counters, o) else none
  | 0xF03 => if o < 0x40000 then some (.event (o / 0x1000), o % 0x1000) else none
  | 0xF04 => if o < 0x40000 then some (.mbox (o / 0x1000), o % 0x1000)
             else if o < 0x41000 then some (.mgmt, o - 0x40000) else none
  | 0xF05 => if o < 0x40000 ∧ o % 0x10000 < 0x4000 then some (.eth (o / 0x10000) (o % 0x10000 / 0x100), o % 0x100)
             else none
  | _ => none

/-- The stretches of the window area that hold windows: first local address and length. -/
def windowStretches : List (Nat × Nat) :=
  [(0xF0000000000, 0x40000), (0xF0100000000, 0x2000), (0xF0200000000, 0x4000), (0xF0300000000, 0x40000),
   (0xF0400000000, 0x41000), (0xF0500000000, 0x4000), (0xF0500010000, 0x4000), (0xF0500020000, 0x4000),
   (0xF0500030000, 0x4000)]

/-- A stretch of local addresses overlaps some window. -/
def overlapsWindow (a n : Nat) : Bool :=
  windowStretches.any (fun w => decide (a < w.1 + w.2) && decide (w.1 < a + n))

/-- The kinds of access, by the DETAIL code of R338; bst is a store that must reach a broadcast page (R328),
path is FWDPATH's access to its first line, which needs R and W (R287) and is recorded as a store (R139). -/
inductive Acc where
  | path
  | load
  | store
  | fetch
  | atomic
  | bst
  deriving DecidableEq, Repr

/-- DETAIL of an access kind (R338). -/
def Acc.detail : Acc → Nat
  | .load => 0 | .store => 1 | .fetch => 2 | .atomic => 3 | .bst => 1 | .path => 1

/-- The access writes memory or the mark state, in the sense of R137. -/
def Acc.writes : Acc → Bool
  | .load => false | .fetch => false | .path => false | _ => true

/-- R370: what a window opens to a hart of partition p. -/
def windowOpen (s : State) (p : Nat) (acc : Acc) : Win → Bool
  | .launch q => decide (acc = .load) && bitAt (s.part p).queues q
  | .event q => decide (q = p) && (decide (acc = .load) || decide (acc = .store))
  | .mbox q => decide (q = p) && (decide (acc = .load) || decide (acc = .store))
  | .eth _ q => decide (q = p) && (decide (acc = .load) || decide (acc = .store))
  | _ => false

/-- The package of a physical address. -/
def pkgOf (pa : Nat) : Nat := pa / 2 ^ 44
/-- The local address within its package. -/
def localOf (pa : Nat) : Nat := pa % 2 ^ 44
/-- The physical address of a local address of this package. -/
def State.physical (s : State) (a : Nat) : Nat := s.pkg * 2 ^ 44 + a

/-- The global tier that holds a local DRAM address (R88). -/
def homeTier (a : Nat) : Nat := a / Config.tierBytes

/-- The channel of its tier at which a local DRAM address is homed (R88): bits [12:9] of its tier offset. -/
def homeChannel (a : Nat) : Nat := a % Config.tierBytes / 512 % 16

/-- The 512-byte region of a line, whose four lines share one home (R88). -/
def lineRegion (line : Nat) : Nat := line / 4

/-- The broadcast region of the tower that holds a local DRAM address contains it (R105, R146). -/
def State.inBroadcast (s : State) (a : Nat) : Bool :=
  let t := (s.tower (homeTier a / 12)).table
  let o := a % Config.tierBytes
  decide (a < Config.localBytes) && decide (t.bOff ≤ o) && decide (o < t.bOff + t.bLen)

/-- Some range of the partition holds the local address (R150). -/
def Part.holds (p : Part) (a : Nat) : Bool := p.ranges.any (fun r => decide (r.1 ≤ a) && decide (a < r.1 + r.2))

/-- The partition whose range holds a local address, 127 for none (R98). -/
def State.ptagOf (s : State) (a : Nat) : Nat :=
  match s.parts.find? (fun e => e.2.holds a) with
  | some (p, _) => p
  | none => 127

/-! ### The walk (R134 to R139) -/

/-- A translated page: the physical address, the leaf line's address, the entry's index and bits, PROG, whether the page is one of
16 MiB, and whether a translation that the hart holds gave it, which no walk has made again. -/
structure Leaf where
  pa    : Nat
  line  : Nat
  idx   : Nat
  entry : Nat
  prog  : Bool
  big   : Bool
  held  : Bool := false
  deriving DecidableEq, Repr

/-- L1 of a leaf entry (R136). -/
def Leaf.l1 (l : Leaf) : Bool := l.entry.testBit 10
/-- BC of a leaf entry (R136). -/
def Leaf.bc (l : Leaf) : Bool := l.entry.testBit 9

/-- What a walk gives: a page, a cause, or a wait on MIG. -/
inductive Walk where
  | ok (l : Leaf)
  | fault (c : Cause)
  | mig (l : Leaf)
  deriving DecidableEq, Repr

/-- Who walks: the root, the partition, the privilege, the hart's tier, and the translations held. -/
structure Walker where
  root : Nat
  part : Nat
  sup  : Bool
  tier : Nat
  held : List Held
  deriving DecidableEq, Repr

/-- The conditions of R139 on an entry of levels 0 to 2: the next table, and PS. -/
def tableEntry (e : Nat) (last : Bool) : Except Cause (Nat × Bool) :=
  let next := bitsGet e 8 46 * 256
  let ps := e.testBit 1
  if ¬ e.testBit 0 then .error .xlateNone
  else if bitsGet e 2 6 ≠ 0 ∨ bitsGet e 54 10 ≠ 0 then .error .xlateBad
  else if ps ∧ ¬ last then .error .xlateBad
  else if next % (if last then (if ps then 256 else 65536) else 8192) ≠ 0 then .error .xlateBad
  else .ok (next, ps)

/-- Entry k of a leaf line's bits. -/
def leafEntry (ln : Bits) (k : Nat) : Nat := bitsGet ln (64 * k) 64

/-- FRAME of a leaf entry, as a physical address. -/
def frameOf (e : Nat) : Nat := bitsGet e 16 38 * 65536

/-- The attribute bits that PROG's entries share: R, W, X, U, G, MIG, BC, L1, CW and LOG (R137). -/
def progAttrs (e : Nat) : Nat := bitsGet e 1 5 + 32 * bitsGet e 8 5

/-- AV and PROG of a summary word agree with the entries (R137, R139). -/
def summaryTrue (ln : Bits) (big : Bool) : Bool :=
  let sum := bitsGet ln 512 64
  let av := sum.testBit 0
  let prog := sum.testBit 1
  let all := (List.range 8).all (fun k => (leafEntry ln k).testBit 0)
  let step := signedOf 40 (bitsGet sum 2 40)
  let even := (List.range 7).all (fun k =>
    decide ((frameOf (leafEntry ln (k + 1)) : Int) = (frameOf (leafEntry ln k) : Int) + step * 65536)
      && progAttrs (leafEntry ln (k + 1)) == progAttrs (leafEntry ln k))
  (!av || all) && (!prog || (av && even && (!big || decide (step % 256 = 0))))

/-- A frame that R139's third row lets pass: on another package, in the partition's ranges, in a broadcast region, or
overlapping a device window. -/
def frameKnown (s : State) (p : Nat) (frame size : Nat) : Bool :=
  let a := localOf frame
  pkgOf frame != s.pkg
    || (decide (a < Config.localBytes) && ((s.part p).holds a || s.inBroadcast a))
    || overlapsWindow a size

/-- The permission row of R139. -/
def permDenied (acc : Acc) (r w x : Bool) : Bool :=
  match acc with
  | .load => !r
  | .store | .bst => !w
  | .fetch => !x
  | .atomic | .path => !(r && w)

/-- The window row of R139: the byte lies in a window that R370 does not open to the access. -/
def windowShut (s : State) (p : Nat) (acc : Acc) : Option (Win × Nat) → Bool
  | some (wn, _) => !(windowOpen s p acc wn)
  | none => false

/-- R139's rows at the leaf line, in order. -/
def leafCheck (s : State) (w : Walker) (acc : Acc) (va : Nat) (lineAddr : Nat) (ln : Bits) (k : Nat) (big : Bool) : Walk :=
  let e := leafEntry ln k
  let sum := bitsGet ln 512 64
  let mir := bitsGet ln 576 64
  let size := if big then 2 ^ 24 else 2 ^ 16
  let frame := frameOf e
  let pa := frame + va % size
  let r := e.testBit 1
  let wr := e.testBit 2
  let x := e.testBit 3
  let u := e.testBit 4
  let bc := e.testBit 9
  let win := if pkgOf frame = s.pkg ∧ overlapsWindow (localOf frame) size then windowAt (localOf pa) else none
  if ¬ e.testBit 0 then .fault .xlateNone
  else if bitsGet e 13 3 ≠ 0 ∨ bitsGet sum 42 22 ≠ 0 ∨ bitsGet mir 16 48 ≠ 0 ∨ (wr ∧ ¬ r)
      ∨ (big ∧ bitsGet e 16 8 ≠ 0) ∨ summaryTrue ln big = false then .fault .xlateBad
  else if frameKnown s w.part frame size = false then .fault .xlateBad
  else if permDenied acc r wr x || (!w.sup && !u) then .fault .xlatePerm
  else if windowShut s w.part acc win then .fault .xlatePerm
  else if acc = .bst ∧ (bc = false ∨ homeTier (localOf frame) / 12 ≠ w.tier / 12) then .fault .bcastWrite
  else if (acc = .store ∨ acc = .atomic ∨ acc = .path) ∧ bc then .fault .bcastWrite
  else if (acc.writes ∨ acc = .path) ∧ e.testBit 11 then .fault .cwWrite
  else
    let l : Leaf := { pa := pa, line := lineAddr, idx := k, entry := e, prog := sum.testBit 1, big := big }
    if e.testBit 8 then .mig l else .ok l

/-- A word of a table of levels 0 to 2, as the walker reads its line at its home: a poisoned line delivers no data (R112; log
entry 71, DEDUCED). -/
def tableWord (s : State) (last : Bool) (a : Nat) : Except Cause (Nat × Bool) :=
  if (s.line (a / 128)).poison then .error .poison else tableEntry (s.bytes a 8) last

/-- The walk of levels 0 to 2 (R134, R139): the leaf line's address, the entry's index, and whether the page is one of 16 MiB. -/
def walkTables (s : State) (root va : Nat) : Except Cause (Nat × Nat × Bool) :=
  match tableWord s false (root + 8 * bitsGet va 48 9) with
  | .error c => .error c
  | .ok (t1, _) =>
    match tableWord s false (t1 + 8 * bitsGet va 38 10) with
    | .error c => .error c
    | .ok (t2, _) =>
      match tableWord s true (t2 + 8 * bitsGet va 28 10) with
      | .error c => .error c
      | .ok (t3, ps) =>
        .ok (t3 + 128 * (if ps then bitsGet va 27 1 else bitsGet va 19 9), if ps then bitsGet va 24 3 else bitsGet va 16 3, ps)

/-- A held translation covers an address, and may serve an access: for a write its D is set. -/
def Held.serves (t : Held) (acc : Acc) (va : Nat) : Bool :=
  va / 2 ^ t.size == t.base / 2 ^ t.size && (!acc.writes || (leafEntry t.bits (bitsGet va t.size 3)).testBit 7)

/-- What a walk gives, from a translation that the hart holds. -/
def Walk.asHeld : Walk → Walk
  | .ok l => .ok { l with held := true }
  | r => r

/-- The translation of one byte address below 2^57: a translation that the walker holds, or the walk of R134 and R139. -/
def walk (s : State) (w : Walker) (acc : Acc) (va : Nat) : Walk :=
  match w.held.find? (fun t => t.serves acc va) with
  | some t => (leafCheck s w acc va t.line t.bits (bitsGet va t.size 3) (t.size == 24)).asHeld
  | none =>
    match walkTables s w.root va with
    | .error c => .fault c
    | .ok (la, k, big) =>
      if (s.line (la / 128)).poison then .fault .poison else leafCheck s w acc va la (s.bytes la 128) k big

/-- The page that a failing walk of an address names (R339): the page whose leaf entry it reached, else the 64 KiB page. -/
def failPage (s : State) (root va : Nat) : Nat × Bool :=
  match walkTables s root va with
  | .ok (_, _, true) => (va / 2 ^ 24 * 2 ^ 24, true)
  | _ => (va / 65536 * 65536, false)

/-- The translation that an address's walk gives a hart to hold, if the walk passes. -/
def heldOf (s : State) (w : Walker) (acc : Acc) (va : Nat) : Option Held :=
  match walk s w acc va with
  | .ok l =>
    let n := if l.big then 24 else 16
    some { base := va / 2 ^ n * 2 ^ n, size := n, line := l.line, bits := s.bytes l.line 128 }
  | _ => none

/-- The walker of a hart's own accesses. -/
def State.walker (s : State) (g : Nat) : Walker :=
  { root := (s.hart g).ptroot.toNat, part := (s.hart g).partid.toNat, sup := (s.hart g).sup, tier := tierOf g,
    held := (s.hart g).tlb }

/-- The walker of the hart's oldest vector-queue entry, which uses the pins it holds (R140). -/
def State.pinned (s : State) (g : Nat) : Walker :=
  let w := s.walker g
  match (s.hart g).flight with
  | some f => { w with held := f.pins ++ w.held }
  | none => w

/-- The walker of the device's own accesses for a partition: PROOT, at supervisor privilege (R399). -/
def State.devWalker (s : State) (p : Nat) : Walker :=
  { root := (s.part p).proot.toNat, part := p, sup := true, tier := 0, held := [] }

/-! ### A and D (R137) -/

/-- The leaf line with A, and for a write D, set in an entry and in the mirror word. -/
def leafMarked (ln : Bits) (k : Nat) (write : Bool) : Bits :=
  let ln := bitPut (bitPut ln (64 * k + 6) true) (576 + 8 + k) true
  if write then bitPut (bitPut ln (64 * k + 7) true) (576 + k) true else ln

/-- Write bytes at their home, keeping PTAG (R98). A write of a whole line clears POISON (R112). -/
def homeWrite (pa n : Nat) (v : Bits) : M Unit := do
  upd (.mem pa n v)
  let s ← getState
  eachM (range' (pa / 128) ((pa + n - 1) / 128 + 1 - pa / 128)) (fun l => do
    let x ← gets (fun s => s.line l)
    let tag := s.ptagOf (localOf (l * 128))
    let whole := decide (pa ≤ l * 128) && decide (l * 128 + 128 ≤ pa + n)
    upd (.line l { x with ptag := tag, poison := x.poison && !whole }))

/-- Change a line at its home by a write of part of it, given the whole: it writes nothing where the line is poisoned (R112). -/
def homePatch (line : Nat) (v : Bits) : M Unit := do
  let x ← gets (fun s => s.line line)
  if x.poison then pure ()
  else do
    upd (.mem (line * 128) 128 v)
    let tag ← gets (fun s => s.ptagOf (localOf (line * 128)))
    upd (.line line { x with ptag := tag })

/-- Set A, and for a write D, of the entry a walk used, as one update of the line at its home. A translation that the hart holds
has them set. -/
def markLeaf (l : Leaf) (write : Bool) : M Unit := do
  let ln ← gets (fun s => s.bytes l.line 128)
  let ln' := leafMarked ln l.idx write
  whenM (ln' != ln && !l.held) (homePatch (l.line / 128) ln')

/-! ### Pieces of an access -/

/-- The pieces of an access of n bytes that lie in one 64 KiB page each: address and length. -/
def pagePieces (va n : Nat) : List (Nat × Nat) :=
  if n = 0 then []
  else
    let first := va / 65536
    let last := (va + n - 1) / 65536
    (range' first (last + 1 - first)).map (fun p =>
      let lo := max va (p * 65536)
      let hi := min (va + n) ((p + 1) * 65536)
      (lo, hi - lo))

/-- The pieces of an access of n bytes that lie in one line each. -/
def linePieces (va n : Nat) : List (Nat × Nat) :=
  if n = 0 then []
  else
    let first := va / 128
    let last := (va + n - 1) / 128
    (range' first (last + 1 - first)).map (fun l =>
      let lo := max va (l * 128)
      let hi := min (va + n) ((l + 1) * 128)
      (lo, hi - lo))

end Sys2Proof.Machine
end

