-- ==== Sys2Proof/Machine/Line.lean ====
section
/-!
DEFINITION. Machine/Line.lean: a line and its home. Where a translated address leads (R88, R105), forwarding records and the chains
they make (R100 to R104, R141), cluster caches with the directory and its probes (R93 to R97), and the device's own accesses through
PROOT with the dirty log (R129, R399).
-/
namespace Sys2Proof.Machine

/-! ### Forwarding records (R100) -/

/-- One step of the reflected CRC-32C. -/
def crcBit (c : Nat) : Nat := if c % 2 = 1 then (c / 2) ^^^ 0x82F63B78 else c / 2

/-- CRC-32C over n bytes of v, lowest byte first, from a running value. -/
def crcBytes : Nat → Nat → Bits → Nat
  | 0, c, _ => c
  | n + 1, c, v =>
    crcBytes n (crcBit (crcBit (crcBit (crcBit (crcBit (crcBit (crcBit (crcBit (c ^^^ (v % 256))))))))))
      (v / 256)

/-- CRC-32C of R100: initial value and final XOR all ones. -/
def crc32c (n : Nat) (v : Bits) : Nat := crcBytes n 0xFFFFFFFF v ^^^ 0xFFFFFFFF

/-- The record that forwards to a new line of a partition (R100). -/
def fwdRecord (newva part : Nat) : Bits :=
  let lo := newva / 128 * 128 % 2 ^ 57 + part * 2 ^ 64
  lo + crc32c 12 lo * 2 ^ 96

/-- A record that R100 lets a requester of partition p follow. -/
def recordGood (r : Bits) (p : Nat) : Bool :=
  bitsGet r 0 7 == 0 && bitsGet r 57 7 == 0 && bitsGet r 64 8 == p && bitsGet r 72 24 == 0
    && bitsGet r 96 32 == crc32c 12 (r % 2 ^ 96) && r / 2 ^ 128 == 0

/-! ### What an access meets -/

/-- A fault of an access: cause, address, DETAIL, AUX, the page of a translation cause. -/
structure AFault where
  cause  : Cause
  addr   : Nat
  detail : Nat
  aux    : Nat
  page   : Option (Nat × Bool)
  deriving DecidableEq, Repr

/-- What an access gives: a value, a fault, a wait, after which the instruction is executed again (on MIG, once a TLBI names the page
of the address, R139), or a stop, where a device access that it needed has failed (R399). -/
inductive Res (α : Type) where
  | ok (a : α)
  | fail (f : AFault)
  | wait (mig : Option Nat)
  | stop
  deriving Repr

/-- A fault with no page. -/
def plainFault (c : Cause) (addr detail : Nat) : AFault :=
  { cause := c, addr := addr, detail := detail, aux := 0, page := none }

/-- A fault of the walk of an address, naming the page it failed at. -/
def xlateFault (s : State) (w : Walker) (c : Cause) (addr : Nat) (acc : Acc) : AFault :=
  if c.translation then { cause := c, addr := addr, detail := acc.detail, aux := 0, page := some (failPage s w.root addr) }
  else plainFault c addr 0

/-- An address lies in the scratchpad window (R84). -/
def inSpad (va n : Nat) : Bool := decide (va < Config.spadEnd) && decide (Config.spadBase < va + n)

/-- Where a translated access leads. -/
inductive Target where
  | line (pa : Nat)
  | replica (tier pa : Nat)
  | window (w : Win) (off : Nat)
  /-- a copy in the hart's L1, or in its scalar cache, from which a load takes its bytes (R107). -/
  | copy (vec : Bool) (pa : Nat)
  | none
  deriving DecidableEq, Repr

/-- The target of a leaf's byte, for a hart of the given tier (R88, R105, R370). -/
def targetOf (s : State) (tier : Nat) (l : Leaf) : Target :=
  let a := localOf l.pa
  if pkgOf l.pa ≠ s.pkg then .line l.pa
  else if a < Config.localBytes then
    if l.bc ∧ s.inBroadcast a then
      let tower := homeTier a / 12
      let t := if tier / 12 = tower then tier else 12 * tower
      .replica t (s.physical (t * Config.tierBytes + a % Config.tierBytes))
    else .line l.pa
  else match windowAt a with
    | some (w, off) => .window w off
    | none => .none

/-! ### Tiers asleep (R383) -/

/-- The tier that holds a physical address of this package. -/
def tierOfPa (s : State) (pa : Nat) : Option Nat :=
  if pkgOf pa = s.pkg ∧ localOf pa < Config.localBytes then some (homeTier (localOf pa)) else none

/-- The tier that must wake before an access homed on it goes on (R383). -/
def sleepingTier (s : State) (pa : Nat) : Option Nat := (tierOfPa s pa).filter (fun t => (s.tier t).power != .awake)

/-- A tier with its wake begun (R383), after the writes that its tower has numbered until then (R177). -/
def State.woken (s : State) (t : Nat) : Tier :=
  let x := s.tier t
  if x.power = .asleep then { x with power := .waking, wakeSeq := (s.tower (t / 12)).seq } else x

/-- Begin a tier's wake. -/
def wake (t : Nat) : M Unit := do upd (.tier t ((← getState).woken t))

/-- An access homed on a sleeping tier begins its wake and waits (R383). -/
def wakeFor (pa : Nat) : M Bool := do
  match ← gets (fun s => sleepingTier s pa) with
  | some t => do wake t; pure true
  | none => pure false

/-! ### Chains -/

/-- Where an access stands that has followed the chain from a translated address as far as it leads. -/
inductive Way where
  /-- the line it acts on, by its leaf and virtual address. -/
  | ends (l : Leaf) (va : Nat)
  | fault (f : AFault)
  /-- a line whose MARK and STATE disagree (R99). -/
  | broken (line va : Nat)
  /-- a MOVING or reserved line, whose home holds the access (R103). -/
  | held (line : Nat)
  /-- a line whose tier sleeps (R383). -/
  | asleep (tier : Nat)
  /-- a line of a peer whose link is retraining (R178). -/
  | retrain
  /-- a replica that is being refilled (R106, R177). -/
  | refilling
  /-- a page with MIG set, reached by a hop (R139). -/
  | migrating (va : Nat)
  deriving DecidableEq, Repr

/-- A hop: the virtual line hopped out of, and the address hopped to with its leaf. -/
structure Hop where
  out  : Nat
  va   : Nat
  leaf : Leaf
  deriving DecidableEq, Repr

/-- What following a chain finds: the way's end, the hops, latest first, and how many hops count toward FWDHOPS (R164). -/
structure Trail where
  way   : Way
  hops  : List Hop
  count : Nat
  deriving DecidableEq, Repr

/-- The link to the package of an address, where it is another. -/
def State.linkState (s : State) (pa : Nat) : LinkState :=
  if pkgOf pa = s.pkg then .up else (s.link (Config.linkOf (pkgOf pa)).val).st

/-- The package that holds the line of an address performs the access (R373): this one does, a peer by its own access table. -/
def State.performs (s : State) (w : Walker) (acc : Acc) (pa : Nat) : Bool :=
  pkgOf pa == s.pkg || Config.peerPerforms (pkgOf pa) (pa / 128) w.part s.cycle (acc != .load && acc != .fetch)

/-- Where an access stands that its translation leads to no line of DRAM but a replica, a window or nothing. -/
def standing (s : State) (acc : Acc) (tgt : Target) (l : Leaf) (va : Nat) : Way :=
  match tgt with
  | .none | .copy .. => .fault (plainFault .addrNone va acc.detail)
  | .replica t pa =>
    if (s.tier t).power != .awake then .asleep t
    else if (s.tier t).replica = .stale then .refilling
    else if (s.line (pa / 128)).poison then .fault (plainFault .poison va 0)
    else .ends l va
  | .window .. | .line _ => .ends l va

/-- Follow the chain from a translated address (R103, R104, R141, R226 steps 4 to 6). full says that the access writes the whole
line, which POISON does not refuse (R112). A record on the far side of a link that is down cannot be returned. -/
def follow (s : State) (w : Walker) (acc : Acc) (full : Bool) (limit : Nat) : Nat → Nat → Leaf → List Hop → Trail
  | 0, va, _, hops => { way := .fault (plainFault .fwdDepth va 0), hops := hops, count := hops.length }
  | fuel + 1, va, l, hops =>
    let stand (y : Way) : Trail := { way := y, hops := hops, count := hops.length }
    let x := s.line (l.pa / 128)
    match sleepingTier s l.pa with
    | some t => stand (.asleep t)
    | none =>
      if x.mark != (x.st != 0#2) then stand (.broken (l.pa / 128) va)
      else if x.st = 1#2 ∨ x.reserved then stand (.held (l.pa / 128))
      else if x.poison ∧ ¬ (full ∧ x.st = 0#2) then stand (.fault (plainFault .poison va 0))
      else
        match s.linkState l.pa with
        | .down => stand (.fault { cause := .linkDown, addr := va, detail := 0, aux := pkgOf l.pa, page := none })
        | .retrain => stand .retrain
        | .up =>
          if s.performs w acc l.pa = false then stand (.fault (plainFault .xlatePerm va acc.detail))
          else if x.st = 3#2 then stand (.fault (plainFault .fwdStale va 0))
          else if x.st = 0#2 then stand (.ends l va)
          else
            let r := s.bytes (l.pa / 128 * 128) 128
            if ¬ recordGood r w.part then stand (.fault (plainFault .fwdBad va 0))
            else if limit < hops.length + 1 then stand (.fault (plainFault .fwdDepth va 0))
            else
              let nva := bitsGet r 0 57 / 128 * 128 + va % 128
              let hopped (y : Way) : Trail := { way := y, hops := hops, count := hops.length + 1 }
              if inSpad nva 1 then hopped (.fault (plainFault .spadRange nva acc.detail))
              else
                match walk s w acc nva with
                | .fault c => hopped (.fault (xlateFault s w c nva acc))
                | .mig _ => stand (.migrating nva)
                | .ok l' =>
                  let hops' := { out := va / 128 * 128, va := nva, leaf := l' } :: hops
                  match targetOf s w.tier l' with
                  | .line _ => follow s w acc full limit fuel nva l' hops'
                  | tgt => { way := standing s acc tgt l' nva, hops := hops', count := hops.length + 1 }

/-- The way ends in a wait. -/
def Way.waits : Way → Bool
  | .held _ | .asleep _ | .retrain | .refilling | .migrating _ => true
  | _ => false

/-- The way leads to where the access acts. -/
def Way.fine : Way → Bool
  | .ends .. => true
  | _ => false

/-- The cause of the fault that the way ends in. -/
def Way.cause : Way → Option Cause
  | .fault f => some f.cause
  | .broken .. => some .poison
  | _ => none

/-- The record of a line with one more access held (R103). -/
def LineMeta.holding (x : LineMeta) (t : Turn) : LineMeta :=
  if x.held.contains t then x else { x with held := x.held ++ [t] }

/-- The home of a line holds the access under way (R103). -/
def holdAt (line : Nat) : M Unit := do
  let s ← getState
  upd (.line line ((s.line line).holding s.doing))

/-- A transition of a line has ended: the accesses its home held move next, in arrival order (R103). -/
def replay (line : Nat) : M Unit := do
  let s ← getState
  let x := s.line line
  whenM (!x.held.isEmpty) (do
    upd (.sched (x.held ++ s.sched))
    upd (.line line { x with held := [] }))

/-- A move's destination is reserved no more, and its home replays the accesses held there. -/
def releaseDest (dst : Nat) : M Unit := do
  let d ← gets (fun s => s.line dst)
  upd (.line dst { d with reserved := false })
  replay dst

/-- A MOVING line leaves that state, with a mark and a state, and its home replays the accesses held there (R103). -/
def endMove (src : Nat) (mark : Bool) (st : BitVec 2) : M Unit := do
  let x ← gets (fun s => s.line src)
  upd (.line src { x with mark := mark, st := st, move := none })
  replay src

/-- Abort a move that has not passed its data: the line returns to NORMAL with its data, and the destination is released. -/
def moveAbort (src : Nat) : M Unit := do
  let x ← gets (fun s => s.line src)
  match x.move with
  | none => pure ()
  | some m => do
    endMove src false 0
    releaseDest m.dst

/-- Count errors of the tier that holds a line (R162). -/
def tierCount (line : Nat) (f : Tier → Tier) : M Unit := do
  match ← gets (fun s => tierOfPa s (128 * line)) with
  | some t => modTier t f
  | none => pure ()

/-- n more in a count that saturates at 32 bits (R165). -/
def sat32 (x n : Nat) : Nat := min (x + n) (2 ^ 32 - 1)

/-- The moves whose destination is a line. -/
def movesInto (s : State) (line : Nat) : List Nat :=
  (s.lines.filter (fun e => (e.2.move.map (fun m => m.dst)) == some line)).map (fun e => e.1)

/-- A DRAM line read or written with an error is poisoned (R112); a move into it will abort (R101). -/
def dramError (line : Nat) : M Unit := do
  let x ← gets (fun s => s.line line)
  upd (.line line { x with poison := true })
  tierCount line (fun t => { t with drunc := sat32 t.drunc 1 })
  let ls ← gets (fun s => movesInto s line)
  eachM ls (fun l => do
    let y ← gets (fun s => s.line l)
    upd (.line l { y with move := y.move.map (fun m => { m with failed := true }) }))

/-! ### Cluster caches and their directory (R93 to R97) -/

/-- Spread a per-byte mask over the bits of its bytes. -/
def spreadMask : Nat → Nat → Bits
  | 0, _ => 0
  | n + 1, mask => (if mask % 2 = 1 then 255 else 0) + 256 * spreadMask n (mask / 2)

/-- Take the masked bytes of one line over another. -/
def overlay (base data : Bits) (mask : Nat) : Bits :=
  let m := spreadMask 128 mask
  base ^^^ ((base ^^^ data) &&& m)

/-- Pass an L line's dirty bytes to the home (R94). -/
def mergeDirty (line : Nat) (x : CcLine) : M Unit := do
  let old ← gets (fun s => s.bytes (line * 128) 128)
  homePatch line (overlay old x.data x.mask)

/-- The clusters of a tier, ascending. -/
def tierClusters (t : Nat) : List Nat := [4 * t, 4 * t + 1, 4 * t + 2, 4 * t + 3]

/-- Probe clusters for a line, in ascending order: an L line first passes its dirty bytes; each gives up its copy (R94). -/
def probe (line : Nat) : List Nat → M Unit
  | [] => pure ()
  | c :: cs => do
    match ← gets (fun s => tabFind (s.cluster c) line) with
    | some x => do
      whenM (x.st == .l) (mergeDirty line x)
      upd (.cc c line none)
    | none => pure ()
    probe line cs

/-- Every cluster that may hold a line of this package. -/
def holders (s : State) (pa : Nat) : List Nat :=
  match tierOfPa s pa with
  | some t => tierClusters t
  | none => []

/-- Change bytes of a resident copy. -/
def copyPut (t : Tab CLine) (pa n : Nat) (v : Bits) : Tab CLine :=
  match tabFind t (pa / 128) with
  | some x => tabPut t (pa / 128) { x with data := bitsSet x.data (8 * (pa % 128)) (8 * n) v }
  | none => t

/-- A store updates its core's resident copies: the L1's, and for a scalar store the scalar cache's (R90, R91). -/
def updateCopies (g : Nat) (vec : Bool) (pa n : Nat) (v : Bits) : M Unit := do
  let k ← gets (fun s => s.core (coreOf g))
  if (tabFind k.l1 (pa / 128)).isSome || (!vec && (tabFind k.scache (pa / 128)).isSome) then
    upd (.core (coreOf g) { k with
      l1 := copyPut k.l1 pa n v
      scache := if vec then k.scache else copyPut k.scache pa n v })
  else pure ()

/-- The leaf that a walk gives, one that waits on MIG included. -/
def Walk.leaf? : Walk → Option Leaf
  | .ok l => some l
  | .mig l => some l
  | .fault _ => none

/-- Of the regions under reclamation, a store leaves STATE as it stands (R145): put RECLAIM back where the bytes written
cover it. -/
def keepReclaim (pa n : Nat) : M Unit := do
  let rs ← gets (fun s => s.reclaims)
  eachM rs (fun r => do
    match ← gets (fun s => (walk s (s.devWalker r.part) .load ((s.part r.part).relbase + 32 * r.idx + 8)).leaf?) with
    | some l => whenM (decide (pa ≤ l.pa) && decide (l.pa < pa + n)) (homeWrite l.pa 1 4)
    | none => pure ())

/-- A line is NORMAL, free of every mark that stands in an access's way. -/
def LineMeta.plain (x : LineMeta) : Bool := !x.mark && x.st == 0#2 && !x.reserved && !x.poison

/-- A hart's completed writes to a line of this package, in their order: performed before its cluster answers a probe (R97). -/
def drainLine (line g : Nat) : M Unit := do
  let s ← getState
  let mine (p : Posted) : Bool := p.pa / 128 == line
  if (s.hart g).posted.any mine && (s.line line).plain then do
    eachM ((s.hart g).posted.filter mine) (fun p => do
      homeWrite p.pa p.size p.data
      keepReclaim p.pa p.size
      updateCopies g p.vec p.pa p.size p.data)
    modHart g (fun h => { h with posted := h.posted.filter (fun p => !mine p) })
  else pure ()

/-- The harts of the cores that a cluster's filter mask names (R97). -/
def CcLine.harts (x : CcLine) (c : Nat) : List Nat :=
  ([0, 1, 2, 3].filter (fun k => x.cores.toNat.testBit k)).flatMap (fun k => coreHarts (4 * c + k))

/-- Before clusters answer a probe for a line, the write-through stores to it of the cores in their masks are performed (R97). -/
def drainHolders (line : Nat) (cs : List Nat) : M Unit :=
  eachM cs (fun c => do
    match ← gets (fun s => tabFind (s.cluster c) line) with
    | some x => eachM (x.harts c) (drainLine line)
    | none => pure ())

/-- Recall a line from clusters: drained, then probed. -/
def recallLine (line : Nat) (cs : List Nat) : M Unit := do
  drainHolders line cs
  probe line cs

/-- A directory entry of R97: the clusters of the tier that may hold a line of the region, and the one that holds one in E or M. -/
structure DirEntry where
  pres : BitVec 4
  own  : Option (BitVec 2)
  deriving DecidableEq, Repr

/-- The directory's entry of a region, as the clusters' lines give it: PRES, and OWN where OV is set (R97). -/
def State.dirEntry (s : State) (region : Nat) : DirEntry :=
  let cs := holders s (512 * region)
  let has (f : CcLine → Bool) (c : Nat) : Bool := (s.cluster c).any (fun e => lineRegion e.1 == region && f e.2)
  { pres := cs.foldl (fun b c => if has (fun _ => true) c then b ||| (1#4 <<< (c % 4)) else b) 0
    own := (cs.find? (has (fun x => x.st == .e || x.st == .m))).map (fun c => BitVec.ofNat 2 (c % 4)) }

/-- Directory places of a slice (R97). -/
def dirPlaces : Nat := 65536

/-- Lines that the clusters of a tier hold. -/
def State.linesHeld (s : State) (t : Nat) : Nat := ((tierClusters t).map (fun c => (s.cluster c).length)).sum

/-- The regions that the directory of a line's slice holds an entry of. -/
def sliceRegions (s : State) (pa : Nat) : List Nat :=
  let ch := homeChannel (localOf pa)
  (((holders s pa).flatMap (fun c => (s.cluster c).map (fun e => e.1))).filter
    (fun l => homeChannel (localOf (128 * l)) == ch)).map lineRegion |>.dedup

/-- Probe every line of a region in the clusters that hold one: its directory entry is replaced (R97). -/
def dropEntry (region : Nat) : M Unit :=
  eachM (range' (4 * region) 4) (fun l => do
    let s ← getState
    recallLine l (holders s (128 * l)))

/-- A fill of a region that the directory has no place for replaces an entry first: which one, the spec leaves open (log entry 5,
DESIGN CHOICE). -/
def dirRoom (pa : Nat) : M Unit := do
  let s ← getState
  match tierOfPa s pa with
  | none => pure ()
  | some t =>
    if s.linesHeld t < dirPlaces then pure ()
    else
      let rs := sliceRegions s pa
      if rs.length < dirPlaces ∨ rs.contains (lineRegion (pa / 128)) then pure ()
      else do
        let n ← freeBits 16
        dropEntry (rs.getD (n % rs.length) 0)

/-- The bit of a hart's core in a filter mask. -/
def coreBit (g : Nat) : BitVec 4 := 1#4 <<< (coreOf g % 4)

/-- A store or a wide atomic takes the line: every other cluster of its tier is probed; and the hart's cluster, on the line's tier,
passes its own dirty bytes and holds the line M (R94). -/
def takeLine (g pa : Nat) : M Unit := do
  let s ← getState
  let line := pa / 128
  recallLine line ((holders s pa).filter (fun c => c != clusterOf g))
  whenM (tierOfPa s pa == some (tierOf g)) (do
    let mask : BitVec 4 ← match ← gets (fun s => tabFind (s.cluster (clusterOf g)) line) with
      | some x => do
        whenM (x.st == .l) (mergeDirty line x)
        pure x.cores
      | none => do
        dirRoom pa
        pure 0
    upd (.cc (clusterOf g) line (some { st := .m, data := 0, mask := 0, cores := mask ||| coreBit g })))

/-- Leave a line in a hart's cluster, on the line's tier, where it holds none: in state S, or E where own allows it and no other
cluster holds the line, whose E and M copies become S. -/
def fetchLine (g pa : Nat) (own : Bool) : M Unit := do
  let s ← getState
  let line := pa / 128
  if tierOfPa s pa = some (tierOf g) then
    match tabFind (s.cluster (clusterOf g)) line with
    | some x => whenM (x.cores ||| coreBit g != x.cores) (upd (.cc (clusterOf g) line (some { x with cores := x.cores ||| coreBit g })))
    | none => do
      let others := (holders s pa).filter (fun c => c != clusterOf g && (tabFind (s.cluster c) line).isSome)
      eachM others (fun c => do
        match ← gets (fun s => tabFind (s.cluster c) line) with
        | some x => whenM (x.st == .e || x.st == .m) (upd (.cc c line (some { x with st := .s })))
        | none => pure ())
      dirRoom pa
      upd (.cc (clusterOf g) line
        (some { st := if own && others.isEmpty then .e else .s, data := 0, mask := 0, cores := coreBit g }))
  else pure ()

/-- A load by a hart of the line's tier leaves the line in its cluster: S when another cluster holds it, else E. -/
def touchLine (g pa : Nat) : M Unit := fetchLine g pa true

/-- The line as a hart's cluster gives it: its own L copy, else what the home holds. -/
def State.lineFor (s : State) (g pa : Nat) : Bits :=
  let line := pa / 128
  match tabFind (s.cluster (clusterOf g)) line with
  | some x => if x.st = .l then x.data else s.bytes (line * 128) 128
  | none => s.bytes (line * 128) 128

/-- A release of tier scope or wider passes the cluster's dirty bytes to their homes (R96). -/
def mergeCluster (c : Nat) : M Unit := do
  let ls ← gets (fun s => s.cluster c)
  eachM ls (fun e => whenM (e.2.st == .l) (do
    mergeDirty e.1 e.2
    upd (.cc c e.1 (some { e.2 with st := .s, data := 0, mask := 0 }))))

/-! ### The device's own accesses (R399) -/

/-- Translate the pieces of a device access: the leaf of each, or none when a walk fails. No mapping of the scratchpad window is
used (R84). -/
def devLeaves (s : State) (p : Nat) (acc : Acc) : List (Nat × Nat) → Option (List (Leaf × Nat))
  | [] => some []
  | (va, n) :: rest =>
    match (walk s (s.devWalker p) acc va).leaf?, devLeaves s p acc rest with
    | some l, some ls => if va < 2 ^ 57 ∧ inSpad va n = false then some ((l, n) :: ls) else none
    | _, _ => none

/-- The first cause among the walks of a device access (R336's DETAIL). -/
def devCause (s : State) (p : Nat) (acc : Acc) : List (Nat × Nat) → Option Cause
  | [] => none
  | (va, n) :: rest =>
    if 2 ^ 57 ≤ va then some .xlateNone
    else if inSpad va n then some .spadRange
    else match walk s (s.devWalker p) acc va with
      | .fault c => some c
      | _ => devCause s p acc rest

/-- Nothing stands in the way of the n bytes at a leaf's address: its page has not MIG, they lie in memory of this package whose
tier is awake, and every line of them is plain. -/
def devPlain (s : State) (l : Leaf) (n : Nat) : Bool :=
  !l.entry.testBit 8 && pkgOf l.pa == s.pkg && decide (localOf l.pa + n ≤ Config.localBytes)
    && (sleepingTier s l.pa).isNone && (sleepingTier s (l.pa + n - 1)).isNone
    && s.lines.all (fun e => decide (e.1 < l.pa / 128) || decide ((l.pa + n - 1) / 128 < e.1) || e.2.plain)

/-- Hops that a partition's own accesses may follow: its entry's FWDLIM (R73, R150; log entry 72, DEDUCED). -/
def Part.hopLimit (x : Part) : Nat := if x.fwdlim = 0#2 then 4 else x.fwdlim.toNat

/-- A device access of bytes in one line goes along the chain to where it acts, as a hart's does; one that is held, or that meets
MIG, a sleeping tier or a retraining link, makes the step wait as a whole (R103, R139, R288). None where it meets a fault. -/
def devLine (p : Nat) (acc : Acc) (touch : Nat → Leaf → M Bool) (va n : Nat) (l : Leaf) : M (Option (Leaf × Nat)) := do
  let s ← getState
  let w := s.devWalker p
  let limit := (s.part p).hopLimit
  match targetOf s w.tier l with
  | .line _ =>
    let t := follow s w acc (acc.writes && decide (n = 128)) limit (limit + 1) va l []
    match t.way with
    | .held line => waitStep [.line line ((s.line line).holding s.doing)]
    | .asleep k => waitStep [.tier k (s.woken k)]
    | .retrain | .refilling | .migrating _ => waitStep []
    | .broken line _ => do
      dramError line
      pure none
    | .fault _ => pure none
    | .ends l' _ => if ← marks t.hops.reverse then pure (some (l', n)) else pure none
  | .replica _ pa => pure (some ({ l with pa := pa }, n))
  | _ => pure none
where
  /-- Mark the pages that the hops reached. -/
  marks : List Hop → M Bool
    | [] => pure true
    | h :: hs => do
      if ← touch h.va h.leaf then marks hs else pure false

/-- The line pieces of a page piece. -/
def devLines (p : Nat) (acc : Acc) (touch : Nat → Leaf → M Bool) (va : Nat) (l : Leaf) : List (Nat × Nat) → M (Option (List (Leaf × Nat)))
  | [] => pure (some [])
  | (a, n) :: rest => do
    match ← devLine p acc touch a n { l with pa := l.pa + (a - va) } with
    | none => pure none
    | some x =>
      match ← devLines p acc touch va l rest with
      | none => pure none
      | some xs => pure (some (x :: xs))

/-- Where the pieces of a device access act, in their order: at their leaves where nothing stands in the way, else line by line. -/
def devFollow (p : Nat) (acc : Acc) (touch : Nat → Leaf → M Bool) : List (Nat × Nat) → List (Leaf × Nat) → M (Option (List (Leaf × Nat)))
  | (va, _) :: ps, (l, n) :: ls => do
    let s ← getState
    let here ← if devPlain s l n then pure (some [(l, n)])
      else if l.entry.testBit 8 then waitStep []
      else devLines p acc touch va l (linePieces va n)
    match here with
    | none => pure none
    | some xs =>
      match ← devFollow p acc touch ps ls with
      | none => pure none
      | some ys => pure (some (xs ++ ys))
  | _, _ => pure (some [])

/-- Recall every line of n bytes at their home from the clusters that hold one. -/
def recallBytes (pa n : Nat) : M Unit := do
  let s ← getState
  let ls := (s.clusters.flatMap (fun e => (e.2.map (fun x => x.1)).filter
    (fun l => decide (pa / 128 ≤ l) && decide (l ≤ (pa + n - 1) / 128)))).dedup
  eachM ls (fun l => recallLine l (holders s (128 * l)))

/-- Write pieces of data where they act, the first piece taking the low bytes: no cluster keeps a line of them (R94, R168). -/
def devPut : List (Leaf × Nat) → Bits → M Unit
  | [], _ => pure ()
  | (l, n) :: rest, v => do
    recallBytes l.pa n
    homeWrite l.pa n (v % 2 ^ (8 * n))
    devPut rest (v / 2 ^ (8 * n))

/-- Read pieces where they act. -/
def devGet (s : State) : List (Leaf × Nat) → Bits
  | [] => 0
  | (l, n) :: rest => s.bytes l.pa n + devGet s rest * 2 ^ (8 * n)

/-- Set A, and for a write D, of the leaves of a device access. -/
def devTouch (write : Bool) : List (Leaf × Nat) → M Unit
  | [] => pure ()
  | (l, _) :: rest => do markLeaf l write; devTouch write rest

/-- Set A and D of a page that a hop of the device's access reached. -/
def markHop (write : Bool) (_ : Nat) (l : Leaf) : M Bool := do
  markLeaf l write
  pure true

/-- A device write without dirty logging: the dirty log's own writes. False when it fails. -/
def devWriteRaw (p va n : Nat) (v : Bits) : M Bool := do
  match ← gets (fun s => devLeaves s p .store (pagePieces va n)) with
  | some ls => do
    devTouch true ls
    match ← devFollow p .store (markHop true) (pagePieces va n) ls with
    | some xs => do devPut xs v; pure true
    | none => pure false
  | none => pure false

/-- A device read. None when it fails. -/
def devRead (p va n : Nat) : M (Option Bits) := do
  match ← gets (fun s => devLeaves s p .load (pagePieces va n)) with
  | some ls => do
    devTouch false ls
    match ← devFollow p .load (markHop false) (pagePieces va n) ls with
    | some xs => pure (some (← gets (fun s => devGet s xs)))
    | none => pure none
  | none => pure none

/-- Append to the dirty log the first write of a page (R129). False when a walk fails. -/
def dirtyAppend (p va : Nat) (big : Bool) : M Bool := do
  let part ← gets (fun s => s.part p)
  match ← devRead p part.dlbase 16 with
  | none => pure false
  | some hd =>
    let count := bitsGet hd 0 64
    if bitAt hd 64 then pure true
    else if count = 2 ^ part.dlcap then devWriteRaw p (part.dlbase + 8) 1 1
    else
      let lo := (if big then 1 else 0) + 2 * p + bitsGet va 16 41 * 65536
      let ok ← devWriteRaw p (part.dlbase + 128 + 16 * count) 16 (lo + count * 2 ^ 64)
      if ok then devWriteRaw p part.dlbase 8 (count + 1) else pure false

/-- Set A and D of a walk's entry for an access of the partition, logging a first write of a LOG page, by the page's address, before
the write (R129, R137). False when the log cannot be reached. -/
def touchLeaf (p va : Nat) (l : Leaf) (write : Bool) : M Bool := do
  let e ← gets (fun s => leafEntry (s.bytes l.line 128) l.idx)
  let size := if l.big then 2 ^ 24 else 2 ^ 16
  let ok ← if write ∧ l.held = false ∧ e.testBit 12 ∧ ¬ e.testBit 7 then dirtyAppend p (va / size * size) l.big else pure true
  if ok then do markLeaf l write; pure true else pure false

/-- Log the first writes of a device write's pages. -/
def devLog (p : Nat) : List (Nat × Nat) → List (Leaf × Nat) → M Bool
  | (va, _) :: ps, (l, _) :: ls => do
    if ← touchLeaf p va l true then devLog p ps ls else pure false
  | _, _ => pure true

/-- A device write (R399). False when it fails. -/
def devWrite (p va n : Nat) (v : Bits) : M Bool := do
  match ← gets (fun s => devLeaves s p .store (pagePieces va n)) with
  | some ls => do
    if ← devLog p (pagePieces va n) ls then
      match ← devFollow p .store (fun a l => touchLeaf p a l true) (pagePieces va n) ls with
      | some xs => do devPut xs v; pure true
      | none => pure false
    else pure false
  | none => pure false

/-- A queue that is not ready: STEP and the cycles of aging are 0 (R116). -/
def Queue.unready (x : Queue) : Queue := { x with ready := none, step := 0, urgent := none }

/-- A device access failed: the partition goes to ERROR (R151, R399), and its queues are ready no more (R116). -/
def partError (p : Nat) : M Unit := do
  modPart p (fun x => { x with state := .error })
  let s ← getState
  eachM (((List.range 64).filter (fun q => bitAt (s.part p).queues q && ((s.queue q).ready.isSome || decide (0 < (s.queue q).step)))))
    (fun q => modQueue q Queue.unready)

/-- A device access that a hart's instruction needed failed: the partition goes to ERROR and the hart executes nothing
further (R399). -/
def hartError {α : Type} (g p : Nat) : M α := do
  partError p
  modHart g (fun h => { h with hstop := .error })
  halt

/-- A device write that an instruction of hart g needs. -/
def needWrite (g p va n : Nat) (v : Bits) : M Unit := do
  if ← devWrite p va n v then pure () else hartError g p

/-- A device read that an instruction of hart g needs. -/
def needRead (g p va n : Nat) : M Bits := do
  match ← devRead p va n with
  | some v => pure v
  | none => hartError g p

end Sys2Proof.Machine
end

