-- ==== Sys2Proof/Machine/Records.lean ====
section
/-!
DEFINITION. Machine/Records.lean: fault records and the fault queue (R127, R339, R340), the partition's event word (R374),
and the traps of the vector side (R212).
-/
namespace Sys2Proof.Machine

/-- A fault record before it is posted (R339). -/
structure FRec where
  cause  : Cause
  hart   : Nat
  part   : Nat
  vec    : Bool
  elemp  : Bool
  more   : Bool
  notrap : Bool
  posted : Bool
  pc     : Nat
  addr   : Nat
  elem   : Nat
  vl     : Nat
  mbase  : Nat
  mbits  : Nat
  mask   : Bits
  /-- the failing pages: bits [56:16] in place, and whether the page is 16 MiB. -/
  pages  : List (Nat × Bool)
  eqpos  : Nat
  detail : Nat
  aux    : Nat
  cpelem : Nat
  deriving DecidableEq, Repr

/-- A record with every field zero but the cause, hart and partition. -/
def FRec.base (c : Cause) (hart part : Nat) : FRec :=
  { cause := c, hart := hart, part := part, vec := false, elemp := false, more := false, notrap := false, posted := false,
    pc := 0, addr := 0, elem := 0, vl := 0, mbase := 0, mbits := 0, mask := 0, pages := [], eqpos := 0, detail := 0,
    aux := 0, cpelem := 0 }

/-- Entries of the record (R339). -/
def FRec.len (r : FRec) : Nat := 1 + ceilDiv r.mbits 1024 + ceilDiv r.pages.length 16

/-- A Bool as a bit. -/
def bit (b : Bool) : Nat := if b then 1 else 0

/-- The pages of a record as 8-byte words. -/
def pageWords : List (Nat × Bool) → Bits
  | [] => 0
  | (a, big) :: rest => (a / 65536 * 65536 % 2 ^ 57 + bit big) + 2 ^ 64 * pageWords rest

/-- The record's bytes, without INDEX and STAMP (R339). -/
def FRec.bytes (r : FRec) : Bits :=
  r.len + r.cause.code * 2 ^ 16 + (r.hart % 2048) * 2 ^ 32 + r.part * 2 ^ 48
    + (bit r.vec + 2 * bit r.elemp + 4 * bit r.more + 8 * bit r.notrap + 16 * bit r.posted) * 2 ^ 56
    + r.pc * 2 ^ 64 + r.addr * 2 ^ 128 + r.elem * 2 ^ 192 + r.vl * 2 ^ 224 + r.mbase * 2 ^ 256 + r.mbits * 2 ^ 288
    + r.pages.length * 2 ^ 304 + r.eqpos * 2 ^ 312 + r.detail * 2 ^ 448 + r.aux * 2 ^ 512 + r.cpelem * 2 ^ 576
    + r.mask * 2 ^ 1024 + pageWords r.pages * 2 ^ (1024 * (1 + ceilDiv r.mbits 1024))

/-- Write the entries of a record in ring order from entry PROD (R127). -/
def postEntries (p base prod : Nat) : List Nat → Bits → M Bool
  | [], _ => pure true
  | k :: ks, v => do
    if ← devWrite p (base + 128 + 128 * ((prod + k) % 4096)) 128 (v % 2 ^ 1024) then
      postEntries p base prod ks (v / 2 ^ 1024)
    else pure false

/-- What posting a record gives: the address of its first entry, no room, or a failed walk. -/
inductive Posting where
  | at (va : Nat)
  | full
  | failed
  deriving DecidableEq, Repr

/-- Post a record of len entries to the partition's fault queue (R127). -/
def postBytes (p len : Nat) (v : Bits) : M Posting := do
  let base ← gets (fun s => (s.part p).fqbase)
  match ← devRead p base 24 with
  | none => pure .failed
  | some hd =>
    let prod := bitsGet hd 0 64
    let cons := bitsGet hd 64 64
    let waits := bitsGet hd 128 64
    if 4096 < prod + len - cons then
      if ← devWrite p (base + 16) 8 (waits + 1) then pure .full else pure .failed
    else
      let stamp ← gets (fun s => s.cycle)
      let v := v + prod * 2 ^ 320 + (stamp % 2 ^ 64) * 2 ^ 384
      if ← postEntries p base prod (List.range len) v then
        if ← devWrite p base 8 (prod + len) then pure (.at (base + 128 + 128 * (prod % 4096))) else pure .failed
      else pure .failed

/-- Set bits of a partition's event word; with HEVADDR set the word is also written there (R374). -/
def setEvent (p : Nat) (bits : Word) : M Unit := do
  modPart p (fun x => { x with event := x.event ||| bits })
  let x ← gets (fun s => s.part p)
  if x.hevaddr = 0 then pure ()
  else do
    let _ ← devWrite p x.hevaddr.toNat 8 x.event.toNat
    pure ()

/-- Set a bit of every running partition's event word (R372, R384). -/
def setEventAll (bits : Word) : M Unit := do
  let ps ← gets (fun s => s.parts.map (fun e => e.1))
  eachM ps (fun p => setEvent p bits)

/-- Post a record on behalf of no hart (R340): it waits while the queue is full, and FAULTQ is set once it is posted. -/
def postNotrap (r : FRec) : M Unit := do
  let r := { r with notrap := true }
  match ← postBytes r.part r.len r.bytes with
  | .at _ => setEvent r.part 1
  | .full => modPart r.part (fun x => { x with waiting := x.waiting ++ [(none, r.bytes, r.len)] })
  | .failed => partError r.part

/-- A record that is of no element of an instruction: ELEM and VL are free values (log entry 5, DESIGN CHOICE). -/
def FRec.apart (r : FRec) : M FRec := do
  let elem ← freeBits 23
  let vl ← freeBits 23
  pure { r with elem := elem, vl := vl }

/-- Post a record that is of no instruction: its PC is a free value too, and so is its ADDR, unless it is of an access. -/
def postApart (r : FRec) (va : Option Nat) : M Unit := do
  let pc ← freeBits 64
  let addr ← match va with
    | some a => pure a
    | none => freeBits 64
  postNotrap { (← r.apart) with pc := pc, addr := addr }

/-- Deliver the trap of a vector-side fault whose record stands at va (R211, R212). -/
def deliverTrap (g : Nat) (t : PendingTrap) (va : Nat) : M Unit :=
  modHart g (fun h =>
    { (h.enterTrap t.cause t.epc (BitVec.ofNat 64 va) 0 (if t.resume then .queue else .drained) (t.resume || h.vqHeld)) with hstop := .run, resumePc := h.pc, lp := h.lp.toResume })

/-- Raise a vector-side fault: post its record, and then take the trap; a hart whose record finds no room waits (R127), and
one whose record cannot be written stands in error (R399). The step ends. -/
def recordTrap {α : Type} (g : Nat) (r : FRec) (epc : Word) (resume : Bool) : M α := do
  let t : PendingTrap := { cause := BitVec.ofNat 16 r.cause.code, epc := epc, resume := resume }
  match ← postBytes r.part r.len r.bytes with
  | .at va => deliverTrap g t va; halt
  | .full => do
    modHart g (fun h => { h with hstop := .faultWait t })
    modPart r.part (fun x => { x with waiting := x.waiting ++ [(some g, r.bytes, r.len)] })
    halt
  | .failed => hartError g r.part

/-- The hart that waits for a record which now stands at va takes its trap: at once, or as it is restored (R127). -/
def deliverWaiting (p g va : Nat) : M Unit :=
  if g < Config.numHarts then do
    match (← getHart g).hstop with
    | .faultWait t => deliverTrap g t va
    | _ => pure ()
  else
    modPart p (fun x => { x with hidden := x.hidden.map (fun e =>
      if e.1 + Config.numHarts = g then (e.1, { e.2 with fault := e.2.fault.map (fun f => (f.1, some va)) }) else e) })

/-- A waiting record's hart goes by another number, or by none. -/
def Part.renamed (x : Part) (g : Nat) (now : Option Nat) : Part :=
  { x with waiting := x.waiting.map (fun e => if e.1 = some g then (now, e.2) else e) }

/-- Try to post the oldest waiting record of a partition (R127): the oldest goes first (log entry 78, DESIGN CHOICE). -/
def postWaiting (p : Nat) : M Unit := do
  match ← gets (fun s => (s.part p).waiting) with
  | [] => pure ()
  | (who, v, len) :: rest => do
    match ← postRetry p len v with
    | .full => pure ()
    | .failed => do
      partError p
      match who with
      | some g => whenM (decide (g < Config.numHarts)) (modHart g (fun h => { h with hstop := .error }))
      | none => pure ()
    | .at va => do
      modPart p (fun x => { x with waiting := rest })
      match who with
      | none => setEvent p 1
      | some g => deliverWaiting p g va
where
  /-- Posting again: WAITS has counted this record already. -/
  postRetry (p len : Nat) (v : Bits) : M Posting := do
    let base ← gets (fun s => (s.part p).fqbase)
    match ← devRead p base 24 with
    | none => pure .failed
    | some hd => if 4096 < bitsGet hd 0 64 + len - bitsGet hd 64 64 then pure .full else postBytes p len v

end Sys2Proof.Machine
end

