-- ==== Sys2Proof/Machine/Access.lean ====
section
/-!
DEFINITION. Machine/Access.lean: a hart's accesses at their lines: settled where their chains end (R103, R141, R226), cached copies
(R89 to R91), device windows as a hart meets them (R370), releases and acquires (R172, R173), posted writes (R398).
-/
namespace Sys2Proof.Machine

/-- Hop limit of a hart (R73). -/
def Hart.hopLimit (h : Hart) : Nat := if h.fwdlim = 0#2 then 4 else h.fwdlim.toNat

/-- A core without its copies of a line. -/
def Core.without (k : Core) (line : Nat) : Core := { k with l1 := tabDel k.l1 line, scache := tabDel k.scache line }

/-- An atomic's core keeps no copy of its line (log entry 6, DEDUCED). -/
def dropCopies (g pa : Nat) : M Unit := do
  let k ← gets (fun s => s.core (coreOf g))
  whenM ((tabFind k.l1 (pa / 128)).isSome || (tabFind k.scache (pa / 128)).isSome)
    (upd (.core (coreOf g) (k.without (pa / 128))))

/-! ### Windows, as a hart reads and writes them (R370, R374, R375) -/

/-- What a read of a window gives, n bytes. -/
def windowRead (s : State) (w : Win) (off n : Nat) : Bits :=
  match w with
  | .event p => bitsGet (if off < 8 then (s.part p).event.toNat >>> (8 * off) else 0) 0 (8 * n)
  | .mbox p => if 0x80 ≤ off ∧ off < 0x100 then bitsGet (s.mailbox p).response (8 * (off - 0x80)) (8 * n) else 0
  | _ => 0

/-- A write of less than a line to a window: only the 8-byte write of an event word's soft bits has an effect (R374). -/
def windowWrite (w : Win) (off n : Nat) (v : Bits) : M Unit :=
  match w with
  | .event p => if off = 0 ∧ n = 8 then setEvent p (BitVec.ofNat 64 v &&& 0xFFFFFFFFFFFF0000) else pure ()
  | _ => pure ()

/-! ### One piece of an access, within one line -/

/-- A piece ready to perform: where its own address led, its target, the page's leaf, and the virtual lines hopped out of. -/
structure Ready where
  orig  : Nat
  tgt   : Target
  n     : Nat
  leaf  : Leaf
  hops  : List Nat
  deriving DecidableEq, Repr

/-- Where a translated piece of a hart's access stands: at the end of its chain, or before what stands in its way. A store of a whole
line is not refused by POISON (R112). -/
def aim (s : State) (g : Nat) (w : Walker) (acc : Acc) (va n : Nat) (l : Leaf) : Trail :=
  match targetOf s w.tier l with
  | .line _ => follow s w acc (acc == .store && n == 128) (s.hart g).hopLimit ((s.hart g).hopLimit + 1) va l []
  | tgt => { way := standing s acc tgt l va, hops := [], count := 0 }

/-- Count hops that an access of the hart followed (R164). -/
def countHops (g n : Nat) : M Unit :=
  whenM (n != 0) (modHart g (fun h => { h with fwdhops := h.fwdhops + BitVec.ofNat 64 n }))

/-- Set A, and for a write D, of the pages that hops reached, in their order. False when a device access fails. -/
def touchHops (part : Nat) (write : Bool) : List Hop → M Bool
  | [] => pure true
  | h :: hs => do
    if ← touchLeaf part h.va h.leaf write then touchHops part write hs else pure false

/-- Carry out what a trail has met, up to its end: its hops are counted once the access is no longer held (R103, R164). -/
def arrive (g : Nat) (w : Walker) (acc : Acc) (t : Trail) : M (Res (Leaf × Nat)) :=
  match t.way with
  | .held line => do
    holdAt line
    pure (.wait none)
  | .asleep k => do
    wake k
    pure (.wait none)
  | .retrain | .refilling => pure (.wait none)
  | .migrating a => pure (.wait (some a))
  | .broken line a => do
    let ok ← touchHops w.part acc.writes t.hops.reverse
    countHops g t.count
    dramError line
    pure (if ok then .fail (plainFault .poison a 0) else .stop)
  | .fault f => do
    let ok ← touchHops w.part acc.writes t.hops.reverse
    countHops g t.count
    pure (if ok then .fail f else .stop)
  | .ends l va => do
    let ok ← touchHops w.part acc.writes t.hops.reverse
    countHops g t.count
    pure (if ok then .ok (l, va) else .stop)

/-- Bring a translated piece to where it acts. -/
def settle (g : Nat) (w : Walker) (acc : Acc) (va n : Nat) (l : Leaf) : M (Res Ready) := do
  let t ← gets (fun s => aim s g w acc va n l)
  match ← arrive g w acc t with
  | .fail f => pure (.fail f)
  | .wait m => pure (.wait m)
  | .stop => pure .stop
  | .ok (l', _) => do
    let tgt ← gets (fun s => targetOf s w.tier l')
    pure (.ok { orig := l.pa, tgt := tgt, n := n, leaf := l', hops := t.hops.reverse.map (fun h => h.out) })

/-- A copy in the hart's L1, or in its scalar cache, that a load of the leaf's address hits (R90, R91, R107): the L1 is
virtually tagged and passed by where the page's L1 bit is 0. -/
def cachedCopy (s : State) (g : Nat) (vec : Bool) (va : Nat) (l : Leaf) : Option CLine :=
  if l.bc ∨ (vec ∧ l.l1 = false) then none
  else
    match tabFind (if vec then (s.core (coreOf g)).l1 else (s.core (coreOf g)).scache) (l.pa / 128) with
    | some x => if x.va = va / 128 then some x else none
    | none => none

/-- A core without the copy of a line that a load of one of its sides has passed by: the side's later loads do not go back to it
(R170). -/
def Core.passed (k : Core) (vec : Bool) (line : Nat) : Core :=
  if vec then { k with l1 := tabDel k.l1 line } else { k with scache := tabDel k.scache line }

/-- A core holds a copy of a line that a load of the side could hit. -/
def Core.copyOf (k : Core) (vec : Bool) (line : Nat) : Bool :=
  if vec then (tabFind k.l1 line).isSome else (tabFind k.scache line).isSome

/-- Drop the copies that a load of a side passes by: of its own address's line and of the line it reached. -/
def passCopies (g : Nat) (vec : Bool) (orig line : Nat) : M Unit := do
  let k ← gets (fun s => s.core (coreOf g))
  whenM (k.copyOf vec orig || k.copyOf vec line) (upd (.core (coreOf g) ((k.passed vec orig).passed vec line)))

/-- The bytes of a settled piece, as the hart's cluster, a replica or a window gives them. A vector load fills the L1 where the page's
L1 bit is set (R89); a scalar load fills the scalar cache whatever that bit, as R91 says (log entry 73, DEDUCED). -/
def loadReady (g : Nat) (vec : Bool) (va : Nat) (r : Ready) : M Bits := do
  let s ← getState
  match r.tgt with
  | .line pa => do
    let ln := s.lineFor g pa
    touchLine g pa
    let line := pa / 128
    passCopies g vec (r.orig / 128) line
    whenM (r.hops.isEmpty && (!vec || r.leaf.l1) && !r.leaf.bc) (modCore (coreOf g) (fun k =>
      if vec then { k with l1 := tabPut k.l1 line { va := va / 128, data := ln } }
      else { k with scache := tabPut k.scache line { va := va / 128, data := ln } }))
    pure (bitsGet ln (8 * (pa % 128)) (8 * r.n))
  | .replica _ pa => pure (s.bytes pa r.n)
  | .window w off => pure (windowRead s w off r.n)
  | .copy vec' pa =>
    let k := s.core (coreOf g)
    match tabFind (if vec' then k.l1 else k.scache) (pa / 128) with
    | some x => pure (bitsGet x.data (8 * (pa % 128)) (8 * r.n))
    | none => pure (bitsGet (s.lineFor g pa) (8 * (pa % 128)) (8 * r.n))
  | .none => pure 0

/-- A write of a hart to a package on the fabric that its home has not acknowledged yet (R178). -/
def awaitAck (g peer : Nat) : M Unit := do
  let k ← freshId
  modHart g (fun h => { h with remote := tabPut h.remote k peer })

/-- Store a settled piece: take the line, write through to the home, update the core's copies of the line addressed and of
the line reached. -/
def storeReady (g : Nat) (vec : Bool) (r : Ready) (v : Bits) : M Unit := do
  match r.tgt with
  | .line pa => do
    takeLine g pa
    homeWrite pa r.n (v % 2 ^ (8 * r.n))
    keepReclaim pa r.n
    updateCopies g vec pa r.n v
    whenM (r.orig / 128 != pa / 128) (updateCopies g vec (r.orig / 128 * 128 + pa % 128) r.n v)
    let s ← getState
    whenM (pkgOf pa != s.pkg && s.lag.stores) (awaitAck g (pkgOf pa))
  | .window w off => windowWrite w off r.n v
  | _ => pure ()

/-! ### Releases and acquires (R172, R173) -/

/-- Scopes, narrowest first (R186). -/
def scopeTier : Nat := 2

/-- The release side at a scope: at tier or wider, the cluster's dirty bytes pass to their homes. -/
def releaseAt (g scope : Nat) : M Unit := whenM (decide (scopeTier ≤ scope)) (mergeCluster (clusterOf g))

/-- The acquire side at a scope: at cluster or wider the L1 empties; when later scalar accesses are ordered, at core or wider
the scalar cache empties. -/
def acquireAt (g scope : Nat) (laterScalar : Bool) : M Unit := do
  let k ← gets (fun s => s.core (coreOf g))
  let k' := { k with l1 := if 1 ≤ scope then [] else k.l1, scache := if laterScalar then [] else k.scache }
  whenM (k' != k) (upd (.core (coreOf g) k'))

/-! ### Posted writes (R398) -/

/-- The oldest completed write of a side, or of either, and the others in their order. -/
def takePosted (side : Option Bool) : List Posted → Option (Posted × List Posted)
  | [] => none
  | p :: ps =>
    if side.all (fun v => p.vec == v) then some (p, ps) else (takePosted side ps).map (fun r => (r.1, p :: r.2))

/-- The leaf that a completed write's own address was translated to. -/
def Posted.leaf (p : Posted) : Leaf := { pa := p.pa, line := 0, idx := 0, entry := 0, prog := false, big := false, held := true }

/-- Perform the oldest completed write of a hart, or of one of its sides, that waits: true when it is done or has failed, false when
it still waits. A forwarded address is translated at the hart's privilege and through its root as they stand then (log entry 74,
DEDUCED). A write that meets a link that is down stays unacknowledged (R178). -/
def postedStep (g : Nat) (side : Option Bool) : M Bool := do
  let h ← getHart g
  match takePosted side h.posted with
  | none => pure true
  | some (p, rest) =>
    if p.mig.isSome then pure false
    else do
      let w ← gets (fun s => s.walker g)
      match ← settle g w .store p.va.toNat p.size p.leaf with
      | .wait m => do
        whenM m.isSome (modHart g (fun h => { h with posted := h.posted.map (fun q => if q == p then { q with mig := m } else q) }))
        pure false
      | .stop => hartError g w.part
      | .ok r => do
        modHart g (fun h => { h with posted := rest })
        storeReady g p.vec r p.data
        pure true
      | .fail f => do
        modHart g (fun h => { h with posted := rest })
        if f.cause = .linkDown then awaitAck g f.aux
        else do
          let r ← ({ FRec.base f.cause g w.part with
            vec := p.vec, posted := true, pc := p.pc.toNat, addr := p.va.toNat, detail := f.detail, aux := f.aux,
            pages := f.page.toList } : FRec).apart
          postNotrap r
        pure true

/-- Perform completed writes of a hart, or of one of its sides, in their order; false when one still waits. -/
def flushPosted (g : Nat) (side : Option Bool) : Nat → M Bool
  | 0 => do pure (takePosted side (← getHart g).posted).isNone
  | fuel + 1 => do
    if (takePosted side (← getHart g).posted).isNone then pure true
    else if ← postedStep g side then flushPosted g side fuel else pure false

/-- Perform every completed write of a hart that waits; false when one still waits. -/
def flushHart (g : Nat) : M Bool := do flushPosted g none (← getHart g).posted.length

/-- Perform the completed writes of harts; false when one still waits. -/
def flushHarts : List Nat → M Bool
  | [] => pure true
  | g :: gs => do
    let a ← flushHart g
    let b ← flushHarts gs
    pure (a && b)

/-- A release drains the write buffer of its hart's core (R90). -/
def flushCore (g : Nat) : M Bool := do flushHarts (coreHarts (coreOf g))

/-- Perform them all, or end the step waiting. -/
def drainPosted (g : Nat) : M Unit := do
  if ← flushHart g then pure () else halt

end Sys2Proof.Machine
end

