-- ==== Sys2Proof/Machine/Cicada.lean ====
section
/-!
DEFINITION. Machine/Cicada.lean: the broadcast order of a tower (R105, R128, R147, R157, R176, R329) and the gang barrier it
carries (R320 to R323).
-/
namespace Sys2Proof.Machine

/-! ### Sequence numbers (R157) -/

/-- Number a precedes number b. -/
def seqBefore (a b : Nat) : Bool :=
  let d := (b + 2 ^ 48 - a % 2 ^ 48) % 2 ^ 48
  decide (1 ≤ d) && decide (d < 2 ^ 47)

/-- APPLIED has reached a target or follows it (R158). -/
def seqReached (applied target : Nat) : Bool := applied == target || seqBefore target applied

/-- The tiers of a tower. -/
def towerTiers (t : Nat) : List Nat := range' (12 * t) 12

/-! ### The gang barrier (R69, R320, R321) -/

/-- An episode with every counted member arrived completes; none does once a member is lost (R322). -/
def Barrier.episode (b : Barrier) : Barrier :=
  if b.st ≠ 2#2 ∧ b.arr = b.size ∧ b.size ≠ 0 then { b with arr := 0, epoch := b.epoch + 1 } else b

/-- What a barrier write does: an arrival, void once a member is lost; one member less (R240 step 6); a member lost (R32). -/
def Barrier.count (b : Barrier) : BKind → Barrier
  | .block .. => b
  | .arrive _ => if b.st = 2#2 then b else ({ b with arr := b.arr + 1 } : Barrier).episode
  | .lower _ => ({ b with size := b.size - 1 } : Barrier).episode
  | .broken _ => { b with st := 2 }

/-- The gang's barrier where its members lie on one tier, and as the gang was placed where they do not. -/
def Gang.barrier (x : Gang) : Barrier := { size := x.size, arr := x.arr, epoch := x.epoch, st := x.st }

/-- Change it. -/
def Gang.onBarrier (x : Gang) (f : Barrier → Barrier) : Gang :=
  let b := f x.barrier
  { x with size := b.size, arr := b.arr, epoch := b.epoch, st := b.st }

/-- The members do not all lie on one tier. -/
def Gang.spans (x : Gang) : Bool :=
  match x.members with
  | [] => false
  | m :: ms => ms.any (fun k => tierOf k != tierOf m)

/-- The barrier as a tier holds it (R321). -/
def Gang.seenFrom (x : Gang) (tier : Nat) : Barrier := if x.spans then (tabFind x.views tier).getD x.barrier else x.barrier

/-- Change the barrier as a tier holds it. -/
def Gang.onView (x : Gang) (tier : Nat) (f : Barrier → Barrier) : Gang :=
  match x.spans, tabFind x.views tier with
  | true, some b => { x with views := tabPut x.views tier (f b) }
  | true, none => if x.views.isEmpty then x.onBarrier f else x
  | false, _ => x.onBarrier f

/-- A gang that spans tiers has its barrier at each of them. -/
def Gang.withViews (x : Gang) : Gang :=
  if x.spans then { x with views := x.members.foldl (fun v k => tabPut v (tierOf k) x.barrier) [] } else x

/-! ### Transmit queues (R329) -/

/-- The hart that a write belongs to still waits for it to be transmitted: a hart that retires or is lost does not. -/
def BKind.owned : BKind → Bool
  | .block .. => true
  | .arrive .. => true
  | _ => false

/-- A hart's queued writes change by its own. -/
def countQueued (w : BWrite) (f : Hart → Hart) : M Unit :=
  whenM (w.what.owned && decide (w.hart < Config.numHarts)) (modHart w.hart f)

/-- Queue a broadcast write of hart g. False when the queue is full. -/
def queueWrite (g : Nat) (what : BKind) : M Bool := do
  let s ← getState
  let t := tierOf g
  let p := (s.hart g).partid.toNat
  let q := tabGet [] (s.tier t).tx p
  if Config.txDepth ≤ q.length then pure false
  else do
    modTier t (fun x => { x with tx := tabPut x.tx p (q ++ [{ hart := g, what := what }]) })
    countQueued { hart := g, what := what } (fun h => { h with bstQueued := h.bstQueued + 1 })
    pure true

/-- The gang whose barrier a write concerns. -/
def BKind.gang : BKind → Option Nat
  | .block .. => none
  | .arrive gg => some gg
  | .lower gg => some gg
  | .broken gg => some gg

/-- Count a barrier write at a tier (R321). -/
def countRecord (tier : Nat) (what : BKind) : M Unit :=
  match what.gang with
  | none => pure ()
  | some gg => modGang gg (fun x => x.onView tier (fun b => b.count what))

/-- The number of a transmission: the tower's next, or the one that a transmission of the same write whose CRC failed took (R157). -/
def numberFor (tower : Nat) (w : BWrite) : M Nat := do
  match w.num with
  | some n => pure n
  | none => do
    let n ← gets (fun s => (s.tower tower).seq)
    modTower tower (fun x => { x with seq := (n + 1) % 2 ^ 48 })
    pure n

/-- Replace a tier's transmit queue of a partition. -/
def setQueue (t p : Nat) (q : List BWrite) : M Unit :=
  modTier t (fun x => { x with tx := if q.isEmpty then tabDel x.tx p else tabPut x.tx p q })

/-- Transmit the write at the head of a tier's queue for a partition. One whose CRC fails is discarded by every receiver, keeps its
number and its place, and is transmitted again in a later slot of its owner (R110, R157). -/
def transmit (t p : Nat) (crcOk : Bool) : M Unit := do
  let tower := t / 12
  match tabGet [] (← gets (fun s => s.tier t)).tx p with
  | [] => pure ()
  | w :: rest => do
    let n ← numberFor tower w
    if crcOk then do
      setQueue t p rest
      modTower tower (fun x => { x with sent := tabPut x.sent n { w with num := none } })
      countQueued w (fun h => { h with
        bstQueued := h.bstQueued - 1
        barrierQ := h.barrierQ && w.what.gang.isNone
        bstNext := if w.what.gang.isNone then some ((n + 1) % 2 ^ 48) else h.bstNext })
    else do
      setQueue t p ({ w with num := some n } :: rest)
      eachM (towerTiers tower) (fun k => do
        let s ← getState
        whenM ((s.tier k).power == .awake) (modTier k (fun x => { x with crcdrop := min (x.crcdrop + 1) (2 ^ 32 - 1) })))

/-- The tier and partition that a slot carries in the frame under way, if any (R147). -/
def slotCarries (s : State) (tower slot : Nat) : Option (Nat × Nat) :=
  let x := s.tower tower
  let e := x.table.slots.getD slot 15
  let owner := bitsGet e.toNat 0 4
  let p := bitsGet e.toNat 6 6
  if 12 ≤ owner then none
  else if (s.tier (12 * tower + owner)).power = .awake then some (12 * tower + owner, p)
  else if e.toNat.testBit 4 then
    let t := 12 * tower + (slot + x.frame.toNat) % 12
    let holds := (range' (4 * t) 4).any (fun c => bitAt (s.part p).clusters c)
    if (s.tier t).power = .awake ∧ holds then some (t, p) else none
  else none

/-- A slot passes. -/
def slotPasses (tower slot : Nat) (crcOk : Bool) : M Unit := do
  match ← gets (fun s => slotCarries s tower slot) with
  | none => pure ()
  | some (t, p) => transmit t p crcOk

/-- A frame ends: the frame counter advances and a pending slot table takes effect (R146, R159). -/
def frameEnds (tower : Nat) : M Unit :=
  modTower tower (fun x => { x with frame := x.frame + 1, table := x.pending.getD x.table, pending := none })

/-- The queued writes of a hart that is discarded stay, but belong to no hart any more. -/
def disown (g : Nat) : M Unit := do
  modTier (tierOf g) (fun x => { x with
    tx := x.tx.map (fun e => (e.1, e.2.map (fun w => if w.hart = g then { w with hart := Config.numHarts } else w))) })

/-! ### Application (R329) -/

/-- A tier's own address of a broadcast block's byte. -/
def blockAddr (s : State) (tier index : Nat) : Nat :=
  s.physical (tier * Config.tierBytes + (s.tower (tier / 12)).table.bOff + 512 * index)

/-- Write the masked words of a block at an address. -/
def putWords (pa : Nat) (mask payload : Bits) : M Unit :=
  eachM (List.range 64) (fun k => whenM (bitAt mask k) (homeWrite (pa + 8 * k) 8 (bitsGet payload (64 * k) 64)))

/-- Apply a write to a tier's replica, or count it at the tier. -/
def applyWrite (tier : Nat) : BKind → M Unit
  | .block index mask payload => do
    let pa ← gets (fun s => blockAddr s tier index)
    putWords pa mask payload
  | what => countRecord tier what

/-- The number of the next write that a tier's receiver takes: past those in its wake log. -/
def Tier.next (x : Tier) : Nat := (x.applied + x.wlogged) % 2 ^ 48

/-- Forget transmitted writes that every receiver of the tower has taken. -/
def forgetTaken (tower : Nat) : M Unit := do
  let s ← getState
  let needed (n : Nat) : Bool := (towerTiers tower).any (fun t =>
    let x := s.tier t
    x.replica != .stale && !seqBefore n x.next)
  modTower tower (fun x => { x with sent := x.sent.filter (fun e => needed e.1) })

/-- The header and payload of a wake-log entry (R128, R329). -/
def logEntry (seq : Nat) : BKind → Bits
  | .block index mask payload => seq + index * 2 ^ 48 + mask * 2 ^ 64 + payload * 2 ^ 1024
  | _ => seq

/-- Append a write to a sleeping tier's wake log; the entry past the last discards the log (R128). -/
def logWrite (tier seq : Nat) (w : BKind) : M Unit := do
  let s ← getState
  let x := s.tier tier
  if Config.wlogDepth ≤ x.wlogged then
    modTier tier (fun x => { x with replica := .stale, wlogged := 0, wakeovf := min (x.wakeovf + 1) (2 ^ 32 - 1) })
  else do
    let off := (s.tower (tier / 12)).table.wlogs.getD (tier % 12) 0
    homeWrite (s.physical (tier * Config.tierBytes + off + 640 * x.wlogged)) 640 (logEntry seq w)
    modTier tier (fun x => { x with wlogged := x.wlogged + 1 })

/-- A tier's receiver takes the next transmitted write: into its replica, or into its wake log while the tier is not awake. -/
def takeNext (tier : Nat) (crcOk : Bool) : M Unit := do
  let s ← getState
  let x := s.tier tier
  match tabFind (s.tower (tier / 12)).sent x.next with
  | none => pure ()
  | some w =>
    if !crcOk then modTier tier (fun x => { x with crcdrop := min (x.crcdrop + 1) (2 ^ 32 - 1) })
    else do
      match x.replica with
      | .current => do
        applyWrite tier w.what
        modTier tier (fun x => { x with applied := (x.applied + 1) % 2 ^ 48 })
      | .logging => do
        countRecord tier w.what
        logWrite tier x.next w.what
      | .stale => pure ()
      forgetTaken (tier / 12)

/-- Replay a wake log's entries from the k-th on (R128). -/
def replayLog (tier : Nat) : Nat → Nat → M Unit
  | 0, _ => pure ()
  | n + 1, k => do
    let s ← getState
    let off := (s.tower (tier / 12)).table.wlogs.getD (tier % 12) 0
    let e := s.bytes (s.physical (tier * Config.tierBytes + off + 640 * k)) 640
    putWords (blockAddr s tier (bitsGet e 48 16)) (bitsGet e 64 64) (e / 2 ^ 1024)
    modTier tier (fun x => { x with applied := (x.applied + 1) % 2 ^ 48 })
    replayLog tier n (k + 1)

/-! ### The order moving of itself -/

/-- Every slot of the frame passes once. -/
def passSlots (tower : Nat) : List Nat → M Unit
  | [] => pure ()
  | k :: ks => do
    slotPasses tower k true
    passSlots tower ks

/-- Every receiver of the tower takes what was transmitted, up to a number of writes each. -/
def takeAll (tower : Nat) : Nat → M Unit
  | 0 => pure ()
  | n + 1 => do
    eachM (towerTiers tower) (fun t => takeNext t true)
    takeAll tower n

/-- Nothing is queued on a tower and nothing transmitted is still to be taken. -/
def cicadaIdle (s : State) (tower : Nat) : Bool :=
  (towerTiers tower).all (fun t => (s.tier t).tx.isEmpty) && (s.tower tower).sent.isEmpty

/-- Frames pass until the tower's order is idle. -/
def cicadaDrive (tower : Nat) : Nat → M Unit
  | 0 => pure ()
  | n + 1 => do
    if ← gets (fun s => cicadaIdle s tower) then pure ()
    else do
      passSlots tower (List.range 256)
      frameEnds tower
      takeAll tower (← gets (fun s => (s.tower tower).sent.length))
      cicadaDrive tower n

/-- The order moves of itself while nothing else says what moves next (log entry 1, DESIGN CHOICE). -/
def cicadaWaits (g : Nat) : M Unit := do
  let s ← getState
  whenM s.sched.isEmpty (cicadaDrive (towerOf g) Config.txDepth)

end Sys2Proof.Machine
end

