-- ==== Sys2Proof/Machine/Flags.lean ====
section
/-!
DEFINITION. Machine/Flags.lean: the exception flags of R52 and their trap enables (R67), and the integer arithmetic of R33
to R36, which sets none.
-/
namespace Sys2Proof.Machine

/-! ### Flags -/

/-- NV, an invalid operation. -/
def flNV : Nat := 1
/-- DZ, division of a finite nonzero value by zero. -/
def flDZ : Nat := 2
/-- OF, an overflow. -/
def flOF : Nat := 4
/-- UF, a tiny inexact result. -/
def flUF : Nat := 8
/-- NX, an inexact result. -/
def flNX : Nat := 16

/-- TEN of RMODE (R67). -/
def trapEnables (rmode : Word) : Nat := bitsGet rmode.toNat 3 5

/-- The lowest set bit of a set of flags that is enabled, if any. -/
def trappedFlag (flags ten : Nat) : Option Nat :=
  (List.range 5).find? (fun k => flags.testBit k && ten.testBit k)

/-- OR flags into FFLAGS (R52). -/
def Hart.orFlags (h : Hart) (flags : Nat) : Hart := { h with fflags := h.fflags ||| BitVec.ofNat 5 flags }

/-! ### Integers of width w, held as their low w bits -/

/-- Signed or natural value of an element. -/
def intOf (signed : Bool) (w x : Nat) : Int := if signed then signedOf w x else ((x % 2 ^ w : Nat) : Int)

/-- The least value of a format. -/
def intMin (signed : Bool) (w : Nat) : Int := if signed then -((2 ^ (w - 1) : Nat) : Int) else 0

/-- The greatest value of a format. -/
def intMax (signed : Bool) (w : Nat) : Int := if signed then ((2 ^ (w - 1) : Nat) : Int) - 1 else ((2 ^ w : Nat) : Int) - 1

/-- Clamp to a format's range (R34). -/
def clampTo (signed : Bool) (w : Nat) (x : Int) : Nat := wrapTo w (max (intMin signed w) (min (intMax signed w) x))

/-- The high half of a product (R34). -/
def mulHigh (signed : Bool) (w a b : Nat) : Nat := wrapTo w ((intOf signed w a * intOf signed w b) / ((2 ^ w : Nat) : Int))

/-- Quotient toward zero with the cases of R35. -/
def divQuot (signed : Bool) (w a b : Nat) : Nat :=
  if b % 2 ^ w = 0 then 2 ^ w - 1 else wrapTo w (Int.tdiv (intOf signed w a) (intOf signed w b))

/-- Remainder with the sign of the dividend, and the cases of R35. -/
def divRem (signed : Bool) (w a b : Nat) : Nat :=
  if b % 2 ^ w = 0 then a % 2 ^ w else wrapTo w (Int.tmod (intOf signed w a) (intOf signed w b))

/-- SLL of R36. -/
def shiftL (w a n : Nat) : Nat := if w ≤ n then 0 else (a <<< n) % 2 ^ w

/-- SRL of R36. -/
def shiftR (w a n : Nat) : Nat := if w ≤ n then 0 else (a % 2 ^ w) >>> n

/-- SRA of R36. -/
def shiftA (w a n : Nat) : Nat := wrapTo w (signedOf w a / ((2 ^ (min n w) : Nat) : Int))

/-- The lesser of two elements. -/
def intMinOf (signed : Bool) (w a b : Nat) : Nat := if intOf signed w a ≤ intOf signed w b then a else b

/-- The greater of two elements. -/
def intMaxOf (signed : Bool) (w a b : Nat) : Nat := if intOf signed w a ≤ intOf signed w b then b else a

end Sys2Proof.Machine
end

