-- ==== Sys2Proof/Machine/Float.lean ====
section
/-!
DEFINITION. Machine/Float.lean: the floating-point formats (R38 to R42), rounding in the six modes (R48, R49) and the exact
operations whose results are rounded once.

A value is held as sign, mantissa and exponent, exactly, or, with the sticky mark, as a number strictly between the
mantissa and the next one, at the given exponent. Operations that give sticky values give mantissas long enough for every
rounding of R48 and for the 24 bits of R49.
-/
namespace Sys2Proof.Machine

/-- A floating-point format (R38): width, mantissa width, bias, whether it has infinities, and its NaNs. -/
structure FFmt where
  w    : Nat
  m    : Nat
  bias : Nat
  inf  : Bool
  nan  : Bool
  deriving DecidableEq, Repr

/-- The format of a SUB code (R65, R38). -/
def fmtOfSub : Nat → FFmt
  | 0 => { w := 4, m := 1, bias := 1, inf := false, nan := false }
  | 1 => { w := 6, m := 3, bias := 1, inf := false, nan := false }
  | 2 => { w := 6, m := 2, bias := 3, inf := false, nan := false }
  | 3 => { w := 8, m := 3, bias := 7, inf := false, nan := true }
  | 4 => { w := 8, m := 2, bias := 15, inf := true, nan := true }
  | 5 => { w := 16, m := 10, bias := 15, inf := true, nan := true }
  | 6 => { w := 16, m := 7, bias := 127, inf := true, nan := true }
  | 7 => { w := 32, m := 23, bias := 127, inf := true, nan := true }
  | _ => { w := 64, m := 52, bias := 1023, inf := true, nan := true }

/-- .f32. -/
def f32 : FFmt := fmtOfSub 7
/-- .f64. -/
def f64 : FFmt := fmtOfSub 8

/-- Exponent field width. -/
def FFmt.e (f : FFmt) : Nat := f.w - 1 - f.m

/-- The magnitude code of the largest finite value. -/
def FFmt.maxCode (f : FFmt) : Nat :=
  if f.inf then (2 ^ f.e - 1) * 2 ^ f.m - 1 else if f.nan then 2 ^ (f.w - 1) - 2 else 2 ^ (f.w - 1) - 1

/-- The canonical NaN (R40); a format without NaN has none, and its code here is +0 (R41). -/
def FFmt.nanCode (f : FFmt) : Nat :=
  if f.inf then (2 ^ f.e - 1) * 2 ^ f.m + 2 ^ (f.m - 1) else if f.nan then 2 ^ (f.w - 1) - 1 else 0

/-- A value: NaN (signalling or not), infinity, or a finite or sticky number. -/
inductive FVal where
  | nan (sig : Bool)
  | inf (neg : Bool)
  | num (neg : Bool) (man : Nat) (exp : Int) (sticky : Bool)
  deriving DecidableEq, Repr

/-- Zero of a sign. -/
def FVal.zero (neg : Bool) : FVal := .num neg 0 0 false

/-- The value of a code (R38, R39). -/
def FFmt.decode (f : FFmt) (code : Nat) : FVal :=
  let c := code % 2 ^ f.w
  let neg := c.testBit (f.w - 1)
  let mag := c % 2 ^ (f.w - 1)
  let ef := mag / 2 ^ f.m
  let mf := mag % 2 ^ f.m
  if f.inf ∧ ef = 2 ^ f.e - 1 then
    if mf = 0 then .inf neg else .nan (!(mf.testBit (f.m - 1)))
  else if !f.inf ∧ f.nan ∧ mag = 2 ^ (f.w - 1) - 1 then .nan false
  else if ef = 0 then .num neg mf (1 - (f.bias : Int) - f.m) false
  else .num neg (2 ^ f.m + mf) ((ef : Int) - f.bias - f.m) false

/-- Rounding modes (R48). -/
def mRNE : Nat := 0
def mRNA : Nat := 1
def mRTZ : Nat := 2
def mRUP : Nat := 3
def mRDN : Nat := 4
def mSR : Nat := 5

/-- How a rounding is done: the mode, and the 24-bit number of R49. -/
structure Rnd where
  mode : Nat
  r    : Nat
  deriving DecidableEq, Repr

/-- RNE. -/
def rne : Rnd := { mode := mRNE, r := 0 }

/-- The generator of R49. -/
def srNumber (seed i n : Nat) : Nat :=
  let h := (seed * 2 ^ 32 + n * 2 ^ 24 + i) % 2 ^ 64
  let h := ((h ^^^ (h >>> 30)) * 0xBF58476D1CE4E5B9) % 2 ^ 64
  let h := ((h ^^^ (h >>> 27)) * 0x94D049BB133111EB) % 2 ^ 64
  let h := h ^^^ (h >>> 31)
  bitsGet h 40 24

/-- A mode with its seed: gives the rounding of element i, ordinal n. -/
structure Mode where
  mode : Nat
  seed : Nat
  deriving DecidableEq, Repr

/-- The rounding for the inputs i and n of R49. -/
def Mode.at (c : Mode) (i n : Nat) : Rnd := { mode := c.mode, r := if c.mode = mSR then srNumber c.seed i n else 0 }

/-- Round a magnitude man (with sticky) down or up after dropping sh bits: the kept integer, and whether anything was lost. -/
def roundShift (rd : Rnd) (neg : Bool) (man sh : Nat) (sticky : Bool) : Nat × Bool :=
  let n := man >>> sh
  let rem := man % 2 ^ sh
  let lost := decide (rem ≠ 0) || sticky
  let half := 2 ^ sh / 2
  let above := decide (half < rem) || (decide (rem = half) && sticky && decide (sh ≠ 0))
  let tie := decide (rem = half) && !sticky && decide (sh ≠ 0)
  let up :=
    match rd.mode with
    | 0 => above || (tie && decide (n % 2 = 1))
    | 1 => above || tie
    | 2 => false
    | 3 => lost && !neg
    | 4 => lost && neg
    | _ => lost && decide (2 ^ 24 ≤ (rem * 2 ^ 24) >>> sh + rd.r)
  (if up then n + 1 else n, lost)

/-- Round at quantum 2^q: the integer multiple, and whether anything was lost. -/
def roundAt (rd : Rnd) (neg : Bool) (man : Nat) (exp q : Int) (sticky : Bool) : Nat × Bool :=
  if q ≤ exp then (man * 2 ^ (exp - q).toNat, sticky) else roundShift rd neg man (q - exp).toNat sticky

/-- The sign bit of a code. -/
def FFmt.signed (f : FFmt) (neg : Bool) (mag : Nat) : Nat := if neg then 2 ^ (f.w - 1) + mag else mag

/-- What an overflow gives (R41). -/
def FFmt.overflow (f : FFmt) (rd : Rnd) (neg : Bool) : Nat :=
  let toInf : Bool := match rd.mode with
    | 2 => false
    | 3 => !neg
    | 4 => neg
    | _ => true
  if f.inf && toInf then f.signed neg (f.maxCode + 1) else f.signed neg f.maxCode

/-- Round a number into a format: the code and the flags (R39, R41, R48, R49). -/
def FFmt.round (f : FFmt) (rd : Rnd) (neg : Bool) (man : Nat) (exp : Int) (sticky : Bool) : Nat × Nat :=
  if man = 0 ∧ sticky = false then (f.signed neg 0, 0)
  else
    let top : Int := exp + (Nat.log2 man : Int)
    let emin : Int := 1 - (f.bias : Int)
    let ex := max top emin
    let (n, lost) := roundAt rd neg man exp (ex - f.m) sticky
    let mag := ((ex - emin).toNat) * 2 ^ f.m + n
    if f.maxCode < mag then (f.overflow rd neg, flOF + flNX)
    else
      let tiny := decide (top < emin) &&
        (let u := (roundAt rd neg man exp (top - f.m) sticky).1
         !(decide (u = 2 ^ (f.m + 1)) && decide (top + 1 = emin)))
      (f.signed neg mag, (if lost then flNX else 0) + (if lost ∧ tiny then flUF else 0))

/-- Write a value into a format (R40, R41). -/
def FFmt.encode (f : FFmt) (rd : Rnd) : FVal → Nat × Nat
  | .nan _ => (f.nanCode, if f.nan then 0 else flNV)
  | .inf neg => if f.inf then (f.signed neg (f.maxCode + 1), 0) else (f.signed neg f.maxCode, flNV)
  | .num neg man exp sticky => f.round rd neg man exp sticky

/-- A value with the flags its operation set before rounding. -/
structure Ex where
  val   : FVal
  flags : Nat
  deriving DecidableEq, Repr

/-- Round an operation's result: the code and all its flags. -/
def FFmt.finish (f : FFmt) (rd : Rnd) (x : Ex) : Nat × Nat :=
  let (c, fl) := f.encode rd x.val
  (c, fl ||| x.flags)

/-- An exact number. -/
def exact (v : FVal) : Ex := { val := v, flags := 0 }

/-- An invalid operation: NaN and NV. -/
def invalid : Ex := { val := .nan false, flags := flNV }

/-- The flag of a signalling operand (R40). -/
def sigFlag : FVal → Nat
  | .nan true => flNV
  | _ => 0

/-- An integer as a value. -/
def ofInt (x : Int) : FVal := .num (decide (x < 0)) x.natAbs 0 false

/-- Change the sign. -/
def FVal.neg : FVal → FVal
  | .nan s => .nan s
  | .inf n => .inf (!n)
  | .num n m e s => .num (!n) m e s

/-- Signed mantissa at a common exponent. -/
def sman (neg : Bool) (man : Nat) (exp e : Int) : Int :=
  let x : Int := ((man * 2 ^ (exp - e).toNat : Nat) : Int)
  if neg then -x else x

/-- The sum of two exact numbers; an exact zero of opposite signs is +0, or -0 when down (R48). -/
def addNum (down : Bool) (n1 : Bool) (m1 : Nat) (e1 : Int) (n2 : Bool) (m2 : Nat) (e2 : Int) : FVal :=
  let e := min e1 e2
  let s := sman n1 m1 e1 e + sman n2 m2 e2 e
  if s = 0 then .zero (if n1 = n2 then n1 else down) else .num (decide (s < 0)) s.natAbs e false

/-- Addition (R40, R48). -/
def fAdd (down : Bool) : FVal → FVal → Ex
  | .nan s, b => { val := .nan false, flags := if s then flNV else sigFlag b }
  | a, .nan s => { val := .nan false, flags := if s then flNV else sigFlag a }
  | .inf n1, .inf n2 => if n1 = n2 then exact (.inf n1) else invalid
  | .inf n, _ => exact (.inf n)
  | _, .inf n => exact (.inf n)
  | .num n1 m1 e1 _, .num n2 m2 e2 _ => exact (addNum down n1 m1 e1 n2 m2 e2)

/-- Multiplication. -/
def fMul : FVal → FVal → Ex
  | .nan s, b => { val := .nan false, flags := if s then flNV else sigFlag b }
  | a, .nan s => { val := .nan false, flags := if s then flNV else sigFlag a }
  | .inf n1, .inf n2 => exact (.inf (n1 != n2))
  | .inf n1, .num n2 m _ _ => if m = 0 then invalid else exact (.inf (n1 != n2))
  | .num n1 m _ _, .inf n2 => if m = 0 then invalid else exact (.inf (n1 != n2))
  | .num n1 m1 e1 _, .num n2 m2 e2 _ => exact (.num (n1 != n2) (m1 * m2) (e1 + e2) false)

/-- a × b + c, rounded nowhere: infinity times zero is invalid even beside a quiet NaN addend (R228). -/
def fMulAdd (down : Bool) (a b c : FVal) : Ex :=
  let p := fMul a b
  match a, b with
  | .nan _, _ | _, .nan _ => { val := .nan false, flags := p.flags ||| sigFlag c }
  | _, _ =>
    let s := fAdd down p.val c
    { s with flags := s.flags ||| p.flags }

/-- Division (R228): x over zero gives infinity and DZ. -/
def fDiv : FVal → FVal → Ex
  | .nan s, b => { val := .nan false, flags := if s then flNV else sigFlag b }
  | a, .nan s => { val := .nan false, flags := if s then flNV else sigFlag a }
  | .inf _, .inf _ => invalid
  | .inf n1, .num n2 _ _ _ => exact (.inf (n1 != n2))
  | .num n1 _ _ _, .inf n2 => exact (.zero (n1 != n2))
  | .num n1 m1 e1 _, .num n2 m2 e2 _ =>
    if m2 = 0 then
      if m1 = 0 then invalid else { val := .inf (n1 != n2), flags := flDZ }
    else if m1 = 0 then exact (.zero (n1 != n2))
    else
      let k := 160 + Nat.log2 m2
      let q := m1 * 2 ^ k / m2
      exact (.num (n1 != n2) q (e1 - e2 - k) (decide (m1 * 2 ^ k % m2 ≠ 0)))

/-- Integer square root, bit by bit from bit k down. -/
def isqrtFrom : Nat → Nat → Nat → Nat
  | 0, r, x => if (r + 1) * (r + 1) ≤ x then r + 1 else r
  | k + 1, r, x =>
    let r' := r + 2 ^ (k + 1)
    isqrtFrom k (if r' * r' ≤ x then r' else r) x

/-- Integer square root. -/
def isqrt (x : Nat) : Nat := isqrtFrom (Nat.log2 x / 2 + 1) 0 x

/-- The square root of a positive number, with at least 128 bits. -/
def sqrtNum (man : Nat) (exp : Int) : FVal :=
  let k : Nat := 320 + (if (exp % 2 = 0) then 0 else 1)
  let x := man * 2 ^ k
  let r := isqrt x
  .num false r ((exp - k) / 2) (decide (r * r ≠ x))

/-- Square root (R228): -0 gives -0, a negative nonzero value NaN and NV. -/
def fSqrt : FVal → Ex
  | .nan s => { val := .nan false, flags := if s then flNV else 0 }
  | .inf n => if n then invalid else exact (.inf false)
  | .num n m e _ => if m = 0 then exact (.zero n) else if n then invalid else exact (sqrtNum m e)

/-- Numerical order of two numbers: less, equal or greater, on exact values. -/
def cmpNum (n1 : Bool) (m1 : Nat) (e1 : Int) (n2 : Bool) (m2 : Nat) (e2 : Int) : Ordering :=
  let e := min e1 e2
  compare (sman n1 m1 e1 e) (sman n2 m2 e2 e)

/-- Comparison of two values; none when one is NaN (R229). -/
def fCmp : FVal → FVal → Option Ordering
  | .nan _, _ | _, .nan _ => none
  | .inf n1, .inf n2 => some (if n1 = n2 then .eq else if n1 then .lt else .gt)
  | .inf n, _ => some (if n then .lt else .gt)
  | _, .inf n => some (if n then .gt else .lt)
  | .num n1 m1 e1 _, .num n2 m2 e2 _ => some (cmpNum n1 m1 e1 n2 m2 e2)

/-- The sign of a value. -/
def FVal.isNeg : FVal → Bool
  | .nan _ => false
  | .inf n => n
  | .num n _ _ _ => n

/-- a is ordered below b, with -0 below +0 (R40). -/
def belowForMin (a b : FVal) : Bool :=
  match fCmp a b with
  | some .lt => true
  | some .eq => a.isNeg && !b.isNeg
  | _ => false

/-- FMIN and FMAX on codes (R40): the code of the result and its flags. -/
def fMinMax (f : FFmt) (wantMax : Bool) (ca cb : Nat) : Nat × Nat :=
  let a := f.decode ca
  let b := f.decode cb
  let fl := sigFlag a ||| sigFlag b
  match a, b with
  | .nan _, .nan _ => (f.nanCode, fl)
  | .nan _, _ => (cb % 2 ^ f.w, fl)
  | _, .nan _ => (ca % 2 ^ f.w, fl)
  | _, _ =>
    let takeB := if wantMax then belowForMin a b else belowForMin b a
    ((if takeB then cb else ca) % 2 ^ f.w, fl)

/-- EQ, LT, LE and UN on codes (R229): the truth and the flags. -/
def fCompare (f : FFmt) (cond ca cb : Nat) : Bool × Nat :=
  let a := f.decode ca
  let b := f.decode cb
  let sig := sigFlag a ||| sigFlag b
  match fCmp a b with
  | none => (decide (cond = 3), if cond = 1 ∨ cond = 2 then flNV else sig)
  | some o =>
    (match cond with
     | 0 => o == .eq
     | 1 => o == .lt
     | 2 => o != .gt
     | _ => false, 0)

/-- The class mask of R229. -/
def fClass (f : FFmt) (code : Nat) : Nat :=
  let c := code % 2 ^ f.w
  let mag := c % 2 ^ (f.w - 1)
  match f.decode c with
  | .nan s => if s then 2 ^ 9 else 2 ^ 8
  | .inf n => if n then 2 ^ 7 else 2 ^ 3
  | .num n m _ _ =>
    let k := if m = 0 then 0 else if mag < 2 ^ f.m then 1 else 2
    2 ^ (if n then 4 + k else k)

/-- Conversion to an integer format (R42): the low w bits and the flags. -/
def toIntFmt (rd : Rnd) (signed : Bool) (w : Nat) : FVal → Nat × Nat
  | .nan _ => (0, flNV)
  | .inf n => (wrapTo w (if n then intMin signed w else intMax signed w), flNV)
  | .num n man exp sticky =>
    let (k, lost) := roundAt rd n man exp 0 sticky
    let v : Int := if n then -(k : Int) else k
    if v < intMin signed w then (wrapTo w (intMin signed w), flNV)
    else if intMax signed w < v then (wrapTo w (intMax signed w), flNV)
    else (wrapTo w v, if lost then flNX else 0)

/-! ### The elementary functions of R252: fixed-point series with 2^-400 units, results sticky -/

/-- Bits below the point of the series. -/
def fxP : Nat := 400

/-- The Taylor series of e^y from term k on, for 0 ≤ y < 1 in fixed point. -/
def expSeries : Nat → Nat → Nat → Nat → Nat
  | 0, _, _, _ => 0
  | fuel + 1, k, term, y => term + expSeries fuel (k + 1) (term * y / 2 ^ fxP / k) y

/-- e^y in fixed point. -/
def expFx (y : Nat) : Nat := expSeries 90 1 (2 ^ fxP) y

/-- The series z + z^3/3 + z^5/5 + … in fixed point, from the odd number k on. -/
def atanhSeries : Nat → Nat → Nat → Nat → Nat
  | 0, _, _, _ => 0
  | fuel + 1, k, p, z2 => p / k + atanhSeries fuel (k + 2) (p * z2 / 2 ^ fxP) z2

/-- ln m for 1 ≤ m ≤ 2 in fixed point: twice the series at (m - 1)/(m + 1). -/
def lnFx (m : Nat) : Nat :=
  let z := (m - 2 ^ fxP) * 2 ^ fxP / (m + 2 ^ fxP)
  2 * atanhSeries 140 1 z (z * z / 2 ^ fxP)

/-- ln 2 in fixed point. -/
def ln2Fx : Nat := lnFx (2 * 2 ^ fxP)

/-- A fixed-point result whose last 64 bits carry the series' error, as a sticky number times 2^e. -/
def fxNum (neg : Bool) (x : Nat) (e : Int) : FVal := .num neg (x / 2 ^ 64) (e + 64 - fxP) true

/-- 2^x for a number. -/
def exp2Num (neg : Bool) (man : Nat) (exp : Int) : FVal :=
  if man = 0 then .num false 1 0 false
  else if 13 ≤ exp + (Nat.log2 man : Int) then .num false (2 ^ 200) (if neg then -9000 else 9000) true
  else if 0 ≤ exp then
    let k : Int := (man * 2 ^ exp.toNat : Nat)
    .num false 1 (if neg then -k else k) false
  else
    let sh := (-exp).toNat
    let x : Int := if neg then -(man : Int) else man
    let k := x / ((2 ^ sh : Nat) : Int)
    let fr := (x % ((2 ^ sh : Nat) : Int)).toNat
    if fr = 0 then .num false 1 k false
    else fxNum false (expFx (fr * 2 ^ fxP / 2 ^ sh * ln2Fx / 2 ^ fxP)) k

/-- log2 of a positive number. -/
def log2Num (man : Nat) (exp : Int) : FVal :=
  let l := Nat.log2 man
  let e : Int := exp + l
  if man = 2 ^ l then ofInt e
  else
    let fx : Int := (lnFx (man * 2 ^ fxP / 2 ^ l) * 2 ^ fxP / ln2Fx : Nat)
    let y : Int := e * ((2 ^ fxP : Nat) : Int) + fx
    fxNum (decide (y < 0)) y.natAbs 0

/-- tanh of a nonzero number. -/
def tanhNum (neg : Bool) (man : Nat) (exp : Int) : FVal :=
  let top := exp + (Nat.log2 man : Int)
  if top < -120 then .num neg (man * 2 ^ 200 - 1) (exp - 200) true
  else if 8 ≤ top then .num neg (2 ^ 240 - 1) (-240) true
  else
    let y := if 0 ≤ exp + 1 then man * 2 ^ (exp + 1).toNat * 2 ^ fxP else man * 2 ^ fxP / 2 ^ (-(exp + 1)).toNat
    let k := y / ln2Fx
    let t := expFx (y % ln2Fx) * 2 ^ k
    fxNum neg ((t - 2 ^ fxP) * 2 ^ fxP / (t + 2 ^ fxP)) 0

end Sys2Proof.Machine
end

