-- ==== Sys2Proof/Machine/Operands.lean ====
section
/-!
DEFINITION. Machine/Operands.lean: the operand forms of the vector side. Type codes and VTYPE's fields (R65), register size
and MVL (R18, R75, R76), elements in the packed and transposed layouts (R45, R46), masks and scale codes, and the context in
which a vector-queue entry performs (R123, R242).
-/
namespace Sys2Proof.Machine

/-! ### Type codes -/

/-- Width of a type code's elements (R33, R38). -/
def codeWidth (t : BitVec 8) : Nat :=
  match codeClass t with
  | 0 | 4 => 8
  | 1 | 5 => 16
  | 2 | 6 => 32
  | 3 | 7 => 64
  | 8 | 9 => codeSub t + 1
  | 10 => 1
  | _ => (fmtOfSub (codeSub t)).w

/-- The code names a signed integer (R247). -/
def codeSigned (t : BitVec 8) : Bool := decide (codeClass t ≤ 3) || codeClass t == 8

/-- The code names a floating-point format. -/
def codeFloat (t : BitVec 8) : Bool := codeClass t == 11

/-- The format of a floating-point code. -/
def codeFmt (t : BitVec 8) : FFmt := fmtOfSub (codeSub t)

/-- The code's registers are bit planes (R46). -/
def codeTransposed (t : BitVec 8) : Bool := codeNarrow t

/-- Bytes an element occupies in memory (R268). -/
def codeBytes (t : BitVec 8) : Nat :=
  if codeClass t = 11 ∧ codeSub t ≤ 4 then 1 else if codeWidth t ≤ 8 then 1 else codeWidth t / 8 + (if codeWidth t % 8 = 0 then 0 else 1)

/-- The type code of a packed unsigned integer of the given width. -/
def natCode (w : Nat) : BitVec 8 :=
  if w = 8 then 4#8 else if w = 16 then 5#8 else if w = 32 then 6#8 else 7#8

/-! ### VTYPE (R65) -/

/-- The format code of a VTYPE. -/
def vtCode (v : Word) : BitVec 8 := v.extractLsb' 0 8
/-- The group size. -/
def vtGroup (v : Word) : Nat := 2 ^ (v.extractLsb' 8 2).toNat
/-- The block size B. -/
def vtBlock (v : Word) : Nat := if (v.extractLsb' 10 1) = 1#1 then 32 else 16
/-- The scale format is E4M3. -/
def vtE4m3 (v : Word) : Bool := v.extractLsb' 11 1 == 1#1
/-- VILL. -/
def vtIll (v : Word) : Bool := v.extractLsb' 15 1 == 1#1

/-! ### Register size and MVL -/

/-- Largest power of two at or below n. -/
def pow2Below (n : Nat) : Nat := if n = 0 then 0 else 2 ^ Nat.log2 n

/-- MVL for register size S, width w and group g (R76). -/
def mvlOf (S w g : Nat) : Nat :=
  if 17 ≤ w then S * 8 * g / w else g * pow2Below (pow2Below S * 8 / w)

/-- P: elements of one register (R45, R46). -/
def perReg (S w : Nat) : Nat := mvlOf S w 1

/-- MVLmax (R59). -/
def mvlMax (S : Nat) : Nat := mvlOf S 1 8

/-- Named vector registers (R68). -/
def Hart.named (h : Hart) : Nat := 8 * 2 ^ (h.vcfg.extractLsb' 0 2).toNat
/-- Register-file banks (R68). -/
def Hart.banks (h : Hart) : Nat := 16 * 2 ^ (h.vcfg.extractLsb' 2 2).toNat

/-- Set bits of a mask of lane groups. -/
def popcount8 (b : BitVec 8) : Nat := ((List.range 8).filter (fun i => b.toNat.testBit i)).length

/-- A hart's effective register size (R18, R75, R346). -/
def effSize (h : Hart) (k : Core) : Nat :=
  match h.sFix with
  | some n => n
  | none => min (h.banks * popcount8 k.lglive * 1024 / h.named) h.capNow

/-- The least of a list of sizes, from a first one. -/
def leastOf (n : Nat) (l : List Nat) : Nat := l.foldl min n

/-- The harts of the members that have not retired. -/
def Gang.standing (x : Gang) : List Nat :=
  ((List.range x.members.length).filter (fun i => !x.retired.contains i)).map (fun i => x.members.getD i 0)

/-- SG of a hart (R18): the least effective size of its gang's members, the retired ones included, or its own. -/
def State.sg (s : State) (g : Nat) : Nat :=
  let own := effSize (s.hart g) (s.core (coreOf g))
  match (s.hart g).place with
  | none => own
  | some p =>
    match tabFind s.gangs p.gang with
    | none => own
    | some gg => leastOf own ((gg.standing.map (fun m => effSize (s.hart m) (s.core (coreOf m)))) ++ gg.sRet)

/-- MVL as CSR 0x401 gives it: for VTYPE's format and group as it stands, from SG. -/
def State.mvl (s : State) (g : Nat) : Nat :=
  let h := s.hart g
  mvlOf (s.sg g) (codeWidth (vtCode h.vtype)) (vtGroup h.vtype)

/-! ### Elements -/

/-- Gather the planes of element i of a transposed register: w bits, P apart. -/
def planesGet (v : Bits) (P i : Nat) : Nat → Nat
  | 0 => 0
  | w + 1 => (if v.testBit i then 1 else 0) + 2 * planesGet v P (i + P) w

/-- Write the planes of element i. -/
def planesSet (v : Bits) (P i : Nat) : Nat → Nat → Bits
  | 0, _ => v
  | w + 1, x => planesSet (bitPut v i (x % 2 = 1)) P (i + P) w (x / 2)

/-- Element i of a register's bits in a format (R45, R46). -/
def elemGet (S : Nat) (t : BitVec 8) (v : Bits) (i : Nat) : Nat :=
  if codeTransposed t then planesGet v (perReg S (codeWidth t)) i (codeWidth t)
  else bitsGet v (codeWidth t * i) (codeWidth t)

/-- Replace element i of a register's bits. -/
def elemSet (S : Nat) (t : BitVec 8) (v : Bits) (i x : Nat) : Bits :=
  if codeTransposed t then planesSet v (perReg S (codeWidth t)) i (codeWidth t) x
  else bitsSet v (codeWidth t * i) (codeWidth t) x

/-- A vector register's bits; the number is below 32 in every use. -/
def Hart.vreg (h : Hart) (r : Nat) : Bits := h.v[r % 32]'(Nat.mod_lt _ (by decide))

/-- Replace a vector register. -/
def Hart.setVreg (h : Hart) (r : Nat) (x : Bits) : Hart := { h with v := h.v.set (r % 32) x (Nat.mod_lt _ (by decide)) }

/-- Element i of the group that starts at register b (R45, R46). -/
def Hart.vget (h : Hart) (t : BitVec 8) (b i : Nat) : Nat :=
  let P := perReg h.lay (codeWidth t)
  elemGet h.lay t (h.vreg (b + i / P)) (i % P)

/-- Write element i of the group that starts at register b. -/
def Hart.vput (h : Hart) (t : BitVec 8) (b i x : Nat) : Hart :=
  let P := perReg h.lay (codeWidth t)
  h.setVreg (b + i / P) (elemSet h.lay t (h.vreg (b + i / P)) (i % P) x)

/-- Zero the bits at and above w × P of a transposed group of n registers (R46, R242). -/
def Hart.trim (h : Hart) (t : BitVec 8) (b : Nat) : Nat → Hart
  | 0 => h
  | n + 1 =>
    if codeTransposed t then
      (h.setVreg (b + n) (h.vreg (b + n) % 2 ^ (codeWidth t * perReg h.lay (codeWidth t)))).trim t b n
    else h

/-- A mask register. -/
def Hart.mreg (h : Hart) (r : Nat) : Bits := h.m[r % 12]'(Nat.mod_lt _ (by decide))

/-- Replace a mask register. -/
def Hart.setMreg (h : Hart) (r : Nat) (x : Bits) : Hart := { h with m := h.m.set (r % 12) x (Nat.mod_lt _ (by decide)) }

/-- Write one mask bit. -/
def Hart.mput (h : Hart) (r i : Nat) (b : Bool) : Hart := h.setMreg r (bitPut (h.mreg r) i b)

/-- A scale register. -/
def Hart.wreg (h : Hart) (r : Nat) : Bits := h.w[r % 8]'(Nat.mod_lt _ (by decide))

/-- Replace a scale register. -/
def Hart.setWreg (h : Hart) (r : Nat) (x : Bits) : Hart := { h with w := h.w.set (r % 8) x (Nat.mod_lt _ (by decide)) }

/-- Scale code j of a scale register (R43). -/
def Hart.wget (h : Hart) (r j : Nat) : Nat := bitsGet (h.wreg r) (8 * j) 8

/-- Write scale code j. -/
def Hart.wput (h : Hart) (r j x : Nat) : Hart := h.setWreg r (bitsSet (h.wreg r) (8 * j) 8 x)

/-- Scale codes a scale register holds (R59). -/
def Hart.wCodes (h : Hart) : Nat := mvlMax h.lay / 16

/-! ### What an instruction is to the queue -/

/-- A vector operand: register, group size, and the width of its elements. -/
structure VOperand where
  reg   : Nat
  group : Nat
  width : Nat
  deriving DecidableEq, Repr

/-- What a vector-side instruction is to the queue, under the VTYPE it would capture: whether it takes anything from VTYPE,
whether it accepts what VTYPE holds, its vector sources and destinations, the x registers it captures, the x register it
fills, whether it is a whole-instruction one (R243), and whether it takes a seed (R50, R66, R123, R187); names lists
vector registers that it names without reading or writing them. -/
structure VOp where
  typed  : Bool
  ok     : Bool
  whole  : Bool
  srcs   : List VOperand
  dsts   : List VOperand
  opa    : Option (BitVec 5)
  opb    : Option (BitVec 5)
  xd     : Option (BitVec 5)
  rounds : Bool
  names  : List VOperand
  deriving DecidableEq, Repr

/-- Instructions that can change VL on the vector side (R62). -/
def changesVl : Instr → Bool
  | .mpopVl .. => true
  | .vldff .. => true
  | .vlxff .. => true
  | .vxlateff .. => true
  | .fwdresff .. => true
  | _ => false

/-- An operand lies inside the named registers and starts on its group size (R60, R183). -/
def VOperand.legal (o : VOperand) (named : Nat) : Bool :=
  decide (o.reg % o.group = 0) && decide (o.reg + o.group ≤ named)

/-- An operand's registers include r. -/
def VOperand.covers (o : VOperand) (r : Nat) : Bool := decide (o.reg ≤ r) && decide (r < o.reg + o.group)

/-! ### The entry in performance -/

/-- The context in which the oldest entry of hart g's queue performs: the entry, the limit below which its elements perform
(VL, or the group a breakpoint stops at, or that its items do not reach yet), the breakpoints that stop it there, the items that
stand for stream registers, the elements they cover (R325), and whether the entry waits at the limit for the rest of an item. -/
structure VCtx where
  g     : Nat
  e     : VEntry
  lim   : Nat
  bps   : List Nat
  items : List (Nat × Bits)
  cover : Nat
  more  : Bool := false
  deriving DecidableEq, Repr

namespace VCtx

/-- The captured format code. -/
def code (c : VCtx) : BitVec 8 := vtCode c.e.vtype
/-- The captured group. -/
def grp (c : VCtx) : Nat := vtGroup c.e.vtype
/-- The width of the captured format. -/
def w (c : VCtx) : Nat := codeWidth c.code
/-- VL. -/
def vl (c : VCtx) : Nat := c.e.vl.toNat
/-- VSTART. -/
def start (c : VCtx) : Nat := c.e.vstart.toNat
/-- The captured rounding mode. -/
def mode (c : VCtx) : Mode := { mode := c.e.mode.toNat, seed := c.e.seed.toNat }
/-- The captured mode rounds down. -/
def down (c : VCtx) : Bool := c.e.mode.toNat == mRDN

/-- Elements from VSTART up to the limit. -/
def elems (c : VCtx) : List Nat := range' c.start (c.lim - c.start)

/-- Every element below VL. -/
def all (c : VCtx) : List Nat := List.range c.vl

/-- Mask field m selects element i: unmasked, or its bit; streams switch off what their item does not cover (R242, R325). -/
def on (c : VCtx) (h : Hart) (m : BitVec 4) (i : Nat) : Bool :=
  (m == 12#4 || (h.mreg m.toNat).testBit i) && decide (i < c.cover)

/-- A source register's bits: the item, where the register is a stream's name. -/
def vreg (c : VCtx) (h : Hart) (r : Nat) : Bits := (c.items.lookup r).getD (h.vreg r)

/-- Source element i of the group at register b in a format. -/
def get (c : VCtx) (h : Hart) (t : BitVec 8) (b : BitVec 5) (i : Nat) : Nat :=
  let P := perReg h.lay (codeWidth t)
  elemGet h.lay t (c.vreg h (b.toNat + i / P)) (i % P)

/-- Source element i in the captured format. -/
def src (c : VCtx) (h : Hart) (b : BitVec 5) (i : Nat) : Nat := c.get h c.code b i

/-- OPB as an element of the captured format. -/
def scalarB (c : VCtx) : Nat := c.e.opb.toNat % 2 ^ c.w
/-- OPA as an element of the captured format. -/
def scalarA (c : VCtx) : Nat := c.e.opa.toNat % 2 ^ c.w

/-- Elements of one element group: 512 in a bit-plane format, 64 bytes of elements in a packed one (R5, R46). -/
def groupOf (t : BitVec 8) : Nat := if codeTransposed t then 512 else 512 / codeWidth t

end VCtx

end Sys2Proof.Machine
end

