-- ==== Sys2Proof/Machine/Convert.lean ====
section
/-!
DEFINITION. Machine/Convert.lean: values of element codes and the conversions between formats (R37, R41, R42, R253), scale
codes (R43, R44) and the narrowing quotient (R55).
-/
namespace Sys2Proof.Machine

/-- The value of an element code in a format (R33, R37, R38). -/
def valueOf (t : BitVec 8) (x : Nat) : FVal :=
  if codeFloat t then (codeFmt t).decode x
  else if codeB1 t then (if x % 2 = 1 then ofInt 1 else ofInt (-1))
  else ofInt (intOf (codeSigned t) (codeWidth t) x)

/-- Write a value into a format: the code and the flags (R37, R41, R42). -/
def writeAs (t : BitVec 8) (rd : Rnd) (x : Ex) : Nat × Nat :=
  if codeFloat t then (codeFmt t).finish rd x
  else if codeB1 t then
    match x.val with
    | .nan _ => (1, flNV ||| x.flags)
    | .inf n => (if n then 0 else 1, x.flags)
    | .num n m _ s => (if n ∧ (m ≠ 0 ∨ s) then 0 else 1, x.flags)
  else
    let (c, fl) := toIntFmt rd (codeSigned t) (codeWidth t) x.val
    (c, fl ||| x.flags)

/-- Convert an element from one format to another (R253): an integer to an integer keeps the low bits of the extended value;
everything else rounds once. -/
def convert (src dst : BitVec 8) (rd : Rnd) (x : Nat) : Nat × Nat :=
  if codeFloat src || codeFloat dst || codeB1 dst then
    let v := valueOf src x
    writeAs dst rd { val := v, flags := sigFlag v }
  else if codeB1 src then (wrapTo (codeWidth dst) (if x % 2 = 1 then 1 else -1), 0)
  else (wrapTo (codeWidth dst) (intOf (codeSigned src) (codeWidth src) x), 0)

/-- The formats that R253 converts among: CLASS 0 to 7, and CLASS 11 with SUB 5 to 8. -/
def convertible (t : BitVec 8) : Bool :=
  codeValid t && (decide (codeClass t ≤ 7) || (codeFloat t && decide (5 ≤ codeSub t)))

/-- The type code that a conversion code of R195 names. -/
def convTarget (k : BitVec 5) : BitVec 8 :=
  match k.toNat with
  | 16 => 0x5B
  | 17 => 0x6B
  | 18 => 0x7B
  | 19 => 0x8B
  | n => BitVec.ofNat 8 (n % 8)

/-- The value of a scale code (R43). -/
def scaleValue (e4m3 : Bool) (c : Nat) : FVal :=
  if e4m3 then (fmtOfSub 3).decode c
  else if c % 256 = 255 then .nan false else .num false 1 (((c % 256 : Nat) : Int) - 127) false

/-- An element times its scale, exactly (R44): a zero scale makes a finite element an exact zero and any other a NaN. -/
def scaled (x s : FVal) : Ex := fMul x s

/-- The quotient x / s of R55: a zero scale gives a zero of the sign of a finite x, and a NaN for any other. -/
def unscaled (x s : FVal) : Ex :=
  match s with
  | .num _ 0 _ _ =>
    match x with
    | .num n _ _ _ => exact (.zero n)
    | _ => exact (.nan false)
  | _ => fDiv x s

/-- An element as memory holds it: sign- or zero-extended into its bytes (R268). -/
def memCode (t : BitVec 8) (x : Nat) : Nat :=
  if codeFloat t then x else wrapTo (8 * codeBytes t) (intOf (codeSigned t) (codeWidth t) x)

end Sys2Proof.Machine
end

