-- ==== Sys2Proof/Machine/VRun.lean ====
section
/-!
DEFINITION. Machine/VRun.lean: how a vector-queue entry performs (R26, R124, R243, R272): element loops with their flags,
completion, vector-side faults, the two phases of a memory instruction with the sections of R140, and single elements of
memory.

A performance answers true when the entry has completed and false when it waits; a fault ends the step.
-/
namespace Sys2Proof.Machine

/-! ### Completion -/

/-- Take VL in the entries that wait for it, up to the next one that can change VL (R63, R123). -/
def takeVl (vl : BitVec 23) : List VEntry → List VEntry
  | [] => []
  | e :: es =>
    let e' := if e.vlPend then { e with vl := vl, vlPend := false } else e
    if changesVl e.insn then e' :: es else e' :: takeVl vl es

/-- An interlock entry of a memory instruction in flight (R142). -/
def Ilk.flying (x : Ilk) : Bool := x.v && decide (2 ≤ x.kind.toNat)

/-- The oldest entry of the queue has completed: its interlock entry is free, and those behind it advance (R142). A free entry holds
nothing. -/
def Ilk.passed (x : Ilk) : Ilk :=
  if x.flying then (if x.qpos = 0 then Ilk.reset else { x with qpos := x.qpos - 1 }) else if x.v then x else Ilk.reset

/-- The interlock entry of the oldest entry of the queue is free: it stops, and is issued anew when it is resumed (log entry 40,
DEDUCED). -/
def Ilk.unissued (x : Ilk) : Ilk := if x.flying ∧ x.qpos = 0 then Ilk.reset else x

/-- Drop the oldest entry of the queue, which has completed (R124). -/
def Hart.popEntry (h : Hart) (groups : Nat) : Hart :=
  match h.vq with
  | [] => h
  | e :: es =>
    { h with
      vq := if changesVl e.insn then takeVl h.vl es else es
      rq := h.rq.map (fun r => { r with qpos := r.qpos - 1 })
      vstart := if h.vsWritten then h.vstart else 0
      migVec := none
      holdV := false
      stoppedAt := false
      flight := none
      ilk := h.ilk.map Ilk.passed
      instret := h.instret + 1
      egops := h.egops + BitVec.ofNat 64 groups }

/-- The count that a trip's end waits for has arrived (R220): the trip is decided, and the hart, or its resume PC, goes on as
it says. -/
def Hart.decideTrip (h : Hart) : Hart :=
  let h' := { h with lp := { h.lp with trip := .no } }
  match h.lp.trip with
  | .no => h
  | .atPc => if h.lp.active then h'.tripEnd else h'
  | .atResume => if h.lp.active then { h'.tripEnd with pc := h.pc, resumePc := h'.tripEnd.pc } else h'

/-- Write the value of the oldest read-queue entry into its x register and free the entry (R125). -/
def Hart.fillRq (h : Hart) (v : Word) : Hart :=
  match h.vq, h.rq with
  | e :: es, r :: rs =>
    if e.rq.isSome then
      let h := { (h.setX r.reg v) with
        rq := rs
        vq := e :: es.map (fun x => { x with rq := x.rq.map (fun k => k - 1) }) }
      if r.reg = h.lp.reg then h.decideTrip else h
    else h
  | _, _ => h

/-- Change the oldest entry. -/
def Hart.modHead (h : Hart) (f : VEntry → VEntry) : Hart :=
  match h.vq with
  | [] => h
  | e :: es => { h with vq := f e :: es }

namespace VCtx

/-- Element groups that elements VSTART to n - 1 touch. -/
def groupsTo (c : VCtx) (n : Nat) : Nat :=
  let k := groupOf c.code
  if n ≤ c.start then 0 else (n - 1) / k + 1 - c.start / k

/-- The hart with its oldest entry stopped at element n (R16, R62): VSTART stands there in the entry and in the register, its waits are
abandoned, and its pins and its interlock entry are released. -/
def stopped (c : VCtx) (n : Nat) (h : Hart) : Hart :=
  { (h.modHead (fun e => { e with vstart := BitVec.ofNat 23 n })) with
    vstart := BitVec.ofNat 23 n
    vsWritten := false
    migVec := none
    holdV := false
    stoppedAt := true
    flight := none
    ilk := h.ilk.map Ilk.unissued
    egops := h.egops + BitVec.ofNat 64 (c.groupsTo n) }

/-- Stop the entry at element n. -/
def stand (c : VCtx) (n : Nat) : M Unit := modHart c.g (c.stopped n)

/-- Breakpoints fire (R153): each sets HIT. -/
def hits (ns : List Nat) (h : Hart) : Hart :=
  ns.foldl (fun h k =>
    { h with bpctl := h.bpctl.set (k % 8) (h.bpctl[k % 8]'(Nat.mod_lt _ (by decide)) ||| 4) (Nat.mod_lt _ (by decide)) }) h

/-- The breakpoints of the entry fire where it stands, and EVAL names the lowest. -/
def breakHere (c : VCtx) : M Bool := do
  modHart c.g (fun h =>
    let h := hits c.bps h
    { (h.enterTrap (BitVec.ofNat 16 Cause.break_.code) c.e.pc (BitVec.ofNat 64 (c.bps.headD 0)) 0 .queue true) with
      resumePc := h.pc, lp := h.lp.toResume })
  halt

/-- A breakpoint fires at element n of the entry. -/
def break_ (c : VCtx) (h : Hart) (n : Nat) : M Bool := do
  putHart c.g (c.stopped n h)
  c.breakHere

/-- A breakpoint stops the entry below VL. -/
def breaks (c : VCtx) : Bool := decide (c.lim < c.vl) && !c.bps.isEmpty

/-- The entry waits, with its elements below n performed: it is tried again, from there. -/
def rest (c : VCtx) (n : Nat) (h : Hart) : Hart :=
  { (h.modHead (fun e => { e with vstart := BitVec.ofNat 23 n })) with egops := h.egops + BitVec.ofNat 64 (c.groupsTo n) }

/-- The entry has performed its elements below the limit: it completes, a breakpoint stops it there, or it waits for more of an
item. -/
def finish (c : VCtx) (h : Hart) : M Bool := do
  if c.breaks then c.break_ h (max c.start c.lim)
  else if c.more ∧ c.lim < c.vl then do
    putHart c.g (c.rest (max c.start c.lim) h)
    pure false
  else
    putHart c.g (h.popEntry (c.groupsTo c.lim))
    pure true

/-- The entry completes as the hart stands. -/
def finish' (c : VCtx) : M Bool := do c.finish (← getHart c.g)

/-- The entry waits: it is tried again, from element n. -/
def wait (c : VCtx) (n : Nat) : M Bool := do
  modHart c.g (fun h => h.modHead (fun e => { e with vstart := BitVec.ofNat 23 n }))
  pure false

/-- The entry waits, for the access of element n, which waits on MIG for a page or is held. -/
def held (c : VCtx) (n : Nat) (mig : Option Nat) : M Bool := do
  modHart c.g (fun h => { (h.modHead (fun e => { e with vstart := BitVec.ofNat 23 n })) with migVec := mig, holdV := true })
  pure false

/-- The fault record of the entry. -/
def record (c : VCtx) (s : State) (cause : Cause) : FRec :=
  { FRec.base cause c.g (s.hart c.g).partid.toNat with vec := true, pc := c.e.pc.toNat, vl := c.vl }

/-- Fault at element n, with the entry's VSTART there (R16, R342). -/
def faultAt {α : Type} (c : VCtx) (n : Nat) (r : FRec) : M α := do
  c.stand n
  recordTrap c.g r c.e.pc true

/-- A device access that the entry needs has failed: the entry stands at element n, and the hart executes nothing further (R399). -/
def errorAt {α : Type} (c : VCtx) (n : Nat) : M α := do
  c.stand n
  hartError c.g (← getHart c.g).partid.toNat

/-- A precise fault of the whole instruction that is none of an access: nothing changes (kind P of R342), and the record's ADDR
is a free value (log entry 5, DESIGN CHOICE). -/
def faultWhole {α : Type} (c : VCtx) (cause : Cause) (detail : Nat) : M α := do
  let s ← getState
  let addr ← freeBits 64
  c.faultAt c.start { c.record s cause with detail := detail, addr := addr }

/-- An enabled flag at element n, whose ADDR is that of the element's access, and a free value where it makes none (log
entry 5). -/
def trapFlag {α : Type} (c : VCtx) (n vstart flag : Nat) (va : Option Nat) : M α := do
  let s ← getState
  let addr ← match va with
    | some a => pure a
    | none => freeBits 64
  c.faultAt vstart { c.record s .fpe with elemp := true, elem := n, detail := flag, addr := addr }

/-- An enabled flag of a whole-instruction entry (R243): precise, from element 0. Which element a rounding over several
belongs to, the spec does not state: ELEM is a free value as ADDR is (log entry 5, DESIGN CHOICE). -/
def trapWhole {α : Type} (c : VCtx) (flag : Nat) : M α := do
  let s ← getState
  let addr ← freeBits 64
  let elem ← freeBits 23
  c.faultAt 0 { c.record s .fpe with detail := flag, addr := addr, elem := elem }

/-! ### Elements of registers -/

/-- Perform elements in order. Each gives the hart and its flags; an enabled flag stops at the first element that sets it,
uncommitted, with the flags of its roundings set (R52). -/
def fold (ten : Nat) (f : Nat → Hart → Hart × Nat) : List Nat → Hart → Hart × Option (Nat × Nat)
  | [], h => (h, none)
  | i :: is, h =>
    let (h', fl) := f i h
    match trappedFlag fl ten with
    | some k => (h.orFlags fl, some (i, k))
    | none => fold ten f is (h'.orFlags fl)

/-- Perform an elementwise instruction over its active elements (R242, R243), under the trap enables of its send (R26, R64); last
tidies the destination. -/
def elementwise (c : VCtx) (on : Hart → Nat → Bool) (f : Nat → Hart → Hart × Nat) (last : Hart → Hart) : M Bool := do
  let h ← getHart c.g
  let (h', t) := fold c.e.ten.toNat f (c.elems.filter (on h)) h
  let h' := if c.elems.isEmpty then h' else last h'
  match t with
  | none => c.finish h'
  | some (i, k) => do
    putHart c.g h'
    c.trapFlag i i k none

/-- Elementwise into a vector group in a format, under a mask. -/
def toVector (c : VCtx) (m : BitVec 4) (t : BitVec 8) (d : BitVec 5) (n : Nat) (f : Nat → Hart → Nat × Nat) : M Bool :=
  c.elementwise (fun h i => c.on h m i)
    (fun i h => let (x, fl) := f i h; (h.vput t d.toNat i x, fl))
    (fun h => h.trim t d.toNat n)

/-- Elementwise into a mask. -/
def toMask (c : VCtx) (m : BitVec 4) (d : BitVec 5) (f : Nat → Hart → Bool × Nat) : M Bool :=
  c.elementwise (fun h i => c.on h m i) (fun i h => let (x, fl) := f i h; (h.mput d.toNat i x, fl)) id

/-- Write elements of a group all at once: a whole-instruction result. -/
def putAll (h : Hart) (t : BitVec 8) (d : BitVec 5) : List (Nat × Nat) → Hart
  | [] => h
  | (i, x) :: rest => putAll (h.vput t d.toNat i x) t d rest

/-- A whole-instruction vector result: elements and values computed from the hart as it stood. -/
def wholeVector (c : VCtx) (d : BitVec 5) (n : Nat) (f : Hart → List (Nat × Nat)) : M Bool := do
  let h ← getHart c.g
  if c.start < c.vl then c.finish ((putAll h c.code d (f h)).trim c.code d.toNat n) else c.finish h

/-- A whole-instruction x result, through the read queue. -/
def wholeScalar (c : VCtx) (none' : Word) (f : Hart → Word) : M Bool := do
  let h ← getHart c.g
  c.finish (h.fillRq (if c.start < c.vl then f h else none'))

end VCtx

/-! ### One element of memory -/

/-- A page piece of an element: its access, address, length and leaf. -/
structure VPiece where
  acc  : Acc
  va   : Nat
  n    : Nat
  leaf : Leaf
  deriving DecidableEq, Repr

/-- What the translation phase gives an element (R272): its page pieces, or its stretches of the scratchpad. -/
inductive ETrans where
  | pages (l : List VPiece)
  | spad (offs : List (Nat × Nat))
  | fail (f : AFault)
  | mig (va : Nat)
  deriving DecidableEq, Repr

/-- Pieces before what further walks give. -/
def ETrans.after (ps : List VPiece) : ETrans → ETrans
  | .pages qs => .pages (ps ++ qs)
  | r => r

/-- Walk page pieces in order; one that fails comes before one that waits on MIG. -/
def walkPieces (s : State) (w : Walker) (acc : Acc) : List (Nat × Nat) → ETrans
  | [] => .pages []
  | (va, n) :: rest =>
    match walk s w acc va, walkPieces s w acc rest with
    | .fault c, _ => .fail (xlateFault s w c va acc)
    | .mig _, .fail f => .fail f
    | .mig _, _ => .mig va
    | .ok l, r => r.after [{ acc := acc, va := va, n := n, leaf := l }]

/-- Walk the stretches of an element in order. -/
def walkSpans (s : State) (w : Walker) : List (Acc × Nat × Nat) → ETrans
  | [] => .pages []
  | (acc, va, n) :: rest =>
    match walkPieces s w acc (pagePieces va n), walkSpans s w rest with
    | .fail f, _ => .fail f
    | .mig _, .fail f => .fail f
    | .mig a, _ => .mig a
    | .pages ps, r => r.after ps
    | .spad _, r => r

/-- The first piece whose page lies in no backed memory and no window (R88). -/
def absent (s : State) (tier : Nat) (l : List VPiece) : Option VPiece :=
  l.find? (fun p => targetOf s tier p.leaf == .none)

/-- Valid scratchpad bytes of a core (R84). -/
def Core.spadBytes (k : Core) : Nat := k.spbanks.toNat * 8192

/-- A stretch lies in the scratchpad window. -/
def spanInside (q : Acc × Nat × Nat) : Bool := inSpad q.2.1 q.2.2

/-- A stretch meets the scratchpad window and lies not wholly in its valid bytes, or may not reach it (R85). -/
def spanAstray (k : Core) (spad : Bool) (q : Acc × Nat × Nat) : Bool :=
  spanInside q && !(spad && decide (Config.spadBase ≤ q.2.1) && decide (q.2.1 + q.2.2 - Config.spadBase ≤ k.spadBytes))

/-- The stretch of an element that raises SPAD_RANGE: one astray, or one on the other side than inside says (R85). -/
def spadFault (k : Core) (spad inside : Bool) (qs : List (Acc × Nat × Nat)) : Option AFault :=
  ((qs.find? (spanAstray k spad)).or (qs.find? (fun q => spanInside q != inside))).map
    (fun q => plainFault .spadRange q.2.1 q.1.detail)

/-- The checks of an element's stretches in R272's order: the addresses, alignment, the scratchpad window, the walks, and memory that
does not exist. inside says on which side of the window the instruction's accesses lie. -/
def checkSpans (s : State) (g : Nat) (w : Walker) (spad : Bool) (align : Nat) (inside : Bool) (qs : List (Acc × Nat × Nat)) : ETrans :=
  match qs.find? (fun q => decide (2 ^ 57 < q.2.1 + q.2.2)) with
  | some q => .fail (xlateFault s w .xlateNone q.2.1 q.1)
  | none =>
    match qs.find? (fun q => decide (q.2.1 % align ≠ 0)) with
    | some q => .fail (plainFault .misalign q.2.1 q.1.detail)
    | none =>
      match spadFault (s.core (coreOf g)) spad inside qs with
      | some f => .fail f
      | none =>
        if inside then .spad (qs.map (fun q => (q.2.1 - Config.spadBase, q.2.2)))
        else
          match walkSpans s w qs with
          | .pages l =>
            match absent s w.tier l with
            | some p => .fail (plainFault .addrNone p.va p.acc.detail)
            | none => .pages l
          | r => r

/-- The checks of one access that does not reach the scratchpad. -/
def checkElem (s : State) (g : Nat) (w : Walker) (acc : Acc) (align va n : Nat) : ETrans :=
  checkSpans s g w false align false [(acc, va, n)]

/-- Set A, and for a write D, of the pages of an element. False when a device access fails. -/
def touchPieces (w : Walker) : List VPiece → M Bool
  | [] => pure true
  | p :: ps => do
    if ← touchLeaf w.part p.va p.leaf p.acc.writes then touchPieces w ps else pure false

/-- The line pieces of a page piece, each with the leaf moved to its own address. -/
def VPiece.lines (p : VPiece) : List (Acc × Nat × Nat × Leaf) :=
  (linePieces p.va p.n).map (fun q => (p.acc, q.1, q.2, { p.leaf with pa := p.leaf.pa + (q.1 - p.va) }))

/-- A line piece of an access: its access, address and length, and its leaf. -/
abbrev LinePiece := Acc × Nat × Nat × Leaf

/-- A line piece of a load is served by a copy in the core of its side: not while the link to its package is down (R107, R178). -/
def copyServes (s : State) (g : Nat) (copies : Option Bool) (q : LinePiece) : Bool :=
  copies.any (fun vec => (cachedCopy s g vec q.2.1 q.2.2.2).isSome && s.linkState q.2.2.2.pa != .down)

/-- Where a line piece leads: a plain load's to the copy of its side that serves it. -/
def trailOf (s : State) (g : Nat) (copies : Option Bool) (w : Walker) (q : LinePiece) : Trail :=
  if copyServes s g copies q then { way := .ends q.2.2.2 q.2.1, hops := [], count := 0 } else aim s g w q.1 q.2.1 q.2.2.1 q.2.2.2

/-- Bring a line piece to where its bytes are taken from or go. -/
def settlePiece (g : Nat) (copies : Option Bool) (w : Walker) (q : LinePiece) : M (Res Ready) := do
  let s ← getState
  if copyServes s g copies q then
    pure (.ok { orig := q.2.2.2.pa, tgt := .copy (copies.getD false) q.2.2.2.pa, n := q.2.2.1, leaf := q.2.2.2, hops := [] })
  else settle g w q.1 q.2.1 q.2.2.1 q.2.2.2

/-- Bring every line piece of an access to its final line before any byte performs. -/
def settleAll (g : Nat) (copies : Option Bool) (w : Walker) : List LinePiece → M (Res (List (Nat × Ready)))
  | [] => pure (.ok [])
  | q :: rest => do
    match ← settlePiece g copies w q with
    | .fail f => pure (.fail f)
    | .wait m => pure (.wait m)
    | .stop => pure .stop
    | .ok r => do
      match ← settleAll g copies w rest with
      | .ok rs => pure (.ok ((q.2.1, r) :: rs))
      | x => pure x

/-- Load the bytes of settled pieces, the first piece lowest. -/
def loadAll (g : Nat) (vec : Bool) : List (Nat × Ready) → M Bits
  | [] => pure 0
  | (va, r) :: rest => do
    let x ← loadReady g vec va r
    let y ← loadAll g vec rest
    pure (x + y * 2 ^ (8 * r.n))

/-- Store bytes at settled pieces; while stores lag, or earlier writes of the hart wait, leave them as completed writes not yet
performed (R398). -/
def storeAll (g : Nat) (vec : Bool) (pc : Word) : List (Nat × Ready) → Bits → M Unit
  | [], _ => pure ()
  | (va, r) :: rest, v => do
    let later ← gets (fun s => s.lag.stores || !(s.hart g).posted.isEmpty)
    match later, r.tgt with
    | true, .line pa =>
      modHart g (fun h => { h with posted := h.posted ++ [
        { va := BitVec.ofNat 64 va, pa := if r.hops.isEmpty then pa else r.orig, size := r.n,
          data := v % 2 ^ (8 * r.n), pc := pc, vec := vec }] })
    | _, _ => storeReady g vec r (v % 2 ^ (8 * r.n))
    storeAll g vec pc rest (v / 2 ^ (8 * r.n))

/-- The physical lines that a completed write concerns: its own address's, and the one where its chain now ends (R175). -/
def Posted.lines (p : Posted) (s : State) (g : Nat) (w : Walker) : List Nat :=
  match (aim s g w .store p.va.toNat p.size p.leaf).way with
  | .ends l _ => [p.pa / 128, l.pa / 128]
  | .held line => [p.pa / 128, line]
  | _ => [p.pa / 128]

/-- An access of a hart follows its own completed writes to the lines it concerns (R170, R171, R175): perform them first. False when
one waits. -/
def ownFirst (g : Nat) (lines : List Nat) : M Bool := do
  let s ← getState
  let w := s.walker g
  if (s.hart g).posted.any (fun p => (p.lines s g w).any (fun l => lines.contains l)) then flushHart g else pure true

/-- The physical line that a trail leads to. -/
def Trail.lines (t : Trail) : List Nat :=
  match t.way with
  | .ends l _ => [l.pa / 128]
  | _ => []

/-- Bring the line pieces of one access to where they act: first it is seen where each leads, and the access waits, with nothing
performed, where one is held or where an earlier write of the hart to a line it concerns waits. -/
def reach (g : Nat) (copies : Option Bool) (w : Walker) (ps : List LinePiece) : M (Res (List (Nat × Ready))) := do
  let s ← getState
  let trails := ps.map (trailOf s g copies w)
  match trails.find? (fun x => !x.way.fine) with
  | some x =>
    if x.way.waits then do
      match ← arrive g w .load x with
      | .wait m => pure (.wait m)
      | _ => pure (.wait none)
    else settleAll g copies w ps
  | none => if ← ownFirst g (trails.flatMap Trail.lines) then settleAll g copies w ps else pure (.wait none)

/-! ### Hops and moves of regions (R144, R145) -/

/-- A relocation-table entry: index, base, log size, state, FHIT, MOVES. -/
structure Region where
  idx   : Nat
  base  : Nat
  lsize : Nat
  st    : Nat
  fhit  : Nat
  moves : Nat
  deriving DecidableEq, Repr

/-- Entry idx of a relocation table of which t holds the bytes; none when it counts as FREE (R144). -/
def regionAt (t : Bits) (idx : Nat) : Option Region :=
  let e := bitsGet t (256 * idx) 256
  let lsize := bitsGet e 0 6
  let base := bitsGet e 16 41 * 65536
  let st := bitsGet e 64 3
  if st = 0 ∨ 5 ≤ st ∨ lsize < 16 ∨ 40 < lsize ∨ base % 2 ^ lsize ≠ 0 then none
  else some { idx := idx, base := base, lsize := lsize, st := st, fhit := bitsGet e 128 32, moves := bitsGet e 160 32 }

/-- The region of a line: the lowest-indexed entry that is not FREE and contains it (R144). -/
def regionIn (t : Bits) (va : Nat) : List Nat → Option Region
  | [] => none
  | i :: is =>
    match regionAt t i with
    | some r => if r.base ≤ va ∧ va < r.base + 2 ^ r.lsize then some r else regionIn t va is
    | none => regionIn t va is

/-- The region of a virtual address of partition p, read through PROOT; the hart errs when the table is out of reach
(R399). -/
def regionOf (g p va : Nat) : M (Option Region) := do
  let base ← gets (fun s => (s.part p).relbase)
  let t ← needRead g p base 32768
  pure (regionIn t va (List.range 1024))

/-- Add to a saturating 32-bit count of a region. -/
def addCount (g p off n : Nat) (r : Region) (old : Nat) : M Unit := do
  let base ← gets (fun s => (s.part p).relbase)
  needWrite g p (base + 32 * r.idx + off) 4 (min (old + n) (2 ^ 32 - 1))

/-- Add lines to a count of their regions, once for each region (R145). -/
def addLines (g p off : Nat) (old : Region → Nat) (vas : List Nat) : M Unit :=
  if vas.isEmpty then pure ()
  else do
    let base ← gets (fun s => (s.part p).relbase)
    let t ← needRead g p base 32768
    let rs := vas.filterMap (fun va => regionIn t va (List.range 1024))
    eachM (rs.map (fun r => r.idx)).dedup (fun k =>
      match rs.find? (fun r => r.idx == k) with
      | some r => addCount g p off (rs.countP (fun r => r.idx == k)) r (old r)
      | none => pure ())

/-- Count hops out of lines toward FHIT of their regions. -/
def addHits (g p : Nat) (vas : List Nat) : M Unit := addLines g p 16 (fun r => r.fhit) vas

/-- Count moves of lines toward MOVES of their regions. -/
def addMoves (g p : Nat) (vas : List Nat) : M Unit := addLines g p 20 (fun r => r.moves) vas

/-- Count a move toward MOVES of its region (R144). -/
def countMove (g p va : Nat) : M Unit := addMoves g p [va]

/-! ### Sections and elements of a memory instruction -/

/-- Replace an interlock entry. -/
def Hart.setIlk (h : Hart) (k : Nat) (x : Ilk) : Hart := { h with ilk := h.ilk.set (k % 16) x (Nat.mod_lt _ (by decide)) }

/-- A memory instruction: whether it reaches the scratchpad, its alignment, the causes it trims on, the stretches of memory of each
element (the access, the address and the length), those of them that its interlock entry covers, with the entry's kind (R142), its
elements in a group and how many of the first group it does without, whether its accesses take bytes that earlier writes of the hart
have stored, where the accesses of a translated element lead, and a fault of its own that its translation phase finds after the walk. -/
structure MemOp where
  spad  : Bool
  align : Nat
  trims : List Cause
  spans : Nat → List (Acc × Nat × Nat)
  kind  : Option (BitVec 3)
  range : List (Acc × Nat × Nat) → List (Acc × Nat × Nat) := id
  group : Nat
  skew  : Nat := 0
  reads : Bool
  look  : State → Walker → ETrans → List Trail
  own   : State → ETrans → Option AFault := fun _ _ => none

/-- The group of an element. -/
def MemOp.groupAt (op : MemOp) (i : Nat) : Nat := (i + op.skew) / op.group

/-- Where the line pieces of a translated element lead. -/
def lookAll (g : Nat) (copies : Option Bool) (s : State) (w : Walker) : ETrans → List Trail
  | .pages l => (l.flatMap VPiece.lines).map (trailOf s g copies w)
  | _ => []

/-- The pin a page takes: its page, or its eight pages under PROG (R140). -/
def pinOf (s : State) (w : Walker) (acc : Acc) (va : Nat) : Nat :=
  match walk s w acc va with
  | .ok l => if l.prog then (if l.big then va / 2 ^ 27 * 4 + 3 else va / 2 ^ 19 * 4 + 2)
             else (if l.big then va / 2 ^ 24 * 4 + 1 else va / 2 ^ 16 * 4)
  | _ => va / 2 ^ 16 * 4

/-- Add the pins of an element to a list of distinct pins. -/
def addPins (s : State) (w : Walker) (acc : Acc) (pins : List Nat) : List (Nat × Nat) → List Nat
  | [] => pins
  | (va, _) :: rest =>
    let k := pinOf s w acc va
    addPins s w acc (if pins.contains k then pins else k :: pins) rest

/-- Add the pins of an element's stretches. -/
def elemPins (s : State) (w : Walker) (pins : List Nat) : List (Acc × Nat × Nat) → List Nat
  | [] => pins
  | (acc, va, n) :: rest =>
    elemPins s w (if 2 ^ 57 < va + n ∨ inSpad va n then pins else addPins s w acc pins (pagePieces va n)) rest

/-- The elements that 64 pins cover, and one at least. -/
def pinned (s : State) (w : Walker) (op : MemOp) : List Nat → List Nat → List Nat
  | _, [] => []
  | pins, i :: is =>
    let pins' := elemPins s w pins (op.spans i)
    if 64 < pins'.length ∧ pins ≠ [] then [] else i :: pinned s w op pins' is

/-- The section that begins a list of elements (R140): all that 64 pins cover, without the last element group where the pins do not
cover all of it and others stand before it (log entry 40, DESIGN CHOICE). -/
def sectionOf (s : State) (w : Walker) (op : MemOp) (is : List Nat) : List Nat :=
  let sec := pinned s w op [] is
  match is.drop sec.length with
  | [] => sec
  | next :: _ =>
    let whole := sec.filter (fun i => decide (op.groupAt i < op.groupAt next))
    if whole.isEmpty then sec else whole

/-- The first of a list of elements lies in the scratchpad window. -/
def MemOp.inside (op : MemOp) : List Nat → Bool
  | [] => false
  | i :: _ => (op.spans i).head?.any spanInside

/-- The translations of a section; R85 has an instruction's accesses lie all inside or all outside the scratchpad window. -/
def checkSection (s : State) (g : Nat) (w : Walker) (op : MemOp) (inside : Bool) (is : List Nat) : List (Nat × ETrans) :=
  is.map (fun i =>
    let t := checkSpans s g w op.spad op.align inside (op.spans i)
    (i, ((op.own s t).map ETrans.fail).getD t))

/-- The failing elements of a section. -/
def failures : List (Nat × ETrans) → List (Nat × AFault)
  | [] => []
  | (i, .fail f) :: rest => (i, f) :: failures rest
  | _ :: rest => failures rest

/-- The elements that raise SPAD_RANGE, found before any section performs (R85). -/
def strays (s : State) (g : Nat) (op : MemOp) (inside : Bool) (is : List Nat) : List (Nat × AFault) :=
  is.filterMap (fun i => (spadFault (s.core (coreOf g)) op.spad inside (op.spans i)).map (fun f => (i, f)))

/-- Some element of a section waits on MIG: its address. -/
def migOf : List (Nat × ETrans) → Option Nat
  | [] => none
  | (_, .mig va) :: _ => some va
  | _ :: rest => migOf rest

/-- Put a page in an ascending list of distinct pages. -/
def insertPage (p : Nat × Bool) : List (Nat × Bool) → List (Nat × Bool)
  | [] => [p]
  | q :: qs => if p.1 < q.1 then p :: q :: qs else if p = q then q :: qs else q :: insertPage p qs

/-- The mask of failing elements from mbase, 4,096 of them at most. -/
def failMask (mbase : Nat) : List (Nat × AFault) → Bits
  | [] => 0
  | (i, _) :: rest =>
    let m := failMask mbase rest
    if mbase ≤ i ∧ i < mbase + 4096 then bitPut m (i - mbase) true else m

/-- A virtual address lies in what a TLBI names: the 16 MiB around an address, or every page. -/
def tlbNames (at' : Option Nat) (va : Nat) : Bool :=
  match at' with
  | some a => va / 2 ^ 24 == a / 2 ^ 24
  | none => true

/-- Pages of some elements lie in what a TLBI names. -/
def MemOp.named (op : MemOp) (is : List Nat) (at' : Option Nat) : Bool :=
  is.any (fun i => (op.spans i).any (fun q => tlbNames at' q.2.1 || tlbNames at' (q.2.1 + q.2.2 - 1)))

/-- A TLBI or shootdown of the partition that waits for pins names one of the pages of some elements: new instructions wait for it
(R140). -/
def shotDown (s : State) (p : Nat) (op : MemOp) (is : List Nat) : Bool :=
  (s.part p).shooting.any (op.named is)
    || s.harts.any (fun e => e.2.place.isSome && e.2.hstop == .run && e.2.partid.toNat == p && e.2.shooting.any (op.named is))

/-- The translation that a page pins: the one that served it, or the leaf line as it stands. -/
def pinFor (s : State) (w : Walker) (acc : Acc) (va : Nat) (l : Leaf) : Held :=
  match w.held.find? (fun t => t.serves acc va) with
  | some t => t
  | none =>
    let n := if l.big then 24 else 16
    { base := va / 2 ^ n * 2 ^ n, size := n, line := l.line, bits := s.bytes l.line 128 }

/-- The pins of a translated element. -/
def ETrans.pins (s : State) (w : Walker) : ETrans → List Held
  | .pages l => l.map (fun p => pinFor s w p.acc p.va p.leaf)
  | _ => []

/-- The pins of the pages that hops reached (R141). -/
def Trail.pins (s : State) (w : Walker) (acc : Acc) (t : Trail) : List Held := t.hops.map (fun h => pinFor s w acc h.va h.leaf)

/-- What performing one element gives: the lines hopped out of, the lines moved, and an enabled flag that it set after its effect. -/
structure Done where
  hops  : List Nat
  moved : List Nat := []
  flag  : Option AFault := none
  deriving DecidableEq, Repr

/-- What the elements performed so far leave: hops and moves to count, the pins of hops of this section, whether any has performed, and
the element above the last of them. -/
structure Took where
  hops  : List Nat
  moved : List Nat
  pins  : List Held
  begun : Bool
  next  : Nat
  deriving DecidableEq, Repr

/-- So, after one more element. -/
def Took.with' (t : Took) (i : Nat) (d : Done) : Took :=
  { t with hops := t.hops ++ d.hops, moved := t.moved ++ d.moved, begun := true, next := i + 1 }

/-- How performing elements ends: all have performed, one waits, faults or sets an enabled flag, or a device access failed. -/
inductive Ran where
  | all
  | waits (i : Nat) (mig : Option Nat)
  | failed (i : Nat) (f : AFault)
  | flag (i vstart : Nat) (f : AFault)
  | stop (i : Nat)
  deriving DecidableEq, Repr

namespace VCtx

/-- The record of a translation-phase fault (R340). -/
def xlateRecord (c : VCtx) (s : State) (fs : List (Nat × AFault)) (elem : Nat) (f : AFault) : FRec :=
  let mbase := elem / 4096 * 4096
  { c.record s f.cause with
    elem := elem
    addr := f.addr
    mbase := mbase
    mbits := min (c.vl - mbase) 4096
    more := fs.any (fun e => decide (mbase + 4096 ≤ e.1))
    mask := failMask mbase fs
    pages := (fs.filterMap (fun e => e.2.page)).foldl (fun l p => insertPage p l) []
    detail := f.detail
    aux := f.aux }

/-- The record of an element-precise fault (R340). -/
def elemRecord (c : VCtx) (s : State) (elem : Nat) (f : AFault) : FRec :=
  { c.record s f.cause with
    elemp := true, elem := elem, addr := f.addr, pages := f.page.toList, detail := f.detail, aux := f.aux }

/-- What performing one element gives. -/
abbrev Step := Res Done

/-- What the oldest entry keeps of the instruction under way. -/
def flightOf (c : VCtx) (h : Hart) : Flight := h.flight.getD { start := c.start }

/-- The partition of the entry's hart. -/
def part (c : VCtx) : M Nat := do pure (← getHart c.g).partid.toNat

/-- Add the hops and the moves of performed elements to their regions (R145). -/
def count (c : VCtx) (t : Took) : M Unit := do
  let p ← c.part
  addHits c.g p t.hops
  addMoves c.g p t.moved

/-- The entry completes, a breakpoint stops it, or it waits for more of an item, keeping what it has begun; then its hops and moves are
counted. -/
def complete (c : VCtx) (t : Took) : M Bool := do
  if c.breaks then do
    c.stand (max c.start c.lim)
    c.count t
    c.breakHere
  else if c.more ∧ c.lim < c.vl then do
    let f := c.flightOf (← getHart c.g)
    modHart c.g (fun h => { (c.rest (max c.start c.lim) h) with
      flight := some { start := f.start, begun := t.begun, hops := t.hops, moved := t.moved } })
    pure false
  else do
    let done ← c.finish'
    c.count t
    pure done

/-- Fault at element n once elements have performed. -/
def faultAfter {α : Type} (c : VCtx) (t : Took) (n : Nat) (r : FRec) : M α := do
  c.stand n
  c.count t
  recordTrap c.g r c.e.pc true

/-- Cut a trimming instruction at element j (R12, R273): VL and FTRIM take j, and the entry completes. -/
def cut (c : VCtx) (t : Took) (j : Nat) : M Bool := do
  modHart c.g (fun h =>
    { (h.modHead (fun e => { e with vl := BitVec.ofNat 23 j })) with vl := BitVec.ofNat 23 j, ftrim := BitVec.ofNat 23 j })
  let c' := { c with lim := min c.lim j, bps := if j ≤ c.lim then [] else c.bps, more := c.more && decide (c.lim < j) }
  c'.complete t

/-- The element that an instruction waiting before element n stands at: the first of n's group where none of the group has performed
(R16, R343). -/
def boundary (c : VCtx) (op : MemOp) (t : Took) (n : Nat) : Nat :=
  let b := max c.start (op.groupAt n * op.group - op.skew)
  if t.next ≤ b then b else n

/-- The lowest and the highest byte of some stretches, as an interlock entry holds them. -/
def rangeOf : List (Acc × Nat × Nat) → Option (Nat × Nat)
  | [] => none
  | (_, va, n) :: rest =>
    match rangeOf rest with
    | none => some (va, va + n - 1)
    | some (lo, hi) => some (min lo va, max hi (va + n - 1))

/-- Issue: the entry of the oldest instruction in the interlock table, if it takes one and has none (R142). -/
def issue (op : MemOp) (qs : List (Acc × Nat × Nat)) (h : Hart) : Hart :=
  match op.kind, rangeOf qs, (range' 8 8).find? (fun k => !(h.ilk[k % 16]'(Nat.mod_lt _ (by decide))).v) with
  | some kind, some (lo, hi), some k =>
    if h.ilk.toList.any (fun x => x.flying && x.qpos == 0) then h
    else h.setIlk k { v := true, kind := kind, ch := 0, qpos := 0, lo := BitVec.ofNat 57 lo, hi := BitVec.ofNat 57 hi }
  | _, _, _ => h

/-- The instruction waits before element n: it keeps what it has begun. -/
def stay (c : VCtx) (op : MemOp) (all : List Nat) (t : Took) (n : Nat) (mig : Option Nat) (f : Flight) : M Bool := do
  let at' := c.boundary op t n
  modHart c.g (fun h =>
    let f' : Flight := { f with begun := t.begun, hops := t.hops, moved := t.moved, move := h.flight.bind (fun x => x.move) }
    issue op (all.flatMap (fun i => op.range (op.spans i)))
      { (h.modHead (fun e => { e with vstart := BitVec.ofNat 23 at' })) with
        migVec := mig, holdV := true, flight := some f', egops := h.egops + BitVec.ofNat 64 (c.groupsTo at') })
  pure false

/-- Perform elements in order. -/
def runElems (act : Nat → ETrans → M Step) : Took → List (Nat × ETrans) → M (Ran × Took)
  | took, [] => pure (.all, took)
  | took, (i, t) :: rest => do
    match ← act i t with
    | .wait m => pure (.waits i m, took)
    | .stop => pure (.stop i, took)
    | .fail f => pure (if f.cause = .fpe then .flag i i f else .failed i f, took)
    | .ok d =>
      match d.flag with
      | some f => pure (.flag i (i + 1) f, took.with' i d)
      | none => runElems act (took.with' i d) rest

/-- Perform elements group by group: none of a group performs while one of them would be held, at a home or by a completed write of
the hart that waits, so that a stop leaves the instruction at a group's boundary (R343). -/
def runGroups (c : VCtx) (op : MemOp) (w : Walker) (act : Walker → Nat → ETrans → M Step) : Nat → Took → List (Nat × ETrans) → M (Ran × Took)
  | 0, took, _ => pure (.all, took)
  | _, took, [] => pure (.all, took)
  | fuel + 1, took, (i, t) :: rest => do
    let grp := (i, t) :: rest.takeWhile (fun e => decide (op.groupAt e.1 = op.groupAt i))
    let s ← getState
    let trails := grp.flatMap (fun e => op.look s w e.2)
    match trails.find? (fun x => !x.way.fine) with
    | some x =>
      if x.way.waits then do
        match ← arrive c.g w .load x with
        | .wait m => pure (.waits i m, { took with pins := took.pins ++ x.pins s w .load })
        | _ => pure (.waits i none, took)
      else runElems (act w) took grp
    | none =>
      if op.reads && !(← ownFirst c.g (trails.flatMap Trail.lines)) then pure (.waits i none, took)
      else do
        match ← runElems (act w) { took with pins := took.pins ++ trails.flatMap (fun x => x.pins s w .load) } grp with
        | (.all, took') => runGroups c op w act fuel took' (rest.drop (grp.length - 1))
        | r => pure r

/-- Set A and D of the pages of a section's elements. -/
def touchAll (w : Walker) : List (Nat × ETrans) → M Bool
  | [] => pure true
  | (_, .pages l) :: rest => do
    if ← touchPieces w l then touchAll w rest else pure false
  | _ :: rest => touchAll w rest

/-- Where a trimming instruction cuts below its lowest failing element j (R273, R285): the lowest element with a translation fault in
either phase, or with a stale chain for one that trims there; if it may cut there. -/
def trimAt (op : MemOp) (s : State) (w : Walker) (start : Nat) (ts : List (Nat × ETrans)) : List (Nat × AFault) → Option Nat
  | [] => none
  | (j, f) :: _ =>
    if op.trims.isEmpty then none
    else
      let met := (ts.filter (fun e => decide (e.1 < j))).findSome? (fun e =>
        (((op.look s w e.2).findSome? (fun t => t.way.cause)).filter (fun x => op.trims.contains .fwdStale || x.translation)).map
          (fun x => (e.1, x)))
      let first := met.getD (j, f.cause)
      if op.trims.contains first.2 ∧ start < first.1 then some first.1 else none

/-- The two phases of R272 over the active elements that remain, section by section. A section under way goes on with its pins; each
other is translated when it begins, and a fault found then is reported at its first element once elements have performed (R140). -/
def sections (c : VCtx) (op : MemOp) (inside : Bool) (all : List Nat) (act : Walker → Nat → ETrans → M Step) : Nat → Took → List Nat → M Bool
  | 0, took, _ => c.complete took
  | _, took, [] => c.complete took
  | fuel + 1, took, is => do
    let s ← getState
    let f := c.flightOf (s.hart c.g)
    let first := is.headD c.start
    let resumed := decide (first < f.upto)
    let w := if resumed then s.pinned c.g else s.walker c.g
    let sec := if resumed then is.takeWhile (fun i => decide (i < f.upto)) else sectionOf s w op is
    if !resumed && shotDown s w.part op sec then c.stay op all took first none { start := f.start }
    else
      let ts := checkSection s c.g w op inside sec
      match migOf ts with
      | some va => c.stay op all took first (some va) { start := f.start }
      | none =>
        let fs := failures ts ++ (if took.begun then [] else strays s c.g op inside (is.drop sec.length))
        match fs, trimAt op s w f.start ts fs with
        | (j, x) :: _, none =>
          if took.begun then
            c.faultAfter took first { c.xlateRecord s fs first x with elemp := true, mbase := 0, mbits := 0, mask := 0, more := false }
          else c.faultAt c.start (c.xlateRecord s fs j x)
        | _, cutAt => do
          let ts := ts.filter (fun e => cutAt.all (fun j => decide (e.1 < j)))
          if ← touchAll w ts then do
            match ← c.runGroups op w act ts.length { took with pins := [] } (ts.filter (fun e => decide (e.1 < c.lim))) with
            | (.waits i m, took') => do
              let s ← getState
              let pins := (ts.flatMap (fun e => e.2.pins s w) ++ took'.pins).dedup
              let f' : Flight := { start := f.start, upto := sec.getLastD 0 + 1, pins := pins }
              c.stay op all took' i m (if m.isSome then { start := f.start } else f')
            | (.stop i, _) => c.errorAt i
            | (.flag i n x, took') => do
              let s ← getState
              c.faultAfter took' n { c.record s .fpe with elemp := true, elem := i, detail := x.detail, addr := x.addr }
            | (.failed i x, took') =>
              if op.trims.contains x.cause ∧ f.start < i then c.cut took' i
              else do
                let s ← getState
                c.faultAfter took' i (c.elemRecord s i x)
            | (.all, took') =>
              match cutAt with
              | some j => c.cut took' j
              | none =>
                if sec.any (fun i => decide (c.lim ≤ i)) then c.complete took'
                else sections c op inside all act fuel took' (is.drop sec.length)
          else c.errorAt first
/-- A memory instruction over its active elements from VSTART to VL: last tidies its destination where no element is active. -/
def memory (c : VCtx) (op : MemOp) (last : Hart → Hart) (on : Hart → Nat → Bool) (act : Walker → Nat → ETrans → M Step) : M Bool := do
  let h ← getHart c.g
  let is := (range' c.start (c.vl - c.start)).filter (on h)
  if is.isEmpty then c.finish (if c.elems.isEmpty then h else last h)
  else
    let f := c.flightOf h
    c.sections op (op.inside is) is act is.length
      { hops := f.hops, moved := f.moved, pins := [], begun := f.begun, next := c.start } is

/-- Read stretches of the scratchpad, the first lowest. -/
def spadGet (m : List Host.Cell) : List (Nat × Nat) → Bits
  | [] => 0
  | (off, n) :: rest => memBits m off n + 2 ^ (8 * n) * spadGet m rest

/-- Write stretches of the scratchpad. -/
def spadPut (k : Nat) : List (Nat × Nat) → Bits → M Unit
  | [], _ => pure ()
  | (off, n) :: rest, v => do
    upd (.spad k off n (v % 2 ^ (8 * n)))
    spadPut k rest (v / 2 ^ (8 * n))

/-- The lines that the hops of settled pieces left. -/
def hopsOf (rs : List (Nat × Ready)) : List Nat := rs.flatMap (fun r => r.2.hops)

/-- Load an element: its bytes go to put. -/
def loadElem (c : VCtx) (w : Walker) (put : Bits → Hart → Hart) : ETrans → M Step
  | .spad offs => do
    let x ← gets (fun s => spadGet (s.core (coreOf c.g)).spad offs)
    modHart c.g (put x)
    pure (.ok { hops := [] })
  | .pages l => do
    match ← settleAll c.g (some true) w (l.flatMap VPiece.lines) with
    | .fail f => pure (.fail f)
    | .wait m => pure (.wait m)
    | .stop => pure .stop
    | .ok rs => do
      let x ← loadAll c.g true rs
      modHart c.g (put x)
      pure (.ok { hops := hopsOf rs })
  | _ => pure (.ok { hops := [] })

/-- Store an element's bytes. -/
def storeElem (c : VCtx) (w : Walker) (v : Bits) : ETrans → M Step
  | .spad offs => do
    spadPut (coreOf c.g) offs v
    pure (.ok { hops := [] })
  | .pages l => do
    match ← settleAll c.g none w (l.flatMap VPiece.lines) with
    | .fail f => pure (.fail f)
    | .wait m => pure (.wait m)
    | .stop => pure .stop
    | .ok rs => do
      storeAll c.g true c.e.pc rs v
      pure (.ok { hops := hopsOf rs })
  | _ => pure (.ok { hops := [] })

/-- A plain load of elements, without its stretches. -/
def loadOp (c : VCtx) (spans : Nat → List (Acc × Nat × Nat)) : MemOp :=
  { spad := true, align := 1, trims := [], spans := spans, kind := some 3, group := groupOf c.code, reads := true, look := lookAll c.g (some true) }

/-- A plain store of elements. -/
def storeOp (c : VCtx) (spans : Nat → List (Acc × Nat × Nat)) : MemOp :=
  { spad := true, align := 1, trims := [], spans := spans, kind := some 2, group := groupOf c.code, reads := false, look := lookAll c.g none }

end VCtx

end Sys2Proof.Machine
end

