-- ==== Sys2Proof/Machine/Channel.lean ====
section
/-!
DEFINITION. Machine/Channel.lean: copy channels (R126, R156, R289 to R293) and the interlock table (R13, R142, R143): one
element's fetch and landing, CP_FAULT, strips, and what a vector access meets in its hart's channels.
-/
namespace Sys2Proof.Machine

namespace Chan

/-- COUNT (R289). -/
def count (c : Chan) : Nat := bitsGet c.desc[0].toNat 0 48
/-- FROM (R289). -/
def from_ (c : Chan) : BitVec 8 := c.desc[0].extractLsb' 48 8
/-- CONV (R289). -/
def conv (c : Chan) : Bool := c.desc[0].toNat.testBit 56
/-- The source format: FROM of a converting channel, else the captured type. -/
def srcCode (c : Chan) : BitVec 8 := if c.conv then c.from_ else c.typ
/-- Es. -/
def es (c : Chan) : Nat := codeBytes c.srcCode
/-- Ed. -/
def ed (c : Chan) : Nat := codeBytes c.typ
/-- SRC + k × SSTR, modulo 2^64. -/
def srcAddr (c : Chan) (k : Nat) : Nat := (c.desc[1] + BitVec.ofNat 64 k * c.desc[3]).toNat
/-- DST + k × DSTR, modulo 2^64. -/
def dstAddr (c : Chan) (k : Nat) : Nat := (c.desc[2] + BitVec.ofNat 64 k * c.desc[4]).toNat
/-- Elements of released strips. -/
def limit (c : Chan) : Nat := min (c.released * c.exp.toNat) c.count
/-- Element k has landed. -/
def landed (c : Chan) (k : Nat) : Bool := decide (k < c.land) || c.above.contains k
/-- Element k has been fetched. -/
def isFetched (c : Chan) (k : Nat) : Bool := c.landed k || (tabFind c.fetched k).isSome

/-- Release the strip that holds element k and every strip below it (R143). -/
def releaseTo (c : Chan) (k : Nat) : Chan :=
  if c.exp = 0 then c else { c with released := max c.released (k / c.exp.toNat + 1) }

/-- Release every strip (R291). -/
def releaseAll (c : Chan) : Chan :=
  if c.active ∧ c.exp ≠ 0 then { c with released := max c.released (ceilDiv c.count c.exp.toNat) } else c

/-- Restart at the hart's ERET, or after a restore: fetches in flight are dropped (R126, R293). -/
def dropFetched (c : Chan) : Chan := { c with fetched := [], held := false, mig := none }

/-- The leading run after element k has landed, with what had landed above it (R156). -/
def advanceRun : Nat → Nat → List Nat → Nat × List Nat
  | 0, land, above => (land, above)
  | fuel + 1, land, above =>
    if above.contains land then advanceRun fuel (land + 1) (above.filter (fun j => j != land)) else (land, above)

/-- Element k lands: LAND and WMARK follow the leading run (R70, R156, R292). -/
def land1 (c : Chan) (k : Nat) : Chan :=
  let (land, above) := advanceRun (c.above.length + 1) c.land (k :: c.above)
  { c with
    land := land
    above := above
    fetched := tabDel c.fetched k
    held := false
    mig := none
    active := c.active && decide (land ≠ c.count)
    wmark := if land = 0 then c.wmark else 2 ^ 63 ||| (BitVec.ofNat 64 (c.dstAddr (land - 1)) &&& 0x01FFFFFFFFFFFFFF) }

/-- Stop the channel (R240 step 3): strips in flight are dropped, LAND and WMARK go to 0. -/
def stopped (c : Chan) : Chan :=
  { c with active := false, faulted := false, land := 0, wmark := 0, above := [], fetched := [], retired := 0,
           released := 0, held := false, mig := none }

end Chan

/-- A channel of a hart; the number is below 4 in every use. -/
def Hart.chan (h : Hart) (n : Nat) : Chan := h.chans[n % 4]'(Nat.mod_lt _ (by decide))

/-- Replace a channel. -/
def Hart.setChan (h : Hart) (n : Nat) (c : Chan) : Hart :=
  { h with chans := h.chans.set (n % 4) c (Nat.mod_lt _ (by decide)) }

/-- The interlock entries of a channel, as its landings and fetches leave them (R142). -/
def Hart.chanIlk (h : Hart) (n : Nat) : Hart :=
  let c := h.chan n
  if c.active then
    let src := h.ilk[(2 * n + 1) % 16]'(Nat.mod_lt _ (by decide))
    let k := ((List.range (c.limit + 1)).find? (fun k => !c.isFetched k)).getD c.count
    if 0 < c.desc[3].toInt ∧ k < c.count then
      h.setIlk (2 * n + 1) { src with lo := BitVec.ofNat 57 (c.srcAddr k) }
    else h
  else (h.setIlk (2 * n) Ilk.reset).setIlk (2 * n + 1) Ilk.reset

/-- The queue stops where its oldest entry stands (R16, R62): the entry's waits are abandoned, and its pins and its interlock entry are
released. -/
def Hart.stopQueue (h : Hart) : Hart :=
  match h.vq with
  | [] => { h with migVec := none, holdV := false, flight := none }
  | e :: _ =>
    { h with
      vstart := e.vstart
      vsWritten := false
      migVec := none
      holdV := false
      stoppedAt := true
      flight := none
      ilk := h.ilk.map Ilk.unissued }

/-- A cycle in which the hart's access stalls on the interlock table, with those since the last one counted (R164). -/
def Hart.stalled (h : Hart) (cycle : Nat) : Hart :=
  { h with ilkstall := h.ilkstall + BitVec.ofNat 64 (cycle + 1 - h.ilkAt.getD cycle), ilkAt := some (cycle + 1) }

/-- The stall is over. -/
def Hart.unstalled (h : Hart) (cycle : Nat) : Hart :=
  { h with ilkstall := h.ilkstall + BitVec.ofNat 64 (cycle - h.ilkAt.getD cycle), ilkAt := none }

/-- The oldest entry is about to stop (R284, R343): a stall of it ends; a move of it that its home has taken aborts, unless its data has
passed; the hops and the moves of its committed elements are counted (R145). -/
def stopFlight (g : Nat) : M Unit := do
  let cycle ← gets (fun s => s.cycle)
  whenM (← getHart g).ilkAt.isSome (modHart g (fun h => h.unstalled cycle))
  let s ← getState
  let p := (s.hart g).partid.toNat
  match (s.hart g).flight with
  | none => pure ()
  | some f => do
    let moving := f.move.filter (fun l => (s.line l).move.isSome)
    eachM moving.toList moveAbort
    let passed := f.move.any (fun l => (s.line l).st == 2#2)
    whenM passed (modHart g (fun h => h.modHead (fun e => { e with vstart := BitVec.ofNat 23 (f.lead + 1) })))
    addHits g p (f.hops ++ if passed then f.pend else [])
    addMoves g p (f.moved ++ if passed then [f.mover] else [])

/-- CP_FAULT (R293): the channel stops, and the hart traps at the boundary of its oldest incomplete entry, or before its
next scalar instruction. -/
def cpFault {α : Type} (g n k : Nat) (f : AFault) : M α := do
  let h ← getHart g
  let c := h.chan n
  let r : FRec := { FRec.base .cpFault g h.partid.toNat with
    vec := true, pc := c.cfgPc.toNat, addr := f.addr, detail := n, cpelem := k, pages := f.page.toList,
    aux := if f.cause = .fpe then f.cause.code + f.detail * 2 ^ 16 else f.cause.code }
  stopFlight g
  modHart g (fun h => (h.setChan n { (h.chan n).dropFetched with faulted := true }).stopQueue)
  match h.vq with
  | [] => recordTrap g r h.pc false
  | e :: _ => recordTrap g r e.pc true

/-- Instructions whose vector accesses are ordered by the interlock table (R142). -/
def interlocks : Instr → Bool
  | .vld .. | .vlds .. | .vlx .. | .vldff .. | .vlxff .. | .vldScale .. | .vldMask .. => true
  | .vst .. | .vsts .. | .vsx .. | .vstScale .. | .vstMask .. | .vscadd .. | .fwdmove .. | .mdrain .. => true
  | .vamoAdd .. | .vamoAnd .. | .vamoOr .. | .vamoXor .. | .vamoMin .. | .vamoMax .. => true
  | .vamoMinn .. | .vamoMaxn .. | .vamoSwap .. => true
  | _ => false

/-- A channel's access of n bytes at va conflicts with an interlock entry of a memory instruction (R143, R292). -/
def Ilk.blocks (x : Ilk) (writes : Bool) (va n : Nat) : Bool :=
  x.flying && (writes || x.kind != 3#3) && decide (x.lo.toNat < va + n) && decide (va ≤ x.hi.toNat)

/-- Nothing earlier in program order stands in the way of a channel's access for element k (R143, R167, R292): an entry is earlier that
was sent before the strip was released, and one that has not issued keeps the access waiting. Entries that a trap holds for ERET are
waited for by nothing (log entry 9, DEDUCED). -/
def Hart.chanMay (h : Hart) (n k : Nat) (writes : Bool) (va size : Nat) : Bool :=
  let strip := k / (h.chan n).exp.toNat
  let earlier (e : VEntry) : Bool := decide (e.freed.getD n 0 ≤ strip)
  match h.vq with
  | [] => true
  | e :: es =>
    h.vqHeld ||
      (!(earlier e && (if h.flight.isSome then h.ilk.toList.any (fun x => x.qpos == 0 && x.blocks writes va size) else interlocks e.insn))
        && !(es.any (fun e => earlier e && interlocks e.insn)))

/-- One access of a channel: the checks of R272 with no scratchpad, then its pieces brought to their lines, or a wait. -/
def chanAccess (g n k : Nat) (acc : Acc) (va size : Nat) : M (Res (List (Nat × Ready))) := do
  let s ← getState
  let w := s.walker g
  if !(s.hart g).chanMay n k acc.writes va size then pure (.wait none)
  else
    match checkElem s g w acc 1 va size with
    | .fail f => pure (.fail f)
    | .mig va => pure (.wait (some va))
    | .spad _ => pure (.wait none)
    | .pages l => do
      if ← touchPieces w l then reach g none w (l.flatMap VPiece.lines) else pure .stop

/-- A fetch or landing is held. -/
def chanHeld (g n : Nat) (mig : Option Nat) : M Bool := do
  modHart g (fun h => h.setChan n { h.chan n with held := true, mig := mig })
  pure false

/-- Fetch element k of channel n (R126, R292). False when the fetch waits. -/
def fetchElem (g n k : Nat) : M Bool := do
  let h ← getHart g
  let c := h.chan n
  match ← chanAccess g n k .load (c.srcAddr k) c.es with
  | .fail f => cpFault g n k f
  | .wait m => chanHeld g n m
  | .stop => hartError g h.partid.toNat
  | .ok rs => do
    let x ← loadAll g true rs
    modHart g (fun h => (h.setChan n { h.chan n with fetched := tabPut (h.chan n).fetched k x, held := false }).chanIlk n)
    addHits g h.partid.toNat (rs.flatMap (fun r => r.2.hops))
    pure true

/-- Land element k of channel n (R290, R292): convert, then store. The flags of its conversion are set as it lands. False when the
landing waits. -/
def landElem (g n k : Nat) : M Bool := do
  let h ← getHart g
  let c := h.chan n
  match tabFind c.fetched k with
  | none => pure false
  | some x => do
    let rd := ({ mode := c.mode.toNat, seed := c.seed.toNat } : Mode).at k 0
    let (y, fl) := if c.conv then convert c.srcCode c.typ rd x else (memCode c.typ (x % 2 ^ codeWidth c.typ), 0)
    match trappedFlag fl (trapEnables h.rmode) with
    | some b => cpFault g n k { cause := .fpe, addr := c.dstAddr k, detail := b, aux := 0, page := none }
    | none => do
      match ← chanAccess g n k .store (c.dstAddr k) c.ed with
      | .fail f => cpFault g n k f
      | .wait m => chanHeld g n m
      | .stop => hartError g h.partid.toNat
      | .ok rs => do
        eachPiece rs y
        modHart g (fun h => ((h.orFlags fl).setChan n ((h.chan n).land1 k)).chanIlk n)
        addHits g h.partid.toNat (rs.flatMap (fun r => r.2.hops))
        pure true
where
  /-- Store the bytes at their pieces. -/
  eachPiece : List (Nat × Ready) → Bits → M Unit
    | [], _ => pure ()
    | (_, r) :: rest, v => do
      storeReady g true r (v % 2 ^ (8 * r.n))
      eachPiece rest (v / 2 ^ (8 * r.n))

/-- A channel may fetch and land: its hart is placed and runs, and the channel is active, not FAULTED, and waits for no TLBI. -/
def chanRuns (h : Hart) (n : Nat) : Bool :=
  h.place.isSome && h.hstop == .run && (h.chan n).active && !(h.chan n).faulted && (h.chan n).mig.isNone

/-- Fetch and land the lowest element not landed, if its strip is released. False when nothing moved. -/
def chanStep (g n : Nat) : M Bool := do
  let h ← getHart g
  let c := h.chan n
  if chanRuns h n ∧ c.land < c.limit then
    if (tabFind c.fetched c.land).isSome then landElem g n c.land
    else if ← fetchElem g n c.land then landElem g n c.land else pure false
  else pure false

/-- Step a channel until LAND reaches a count, or it waits. -/
def chanDrive (g n : Nat) : Nat → Nat → M Unit
  | 0, _ => pure ()
  | fuel + 1, n' => do
    let c := (← getHart g).chan n
    if c.land < n' ∧ c.active then
      if ← chanStep g n then chanDrive g n fuel n' else pure ()
    else pure ()

/-! ### The interlock (R143) -/

/-- A byte is covered by a channel's watermark (R292). -/
def Chan.covers (c : Chan) (b : Nat) : Bool :=
  c.wmark.toNat.testBit 63 && decide (b < bitsGet c.wmark.toNat 0 57 + c.ed)

/-- The element of an arithmetic sequence of addresses that a byte belongs to, if any. -/
def elemWith (base : Nat) (step : Int) (size count b : Nat) : Option Nat :=
  let d : Int := (b : Int) - base
  if step = 0 then (if 0 ≤ d ∧ d < size ∧ 0 < count then some 0 else none)
  else if 0 < step then
    let k := d / step
    if 0 ≤ k ∧ k < count ∧ d - k * step < size then some k.toNat else none
  else
    let k := -(d / -step)
    if 0 ≤ k ∧ k < count ∧ d - k * step < size then some k.toNat else none

/-- The highest element of a channel's destination that a byte's wait needs: the byte's own element or the next one above
(R292); none when the byte lies outside the range or is covered. -/
def Chan.needs (c : Chan) (ilk : Ilk) (b : Nat) : Option Nat :=
  if ilk.v ∧ ilk.lo.toNat ≤ b ∧ b ≤ ilk.hi.toNat ∧ c.active ∧ !c.covers b then
    let step := c.desc[4].toNat
    let d := b - c.desc[2].toNat
    let k := if step = 0 then 0 else d / step
    some (min (if d - k * step < c.ed then k else k + 1) (c.count - 1))
  else none

/-- The source elements of a channel that hold a byte and are not yet fetched. -/
def Chan.unfetched (c : Chan) (ilk : Ilk) (b : Nat) : Option Nat :=
  if ilk.v ∧ c.active then
    match elemWith c.desc[1].toNat c.desc[3].toInt c.es c.count b with
    | some k =>
      if c.desc[3] = 0 then (if c.isFetched (c.count - 1) then none else some (c.count - 1))
      else if c.isFetched k then none else some k
    | none => none
  else none

/-- The bytes of an access: each address with its length. -/
abbrev Span := List (Nat × Nat)

/-- The element of channel n that an access must wait for, if any: the highest over the access's bytes. -/
def conflictWith (h : Hart) (n : Nat) (writes : Bool) (bytes : Span) : Option Nat :=
  let c := h.chan n
  let dst := h.ilk[(2 * n) % 16]'(Nat.mod_lt _ (by decide))
  let src := h.ilk[(2 * n + 1) % 16]'(Nat.mod_lt _ (by decide))
  let need := fun (a n : Nat) => (range' a n).filterMap (fun b => c.needs dst b)
  let uses := fun (a n : Nat) => if writes then (range' a n).filterMap (fun b => c.unfetched src b) else []
  (bytes.flatMap (fun p => need p.1 p.2 ++ uses p.1 p.2)).max?

/-- Strips of channel n below v have been released by the oldest entry of the queue: earlier than every entry behind it (R167). -/
def Hart.freeStrips (h : Hart) (n v : Nat) : Hart :=
  { h with vq := h.vq.map (fun e => { e with freed := e.freed.set n (max (e.freed.getD n 0) v) }) }

/-- Release the strips of a channel up to the one that holds element k, at the position of the oldest entry. -/
def Hart.releaseTo (h : Hart) (n k : Nat) : Hart :=
  (h.setChan n ((h.chan n).releaseTo k)).freeStrips n (k / (h.chan n).exp.toNat + 1)

/-- Check an access against the hart's channels: a conflict first releases strips, and the channel then moves of itself while
the vector side does not lag. True when no conflict is left. -/
def interlock (g : Nat) (writes : Bool) (bytes : Span) : List Nat → M Bool
  | [] => pure true
  | n :: ns => do
    let h ← getHart g
    match conflictWith h n writes bytes with
    | none => interlock g writes bytes ns
    | some k => do
      modHart g (fun h => h.releaseTo n k)
      let lag ← gets (fun s => s.lag.vside)
      whenM (!lag) (chanDrive g n (k + 1) (k + 1))
      let h ← getHart g
      match conflictWith h n writes bytes with
      | none => interlock g writes bytes ns
      | some _ => pure false

/-- The channels of a hart. -/
def channels : List Nat := [0, 1, 2, 3]

namespace VCtx

/-- No entry of the interlock table is free for an instruction that needs one (R143). -/
def tableFull (h : Hart) : Bool := (range' 8 8).all (fun k => (h.ilk[k % 16]'(Nat.mod_lt _ (by decide))).v)

/-- At issue the interlock comes first; then the instruction performs. entry says whether the instruction takes an entry of the
table. -/
def interlocked (c : VCtx) (writes entry : Bool) (bytes : Span) (k : M Bool) : M Bool := do
  let h ← getHart c.g
  if h.flight.isSome then k
  else do
    let free ← if h.chans.toList.any (fun x => x.active) then interlock c.g writes bytes channels else pure true
    let cycle ← gets (fun s => s.cycle)
    if free && !(entry && tableFull h) then do
      whenM h.ilkAt.isSome (modHart c.g (fun h => h.unstalled cycle))
      k
    else do
      modHart c.g (fun h => h.stalled cycle)
      c.wait c.start

end VCtx

end Sys2Proof.Machine
end

