-- ==== Sys2Proof/Machine/Atomic.lean ====
section
/-!
DEFINITION. Machine/Atomic.lean: atomics at their point of coherence (R95, R174, R279), and the release side of a hart (R172, R173).
-/
namespace Sys2Proof.Machine

/-- The operations of R277 on a width in bits: some new value, or none for a CAS whose compare fails. -/
def amoResult (op w old o cmp : Nat) : Option Nat :=
  match op with
  | 0 => some ((old + o) % 2 ^ w)
  | 1 => some (old &&& o)
  | 2 => some (old ||| o)
  | 3 => some (old ^^^ o)
  | 4 => some (intMinOf true w old o)
  | 5 => some (intMaxOf true w old o)
  | 6 => some (intMinOf false w old o)
  | 7 => some (intMaxOf false w old o)
  | 8 => some o
  | _ => if old = cmp then some o else none

/-- A mask of n bytes from byte off of a line. -/
def byteMask (off n : Nat) : Nat := (2 ^ n - 1) * 2 ^ off

/-- The cluster-cache line an atomic of core or cluster scope leaves: S and E become L, L stays, with the written bytes
marked (R95). -/
def markedLine (x : CcLine) (home : Bits) (off n v : Nat) : CcLine :=
  let data := if x.st = .l then x.data else home
  let mask := if x.st = .l then x.mask else 0
  { x with st := .l, data := bitsSet data (8 * off) (8 * n) v, mask := mask ||| byteMask off n }

/-- Read and write n bytes at pa as one action of a hart, at the scope's point of coherence (R279); f gives the new value. At core or
cluster scope it acts on its cluster's line in whatever state it holds, which it fetches as S where it holds none (R95). The result is
the old value. -/
def atomicAt (g scope pa n : Nat) (f : Nat → Option Nat) : M Nat := do
  let s ← getState
  if scope ≤ 1 ∧ tierOfPa s pa = some (tierOf g) then
    fetchLine g pa false
    let s ← getState
    let home := s.bytes (pa / 128 * 128) 128
    let x := (tabFind (s.cluster (clusterOf g)) (pa / 128)).getD { st := .s, data := 0, mask := 0, cores := 0 }
    let old := bitsGet (if x.st = .l then x.data else home) (8 * (pa % 128)) (8 * n)
    match f old with
    | none => pure old
    | some v =>
      if x.st = .m then do
        homeWrite pa n (v % 2 ^ (8 * n))
        keepReclaim pa n
        pure old
      else do
        upd (.cc (clusterOf g) (pa / 128) (some (markedLine x home (pa % 128) n (v % 2 ^ (8 * n)))))
        pure old
  else
    takeLine g pa
    let old ← gets (fun s => s.bytes pa n)
    match f old with
    | none => pure old
    | some v => do
      homeWrite pa n (v % 2 ^ (8 * n))
      keepReclaim pa n
      pure old

/-- An atomic on a settled piece; the issuing core keeps no copy of the lines it concerns. -/
def atomicReady (g scope : Nat) (r : Ready) (f : Nat → Option Nat) : M Nat := do
  match r.tgt with
  | .line pa => do
    let old ← atomicAt g scope pa r.n f
    dropCopies g pa
    whenM (r.orig / 128 != pa / 128) (dropCopies g r.orig)
    pure old
  | _ => pure 0

/-! ### The release side of a hart (R172, R173) -/

/-- The link to a peer is DOWN. -/
def peerDown (s : State) (peer : Nat) : Bool := (s.link (Config.linkOf peer).val).st == .down

/-- Every write of the hart to a peer is acknowledged, or its link is down. -/
def remoteSettled (s : State) (g : Nat) : Bool := (s.hart g).remote.all (fun e => peerDown s e.2)

/-- At domain or system scope a write is performed once its peer has acknowledged it (R168). -/
def ackedAt (s : State) (g scope : Nat) : Bool := decide (scope < 5) || remoteSettled s g

/-- Elements of a channel whose strips come before an instruction: the released strips, or those released before its send. -/
def Chan.ahead (c : Chan) (freed : Option Nat) : Nat :=
  match freed with
  | none => c.limit
  | some n => min c.limit (n * c.exp.toNat)

/-- Every copy-channel element of a strip before an instruction has landed, but for channels that stand FAULTED until ERET; the
channels move of themselves while the vector side does not lag (R172). freed gives the strips of each channel released before the
instruction's send, none where every released strip comes before it. -/
def channelsLanded (g : Nat) (freed : Option (List Nat)) : List Nat → M Bool
  | [] => pure true
  | n :: ns => do
    let upTo (c : Chan) : Nat := c.ahead (freed.map (fun l => l.getD n 0))
    let c := (← getHart g).chan n
    let lag ← gets (fun s => s.lag.vside)
    whenM (!lag && c.active && !c.faulted) (chanDrive g n (upTo c + 1) (upTo c))
    let c := (← getHart g).chan n
    if c.active && !c.faulted && decide (c.land < upTo c) then pure false else channelsLanded g freed ns

/-- The release side over both sides of a hart: its channels' elements landed, the write buffer of its core drained (R90), its writes
to peers acknowledged where the scope asks for it, and at .tier or wider its cluster's dirty bytes passed home. False when it waits. -/
def releaseBoth (g scope : Nat) (freed : Option (List Nat)) : M Bool := do
  if ← channelsLanded g freed channels then
    if ← flushCore g then
      if ← gets (fun s => ackedAt s g scope) then do
        releaseAt g scope
        pure true
      else pure false
    else pure false
  else pure false

/-- The release side over one side of a hart: the write buffer drains, and what of the other side waits in it is not waited for
(R280). -/
def releaseSide (g scope : Nat) (vec : Bool) (freed : Option (List Nat)) : M Bool := do
  let landed ← if vec then channelsLanded g freed channels else pure true
  let _ ← flushCore g
  let mine ← flushPosted g (some vec) (← getHart g).posted.length
  if landed && mine && (← gets (fun s => ackedAt s g scope)) then do
    releaseAt g scope
    pure true
  else pure false

end Sys2Proof.Machine
end

