-- ==== Sys2Proof/Machine/VInt.lean ====
section
/-!
DEFINITION. Machine/VInt.lean: vector integer arithmetic and compares (R247 to R250).
-/
namespace Sys2Proof.Machine.VCtx

/-- An element operation of R247: signedness, width, a, B and the old destination. -/
abbrev IntOp := Bool → Nat → Nat → Nat → Nat → Nat

/-- VADD. -/
def iAdd : IntOp := fun _ w a b _ => (a + b) % 2 ^ w
/-- VSUB. -/
def iSub : IntOp := fun _ w a b _ => (a + (2 ^ w - b % 2 ^ w)) % 2 ^ w
/-- VMUL. -/
def iMul : IntOp := fun _ w a b _ => (a * b) % 2 ^ w
/-- VMULH. -/
def iMulh : IntOp := fun s w a b _ => mulHigh s w a b
/-- VMACC. -/
def iMacc : IntOp := fun _ w a b d => (d + a * b) % 2 ^ w
/-- VDIV. -/
def iDiv : IntOp := fun s w a b _ => divQuot s w a b
/-- VREM. -/
def iRem : IntOp := fun s w a b _ => divRem s w a b
/-- VMIN. -/
def iMin : IntOp := fun s w a b _ => intMinOf s w a b
/-- VMAX. -/
def iMax : IntOp := fun s w a b _ => intMaxOf s w a b
/-- VAND. -/
def iAnd : IntOp := fun _ _ a b _ => a &&& b
/-- VOR. -/
def iOr : IntOp := fun _ _ a b _ => a ||| b
/-- VXOR. -/
def iXor : IntOp := fun _ _ a b _ => a ^^^ b
/-- VSLL. -/
def iSll : IntOp := fun _ w a b _ => shiftL w a b
/-- VSRL. -/
def iSrl : IntOp := fun _ w a b _ => shiftR w a b
/-- VSRA. -/
def iSra : IntOp := fun _ w a b _ => shiftA w a b
/-- VADDS: the exact sum clamped to the format's range. -/
def iAdds : IntOp := fun s w a b _ => clampTo s w (intOf s w a + intOf s w b)
/-- VSUBS. -/
def iSubs : IntOp := fun s w a b _ => clampTo s w (intOf s w a - intOf s w b)

/-- Operand B: element i of a vector group, or the scalar. -/
inductive BOp where
  | vec (b : BitVec 5)
  | scal
  deriving DecidableEq, Repr

/-- B(i) of R247. -/
def bOf (c : VCtx) (b : BOp) (h : Hart) (i : Nat) : Nat :=
  match b with
  | .vec r => c.src h r i
  | .scal => c.scalarB

/-- VINT and VINTX, every minor but 17 to 19 (R247). -/
def vint (c : VCtx) (d a : BitVec 5) (b : BOp) (m : BitVec 4) (f : IntOp) : M Bool :=
  c.toVector m c.code d c.grp (fun i h =>
    (f (codeSigned c.code) c.w (c.src h a i) (c.bOf b h i) (h.vget c.code d.toNat i), 0))

/-- VADC and VSBC (R248): every element performs, and m holds the carries in and out. -/
def vcarry (c : VCtx) (d a : BitVec 5) (b : BOp) (m : BitVec 4) (subtract : Bool) : M Bool :=
  c.elementwise (fun _ i => decide (i < c.cover))
    (fun i h =>
      let x := c.src h a i
      let y := c.bOf b h i
      let k := if (h.mreg m.toNat).testBit i then 1 else 0
      let t := x + y + k
      let u := if x < y + k then x + 2 ^ c.w - (y + k) else x - (y + k)
      if subtract then ((h.vput c.code d.toNat i u).mput m.toNat i (decide (x < y + k)), 0)
      else ((h.vput c.code d.toNat i (t % 2 ^ c.w)).mput m.toNat i (t.testBit c.w), 0))
    (fun h => h.trim c.code d.toNat c.grp)

/-- VMERGE (R249): m selects B where set and a where clear. -/
def vmerge (c : VCtx) (d a : BitVec 5) (b : BOp) (m : BitVec 4) : M Bool :=
  c.elementwise (fun _ i => decide (i < c.cover))
    (fun i h => (h.vput c.code d.toNat i (if (h.mreg m.toNat).testBit i then c.bOf b h i else c.src h a i), 0))
    (fun h => h.trim c.code d.toNat c.grp)

/-- VCMP on integers (R250): cond compares the two values. -/
def vcmp (c : VCtx) (d a b : BitVec 5) (m : BitVec 4) (cond : Int → Int → Bool) : M Bool :=
  c.toMask m d (fun i h =>
    let s := codeSigned c.code
    (cond (intOf s c.w (c.src h a i)) (intOf s c.w (c.src h b i)), 0))

/-- VFCMP (R250): condition codes of fCompare; negated for VFCMPNE. -/
def vfcmp (c : VCtx) (d a b : BitVec 5) (m : BitVec 4) (cond : Nat) (negated : Bool) : M Bool :=
  c.toMask m d (fun i h =>
    let r := fCompare (codeFmt c.code) cond (c.src h a i) (c.src h b i)
    (r.1 != negated, r.2))

end Sys2Proof.Machine.VCtx
end

