-- ==== Sys2Proof/Machine/VFp.lean ====
section
/-!
DEFINITION. Machine/VFp.lean: vector floating point (R251 to R253) and the floating-point reductions (R57, R58, R259).
-/
namespace Sys2Proof.Machine.VCtx

/-- The rounding of element i, ordinal n, in the captured mode (R49, R51). -/
def rnd (c : VCtx) (i n : Nat) : Rnd := c.mode.at i n

/-- A rounded element operation of R251 on values a, B and the old destination. -/
def vfp (c : VCtx) (d a : BitVec 5) (b : BOp) (m : BitVec 4) (f : FVal → FVal → FVal → Ex) : M Bool :=
  let ft := codeFmt c.code
  c.toVector m c.code d c.grp (fun i h =>
    ft.finish (c.rnd i 0) (f (ft.decode (c.src h a i)) (ft.decode (c.bOf b h i)) (ft.decode (h.vget c.code d.toNat i))))

/-- VFMIN and VFMAX: no rounding (R40). -/
def vfminmax (c : VCtx) (d a : BitVec 5) (b : BOp) (m : BitVec 4) (wantMax : Bool) : M Bool :=
  c.toVector m c.code d c.grp (fun i h => fMinMax (codeFmt c.code) wantMax (c.src h a i) (c.bOf b h i))

/-- A one-operand rounded function. -/
def vfun (c : VCtx) (d a : BitVec 5) (m : BitVec 4) (f : FVal → Ex) : M Bool :=
  c.vfp d a .scal m (fun x _ _ => f x)

/-- 1 / √x (R252). -/
def fRsq : FVal → Ex
  | .nan s => { val := .nan false, flags := if s then flNV else 0 }
  | .inf n => if n then invalid else exact (.zero false)
  | .num n m e _ =>
    if m = 0 then { val := .inf n, flags := flDZ }
    else if n then invalid
    else
      let (m, e) := if e % 2 = 0 then (m, e) else (2 * m, e - 1)
      let k := 160 + Nat.log2 m
      let q := isqrt (2 ^ (2 * k) / m)
      exact (.num false q (-(e / 2) - k) (decide (q * q * m ≠ 2 ^ (2 * k))))

/-- 1 / x (R252). -/
def fRcp (x : FVal) : Ex := fDiv (ofInt 1) x

/-- 2^x (R252). -/
def fExp2 : FVal → Ex
  | .nan s => { val := .nan false, flags := if s then flNV else 0 }
  | .inf n => exact (if n then .zero false else .inf false)
  | .num n m e _ => exact (exp2Num n m e)

/-- log2 x (R252). -/
def fLog2 : FVal → Ex
  | .nan s => { val := .nan false, flags := if s then flNV else 0 }
  | .inf n => if n then invalid else exact (.inf false)
  | .num n m e _ =>
    if m = 0 then { val := .inf true, flags := flDZ } else if n then invalid else exact (log2Num m e)

/-- tanh x (R252). -/
def fTanh : FVal → Ex
  | .nan s => { val := .nan false, flags := if s then flNV else 0 }
  | .inf n => exact (ofInt (if n then -1 else 1))
  | .num n m e _ => if m = 0 then exact (.zero n) else exact (tanhNum n m e)

/-- The smallest group for which the target's MVL reaches the source's (R253). -/
def cvtGroup (S ws gs wt : Nat) : Option Nat :=
  [1, 2, 4, 8].find? (fun g => decide (mvlOf S ws gs ≤ mvlOf S wt g))

/-- VFCVT (R253). -/
def vfcvt (c : VCtx) (d a : BitVec 5) (m : BitVec 4) (k : BitVec 5) : M Bool :=
  let t := convTarget k
  c.toVector m t d ((cvtGroup c.e.size c.w c.grp (codeWidth t)).getD 8) (fun i h => convert c.code t (c.rnd i 0) (c.src h a i))

/-! ### Ordered and tree reductions -/

/-- Round one addition of codes. -/
def addCodes (f : FFmt) (down : Bool) (rd : Rnd) (x y : Nat) : Nat × Nat :=
  f.finish rd (fAdd down (f.decode x) (f.decode y))

/-- A running reduction: the code, the flags so far, and the flag that trapped, if one did. -/
structure Acc1 where
  code  : Nat
  flags : Nat
  trap  : Option Nat
  deriving DecidableEq, Repr

/-- One more rounding, unless one has trapped. -/
def Acc1.push (r : Acc1) (ten : Nat) (x : Nat × Nat) : Acc1 :=
  match r.trap with
  | some _ => r
  | none => { code := x.1, flags := r.flags ||| x.2, trap := trappedFlag x.2 ten }

/-- VFREDO: each active element in turn (R57). -/
def ordered (c : VCtx) (ten : Nat) (elems : List (Nat × Nat)) (start : Nat) : Acc1 :=
  let f := codeFmt c.code
  elems.foldl (fun r e => match r.trap with
    | some _ => r
    | none => r.push ten (addCodes f c.down (c.rnd e.1 0) r.code e.2)) { code := start, flags := 0, trap := none }

/-- One level of the tree of R58: node j and the nodes after it, combined left to right; level counts from 1. Under SR a
node rounds with the lowest index of its leaves, j × 2^level (R49). -/
def treeLevel (c : VCtx) (ten level : Nat) : Nat → List (Option Nat) → Acc1 → List (Option Nat) × Acc1
  | j, x :: y :: rest, r =>
    match x, y with
    | some a, some b =>
      let r' := match r.trap with
        | some _ => r
        | none => r.push ten (addCodes (codeFmt c.code) c.down (c.rnd (j * 2 ^ level) (level - 1)) a b)
      let (ns, r'') := treeLevel c ten level (j + 1) rest r'
      (some r'.code :: ns, r'')
    | some a, none =>
      let (ns, r'') := treeLevel c ten level (j + 1) rest r
      (some a :: ns, r'')
    | none, n =>
      let (ns, r'') := treeLevel c ten level (j + 1) rest r
      (n :: ns, r'')
  | _, l, r => (l, r)

/-- The levels of the tree from a level on. -/
def treeLevels (c : VCtx) (ten : Nat) : Nat → Nat → List (Option Nat) → Acc1 → List (Option Nat) × Acc1
  | 0, _, l, r => (l, r)
  | n + 1, level, l, r =>
    let (l', r') := treeLevel c ten level 0 l r
    treeLevels c ten n (level + 1) l' r'

/-- Levels over n leaves. -/
def treeDepth (n : Nat) : Nat := if n ≤ 1 then 0 else Nat.log2 (n - 1) + 1

/-- VFREDT (R58): the tree over the leaves, padded to a power of two, then the start value. -/
def tree (c : VCtx) (ten : Nat) (leaves : List (Option Nat)) (start : Nat) : Acc1 :=
  let depth := treeDepth leaves.length
  let padded := leaves ++ List.replicate (2 ^ depth - leaves.length) none
  let (top, r) := treeLevels c ten depth 1 padded { code := start, flags := 0, trap := none }
  match top, r.trap with
  | _, some _ => r
  | some x :: _, none => r.push ten (addCodes (codeFmt c.code) c.down (c.rnd 0 depth) start x)
  | _, none => { r with code := start }

/-- VFREDO and VFREDT (R259): a whole instruction; an enabled flag leaves x[d] unwritten. -/
def vfred (c : VCtx) (a : BitVec 5) (m : BitVec 4) (ordered' : Bool) : M Bool := do
  let h ← getHart c.g
  let start := c.scalarB
  if c.start < c.vl then
    let ten := c.e.ten.toNat
    let act := c.all.filter (fun i => c.on h m i)
    let r := if ordered' then c.ordered ten (act.map (fun i => (i, c.src h a i))) start
      else c.tree ten (c.all.map (fun i => if c.on h m i then some (c.src h a i) else none)) start
    let h := h.orFlags r.flags
    match r.trap with
    | some k => do
      putHart c.g h
      c.trapWhole k
    | none => c.finish (h.fillRq (BitVec.ofNat 64 r.code))
  else c.finish (h.fillRq (BitVec.ofNat 64 start))

end Sys2Proof.Machine.VCtx
end

