-- ==== Sys2Proof/Machine/VMem.lean ====
section
/-!
DEFINITION. Machine/VMem.lean: vector loads and stores, VXLATE, VSCADD and the vector atomics (R267 to R278), and the fences of
the vector side (R172, R280).
-/
namespace Sys2Proof.Machine

/-- An address modulo 2^64. -/
def addr64 (base : Word) (off : Nat) : Nat := (base + BitVec.ofNat 64 off).toNat

namespace VCtx

/-- Active elements at send order, from VSTART. -/
def active (c : VCtx) (h : Hart) (m : BitVec 4) : List Nat := (range' c.start (c.vl - c.start)).filter (fun i => c.on h m i)

/-- A load of one element per address (R269). -/
def vload (c : VCtx) (d : BitVec 5) (m : BitVec 4) (trim : Bool) (at' : Hart → Nat → Nat) : M Bool := do
  let h ← getHart c.g
  let n := codeBytes c.code
  let op : MemOp := { c.loadOp (fun i => [(.load, at' h i, n)]) with trims := if trim then [.xlateNone] else [] }
  let tidy (h : Hart) : Hart := h.trim c.code d.toNat c.grp
  c.interlocked false true ((c.active h m).map (fun i => (at' h i, n)))
    (c.memory op tidy (fun h i => c.on h m i) (fun w i t =>
      c.loadElem w (fun x h => tidy (h.vput c.code d.toNat i (x % 2 ^ c.w))) t))

/-- A store of one element per address (R269). -/
def vstore (c : VCtx) (d : BitVec 5) (m : BitVec 4) (at' : Hart → Nat → Nat) : M Bool := do
  let h ← getHart c.g
  let n := codeBytes c.code
  let op : MemOp := c.storeOp (fun i => [(.store, at' h i, n)])
  c.interlocked true true ((c.active h m).map (fun i => (at' h i, n)))
    (c.memory op id (fun h i => c.on h m i) (fun w i t => c.storeElem w (memCode c.code (c.src h d i)) t))

/-- VLD's and VST's addresses: OPA + i × E. -/
def unitAddr (c : VCtx) (_ : Hart) (i : Nat) : Nat := addr64 c.e.opa (i * codeBytes c.code)
/-- VLDS's and VSTS's: OPA + i × s(OPB). -/
def strideAddr (c : VCtx) (_ : Hart) (i : Nat) : Nat := (c.e.opa + BitVec.ofNat 64 i * c.e.opb).toNat
/-- VLX's and VSX's: OPA + n(vb[i]). -/
def indexAddr (c : VCtx) (b : BitVec 5) (h : Hart) (i : Nat) : Nat := addr64 c.e.opa (c.src h b i)

/-- A whole-instruction access of n bytes at OPA (R271). -/
def wholeAccess (c : VCtx) (op : MemOp) (writes : Bool) (n : Nat) (act : Walker → ETrans → M Step) : M Bool :=
  if c.start < c.vl ∧ 0 < n then do
    let f := c.flightOf (← getHart c.g)
    c.interlocked writes true [(c.e.opa.toNat, n)]
      (c.sections op (op.inside [0]) [0] (fun w _ t => act w t) 1
        { hops := f.hops, moved := f.moved, pins := [], begun := f.begun, next := c.start } [0])
  else c.finish'

/-- A whole-instruction load of n bytes. -/
def wholeLoad (c : VCtx) (n : Nat) (put : Bits → Hart → Hart) : M Bool :=
  c.wholeAccess (c.loadOp (fun _ => [(.load, c.e.opa.toNat, n)])) false n (fun w t => c.loadElem w put t)

/-- A whole-instruction store of n bytes. -/
def wholeStore (c : VCtx) (n : Nat) (data : Hart → Bits) : M Bool := do
  let h ← getHart c.g
  c.wholeAccess (c.storeOp (fun _ => [(.store, c.e.opa.toNat, n)])) true n (fun w t => c.storeElem w (data h) t)

/-- Scale codes that VLD and VST of a scale register move. -/
def scaleBytes (c : VCtx) (h : Hart) : Nat := min (ceilDiv c.vl (vtBlock c.e.vtype)) h.wCodes

/-- VLD of a scale register. -/
def vldScale (c : VCtx) (d : BitVec 5) : M Bool := do
  let n := c.scaleBytes (← getHart c.g)
  c.wholeLoad n (fun x h => h.setWreg d.toNat (bitsSet (h.wreg d.toNat) 0 (8 * n) x))

/-- VST of a scale register. -/
def vstScale (c : VCtx) (d : BitVec 5) : M Bool := do
  let n := c.scaleBytes (← getHart c.g)
  c.wholeStore n (fun h => h.wreg d.toNat % 2 ^ (8 * n))

/-- VLD of a mask register. -/
def vldMask (c : VCtx) (d : BitVec 5) : M Bool :=
  c.wholeLoad (ceilDiv c.vl 8) (fun x h => h.setMreg d.toNat (bitsSet (h.mreg d.toNat) 0 c.vl x))

/-- VST of a mask register. -/
def vstMask (c : VCtx) (d : BitVec 5) : M Bool :=
  c.wholeStore (ceilDiv c.vl 8) (fun h => h.mreg d.toNat % 2 ^ c.vl)

/-! ### VXLATE (R275) -/

/-- VXLATE's walk of one address: the physical address, or a failure and whether it is XLATE_NONE. -/
def xlateOne (s : State) (w : Walker) (va : Nat) : Except Bool Nat :=
  if 2 ^ 57 ≤ va then .error true
  else if inSpad va 1 then .error false
  else match walk s w .load va with
    | .ok l => .ok (l.pa % 2 ^ 54)
    | .fault c => .error (c == .xlateNone)
    | .mig _ => .error false

/-- VXLATE and its trimming form. -/
def vxlate (c : VCtx) (d a b : BitVec 5) (m : BitVec 4) (trim : Bool) : M Bool := do
  let s ← getState
  let w := s.walker c.g
  let h := s.hart c.g
  let is := c.active h m
  let cutAt := if trim then is.find? (fun i => match xlateOne s w (c.src h a i) with
    | .error true => true
    | _ => false) else none
  let run := match cutAt with
    | some j => is.filter (fun i => decide (i < j))
    | none => is
  let h' := run.foldl (fun h i => match xlateOne s w (c.src h a i) with
    | .ok pa => (h.vput c.code d.toNat i pa).mput b.toNat i false
    | .error _ => (h.vput c.code d.toNat i 0).mput b.toNat i true) h
  putHart c.g h'
  match cutAt with
  | some j => c.cut { hops := [], moved := [], pins := [], begun := false, next := c.start } j
  | none => c.finish'

/-! ### VSCADD (R276) -/

/-- The combined addend of an address: its lowest element's addend, then each later active element's, with the flags set and
the flag that trapped. -/
def combine (c : VCtx) (ten : Nat) (first : Nat) (later : List (Nat × Nat)) : Acc1 :=
  if codeFloat c.code then
    later.foldl (fun r e => match r.trap with
      | some _ => r
      | none => r.push ten (addCodes (codeFmt c.code) c.down (c.rnd e.1 0) r.code e.2))
      { code := first, flags := 0, trap := none }
  else
    { code := (later.foldl (fun x e => x + memCode c.code e.2) (memCode c.code first)) % 2 ^ (8 * codeBytes c.code),
      flags := 0, trap := none }

/-- The addition at the home: the new bytes and the flags. -/
def homeAdd (c : VCtx) (low sum old : Nat) : Nat × Nat :=
  if codeFloat c.code then addCodes (codeFmt c.code) c.down (c.rnd low 1) old sum
  else ((old + sum) % 2 ^ (8 * codeBytes c.code), 0)


/-- An enabled flag k at an element whose access is at va. -/
def flagAt (va k : Nat) : AFault := { cause := .fpe, addr := va, detail := k, aux := 0, page := none }

/-- An atomic access of elements: aligned, in no scratchpad, after the hart's own writes. -/
def atomicOp (c : VCtx) (n : Nat) (at' : Nat → Nat) : MemOp :=
  { spad := false, align := n, trims := [], spans := fun i => [(.atomic, at' i, n)], kind := some 2, group := groupOf c.code,
    reads := true, look := lookAll c.g none }

/-- VSCADD. -/
def vscadd (c : VCtx) (d b : BitVec 5) (m : BitVec 4) : M Bool := do
  let h ← getHart c.g
  let n := codeBytes c.code
  let every := c.all.filter (fun i => c.on h m i)
  let at' := fun (i : Nat) => c.indexAddr b h i
  let merged (i : Nat) : Bool := every.any (fun j => decide (j < i) && at' j == at' i)
  let ten := c.e.ten.toNat
  c.interlocked true true ((c.active h m).map (fun i => (at' i, n)))
    (c.memory (c.atomicOp n at') id (fun h i => c.on h m i) (fun w i t => do
      if merged i then pure (.ok { hops := [] })
      else
        match t with
        | .pages l => do
          match ← settleAll c.g none w (l.flatMap VPiece.lines) with
          | .fail f => pure (.fail f)
          | .wait m => pure (.wait m)
          | .stop => pure .stop
          | .ok rs => do
            let later := (every.filter (fun j => decide (i < j) && at' j == at' i)).map (fun j => (j, c.src h d j))
            let r := c.combine ten (c.src h d i) later
            modHart c.g (fun h => h.orFlags r.flags)
            match r.trap, rs with
            | some k, _ => pure (.fail (flagAt (at' i) k))
            | none, (_, rd) :: _ => do
              let old ← atomicReady c.g 4 rd (fun old => some (c.homeAdd i r.code old).1)
              let fl := (c.homeAdd i r.code old).2
              modHart c.g (fun h => h.orFlags fl)
              pure (.ok { hops := hopsOf rs, flag := (trappedFlag fl ten).map (fun k => flagAt (at' i) k) })
            | none, [] => pure (.ok { hops := [] })
        | _ => pure (.ok { hops := [] })))

/-! ### Vector atomics (R278) -/

/-- The release side of an entry over both sides, up to its place in program order. -/
def release (c : VCtx) (scope : Nat) : M Bool := do
  let h ← getHart c.g
  releaseBoth c.g scope (some ((h.vq.head?.map (fun e => e.freed)).getD []))

/-- VAMO: op is the operation of R277; scope, q and l its scope, aq and rl. -/
def vamo (c : VCtx) (op : Nat) (d b : BitVec 5) (m : BitVec 4) (scope : BitVec 3) (q l : BitVec 1) : M Bool := do
  let h ← getHart c.g
  let n := codeBytes c.code
  let at' := fun (i : Nat) => c.get h 7#8 b i
  let run : M Bool := c.memory (c.atomicOp n at') id (fun h i => c.on h m i) (fun w i t =>
    match t with
    | .pages ps => do
      match ← settleAll c.g none w (ps.flatMap VPiece.lines) with
      | .fail f => pure (.fail f)
      | .wait m => pure (.wait m)
      | .stop => pure .stop
      | .ok rs =>
        match rs with
        | (_, r) :: _ => do
          let old ← atomicReady c.g scope.toNat r (fun old => amoResult op c.w old (c.src h d i) 0)
          modHart c.g (fun h => h.vput c.code d.toNat i old)
          pure (.ok { hops := hopsOf rs })
        | [] => pure (.ok { hops := [] })
    | _ => pure (.ok { hops := [] }))
  c.interlocked true true ((c.active h m).map (fun i => (at' i, n))) (do
    if c.vl ≤ c.start then c.finish'
    else if l = 1#1 ∧ h.flight = none then
      if ← c.release scope.toNat then go run else c.wait c.start
    else go run)
where
  /-- Run, then the acquire side. -/
  go (run : M Bool) : M Bool := do
    if ← run then do
      whenM (q == 1#1) (acquireAt c.g scope.toNat true)
      pure true
    else pure false

/-! ### Fences of the vector side -/

/-- FENCE.SV (R172): later vector accesses wait for the scalar side's earlier ones. -/
def fenceSv (c : VCtx) (scope : BitVec 3) : M Bool := do
  if ← releaseSide c.g scope.toNat false none then do
    acquireAt c.g scope.toNat false
    c.finish'
  else c.wait c.start

/-- FENCE.VV (R172): every earlier vector access, copy elements of the strips before it included, is performed first. -/
def fenceVv (c : VCtx) (scope : BitVec 3) : M Bool := do
  let h ← getHart c.g
  if ← releaseSide c.g scope.toNat true (some ((h.vq.head?.map (fun e => e.freed)).getD [])) then do
    acquireAt c.g scope.toNat false
    c.finish'
  else c.wait c.start

end VCtx

end Sys2Proof.Machine
end

