-- ==== Sys2Proof/Machine/Gang.lean ====
section
/-!
DEFINITION. Machine/Gang.lean: streams between members (R324 to R327) and broadcast writes from the vector queue (R328), with
the changes of a gang's barrier.
-/
namespace Sys2Proof.Machine

/-! ### Gangs -/

/-- The gang a hart is a member of, with its number. -/
def State.gangOf (s : State) (g : Nat) : Option (Nat × Gang) :=
  match (s.hart g).place with
  | none => none
  | some p => (tabFind s.gangs p.gang).map (fun x => (p.gang, x))

/-- The hart's index in its gang. -/
def Hart.index (h : Hart) : Nat :=
  match h.place with
  | some p => p.index
  | none => 0

/-- Change a gang's barrier: in the tier's cell, or as a broadcast write of hart g when the gang spans tiers (R321). False when
the transmit queue is full. -/
def barrierChange (g : Nat) (x : Gang) (what : BKind) : M Bool := do
  if x.spans then queueWrite g what
  else do
    countRecord (tierOf g) what
    pure true

/-! ### Streams -/

/-- The stream a hart's register receives. -/
def Gang.into (x : Gang) (cons vd : Nat) : Option Stream := x.streams.find? (fun t => t.cons == cons && t.vd == vd)

/-- The streams a hart's register feeds: at most one (R324). -/
def Gang.outOf (x : Gang) (prod k : Nat) : Option Stream := x.streams.find? (fun t => t.prod == prod && t.k == k)

/-- Replace the stream into a register. -/
def Gang.setStream (x : Gang) (cons vd : Nat) (f : Stream → Stream) : Gang :=
  { x with streams := x.streams.map (fun t => if t.cons == cons && t.vd == vd then f t else t) }

/-- Remove the stream into a register. -/
def Gang.dropStream (x : Gang) (cons vd : Nat) : Gang :=
  { x with streams := x.streams.filter (fun t => !(t.cons == cons && t.vd == vd)) }

/-- Why SOPEN is refused, if it is (R322, R324). -/
def sopenFault (s : State) (g : Nat) (x : Gang) (n k vd : Nat) : Option Cause :=
  let me := (s.hart g).index
  if n < x.members.length ∧ x.lost.contains n then some .gangLost
  else if x.members.length ≤ n ∨ n = me then some .streamBad
  else if x.retired.contains n then some .streamBad
  else if (s.hart (x.members.getD n 0)).named ≤ k then some .streamBad
  else if (x.outOf n k).isSome ∨ (x.into me vd).isSome ∨ (x.outOf me vd).isSome then some .streamBad
  else if 4 ≤ (x.streams.filter (fun t => t.cons == me)).length then some .streamBad
  else none

namespace VCtx

/-- SOPEN (R324). -/
def sopen (c : VCtx) (d k : BitVec 5) : M Bool := do
  let s ← getState
  match s.gangOf c.g with
  | none => c.faultWhole .streamBad 0
  | some (gg, x) =>
    let n := c.e.opa.toNat
    match sopenFault s c.g x n k.toNat d.toNat with
    | some cause => c.faultWhole cause 0
    | none => do
      modGang gg (fun x => { x with streams := x.streams ++ [
        { prod := n, k := k.toNat, cons := (s.hart c.g).index, vd := d.toNat, written := 0, read := 0, item := none,
          done := false }] })
      c.finish'

/-- SCLOSE (R327). -/
def sclose (c : VCtx) (d : BitVec 5) : M Bool := do
  let s ← getState
  let h := s.hart c.g
  match s.gangOf c.g with
  | none => c.finish h
  | some (gg, x) =>
    match x.into h.index d.toNat with
    | none => c.finish h
    | some _ => do
      modGang gg (fun x => x.dropStream h.index d.toNat)
      c.finish (h.setVreg d.toNat 0)

/-! ### BST (R328, R329) -/

/-- The broadcast block and word that an address of a BC page names: none outside the tower's region (log entry 20, DEDUCED). -/
def blockOf (s : State) (g pa : Nat) : Option (Nat × Nat) :=
  let a := localOf pa
  let off := a % Config.tierBytes
  if s.inBroadcast a ∧ homeTier a / 12 = towerOf g then
    let o := off - (s.tower (towerOf g)).table.bOff
    some (o / 512, o % 512 / 8)
  else none

/-- The mask and payload of some words of one block. -/
def wordsOf : List (Nat × Nat) → Bits × Bits
  | [] => (0, 0)
  | (k, x) :: rest =>
    let (m, p) := wordsOf rest
    (bitPut m k true, bitsSet p (64 * k) 64 x)

/-- A broadcast write's element: each at its own address in a BC page, its groups the blocks of 512 bytes (R328). -/
def bstOp (c : VCtx) (at' : Nat → Nat) : MemOp :=
  { spad := false, align := 8, trims := [], spans := fun i => [(.bst, at' i, 8)], kind := none, group := 64
    skew := at' 0 % 512 / 8, reads := false, look := fun _ _ _ => []
    own := fun s t =>
      match t with
      | .pages (p :: _) => if (blockOf s c.g p.leaf.pa).isNone then some (plainFault .bcastWrite p.va 1) else none
      | _ => none }

/-- The release of a broadcast write, which performs once. -/
def bstRelease (c : VCtx) : M Bool := do
  if (← getHart c.g).flight.any (fun f => f.begun) then pure true else c.release 3

/-- BST, vector form: the first active element of a block queues the whole block's write. -/
def bstVector (c : VCtx) (d : BitVec 5) (m : BitVec 4) : M Bool := do
  let h ← getHart c.g
  let at' := fun (i : Nat) => addr64 c.e.opa (8 * i)
  let every := c.active h m
  if c.vl = 0 then c.finish'
  else if every.isEmpty then
    if ← c.release 3 then c.finish' else c.wait c.start
  else
    c.interlocked true false (every.map (fun i => (at' i, 8)))
      (c.memory (c.bstOp at') id (fun h i => c.on h m i) (fun _ i t =>
        match t with
        | .pages (p :: _) => do
          let mine := every.filter (fun j => at' j / 512 == at' i / 512)
          match ← gets (fun s => blockOf s c.g p.leaf.pa) with
          | some (index, _) =>
            if mine.head? ≠ some i then pure (.ok { hops := [] })
            else if ← c.bstRelease then do
              let (mask, payload) := wordsOf (mine.map (fun j => (at' j % 512 / 8, c.src h d j)))
              if ← queueWrite c.g (.block index mask payload) then pure (.ok { hops := [] }) else pure (.wait none)
            else pure (.wait none)
          | none => pure (.ok { hops := [] })
        | _ => pure (.ok { hops := [] })))

/-- BST, scalar form: it acts whatever VL is. -/
def bstScalar (c : VCtx) : M Bool := do
  let va := c.e.opa.toNat
  let op := c.bstOp (fun _ => va)
  let took : Took := { hops := [], moved := [], pins := [], begun := false, next := c.start }
  c.interlocked true false [(va, 8)] (do
    let s ← getState
    let f := c.flightOf (s.hart c.g)
    let resumed := decide (0 < f.upto)
    let w := if resumed then s.pinned c.g else s.walker c.g
    let t := ((checkSection s c.g w op false [0]).map (fun e => e.2)).headD (.pages [])
    let waits (f : Flight) (mig : Option Nat) : M Bool := c.stay op [0] took 0 mig f
    if !resumed && shotDown s w.part op [0] then waits { start := f.start } none
    else
      match t with
      | .fail x => c.faultAt c.start (c.xlateRecord s [(0, x)] 0 x)
      | .mig va => waits { start := f.start } (some va)
      | .spad _ => c.finish'
      | .pages l =>
        if ← touchPieces w l then do
          match blockOf s c.g ((l.map (fun p => p.leaf.pa)).headD 0) with
          | none => c.finish'
          | some (index, k) => do
            let (mask, payload) := wordsOf [(k, c.e.opb.toNat)]
            if ← c.bstRelease then
              if ← queueWrite c.g (.block index mask payload) then c.finish'
              else waits { start := f.start, upto := 1, pins := t.pins s w } none
            else waits { start := f.start, upto := 1, pins := t.pins s w } none
        else c.errorAt c.start)

end VCtx

end Sys2Proof.Machine
end

