-- ==== Sys2Proof/Machine/Backing.lean ====
section
/-!
DEFINITION. Machine/Backing.lean: the loss of a hart's state (R32, R350), and the register backing areas (R83).
-/
namespace Sys2Proof.Machine

/-! ### A hart that is lost -/

/-- A gang's barrier goes to BROKEN: at once on one tier, else as a broadcast write, which its tier's transmit queue takes
whatever its depth. -/
def breakBarrier (g gg : Nat) (x : Gang) : M Unit := do
  if ← barrierChange g x (.broken gg) then pure ()
  else
    let p := (← getHart g).partid.toNat
    modTier (tierOf g) (fun t => { t with tx := tabPut t.tx p (tabGet [] t.tx p ++ [{ hart := g, what := .broken gg }]) })

/-- A placed hart's state is lost (R32, R350): its record is posted, it executes nothing further and keeps its slot, and its
gang's barrier breaks. -/
def loseHart (g : Nat) : M Unit := do
  let h ← getHart g
  match h.place with
  | none => pure ()
  | some e =>
    if h.hstop = .lost then pure ()
    else do
      modHart g (fun h => { h with hstop := .lost })
      match ← gets (fun s => tabFind s.gangs e.gang) with
      | some x => do
        modGang e.gang (fun x => { x with lost := e.index :: x.lost })
        breakBarrier g e.gang x
      | none => pure ()
      postApart (FRec.base .hartLost g h.partid.toNat) none

/-! ### Backing areas (R83) -/

/-- S′: MVLmax bits are 8 × S′ bytes (R59). -/
def sPrime (S : Nat) : Nat := mvlMax S / 64

/-- Bits laid one after another, each in a number of bytes. -/
def packBytes : List (Nat × Nat) → Bits
  | [] => 0
  | (v, n) :: rest => v % 2 ^ (8 * n) + 2 ^ (8 * n) * packBytes rest

/-- The m section and the w section behind a v section at base, and the first byte behind them (R344). -/
def sectionsFrom (base named S : Nat) : Nat × Nat × Nat :=
  let m := roundUp (base + named * S) 128
  let w := roundUp (m + 96 * sPrime S) 128
  (m, w, roundUp (w + 32 * sPrime S) 128)

/-- Some bits cut into n registers of a size in bytes. -/
def cutRegs (b : Bits) (off n size : Nat) : List Bits := (List.range n).map (fun k => bitsGet b (8 * (off + size * k)) (8 * size))

/-- A list as a vector of n items. -/
def vecOf {α : Type} (n : Nat) (d : α) (l : List α) : Vector α n := Vector.ofFn (fun k => l.getD k.val d)

/-- The bytes of a hart's backing area: its v, m and w sections, from the area's start (log entry 75, DEDUCED). -/
def Hart.areaBits (h : Hart) : Bits :=
  let (m, w, stop) := sectionsFrom 0 h.named h.lay
  packBytes [(packBytes ((h.v.toList.take h.named).map (fun r => (r, h.lay))), m),
    (packBytes (h.m.toList.map (fun r => (r, 8 * sPrime h.lay))), w - m),
    (packBytes (h.w.toList.map (fun r => (r, 4 * sPrime h.lay))), stop - w)]

/-- The hart with the registers that its backing area holds. -/
def Hart.withArea (h : Hart) (b : Bits) : Hart :=
  let (m, w, _) := sectionsFrom 0 h.named h.lay
  { h with
    v := vecOf 32 0 (cutRegs b 0 h.named h.lay)
    m := vecOf 12 0 (cutRegs b m 12 (8 * sPrime h.lay))
    w := vecOf 8 0 (cutRegs b w 8 (4 * sPrime h.lay))
    spilled := false }

/-- Where a hart's backing area lies. -/
def areaOf (s : State) (g : Nat) : Nat := (s.part (s.hart g).partid.toNat).rbbase + 0x1000000 * g

/-- A spill or a fill whose walk fails loses the hart's state (R83, R112). -/
def areaFails (g : Nat) : M Unit := do
  modCore (coreOf g) (fun k => { k with ceunc := sat32 k.ceunc 1 })
  loseHart g

/-- Spill a hart's registers: its backing area alone holds them. -/
def spillRegs (g : Nat) : M Unit := do
  let h ← getHart g
  let a ← gets (fun s => areaOf s g)
  if ← devWrite h.partid.toNat a (sectionsFrom 0 h.named h.lay).2.2 h.areaBits then
    modHart g (fun h => { h with
      v := Vector.replicate 32 0, m := Vector.replicate 12 0, w := Vector.replicate 8 0, spilled := true })
  else areaFails g

/-- Fill a hart's registers from its backing area, if they are spilled. False when the hart is lost on the way. -/
def fillRegs (g : Nat) : M Bool := do
  let h ← getHart g
  if h.spilled then do
    let a ← gets (fun s => areaOf s g)
    match ← devRead h.partid.toNat a (sectionsFrom 0 h.named h.lay).2.2 with
    | some b => do
      modHart g (fun h => h.withArea b)
      pure true
    | none => do
      areaFails g
      pure false
  else pure true

end Sys2Proof.Machine
end

