-- ==== Sys2Proof/Machine/Copy.lean ====
section
/-!
DEFINITION. Machine/Copy.lean: the copy-channel instructions (R289 to R291).
-/
namespace Sys2Proof.Machine

/-- The bytes from the lowest to the highest that the elements of an arithmetic sequence occupy. -/
def stretch (base : Nat) (step : Int) (size count : Nat) : Int × Int :=
  let last : Int := base + step * (count - 1)
  (min (base : Int) last, max (base : Int) last + size - 1)

/-- The elements of an arithmetic sequence that may meet the bytes from lo to hi: the first and how many. -/
def meeting (base : Nat) (step : Int) (size count : Nat) (lo hi : Int) : Nat × Nat :=
  if step = 0 then (0, 1)
  else if 0 < step then
    let a := max 0 ((lo - size + 1 - base + step - 1) / step)
    let b := min ((count : Int) - 1) ((hi - base) / step)
    (a.toNat, (b + 1 - a).toNat)
  else
    let a := max 0 (((base : Int) - hi + -step - 1) / -step)
    let b := min ((count : Int) - 1) ((base - (lo - size + 1)) / -step)
    (a.toNat, (b + 1 - a).toNat)

/-- Some byte of a source element is also one of a destination element (R290). -/
def elementsMeet (c : Chan) : Bool :=
  let src := c.desc[1].toNat
  let dst := c.desc[2].toNat
  let ss := c.desc[3].toInt
  let ds := c.desc[4].toInt
  let (lo, hi) := stretch dst ds c.ed c.count
  let (k0, n) := meeting src ss c.es c.count lo hi
  (range' k0 n).any (fun k =>
    (List.range c.es).any (fun b => (elemWith dst ds c.ed c.count (((src : Int) + ss * k + b).toNat)).isSome))

/-- The descriptor is one that CPCFG refuses with CP_BAD (R290). -/
def Chan.bad (c : Chan) : Bool :=
  decide (bitsGet c.desc[0].toNat 58 6 ≠ 0) || decide (c.count = 0)
    || (c.conv && !(convertible c.from_ && convertible c.typ))
    || (decide (1 < c.count) && decide (c.desc[4].toInt < c.ed))
    || elementsMeet c

/-- The first of the channel's ranges that names the scratchpad window: its lowest byte and the access. -/
def Chan.inWindow (c : Chan) : Option (Nat × Acc) :=
  let hit (r : Int × Int) : Bool := decide ((Config.spadBase : Int) ≤ r.2) && decide (r.1 < (Config.spadEnd : Int))
  let src := stretch c.desc[1].toNat c.desc[3].toInt c.es c.count
  let dst := stretch c.desc[2].toNat c.desc[4].toInt c.ed c.count
  if hit src then some (src.1.toNat, .load) else if hit dst then some (dst.1.toNat, .store) else none

/-- A configured channel's interlock entries (R142). -/
def Hart.setRanges (h : Hart) (n : Nat) : Hart :=
  let c := h.chan n
  let entry (kind : BitVec 3) (r : Int × Int) : Ilk :=
    { v := true, kind := kind, ch := BitVec.ofNat 2 n, qpos := 0, lo := BitVec.ofInt 57 r.1, hi := BitVec.ofInt 57 r.2 }
  ((h.setIlk (2 * n) (entry 0 (stretch c.desc[2].toNat c.desc[4].toInt c.ed c.count))).setIlk (2 * n + 1)
    (entry 1 (stretch c.desc[1].toNat c.desc[3].toInt c.es c.count)))

/-- A channel has begun anew: of its strips, those released now come before every entry behind the oldest. -/
def Hart.freeFrom (h : Hart) (n : Nat) : Hart :=
  { h with vq := h.vq.map (fun e => { e with freed := e.freed.set n (h.chan n).released }) }

namespace VCtx

/-- The channel that a descriptor's 40 bytes configure. -/
def newChan (c : VCtx) (t : BitVec 8) (x : Bits) : Chan :=
  { Chan.reset with
    desc := Vector.ofFn (fun (k : Fin 5) => BitVec.ofNat 64 (bitsGet x (64 * k.val) 64))
    typ := t, mode := c.e.mode, seed := c.e.seed, active := true, exp := BitVec.ofNat 23 c.vl, released := 4,
    cfgPc := c.e.pc }

/-- CPCFG once its descriptor is read (R290): its strips 0 to 3 come before every later instruction (R167). -/
def configure (c : VCtx) (n : Nat) (new : Chan) (hops : List Nat) : M Bool := do
  if new.bad then c.faultWhole .cpBad 0
  else match new.inWindow with
    | some (va, acc) => do
      let s ← getState
      c.faultAt c.start { c.record s .spadRange with addr := va, detail := acc.detail }
    | none => do
      modHart c.g (fun h => ((h.setChan n new).setRanges n).freeFrom n)
      let done ← c.finish'
      addHits c.g (← c.part) hops
      pure done

/-- CPCFG. -/
def cpcfg (c : VCtx) (n : BitVec 5) (t : BitVec 8) : M Bool := do
  if c.vl = 0 then c.finish'
  else do
    let w ← gets (fun s => s.walker c.g)
    let va := c.e.opa.toNat
    c.interlocked false false [(va, 40)] (do
      let s ← getState
      match checkElem s c.g w .load 1 va 40 with
      | .fail f => c.faultAt c.start (c.xlateRecord s [(0, f)] 0 f)
      | .mig p => c.held c.start (some p)
      | .spad _ => c.finish'
      | .pages l => do
        if ← touchPieces w l then
          match ← reach c.g none w (l.flatMap VPiece.lines) with
          | .wait m => c.held c.start m
          | .stop => c.errorAt c.start
          | .fail f => do
            let s ← getState
            c.faultAt c.start { c.elemRecord s 0 f with elemp := false }
          | .ok rs => do
            let x ← loadAll c.g true rs
            c.configure n.toNat (c.newChan t x) (hopsOf rs)
        else c.errorAt c.start)

/-- CPSTEP (R291). -/
def cpstep (c : VCtx) (n : BitVec 5) : M Bool := do
  let h ← getHart c.g
  let x := (h.chan n.toNat).retireStrip
  c.finish ((h.setChan n.toNat x).freeStrips n.toNat (x.retired + 4))

/-- CPWAIT (R291). -/
def cpwait (c : VCtx) (n : BitVec 5) : M Bool := do
  modHart c.g (fun h =>
    let x := (h.chan n.toNat).releaseAll
    (h.setChan n.toNat x).freeStrips n.toNat x.released)
  let s ← getState
  let x := (s.hart c.g).chan n.toNat
  whenM (!s.lag.vside) (chanDrive c.g n.toNat (x.count + 1) x.count)
  let h ← getHart c.g
  let x := h.chan n.toNat
  if x.active ∧ x.land < x.count then c.wait c.start else c.finish h

/-- CPLAND (R291). -/
def cpland (c : VCtx) (n : BitVec 5) : M Bool := do
  let h ← getHart c.g
  c.finish (h.fillRq (BitVec.ofNat 64 (h.chan n.toNat).land))

end VCtx

end Sys2Proof.Machine
end

