-- ==== Sys2Proof/Machine/Fwd.lean ====
section
/-!
DEFINITION. Machine/Fwd.lean: the forwarding instructions (R282 to R288): moving a line, resolving pointers, shortening chains,
and reclaiming a region.
-/
namespace Sys2Proof.Machine

/-! ### Moves (R101, R283, R284) -/

/-- Reason of an aborted move, by the destination, as its home checks it (R284): named says that a lower active element of the
same instruction names it. A line whose MARK and STATE disagree is not NORMAL. -/
def moveReason (s : State) (part src : Nat) (dst : Option Nat) (named : Bool) : Option Nat :=
  match dst with
  | none => some 1
  | some d =>
    let x := s.line d
    if x.mark ∨ x.st ≠ 0 ∨ d = src then some 1
    else if x.reserved ∨ named then some 2
    else if x.ptag ≠ 127 ∧ x.ptag ≠ part then some 4
    else none

/-- Pass a MOVING line's data to its destination and forward it (R101). A source that cannot be read, or a destination whose write has
met an uncorrectable error, aborts the move. -/
def moveDone (src dst newva part : Nat) : M Bool := do
  let x ← gets (fun s => s.line src)
  if x.poison || x.move.any (fun m => m.failed) then do
    endMove src false 0
    releaseDest dst
    pure false
  else do
    let s ← getState
    probe dst (holders s (dst * 128))
    homeWrite (dst * 128) 128 (s.bytes (src * 128) 128)
    keepReclaim (dst * 128) 128
    releaseDest dst
    homeWrite (src * 128) 128 (fwdRecord newva part)
    endMove src true 2
    pure true

/-- Accept a move at its home: the source's cluster copies are recalled, it turns MOVING, and the destination is reserved. -/
def moveBegin (src dst newva part : Nat) : M Unit := do
  let s ← getState
  probe src (holders s (src * 128))
  let x ← gets (fun s => s.line src)
  upd (.line src { x with mark := true, st := 1, move := some { dst := dst, newva := newva, part := part, failed := false } })
  let d ← gets (fun s => s.line dst)
  upd (.line dst { d with reserved := true })

/-- The line of a leaf, if it is one of DRAM. -/
def lineOf (s : State) (w : Walker) (l : Leaf) : Option Nat :=
  match targetOf s w.tier l with
  | .line pa => some (pa / 128)
  | _ => none

namespace VCtx

/-- FWD_MOVE with its reason. -/
def moveFault (va reason : Nat) : AFault := plainFault .fwdMove va reason

/-- A lower active element that this execution has performed names the destination line. -/
def destNamed (c : VCtx) (s : State) (w : Walker) (h : Hart) (b : BitVec 5) (m : BitVec 4) (base i dst : Nat) : Bool :=
  (range' base (i - base)).any (fun j => c.on h m j && (match walk s w .store (c.src h b j) with
    | .ok l => lineOf s w l == some dst
    | _ => false))

/-- Where FWDMOVE's source leads (R102): POISON of its final line is the home's to find as the move begins. -/
def sourceTrail (g : Nat) (s : State) (w : Walker) (p : VPiece) : Trail :=
  follow s w .atomic true (s.hart g).hopLimit ((s.hart g).hopLimit + 1) p.va p.leaf []

/-- Where a destination stands: its tier wakes first. -/
def destTrail (s : State) (q : VPiece) : Trail :=
  { way := match sleepingTier s q.leaf.pa with
      | some t => .asleep t
      | none => .ends q.leaf q.va
    hops := [], count := 0 }

/-- Where the lines of an element of FWDMOVE lead. -/
def lookMove (g : Nat) (s : State) (w : Walker) : ETrans → List Trail
  | .pages (p :: q :: _) => [sourceTrail g s w p, destTrail s q]
  | _ => []

/-- One element of FWDMOVE whose home has not taken it yet. While moves lag, the first move of an element group waits for its own end
(log entry 4): the home has none of the group when a stop finds it under way. lead says that the element is that first one. -/
def moveElem (c : VCtx) (b : BitVec 5) (m : BitVec 4) (base i : Nat) (lead : Bool) (w : Walker) (p q : VPiece) : M Step := do
  let s ← getState
  let h := s.hart c.g
  let t := sourceTrail c.g s w p
  match ← arrive c.g w .atomic t with
  | .fail f => pure (.fail f)
  | .wait m => pure (.wait m)
  | .stop => pure .stop
  | .ok (l, va) => do
    let s ← getState
    match lineOf s w l, ← regionOf c.g w.part va with
    | some src, some r =>
      if r.st ≠ 1 then pure (.fail (plainFault .fwdRegion va 0))
      else if ← wakeFor q.leaf.pa then pure (.wait none)
      else
        let dst := lineOf s w q.leaf
        whenM (dst.any (fun d => (s.line d).mark != ((s.line d).st != 0#2))) (dramError (dst.getD 0))
        match moveReason s w.part src dst (c.destNamed s w h b m base i (dst.getD 0)) with
        | some k => pure (.fail (moveFault q.va k))
        | none => do
          drainHolders src (holders s (src * 128))
          drainHolders (dst.getD 0) (holders s (dst.getD 0 * 128))
          moveBegin src (dst.getD 0) q.va w.part
          let hops := t.hops.reverse.map (fun h => h.out)
          if s.lag.moves && lead then do
            modHart c.g (fun h => { h with flight := some { c.flightOf h with move := some src, lead := i, pend := hops, mover := va } })
            pure (.wait none)
          else if ← moveDone src (dst.getD 0) q.va w.part then pure (.ok { hops := hops, moved := [va] })
          else pure (.fail (moveFault q.va 3))
    | _, _ => pure (.fail (plainFault .fwdRegion va 0))
/-- One element of FWDMOVE whose move its home took in an earlier step: src is the line that moves. -/
def moveGoesOn (c : VCtx) (q : VPiece) (src : Nat) : M Step := do
  let s ← getState
  let x := s.line src
  let f := c.flightOf (s.hart c.g)
  if x.move.isSome then pure (.wait none)
  else do
    modHart c.g (fun h => { h with flight := some { f with move := none } })
    if x.st = 0#2 then pure (.fail (moveFault q.va 3)) else pure (.ok { hops := f.pend, moved := [f.mover] })

/-- FWDMOVE. -/
def fwdmove (c : VCtx) (a b : BitVec 5) (m : BitVec 4) : M Bool := do
  let h ← getHart c.g
  let f := c.flightOf h
  let op : MemOp :=
    { spad := false, align := 128, trims := [], spans := fun i => [(.atomic, c.src h a i, 128), (.store, c.src h b i, 128)],
      kind := some 2, range := fun qs => qs.drop 1, group := groupOf c.code, reads := true, look := lookMove c.g }
  let whole (k : Nat) : Span := (c.active h m).map (fun i => (c.src h (if k = 0 then a else b) i, 128))
  let lead (i : Nat) : Bool := (c.active h m).find? (fun j => decide (j / op.group = i / op.group)) == some i
  c.interlocked true true (whole 0 ++ whole 1)
    (c.memory op id (fun h i => c.on h m i) (fun w i t =>
      match t with
      | .pages (p :: q :: _) => do
        match ((← getHart c.g).flight.bind (fun f => f.move)) with
        | some src => c.moveGoesOn q src
        | none => c.moveElem b m f.start i (lead i) w p q
      | _ => pure (.ok { hops := [] })))

/-! ### Pointers (R285 to R287) -/

/-- Where FWDRES's loop leads for one pointer: only a line of DRAM has a chain. -/
def pointTrail (g : Nat) (s : State) (w : Walker) (p : VPiece) : Trail :=
  match targetOf s w.tier p.leaf with
  | .line _ => follow s w .load false (s.hart g).hopLimit ((s.hart g).hopLimit + 1) p.va p.leaf []
  | _ => { way := .ends p.leaf p.va, hops := [], count := 0 }

/-- Where the pointers of an element lead. -/
def lookPoint (g : Nat) (s : State) (w : Walker) : ETrans → List Trail
  | .pages l => l.map (pointTrail g s w)
  | _ => []

/-- FWDRES's loop for one pointer: where it leads, and the lines hopped out of. -/
def resolve (c : VCtx) (w : Walker) (p : VPiece) : M (Res (Leaf × Nat × List Nat)) := do
  let t ← gets (fun s => pointTrail c.g s w p)
  match ← arrive c.g w .load t with
  | .fail f => pure (.fail f)
  | .wait m => pure (.wait m)
  | .stop => pure .stop
  | .ok (l, va) => pure (.ok (l, va, t.hops.reverse.map (fun h => h.out)))

/-- An instruction over pointers: it moves no byte, and takes no entry of the interlock table. -/
def pointOp (c : VCtx) (trims : List Cause) (spans : Nat → List (Acc × Nat × Nat)) : MemOp :=
  { spad := false, align := 1, trims := trims, spans := spans, kind := none, group := groupOf c.code, reads := false,
    look := lookPoint c.g }

/-- FWDRES and FWDRESFF (R285). -/
def fwdres (c : VCtx) (d a : BitVec 5) (m : BitVec 4) (trim : Bool) : M Bool := do
  let h ← getHart c.g
  let op := c.pointOp (if trim then [.xlateNone, .fwdDepth, .fwdStale] else []) (fun i => [(.load, c.src h a i, 1)])
  c.interlocked false false ((c.active h m).map (fun i => (c.src h a i, 1)))
    (c.memory op id (fun h i => c.on h m i) (fun w i t =>
      match t with
      | .pages (p :: _) => do
        match ← c.resolve w p with
        | .fail f => pure (.fail f)
        | .wait m => pure (.wait m)
        | .stop => pure .stop
        | .ok (_, va, hops) => do
          modHart c.g (fun h => h.vput c.code d.toNat i va)
          pure (.ok { hops := hops })
      | _ => pure (.ok { hops := [] })))

/-- PCMPR (R286). -/
def pcmpr (c : VCtx) (d a b : BitVec 5) (m : BitVec 4) : M Bool := do
  let h ← getHart c.g
  let op := c.pointOp [] (fun i => [(.load, c.src h a i, 1), (.load, c.src h b i, 1)])
  let whole (r : BitVec 5) : Span := (c.active h m).map (fun i => (c.src h r i, 1))
  c.interlocked false false (whole a ++ whole b)
    (c.memory op id (fun h i => c.on h m i) (fun w i t =>
      match t with
      | .pages (p :: q :: _) => do
        match ← c.resolve w p with
        | .fail f => pure (.fail f)
        | .wait m => pure (.wait m)
        | .stop => pure .stop
        | .ok (_, x, hops) => do
          match ← c.resolve w q with
          | .fail f => pure (.fail f)
          | .wait m => pure (.wait m)
          | .stop => pure .stop
          | .ok (_, y, hops') => do
            modHart c.g (fun h => h.mput d.toNat i (x == y))
            pure (.ok { hops := hops ++ hops' })
      | _ => pure (.ok { hops := [] })))

/-- FWDPATH (R287): the first line's record is rewritten at its home, where it still is one. -/
def fwdpath (c : VCtx) (a : BitVec 5) (m : BitVec 4) : M Bool := do
  let h ← getHart c.g
  let at' := fun (i : Nat) => c.src h a i / 128 * 128
  let op := c.pointOp [] (fun i => [(.path, at' i, 128)])
  c.interlocked true false ((c.active h m).map (fun i => (at' i, 128)))
    (c.memory op id (fun h i => c.on h m i) (fun w _ t =>
      match t with
      | .pages (p :: _) => do
        match ← c.resolve w p with
        | .fail f => pure (.fail f)
        | .wait m => pure (.wait m)
        | .stop => pure .stop
        | .ok (_, va, hops) =>
          if hops.length ≤ 1 then pure (.ok { hops := hops })
          else do
            if ← touchLeaf w.part p.va p.leaf true then do
              homeWrite p.leaf.pa 128 (fwdRecord va w.part)
              pure (.ok { hops := hops })
            else pure .stop
      | _ => pure (.ok { hops := [] })))

end VCtx

/-! ### Regions (R145, R288) -/

/-- No table of levels 0 to 2 leads on to a leaf line for the address. -/
def tableMissing (s : State) (w : Walker) (va : Nat) : Bool :=
  match walkTables s w.root va with
  | .error c => c == .xlateNone
  | .ok _ => false

/-- The 64 KiB pages of a stretch that tables lead to, by address, but for those of the scratchpad window, whose mapping is ignored
(R84). -/
def pagesOf (s : State) (w : Walker) (base lsize : Nat) : List Nat :=
  let mapped (b : Nat) (n : Nat) : List Nat :=
    if tableMissing s w b then [] else ((List.range n).map (fun k => b + 65536 * k)).filter (fun va => !inSpad va 65536)
  if lsize ≤ 28 then mapped base (2 ^ (lsize - 16))
  else (List.range (2 ^ (lsize - 28))).flatMap (fun k => mapped (base + 2 ^ 28 * k) 4096)

/-- What the walks of a region's pages give: the pages with their leaves, the first failure, or a page that waits on MIG. -/
inductive RegionWalk where
  | ok (ls : List (Nat × Leaf))
  | fail (f : AFault)
  | mig (va : Nat)
  deriving DecidableEq, Repr

/-- The walks of a region's mapped pages for W. -/
def regionLeaves (s : State) (w : Walker) : List Nat → RegionWalk
  | [] => .ok []
  | va :: rest =>
    match walk s w .store va with
    | .fault .xlateNone => regionLeaves s w rest
    | .fault c => .fail (xlateFault s w c va .store)
    | .mig _ =>
      match regionLeaves s w rest with
      | .fail f => .fail f
      | _ => .mig va
    | .ok l =>
      match regionLeaves s w rest with
      | .ok ls => .ok ((va, l) :: ls)
      | r => r

/-- A physical address lies in one of the frames. -/
def inFrames (frames : List (Nat × Nat)) (pa : Nat) : Bool :=
  frames.any (fun f => decide (f.1 ≤ pa) && decide (pa < f.1 + f.2))

/-- The lines of some frames in some mark states. -/
def markedLines (s : State) (frames : List (Nat × Nat)) (sts : List Nat) : List Nat :=
  (s.lines.filter (fun e => sts.contains e.2.st.toNat && inFrames frames (128 * e.1))).map (fun e => e.1)

/-- Accesses of a partition that have begun and not completed, as a reclamation awaits them (R288). -/
def begunAccesses (s : State) (p : Nat) : List (Nat × Nat) :=
  s.harts.flatMap (fun e =>
    let h := e.2
    if h.place.isSome ∧ h.partid.toNat = p then
      (if h.posted.isEmpty then [] else [(e.1, 0)]) ++ (if h.holdS then [(e.1, 1)] else [])
        ++ (if h.holdV then [(e.1, 2)] else [])
        ++ ([0, 1, 2, 3].filter (fun n => (h.chan n).active && (h.chan n).held)).map (fun n => (e.1, 3 + n))
    else [])

/-- An awaited access has not completed. -/
def stillOpen (s : State) (x : Nat × Nat) : Bool :=
  let h := s.hart x.1
  match x.2 with
  | 0 => !h.posted.isEmpty
  | 1 => h.holdS
  | 2 => h.holdV
  | n + 3 => (h.chan n).active && (h.chan n).held

/-- A reclamation may end: what it awaits has completed, and no move out of the region is under way. -/
def reclaimReady (s : State) (r : Reclaim) : Bool :=
  !(r.awaited.any (stillOpen s)) && (markedLines s r.frames [1]).isEmpty

/-- Step 3 of R288: every record line becomes NORMAL and zero, and the region FREE. -/
def reclaimFinish (r : Reclaim) : M Unit := do
  let ls ← gets (fun s => markedLines s r.frames [2, 3])
  eachM ls (fun l => do
    homeWrite (l * 128) 128 0
    let x ← gets (fun s => s.line l)
    upd (.line l { x with mark := false, st := 0 }))
  let rs ← gets (fun s => s.reclaims)
  upd (.reclaims (rs.filter (fun x => !(x.part == r.part && x.idx == r.idx))))
  let base ← gets (fun s => (s.part r.part).relbase)
  if ← devWrite r.part (base + 32 * r.idx + 8) 1 0 then pure () else partError r.part

/-- End every reclamation of a partition's entry that may end. -/
def reclaimTry (p idx : Nat) : M Unit := do
  let s ← getState
  match s.reclaims.find? (fun r => r.part == p && r.idx == idx) with
  | some r => whenM (reclaimReady s r) (reclaimFinish r)
  | none => pure ()

namespace VCtx

/-- The region that FWDRECL names: not FREE, with that base. -/
def namedRegion (t : Bits) (x : Word) : Option Region :=
  if x.toNat % 65536 ≠ 0 then none
  else (List.range 1024).findSome? (fun i => match regionAt t i with
    | some r => if r.base = bitsGet x.toNat 16 41 * 65536 then some r else none
    | none => none)

/-- Begin either form over the pages its walks found. -/
def reclaimOver (c : VCtx) (w : Walker) (tomb : Bool) (r : Region) (ls : List (Nat × Leaf)) : M Bool := do
  let s ← getState
  let base := (s.part w.part).relbase
  let frames := ls.map (fun e => (e.2.pa, 65536))
  let changed := markedLines s frames (if tomb then [2] else [2, 3])
  eachM ls (fun e => do
    let hit := changed.any (fun l => decide (e.2.pa ≤ 128 * l) && decide (128 * l < e.2.pa + 65536))
    if ← touchLeaf w.part e.1 e.2 hit then pure () else c.errorAt c.start)
  if tomb then
    if r.st ≠ 3 then do
      needWrite c.g w.part (base + 32 * r.idx + 8) 1 3
      eachM changed (fun l => do
        let x ← gets (fun s => s.line l)
        upd (.line l { x with st := 3 }))
      c.finish'
    else c.finish'
  else do
    needWrite c.g w.part (base + 32 * r.idx + 8) 1 4
    let s ← getState
    upd (.reclaims (s.reclaims ++ [{ part := w.part, idx := r.idx, frames := frames, awaited := begunAccesses s w.part }]))
    whenM (!s.lag.reclaim) (reclaimTry w.part r.idx)
    let s ← getState
    if s.reclaims.any (fun x => x.part == w.part && x.idx == r.idx) then do
      modHart c.g (fun h => h.modHead (fun e => { e with begun := true }))
      pure false
    else c.finish'

/-- The bytes of the lines that FWDRECL may change, as the interlock table compares them (R143). -/
def reclaimSpan (s : State) (ls : List (Nat × Leaf)) : Span :=
  ls.flatMap (fun e =>
    (markedLines s [(e.2.pa, 65536)] [2, 3]).map (fun l => (e.1 + (128 * l - e.2.pa), 128)))

/-- FWDRECL and FWDRECL.TOMB (R288). -/
def fwdrecl (c : VCtx) (tomb : Bool) : M Bool := do
  let s ← getState
  let w := s.walker c.g
  let t ← needRead c.g w.part (s.part w.part).relbase 32768
  if c.e.begun then
    match namedRegion t c.e.opa with
    | some r =>
      if r.st = 4 then do
        whenM (!s.lag.reclaim) (reclaimTry w.part r.idx)
        let s ← getState
        if s.reclaims.any (fun x => x.part == w.part && x.idx == r.idx) then pure false else c.finish'
      else c.finish'
    | none => c.finish'
  else
    match namedRegion t c.e.opa with
    | none => c.faultAt c.start { c.record s .fwdRegion with addr := c.e.opa.toNat }
    | some r =>
      if r.st = 4 then c.faultAt c.start { c.record s .fwdRegion with addr := c.e.opa.toNat }
      else
        match regionLeaves s w (pagesOf s w r.base r.lsize) with
        | .fail f => c.faultAt c.start { c.record s f.cause with addr := f.addr, pages := f.page.toList, detail := f.detail }
        | .mig va => c.held c.start (some va)
        | .ok ls => c.interlocked true false (reclaimSpan s ls) (c.reclaimOver w tomb r ls)

end VCtx

end Sys2Proof.Machine
end

