-- ==== Sys2Proof/Machine/Matrix.lean ====
section
/-!
DEFINITION. Machine/Matrix.lean: the matrix instructions (R297 to R302): MOPA with its block sums (R53, R54), filling, draining
and reading tiles.
-/
namespace Sys2Proof.Machine

/-! ### Tiles -/

/-- A tile's cells. -/
def Hart.tile (h : Hart) (r : Nat) : Bits := h.a[r % 4]'(Nat.mod_lt _ (by decide))

/-- Replace a tile's cells. -/
def Hart.setTile (h : Hart) (r : Nat) (x : Bits) : Hart := { h with a := h.a.set (r % 4) x (Nat.mod_lt _ (by decide)) }

/-- The place of cell [i][j] among a tile's cells. -/
def Hart.cellAt (h : Hart) (i j : Nat) : Nat := i * h.tilen.toNat + j

/-- Cell [i][j] of a tile. -/
def Hart.cell (h : Hart) (r i j : Nat) : Nat := bitsGet (h.tile r) (32 * h.cellAt i j) 32

/-- Cells of the granted tile, in the order of R298's loops. -/
def Hart.cells (h : Hart) : List (Nat × Nat) :=
  (List.range h.tilem.toNat).flatMap (fun i => (List.range h.tilen.toNat).map (fun j => (i, j)))

/-- A tile with the same value in every granted cell. -/
def Hart.filled (h : Hart) (v : Nat) : Bits :=
  (List.range (h.tilem.toNat * h.tilen.toNat)).foldl (fun t k => t + (v % 2 ^ 32) * 2 ^ (32 * k)) 0

/-! ### MOPA -/

/-- The smallest group whose elements reach a count (R297). -/
def mopaGroup (S : Nat) (t : BitVec 8) (need : Nat) : Option Nat :=
  [1, 2, 4, 8].find? (fun g => decide (need ≤ g * mvlOf S (codeWidth t) 1))

/-- Significand planes of a format (R47). -/
def planesOf (t : BitVec 8) : Nat :=
  if codeFloat t then
    match codeSub t with
    | 0 => 2 | 1 => 4 | 2 => 3 | 3 => 4 | 4 => 3 | 5 => 11 | _ => 8
  else codeWidth t

/-- The integer value of an element: a .b1 element is +1 or -1 (R37). -/
def intValue (t : BitVec 8) (x : Nat) : Int :=
  if codeB1 t then (if x % 2 = 1 then 1 else -1) else intOf (codeSigned t) (codeWidth t) x

/-- The value is a NaN. -/
def FVal.isNan : FVal → Bool
  | .nan _ => true
  | _ => false

/-- The value is an infinity of the given sign. -/
def FVal.isInf (neg : Bool) : FVal → Bool
  | .inf n => n == neg
  | _ => false

/-- One block of R53: the old accumulator and the exact products, before the one rounding. -/
def blockSum (down : Bool) (acc : FVal) (ps : List FVal) : Ex :=
  if ps.any FVal.isNan || (ps.any (FVal.isInf true) && ps.any (FVal.isInf false)) then invalid
  else ps.foldl (fun x p => let y := fAdd down x.val p; { y with flags := y.flags ||| x.flags }) (exact acc)

/-- One block of R54. -/
def blockAdd (sat : Bool) (acc : Nat) (sum : Int) : Nat :=
  if sat then clampTo true 32 (intOf true 32 acc + sum) else wrapTo 32 (intOf true 32 acc + sum)

/-- The flags of a whole instruction's roundings so far, and the flag that trapped, if one did. -/
structure Flagged where
  flags : Nat
  trap  : Option Nat
  deriving DecidableEq, Repr

/-- No rounding yet. -/
def Flagged.none' : Flagged := { flags := 0, trap := none }

/-- One more rounding, unless one has trapped. -/
def Flagged.add (r : Flagged) (ten fl : Nat) : Flagged :=
  match r.trap with
  | some _ => r
  | none => { flags := r.flags ||| fl, trap := trappedFlag fl ten }

namespace VCtx

/-- The formats, scales and mode of a MOPA. -/
structure Mopa where
  ta  : BitVec 8
  tb  : BitVec 8
  a   : BitVec 5
  b   : BitVec 5
  sa  : BitVec 3
  sb  : BitVec 3
  sat : Bool
  scl : Bool

/-- sa(i) or sb(j) of R298. -/
def scaleOf (c : VCtx) (h : Hart) (scl : Bool) (t : BitVec 8) (w : BitVec 3) (k : Nat) : FVal :=
  if scl && codeFloat t then scaleValue (vtE4m3 c.e.vtype) (h.wget w.toNat k) else ofInt 1

/-- The products of block q of cell [i][j]. -/
def products (c : VCtx) (h : Hart) (o : Mopa) (i j q : Nat) : List FVal :=
  let K := h.tilek.toNat
  let x := c.scaleOf h o.scl o.ta o.sa i
  let y := c.scaleOf h o.scl o.tb o.sb j
  (range' (16 * q) (min 16 (K - 16 * q))).map (fun k =>
    (fMul (fMul (valueOf o.ta (c.get h o.ta o.a (i * K + k))) x).val
      (fMul (valueOf o.tb (c.get h o.tb o.b (j * K + k))) y).val).val)

/-- The integer sum of block q of cell [i][j]. -/
def intSum (c : VCtx) (h : Hart) (o : Mopa) (i j q : Nat) : Int :=
  let K := h.tilek.toNat
  ((range' (16 * q) (min 16 (K - 16 * q))).map (fun k =>
    intValue o.ta (c.get h o.ta o.a (i * K + k)) * intValue o.tb (c.get h o.tb o.b (j * K + k)))).foldl (· + ·) 0

/-- Blocks of the reduction. -/
def blocks (h : Hart) : List Nat := List.range (ceilDiv h.tilek.toNat 16)

/-- A cell of a float pair after its blocks, with the flags so far. -/
def floatCell (c : VCtx) (h : Hart) (o : Mopa) (ten i j : Nat) : List Nat → Nat → Flagged → Nat × Flagged
  | [], acc, r => (acc, r)
  | q :: qs, acc, r =>
    match r.trap with
    | some _ => (acc, r)
    | none =>
      let (x, fl) := f32.finish (c.rnd (128 * i + j) q) (blockSum c.down (f32.decode acc) (c.products h o i j q))
      floatCell c h o ten i j qs x (r.add ten fl)

/-- Every cell of a float pair, in order. -/
def floatCells (c : VCtx) (h : Hart) (o : Mopa) (ten d : Nat) : List (Nat × Nat) → Bits → Flagged → Bits × Flagged
  | [], t, r => (t, r)
  | (i, j) :: rest, t, r =>
    match r.trap with
    | some _ => (t, r)
    | none =>
      let (x, r) := c.floatCell h o ten i j (blocks h) (h.cell d i j) r
      floatCells c h o ten d rest (bitsSet t (32 * h.cellAt i j) 32 x) r

/-- Cycles of the matrix engine at the issue rate in force (R47, R384). -/
def mopaCycles (s : State) (h : Hart) (o : Mopa) : Nat :=
  let full := ceilDiv (h.tilem.toNat * h.tilen.toNat * h.tilek.toNat * planesOf o.ta * planesOf o.tb) 262144
  ceilDiv (full * 8) s.mxrate

/-- MOPA (R297 to R299). One that traps adds nothing to MXCYC (log entry 80, DESIGN CHOICE). -/
def mopa (c : VCtx) (d : BitVec 5) (o : Mopa) : M Bool := do
  let s ← getState
  let h := s.hart c.g
  if c.start < c.vl then
    if codeFloat o.ta || codeFloat o.tb then
      let (t, r) := c.floatCells h o c.e.ten.toNat d.toNat h.cells (h.tile d.toNat) Flagged.none'
      let h' := h.orFlags r.flags
      match r.trap with
      | some k => do
        putHart c.g h'
        c.trapWhole k
      | none => c.finish { (h'.setTile d.toNat t) with mxcyc := h'.mxcyc + BitVec.ofNat 64 (mopaCycles s h o) }
    else
      let t := h.cells.foldl (fun t p =>
        let x := (blocks h).foldl (fun acc q => blockAdd o.sat acc (c.intSum h o p.1 p.2 q)) (h.cell d.toNat p.1 p.2)
        bitsSet t (32 * h.cellAt p.1 p.2) 32 x) (h.tile d.toNat)
      c.finish { (h.setTile d.toNat t) with mxcyc := h.mxcyc + BitVec.ofNat 64 (mopaCycles s h o) }
  else c.finish h

/-! ### Filling, draining, reading -/

/-- MZERO and MFILL (R300). -/
def mfill (c : VCtx) (d : BitVec 5) (v : Nat) : M Bool := do
  let h ← getHart c.g
  c.finish (if c.start < c.vl then h.setTile d.toNat (h.filled v) else h)

/-- MDRAIN (R301): element j is column j of every row. -/
def mdrain (c : VCtx) (d : BitVec 5) (m : BitVec 4) : M Bool := do
  let h ← getHart c.g
  let rows := List.range h.tilem.toNat
  let spans (j : Nat) : List (Acc × Nat × Nat) := rows.map (fun i =>
    (.store, (c.e.opa + BitVec.ofNat 64 i * c.e.opb + BitVec.ofNat 64 (4 * j)).toNat, 4))
  let op : MemOp := { c.storeOp spans with kind := some 4, group := 16 }
  let on (h : Hart) (j : Nat) : Bool := c.on h m j && decide (j < h.tilen.toNat)
  let bytes : Span := (c.elems.filter (on h)).flatMap (fun j => (spans j).map (fun p => (p.2.1, 4)))
  c.interlocked true true bytes
    (c.memory op id on (fun w j t =>
      c.storeElem w (rows.foldl (fun x i => x + h.cell d.toNat i j * 2 ^ (32 * i)) 0) t))

/-- MRDROW (R302). -/
def mrdrow (c : VCtx) (d a : BitVec 5) : M Bool :=
  let r := c.e.opb.toNat
  c.toVector 12#4 c.code d c.grp (fun j h =>
    (if r < h.tilem.toNat ∧ j < h.tilen.toNat then h.cell a.toNat r j else 0, 0))

end VCtx

end Sys2Proof.Machine
end

