-- ==== Sys2Proof/Machine/Narrow.lean ====
section
/-!
DEFINITION. Machine/Narrow.lean: the narrow conversions (R303 to R307).
-/
namespace Sys2Proof.Machine.VCtx

/-- Ps of R303: elements of the source group, by the register size of the send. -/
def sourceCount (c : VCtx) (src : BitVec 8) : Nat := mvlOf c.e.size (codeWidth src) c.grp

/-- gd of R303. -/
def targetGroup (S g : Nat) (src dst : BitVec 8) : Option Nat := cvtGroup S (codeWidth src) g (codeWidth dst)

/-- The scale of element i (R303). -/
def elemScale (c : VCtx) (h : Hart) (sa : BitVec 3) (i : Nat) : FVal :=
  scaleValue (vtE4m3 c.e.vtype) (h.wget sa.toNat (i / vtBlock c.e.vtype))

/-- An elementwise conversion from one format's group to another's. -/
def narrowing (c : VCtx) (d : BitVec 5) (m : BitVec 4) (src dst : BitVec 8) (f : Nat → Hart → Ex) : M Bool :=
  let n := (targetGroup c.e.size c.grp src dst).getD 8
  c.elementwise (fun h i => c.on h m i && decide (i < c.sourceCount src))
    (fun i h =>
      let (x, fl) := writeAs dst (c.rnd i 0) (f i h)
      (h.vput dst d.toNat i x, fl))
    (fun h => h.trim dst d.toNat n)

/-- VCVTN (R304): the quotient by the scale, rounded once. -/
def vcvtn (c : VCtx) (d a : BitVec 5) (m : BitVec 4) (ta tb : BitVec 8) (sa : BitVec 3) (scl : Bool) : M Bool :=
  c.narrowing d m tb ta (fun i h =>
    let x := valueOf tb (c.get h tb a i)
    if scl then
      let q := unscaled x (c.elemScale h sa i)
      { q with flags := q.flags ||| sigFlag x }
    else { val := x, flags := sigFlag x })

/-- VCVTW (R305): the product by the scale, rounded once. -/
def vcvtw (c : VCtx) (d a : BitVec 5) (m : BitVec 4) (ta tb : BitVec 8) (sa : BitVec 3) (scl : Bool) : M Bool :=
  c.narrowing d m ta tb (fun i h =>
    let x := valueOf ta (c.get h ta a i)
    if scl then
      match c.elemScale h sa i, x with
      | .num _ 0 _ _, .inf _ => exact (.nan false)
      | s, _ => scaled x s
    else { val := x, flags := sigFlag x })

/-! ### VSCALE (R306) -/

/-- The least and the greatest positive code, and the code of a NaN, of a scale format. -/
def scaleLimits (e4m3 : Bool) : Nat × Nat × Nat := if e4m3 then (1, 0x7E, 0x7F) else (0, 0xFE, 0xFF)

/-- The larger of two magnitudes. -/
def largerMag (a b : Nat × Int) : Nat × Int :=
  if cmpNum false a.1 a.2 false b.1 b.2 = .lt then b else a

/-- The scale code of a block, and its flags. -/
def scaleCode (e4m3 : Bool) (ta : BitVec 8) (xs : List FVal) : Nat × Nat :=
  let (least, most, nanCode) := scaleLimits e4m3
  if xs.any (fun x => x.isNan || x.isInf true || x.isInf false) then (nanCode, flNV)
  else
    let mags : List (Nat × Int) := xs.map (fun x => match x with
      | .num _ m e _ => (m, e)
      | _ => (0, 0))
    let amax := mags.foldl largerMag (0, 0)
    if amax.1 = 0 then (least, 0)
    else
      let f := codeFmt ta
      match f.decode f.maxCode with
      | .num _ fm fe _ =>
        if e4m3 then
          let q := fDiv (.num false amax.1 amax.2 false) (.num false fm fe false)
          let x := ((fmtOfSub 3).finish { mode := mRUP, r := 0 } q).1
          (max least (min most x), 0)
        else
          let k : Int := (amax.2 + (Nat.log2 amax.1 : Int)) - (fe + (Nat.log2 fm : Int)) + 127
          ((max 0 (min 254 k)).toNat, 0)
      | _ => (least, 0)

/-- Every block's code, in order. -/
def scaleCodes (c : VCtx) (h : Hart) (a : BitVec 5) (ta tb : BitVec 8) (n ten : Nat) :
    List Nat → Flagged → List (Nat × Nat) × Flagged
  | [], r => ([], r)
  | q :: qs, r =>
    match r.trap with
    | some _ => ([], r)
    | none =>
      let B := vtBlock c.e.vtype
      let xs := (range' (B * q) (min B (n - B * q))).map (fun i => valueOf tb (c.get h tb a i))
      let (x, fl) := scaleCode (vtE4m3 c.e.vtype) ta xs
      let (rest, r) := scaleCodes c h a ta tb n ten qs (r.add ten fl)
      ((q, x) :: rest, r)

/-- VSCALE. -/
def vscale (c : VCtx) (d a : BitVec 5) (ta tb : BitVec 8) : M Bool := do
  let h ← getHart c.g
  if c.start < c.vl then
    let n := min (min c.vl (c.sourceCount tb)) c.cover
    let (codes, r) := c.scaleCodes h a ta tb n c.e.ten.toNat (List.range (ceilDiv n (vtBlock c.e.vtype))) Flagged.none'
    let h' := h.orFlags r.flags
    match r.trap with
    | some k => do
      putHart c.g h'
      c.trapWhole k
    | none => c.finish (codes.foldl (fun h p => if p.1 < h.wCodes then h.wput d.toNat p.1 p.2 else h) h')
  else c.finish h

/-! ### VHAD (R307) -/

/-- A pair's sum and difference, each rounded to FP32 in RNE. -/
def hadPair (u v : Nat) : (Nat × Nat) × (Nat × Nat) :=
  (f32.finish rne (fAdd false (f32.decode u) (f32.decode v)), f32.finish rne (fAdd false (f32.decode u) (f32.decode v).neg))

/-- One stage over a block of n codes. -/
def hadStage (n t ten : Nat) (xs : List Nat) (r : Flagged) : List Nat × Flagged :=
  let us := (List.range n).filter (fun u => !u.testBit t)
  let pairs := us.map (fun u => hadPair (xs.getD u 0) (xs.getD (u + 2 ^ t) 0))
  let r := pairs.foldl (fun r p => (r.add ten p.1.2).add ten p.2.2) r
  let out := (List.range n).map (fun k =>
    let lo := if k.testBit t then k - 2 ^ t else k
    let p := pairs.getD (lo / 2 ^ (t + 1) * 2 ^ t + lo % 2 ^ t) ((0, 0), (0, 0))
    if k.testBit t then p.2.1 else p.1.1)
  (out, r)

/-- All stages of a block. -/
def hadBlock (n ten : Nat) : List Nat → List Nat → Flagged → List Nat × Flagged
  | [], xs, r => (xs, r)
  | t :: ts, xs, r =>
    match r.trap with
    | some _ => (xs, r)
    | none =>
      let (xs, r) := hadStage n t ten xs r
      hadBlock n ten ts xs r

/-- Convert the active elements of a transformed block. -/
def hadOut (c : VCtx) (ta : BitVec 8) (ten : Nat) : List (Nat × Nat) → Flagged → List (Nat × Nat) × Flagged
  | [], r => ([], r)
  | (i, x) :: rest, r =>
    match r.trap with
    | some _ => ([], r)
    | none =>
      let (y, fl) := writeAs ta (c.rnd i 0) (exact (f32.decode x))
      let (ys, r) := hadOut c ta ten rest (r.add ten fl)
      ((i, y) :: ys, r)

/-- Every block in order. -/
def hadBlocks (c : VCtx) (h : Hart) (a : BitVec 5) (m : BitVec 4) (ta tb : BitVec 8) (log n ten : Nat) :
    List Nat → Flagged → List (Nat × Nat) × Flagged
  | [], r => ([], r)
  | q :: qs, r =>
    let N := 2 ^ log
    let load := fun (i : Nat) =>
      if n ≤ i then 0 else if codeSub tb = 7 then c.get h tb a i else c.get h tb a i * 2 ^ 16
    let (xs, r) := hadBlock N ten (List.range log) ((range' (N * q) N).map load) r
    let act := ((List.range N).filter (fun k => c.on h m (N * q + k) && decide (N * q + k < n))).map
      (fun k => (N * q + k, xs.getD k 0))
    let (ys, r) := c.hadOut ta ten act r
    let (zs, r) := hadBlocks c h a m ta tb log n ten qs r
    (ys ++ zs, r)

/-- VHAD. -/
def vhad (c : VCtx) (d a : BitVec 5) (m : BitVec 4) (ta tb : BitVec 8) (log : BitVec 4) : M Bool := do
  let h ← getHart c.g
  if c.start < c.vl then
    let n := min (min c.vl (c.sourceCount tb)) c.cover
    let (out, r) := c.hadBlocks h a m ta tb log.toNat n c.e.ten.toNat
      (List.range (ceilDiv n (2 ^ log.toNat))) Flagged.none'
    let h' := h.orFlags r.flags
    match r.trap with
    | some k => do
      putHart c.g h'
      c.trapWhole k
    | none =>
      let gd := (targetGroup c.e.size c.grp tb ta).getD 8
      c.finish ((out.foldl (fun h p => h.vput ta d.toNat p.1 p.2) h').trim ta d.toNat gd)
  else c.finish h

end Sys2Proof.Machine.VCtx
end

