-- ==== Sys2Proof/Machine/Lacewing.lean ====
section
/-!
DEFINITION. Machine/Lacewing.lean: histories (R308 to R316).
-/
namespace Sys2Proof.Machine

/-! ### The configuration word (R308) -/

namespace Hist

/-- DEPTH. -/
def depth (x : Hist) : Nat := bitsGet x.cfg.toNat 0 4
/-- PREC: true for FP64. -/
def wide (x : Hist) : Bool := x.cfg.toNat.testBit 4
/-- MODE. -/
def mode (x : Hist) : Nat := bitsGet x.cfg.toNat 5 2
/-- TEXP. -/
def texp (x : Hist) : Nat := bitsGet x.cfg.toNat 8 8
/-- TOLEXP. -/
def tolexp (x : Hist) : Nat := bitsGet x.cfg.toNat 16 8
/-- REXP. -/
def rexp (x : Hist) : Nat := bitsGet x.cfg.toNat 24 4
/-- The format of the entries. -/
def fmt (x : Hist) : FFmt := if x.wide then f64 else f32
/-- The type code of the entries. -/
def code (x : Hist) : BitVec 8 := if x.wide then 0x8B else 0x7B

/-- Bytes a register reserves (R109, R309). -/
def bytes (x : Hist) : Nat := if x.depth = 0 then 0 else x.nel * (x.depth * (if x.wide then 8 else 4) + 16)

/-- The configuration word is one that XCFG refuses (R309). -/
def bad (w : Word) : Bool :=
  let x : Hist := { cfg := w, nel := 0, elems := [] }
  decide (bitsGet w.toNat 7 1 ≠ 0) || decide (bitsGet w.toNat 28 36 ≠ 0) || decide (x.depth = 1) || decide (8 < x.depth)
    || decide (x.mode = 3) || ((decide (x.mode = 2)) != (decide (x.rexp ≠ 0)))

/-- An element with no entries. -/
def blank : HistElem := { entries := [], prev := none, nzd := false, stag := false, conv := false, div := false }

/-- Element i. -/
def elem (x : Hist) (i : Nat) : HistElem := x.elems.getD i blank

/-- Replace element i. -/
def setElem (x : Hist) (i : Nat) (v : HistElem) : Hist := { x with elems := x.elems.set i v }

end Hist

/-- A history register. -/
def Hart.hist (h : Hart) (r : Nat) : Hist := h.e[r % 4]'(Nat.mod_lt _ (by decide))

/-- Replace a history register. -/
def Hart.setHist (h : Hart) (r : Nat) (x : Hist) : Hart := { h with e := h.e.set (r % 4) x (Nat.mod_lt _ (by decide)) }

/-- Bytes of a core's history store that are reserved, but for one register of one hart (R309). -/
def State.histBytes (s : State) (g : Nat) (skip : Option Nat) : Nat :=
  ((coreHarts (coreOf g)).flatMap (fun k => (numberedFrom 0 (s.hart k).e.toList).map (fun p =>
    if k = g ∧ some p.1 = skip then 0 else p.2.bytes))).foldl (· + ·) 0
where
  /-- Number the items of a list. -/
  numberedFrom : Nat → List Hist → List (Nat × Hist)
    | _, [] => []
    | n, x :: xs => (n, x) :: numberedFrom (n + 1) xs

/-! ### Estimates (R311 to R315) -/

/-- The roundings of one element so far: how many, and their flags up to the first that sets an enabled one (R52). -/
structure Calc where
  n   : Nat
  fl  : Nat
  ten : Nat
  deriving DecidableEq, Repr

/-- One more rounding's flags. -/
def Calc.step (k : Calc) (fl : Nat) : Calc :=
  { k with n := k.n + 1, fl := if (trappedFlag k.fl k.ten).isSome then k.fl else k.fl ||| fl }

/-- One rounded operation on codes: the code, with the count and flags carried on. -/
def rounded (f : FFmt) (rd : Nat → Rnd) (op : FVal → FVal → Ex) (a b : Nat) (k : Calc) : Nat × Calc :=
  let (x, fl) := f.finish (rd k.n) (op (f.decode a) (f.decode b))
  (x, k.step fl)

/-- Subtraction. -/
def fSub (down : Bool) (a b : FVal) : Ex :=
  match b with
  | .nan s => fAdd down a (.nan s)
  | b => fAdd down a b.neg

/-- |a| ≤ |b|, exactly; no NaN compares. -/
def leMag (a b : FVal) : Bool :=
  match a, b with
  | .nan _, _ => false
  | _, .nan _ => false
  | _, .inf _ => true
  | .inf _, _ => false
  | .num _ m e _, .num _ m' e' _ => cmpNum false m e false m' e' != .gt

/-- The largest magnitude of some values: a NaN if one is. -/
def maxMag : List FVal → FVal
  | [] => .zero false
  | x :: xs =>
    match x, maxMag xs with
    | .nan s, _ => .nan s
    | _, .nan s => .nan s
    | x, y => if leMag x y then y else x

/-- A value times 2^(-k). -/
def lowered (k : Nat) : FVal → FVal
  | .num n m e s => .num n m (e - k) s
  | x => x

/-- The divisor check |δ| ≤ θ × M (R311). -/
def tooSmall (x : Hist) (d : Nat) (among : List Nat) : Bool :=
  leMag (x.fmt.decode d) (lowered x.texp (maxMag (among.map x.fmt.decode)))

/-- The result of a mode's rule: the estimate, NZD, and the roundings. -/
abbrev Estimate := Nat × Bool × Calc

/-- AITKEN (R312). -/
def aitken (x : Hist) (down : Bool) (rd : Nat → Rnd) (k : Calc) : List Nat → Estimate
  | c :: b :: a :: _ =>
    let (t1, k) := rounded x.fmt rd (fSub down) c b k
    let (t2, k) := rounded x.fmt rd (fSub down) b a k
    let (d, k) := rounded x.fmt rd (fSub down) t1 t2 k
    if tooSmall x d [a, b, c] then (c, true, k)
    else
      let (p, k) := rounded x.fmt rd fMul t1 t1 k
      let (q, k) := rounded x.fmt rd fDiv p d k
      let (y, k) := rounded x.fmt rd (fSub down) c q k
      (y, false, k)
  | c :: _ => (c, false, k)
  | [] => (0, false, k)

/-- One column of Wynn's table from the column cur and the one before it, shifted by one: none when a difference is too
small. -/
def wynnColumn (x : Hist) (down : Bool) (rd : Nat → Rnd) : List Nat → List Nat → Calc → Option (List Nat) × Calc
  | u :: v :: cur, before, k =>
    let (d, k) := rounded x.fmt rd (fSub down) v u k
    if tooSmall x d [v, u] then (none, k)
    else
      let one := (x.fmt.finish rne (exact (ofInt 1))).1
      let (r, k) := rounded x.fmt rd fDiv one d k
      let (y, k) := rounded x.fmt rd (fAdd down) (before.headD 0) r k
      match wynnColumn x down rd (v :: cur) before.tail k with
      | (some ys, k) => (some (y :: ys), k)
      | (none, k) => (none, k)
  | _, _, k => (some [], k)

/-- The columns of Wynn's table up to an even one. -/
def wynn (x : Hist) (down : Bool) (rd : Nat → Rnd) : Nat → List Nat → List Nat → Calc → Option Nat × Calc
  | 0, cur, _, k => (some (cur.headD 0), k)
  | n + 1, cur, before, k =>
    match wynnColumn x down rd cur before k with
    | (some next, k) => wynn x down rd n next cur.tail k
    | (none, k) => (none, k)

/-- EPS (R313). -/
def epsilon (x : Hist) (down : Bool) (rd : Nat → Rnd) (k : Calc) (s : List Nat) : Estimate :=
  let newest := s.getLastD 0
  let K := 2 * ((s.length - 1) / 2)
  match wynn x down rd K (s.drop (s.length - 1 - K)) [] k with
  | (some y, k) => (y, false, k)
  | (none, k) => (newest, true, k)

/-- One column of Richardson's table: u is the entry below the next one of the old column. -/
def richColumn (x : Hist) (down : Bool) (rd : Nat → Rnd) (div : Nat) : List Nat → Calc → List Nat × Calc
  | u :: v :: rest, k =>
    let (d, k) := rounded x.fmt rd (fSub down) v u k
    let (q, k) := rounded x.fmt rd fDiv d div k
    let (y, k) := rounded x.fmt rd (fAdd down) v q k
    let (ys, k) := richColumn x down rd div (v :: rest) k
    (y :: ys, k)
  | _, k => ([], k)

/-- Richardson's columns from m on. -/
def richColumns (x : Hist) (down : Bool) (rd : Nat → Rnd) : Nat → Nat → List Nat → Calc → Nat × Calc
  | 0, _, col, k => (col.getLastD 0, k)
  | n + 1, m, col, k =>
    let div := (x.fmt.finish rne (exact (ofInt ((2 ^ (m * x.rexp) - 1 : Nat) : Int)))).1
    let (col, k) := richColumn x down rd div col k
    richColumns x down rd n (m + 1) col k

/-- RICH (R314). -/
def richardson (x : Hist) (down : Bool) (rd : Nat → Rnd) (k : Calc) (s : List Nat) : Estimate :=
  let (y, k) := richColumns x down rd (s.length - 1) 1 s k
  (y, false, k)

/-- The estimate of an element that holds entries (R311). -/
def estimate (x : Hist) (down : Bool) (rd : Nat → Rnd) (ten : Nat) (e : HistElem) : Estimate :=
  let k : Calc := { n := 0, fl := 0, ten := ten }
  if e.stag then (e.entries.getLastD 0, false, k)
  else match x.mode with
    | 0 => aitken x down rd k e.entries.reverse
    | 1 => epsilon x down rd k e.entries
    | _ => richardson x down rd k e.entries

/-- The value is a number. -/
def FVal.finite : FVal → Bool
  | .num .. => true
  | _ => false

/-- DIV of R315 for estimate y. -/
def diverges (x : Hist) (e : HistElem) (y : Nat) : Bool :=
  let f := x.fmt
  if !(f.decode y).finite then true
  else match e.entries.reverse.map f.decode with
    | c :: b :: a :: _ =>
      if a.finite && b.finite && c.finite then !leMag (fSub false c b).val (fSub false b a).val else true
    | _ => false

/-- CONV of R315 for estimate y. -/
def converges (x : Hist) (e : HistElem) (y : Nat) : Bool :=
  match e.prev with
  | none => false
  | some p =>
    let u := x.fmt.decode y
    let v := x.fmt.decode p
    u.finite && v.finite && leMag (fSub false u v).val (lowered x.tolexp (maxMag [u, v]))

/-- A code in another floating-point format, unchanged within the same one. -/
def recode (src dst : BitVec 8) (rd : Rnd) (x : Nat) : Nat × Nat := if src = dst then (x, 0) else convert src dst rd x

/-- An element in PREC (R310), where a NaN becomes the canonical one (R40). -/
def inPrec (x : Hist) (src : BitVec 8) (rd : Rnd) (v : Nat) : Nat × Nat :=
  match x.fmt.decode v with
  | .nan _ => convert src x.code rd v
  | _ => recode src x.code rd v

namespace VCtx

/-- XCFG (R309). -/
def xcfg (c : VCtx) (d : BitVec 5) : M Bool := do
  let s ← getState
  let h := s.hart c.g
  if c.start < c.vl then
    let w := c.e.opa
    let x : Hist := { cfg := w, nel := c.vl, elems := [] }
    if Hist.bad w then c.faultWhole .histBad 0
    else if 65536 < x.bytes + s.histBytes c.g (some (d.toNat % 4)) then c.faultWhole .histSpace 0
    else
      let n := if x.depth = 0 then 0 else c.vl
      c.finish (h.setHist d.toNat { cfg := w, nel := n, elems := List.replicate n Hist.blank })
  else c.finish h

/-- An element after one more entry (R310). -/
def pushEntry (x : Hist) (e : HistElem) (v : Nat) : HistElem :=
  let all := e.entries ++ [v]
  let kept := if x.depth < all.length then all.tail else all
  let stag := match kept.reverse with
    | b :: a :: _ => (fCompare x.fmt 0 a b).1
    | _ => false
  { e with entries := kept, stag := stag }

/-- XCKPT (R310). -/
def xckpt (c : VCtx) (d a : BitVec 5) (m : BitVec 4) : M Bool :=
  c.elementwise (fun h i => c.on h m i && decide (i < (h.hist d.toNat).nel))
    (fun i h =>
      let x := h.hist d.toNat
      let (v, fl) := inPrec x c.code (c.rnd i 0) (c.src h a i)
      (h.setHist d.toNat (x.setElem i (pushEntry x (x.elem i) v)), fl)) id

/-- XDRAIN (R311 to R315). -/
def xdrain (c : VCtx) (d a : BitVec 5) (m : BitVec 4) : M Bool :=
  c.elementwise (fun h i => c.on h m i)
    (fun i h =>
      let x := h.hist a.toNat
      let e := x.elem i
      if x.nel ≤ i ∨ e.entries = [] then (h.vput c.code d.toNat i 0, 0)
      else
        let (y, nzd, k) := estimate x c.down (fun n => c.rnd i n) c.e.ten.toNat e
        let (z, fl) := recode x.code c.code (c.rnd i k.n) y
        let e' := { e with prev := some y, nzd := nzd, div := diverges x e y, conv := converges x e y }
        let h := h.setHist a.toNat (x.setElem i e')
        ({ (h.vput c.code d.toNat i z) with xfallbk := if nzd then h.xfallbk + 1 else h.xfallbk }, (k.step fl).fl))
    id

/-- XSTAT (R316). -/
def xstat (c : VCtx) (d a : BitVec 5) (m : BitVec 4) (f : BitVec 2) : M Bool :=
  c.toMask m d (fun i h =>
    let x := h.hist a.toNat
    let e := x.elem i
    (decide (i < x.nel) && (match f.toNat with
      | 0 => e.nzd
      | 1 => e.stag
      | 2 => e.conv
      | _ => e.div), 0))

/-- XCLR (R316). -/
def xclr (c : VCtx) (d : BitVec 5) : M Bool := do
  let h ← getHart c.g
  let x := h.hist d.toNat
  c.finish (if c.start < c.vl then h.setHist d.toNat { x with elems := List.replicate x.nel Hist.blank } else h)

end VCtx

end Sys2Proof.Machine
end

