-- ==== Sys2Proof/Machine/VPerm.lean ====
section
/-!
DEFINITION. Machine/VPerm.lean: moves and permutes (R254 to R257), the integer reductions (R258) and the mask instructions
(R260 to R265).
-/
namespace Sys2Proof.Machine.VCtx

/-- VMV (R254). -/
def vmv (c : VCtx) (d a : BitVec 5) (m : BitVec 4) : M Bool :=
  c.toVector m c.code d c.grp (fun i h => (c.src h a i, 0))

/-- VMV from a scalar (R254). -/
def vmvScalar (c : VCtx) (d : BitVec 5) (m : BitVec 4) : M Bool :=
  c.toVector m c.code d c.grp (fun _ _ => (c.scalarA, 0))

/-- VID (R254). -/
def vid (c : VCtx) (d : BitVec 5) (m : BitVec 4) : M Bool :=
  c.toVector m c.code d c.grp (fun i _ => (i % 2 ^ c.w, 0))

/-- VMV to a scale register (R254). -/
def vmvToScale (c : VCtx) (d a : BitVec 5) : M Bool :=
  c.elementwise (fun h j => decide (j < h.wCodes) && decide (j < c.cover))
    (fun j h => (h.wput d.toNat j (c.src h a j), 0)) id

/-- VMV from a scale register (R254). -/
def vmvFromScale (c : VCtx) (d a : BitVec 5) : M Bool :=
  c.toVector 12#4 c.code d c.grp (fun j h => (if j < h.wCodes then h.wget a.toNat j else 0, 0))

/-- VSLIDEUP (R255). -/
def vslideup (c : VCtx) (d a : BitVec 5) (m : BitVec 4) : M Bool :=
  let s := c.e.opb.toNat
  c.wholeVector d c.grp (fun h =>
    (c.all.filter (fun i => c.on h m i && decide (s ≤ i))).map (fun i => (i, c.src h a (i - s))))

/-- VSLIDEDN (R255). -/
def vslidedn (c : VCtx) (d a : BitVec 5) (m : BitVec 4) : M Bool :=
  let s := c.e.opb.toNat
  c.wholeVector d c.grp (fun h =>
    (c.all.filter (fun i => c.on h m i)).map (fun i => (i, if i + s < c.vl then c.src h a (i + s) else 0)))

/-- VPERM (R256). -/
def vperm (c : VCtx) (d a b : BitVec 5) (m : BitVec 4) : M Bool :=
  c.wholeVector d c.grp (fun h =>
    (c.all.filter (fun i => c.on h m i)).map (fun i =>
      let k := c.src h b i
      (i, if k < c.vl then c.src h a k else 0)))

/-- Number the items of a list from n on. -/
def numbered {α : Type} : Nat → List α → List (Nat × α)
  | _, [] => []
  | n, x :: xs => (n, x) :: numbered (n + 1) xs

/-- VCOMPRESS (R257). -/
def vcompress (c : VCtx) (d a b : BitVec 5) : M Bool :=
  c.wholeVector d c.grp (fun h =>
    numbered 0 ((c.all.filter (fun i => (h.mreg b.toNat).testBit i && decide (i < c.cover))).map (fun i => c.src h a i)))

/-- The counts of VIOTA over elements in order. -/
def iotaFrom (c : VCtx) (h : Hart) (a : BitVec 5) : Nat → List Nat → List (Nat × Nat)
  | _, [] => []
  | n, i :: is =>
    (i, n % 2 ^ c.w) :: iotaFrom c h a (if (h.mreg a.toNat).testBit i then n + 1 else n) is

/-- VIOTA (R257). -/
def viota (c : VCtx) (d a : BitVec 5) (m : BitVec 4) : M Bool :=
  c.wholeVector d c.grp (fun h => c.iotaFrom h a 0 (c.all.filter (fun i => c.on h m i)))

/-- The integer reductions (R56, R258). -/
def vred (c : VCtx) (a : BitVec 5) (m : BitVec 4) (f : IntOp) : M Bool :=
  let s := codeSigned c.code
  let out := fun (x : Nat) => BitVec.ofInt 64 (intOf s c.w x)
  c.wholeScalar (out c.scalarB) (fun h =>
    out (((c.all.filter (fun i => c.on h m i)).map (fun i => c.src h a i)).foldl (fun acc x => f s c.w acc x 0) c.scalarB))

/-- The two-operand mask logic (R260). -/
def mlogic (c : VCtx) (d a b : BitVec 5) (f : Bool → Bool → Bool) : M Bool :=
  c.toMask 12#4 d (fun i h => (f ((h.mreg a.toNat).testBit i) ((h.mreg b.toNat).testBit i), 0))

/-- MWHILE (R261). -/
def mwhile (c : VCtx) (d : BitVec 5) : M Bool :=
  c.toMask 12#4 d (fun i _ => (decide (i < c.e.opa.toNat), 0))

/-- Set bits of a mask below VL. -/
def setBelow (c : VCtx) (h : Hart) (a : BitVec 5) : List Nat := c.all.filter (fun i => (h.mreg a.toNat).testBit i)

/-- MPOP (R262). -/
def mpop (c : VCtx) (a : BitVec 5) : M Bool := c.wholeScalar 0 (fun h => BitVec.ofNat 64 (c.setBelow h a).length)

/-- MPOP.VL (R262). -/
def mpopVl (c : VCtx) (a : BitVec 5) : M Bool := do
  let h ← getHart c.g
  let n := if c.start < c.vl then (c.setBelow h a).length else 0
  c.finish { (h.fillRq (BitVec.ofNat 64 n)) with vl := BitVec.ofNat 23 n }

/-- MFIRST (R263). -/
def mfirst (c : VCtx) (a : BitVec 5) : M Bool :=
  c.wholeScalar (-1) (fun h => match c.setBelow h a with
    | i :: _ => BitVec.ofNat 64 i
    | [] => -1)

/-- MLAST (R263). -/
def mlast (c : VCtx) (a : BitVec 5) : M Bool :=
  c.wholeScalar (-1) (fun h => match (c.setBelow h a).getLast? with
    | some i => BitVec.ofNat 64 i
    | none => -1)

/-- Write mask bits all at once. -/
def putBits (h : Hart) (d : BitVec 5) : List (Nat × Bool) → Hart
  | [] => h
  | (i, b) :: rest => putBits (h.mput d.toNat i b) d rest

/-- A whole-instruction mask result. -/
def wholeMask (c : VCtx) (d : BitVec 5) (f : Hart → List (Nat × Bool)) : M Bool := do
  let h ← getHart c.g
  if c.start < c.vl then c.finish (putBits h d (f h)) else c.finish h

/-- MSHUP (R264). -/
def mshup (c : VCtx) (d a : BitVec 5) : M Bool :=
  c.wholeMask d (fun h => c.all.map (fun i => (i, decide (0 < i) && (h.mreg a.toNat).testBit (i - 1))))

/-- Score x of element i ranks before score y of element j in VTOPK's order (R265). -/
def ranksBefore (t : BitVec 8) (i x j y : Nat) : Bool :=
  let o : Ordering :=
    if codeFloat t then
      match (codeFmt t).decode x, (codeFmt t).decode y with
      | .nan _, .nan _ => .eq
      | .nan _, _ => .lt
      | _, .nan _ => .gt
      | a, b => (fCmp a b).getD .eq
    else compare (intOf (codeSigned t) (codeWidth t) x) (intOf (codeSigned t) (codeWidth t) y)
  o == .gt || (o == .eq && decide (i < j))

/-- VTOPK (R265). -/
def vtopk (c : VCtx) (d a : BitVec 5) (m : BitVec 4) : M Bool :=
  let k := c.e.opb.toNat
  c.wholeMask d (fun h =>
    let cand := (c.all.filter (fun i => c.on h m i)).map (fun i => (i, c.src h a i))
    c.all.map (fun i =>
      let x := c.src h a i
      (i, c.on h m i && decide ((cand.filter (fun q => ranksBefore c.code q.1 q.2 i x)).length < k))))

end Sys2Proof.Machine.VCtx
end

