-- ==== Sys2Proof/Machine/VDispatch.lean ====
section
/-!
DEFINITION. Machine/VDispatch.lean: what each vector-side instruction is to the queue, its performance, the performing of the
queue in order (R26, R124), and the sending of an instruction (R123, R207).
-/
namespace Sys2Proof.Machine

/-! ### Formats that rows accept (R187, R194 to R199) -/

/-- CLASS 0 to 9. -/
def intOk (t : BitVec 8) : Bool := decide (codeClass t ≤ 9)
/-- CLASS 0 to 7. -/
def packedInt (t : BitVec 8) : Bool := decide (codeClass t ≤ 7)
/-- CLASS 11 with SUB 5 to 8. -/
def fpOk (t : BitVec 8) : Bool := codeFloat t && decide (5 ≤ codeSub t) && decide (codeSub t ≤ 8)
/-- CLASS 11 with SUB 5 to 7. -/
def fpSmallOk (t : BitVec 8) : Bool := fpOk t && decide (codeSub t ≤ 7)
/-- Every CLASS but 10. -/
def notB1 (t : BitVec 8) : Bool := codeClass t != 10
/-- CLASS 3 or 7. -/
def word64 (t : BitVec 8) : Bool := codeClass t == 3 || codeClass t == 7
/-- CLASS 2 or 6, or CLASS 11 with SUB 7 (R302). -/
def cellOk (t : BitVec 8) : Bool := codeClass t == 2 || codeClass t == 6 || t == 0x7B#8
/-- CLASS 11 with SUB 7 or 8 (R310, R311). -/
def historyOk (t : BitVec 8) : Bool := t == 0x7B#8 || t == 0x8B#8

/-! ### Shapes of rows -/

namespace VOp

/-- Nothing but a captured VTYPE. -/
def base : VOp :=
  { typed := true, ok := true, whole := false, srcs := [], dsts := [], opa := none, opb := none, xd := none, rounds := false,
    names := [] }
/-- Nothing from VTYPE (R66). -/
def untyped : VOp := { base with typed := false, whole := true }
/-- Sources only. -/
def reads (ok : Bool) (srcs : List VOperand) : VOp := { base with ok := ok, srcs := srcs }
/-- A destination and one source. -/
def vv (ok : Bool) (d a : VOperand) : VOp := { base with ok := ok, dsts := [d], srcs := [a] }
/-- A destination and two sources. -/
def vvv (ok : Bool) (d a b : VOperand) : VOp := { base with ok := ok, dsts := [d], srcs := [a, b] }
/-- A destination, a source and an x register. -/
def vvx (ok : Bool) (d a : VOperand) (b : BitVec 5) : VOp := { base with ok := ok, dsts := [d], srcs := [a], opb := some b }
/-- A reduction. -/
def fold (ok : Bool) (a : VOperand) (b d : BitVec 5) : VOp :=
  { base with ok := ok, srcs := [a], opb := some b, xd := some d, whole := true }
/-- The instruction rounds in the captured mode. -/
def rounding (o : VOp) : VOp := { o with rounds := true }
/-- The instruction is a whole-instruction one. -/
def atOnce (o : VOp) : VOp := { o with whole := true }

end VOp

/-- Two operands name a register in common. -/
def VOperand.overlaps (x y : VOperand) : Bool := decide (x.reg < y.reg + y.group) && decide (y.reg < x.reg + x.group)

/-- VFCVT (R253). -/
def convOp (h : Hart) (t : BitVec 8) (g : Nat) (d a k : BitVec 5) : VOp :=
  let dst := convTarget k
  let src : VOperand := ⟨a.toNat, g, codeWidth t⟩
  match VCtx.cvtGroup h.lay (codeWidth t) g (codeWidth dst) with
  | none => { VOp.base with ok := false }
  | some gd =>
    let out : VOperand := ⟨d.toNat, gd, codeWidth dst⟩
    { VOp.base with
      ok := (packedInt t || fpOk t) && (!out.overlaps src || (decide (d = a) && decide (gd = g)))
      srcs := [src], dsts := [out], rounds := codeFloat t || codeFloat dst }

/-- VAMO (R198): the addresses are a group of 64-bit elements. -/
def amoOp (t : BitVec 8) (g : Nat) (d b : BitVec 5) : VOp :=
  let narrow := codeClass t == 2 || codeClass t == 6
  { VOp.base with
    ok := (narrow && decide (g ≤ 4)) || word64 t
    dsts := [⟨d.toNat, g, codeWidth t⟩]
    srcs := [⟨b.toNat, if narrow then 2 * g else g, 64⟩] }

/-- MOPA's operands (R297). -/
def mopaOp (h : Hart) (a b : BitVec 5) (ta tb : BitVec 8) : VOp :=
  match mopaGroup h.lay ta (h.tilem.toNat * h.tilek.toNat), mopaGroup h.lay tb (h.tilen.toNat * h.tilek.toNat) with
  | some ga, some gb =>
    { VOp.base with
      srcs := [⟨a.toNat, ga, codeWidth ta⟩, ⟨b.toNat, gb, codeWidth tb⟩]
      whole := true
      rounds := codeFloat ta || codeFloat tb }
  | _, _ => { VOp.base with ok := false }

/-- VCVTN and VCVTW (R303): a group in the source format, and one in the destination's that does not meet it. -/
def narrowOp (h : Hart) (g : Nat) (d a : BitVec 5) (src dst : BitVec 8) : VOp :=
  match VCtx.targetGroup h.lay g src dst with
  | none => { VOp.base with ok := false }
  | some gd =>
    let x : VOperand := ⟨a.toNat, g, codeWidth src⟩
    let y : VOperand := ⟨d.toNat, gd, codeWidth dst⟩
    { VOp.base with ok := !x.overlaps y, srcs := [x], dsts := [y], rounds := true }

/-- VHAD (R303, R307): overlap only with the same group. -/
def hadOp (h : Hart) (g : Nat) (d a : BitVec 5) (ta tb : BitVec 8) : VOp :=
  match VCtx.targetGroup h.lay g tb ta with
  | none => { VOp.base with ok := false }
  | some gd =>
    let x : VOperand := ⟨a.toNat, g, codeWidth tb⟩
    let y : VOperand := ⟨d.toNat, gd, codeWidth ta⟩
    { VOp.base with ok := !x.overlaps y || (decide (d = a) && decide (gd = g)), srcs := [x], dsts := [y], whole := true,
                    rounds := true }

/-- What an instruction is to the vector queue under a VTYPE; none for an instruction that does not pass through it. -/
def vop (i : Instr) (vtype : Word) (h : Hart) : Option VOp :=
  let t := vtCode vtype
  let g := vtGroup vtype
  let V (r : BitVec 5) : VOperand := ⟨r.toNat, g, codeWidth t⟩
  match i with
  | .vadd d a b _ => some (.vvv (intOk t) (V d) (V a) (V b))
  | .vsub d a b _ => some (.vvv (intOk t) (V d) (V a) (V b))
  | .vmul d a b _ => some (.vvv (intOk t) (V d) (V a) (V b))
  | .vmulh d a b _ => some (.vvv (intOk t) (V d) (V a) (V b))
  | .vmacc d a b _ => some (.vvv (intOk t) (V d) (V a) (V b))
  | .vdiv d a b _ => some (.vvv (intOk t) (V d) (V a) (V b))
  | .vrem d a b _ => some (.vvv (intOk t) (V d) (V a) (V b))
  | .vmin d a b _ => some (.vvv (intOk t) (V d) (V a) (V b))
  | .vmax d a b _ => some (.vvv (intOk t) (V d) (V a) (V b))
  | .vand d a b _ => some (.vvv (intOk t) (V d) (V a) (V b))
  | .vor d a b _ => some (.vvv (intOk t) (V d) (V a) (V b))
  | .vxor d a b _ => some (.vvv (intOk t) (V d) (V a) (V b))
  | .vsll d a b _ => some (.vvv (intOk t) (V d) (V a) (V b))
  | .vsrl d a b _ => some (.vvv (intOk t) (V d) (V a) (V b))
  | .vsra d a b _ => some (.vvv (intOk t) (V d) (V a) (V b))
  | .vadds d a b _ => some (.vvv (intOk t) (V d) (V a) (V b))
  | .vsubs d a b _ => some (.vvv (intOk t) (V d) (V a) (V b))
  | .vadc d a b _ => some (.vvv (intOk t) (V d) (V a) (V b))
  | .vsbc d a b _ => some (.vvv (intOk t) (V d) (V a) (V b))
  | .vmerge d a b _ => some (.vvv (intOk t) (V d) (V a) (V b))
  | .vaddX d a b _ => some (.vvx (intOk t) (V d) (V a) b)
  | .vsubX d a b _ => some (.vvx (intOk t) (V d) (V a) b)
  | .vmulX d a b _ => some (.vvx (intOk t) (V d) (V a) b)
  | .vmulhX d a b _ => some (.vvx (intOk t) (V d) (V a) b)
  | .vmaccX d a b _ => some (.vvx (intOk t) (V d) (V a) b)
  | .vdivX d a b _ => some (.vvx (intOk t) (V d) (V a) b)
  | .vremX d a b _ => some (.vvx (intOk t) (V d) (V a) b)
  | .vminX d a b _ => some (.vvx (intOk t) (V d) (V a) b)
  | .vmaxX d a b _ => some (.vvx (intOk t) (V d) (V a) b)
  | .vandX d a b _ => some (.vvx (intOk t) (V d) (V a) b)
  | .vorX d a b _ => some (.vvx (intOk t) (V d) (V a) b)
  | .vxorX d a b _ => some (.vvx (intOk t) (V d) (V a) b)
  | .vsllX d a b _ => some (.vvx (intOk t) (V d) (V a) b)
  | .vsrlX d a b _ => some (.vvx (intOk t) (V d) (V a) b)
  | .vsraX d a b _ => some (.vvx (intOk t) (V d) (V a) b)
  | .vaddsX d a b _ => some (.vvx (intOk t) (V d) (V a) b)
  | .vsubsX d a b _ => some (.vvx (intOk t) (V d) (V a) b)
  | .vadcX d a b _ => some (.vvx (intOk t) (V d) (V a) b)
  | .vsbcX d a b _ => some (.vvx (intOk t) (V d) (V a) b)
  | .vmergeX d a b _ => some (.vvx (intOk t) (V d) (V a) b)
  | .vcmpeq _ a b _ => some (.reads (intOk t) [V a, V b])
  | .vcmpne _ a b _ => some (.reads (intOk t) [V a, V b])
  | .vcmplt _ a b _ => some (.reads (intOk t) [V a, V b])
  | .vcmple _ a b _ => some (.reads (intOk t) [V a, V b])
  | .vcmpgt _ a b _ => some (.reads (intOk t) [V a, V b])
  | .vcmpge _ a b _ => some (.reads (intOk t) [V a, V b])
  | .vfcmpeq _ a b _ => some (.reads (fpOk t) [V a, V b])
  | .vfcmplt _ a b _ => some (.reads (fpOk t) [V a, V b])
  | .vfcmple _ a b _ => some (.reads (fpOk t) [V a, V b])
  | .vfcmpne _ a b _ => some (.reads (fpOk t) [V a, V b])
  | .vfcmpun _ a b _ => some (.reads (fpOk t) [V a, V b])
  | .vfadd d a b _ => some ((VOp.vvv (fpOk t) (V d) (V a) (V b)).rounding)
  | .vfsub d a b _ => some ((VOp.vvv (fpOk t) (V d) (V a) (V b)).rounding)
  | .vfmul d a b _ => some ((VOp.vvv (fpOk t) (V d) (V a) (V b)).rounding)
  | .vfma d a b _ => some ((VOp.vvv (fpOk t) (V d) (V a) (V b)).rounding)
  | .vfdiv d a b _ => some ((VOp.vvv (fpOk t) (V d) (V a) (V b)).rounding)
  | .vfsqrt d a _ => some ((VOp.vv (fpOk t) (V d) (V a)).rounding)
  | .vfmin d a b _ => some (.vvv (fpOk t) (V d) (V a) (V b))
  | .vfmax d a b _ => some (.vvv (fpOk t) (V d) (V a) (V b))
  | .vfcvt d a _ k => some (convOp h t g d a k)
  | .vfrcp d a _ => some ((VOp.vv (fpSmallOk t) (V d) (V a)).rounding)
  | .vfrsq d a _ => some ((VOp.vv (fpSmallOk t) (V d) (V a)).rounding)
  | .vfexp2 d a _ => some ((VOp.vv (fpSmallOk t) (V d) (V a)).rounding)
  | .vflog2 d a _ => some ((VOp.vv (fpSmallOk t) (V d) (V a)).rounding)
  | .vftanh d a _ => some ((VOp.vv (fpSmallOk t) (V d) (V a)).rounding)
  | .vfaddX d a b _ => some ((VOp.vvx (fpOk t) (V d) (V a) b).rounding)
  | .vfsubX d a b _ => some ((VOp.vvx (fpOk t) (V d) (V a) b).rounding)
  | .vfmulX d a b _ => some ((VOp.vvx (fpOk t) (V d) (V a) b).rounding)
  | .vfmaX d a b _ => some ((VOp.vvx (fpOk t) (V d) (V a) b).rounding)
  | .vfminX d a b _ => some (.vvx (fpOk t) (V d) (V a) b)
  | .vfmaxX d a b _ => some (.vvx (fpOk t) (V d) (V a) b)
  | .vmv d a _ => some (.vv true (V d) (V a))
  | .vmvFromScalar d a _ => some ({ VOp.base with ok := notB1 t, dsts := [V d], opa := some a })
  | .vslideup d a b _ => some ((VOp.vvx true (V d) (V a) b).atOnce)
  | .vslidedn d a b _ => some ((VOp.vvx true (V d) (V a) b).atOnce)
  | .vperm d a b _ => some ((VOp.vvv true (V d) (V a) (V b)).atOnce)
  | .vcompress d a _ => some ((VOp.vv true (V d) (V a)).atOnce)
  | .viota d _ _ => some ({ VOp.base with ok := packedInt t, dsts := [V d], whole := true })
  | .vid d _ => some ({ VOp.base with ok := intOk t, dsts := [V d] })
  | .vmvToScale _ a => some (.reads (t == 4#8) [V a])
  | .vmvFromScale d _ => some ({ VOp.base with ok := t == 4#8, dsts := [V d] })
  | .vredAdd d a b _ => some (.fold (packedInt t) (V a) b d)
  | .vredAnd d a b _ => some (.fold (packedInt t) (V a) b d)
  | .vredOr d a b _ => some (.fold (packedInt t) (V a) b d)
  | .vredXor d a b _ => some (.fold (packedInt t) (V a) b d)
  | .vredMin d a b _ => some (.fold (packedInt t) (V a) b d)
  | .vredMax d a b _ => some (.fold (packedInt t) (V a) b d)
  | .vfredo d a b _ => some ((VOp.fold (fpOk t) (V a) b d).rounding)
  | .vfredt d a b _ => some ((VOp.fold (fpOk t) (V a) b d).rounding)
  | .mand _ _ _ => some (VOp.base)
  | .mor _ _ _ => some (VOp.base)
  | .mxor _ _ _ => some (VOp.base)
  | .mandn _ _ _ => some (VOp.base)
  | .mnot _ _ => some (VOp.base)
  | .mwhile _ a => some ({ VOp.base with opa := some a })
  | .mpop d _ => some ({ VOp.base with whole := true, xd := some d })
  | .mpopVl d _ => some ({ VOp.base with whole := true, xd := some d })
  | .mfirst d _ => some ({ VOp.base with whole := true, xd := some d })
  | .mlast d _ => some ({ VOp.base with whole := true, xd := some d })
  | .mshup _ _ => some (VOp.base.atOnce)
  | .vtopk _ a b _ => some ({ VOp.base with ok := notB1 t, srcs := [V a], opb := some b, whole := true })
  | .vld d a _ => some ({ VOp.base with ok := notB1 t, dsts := [V d], opa := some a })
  | .vlds d a b _ => some ({ VOp.base with ok := notB1 t, dsts := [V d], opa := some a, opb := some b })
  | .vlx d a b _ => some ({ VOp.base with ok := notB1 t, dsts := [V d], opa := some a, srcs := [V b] })
  | .vldff d a _ => some ({ VOp.base with ok := notB1 t, dsts := [V d], opa := some a })
  | .vlxff d a b _ => some ({ VOp.base with ok := notB1 t, dsts := [V d], opa := some a, srcs := [V b] })
  | .vldScale _ a => some ({ VOp.base with ok := notB1 t, opa := some a, whole := true })
  | .vldMask _ a => some ({ VOp.base with ok := notB1 t, opa := some a, whole := true })
  | .vstScale _ a => some ({ VOp.base with ok := notB1 t, opa := some a, whole := true })
  | .vstMask _ a => some ({ VOp.base with ok := notB1 t, opa := some a, whole := true })
  | .vst d a _ => some ({ VOp.base with ok := notB1 t, srcs := [V d], opa := some a })
  | .vsts d a b _ => some ({ VOp.base with ok := notB1 t, srcs := [V d], opa := some a, opb := some b })
  | .vsx d a b _ => some ({ VOp.base with ok := notB1 t, srcs := [V d, V b], opa := some a })
  | .vscadd d a b _ => some ({ VOp.base with ok := intOk t || fpOk t, srcs := [V d, V b], opa := some a, rounds := fpOk t })
  | .vxlate d a _ _ => some (.vv (word64 t) (V d) (V a))
  | .vxlateff d a _ _ => some (.vv (word64 t) (V d) (V a))
  | .vamoAdd d b _ _ _ _ => some (amoOp t g d b)
  | .vamoAnd d b _ _ _ _ => some (amoOp t g d b)
  | .vamoOr d b _ _ _ _ => some (amoOp t g d b)
  | .vamoXor d b _ _ _ _ => some (amoOp t g d b)
  | .vamoMin d b _ _ _ _ => some (amoOp t g d b)
  | .vamoMax d b _ _ _ _ => some (amoOp t g d b)
  | .vamoMinn d b _ _ _ _ => some (amoOp t g d b)
  | .vamoMaxn d b _ _ _ _ => some (amoOp t g d b)
  | .vamoSwap d b _ _ _ _ => some (amoOp t g d b)
  | .fwdmove a b _ => some (.reads (word64 t) [V a, V b])
  | .fwdres d a _ => some (.vv (word64 t) (V d) (V a))
  | .fwdresff d a _ => some (.vv (word64 t) (V d) (V a))
  | .pcmpr _ a b _ => some (.reads (word64 t) [V a, V b])
  | .fwdpath a _ => some (.reads (word64 t) [V a])
  | .fwdrecl a => some ({ VOp.base with ok := word64 t, opa := some a, whole := true })
  | .fwdreclTomb a => some ({ VOp.base with ok := word64 t, opa := some a, whole := true })
  | .cpstep _ => some (VOp.untyped)
  | .cpwait _ => some (VOp.untyped)
  | .cpland d _ => some ({ VOp.untyped with xd := some d })
  | .cpcfg a _ _ => some ({ VOp.untyped with opa := some a, rounds := true })
  | .sopen d a _ => some ({ VOp.untyped with opa := some a, names := [⟨d.toNat, 1, 0⟩] })
  | .sclose d => some ({ VOp.untyped with names := [⟨d.toNat, 1, 0⟩] })
  | .bstVector d a _ => some ({ VOp.base with ok := word64 t || t == 0x8B#8, srcs := [V d], opa := some a })
  | .bstScalar a b => some ({ VOp.untyped with opa := some a, opb := some b })
  | .fenceSv _ => some (VOp.untyped)
  | .fenceVv _ => some (VOp.untyped)
  | .mopa _ a b ta tb _ _ _ _ => some (mopaOp h a b ta tb)
  | .mzero _ => some (VOp.base.atOnce)
  | .mfill _ a => some ({ VOp.base with opa := some a, whole := true })
  | .mdrain _ a b _ _ => some ({ VOp.base with opa := some a, opb := some b })
  | .mrdrow d _ b _ => some ({ VOp.base with ok := cellOk t, dsts := [V d], opb := some b })
  | .vhad d a _ ta tb _ => some (hadOp h g d a ta tb)
  | .vcvtn d a _ ta tb _ _ => some (narrowOp h g d a tb ta)
  | .vcvtw d a _ ta tb _ _ => some (narrowOp h g d a ta tb)
  | .vscale _ a ta tb => some ({ VOp.base with ok := (VCtx.targetGroup h.lay g tb ta).isSome, srcs := [⟨a.toNat, g, codeWidth tb⟩], whole := true })
  | .xcfg _ a => some ({ VOp.base with opa := some a, whole := true })
  | .xckpt _ a _ => some ({ VOp.base with ok := historyOk t, srcs := [V a], rounds := true })
  | .xdrain d _ _ => some ({ VOp.base with ok := historyOk t, dsts := [V d], rounds := true })
  | .xstat _ _ _ _ => some (VOp.base)
  | .xclr _ => some (VOp.base.atOnce)  | _ => none

/-- Perform the entry's instruction: true when it has completed, false when it waits. -/
def perform (c : VCtx) (i : Instr) : M Bool :=
  let _ := c.g
  open VCtx in
  match i with
  | .vadd d a b m => c.vint d a (.vec b) m iAdd
  | .vsub d a b m => c.vint d a (.vec b) m iSub
  | .vmul d a b m => c.vint d a (.vec b) m iMul
  | .vmulh d a b m => c.vint d a (.vec b) m iMulh
  | .vmacc d a b m => c.vint d a (.vec b) m iMacc
  | .vdiv d a b m => c.vint d a (.vec b) m iDiv
  | .vrem d a b m => c.vint d a (.vec b) m iRem
  | .vmin d a b m => c.vint d a (.vec b) m iMin
  | .vmax d a b m => c.vint d a (.vec b) m iMax
  | .vand d a b m => c.vint d a (.vec b) m iAnd
  | .vor d a b m => c.vint d a (.vec b) m iOr
  | .vxor d a b m => c.vint d a (.vec b) m iXor
  | .vsll d a b m => c.vint d a (.vec b) m iSll
  | .vsrl d a b m => c.vint d a (.vec b) m iSrl
  | .vsra d a b m => c.vint d a (.vec b) m iSra
  | .vadds d a b m => c.vint d a (.vec b) m iAdds
  | .vsubs d a b m => c.vint d a (.vec b) m iSubs
  | .vadc d a b m => c.vcarry d a (.vec b) m false
  | .vsbc d a b m => c.vcarry d a (.vec b) m true
  | .vmerge d a b m => c.vmerge d a (.vec b) m
  | .vaddX d a _ m => c.vint d a .scal m iAdd
  | .vsubX d a _ m => c.vint d a .scal m iSub
  | .vmulX d a _ m => c.vint d a .scal m iMul
  | .vmulhX d a _ m => c.vint d a .scal m iMulh
  | .vmaccX d a _ m => c.vint d a .scal m iMacc
  | .vdivX d a _ m => c.vint d a .scal m iDiv
  | .vremX d a _ m => c.vint d a .scal m iRem
  | .vminX d a _ m => c.vint d a .scal m iMin
  | .vmaxX d a _ m => c.vint d a .scal m iMax
  | .vandX d a _ m => c.vint d a .scal m iAnd
  | .vorX d a _ m => c.vint d a .scal m iOr
  | .vxorX d a _ m => c.vint d a .scal m iXor
  | .vsllX d a _ m => c.vint d a .scal m iSll
  | .vsrlX d a _ m => c.vint d a .scal m iSrl
  | .vsraX d a _ m => c.vint d a .scal m iSra
  | .vaddsX d a _ m => c.vint d a .scal m iAdds
  | .vsubsX d a _ m => c.vint d a .scal m iSubs
  | .vadcX d a _ m => c.vcarry d a .scal m false
  | .vsbcX d a _ m => c.vcarry d a .scal m true
  | .vmergeX d a _ m => c.vmerge d a .scal m
  | .vcmpeq d a b m => c.vcmp d a b m (fun x y => decide (x = y))
  | .vcmpne d a b m => c.vcmp d a b m (fun x y => decide (x ≠ y))
  | .vcmplt d a b m => c.vcmp d a b m (fun x y => decide (x < y))
  | .vcmple d a b m => c.vcmp d a b m (fun x y => decide (x ≤ y))
  | .vcmpgt d a b m => c.vcmp d a b m (fun x y => decide (x > y))
  | .vcmpge d a b m => c.vcmp d a b m (fun x y => decide (x ≥ y))
  | .vfcmpeq d a b m => c.vfcmp d a b m 0 false
  | .vfcmplt d a b m => c.vfcmp d a b m 1 false
  | .vfcmple d a b m => c.vfcmp d a b m 2 false
  | .vfcmpne d a b m => c.vfcmp d a b m 0 true
  | .vfcmpun d a b m => c.vfcmp d a b m 3 false
  | .vfadd d a b m => c.vfp d a (.vec b) m (fun x y _ => fAdd c.down x y)
  | .vfsub d a b m => c.vfp d a (.vec b) m (fun x y _ => fSub c.down x y)
  | .vfmul d a b m => c.vfp d a (.vec b) m (fun x y _ => fMul x y)
  | .vfma d a b m => c.vfp d a (.vec b) m (fun x y z => fMulAdd c.down x y z)
  | .vfdiv d a b m => c.vfp d a (.vec b) m (fun x y _ => fDiv x y)
  | .vfsqrt d a m => c.vfun d a m fSqrt
  | .vfmin d a b m => c.vfminmax d a (.vec b) m false
  | .vfmax d a b m => c.vfminmax d a (.vec b) m true
  | .vfcvt d a m k => c.vfcvt d a m k
  | .vfrcp d a m => c.vfun d a m fRcp
  | .vfrsq d a m => c.vfun d a m fRsq
  | .vfexp2 d a m => c.vfun d a m fExp2
  | .vflog2 d a m => c.vfun d a m fLog2
  | .vftanh d a m => c.vfun d a m fTanh
  | .vfaddX d a _ m => c.vfp d a .scal m (fun x y _ => fAdd c.down x y)
  | .vfsubX d a _ m => c.vfp d a .scal m (fun x y _ => fSub c.down x y)
  | .vfmulX d a _ m => c.vfp d a .scal m (fun x y _ => fMul x y)
  | .vfmaX d a _ m => c.vfp d a .scal m (fun x y z => fMulAdd c.down x y z)
  | .vfminX d a _ m => c.vfminmax d a .scal m false
  | .vfmaxX d a _ m => c.vfminmax d a .scal m true
  | .vmv d a m => c.vmv d a m
  | .vmvFromScalar d _ m => c.vmvScalar d m
  | .vslideup d a _ m => c.vslideup d a m
  | .vslidedn d a _ m => c.vslidedn d a m
  | .vperm d a b m => c.vperm d a b m
  | .vcompress d a b => c.vcompress d a b
  | .viota d a m => c.viota d a m
  | .vid d m => c.vid d m
  | .vmvToScale d a => c.vmvToScale d a
  | .vmvFromScale d a => c.vmvFromScale d a
  | .vredAdd _ a _ m => c.vred a m iAdd
  | .vredAnd _ a _ m => c.vred a m iAnd
  | .vredOr _ a _ m => c.vred a m iOr
  | .vredXor _ a _ m => c.vred a m iXor
  | .vredMin _ a _ m => c.vred a m iMin
  | .vredMax _ a _ m => c.vred a m iMax
  | .vfredo _ a _ m => c.vfred a m true
  | .vfredt _ a _ m => c.vfred a m false
  | .mand d a b => c.mlogic d a b (fun x y => x && y)
  | .mor d a b => c.mlogic d a b (fun x y => x || y)
  | .mxor d a b => c.mlogic d a b (fun x y => x != y)
  | .mandn d a b => c.mlogic d a b (fun x y => x && !y)
  | .mnot d a => c.mlogic d a a (fun x _ => !x)
  | .mwhile d _ => c.mwhile d
  | .mpop _ a => c.mpop a
  | .mpopVl _ a => c.mpopVl a
  | .mfirst _ a => c.mfirst a
  | .mlast _ a => c.mlast a
  | .mshup d a => c.mshup d a
  | .vtopk d a _ m => c.vtopk d a m
  | .vld d _ m => c.vload d m false c.unitAddr
  | .vlds d _ _ m => c.vload d m false c.strideAddr
  | .vlx d _ b m => c.vload d m false (c.indexAddr b)
  | .vldff d _ m => c.vload d m true c.unitAddr
  | .vlxff d _ b m => c.vload d m true (c.indexAddr b)
  | .vldScale d _ => c.vldScale d
  | .vldMask d _ => c.vldMask d
  | .vstScale d _ => c.vstScale d
  | .vstMask d _ => c.vstMask d
  | .vst d _ m => c.vstore d m c.unitAddr
  | .vsts d _ _ m => c.vstore d m c.strideAddr
  | .vsx d _ b m => c.vstore d m (c.indexAddr b)
  | .vscadd d _ b m => c.vscadd d b m
  | .vxlate d a b m => c.vxlate d a b m false
  | .vxlateff d a b m => c.vxlate d a b m true
  | .vamoAdd d b m s q l => c.vamo 0 d b m s q l
  | .vamoAnd d b m s q l => c.vamo 1 d b m s q l
  | .vamoOr d b m s q l => c.vamo 2 d b m s q l
  | .vamoXor d b m s q l => c.vamo 3 d b m s q l
  | .vamoMin d b m s q l => c.vamo 4 d b m s q l
  | .vamoMax d b m s q l => c.vamo 5 d b m s q l
  | .vamoMinn d b m s q l => c.vamo 6 d b m s q l
  | .vamoMaxn d b m s q l => c.vamo 7 d b m s q l
  | .vamoSwap d b m s q l => c.vamo 8 d b m s q l
  | .fwdmove a b m => c.fwdmove a b m
  | .fwdres d a m => c.fwdres d a m false
  | .fwdresff d a m => c.fwdres d a m true
  | .pcmpr d a b m => c.pcmpr d a b m
  | .fwdpath a m => c.fwdpath a m
  | .fwdrecl _ => c.fwdrecl false
  | .fwdreclTomb _ => c.fwdrecl true
  | .cpstep n => c.cpstep n
  | .cpwait n => c.cpwait n
  | .cpland _ n => c.cpland n
  | .cpcfg _ n y => c.cpcfg n y
  | .sopen d _ k => c.sopen d k
  | .sclose d => c.sclose d
  | .bstVector d _ m => c.bstVector d m
  | .bstScalar _ _ => c.bstScalar
  | .fenceSv s => c.fenceSv s
  | .fenceVv s => c.fenceVv s
  | .mopa d a b ta tb sa sb sat scl => c.mopa d { ta := ta, tb := tb, a := a, b := b, sa := sa, sb := sb, sat := sat, scl := scl }
  | .mzero d => c.mfill d 0
  | .mfill d _ => c.mfill d c.e.opa.toNat
  | .mdrain d _ _ m _ => c.mdrain d m
  | .mrdrow d a _ _ => c.mrdrow d a
  | .vhad d a m ta tb n => c.vhad d a m ta tb n
  | .vcvtn d a m ta tb sa scl => c.vcvtn d a m ta tb sa scl
  | .vcvtw d a m ta tb sa scl => c.vcvtw d a m ta tb sa scl
  | .vscale d a ta tb => c.vscale d a ta tb
  | .xcfg d _ => c.xcfg d
  | .xckpt d a m => c.xckpt d a m
  | .xdrain d a m => c.xdrain d a m
  | .xstat d a m f => c.xstat d a m f
  | .xclr d => c.xclr d
  | _ => c.finish'

/-! ### Streams at an entry (R322, R325, R326) -/

/-- A stream an entry reads, with the operand that names it. -/
def consumed (s : State) (g : Nat) (op : VOp) : List (Stream × VOperand) :=
  match s.gangOf g with
  | none => []
  | some (_, x) => x.streams.filterMap (fun t =>
      if t.cons = (s.hart g).index then (op.srcs.find? (fun o => o.covers t.vd)).map (fun o => (t, o)) else none)

/-- A stream an entry writes an item of, with the operand that names its register. -/
def produced (s : State) (g : Nat) (op : VOp) : List (Stream × VOperand) :=
  match s.gangOf g with
  | none => []
  | some (_, x) => x.streams.filterMap (fun t =>
      if t.prod = (s.hart g).index then (op.dsts.find? (fun o => o.covers t.k)).map (fun o => (t, o)) else none)

/-- An item as its consumer finds it (R325): its bits, VLp, the element width where it is known, and, while its producer still
performs, the element below which the producer has committed every group. -/
structure Item where
  bits  : Bits
  vlp   : Nat
  width : Option Nat
  upTo  : Option Nat
  deriving DecidableEq, Repr

/-- The item that the producer's oldest entry is writing. -/
def itemUnderWay (s : State) (prod : Nat) (t : Stream) : Option Item :=
  let h := s.hart prod
  match h.vq with
  | [] => none
  | e :: _ =>
    match vop e.insn e.vtype { h with lay := e.size } with
    | none => none
    | some op =>
      match op.dsts.find? (fun o => o.covers t.k) with
      | some o =>
        if op.whole ∨ e.vlPend then none
        else some { bits := h.vreg t.k, vlp := e.vl.toNat, width := some o.width, upTo := some e.vstart.toNat }
      | none => none

/-- The next item of a stream, if any of it stands. -/
def itemOf (s : State) (x : Gang) (t : Stream) : Option Item :=
  match t.item with
  | some (b, n, w) => some { bits := b, vlp := n, width := w, upTo := none }
  | none =>
    if t.done then some { bits := 0, vlp := 0, width := none, upTo := none }
    else if t.read = t.written then itemUnderWay s (x.members.getD t.prod 0) t
    else none

/-- What stands in the way of an entry's streams. -/
inductive StreamCheck where
  | ready
  | waits
  | lost
  | lostConsumer
  | bad
  deriving DecidableEq, Repr

/-- Check a stream that an entry reads: of a lost producer nothing more is read (R32, R322); a whole-instruction entry waits for the
whole item, another for the group of its VSTART. -/
def checkConsumed (s : State) (x : Gang) (e : VEntry) (op : VOp) (p : Stream × VOperand) : StreamCheck :=
  if x.lost.contains p.1.prod then .lost
  else
    match itemOf s x p.1 with
    | none => .waits
    | some i =>
      let k := VCtx.groupOf (vtCode e.vtype)
      if i.width.any (fun w => w != p.2.width) then .bad
      else if i.upTo.any (fun n => op.whole || decide (n / k * k ≤ e.vstart.toNat) && decide (e.vstart.toNat < e.vl.toNat)) then .waits
      else .ready

/-- Check a stream that an entry writes. -/
def checkProduced (x : Gang) (p : Stream × VOperand) : StreamCheck :=
  if x.lost.contains p.1.cons then .lostConsumer else if p.1.item.isSome then .waits else .ready

/-- What stands in the way of an entry first, of the streams that it reads and then of those that it writes. -/
def streamsCheck (s : State) (g : Nat) (e : VEntry) (op : VOp) : StreamCheck :=
  match s.gangOf g with
  | none => .ready
  | some (_, x) =>
    let cs := (consumed s g op).map (checkConsumed s x e op) ++ (produced s g op).map (checkProduced x)
    if cs.contains .lost then .lost
    else if cs.contains .bad then .bad
    else if cs.contains .lostConsumer then .lostConsumer
    else if cs.contains .waits then .waits
    else .ready

/-- The items of the streams that an entry reads, by register. -/
def itemsFor (s : State) (g : Nat) (op : VOp) : List (Nat × Item) :=
  match s.gangOf g with
  | none => []
  | some (_, x) => (consumed s g op).filterMap (fun p => (itemOf s x p.1).map (fun i => (p.1.vd, i)))

/-- A completed entry's items: those read are used up, those written stand, unless their consumer has taken them already. -/
def streamsDone (g vl : Nat) (ins outs : List (Stream × VOperand)) : M Unit := do
  let s ← getState
  match s.gangOf g with
  | none => pure ()
  | some (gg, _) => do
    eachM ins (fun p => modGang gg (fun x => x.setStream p.1.cons p.1.vd (fun t =>
      { t with read := t.read + 1, item := none })))
    let h := s.hart g
    eachM outs (fun p => modGang gg (fun x => x.setStream p.1.cons p.1.vd (fun t =>
      { t with
        written := t.written + 1
        item := if t.written < t.read then none else some (h.vreg p.1.k, vl, some p.2.width) })))

/-- The send of an instruction that misuses a bound register (R325): a consumer that writes it or names it in a group, a
producer that writes it in a group. -/
def streamMisuse (s : State) (g : Nat) (op : VOp) : Bool :=
  match s.gangOf g with
  | none => false
  | some (_, x) =>
    let me := (s.hart g).index
    x.streams.any (fun t =>
      (t.cons == me && (op.dsts.any (fun o => o.covers t.vd) || op.srcs.any (fun o => decide (1 < o.group) && o.covers t.vd)))
        || (t.prod == me && op.dsts.any (fun o => decide (1 < o.group) && o.covers t.k)))

/-! ### Breakpoints qualified by an element (R153, R356) -/

/-- The enabled breakpoints with ELQ = 1 at an entry's pc that can fire in it: number and ELEM. -/
def elementBps (h : Hart) (e : VEntry) : List (Nat × Nat) :=
  (List.range 8).filterMap (fun n =>
    let ctl := (h.bpctl[n % 8]'(Nat.mod_lt _ (by decide))).toNat
    let addr := h.bpaddr[n % 8]'(Nat.mod_lt _ (by decide))
    if ctl.testBit 0 ∧ ctl.testBit 1 ∧ addr = e.pc ∧ bitsGet ctl 8 23 < e.vl.toNat then some (n, bitsGet ctl 8 23) else none)

/-- The format whose element groups an instruction performs in: the captured one, but that of the cells for MDRAIN, and of the wide
operand for the narrow conversions (R317). -/
def groupCode (i : Instr) (t : BitVec 8) : BitVec 8 :=
  match i with
  | .mdrain .. => 2#8
  | .vcvtn _ _ _ _ tb _ _ => tb
  | .vcvtw _ _ _ _ tb _ _ => tb
  | _ => t

/-- Where breakpoints stop an entry: the limit, and those that fire there. An entry that has stopped is checked again only for groups
above that of its VSTART (R356). -/
def stopAt (h : Hart) (e : VEntry) (op : VOp) : Nat × List Nat :=
  let k := VCtx.groupOf (groupCode e.insn (vtCode e.vtype))
  let first := e.vstart.toNat / k
  let live := (elementBps h e).filter (fun p => decide (first < p.2 / k) || (!h.stoppedAt && (op.whole || decide (first = p.2 / k))))
  let at' := fun (p : Nat × Nat) => if op.whole then 0 else p.2 / k * k
  match live with
  | [] => (e.vl.toNat, [])
  | p :: ps =>
    let lim := ps.foldl (fun m q => min m (at' q)) (at' p)
    (lim, (live.filter (fun q => at' q == lim)).map (fun q => q.1))

/-! ### The queue -/

/-- Where the items of an entry reach, if some item is still being written: the group that its producer has not committed. -/
def itemsReach (e : VEntry) (items : List (Nat × Item)) : Option Nat :=
  let k := VCtx.groupOf (vtCode e.vtype)
  (items.filterMap (fun p => p.2.upTo.map (fun n => n / k * k))).min?

/-- Perform the oldest entry, whose fields are captured. -/
def performHead (g : Nat) (e : VEntry) (op : VOp) : M Bool := do
  let s ← getState
  let h := s.hart g
  let (stop, bps) := stopAt h e op
  let items := itemsFor s g op
  let reach := (itemsReach e items).filter (fun n => decide (n < min stop e.vl.toNat))
  let c : VCtx :=
    { g := g, e := e, lim := reach.getD stop, bps := if reach.isSome then [] else bps, more := reach.isSome
      items := items.map (fun p => (p.1, p.2.bits))
      cover := items.foldl (fun n p => min n p.2.vlp) (2 ^ 23) }
  if stop < e.vl.toNat ∧ op.whole then ({ c with lim := stop, bps := bps } : VCtx).break_ h 0
  else
    match streamsCheck s g e op with
    | .waits => pure false
    | .lost => do
      let addr ← freeBits 64
      c.faultAt c.start { c.record s .gangLost with elemp := true, elem := c.start, addr := addr }
    | .bad => c.faultWhole .streamBad 0
    | .lostConsumer => c.faultWhole .gangLost 0
    | .ready => do
      if ← perform c e.insn then do
        let h ← getHart g
        streamsDone g (if changesVl e.insn then h.vl.toNat else e.vl.toNat) (consumed s g op) (produced s g op)
        pure true
      else pure false

/-- The oldest entry runs, unless the queue is held or waits on MIG: true when it has completed. Registers that are spilled are filled
first (R83). -/
def runHead (g : Nat) : M Bool := do
  let h ← getHart g
  match h.vq with
  | [] => pure false
  | e :: _ =>
    if h.vqHeld ∨ h.migVec.isSome then pure false
    else if ← fillRegs g then do
      let h ← getHart g
      let e : VEntry := if e.vlPend then { e with vl := h.vl, vlPend := false } else e
      modHart g (fun h => h.modHead (fun _ => e))
      match vop e.insn e.vtype { h with lay := e.size } with
      | none => do putHart g { h with vq := h.vq.tail }; pure true
      | some op => performHead g e op
    else halt

/-- Entries complete in order until one waits. -/
def runQueue (g : Nat) : Nat → M Unit
  | 0 => pure ()
  | n + 1 => do
    if ← runHead g then runQueue g n else pure ()

/-- Perform every entry of the queue; true when none is left. -/
def drain (g : Nat) : M Bool := do
  runQueue g (← getHart g).vq.length
  pure (← getHart g).vq.isEmpty

/-- Wait for the queue to drain: the step ends while an entry is left. Entries that a trap holds for ERET are nothing its
handler waits for (log entry 9, DEDUCED). -/
def needDrained (g : Nat) : M Unit := do
  if (← getHart g).vqHeld then pure ()
  else if ← drain g then pure () else halt

/-- Wait for the entries that some condition names: those after the last such one may stay. -/
def needPast (g : Nat) (p : Instr → Bool) : M Unit := do
  let h ← getHart g
  if !h.vqHeld && h.vq.any (fun e => p e.insn) then do
    runQueue g h.vq.length
    let h ← getHart g
    if !h.vqHeld && h.vq.any (fun e => p e.insn) then halt else pure ()
  else pure ()

/-- Take a synchronous trap of a scalar instruction or of one that is never sent, after the queue has drained (R207,
R210). -/
def trapAfter {α : Type} (g : Nat) (cause : Cause) (eval : Word) : M α := do
  needDrained g
  let h ← getHart g
  scalarTrap g cause h.pc eval

/-! ### Waiting for the read queue (R125) -/

/-- An x register waits for a value of the read queue. -/
def Hart.pendingX (h : Hart) (r : BitVec 5) : Bool := r != 0#5 && h.rq.any (fun q => q.reg == r)

/-- Wait until no register of a list waits for the read queue, the count register of a running loop body included, which
the trip's end reads. -/
def needRegs (g : Nat) (rs : List (BitVec 5)) : M Unit := do
  let h ← getHart g
  let rs := if h.inBody h.pc then h.lp.reg :: rs else rs
  if rs.any h.pendingX then do
    runQueue g h.vq.length
    let h ← getHart g
    if rs.any h.pendingX then halt else pure ()
  else pure ()

/-! ### Sending -/

/-- Bytes of an instruction (R180, R201, R204). -/
def lengthOf : Instr → Nat
  | .cAdd .. | .cSub .. | .cAnd .. | .cOr .. | .cXor .. | .cAddi .. | .cLi .. | .cSlli .. | .cSrli .. | .cSrai .. => 2
  | .cLdS32 .. | .cLd64 .. | .cSt32 .. | .cSt64 .. | .cBeq .. | .cBne .. => 2
  | .mopa .. | .mzero .. | .mfill .. | .mdrain .. | .mrdrow .. | .vhad .. | .vcvtn .. | .vcvtw .. | .vscale .. => 8
  | .xcfg .. | .xckpt .. | .xdrain .. | .xstat .. | .xclr .. => 8
  | _ => 4

/-- The instruction may not be sent under the VTYPE it would capture (R206, R207). -/
def sendIllegal (h : Hart) (op : VOp) : Bool :=
  (op.typed && vtIll h.vtype) || !op.ok || !((op.srcs ++ op.dsts ++ op.names).all (fun o => o.legal h.named))

/-- SOPEN and SCLOSE, which change what a register means. -/
def bindsStream : Instr → Bool
  | .sopen .. => true
  | .sclose .. => true
  | _ => false

/-- The hart with the instruction in its queue and its pc past it (R50, R64, R123, R125). A trip that ends on an instruction
which itself writes the count register is decided once the count arrives (R220). -/
def Hart.enqueue (h : Hart) (i : Instr) (op : VOp) : Hart :=
  let mode := bitsGet h.rmode.toNat 0 3
  let seed := bitsGet h.rmode.toNat 32 32
  let e : VEntry :=
    { pc := h.pc, insn := i, vtype := h.vtype, mode := BitVec.ofNat 3 mode, seed := BitVec.ofNat 32 seed,
      opa := (op.opa.map h.getX).getD 0, opb := (op.opb.map h.getX).getD 0, vl := h.vl,
      vstart := if h.vsWritten then h.vstart else 0, rq := op.xd.map (fun _ => BitVec.ofNat 3 h.rq.length),
      vlPend := h.vq.any (fun e => changesVl e.insn), begun := false, ten := BitVec.ofNat 5 (trapEnables h.rmode), size := h.lay
      freed := h.chans.toList.map (fun (c : Chan) => c.released) }
  let rmode := if op.rounds ∧ mode = mSR then
    (h.rmode &&& 0xFFFFFFFF) ||| (BitVec.ofNat 64 ((seed + 1) % 2 ^ 32) <<< 32) else h.rmode
  let filled : List RqEntry := op.xd.toList.map (fun r => { reg := r, qpos := BitVec.ofNat 5 h.vq.length, value := none })
  let h := { h with
    vq := h.vq ++ [e]
    rq := h.rq ++ filled
    rmode := rmode
    vsWritten := false
    vqHeld := false
    bpSkip := false
    vstart := if h.vsWritten then 0 else h.vstart }
  let next := h.pc + BitVec.ofNat 64 (lengthOf i)
  if op.xd = some h.lp.reg ∧ h.lp.reg ≠ 0#5 ∧ h.inBody h.pc ∧ next = h.lp.stop then { h with pc := next, lp := { h.lp with trip := .atPc } }
  else h.goto .inline next

/-- Room for one more entry. -/
def Hart.roomFor (h : Hart) (op : VOp) : Bool :=
  decide (h.vq.length < Config.vqDepth) && (op.xd.isNone || decide (h.rq.length < Config.rqDepth))

/-- Instructions whose register groups follow from MVL at the send, and so from the register size that stands then (R76, R253, R297,
R303). -/
def sized : Instr → Bool
  | .mopa .. | .vhad .. | .vcvtn .. | .vcvtw .. | .vscale .. | .vfcvt .. => true
  | _ => false

/-- The hart as the send of an instruction sees its register size. -/
def Hart.sizedFor (h : Hart) (i : Instr) (n : Nat) : Hart := if sized i then { h with lay := n } else h

/-- Send a vector-side instruction: an illegal one traps and is never sent; a full queue or a register that waits for the read
queue stalls; the queue then performs, unless the vector side lags. -/
def send (i : Instr) : M Unit := do
  let s ← getState
  let g := s.cur
  let h := s.hart g
  let size := s.sg g
  match vop i h.vtype (h.sizedFor i size) with
  | none => pure ()
  | some op => do
    needRegs g (op.opa.toList ++ op.opb.toList)
    if sendIllegal h op then trapAfter g .illegal 0
    else do
      needPast g bindsStream
      if ← gets (fun s => streamMisuse s g op) then trapAfter g .streamBad 0
      else do
        whenM (!(← getHart g).roomFor op) (runQueue g h.vq.length)
        let h ← getHart g
        if h.roomFor op then do
          putHart g { ((h.sizedFor i size).enqueue i op) with lay := h.lay }
          whenM (!s.lag.vside) (runQueue g (h.vq.length + 1))
        else halt

end Sys2Proof.Machine
end

