-- ==== Sys2Proof/Machine/Scalar.lean ====
section
/-!
DEFINITION. Machine/Scalar.lean: what every scalar instruction shares. The hart in turn, the wait for the read queue (R125,
R209), completing, and traps after the queue has drained (R210).
-/
namespace Sys2Proof.Machine

/-- A scalar instruction of the hart in turn, once no register it names waits for the read queue (R125, R209). -/
def scalar (regs : List (BitVec 5)) (body : Nat → Hart → M Unit) : M Unit := do
  let g ← gets (fun s => s.cur)
  needRegs g regs
  body g (← getHart g)

/-- A scalar instruction that writes a value of the hart's registers to x[d] and completes. -/
def compute (len : Nat) (d : BitVec 5) (regs : List (BitVec 5)) (f : Hart → Word) : M Unit :=
  scalar (d :: regs) (fun g h => putHart g ((h.setX d (f h)).advance len))

/-- An instruction that only the supervisor may execute (R191). -/
def supervisor (regs : List (BitVec 5)) (body : Nat → Hart → M Unit) : M Unit :=
  scalar regs (fun g h => if h.sup then body g h else trapAfter g .illegal 0)

/-- Take the trap of an enabled flag (R52, R210, R227): after the queue has drained, the flag that traps is set, and no other. -/
def flagTrap {α : Type} (g flag : Nat) : M α := do
  needDrained g
  modHart g (fun h => h.orFlags flag)
  let h ← getHart g
  scalarTrap g .fpe h.pc 0

/-- The hart with the seed advanced, when its mode is SR (R50). -/
def Hart.takeSeed (h : Hart) : Hart :=
  if bitsGet h.rmode.toNat 0 3 = mSR then
    { h with rmode := (h.rmode &&& 0xFFFFFFFF) ||| (BitVec.ofNat 64 ((bitsGet h.rmode.toNat 32 32 + 1) % 2 ^ 32) <<< 32) }
  else h

/-- How a scalar operation rounds (R227): the mode and seed that stand, with i = n = 0. -/
def Hart.scalarRnd (h : Hart) : Rnd :=
  ({ mode := bitsGet h.rmode.toNat 0 3, seed := bitsGet h.rmode.toNat 32 32 } : Mode).at 0 0

/-- The scalar mode is RDN. -/
def Hart.scalarDown (h : Hart) : Bool := bitsGet h.rmode.toNat 0 3 == mRDN

/-- Sign-extend an immediate. -/
def sext14 (i : BitVec 14) : Word := i.signExtend 64

end Sys2Proof.Machine
end

