-- ==== Sys2Proof/Machine/Alu.lean ====
section
/-!
DEFINITION. Machine/Alu.lean: integer and address arithmetic (R215 to R217) and its compressed forms (R204, R205).
-/
namespace Sys2Proof.Machine

/-- Leading zero bits of a word; 64 for 0. -/
def clz64 (x : Word) : Nat := if x = 0 then 64 else 63 - Nat.log2 x.toNat
/-- Trailing zero bits of a word; 64 for 0. -/
def ctz64 (x : Word) : Nat := ((List.range 64).find? (fun i => x.toNat.testBit i)).getD 64
/-- Set bits of a word. -/
def popc64 (x : Word) : Nat := ((List.range 64).filter (fun i => x.toNat.testBit i)).length

/-- The width that b of SEXT and ZEXT names (R189). -/
def extWidth (w : BitVec 5) : Nat := 8 * 2 ^ (w.toNat % 4)

/-- Shift left by a natural count (R36). -/
def sllWord (x : Word) (n : Nat) : Word := BitVec.ofNat 64 (shiftL 64 x.toNat n)
/-- Shift right logically by a natural count. -/
def srlWord (x : Word) (n : Nat) : Word := BitVec.ofNat 64 (shiftR 64 x.toNat n)
/-- Shift right arithmetically by a natural count. -/
def sraWord (x : Word) (n : Nat) : Word := BitVec.ofNat 64 (shiftA 64 x.toNat n)

/-- A word for a truth value. -/
def wordOf (b : Bool) : Word := if b then 1 else 0

/-- A 64-bit operation on two operands, by the arithmetic of R33 to R36. -/
def bin64 (f : Nat → Nat → Nat) (x y : Word) : Word := BitVec.ofNat 64 (f x.toNat y.toNat)

/-- An OP instruction with two operands. -/
def op2 (d a b : BitVec 5) (f : Word → Word → Word) : M Unit := compute 4 d [a, b] (fun h => f (h.getX a) (h.getX b))
/-- An OP instruction with one operand. -/
def op1 (d a : BitVec 5) (f : Word → Word) : M Unit := compute 4 d [a] (fun h => f (h.getX a))
/-- An immediate form. -/
def opImm (d a : BitVec 5) (i : BitVec 14) (f : Word → Word → Word) : M Unit := compute 4 d [a] (fun h => f (h.getX a) (sext14 i))

/-- ADD (R215). -/
def execAdd (d a b : BitVec 5) : State → Host.Outcome State Fault Refusal := runM (op2 d a b (fun x y => x + y))
/-- SUB (R215). -/
def execSub (d a b : BitVec 5) : State → Host.Outcome State Fault Refusal := runM (op2 d a b (fun x y => x - y))
/-- AND (R215). -/
def execAnd (d a b : BitVec 5) : State → Host.Outcome State Fault Refusal := runM (op2 d a b (fun x y => x &&& y))
/-- OR (R215). -/
def execOr (d a b : BitVec 5) : State → Host.Outcome State Fault Refusal := runM (op2 d a b (fun x y => x ||| y))
/-- XOR (R215). -/
def execXor (d a b : BitVec 5) : State → Host.Outcome State Fault Refusal := runM (op2 d a b (fun x y => x ^^^ y))
/-- SLL (R215, R36). -/
def execSll (d a b : BitVec 5) : State → Host.Outcome State Fault Refusal := runM (op2 d a b (fun x y => sllWord x y.toNat))
/-- SRL (R215, R36). -/
def execSrl (d a b : BitVec 5) : State → Host.Outcome State Fault Refusal := runM (op2 d a b (fun x y => srlWord x y.toNat))
/-- SRA (R215, R36). -/
def execSra (d a b : BitVec 5) : State → Host.Outcome State Fault Refusal := runM (op2 d a b (fun x y => sraWord x y.toNat))
/-- MUL (R215). -/
def execMul (d a b : BitVec 5) : State → Host.Outcome State Fault Refusal := runM (op2 d a b (fun x y => x * y))
/-- MULH (R215, R34). -/
def execMulh (d a b : BitVec 5) : State → Host.Outcome State Fault Refusal := runM (op2 d a b (bin64 (mulHigh true 64)))
/-- MULHN (R215, R34). -/
def execMulhn (d a b : BitVec 5) : State → Host.Outcome State Fault Refusal := runM (op2 d a b (bin64 (mulHigh false 64)))
/-- DIV (R215, R35). -/
def execDiv (d a b : BitVec 5) : State → Host.Outcome State Fault Refusal := runM (op2 d a b (bin64 (divQuot true 64)))
/-- DIVN (R215, R35). -/
def execDivn (d a b : BitVec 5) : State → Host.Outcome State Fault Refusal := runM (op2 d a b (bin64 (divQuot false 64)))
/-- REM (R215, R35). -/
def execRem (d a b : BitVec 5) : State → Host.Outcome State Fault Refusal := runM (op2 d a b (bin64 (divRem true 64)))
/-- REMN (R215, R35). -/
def execRemn (d a b : BitVec 5) : State → Host.Outcome State Fault Refusal := runM (op2 d a b (bin64 (divRem false 64)))
/-- SLT (R215). -/
def execSlt (d a b : BitVec 5) : State → Host.Outcome State Fault Refusal := runM (op2 d a b (fun x y => wordOf (x.slt y)))
/-- SLTN (R215). -/
def execSltn (d a b : BitVec 5) : State → Host.Outcome State Fault Refusal := runM (op2 d a b (fun x y => wordOf (x.ult y)))
/-- MIN (R215). -/
def execMin (d a b : BitVec 5) : State → Host.Outcome State Fault Refusal := runM (op2 d a b (bin64 (intMinOf true 64)))
/-- MAX (R215). -/
def execMax (d a b : BitVec 5) : State → Host.Outcome State Fault Refusal := runM (op2 d a b (bin64 (intMaxOf true 64)))
/-- MINN (R215). -/
def execMinn (d a b : BitVec 5) : State → Host.Outcome State Fault Refusal := runM (op2 d a b (bin64 (intMinOf false 64)))
/-- MAXN (R215). -/
def execMaxn (d a b : BitVec 5) : State → Host.Outcome State Fault Refusal := runM (op2 d a b (bin64 (intMaxOf false 64)))
/-- CLZ (R215). -/
def execClz (d a : BitVec 5) : State → Host.Outcome State Fault Refusal := runM (op1 d a (fun x => BitVec.ofNat 64 (clz64 x)))
/-- CTZ (R215). -/
def execCtz (d a : BitVec 5) : State → Host.Outcome State Fault Refusal := runM (op1 d a (fun x => BitVec.ofNat 64 (ctz64 x)))
/-- POPC (R215). -/
def execPopc (d a : BitVec 5) : State → Host.Outcome State Fault Refusal := runM (op1 d a (fun x => BitVec.ofNat 64 (popc64 x)))
/-- SEXT (R215). -/
def execSext (d a w : BitVec 5) : State → Host.Outcome State Fault Refusal :=
  runM (op1 d a (fun x => BitVec.ofInt 64 (signedOf (extWidth w) x.toNat)))
/-- ZEXT (R215). -/
def execZext (d a w : BitVec 5) : State → Host.Outcome State Fault Refusal :=
  runM (op1 d a (fun x => BitVec.ofNat 64 (x.toNat % 2 ^ extWidth w)))

/-- ADDI (R216). -/
def execAddi (d a : BitVec 5) (i : BitVec 14) : State → Host.Outcome State Fault Refusal := runM (opImm d a i (fun x y => x + y))
/-- ANDI (R216). -/
def execAndi (d a : BitVec 5) (i : BitVec 14) : State → Host.Outcome State Fault Refusal := runM (opImm d a i (fun x y => x &&& y))
/-- ORI (R216). -/
def execOri (d a : BitVec 5) (i : BitVec 14) : State → Host.Outcome State Fault Refusal := runM (opImm d a i (fun x y => x ||| y))
/-- XORI (R216). -/
def execXori (d a : BitVec 5) (i : BitVec 14) : State → Host.Outcome State Fault Refusal := runM (opImm d a i (fun x y => x ^^^ y))
/-- SLTI (R216). -/
def execSlti (d a : BitVec 5) (i : BitVec 14) : State → Host.Outcome State Fault Refusal := runM (opImm d a i (fun x y => wordOf (x.slt y)))
/-- SLLI (R216). -/
def execSlli (d a : BitVec 5) (c : BitVec 6) : State → Host.Outcome State Fault Refusal := runM (op1 d a (fun x => sllWord x c.toNat))
/-- SRLI (R216). -/
def execSrli (d a : BitVec 5) (c : BitVec 6) : State → Host.Outcome State Fault Refusal := runM (op1 d a (fun x => srlWord x c.toNat))
/-- SRAI (R216). -/
def execSrai (d a : BitVec 5) (c : BitVec 6) : State → Host.Outcome State Fault Refusal := runM (op1 d a (fun x => sraWord x c.toNat))
/-- LIH (R217). -/
def execLih (d : BitVec 5) (i : BitVec 19) : State → Host.Outcome State Fault Refusal :=
  runM (compute 4 d [] (fun _ => i.signExtend 64 <<< 14))
/-- ADDPC (R217). -/
def execAddpc (d : BitVec 5) (i : BitVec 19) : State → Host.Outcome State Fault Refusal :=
  runM (compute 4 d [] (fun h => h.pc + i.signExtend 64))

/-! ### Compressed forms -/

/-- C.ADD, ADD of 2 bytes (R204 op 0). -/
def execCAdd (d a b : BitVec 3) : State → Host.Outcome State Fault Refusal :=
  runM (compute 2 (cReg d) [cReg a, cReg b] (fun h => h.getX (cReg a) + h.getX (cReg b)))
/-- C.SUB (R204 op 1). -/
def execCSub (d a b : BitVec 3) : State → Host.Outcome State Fault Refusal :=
  runM (compute 2 (cReg d) [cReg a, cReg b] (fun h => h.getX (cReg a) - h.getX (cReg b)))
/-- C.AND (R204 op 2). -/
def execCAnd (d a b : BitVec 3) : State → Host.Outcome State Fault Refusal :=
  runM (compute 2 (cReg d) [cReg a, cReg b] (fun h => h.getX (cReg a) &&& h.getX (cReg b)))
/-- C.OR (R204 op 3). -/
def execCOr (d a b : BitVec 3) : State → Host.Outcome State Fault Refusal :=
  runM (compute 2 (cReg d) [cReg a, cReg b] (fun h => h.getX (cReg a) ||| h.getX (cReg b)))
/-- C.XOR (R204 op 4). -/
def execCXor (d a b : BitVec 3) : State → Host.Outcome State Fault Refusal :=
  runM (compute 2 (cReg d) [cReg a, cReg b] (fun h => h.getX (cReg a) ^^^ h.getX (cReg b)))
/-- C.ADDI (R204 op 5). -/
def execCAddi (d a : BitVec 3) (i : BitVec 5) : State → Host.Outcome State Fault Refusal :=
  runM (compute 2 (cReg d) [cReg a] (fun h => h.getX (cReg a) + i.signExtend 64))
/-- C.LI (R204 op 6). -/
def execCLi (d : BitVec 3) (i : BitVec 5) : State → Host.Outcome State Fault Refusal :=
  runM (compute 2 (cReg d) [] (fun _ => i.signExtend 64))
/-- C.SLLI (R204 op 7). -/
def execCSlli (d a : BitVec 3) (i : BitVec 5) : State → Host.Outcome State Fault Refusal :=
  runM (compute 2 (cReg d) [cReg a] (fun h => sllWord (h.getX (cReg a)) i.toNat))
/-- C.SRLI (R204 op 8). -/
def execCSrli (d a : BitVec 3) (i : BitVec 5) : State → Host.Outcome State Fault Refusal :=
  runM (compute 2 (cReg d) [cReg a] (fun h => srlWord (h.getX (cReg a)) i.toNat))
/-- C.SRAI (R204 op 9). -/
def execCSrai (d a : BitVec 3) (i : BitVec 5) : State → Host.Outcome State Fault Refusal :=
  runM (compute 2 (cReg d) [cReg a] (fun h => sraWord (h.getX (cReg a)) i.toNat))

end Sys2Proof.Machine
end

