-- ==== Sys2Proof/Machine/Branch.lean ====
section
/-!
DEFINITION. Machine/Branch.lean: control transfer (R218, R219) and LOOP (R220 to R222).
-/
namespace Sys2Proof.Machine

/-- A branch: to its target when the condition holds, else past it. -/
def branch (len : Nat) (a b : BitVec 5) (offset : Word) (cond : Word → Word → Bool) : M Unit :=
  scalar [a, b] (fun g h =>
    putHart g (if cond (h.getX a) (h.getX b) then h.transfer .jump (h.pc + offset) else h.advance len))

/-- A parcel offset in bytes. -/
def parcels14 (i : BitVec 14) : Word := 2 * i.signExtend 64

/-- BEQ (R218). -/
def execBeq (a b : BitVec 5) (i : BitVec 14) : State → Host.Outcome State Fault Refusal :=
  runM (branch 4 a b (parcels14 i) (fun x y => x == y))
/-- BNE (R218). -/
def execBne (a b : BitVec 5) (i : BitVec 14) : State → Host.Outcome State Fault Refusal :=
  runM (branch 4 a b (parcels14 i) (fun x y => x != y))
/-- BLT (R218). -/
def execBlt (a b : BitVec 5) (i : BitVec 14) : State → Host.Outcome State Fault Refusal :=
  runM (branch 4 a b (parcels14 i) (fun x y => x.slt y))
/-- BGE (R218). -/
def execBge (a b : BitVec 5) (i : BitVec 14) : State → Host.Outcome State Fault Refusal :=
  runM (branch 4 a b (parcels14 i) (fun x y => !x.slt y))
/-- BLTN (R218). -/
def execBltn (a b : BitVec 5) (i : BitVec 14) : State → Host.Outcome State Fault Refusal :=
  runM (branch 4 a b (parcels14 i) (fun x y => x.ult y))
/-- BGEN (R218). -/
def execBgen (a b : BitVec 5) (i : BitVec 14) : State → Host.Outcome State Fault Refusal :=
  runM (branch 4 a b (parcels14 i) (fun x y => !x.ult y))

/-- C.BEQ (R204 op 14). -/
def execCBeq (a : BitVec 3) (i : BitVec 8) : State → Host.Outcome State Fault Refusal :=
  runM (branch 2 (cReg a) 0 (2 * i.signExtend 64) (fun x y => x == y))
/-- C.BNE (R204 op 15). -/
def execCBne (a : BitVec 3) (i : BitVec 8) : State → Host.Outcome State Fault Refusal :=
  runM (branch 2 (cReg a) 0 (2 * i.signExtend 64) (fun x y => x != y))

/-- A jump that writes the link: a call when it names a register for it (R221). -/
def jumpLink (d : BitVec 5) (regs : List (BitVec 5)) (target : Hart → Word) : M Unit :=
  scalar (d :: regs) (fun g h =>
    putHart g ((h.setX d (h.pc + 4)).transfer (if d = 0#5 then .jump else .call) (target h)))

/-- JAL (R219). -/
def execJal (d : BitVec 5) (i : BitVec 19) : State → Host.Outcome State Fault Refusal :=
  runM (jumpLink d [] (fun h => h.pc + 2 * i.signExtend 64))
/-- JALR (R219): a d that equals a uses the old x[a]. -/
def execJalr (d a : BitVec 5) (i : BitVec 14) : State → Host.Outcome State Fault Refusal :=
  runM (jumpLink d [a] (fun h => evenWord (h.getX a + sext14 i)))

/-- The hart that starts a loop over the body up to its end, or skips it (R220). It replaces whatever loop was
active, and so ends no trip of it (R221). -/
def Hart.startLoop (h : Hart) (a : BitVec 5) (stop : Word) : Hart :=
  if h.getX a = 0 then
    { h with lp := { LoopState.reset with start := h.pc + 4, stop := stop, reg := a }, pc := stop, instret := h.instret + 1 }
  else
    { h with lp := { active := true, start := h.pc + 4, stop := stop, reg := a, pinned := none }, pc := h.pc + 4,
             instret := h.instret + 1 }

/-- LOOP (R220). -/
def execLoop (a : BitVec 5) (i : BitVec 14) : State → Host.Outcome State Fault Refusal :=
  runM (scalar [a] (fun g h => putHart g (h.startLoop a (h.pc + 2 * BitVec.ofNat 64 i.toNat))))

end Sys2Proof.Machine
end

