-- ==== Sys2Proof/Machine/VConf.lean ====
section
/-!
DEFINITION. Machine/VConf.lean: VSETL, VCFG and VSETT (R77, R78, R81, R245, R246, R296).
-/
namespace Sys2Proof.Machine

/-- The hart whose VLCAP now takes effect (R81). -/
def Hart.applyCap (h : Hart) : Hart := { h with capNow := h.vlcap.toNat }

/-- The registers are laid out anew by the SG that stands (log entry 7, DEDUCED); a queue whose layout would change drains first. -/
def layAnew (g : Nat) : M Unit := do
  let n ← gets (fun s => s.sg g)
  whenM ((← getHart g).lay != n) (do if ← fillRegs g then pure () else halt)
  modHart g (fun h => { h with lay := n })

/-- Apply VLCAP, with the queue drained when that changes the layout. -/
def capInForce (g : Nat) : M Unit := do
  let s ← getState
  let h := s.hart g
  let next := { s with harts := tabPut s.harts g h.applyCap }
  whenM (next.sg g != h.lay) (needDrained g)
  modHart g (fun h => h.applyCap)
  layAnew g

/-- Grant a length (R76, R246): 0 while VILL is set. -/
def grant (s : State) (g : Nat) (request : Word) : BitVec 23 :=
  if vtIll (s.hart g).vtype then 0 else BitVec.ofNat 23 (min request.toNat (s.mvl g))

/-- VSETL in both forms (R246). -/
def vsetl (d a : BitVec 5) (typ : Option (BitVec 8)) : M Unit :=
  scalar [d, a] (fun g h => do
    needPast g changesVl
    let request := h.getX a
    match typ with
    | some t => modHart g (fun h => { h with vtype := (h.vtype &&& 0xC00) ||| t.zeroExtend 64 })
    | none => pure ()
    capInForce g
    let n ← gets (fun s => grant s g request)
    modHart g (fun h => ({ h with vl := n }.setX d (n.zeroExtend 64)).advance 4))

/-- VSETL with a type suffix: group 1, VILL 0, BLK and SFMT kept. -/
def execVsetlT (d a : BitVec 5) (t : BitVec 8) : State → Host.Outcome State Fault Refusal := runM (vsetl d a (some t))
/-- VSETL without a suffix. -/
def execVsetl (d a : BitVec 5) : State → Host.Outcome State Fault Refusal := runM (vsetl d a none)

/-- The largest BANKS among a core's harts, with hart g's own value replaced (R78). -/
def coreBanksWith (s : State) (g own : Nat) : Nat :=
  ((coreHarts (coreOf g)).filter (fun k => k != g)).foldl (fun n k => max n (s.hart k).banks) own

/-- A stream binding that the hart takes part in is open (R326). -/
def hasStream (s : State) (g : Nat) : Bool :=
  match s.gangOf g with
  | none => false
  | some (_, x) => x.streams.any (fun t => t.prod == (s.hart g).index || t.cons == (s.hart g).index)

/-- The registers of a hart under a new VCFG (R77). -/
def Hart.configured (h : Hart) (cfg : BitVec 4) : Hart :=
  { h with
    vcfg := cfg
    v := Vector.replicate 32 0, m := Vector.replicate 12 0, w := Vector.replicate 8 0, a := Vector.replicate 4 0
    vl := 0, vtype := 0, tilem := 0, tilen := 0, sFix := none, spilled := false }

/-- The core's register-file partition grows (R78): its L1 write buffer drains first, and the L1's lines are invalid. -/
def growBanks (g : Nat) : M Unit := do
  if ← flushCore g then pure () else halt
  modCore (coreOf g) (fun k => { k with l1 := [] })

/-- VCFG (R77, R78, R245). -/
def execVcfg (b n : BitVec 2) : State → Host.Outcome State Fault Refusal :=
  runM (scalar [] (fun g _ => do
    needDrained g
    let s ← getState
    let cfg : BitVec 4 := b ++ n
    let new := ({ (s.hart g) with vcfg := cfg } : Hart).banks
    let now := coreBanksWith s g new
    let old := coreBanksWith s g (s.hart g).banks
    let k := s.core (coreOf g)
    if hasStream s g then trapAfter g .streamBad 0
    else if Config.coreBanks < now + k.spbanks.toNat + 16 then trapAfter g .vcfgSpace 0
    else do
      whenM (decide (old < now)) (growBanks g)
      modHart g (fun h => h.configured cfg)
      layAnew g
      modHart g (fun h => h.advance 4)))

/-- An instruction that names a tile. -/
def namesTile : Instr → Bool
  | .mopa .. => true
  | .mzero .. => true
  | .mfill .. => true
  | .mdrain .. => true
  | .mrdrow .. => true
  | _ => false

/-- Cells a hart's tiles reserve (R108). -/
def Hart.cellsHeld (h : Hart) : Nat := 4 * h.tilem.toNat * h.tilen.toNat

/-- Cells of a core's accumulator store that harts other than g hold. -/
def cellsOthers (s : State) (g : Nat) : Nat :=
  ((coreHarts (coreOf g)).filter (fun k => k != g)).foldl (fun n k => n + (s.hart k).cellsHeld) 0

/-- The rows and columns that VSETT grants (R296): requests, the limit L and the free cells F. -/
def tileGrant (rows cols limit free : Nat) : Nat × Nat :=
  let r := min (min rows 128) limit
  let c := min (min cols 128) limit
  let r := if free < 4 * r * c then min r (free / (4 * c)) else r
  if r = 0 ∨ c = 0 then (0, 0) else (r, c)

/-- The hart with a tile grant: a changed one zeroes every tile. -/
def Hart.grantTiles (h : Hart) (r c k : Nat) : Hart :=
  let same := decide (h.tilem.toNat = r) && decide (h.tilen.toNat = c)
  { h with
    a := if same then h.a else Vector.replicate 4 0
    tilem := BitVec.ofNat 8 r, tilen := BitVec.ofNat 8 c, tilek := BitVec.ofNat 6 k }

/-- VSETT follows every earlier entry that names a tile (R296): those that a trap has kept resume first (log entry 9, DEDUCED). -/
def needTiles (g : Nat) : M Unit := do
  let h ← getHart g
  whenM (h.vqHeld && h.vq.any (fun e => namesTile e.insn)) (modHart g (fun h => { h with vqHeld := false }))
  needPast g namesTile

/-- VSETT (R296). -/
def execVsett (d a b : BitVec 5) : State → Host.Outcome State Fault Refusal :=
  runM (scalar [d, a, b] (fun g h => do
    needTiles g
    whenM (vtIll h.vtype) (do
      needPast g changesVl
      modHart g (fun h => { h with vtype := 0, vl := 0 }))
    capInForce g
    let s ← getState
    let k := if vtBlock (s.hart g).vtype = 16 then 16 else 32
    let limit := 4 * pow2Below (s.sg g) / k
    let (r, c) := tileGrant (h.getX a).toNat (h.getX b).toNat limit (65536 - cellsOthers s g)
    modHart g (fun h => ((h.grantTiles r c k).setX d (BitVec.ofNat 64 r)).advance 4)))

end Sys2Proof.Machine
end

