-- ==== Sys2Proof/Machine/Csr.lean ====
section
/-!
DEFINITION. Machine/Csr.lean: the CSR space (R61 to R75, R152, R154, R164, R165) and the CSR instructions (R231, R232).
-/
namespace Sys2Proof.Machine

/-! ### Reading -/

/-- GBAR's word (R69): SIZE, ARR, EPOCH and STATE. -/
def Barrier.word (b : Barrier) : Word :=
  b.size.zeroExtend 64 ||| (b.arr.zeroExtend 64 <<< 8) ||| (b.epoch.zeroExtend 64 <<< 16) ||| (b.st.zeroExtend 64 <<< 62)

/-- The barrier of a hart's gang, as its tier holds it (R321). -/
def State.barrierSeen (s : State) (g : Nat) : Option Barrier := (s.gangOf g).map (fun x => x.2.seenFrom (tierOf g))

/-- HLOC (R15, R71, R74). -/
def hloc (pkg g : Nat) : Word :=
  BitVec.ofNat 64 (g % 4 + (g / 4 % 4) * 4 + (g / 16 % 4) * 16 + (g / 64 % 12) * 64 + (g / 768) * 1024 + pkg % 1024 * 65536)

/-- HRUN: cycles the hart has been placed, the present placing included. -/
def hrunNow (s : State) (g : Nat) : Word :=
  let h := s.hart g
  match h.place with
  | some p => h.hrun + BitVec.ofNat 64 (s.cycle - p.since)
  | none => h.hrun

/-- The counters of CSRs 0x440 to 0x448 and 0xC40 to 0xC45 (R164, R165). -/
def counterCsr (s : State) (g n : Nat) : Option Word :=
  let h := s.hart g
  let k := s.core (coreOf g)
  match n with
  | 0x440 => some (BitVec.ofNat 64 s.cycle)
  | 0x441 => some (hrunNow s g)
  | 0x442 => some h.instret
  | 0x443 => some h.egops
  | 0x444 => some h.mxcyc
  | 0x445 => some h.fwdhops
  | 0x446 => some h.ilkstall
  | 0x447 => some h.bacqwait
  | 0x448 => some h.xfallbk
  | 0xC40 => some (BitVec.ofNat 64 k.cecor)
  | 0xC41 => some (BitVec.ofNat 64 k.ceunc)
  | 0xC42 => some (BitVec.ofNat 64 k.resmis)
  | 0xC43 => some (BitVec.ofNat 64 k.lgret)
  | 0xC44 => some h.preempts
  | 0xC45 => some h.traps
  | _ => none

/-- The value of a CSR (R62); none for an unassigned number. -/
def csrValue (s : State) (g n : Nat) : Option Word :=
  let h := s.hart g
  match n with
  | 0x010 => some (h.fflags.zeroExtend 64)
  | 0x011 => some h.rmode
  | 0x012 => some (h.vstart.zeroExtend 64)
  | 0x013 => some h.vtype
  | 0x014 => some (h.ftrim.zeroExtend 64)
  | 0x400 => some (h.vl.zeroExtend 64)
  | 0x401 => some (BitVec.ofNat 64 (s.mvl g))
  | 0x402 => some (h.vcfg.zeroExtend 64)
  | 0x404 => some (h.tilem.zeroExtend 64)
  | 0x405 => some (h.tilen.zeroExtend 64)
  | 0x406 => some (h.tilek.zeroExtend 64)
  | 0x408 => some ((s.barrierSeen g).elim 0 Barrier.word)
  | 0x410 => some (h.chan 0).wmark
  | 0x411 => some (h.chan 1).wmark
  | 0x412 => some (h.chan 2).wmark
  | 0x413 => some (h.chan 3).wmark
  | 0x420 => some (hloc s.pkg g)
  | 0x421 => some ((s.core (coreOf g)).lglive.zeroExtend 64)
  | 0x800 => some (h.status.zeroExtend 64)
  | 0x801 => some h.tvec
  | 0x802 => some h.epc
  | 0x803 => some (h.ecause.zeroExtend 64)
  | 0x804 => some h.eval
  | 0x805 => some (h.eqpos.zeroExtend 64)
  | 0x806 => some h.kscratch
  | 0x810 => some h.ptroot
  | 0x820 => some h.vlcap
  | 0x821 => some ((s.core (coreOf g)).spbanks.zeroExtend 64)
  | 0x822 => some (h.fwdlim.zeroExtend 64)
  | 0xC00 => some (h.partid.zeroExtend 64)
  | _ =>
    if 0x830 ≤ n ∧ n ≤ 0x83F then
      let k := (n - 0x830) / 2 % 8
      some (if n % 2 = 0 then h.bpaddr[k]'(Nat.mod_lt _ (by decide)) else h.bpctl[k]'(Nat.mod_lt _ (by decide)))
    else counterCsr s g n

/-! ### Writing -/

/-- VLCAP's rounding and clamping (R75). -/
def capRound (v : Word) : Word := BitVec.ofNat 64 (min (max (pow2Below v.toNat) 64) 65536)

/-- A write of VTYPE (R66): a value with no valid type sets VILL; a valid one clamps VL to the new MVL. -/
def writeVtype (g : Nat) (v : Word) : M Unit := do
  if codeValid (vtCode v) then do
    modHart g (fun h => { h with vtype := v &&& 0xFFF })
    capInForce g
    let n ← gets (fun s => s.mvl g)
    modHart g (fun h => { h with vl := BitVec.ofNat 23 (min n h.vl.toNat) })
  else modHart g (fun h => { h with vtype := 0x8000, vl := 0 })

/-- A write of RMODE (R67): modes 6 and 7 set 0. -/
def writeRmode (g : Nat) (v : Word) : M Unit :=
  modHart g (fun h => { h with rmode := if 6 ≤ bitsGet v.toNat 0 3 then v &&& ~~~7#64 else v })

/-- A write of VSTART (R64): the next vector instruction sent captures it. -/
def writeVstart (g : Nat) (v : Word) : M Unit :=
  modHart g (fun h => { h with vstart := v.extractLsb' 0 23, vsWritten := true })

/-- A write of VLCAP (R75, R81): in force at the next VSETL, VSETT or VTYPE write; it ends a restored size (R346). -/
def writeVlcap (g : Nat) (v : Word) : M Unit :=
  modHart g (fun h => { h with vlcap := capRound v, capNow := h.sFix.getD h.capNow, sFix := none })

/-- The banks that a write of SPBANKS gives (R79). -/
def spbanksFor (s : State) (g : Nat) (v : Word) : Nat :=
  min (min v.toNat 64 / 8 * 8) ((Config.coreBanks - 16 - coreBanksWith s g (s.hart g).banks) / 8 * 8)

/-- The address of the first element that a vector access of R85 still has to perform. -/
def firstReach (c : VCtx) (h : Hart) : Instr → Option Nat
  | .vld _ _ m | .vldff _ _ m | .vst _ _ m => (c.active h m).head?.map (c.unitAddr h)
  | .vlds _ _ _ m | .vsts _ _ _ m => (c.active h m).head?.map (c.strideAddr h)
  | .vlx _ _ b m | .vlxff _ _ b m | .vsx _ _ b m => (c.active h m).head?.map (c.indexAddr b h)
  | .mdrain .. => some c.e.opa.toNat
  | _ => none

/-- The oldest entry of a hart is a vector access to the scratchpad that has begun and not completed (R79). -/
def spadUnderWay (s : State) (g : Nat) : Bool :=
  let h := s.hart g
  match h.vq with
  | [] => false
  | e :: _ =>
    let c : VCtx := { g := g, e := e, lim := e.vl.toNat, bps := [], items := [], cover := 2 ^ 23 }
    h.flight.isSome && (firstReach c h e.insn).any (fun a => inSpad a 1)

/-- A write of SPBANKS waits for the vector accesses of the core to the scratchpad (R79). -/
def needSpadQuiet (g : Nat) : M Unit := do
  needDrained g
  let others := (coreHarts (coreOf g)).filter (fun k => k != g)
  let s ← getState
  eachM (others.filter (spadUnderWay s)) (fun k => runQueue k (s.hart k).vq.length)
  if ← gets (fun s => others.any (spadUnderWay s)) then halt else pure ()

/-- A write of SPBANKS (R79): the new scratchpad is zero, and the L1, its write buffer drained, loses the lines of the banks that move
(R78). -/
def writeSpbanks (g : Nat) (v : Word) : M Unit := do
  needSpadQuiet g
  let s ← getState
  let n := spbanksFor s g v
  whenM ((s.core (coreOf g)).spbanks.toNat != n) (growBanks g)
  modCore (coreOf g) (fun k => { k with spbanks := BitVec.ofNat 7 n })
  upd (.spad (coreOf g) 0 (8192 * Config.coreBanks) 0)

/-- A write of PTROOT (R231): walks that begin after it use it. -/
def writePtroot (g : Nat) (v : Word) : M Unit := modHart g (fun h => { h with ptroot := v })

/-- A write of a CSR that has no behaviour of its own; reserved bits are ignored (R6). -/
def writePlain (g n : Nat) (v : Word) : M Unit :=
  modHart g (fun h =>
    match n with
    | 0x010 => { h with fflags := v.extractLsb' 0 5 }
    | 0x014 => { h with ftrim := v.extractLsb' 0 23 }
    | 0x800 => { h with status := v.extractLsb' 0 3 }
    | 0x801 => { h with tvec := v }
    | 0x802 => { h with epc := v }
    | 0x803 => { h with ecause := v.extractLsb' 0 16 }
    | 0x804 => { h with eval := v }
    | 0x805 => { h with eqpos := v.extractLsb' 0 5 }
    | 0x806 => { h with kscratch := v }
    | 0x822 => { h with fwdlim := v.extractLsb' 0 2 }
    | _ =>
      let k := (n - 0x830) / 2 % 8
      if n < 0x830 ∨ 0x83F < n then h
      else if n % 2 = 0 then { h with bpaddr := h.bpaddr.set k (v &&& addrMask) (Nat.mod_lt _ (by decide)) }
      else { h with bpctl := h.bpctl.set k (v &&& bpctlMask) (Nat.mod_lt _ (by decide)) })

/-- Write a CSR (R62 to R75). -/
def csrStore (g n : Nat) (v : Word) : M Unit :=
  match n with
  | 0x011 => writeRmode g v
  | 0x012 => writeVstart g v
  | 0x013 => writeVtype g v
  | 0x810 => writePtroot g v
  | 0x820 => writeVlcap g v
  | 0x821 => writeSpbanks g v
  | _ => writePlain g n v

/-! ### Waiting (R63, R232) -/

/-- An instruction whose performance may set a flag of FFLAGS. -/
def setsFlags : Instr → Bool
  | .vfcmpeq .. | .vfcmplt .. | .vfcmple .. | .vfcmpne .. | .vfcmpun .. => true
  | .vfadd .. | .vfsub .. | .vfmul .. | .vfma .. | .vfdiv .. | .vfsqrt .. | .vfmin .. | .vfmax .. => true
  | .vfcvt .. | .vfrcp .. | .vfrsq .. | .vfexp2 .. | .vflog2 .. | .vftanh .. => true
  | .vfaddX .. | .vfsubX .. | .vfmulX .. | .vfmaX .. | .vfminX .. | .vfmaxX .. => true
  | .vfredo .. | .vfredt .. | .vscadd .. | .mopa .. => true
  | .vhad .. | .vcvtn .. | .vcvtw .. | .vscale .. | .xcfg .. | .xckpt .. | .xdrain .. => true
  | _ => false

/-- An instruction that may change FTRIM. -/
def changesFtrim : Instr → Bool
  | .vldff .. | .vlxff .. | .vxlateff .. | .fwdresff .. => true
  | _ => false

/-- An instruction that may change a watermark. -/
def changesWmark : Instr → Bool
  | .cpcfg .. | .cpstep .. | .cpwait .. => true
  | _ => false

/-- Wait for the earlier vector instructions that can change a CSR; for a write of VTYPE, for those that can change VL. -/
def csrWait (g n : Nat) (write : Bool) : M Unit :=
  match n with
  | 0x010 => needPast g setsFlags
  | 0x012 => needPast g (fun _ => true)
  | 0x013 => if write then needPast g changesVl else pure ()
  | 0x014 => needPast g changesFtrim
  | 0x400 => needPast g changesVl
  | 0x410 | 0x411 | 0x412 | 0x413 => needPast g changesWmark
  | _ => pure ()

/-! ### The instructions -/

/-- R61: the privilege may read the class, and write it when the instruction writes. -/
def csrAllowed (n : Nat) (sup write : Bool) : Bool :=
  match n / 0x400 with
  | 0 => true
  | 1 => !write
  | 2 => sup
  | _ => sup && !write

/-- Read a CSR. MVL is the one of VTYPE's format (R76), and a free value while VTYPE holds no valid type (log entry 5, DESIGN CHOICE). -/
def csrRead (g n : Nat) : M Word := do
  if ← gets (fun s => decide (n = 0x401) && (s.hart g).vtype.getLsbD 15) then do
    let v ← freeBits 23
    pure (BitVec.ofNat 64 v)
  else gets (fun s => (csrValue s g n).getD 0)

/-- A CSR instruction: f gives the new value from the old one and x[a], when it writes (R61, R231). -/
def csrOp (d a : BitVec 5) (c : BitVec 12) (write : Bool) (f : Word → Word → Word) : M Unit :=
  scalar [d, a] (fun g h => do
    let n := c.toNat
    let s ← getState
    if (csrValue s g n).isNone ∨ csrAllowed n h.sup write = false then trapAfter g .illegal 0
    else do
      csrWait g n write
      let t ← csrRead g n
      whenM write (csrStore g n (f t (h.getX a)))
      modHart g (fun h => (h.setX d t).advance 4))

/-- CSRRW (R231): always writes. -/
def execCsrrw (d a : BitVec 5) (c : BitVec 12) : State → Host.Outcome State Fault Refusal := runM (csrOp d a c true (fun _ x => x))
/-- CSRRS (R231): writes when a names a register other than x0. -/
def execCsrrs (d a : BitVec 5) (c : BitVec 12) : State → Host.Outcome State Fault Refusal :=
  runM (csrOp d a c (a != 0#5) (fun t x => t ||| x))
/-- CSRRC (R231). -/
def execCsrrc (d a : BitVec 5) (c : BitVec 12) : State → Host.Outcome State Fault Refusal :=
  runM (csrOp d a c (a != 0#5) (fun t x => t &&& ~~~x))

end Sys2Proof.Machine
end

