-- ==== Sys2Proof/Machine/ScalarMem.lean ====
section
/-!
DEFINITION. Machine/ScalarMem.lean: scalar loads and stores (R223 to R226), scalar atomics (R277, R279), and the fences that
wait in the scalar unit (R172, R178, R280, R281).
-/
namespace Sys2Proof.Machine

/-! ### One scalar access -/

/-- A scalar access waits, for a page if it waits on MIG: the instruction is executed again. -/
def holdScalar {α : Type} (g : Nat) (mig : Option Nat) : M α := do
  modHart g (fun h => { h with holdS := true, migWait := mig })
  halt

/-- No scalar access of the hart is held any more. -/
def freeScalar (g : Nat) : M Unit := do
  whenM (← getHart g).holdS (modHart g (fun h => { h with holdS := false }))

/-- A vector atomic with .aq. -/
def acquiresBoth : Instr → Bool
  | .vamoAdd _ _ _ _ q _ | .vamoAnd _ _ _ _ q _ | .vamoOr _ _ _ _ q _ | .vamoXor _ _ _ _ q _ | .vamoMin _ _ _ _ q _ => q == 1#1
  | .vamoMax _ _ _ _ q _ | .vamoMinn _ _ _ _ q _ | .vamoMaxn _ _ _ _ q _ | .vamoSwap _ _ _ _ q _ => q == 1#1
  | _ => false

/-- The page pieces of a scalar access that passes steps 1 to 3 of R226; a fault traps with EVAL the access's address. It follows every
earlier vector atomic with .aq (R173). -/
def scalarPieces (g : Nat) (acc : Acc) (align n : Nat) (t : Word) : M (List VPiece) := do
  needPast g acquiresBoth
  let s ← getState
  let w := s.walker g
  if 2 ^ 57 ≤ t.toNat then trapAfter g .xlateNone t
  else if inSpad t.toNat n then trapAfter g .spadRange t
  else if t.toNat % align ≠ 0 then trapAfter g .misalign t
  else
    match walkPieces s w acc (pagePieces t.toNat n) with
    | .fail f => trapAfter g f.cause t
    | .mig va => holdScalar g (some va)
    | .spad _ => pure []
    | .pages ps =>
      if (absent s w.tier ps).isSome then trapAfter g .addrNone t
      else if ← touchPieces w ps then pure ps
      else hartError g w.part

/-- The line pieces of a scalar access at their lines: a fault traps with EVAL the access's address, and one that is held, or follows an
earlier write of the hart that waits, is executed again. -/
def scalarReach (g : Nat) (copies : Option Bool) (t : Word) (ps : List VPiece) : M (List (Nat × Ready)) := do
  let w ← gets (fun s => s.walker g)
  match ← reach g copies w (ps.flatMap VPiece.lines) with
  | .fail f => trapAfter g f.cause t
  | .wait m => holdScalar g m
  | .stop => hartError g w.part
  | .ok rs => do
    freeScalar g
    pure rs

/-- A scalar load of n bytes (R224): nothing is loaded unless every byte is. It performs in its own step, so it never returns what a
later vector store writes, which R171 allows (log entry 81, DESIGN CHOICE). -/
def scalarLoad (g n : Nat) (t : Word) (align : Nat := 1) : M Bits := do
  let ps ← scalarPieces g .load align n t
  let rs ← scalarReach g (some false) t ps
  loadAll g false rs

/-- A scalar store of n bytes (R225). -/
def scalarStore (g n : Nat) (t : Word) (v : Bits) : M Unit := do
  let ps ← scalarPieces g .store 1 n t
  let w ← gets (fun s => s.walker g)
  match ← settleAll g none w (ps.flatMap VPiece.lines) with
  | .fail f => trapAfter g f.cause t
  | .wait m => holdScalar g m
  | .stop => hartError g w.part
  | .ok rs => do
    freeScalar g
    let pc := (← getHart g).pc
    storeAll g false pc rs v

/-- A load instruction of the given length, from x[a] plus an offset. -/
def load (len : Nat) (d a : BitVec 5) (off : Word) (n : Nat) (signed : Bool) : M Unit :=
  scalar [d, a] (fun g h => do
    let x ← scalarLoad g n (h.getX a + off)
    modHart g (fun h => (h.setX d (BitVec.ofInt 64 (intOf signed (8 * n) x))).advance len))

/-- A store instruction of the given length: the low bytes of x[b] to x[a] plus an offset. -/
def store (len : Nat) (a b : BitVec 5) (off : Word) (n : Nat) : M Unit :=
  scalar [a, b] (fun g h => do
    scalarStore g n (h.getX a + off) ((h.getX b).toNat % 2 ^ (8 * n))
    modHart g (fun h => h.advance len))

/-- LD.S8 (R224). -/
def execLdS8 (d a : BitVec 5) (i : BitVec 14) : State → Host.Outcome State Fault Refusal := runM (load 4 d a (sext14 i) 1 true)
/-- LD.N8 (R224). -/
def execLdN8 (d a : BitVec 5) (i : BitVec 14) : State → Host.Outcome State Fault Refusal := runM (load 4 d a (sext14 i) 1 false)
/-- LD.S16 (R224). -/
def execLdS16 (d a : BitVec 5) (i : BitVec 14) : State → Host.Outcome State Fault Refusal := runM (load 4 d a (sext14 i) 2 true)
/-- LD.N16 (R224). -/
def execLdN16 (d a : BitVec 5) (i : BitVec 14) : State → Host.Outcome State Fault Refusal := runM (load 4 d a (sext14 i) 2 false)
/-- LD.S32 (R224). -/
def execLdS32 (d a : BitVec 5) (i : BitVec 14) : State → Host.Outcome State Fault Refusal := runM (load 4 d a (sext14 i) 4 true)
/-- LD.N32 (R224). -/
def execLdN32 (d a : BitVec 5) (i : BitVec 14) : State → Host.Outcome State Fault Refusal := runM (load 4 d a (sext14 i) 4 false)
/-- LD.64 (R224). -/
def execLd64 (d a : BitVec 5) (i : BitVec 14) : State → Host.Outcome State Fault Refusal := runM (load 4 d a (sext14 i) 8 false)
/-- ST.8 (R225). -/
def execSt8 (a b : BitVec 5) (i : BitVec 14) : State → Host.Outcome State Fault Refusal := runM (store 4 a b (sext14 i) 1)
/-- ST.16 (R225). -/
def execSt16 (a b : BitVec 5) (i : BitVec 14) : State → Host.Outcome State Fault Refusal := runM (store 4 a b (sext14 i) 2)
/-- ST.32 (R225). -/
def execSt32 (a b : BitVec 5) (i : BitVec 14) : State → Host.Outcome State Fault Refusal := runM (store 4 a b (sext14 i) 4)
/-- ST.64 (R225). -/
def execSt64 (a b : BitVec 5) (i : BitVec 14) : State → Host.Outcome State Fault Refusal := runM (store 4 a b (sext14 i) 8)
/-- C.LD.S32 (R204 op 10): the offset counts in words. -/
def execCLdS32 (d a : BitVec 3) (i : BitVec 5) : State → Host.Outcome State Fault Refusal :=
  runM (load 2 (cReg d) (cReg a) (4 * i.zeroExtend 64) 4 true)
/-- C.LD.64 (R204 op 11): the offset counts in 8-byte words. -/
def execCLd64 (d a : BitVec 3) (i : BitVec 5) : State → Host.Outcome State Fault Refusal :=
  runM (load 2 (cReg d) (cReg a) (8 * i.zeroExtend 64) 8 false)
/-- C.ST.32 (R204 op 12): d names the data. -/
def execCSt32 (d a : BitVec 3) (i : BitVec 5) : State → Host.Outcome State Fault Refusal :=
  runM (store 2 (cReg a) (cReg d) (4 * i.zeroExtend 64) 4)
/-- C.ST.64 (R204 op 13): d names the data. -/
def execCSt64 (d a : BitVec 3) (i : BitVec 5) : State → Host.Outcome State Fault Refusal :=
  runM (store 2 (cReg a) (cReg d) (8 * i.zeroExtend 64) 8)

/-! ### Scalar atomics -/

/-- The release side of an instruction over both sides: the queue drains, released copy elements land, completed writes are performed,
and at .dom or .sys the peers have acknowledged theirs (R168, R173). -/
def releaseAll (g scope : Nat) : M Unit := do
  needDrained g
  if ← releaseBoth g scope none then pure () else halt

/-- A scalar atomic of n bytes (R277). -/
def amo (op n : Nat) (d a b : BitVec 5) (scope : BitVec 3) (q l : BitVec 1) : M Unit :=
  scalar [d, a, b] (fun g h => do
    let t := h.getX a
    whenM (l == 1#1) (releaseAll g scope.toNat)
    let ps ← scalarPieces g .atomic n n t
    match ← scalarReach g none t ps with
    | [] => pure ()
    | (_, r) :: _ => do
      let o := (h.getX b).toNat % 2 ^ (8 * n)
      let cmp := (h.getX d).toNat % 2 ^ (8 * n)
      let old ← atomicReady g scope.toNat r (fun old => amoResult op (8 * n) old o cmp)
      modHart g (fun h => (h.setX d (BitVec.ofInt 64 (signedOf (8 * n) old))).advance 4)
      whenM (q == 1#1) (acquireAt g scope.toNat true))

/-- AMO.W ADD (R277). -/
def execAmoAddW (d a b : BitVec 5) (s : BitVec 3) (q l : BitVec 1) : State → Host.Outcome State Fault Refusal := runM (amo 0 4 d a b s q l)
/-- AMO.W AND (R277). -/
def execAmoAndW (d a b : BitVec 5) (s : BitVec 3) (q l : BitVec 1) : State → Host.Outcome State Fault Refusal := runM (amo 1 4 d a b s q l)
/-- AMO.W OR (R277). -/
def execAmoOrW (d a b : BitVec 5) (s : BitVec 3) (q l : BitVec 1) : State → Host.Outcome State Fault Refusal := runM (amo 2 4 d a b s q l)
/-- AMO.W XOR (R277). -/
def execAmoXorW (d a b : BitVec 5) (s : BitVec 3) (q l : BitVec 1) : State → Host.Outcome State Fault Refusal := runM (amo 3 4 d a b s q l)
/-- AMO.W MIN (R277). -/
def execAmoMinW (d a b : BitVec 5) (s : BitVec 3) (q l : BitVec 1) : State → Host.Outcome State Fault Refusal := runM (amo 4 4 d a b s q l)
/-- AMO.W MAX (R277). -/
def execAmoMaxW (d a b : BitVec 5) (s : BitVec 3) (q l : BitVec 1) : State → Host.Outcome State Fault Refusal := runM (amo 5 4 d a b s q l)
/-- AMO.W MINN (R277). -/
def execAmoMinnW (d a b : BitVec 5) (s : BitVec 3) (q l : BitVec 1) : State → Host.Outcome State Fault Refusal := runM (amo 6 4 d a b s q l)
/-- AMO.W MAXN (R277). -/
def execAmoMaxnW (d a b : BitVec 5) (s : BitVec 3) (q l : BitVec 1) : State → Host.Outcome State Fault Refusal := runM (amo 7 4 d a b s q l)
/-- AMO.W SWAP (R277). -/
def execAmoSwapW (d a b : BitVec 5) (s : BitVec 3) (q l : BitVec 1) : State → Host.Outcome State Fault Refusal := runM (amo 8 4 d a b s q l)
/-- AMO.W CAS (R277): x[d] is compared and receives the old value. -/
def execAmoCasW (d a b : BitVec 5) (s : BitVec 3) (q l : BitVec 1) : State → Host.Outcome State Fault Refusal := runM (amo 9 4 d a b s q l)
/-- AMO.D ADD (R277). -/
def execAmoAddD (d a b : BitVec 5) (s : BitVec 3) (q l : BitVec 1) : State → Host.Outcome State Fault Refusal := runM (amo 0 8 d a b s q l)
/-- AMO.D AND (R277). -/
def execAmoAndD (d a b : BitVec 5) (s : BitVec 3) (q l : BitVec 1) : State → Host.Outcome State Fault Refusal := runM (amo 1 8 d a b s q l)
/-- AMO.D OR (R277). -/
def execAmoOrD (d a b : BitVec 5) (s : BitVec 3) (q l : BitVec 1) : State → Host.Outcome State Fault Refusal := runM (amo 2 8 d a b s q l)
/-- AMO.D XOR (R277). -/
def execAmoXorD (d a b : BitVec 5) (s : BitVec 3) (q l : BitVec 1) : State → Host.Outcome State Fault Refusal := runM (amo 3 8 d a b s q l)
/-- AMO.D MIN (R277). -/
def execAmoMinD (d a b : BitVec 5) (s : BitVec 3) (q l : BitVec 1) : State → Host.Outcome State Fault Refusal := runM (amo 4 8 d a b s q l)
/-- AMO.D MAX (R277). -/
def execAmoMaxD (d a b : BitVec 5) (s : BitVec 3) (q l : BitVec 1) : State → Host.Outcome State Fault Refusal := runM (amo 5 8 d a b s q l)
/-- AMO.D MINN (R277). -/
def execAmoMinnD (d a b : BitVec 5) (s : BitVec 3) (q l : BitVec 1) : State → Host.Outcome State Fault Refusal := runM (amo 6 8 d a b s q l)
/-- AMO.D MAXN (R277). -/
def execAmoMaxnD (d a b : BitVec 5) (s : BitVec 3) (q l : BitVec 1) : State → Host.Outcome State Fault Refusal := runM (amo 7 8 d a b s q l)
/-- AMO.D SWAP (R277). -/
def execAmoSwapD (d a b : BitVec 5) (s : BitVec 3) (q l : BitVec 1) : State → Host.Outcome State Fault Refusal := runM (amo 8 8 d a b s q l)
/-- AMO.D CAS (R277). -/
def execAmoCasD (d a b : BitVec 5) (s : BitVec 3) (q l : BitVec 1) : State → Host.Outcome State Fault Refusal := runM (amo 9 8 d a b s q l)

/-! ### Fences (R172, R178) -/

/-- The peers of a hart's unacknowledged writes whose link is down. -/
def downPeers (s : State) (g : Nat) : List Nat := ((s.hart g).remote.map (fun e => e.2)).filter (peerDown s)

/-- A release at .sys of both sides: what LAUNCH, GRUN and RETIRE begin with (R173). -/
def releaseSys (g : Nat) : M Unit := releaseAll g 6

/-- FENCE.VS: waits in the scalar unit for the vector side, and for it alone (R280). -/
def execFenceVs (s : BitVec 3) : State → Host.Outcome State Fault Refusal :=
  runM (scalar [] (fun g _ => do
    needDrained g
    if ← releaseSide g s.toNat true none then do
      acquireAt g s.toNat true
      modHart g (fun h => h.advance 4)
    else halt))

/-- FENCE.ALL: at .dom or .sys one that meets a down link raises LINK_DOWN (R178). -/
def execFenceAll (s : BitVec 3) : State → Host.Outcome State Fault Refusal :=
  runM (scalar [] (fun g _ => do
    releaseAll g s.toNat
    if 5 ≤ s.toNat ∧ (← gets (fun s => !(downPeers s g).isEmpty)) then trapAfter g .linkDown 0
    else do
      acquireAt g s.toNat true
      modHart g (fun h => h.advance 4)))

/-- The status of FENCE.SYS (R281) for the peers whose writes failed; package numbers end at 899 (R74), so one above is a
host. -/
def fenceStatus (peers : List Nat) : Word :=
  if peers.isEmpty then 0
  else
    let links := (peers.map (fun p => (Config.linkOf p).val)).dedup.length
    let pkgs := peers.filter (fun p => decide (p < 900))
    BitVec.ofNat 64 (1 + min links 255 * 256 + (pkgs.min?.getD 0x3FF) * 65536)

/-- FENCE.SYS (R178, R281): the writes it reports as failed are waited for no more. -/
def execFenceSys (d : BitVec 5) : State → Host.Outcome State Fault Refusal :=
  runM (scalar [d] (fun g _ => do
    releaseSys g
    let down ← gets (fun s => downPeers s g)
    acquireAt g 6 true
    modHart g (fun h => ({ h with remote := [] }.setX d (fenceStatus down)).advance 4)))

end Sys2Proof.Machine
end

