-- ==== Sys2Proof/Machine/Context.lean ====
section
/-!
DEFINITION. Machine/Context.lean: the context image (R344 to R346): its bits from a hart, a hart from its bits, and the two
halves of a stream that images carry (R327).
-/
namespace Sys2Proof.Machine

/-! ### Sections (R344) -/

/-- Offsets of the variable sections. -/
structure Sections where
  v : Nat
  m : Nat
  w : Nat
  a : Nat
  e : Nat
  deriving DecidableEq, Repr

/-- Where the sections start, for the named registers, the register size and the tile grant. -/
def sectionsOf (named S rows cols : Nat) : Sections :=
  let v := 0x2000
  let (m, w, a) := sectionsFrom v named S
  { v := v, m := m, w := w, a := a, e := roundUp (a + 16 * rows * cols) 128 }

/-- A stream as its consumer's image holds it: vd, the producer's index, k, items read, unread elements. -/
structure ConsHalf where
  vd     : Nat
  prod   : Nat
  k      : Nat
  read   : Nat
  unread : Nat
  deriving DecidableEq, Repr

/-- A stream as its producer's image holds it: k, the consumer's index, items written. -/
structure ProdHalf where
  k       : Nat
  cons    : Nat
  written : Nat
  deriving DecidableEq, Repr

/-- What an image holds: a hart's record, laid out by its saved S, the resume PC and the rest of the header. -/
structure Image where
  h     : Hart
  num   : Nat
  live  : Nat
  cycle : Nat
  gbar  : Word
  cons  : List ConsHalf
  prods : List ProdHalf
  deriving DecidableEq, Repr

/-! ### Building -/

/-- A field of an image: offset, bytes, value. -/
abbrev IField := Nat × Nat × Nat

/-- Successive 8-byte words from an offset. -/
def wordsFrom : Nat → List Nat → List IField
  | _, [] => []
  | off, w :: ws => (off, 8, w) :: wordsFrom (off + 8) ws

/-- Successive records of a fixed size, each a list of words. -/
def recordsFrom (size : Nat) : Nat → List (List Nat) → List IField
  | _, [] => []
  | off, r :: rs => wordsFrom off r ++ recordsFrom size (off + size) rs

/-- The bits of some fields; every byte that no field holds is zero. -/
def fieldBits (fs : List IField) : Bits := fs.foldl (fun b f => b + (f.2.2 % 2 ^ (8 * f.2.1)) * 2 ^ (8 * f.1)) 0

/-- The words of an instruction as an entry holds them. -/
def insnBits (i : Instr) : Nat :=
  match encode i with
  | some ws => ws.bits.toNat
  | none => 0

/-- A vector-queue record (R345). -/
def entryWords (e : VEntry) : List Nat :=
  [e.pc.toNat, insnBits e.insn, e.vtype.toNat, e.mode.toNat + e.seed.toNat * 2 ^ 32, e.opa.toNat, e.opb.toNat,
   e.vl.toNat + e.vstart.toNat * 2 ^ 32,
   (match e.rq with
    | some k => k.toNat + 8
    | none => 0) + 16 * bit e.vlPend + 32 * bit e.begun]

/-- A channel record (R345). -/
def chanWords (c : Chan) : List Nat :=
  (c.desc.toList.map (fun w => w.toNat)) ++
  [c.typ.toNat + c.mode.toNat * 2 ^ 8 + bit c.active * 2 ^ 11 + bit c.faulted * 2 ^ 12 + c.seed.toNat * 2 ^ 32,
   c.exp.toNat, c.retired, c.land, c.wmark.toNat]

/-- An interlock entry (R142). -/
def ilkWords (x : Ilk) : List Nat :=
  [bit x.v + x.kind.toNat * 2 + x.ch.toNat * 2 ^ 4 + x.qpos.toNat * 2 ^ 6, x.lo.toNat, x.hi.toNat]

/-- A read-queue record. -/
def rqWords (r : RqEntry) : List Nat :=
  [(r.value.getD 0).toNat, r.reg.toNat + r.qpos.toNat * 2 ^ 5 + bit r.value.isSome * 2 ^ 10]

/-- A consumer binding. -/
def consWords (b : ConsHalf) : List Nat :=
  [1 + b.vd * 2 + b.prod * 2 ^ 6 + b.k * 2 ^ 12, b.read, b.unread]

/-- The producer record of register k. -/
def prodWords (ps : List ProdHalf) (k : Nat) : List Nat :=
  match ps.find? (fun p => p.k == k) with
  | some p => [1 + p.cons * 2, p.written]
  | none => [0, 0]

/-- The CSR slots (R344). -/
def csrSlots (h : Hart) : List Nat :=
  [h.fflags.toNat, h.rmode.toNat, h.vstart.toNat, h.vtype.toNat, h.ftrim.toNat, h.vl.toNat, h.tilem.toNat, h.tilen.toNat,
   h.tilek.toNat, h.kscratch.toNat, h.ptroot.toNat, h.vlcap.toNat, h.fwdlim.toNat, h.epc.toNat, h.status.toNat % 2,
   h.eqpos.toNat, h.resumePc.toNat, h.ecause.toNat, h.eval.toNat, h.vcfg.toNat]

/-- The breakpoint registers, in pairs. -/
def bpWords (h : Hart) : List Nat :=
  (List.range 8).flatMap (fun k => [(h.bpaddr[k % 8]'(Nat.mod_lt _ (by decide))).toNat,
    (h.bpctl[k % 8]'(Nat.mod_lt _ (by decide))).toNat])

/-- The counters of R166. -/
def counterWords (h : Hart) : List Nat :=
  [h.hrun.toNat, h.instret.toNat, h.egops.toNat, h.mxcyc.toNat, h.fwdhops.toNat, h.ilkstall.toNat, h.bacqwait.toNat,
   h.xfallbk.toNat, h.preempts.toNat, h.traps.toNat]

/-- An element of a history: entries, then sixteen bytes for COUNT, flags and PREV (log entry 13, PRESUMED). -/
def histElemBytes (x : Hist) (v : HistElem) : List (Nat × Nat) :=
  let size := if x.wide then 8 else 4
  [(packBytes (v.entries.map (fun t => (t, size))), size * x.depth), (v.entries.length, 1),
   (bit v.nzd + 2 * bit v.stag + 4 * bit v.conv + 8 * bit v.div + 16 * bit v.prev.isSome, 7), (v.prev.getD 0, 8)]

/-- A history's descriptor and elements. -/
def histFields (x : Hist) : List (Nat × Nat) :=
  [(x.cfg.toNat, 8), (x.nel, 120)] ++ x.elems.flatMap (histElemBytes x)

/-- Bytes of a history in the image. -/
def histLength (x : Hist) : Nat := 128 + x.bytes

namespace Image

/-- The sections of the image. -/
def sections (im : Image) : Sections := sectionsOf im.h.named im.h.lay im.h.tilem.toNat im.h.tilen.toNat

/-- LENGTH. -/
def length (im : Image) : Nat := (im.h.e.toList.map histLength).foldl (· + ·) im.sections.e

/-- The header and the other fixed parts. -/
def fixedFields (im : Image) : List IField :=
  let h := im.h
  let x := im.sections
  [(0, 4, 0x49584331), (4, 2, 1), (8, 8, im.length), (20, 1, h.partid.toNat), (22, 2, im.num), (24, 8, h.vcfg.toNat),
   (32, 8, h.vlcap.toNat), (40, 8, h.lay), (48, 1, im.live), (49, 1, h.tilem.toNat), (50, 1, h.tilen.toNat),
   (51, 1, h.tilek.toNat), (52, 1, h.vq.length), (53, 1, h.rq.length), (56, 8, im.cycle)]
  ++ wordsFrom 64 [x.v, x.m, x.w, x.a, x.e]
  ++ wordsFrom 0x80 (h.x.toList.map (fun w => w.toNat))
  ++ wordsFrom 0x180 (csrSlots h)
  ++ wordsFrom 0x280 (bpWords h)
  ++ wordsFrom 0x300 (counterWords h)
  ++ wordsFrom 0x350 [bit h.lp.active + h.lp.reg.toNat * 2, h.lp.start.toNat, h.lp.stop.toNat]
  ++ wordsFrom 0x370 [im.gbar.toNat, bit h.arrived]
  ++ recordsFrom 24 0x380 (h.ilk.toList.map ilkWords)
  ++ recordsFrom 128 0x500 (h.chans.toList.map chanWords)
  ++ recordsFrom 16 0x700 (h.rq.map rqWords)
  ++ recordsFrom 32 0x780 (im.cons.map consWords)
  ++ recordsFrom 16 0x800 ((List.range 32).map (prodWords im.prods))
  ++ recordsFrom 64 0xA00 (h.vq.map entryWords)

/-- The image's bits. -/
def bits (im : Image) : Bits :=
  let h := im.h
  let x := im.sections
  let S := h.lay
  let cells := 4 * h.tilem.toNat * h.tilen.toNat
  packBytes
    ([(fieldBits im.fixedFields, 0x2000), (packBytes ((h.v.toList.take h.named).map (fun r => (r, S))), x.m - x.v),
      (packBytes (h.m.toList.map (fun r => (r, 8 * sPrime S))), x.w - x.m),
      (packBytes (h.w.toList.map (fun r => (r, 4 * sPrime S))), x.a - x.w),
      (packBytes (h.a.toList.map (fun r => (r, cells))), x.e - x.a)]
     ++ h.e.toList.flatMap histFields)

end Image

/-! ### Reading -/

/-- A word of an image. -/
def wordAt (b : Bits) (off : Nat) : Nat := bitsGet b (8 * off) 64

/-- The hart's entry from a vector-queue record. The record holds neither the trap enables of the send, which become those of the
image's RMODE, nor the register size, which is the saved S, nor the released strips, which are those that stand (log entry 76,
DEDUCED). -/
def entryOf (b : Bits) (off : Nat) (freed : List Nat) : Option VEntry :=
  match decodeQueued (wordsOf (BitVec.ofNat 64 (wordAt b (off + 8)))) with
  | .error _ => none
  | .ok i =>
    let md := wordAt b (off + 24)
    let ln := wordAt b (off + 48)
    let last := wordAt b (off + 56)
    some { pc := BitVec.ofNat 64 (wordAt b off), insn := i, vtype := BitVec.ofNat 64 (wordAt b (off + 16)),
           mode := BitVec.ofNat 3 md, seed := BitVec.ofNat 32 (md / 2 ^ 32), opa := BitVec.ofNat 64 (wordAt b (off + 32)),
           opb := BitVec.ofNat 64 (wordAt b (off + 40)), vl := BitVec.ofNat 23 ln, vstart := BitVec.ofNat 23 (ln / 2 ^ 32),
           rq := if last.testBit 3 then some (BitVec.ofNat 3 last) else none, vlPend := last.testBit 4,
           begun := last.testBit 5, ten := BitVec.ofNat 5 (trapEnables (BitVec.ofNat 64 (wordAt b 0x188)))
           size := wordAt b 40, freed := freed }

/-- Every entry of a list of records; none if one is no instruction. -/
def entriesOf (b : Bits) (freed : List Nat) : List Nat → Option (List VEntry)
  | [] => some []
  | off :: offs =>
    match entryOf b off freed, entriesOf b freed offs with
    | some e, some es => some (e :: es)
    | _, _ => none

/-- A channel from its record. Elements above LAND are fetched again (R126); the strips that had been released beyond the
four of R126 are released again by whoever waits for them. -/
def chanOf (b : Bits) (off : Nat) : Chan :=
  let w5 := wordAt b (off + 40)
  { Chan.reset with
    desc := Vector.ofFn (fun (k : Fin 5) => BitVec.ofNat 64 (wordAt b (off + 8 * k.val)))
    typ := BitVec.ofNat 8 w5, mode := BitVec.ofNat 3 (w5 / 2 ^ 8), seed := BitVec.ofNat 32 (w5 / 2 ^ 32)
    active := w5.testBit 11, faulted := w5.testBit 12, exp := BitVec.ofNat 23 (wordAt b (off + 48))
    retired := wordAt b (off + 56), released := if w5.testBit 11 then wordAt b (off + 56) + 4 else 0
    land := wordAt b (off + 64), wmark := BitVec.ofNat 64 (wordAt b (off + 72)) }

/-- An interlock entry from its words. -/
def ilkOf (b : Bits) (off : Nat) : Ilk :=
  let w := wordAt b off
  { v := w.testBit 0, kind := BitVec.ofNat 3 (w / 2), ch := BitVec.ofNat 2 (w / 2 ^ 4), qpos := BitVec.ofNat 5 (w / 2 ^ 6),
    lo := BitVec.ofNat 57 (wordAt b (off + 8)), hi := BitVec.ofNat 57 (wordAt b (off + 16)) }

/-- A read-queue entry from its record. -/
def rqOf (b : Bits) (off : Nat) : RqEntry :=
  let w := wordAt b (off + 8)
  { reg := BitVec.ofNat 5 w, qpos := BitVec.ofNat 5 (w / 2 ^ 5),
    value := if w.testBit 10 then some (BitVec.ofNat 64 (wordAt b off)) else none }

/-- A consumer binding from its record, if V is set. -/
def consOf (b : Bits) (off : Nat) : Option ConsHalf :=
  let w := wordAt b off
  if w.testBit 0 then
    some { vd := bitsGet w 1 5, prod := bitsGet w 6 6, k := bitsGet w 12 5, read := wordAt b (off + 8),
           unread := wordAt b (off + 16) }
  else none

/-- A producer record, if V is set. -/
def prodOf (b : Bits) (k : Nat) : Option ProdHalf :=
  let w := wordAt b (0x800 + 16 * k)
  if w.testBit 0 then some { k := k, cons := bitsGet w 1 6, written := wordAt b (0x808 + 16 * k) } else none

/-- An element of a history. -/
def histElemOf (x : Hist) (b : Bits) (off : Nat) : HistElem :=
  let size := if x.wide then 8 else 4
  let tail := off + size * x.depth
  let n := min (bitsGet b (8 * tail) 8) x.depth
  let fl := bitsGet b (8 * tail + 8) 56
  { entries := (List.range n).map (fun k => bitsGet b (8 * (off + size * k)) (8 * size))
    prev := if fl.testBit 4 then some (wordAt b (tail + 8)) else none
    nzd := fl.testBit 0, stag := fl.testBit 1, conv := fl.testBit 2, div := fl.testBit 3 }

/-- A history from an offset: the descriptor, then the elements it announces, if they lie below the end. -/
def histOf (b : Bits) (off stop : Nat) : Option Hist :=
  let x : Hist := { cfg := BitVec.ofNat 64 (wordAt b off), nel := wordAt b (off + 8), elems := [] }
  let each := x.depth * (if x.wide then 8 else 4) + 16
  let n := if x.depth = 0 then 0 else x.nel
  if off + 128 + n * each ≤ stop then
    some { x with elems := (List.range n).map (fun k => histElemOf x b (off + 128 + each * k)) }
  else none

/-- Histories one after another. -/
def histsOf (b : Bits) (stop : Nat) : Nat → Nat → Option (List Hist)
  | 0, _ => some []
  | n + 1, off =>
    match histOf b off stop with
    | none => none
    | some x => (histsOf b stop n (off + histLength x)).map (fun xs => x :: xs)

/-- The sections that a header's own fields give. -/
def headerSections (b : Bits) : Sections :=
  let cfg := BitVec.ofNat 4 (wordAt b 24)
  sectionsOf ({ Hart.reset with vcfg := cfg } : Hart).named (wordAt b 40) (bitsGet b (8 * 49) 8) (bitsGet b (8 * 50) 8)

/-- The header passes R346 as far as it says itself: MAGIC, FORMAT, a configuration that exists, the offsets, a length between the
last section and the slot's size (R348), and queues that a hart has. -/
def headerGood (b : Bits) : Bool :=
  let x := headerSections b
  decide (bitsGet b 0 32 = 0x49584331) && decide (bitsGet b 32 16 = 1)
    && decide (wordAt b 24 % 4 ≠ 3) && decide (wordAt b 24 / 4 < 3)
    && decide (wordAt b 64 = x.v) && decide (wordAt b 72 = x.m) && decide (wordAt b 80 = x.w) && decide (wordAt b 88 = x.a)
    && decide (wordAt b 96 = x.e) && decide (x.e + 512 ≤ wordAt b 8) && decide (wordAt b 8 ≤ 0x1000000)
    && decide (bitsGet b (8 * 52) 8 ≤ Config.vqDepth) && decide (bitsGet b (8 * 53) 8 ≤ Config.rqDepth)

/-- The parts of an image that say nothing: records behind the queues' depths, the value of a read-queue entry that is not valid, and
bindings with V = 0. -/
def unused (b : Bits) : List (Nat × Nat) :=
  let depth (off n : Nat) : List Nat := (List.range n).filter (fun k => decide (bitsGet b (8 * off) 8 ≤ k))
  (depth 53 8).map (fun k => (0x700 + 16 * k, 16))
    ++ ((List.range 8).filter (fun k => !(wordAt b (0x708 + 16 * k)).testBit 10)).map (fun k => (0x700 + 16 * k, 8))
    ++ (depth 52 32).map (fun k => (0xA00 + 64 * k, 64))
    ++ ((List.range 4).filter (fun k => !(wordAt b (0x780 + 32 * k)).testBit 0)).map (fun k => (0x780 + 32 * k, 32))
    ++ ((List.range 32).filter (fun k => !(wordAt b (0x800 + 16 * k)).testBit 0)).map (fun k => (0x800 + 16 * k, 16))

/-- An image with nothing in the parts that say nothing. -/
def plainImage (b : Bits) : Bits := (unused (b % 2 ^ (8 * 0x2000))).foldl (fun b r => bitsSet b (8 * r.1) (8 * r.2) 0) b

/-- Some bits of a word lie outside a mask. -/
def strayBits (v mask : Word) : Bool := v &&& ~~~mask != 0

/-- Bits of a watermark that are not reserved (R70). -/
def wmarkMask : Word := 0x81FFFFFFFFFFFFFF
/-- Bits of GBAR that are not reserved (R69). -/
def gbarMask : Word := 0xC0000000FFFF7F7F

/-- Some reserved field of the registers in an image is not zero (R346): those of the CSRs (R65 to R70, R152), of a queued VTYPE and of
a channel's descriptor (R289). -/
def Image.reserved (im : Image) : Bool :=
  let h := im.h
  strayBits h.rmode rmodeMask || strayBits h.vtype vtypeMask || strayBits h.ptroot ptrootMask || strayBits im.gbar gbarMask
    || h.bpaddr.toList.any (fun v => strayBits v addrMask) || h.bpctl.toList.any (fun v => strayBits v bpctlMask)
    || h.chans.toList.any (fun c => strayBits c.wmark wmarkMask || decide (bitsGet c.desc[0].toNat 58 6 ≠ 0))
    || h.vq.any (fun e => strayBits e.vtype vtypeMask)

/-- The hart whose read queue holds no value any more: each that has arrived is in its x register, and its entry is free (R125). -/
def Hart.settleRq (h : Hart) : Hart :=
  let x := h.rq.foldl (fun (h : Hart) r => match r.value with
    | some v => h.setX r.reg v
    | none => h) h
  let kept := (List.range h.rq.length).filter (fun k => ((h.rq[k]?).bind (fun r => r.value)).isNone)
  { x with
    rq := h.rq.filter (fun r => r.value.isNone)
    vq := h.vq.map (fun e => { e with rq := e.rq.bind (fun k => (kept.findIdx? (fun j => j == k.toNat)).map (BitVec.ofNat 3)) }) }

/-- The hart that the fixed part and the sections describe. -/
def hartOf (b : Bits) (vq : List VEntry) (es : List Hist) : Hart :=
  let lo := b % 2 ^ (8 * 0x2000)
  let W := wordAt lo
  let csr (k : Nat) : Nat := W (0x180 + 8 * k)
  let S := W 40
  let x := headerSections lo
  let named := ({ Hart.reset with vcfg := BitVec.ofNat 4 (csr 19) } : Hart).named
  let rows := bitsGet lo (8 * 49) 8
  let cols := bitsGet lo (8 * 50) 8
  let sec (off n size : Nat) : List Bits :=
    let part := bitsGet b (8 * off) (8 * n * size)
    (List.range n).map (fun k => bitsGet part (8 * size * k) (8 * size))
  let lpw := W 0x350
  { Hart.reset with
    x := Vector.ofFn (fun (k : Fin 32) => BitVec.ofNat 64 (W (0x80 + 8 * k.val)))
    v := vecOf 32 0 (sec x.v named S)
    m := vecOf 12 0 (sec x.m 12 (8 * sPrime S))
    w := vecOf 8 0 (sec x.w 8 (4 * sPrime S))
    a := vecOf 4 0 (sec x.a 4 (4 * rows * cols))
    e := vecOf 4 Hist.reset es
    fflags := BitVec.ofNat 5 (csr 0), rmode := BitVec.ofNat 64 (csr 1), vstart := BitVec.ofNat 23 (csr 2)
    vtype := BitVec.ofNat 64 (csr 3), ftrim := BitVec.ofNat 23 (csr 4), vl := BitVec.ofNat 23 (csr 5)
    tilem := BitVec.ofNat 8 (csr 6), tilen := BitVec.ofNat 8 (csr 7), tilek := BitVec.ofNat 6 (csr 8)
    kscratch := BitVec.ofNat 64 (csr 9), ptroot := BitVec.ofNat 64 (csr 10), vlcap := BitVec.ofNat 64 (csr 11)
    fwdlim := BitVec.ofNat 2 (csr 12), epc := BitVec.ofNat 64 (csr 13), status := BitVec.ofNat 3 (csr 14 % 2)
    eqpos := BitVec.ofNat 5 (csr 15), resumePc := BitVec.ofNat 64 (csr 16), ecause := BitVec.ofNat 16 (csr 17)
    eval := BitVec.ofNat 64 (csr 18), vcfg := BitVec.ofNat 4 (csr 19), partid := BitVec.ofNat 6 (bitsGet lo 160 8)
    bpaddr := Vector.ofFn (fun (k : Fin 8) => BitVec.ofNat 64 (W (0x280 + 16 * k.val)))
    bpctl := Vector.ofFn (fun (k : Fin 8) => BitVec.ofNat 64 (W (0x288 + 16 * k.val)))
    hrun := BitVec.ofNat 64 (W 0x300), instret := BitVec.ofNat 64 (W 0x308), egops := BitVec.ofNat 64 (W 0x310)
    mxcyc := BitVec.ofNat 64 (W 0x318), fwdhops := BitVec.ofNat 64 (W 0x320), ilkstall := BitVec.ofNat 64 (W 0x328)
    bacqwait := BitVec.ofNat 64 (W 0x330), xfallbk := BitVec.ofNat 64 (W 0x338), preempts := BitVec.ofNat 64 (W 0x340)
    traps := BitVec.ofNat 64 (W 0x348)
    lp := { active := lpw.testBit 0, reg := BitVec.ofNat 5 (lpw / 2), start := BitVec.ofNat 64 (W 0x358)
            stop := BitVec.ofNat 64 (W 0x360), pinned := none }
    arrived := (W 0x378).testBit 0, epochAt := BitVec.ofNat 16 (W 0x370 / 2 ^ 16)
    ilk := Vector.ofFn (fun (k : Fin 16) => ilkOf lo (0x380 + 24 * k.val))
    chans := Vector.ofFn (fun (k : Fin 4) => chanOf lo (0x500 + 128 * k.val))
    rq := (List.range (bitsGet lo (8 * 53) 8)).map (fun k => rqOf lo (0x700 + 16 * k))
    vq := vq, lay := S, sFix := some S, capNow := csr 11 }

/-- The position at a loop's END of an image whose count register still waits for the read queue is a trip not yet
decided. -/
def Hart.tripOpen (h : Hart) (position : Word) : Bool :=
  h.lp.active && position == h.lp.stop && h.rq.any (fun r => r.reg == h.lp.reg && r.value.isNone)

/-- The channels of an image: the strips released of each. -/
def freedOf (b : Bits) : List Nat := (List.range 4).map (fun k => (chanOf b (0x500 + 128 * k)).released)

/-- The image that some bits hold: none when R346 refuses them with FORMAT. Whatever the image does not name is zero, so it is
the one that builds the same bits again. -/
def imageOf (b : Bits) : Option Image :=
  let lo := b % 2 ^ (8 * 0x2000)
  let x := headerSections lo
  let len := wordAt lo 8
  if headerGood lo then
    match entriesOf lo (freedOf lo) ((List.range (bitsGet lo (8 * 52) 8)).map (fun k => 0xA00 + 64 * k)), histsOf b len 4 x.e with
    | some vq, some es =>
      let im : Image :=
        { h := hartOf b vq es, num := bitsGet lo (8 * 22) 16, live := bitsGet lo (8 * 48) 8, cycle := wordAt lo 56,
          gbar := BitVec.ofNat 64 (wordAt lo 0x370),
          cons := ((List.range 4).map (fun k => 0x780 + 32 * k)).filterMap (consOf lo),
          prods := (List.range 32).filterMap (prodOf lo) }
      if im.bits = plainImage b ∧ im.reserved = false then some { im with h := im.h.settleRq } else none
    | _, _ => none
  else none

/-! ### A hart at its stopping point (R343) -/

/-- The hart past a GBAR. -/
def Hart.gbarDone (h : Hart) : Hart := { h.advance 4 with arrived := false, barrierQ := false }

/-- A stop finds a hart in a barrier: past its GBAR where the episode has completed, without its arrival where the barrier is BROKEN,
and waiting with its arrival recorded otherwise (R322, R323). -/
def stopGbar (g : Nat) : M Unit := do
  let s ← getState
  let h := s.hart g
  match s.barrierSeen g with
  | some b =>
    if h.arrived then
      if b.epoch ≠ h.epochAt then do
        acquireAt g 3 true
        putHart g h.gbarDone
      else whenM (b.st == 2#2) (putHart g { h with arrived := false, barrierQ := false })
    else pure ()
  | none => pure ()

/-- A cycle in which a BACQ of the hart waits, with those since the last one counted (R164). -/
def Hart.bacqWaits (h : Hart) (cycle : Nat) : Hart :=
  { h with bacqwait := h.bacqwait + BitVec.ofNat 64 (cycle + 1 - h.bacqAt.getD cycle), bacqAt := some (cycle + 1) }

/-- The wait is over. -/
def Hart.bacqOver (h : Hart) (cycle : Nat) : Hart :=
  { h with bacqwait := h.bacqwait + BitVec.ofNat 64 (cycle - h.bacqAt.getD cycle), bacqAt := none, bacq := none }

/-- Every wait is abandoned and the strips in flight are dropped (R126, R343); a WFE completes (R234). The translations held are held
no more. -/
def Hart.stopped (h : Hart) (cycle : Nat) : Hart :=
  let h := if h.wfe.isSome then h.advance 4 else h
  let h := if h.bacqAt.isSome then h.bacqOver cycle else h
  let h : Hart := { h with chans := h.chans.map (fun (c : Chan) => { c.dropFetched with above := [] }) }
  { (channels.foldl (fun h n => h.chanIlk n) h).stopQueue with
    lp := { h.lp with pinned := none }
    wfe := none
    bacq := none
    migWait := none
    holdS := false
    tlb := []
    shooting := none }

/-- Stop a hart's two sides for a pre-emption, which it counts. -/
def stopHart (g : Nat) : M Unit := do
  stopGbar g
  stopFlight g
  let now ← gets (fun s => hrunNow s g)
  let cycle ← gets (fun s => s.cycle)
  modHart g (fun h => { h.stopped cycle with
    preempts := h.preempts + 1, hrun := now, place := h.place.map (fun p => { p with since := cycle }) })

/-! ### The two halves of a stream (R327) -/

/-- A mark that a register number carries while that member's half of the stream is in an image only. -/
def detached : Nat := 32

/-- Elements of the current item that the head of the consumer's queue has read. -/
def readSoFar (h : Hart) (vd : Nat) : Nat :=
  match h.vq with
  | e :: _ =>
    match vop e.insn e.vtype { h with lay := e.size } with
    | some op => if op.srcs.any (fun o => o.covers vd) then e.vstart.toNat else 0
    | none => 0
  | [] => 0

/-- The halves that a hart's image holds. -/
def halvesOf (s : State) (g : Nat) : List ConsHalf × List ProdHalf :=
  match s.gangOf g with
  | none => ([], [])
  | some (_, x) =>
    let h := s.hart g
    ((x.streams.filter (fun t => t.cons == h.index && t.vd < detached)).map (fun t =>
       { vd := t.vd, prod := t.prod, k := t.k % detached, read := t.read,
         unread := match t.item with
           | some (_, n, _) => n - readSoFar h t.vd
           | none => 0 }),
     (x.streams.filter (fun t => t.prod == h.index && t.k < detached)).map (fun t =>
       { k := t.k, cons := t.cons, written := t.written }))

/-- The streams of a gang without the halves of one member. -/
def Gang.detach (x : Gang) (me : Nat) : Gang :=
  { x with streams := x.streams.map (fun t =>
      { t with vd := if t.cons = me ∧ t.vd < detached then t.vd + detached else t.vd
               k := if t.prod = me ∧ t.k < detached then t.k + detached else t.k }) }

/-- An item that is given back beside an image: the consumer's register, the bits, VLp and the element width. -/
abbrev KeptItem := Nat × Bits × Nat × Option Nat

/-- Put a consumer's half back: onto the stream that waits for it, or onto a new one that waits for its producer's. seen is what its
oldest entry has read of the item, and lost the bits of an item that nothing else gives. -/
def Gang.attachCons (x : Gang) (me seen : Nat) (kept : List KeptItem) (lost : Bits) (b : ConsHalf) : Gang :=
  let fits (t : Stream) : Bool :=
    t.cons == me && t.prod == b.prod && t.k % detached == b.k && (t.vd == b.vd + detached || t.vd == 2 * detached)
  let given := (kept.lookup b.vd)
  if x.streams.any fits then
    { x with streams := x.streams.map (fun t =>
        if fits t then
          { t with vd := b.vd, read := b.read
                   item := given.or (match t.item with
                     | some (v, _, w) =>
                       if t.k < detached ∧ t.written ≤ b.read then none else some (v, b.unread + seen, w)
                     | none => none) }
        else t) }
  else
    { x with streams := x.streams ++ [
        { prod := b.prod, k := b.k + detached, cons := me, vd := b.vd, written := b.read, read := b.read,
          item := given.or (if b.unread = 0 then none else some (lost, b.unread + seen, none))
          done := x.retired.contains b.prod }] }

/-- Put a producer's half back, with the register that holds its current item, unless the item is known. -/
def Gang.attachProd (x : Gang) (me : Nat) (reg : Bits) (p : ProdHalf) : Gang :=
  let fits (t : Stream) : Bool := t.prod == me && t.cons == p.cons && t.k == p.k + detached
  if x.streams.any fits then
    { x with streams := x.streams.map (fun t =>
        if fits t then
          { t with k := p.k, written := p.written
                   item := if t.read < p.written then
                       (match t.item with
                        | some (v, n, some w) => some (v, n, some w)
                        | some (_, n, none) => some (reg, n, none)
                        | none => some (reg, 0, none))
                     else none }
        else t) }
  else
    { x with streams := x.streams ++ [
        { prod := me, k := p.k, cons := p.cons, vd := 2 * detached, written := p.written, read := p.written,
          item := some (reg, 0, none), done := false }] }

/-- Rebuild a member's bindings from its image (R327). An item whose producer has retired is in no image: where nothing beside it gives
it either, its bits are a free value (log entry 5, DESIGN CHOICE). -/
def attachHalves (g : Nat) (im : Image) (kept : List KeptItem) : M Unit := do
  let s ← getState
  let h := s.hart g
  match s.gangOf g with
  | none => pure ()
  | some (gg, x) => do
    eachM im.prods (fun p => modGang gg (fun x => x.attachProd h.index (h.vreg p.k) p))
    eachM im.cons (fun b => do
      let lost ← if b.unread ≠ 0 ∧ x.retired.contains b.prod then freeBits (8 * h.lay) else pure 0
      modGang gg (fun x => x.attachCons h.index (readSoFar h b.vd) kept lost b))

/-- The image of a hart as it stands: an arrival is recorded in the episode it belongs to (R323). -/
def imageFrom (s : State) (g : Nat) (h : Hart) : Image :=
  let (cs, ps) := halvesOf s g
  let b := s.barrierSeen g
  { h := { h with arrived := h.arrived && b.any (fun b => b.epoch == h.epochAt) }
    num := g, live := (s.core (coreOf g)).lglive.toNat, cycle := s.cycle % 2 ^ 64, gbar := b.elim 0 Barrier.word
    cons := cs, prods := ps }

end Sys2Proof.Machine
end

