-- ==== Sys2Proof/Machine/Launch.lean ====
section
/-!
DEFINITION. Machine/Launch.lean: launch packets and their checks (R19, R331), launch queues (R114 to R116, R163), the answers to
an arrival (R121, R122), the command journal (R130, R131, R161) and completion records (R336).
-/
namespace Sys2Proof.Machine

/-! ### The packet's fields (R331) -/

namespace Packet

/-- ENTRY. -/
def entry (p : Bits) : Nat := bitsGet p 0 57
/-- HPG. -/
def hpg (p : Bits) : Nat := bitsGet p 57 7
/-- TOTAL. -/
def total (p : Bits) : Nat := bitsGet p 64 64
/-- STKBASE. -/
def stkBase (p : Bits) : Nat := bitsGet p 128 57
/-- DONE. -/
def done (p : Bits) : Nat := bitsGet p 192 57
/-- GANGS. -/
def gangs (p : Bits) : Nat := bitsGet p 256 24
/-- HPC. -/
def hpc (p : Bits) : Nat := bitsGet p 280 3
/-- SPREAD. -/
def spread (p : Bits) : Bool := bitAt p 283
/-- TOWER. -/
def tower (p : Bits) : Nat := bitsGet p 284 2
/-- MODE: true for CLAIM. -/
def claim (p : Bits) : Bool := bitAt p 286
/-- CLUSPIN. -/
def cluspin (p : Bits) : Bool := bitAt p 287
/-- TIERS. -/
def tiers (p : Bits) : Nat := bitsGet p 288 12
/-- The code of GRAIN. -/
def grainCode (p : Bits) : Nat := bitsGet p 300 3
/-- PRIO. -/
def prio (p : Bits) : Nat := bitsGet p 304 3
/-- STKSIZE. -/
def stkSize (p : Bits) : Nat := bitsGet p 320 32
/-- ARGk: eight of 64 bits, then four of 32 bits, sign-extended. -/
def arg (p : Bits) (k : Nat) : Word :=
  if k < 8 then BitVec.ofNat 64 (bitsGet p (384 + 64 * k) 64)
  else (BitVec.ofNat 32 (bitsGet p (896 + 32 * (k - 8)) 32)).signExtend 64
/-- GRAIN in elements. -/
def grain (p : Bits) : Nat :=
  match grainCode p with
  | 0 => 8
  | 1 => 16
  | 2 => 32
  | 3 => 64
  | _ => 512
/-- The towers that TOWER allows. -/
def towers (p : Bits) : List Nat :=
  match tower p with
  | 0 => [0]
  | 1 => [1]
  | 3 => [0, 1]
  | _ => []

end Packet

/-- The clusters of a partition on the allowed tiers of a tower, ascending. -/
def Part.clustersOn (x : Part) (tiers tower : Nat) : List Nat :=
  (range' (48 * tower) 48).filter (fun c => bitAt x.clusters c && bitAt tiers (c / 4 - 12 * tower))

/-- The row of R19's table that a packet fails: the lowest. -/
def packetCheck (x : Part) (p : Bits) : Option Nat :=
  let held := (Packet.towers p).map (fun t => (x.clustersOn (Packet.tiers p) t).length)
  if Packet.hpg p = 0 ∨ 64 < Packet.hpg p then some 1
  else if Packet.gangs p = 0 then some 2
  else if Packet.hpc p ≠ 1 ∧ Packet.hpc p ≠ 2 ∧ Packet.hpc p ≠ 4 then some 3
  else if 4 < Packet.grainCode p then some 4
  else if Packet.tower p = 2 then some 5
  else if Packet.tiers p = 0 ∨ held.all (fun n => n == 0) then some 6
  else if held.all (fun n => decide (16 * n < Packet.hpg p)) then some 7
  else if Packet.entry p % 2 ≠ 0 ∨ Packet.done p % 64 ≠ 0 ∨ Packet.stkBase p % 16 ≠ 0 ∨ Packet.stkSize p % 16 ≠ 0 then some 8
  else if x.pceil < Packet.prio p then some 9
  else none

/-! ### Readiness and aging (R116, R163) -/

/-- A queue of a partition is ready. -/
def queueReady (x : Part) (q : Queue) : Bool :=
  (!q.resume.isEmpty || !q.pkts.isEmpty) && decide (x.state = .run) && !x.pause

/-- Cycles of one aging step. -/
def agingCycles : Nat := 65536

/-- A queue's ready cycle and aging as its partition now stands. -/
def Queue.refresh (q : Queue) (x : Part) (cycle : Nat) : Queue :=
  if queueReady x q then
    match q.ready with
    | some _ => q
    | none => { q with ready := some cycle, ageAt := cycle, step := 0, urgent := none }
  else { q with ready := none, ageAt := cycle, step := 0, urgent := none }

/-- One aging step, if its cycles have passed. -/
def Queue.age (q : Queue) (cycle : Nat) : Queue :=
  match q.ready with
  | none => q
  | some _ =>
    if q.step < 8 ∧ q.ageAt + agingCycles ≤ cycle then
      let at' := q.ageAt + agingCycles
      { q with ageAt := at', step := q.step + 1, urgent := if q.step = 7 then some at' else q.urgent }
    else q

/-- Every aging step whose cycles have passed. -/
def Queue.aged (q : Queue) (cycle : Nat) : Nat → Queue
  | 0 => q
  | n + 1 => (q.age cycle).aged cycle n

/-- AGECYC. -/
def Queue.ageCyc (q : Queue) (cycle : Nat) : Nat :=
  match q.ready with
  | some _ => if q.step = 8 then 0 else (cycle - q.ageAt) % agingCycles
  | none => 0

/-- The queues of a partition, ascending. -/
def Part.queueList (x : Part) : List Nat := (List.range 64).filter (fun q => bitAt x.queues q)

/-- Bring the readiness of a partition's queues up to date. -/
def refreshPart (p : Nat) : M Unit := do
  let s ← getState
  eachM (s.part p).queueList (fun q => upd (.queue q ((s.queue q).refresh (s.part p) s.cycle)))

/-- Bring the aging of a partition's queues up to date. -/
def agePart (p : Nat) : M Unit := do
  let s ← getState
  eachM (s.part p).queueList (fun q => upd (.queue q ((s.queue q).aged s.cycle 8)))

/-- The partitions, ascending, in RUN. -/
def runningParts (s : State) : List Nat := (s.parts.filter (fun e => e.2.state == .run)).map (fun e => e.1)

/-- The running partition that a queue is assigned to (R114). -/
def queueOwner (s : State) (q : Nat) : Option Nat :=
  (s.parts.find? (fun e => e.2.state == .run && bitAt e.2.queues q)).map (fun e => e.1)

/-! ### Arrivals (R121, R122) -/

/-- The codes of R122. -/
def accepted : Nat := 0
/-- PARTIAL. -/
def partialCode : Nat := 1
/-- DENIED. -/
def deniedCode : Nat := 2
/-- PAUSED. -/
def pausedCode : Nat := 3
/-- INVALID. -/
def invalidCode : Nat := 4
/-- FULL. -/
def fullCode : Nat := 5
/-- JOURNAL. -/
def journalCode : Nat := 6

/-- A status word (R121). -/
def statusWord (code check seql : Nat) : Nat := code % 16 + (check % 16) * 16 + (seql % 2 ^ 24) * 256

/-- A queue's count of an arrival (R154, R162, R163). -/
def Queue.count (q : Queue) (code : Nat) : Queue :=
  if code = 0 then { q with accept := (q.accept + 1) % 2 ^ 64 }
  else { q with refuse := q.refuse.set (code - 1) (min (q.refuse.getD (code - 1) 0 + 1) (2 ^ 32 - 1)) }

/-- Count an arrival at a queue that exists. -/
def countArrival (q code : Nat) : M Unit := whenM (decide (q < 64)) (modQueue q (fun x => x.count code))

/-- The first check of R122 past DENIED that a packet for queue q of partition p fails, JOURNAL apart: code and CHECK. -/
def packetRefusal (s : State) (p q : Nat) (pkt : Bits) : Option (Nat × Nat) :=
  let x := s.part p
  if x.pause then some (pausedCode, 0)
  else
    match packetCheck x pkt with
    | some row => some (invalidCode, row)
    | none => if Config.lqDepth ≤ (s.queue q).pkts.length then some (fullCode, 0) else none

/-- Enqueue an accepted packet (R114, R23). -/
def enqueuePacket (p q : Nat) (pkt : Bits) (paddr : Word) (src seq : Nat) (node : Option (Nat × Nat)) : M Unit := do
  let id ← freshId
  upd (.launch id (some { packet := pkt, paddr := paddr, src := src, seq := seq, part := p, queue := q, queued := true,
                          nextg := 0, resume := [], claim := 0, live := 0, node := node }))
  modQueue q (fun x => { x with pkts := x.pkts ++ [id] })
  refreshPart p

/-! ### The journal (R130, R131, R161) -/

/-- Journal entries. -/
def journalSlots : Nat := 65536

/-- The address of the entry of a sequence number. -/
def journalEntry (x : Part) (seq : Nat) : Nat := x.jbase + 128 + 32 * (seq % journalSlots)

/-- The address of its packet slot. -/
def journalSlot (x : Part) (seq : Nat) : Nat := x.jbase + 128 + 32 * journalSlots + 128 * (seq % journalSlots)

/-- What a look at the journal finds: the next sequence number, no free slot, or a failed walk. -/
inductive JournalLook where
  | next (seq : Nat)
  | busy
  | failed
  deriving DecidableEq, Repr

/-- The next sequence number, if its slot is free: a header that still reads 0 stands for 1 (log entry 14, DEDUCED). -/
def journalLook (p : Nat) : M JournalLook := do
  let x ← gets (fun s => s.part p)
  match ← devRead p x.jbase 8 with
  | none => pure .failed
  | some n =>
    let seq := max 1 n
    if seq = 2 ^ 64 - 1 then pure .busy
    else
      match ← devRead p (journalEntry x seq + 9) 1 with
      | none => pure .failed
      | some st => pure (if st = 1 ∨ st = 2 then .busy else .next seq)

/-- Write the packet slot, the entry and NEXTSEQ for an accepted command (R130). False when a walk fails. -/
def journalAccept (p q kind seq : Nat) (line : Bits) : M Bool := do
  let s ← getState
  let x := s.part p
  let slot := journalSlot x seq
  let e := seq + kind * 2 ^ 64 + 1 * 2 ^ 72 + q * 2 ^ 80 + slot * 2 ^ 128 + (s.cycle % 2 ^ 64) * 2 ^ 192
  if ← devWrite p slot 128 line then
    if ← devWrite p (journalEntry x seq) 32 e then devWrite p x.jbase 8 (seq + 1) else pure false
  else pure false

/-- Change the STATUS of a command's entry (R131); a launch or graph that no host issued has none. -/
def journalStatus (p seq status : Nat) : M Unit :=
  if seq = 0 then pure ()
  else do
    let s ← getState
    let a := journalEntry (s.part p) seq
    if ← devWrite p (a + 9) 1 status then
      if ← devWrite p (a + 24) 8 (s.cycle % 2 ^ 64) then pure () else partError p
    else partError p

/-! ### Completion records (R336) -/

/-- The bytes of a completion record: kind 1 for a launch, 2 for a graph; status 1 DONE, 2 FAILED. -/
def recordBits (status kind abcode seq paddr claimed stamp : Nat) : Bits :=
  status + kind * 2 ^ 8 + abcode * 2 ^ 16 + seq * 2 ^ 64 + paddr * 2 ^ 128 + claimed * 2 ^ 192 + (stamp % 2 ^ 64) * 2 ^ 256

/-- Write a completion record through PROOT; when its walk fails a RECORD_LOST record is posted instead. -/
def completionRecord (p va : Nat) (v : Nat → Bits) : M Unit := do
  let s ← getState
  match devCause s p .store (pagePieces va 64) with
  | some c => postApart { FRec.base .recordLost 0x7FF p with detail := c.code, aux := va } none
  | none => if ← devWrite p va 64 (v s.cycle) then pure () else partError p

end Sys2Proof.Machine
end

