-- ==== Sys2Proof/Machine/Walker.lean ====
section
/-!
DEFINITION. Machine/Walker.lean: the graph walker (R148, R149, R160, R334, R335), copy nodes, and the end of a launch or a
graph (R25, R131, R336).
-/
namespace Sys2Proof.Machine

/-! ### Nodes in memory (R148) -/

/-- Node states (R148). -/
def ndIdle : Nat := 0
/-- READY. -/
def ndReady : Nat := 1
/-- RUNNING. -/
def ndRunning : Nat := 2
/-- DONE. -/
def ndDone : Nat := 3
/-- FAILED. -/
def ndFailed : Nat := 4

/-- The address of a node. -/
def nodeAddr (x : Part) (j : Nat) : Nat := x.nodebase + 64 * j

/-- KIND. -/
def ndKind (b : Bits) : Nat := bitsGet b 0 8
/-- STATE. -/
def ndState (b : Bits) : Nat := bitsGet b 8 8
/-- QUEUE. -/
def ndQueue (b : Bits) : Nat := bitsGet b 16 6
/-- NSUCC. -/
def ndSuccs (b : Bits) : Nat := bitsGet b 24 8
/-- PREDINIT. -/
def ndInit (b : Bits) : Nat := bitsGet b 32 16
/-- PREDCNT. -/
def ndCnt (b : Bits) : Nat := bitsGet b 48 16
/-- PKT. -/
def ndPkt (b : Bits) : Nat := bitsGet b 64 64
/-- SUCCk, for the first eight. -/
def ndSucc (b : Bits) (k : Nat) : Nat := bitsGet b (128 + 32 * k) 32
/-- MORE. -/
def ndMore (b : Bits) : Nat := bitsGet b 384 64

/-- A walker access to a structure failed: the partition goes to ERROR and the action is abandoned (R399). -/
def walkerError {α : Type} (p : Nat) : M α := do
  partError p
  halt

/-- Read a node. -/
def readNode (p j : Nat) : M Bits := do
  match ← devRead p (nodeAddr (← gets (fun s => s.part p)) j) 64 with
  | some b => pure b
  | none => walkerError p

/-- Write bytes of a node. -/
def writeNode (p j off n v : Nat) : M Unit := do
  let a := nodeAddr (← gets (fun s => s.part p)) j
  if ← devWrite p (a + off) n v then pure () else walkerError p

/-- Change a node's STATE, with its STAMP (R149). -/
def setNode (p j st : Nat) : M Unit := do
  let cycle ← gets (fun s => s.cycle)
  writeNode p j 1 1 st
  writeNode p j 56 8 (cycle % 2 ^ 64)

/-- The successor indices of a node, in list order. A MORE list out of reach takes the partition to ERROR (log entry 77, DEDUCED). -/
def successors (p : Nat) (b : Bits) : M (List Nat) := do
  let n := ndSuccs b
  let first := (List.range (min n 8)).map (ndSucc b)
  if n ≤ 8 then pure first
  else
    match ← devRead p (ndMore b) (4 * (n - 8)) with
    | some x => pure (first ++ (List.range (n - 8)).map (fun k => bitsGet x (32 * k) 32))
    | none => walkerError p

/-! ### The live-node count (R160) -/

/-- The graph's record when its count has reached 0: FAILED when a node has failed (R336). Its journal entry is DONE, as its last node
has finished; only an abandoned graph's is FAILED (R131). The walker frees its place. -/
def graphEnd (gr : Nat) : M Unit := do
  match ← gets (fun s => tabFind s.graphs gr) with
  | none => pure ()
  | some x =>
    if x.live = 0 then do
      upd (.graph gr none)
      if x.abandoned then pure ()
      else do
        let st := if x.fail then 2 else 1
        whenM (x.gdone != 0)
          (completionRecord x.part x.gdone.toNat (recordBits st 2 0 x.seq x.addr.toNat 0))
        journalStatus x.part x.seq 3
    else pure ()

/-- A node leaves the live ones. -/
def nodeLeaves (gr j : Nat) (failed : Bool) : M Unit :=
  modGraph gr (fun x =>
    { x with live := if x.nodes.contains j then x.live - 1 else x.live, nodes := x.nodes.filter (fun k => k != j),
             fail := x.fail || failed })

/-- Fail a node: its state, a record to the fault queue, and the count (R149). -/
def failNode (gr p j : Nat) : M Unit := do
  setNode p j ndFailed
  postApart { FRec.base .graphBad 0x7FF p with aux := j } none
  nodeLeaves gr j true

/-- A node becomes READY; in a graph that has been abandoned it is marked FAILED instead (R351). -/
def readyNode (gr p j : Nat) : M Unit := do
  match ← gets (fun s => tabFind s.graphs gr) with
  | none => pure ()
  | some x =>
    if x.abandoned then setNode p j ndFailed
    else do
      setNode p j ndReady
      modGraph gr (fun x => { x with live := x.live + 1, nodes := x.nodes ++ [j] })

/-- Decrement PREDCNT of each successor in order (R149). -/
def decrements (gr p : Nat) : List Nat → M Unit
  | [] => pure ()
  | j :: js => do
    let b ← readNode p j
    let st := ndState b
    if ndCnt b = 0 then failNode gr p j
    else do
      writeNode p j 6 2 (ndCnt b - 1)
      if ndCnt b = 1 then
        if st = ndReady ∨ st = ndRunning then failNode gr p j
        else whenM (st == ndIdle || st == ndDone) (readyNode gr p j)
      else pure ()
    decrements gr p js

/-- A RUNNING node ends (R149): DONE with its decrements, or FAILED. -/
def nodeEnds (gr j : Nat) (ok : Bool) : M Unit := do
  match ← gets (fun s => tabFind s.graphs gr) with
  | none => pure ()
  | some x =>
    if x.nodes.contains j then do
      let b ← readNode x.part j
      if ok then do
        let js ← successors x.part b
        let n ← gets (fun s => (s.part x.part).nodecnt)
        if js.any (fun k => decide (n ≤ k)) then failNode gr x.part j
        else do
          setNode x.part j ndDone
          decrements gr x.part js
          nodeLeaves gr j false
      else failNode gr x.part j
      graphEnd gr
    else pure ()

/-! ### The end of a launch (R25) -/

/-- A launch ends: its record is written, then its journal entry, and the node that issued it ends. -/
def launchEnds (id : Nat) (ok : Bool) (abcode : Nat) : M Unit := do
  match ← gets (fun s => tabFind s.launches id) with
  | none => pure ()
  | some l => do
    upd (.launch id none)
    completionRecord l.part (Packet.done l.packet)
      (recordBits (if ok then 1 else 2) 1 abcode l.seq l.paddr.toNat l.claim)
    journalStatus l.part l.seq (if ok then 3 else 4)
    match l.node with
    | some (gr, j) => nodeEnds gr j ok
    | none => pure ()

/-- Every gang has been placed and every hart has retired. -/
def Launch.finished (l : Launch) : Bool :=
  decide (l.live = 0) && l.resume.isEmpty && decide (Packet.gangs l.packet ≤ l.nextg)

/-- End a launch that has finished. -/
def launchTry (id : Nat) : M Unit := do
  match ← gets (fun s => tabFind s.launches id) with
  | some l => whenM l.finished (launchEnds id true 0)
  | none => pure ()

/-! ### Starting a graph (R334, R335) -/

/-- The line is malformed by what it says itself (R6, R334). -/
def lineMalformed (x : Part) (b : Bits) : Bool :=
  let n := bitsGet b 0 8
  let roots := (List.range n).map (fun k => bitsGet b (128 + 32 * k) 32)
  decide (n = 0) || decide (28 < n) || decide (bitsGet b 8 56 ≠ 0) || decide (bitsGet b 121 7 ≠ 0)
    || roots.any (fun j => decide (x.nodecnt ≤ j)) || decide (roots.dedup.length ≠ roots.length)
    || decide (bitsGet b 64 57 % 64 ≠ 0)

/-- The root nodes of a line. -/
def rootsOf (b : Bits) : List Nat := (List.range (bitsGet b 0 8)).map (fun k => bitsGet b (128 + 32 * k) 32)

/-- Some root's STATE is neither IDLE nor DONE. None when a walk fails. -/
def rootBusy (p : Nat) : List Nat → M (Option Bool)
  | [] => pure (some false)
  | j :: js => do
    match ← devRead p (nodeAddr (← gets (fun s => s.part p)) j + 1) 1 with
    | none => pure none
    | some st => if st = ndIdle ∨ st = ndDone then rootBusy p js else pure (some true)

/-- Graphs that the walker holds at once (R160). -/
def graphPlaces : Nat := 256

/-- Why a graph start of partition p is refused, if it is; the outer none says that a node could not be read. -/
def graphRefusal (p : Nat) (line : Bits) : M (Option (Option Nat)) := do
  let x ← gets (fun s => s.part p)
  if x.pause then pure (some (some pausedCode))
  else if lineMalformed x line then pure (some (some invalidCode))
  else
    match ← rootBusy p (rootsOf line) with
    | none => pure none
    | some true => pure (some (some invalidCode))
    | some false => do
      let n ← gets (fun s => s.graphs.length)
      pure (some (if graphPlaces ≤ n then some fullCode else none))

/-- Make the roots READY. False when a walk fails. -/
def readyRoots (p : Nat) : List Nat → M Bool
  | [] => pure true
  | j :: js => do
    let s ← getState
    let a := nodeAddr (s.part p) j
    if ← devWrite p (a + 1) 1 ndReady then
      if ← devWrite p (a + 56) 8 (s.cycle % 2 ^ 64) then readyRoots p js else pure false
    else pure false

/-- Start an accepted graph: the walker sets each root READY. False when a walk fails. -/
def graphStart (p q : Nat) (addr : Word) (seq : Nat) (line : Bits) : M Bool := do
  let roots := rootsOf line
  if ← readyRoots p roots then do
    let id ← freshId
    upd (.graph id (some { addr := addr, seq := seq, part := p, queue := q, gdone := BitVec.ofNat 64 (bitsGet line 64 57),
                           live := roots.length, fail := false, begun := false, nodes := roots, abandoned := false }))
    pure true
  else pure false

/-! ### Copy nodes (R148, R289, R290) -/

/-- The channel that a copy descriptor's 48 bytes describe, if no reserved value stands in it. -/
def copyChan (b : Bits) : Option Chan :=
  let w := bitsGet b 320 64
  let c : Chan := { Chan.reset with
    desc := Vector.ofFn (fun (k : Fin 5) => BitVec.ofNat 64 (bitsGet b (64 * k.val) 64))
    typ := BitVec.ofNat 8 w, mode := BitVec.ofNat 3 (w / 2 ^ 8), seed := BitVec.ofNat 32 (w / 2 ^ 32), active := true }
  if bitsGet w 11 21 ≠ 0 ∨ 5 < bitsGet w 8 3 ∨ codeValid c.typ = false ∨ c.bad then none else some c

/-- Every walk of a walker's access of n bytes at va succeeds. -/
def devReaches (s : State) (p : Nat) (acc : Acc) (va n : Nat) : Bool := (devLeaves s p acc (pagePieces va n)).isSome

/-- Land an element of a copy node. False at a fault; the partition errs when the dirty log is out of reach (R399). -/
def copyLand (p va n : Nat) (v : Bits) : M Bool := do
  if ← devWrite p va n v then pure true
  else
    let s ← getState
    if devReaches s p .store va n && !devReaches s p .store (s.part p).dlbase 16 then walkerError p else pure false

/-- Copy elements in ascending order. False at a fault. -/
def copyElems (p : Nat) (c : Chan) : Nat → Nat → M Bool
  | 0, _ => pure true
  | n + 1, k => do
    match ← devRead p (c.srcAddr k) c.es with
    | none => pure false
    | some x => do
      let rd := ({ mode := c.mode.toNat, seed := c.seed.toNat } : Mode).at k 0
      let y := if c.conv then (convert c.srcCode c.typ rd x).1 else memCode c.typ (x % 2 ^ codeWidth c.typ)
      if ← copyLand p (c.dstAddr k) c.ed y then copyElems p c n (k + 1) else pure false

/-! ### Starting a node (R149) -/

/-- A node begins to run: PREDCNT is reloaded, and a graph's first node marks its journal entry RUNNING (R131). -/
def nodeRuns (gr p j : Nat) (b : Bits) : M Unit := do
  setNode p j ndRunning
  writeNode p j 6 2 (ndInit b)
  match ← gets (fun s => tabFind s.graphs gr) with
  | some x =>
    if x.begun then pure ()
    else do
      modGraph gr (fun x => { x with begun := true })
      journalStatus p x.seq 2
  | none => pure ()

/-- Start a compute node: its packet arrives at its queue, or the node fails; so does one whose packet is not aligned or out of reach
(log entry 77, DESIGN CHOICE). -/
def startCompute (gr p j : Nat) (b : Bits) : M Unit := do
  let q := ndQueue b
  let s ← getState
  let pkt ← if ndPkt b % 128 = 0 then devRead p (ndPkt b) 128 else pure none
  match pkt with
  | none => failNode gr p j
  | some pkt =>
    let code := if bitAt (s.part p).queues q then (packetRefusal s p q pkt).map (fun c => c.1) else some deniedCode
    countArrival q (code.getD 0)
    match code with
    | some _ => failNode gr p j
    | none => do
      nodeRuns gr p j b
      enqueuePacket p q pkt (BitVec.ofNat 64 (ndPkt b)) 2 0 (some (gr, j))

/-- Start a copy node, which runs to its end in this step. -/
def startCopy (gr p j : Nat) (b : Bits) : M Unit := do
  match ← devRead p (ndPkt b) 48 with
  | none => failNode gr p j
  | some d =>
    match copyChan d with
    | none => failNode gr p j
    | some c => do
      nodeRuns gr p j b
      nodeEnds gr j (← copyElems p c c.count 0)

/-- The walker starts a READY node of a graph, unless QUIESCE has paused it (R239). A node of a reserved KIND fails (log entry 77,
DESIGN CHOICE). -/
def startNode (gr j : Nat) : M Unit := do
  match ← gets (fun s => tabFind s.graphs gr) with
  | none => pure ()
  | some x => do
    let part ← gets (fun s => s.part x.part)
    if x.nodes.contains j ∧ !x.abandoned ∧ !part.pause ∧ part.state = .run then do
      let b ← readNode x.part j
      if ndState b = ndReady then do
        match ndKind b with
        | 1 => startCompute gr x.part j b
        | 2 => startCopy gr x.part j b
        | _ => failNode gr x.part j
        graphEnd gr
      else pure ()
    else pure ()

end Sys2Proof.Machine
end

