-- ==== Sys2Proof/Machine/Front.lean ====
section
/-!
DEFINITION. Machine/Front.lean: the front end of a tower. Which gang it places and where (R17, R20, R115 to R118, R383), the
start of a gang (R21, R22), and suspending and restoring one (R31, R119, R343, R348).
-/
namespace Sys2Proof.Machine

/-! ### Where a gang goes (R20) -/

/-- Harts of a partition that stand placed on a tower. -/
def inUse (s : State) (p tower : Nat) : Nat :=
  (s.harts.filter (fun e => e.2.place.isSome && e.2.partid.toNat == p && towerOf e.1 == tower)).length

/-- The free harts of a core, those of some victims among them, ascending. -/
def freeHarts (s : State) (freed : List Nat) (c : Nat) : List Nat :=
  (coreHarts c).filter (fun g => (s.hart g).place.isNone || freed.contains g)

/-- The harts that successive cores give: HPC each, the last the remainder. -/
def chunks (n hpc : Nat) : List Nat := List.replicate (n / hpc) hpc ++ (if n % hpc = 0 then [] else [n % hpc])

/-- The first core of a list that is not taken and has n free harts. -/
def takeCore (free : Nat → List Nat) (taken : List Nat) (n : Nat) (cores : List Nat) : Option Nat :=
  cores.find? (fun c => !taken.contains c && decide (n ≤ (free c).length))

/-- Choose cores in ascending order (SPREAD = 0): the search for each begins again with the lowest core, so that a last core which
needs fewer free harts may lie below the others (log entry 82, DESIGN CHOICE). -/
def pickPacked (free : Nat → List Nat) (cores : List Nat) : List Nat → List Nat → Option (List Nat)
  | [], _ => some []
  | n :: ns, taken =>
    match takeCore free taken n cores with
    | none => none
    | some c => (pickPacked free cores ns (c :: taken)).map (fun cs => c :: cs)

/-- Choose one core on each tier in turn (SPREAD = 1): tiers still to visit in this round, chunks still to place. -/
def pickSpread (free : Nat → List Nat) (tiers : List (List Nat)) :
    Nat → List (List Nat) → List Nat → List Nat → Option (List Nat)
  | _, _, [], _ => some []
  | 0, _, _, _ => none
  | fuel + 1, [], n :: ns, taken =>
    if tiers.any (fun t => (takeCore free taken n t).isSome) then pickSpread free tiers fuel tiers (n :: ns) taken else none
  | fuel + 1, t :: ts, n :: ns, taken =>
    match takeCore free taken n t with
    | none => pickSpread free tiers fuel ts (n :: ns) taken
    | some c => (pickSpread free tiers fuel ts ns (c :: taken)).map (fun cs => c :: cs)

/-- Successive members that left one cluster, at most HPC together: the cluster and their number. -/
def clusterRuns (hpc : Nat) (left : List Nat) : List (Nat × Nat) :=
  (left.foldl (fun acc c =>
    match acc with
    | (k, n) :: rest => if k = c ∧ n < hpc then (k, n + 1) :: rest else (c, 1) :: acc
    | [] => [(c, 1)]) []).reverse

/-- Choose a core of the cluster that each run of members left (CLUSPIN = 1, R119). -/
def pickPinned (free : Nat → List Nat) (awake : Nat → Bool) (hpc : Nat) : List (Nat × Nat) → List Nat → Option (List Nat)
  | [], _ => some []
  | (k, n) :: rest, taken =>
    let cores := if awake k then range' (4 * k) 4 else []
    match takeCore free taken (if rest.isEmpty then n else hpc) cores with
    | none => none
    | some c => (pickPinned free awake hpc rest (c :: taken)).map (fun cs => c :: cs)

/-- The harts of some cores, so many of each. -/
def hartsOf (free : Nat → List Nat) : List Nat → List Nat → List Nat
  | c :: cs, n :: ns => (free c).take n ++ hartsOf free cs ns
  | _, _ => []

/-- The members of a suspended gang that are to be placed: those that have neither retired nor been lost. -/
def Susp.live (x : Susp) : List Nat :=
  (List.range x.slots.length).filter (fun i => !x.retired.contains i && !x.lost.contains i)

/-- A tier's cores may run: it is awake. -/
def tierAwake (s : State) (t : Nat) : Bool := (s.tier t).power == .awake

/-- The harts that a gang would take on a tower, in the order of its members: none when it does not fit (R20, R117). The cores of
tiers that are not awake count when asked for, and the harts of some victims as free. -/
def fit (s : State) (tower : Nat) (l : Launch) (g : Option Susp) (asleep : Bool) (freed : List Nat) : Option (List Nat) :=
  let x := s.part l.part
  let pkt := l.packet
  let hpc := Packet.hpc pkt
  let n := match g with
    | some y => y.live.length
    | none => Packet.hpg pkt
  let quota := if tower = 0 then x.quota0 else x.quota1
  let awake := fun c => asleep || tierAwake s (c / 4)
  let free := freeHarts s freed
  if quota + freed.length < inUse s l.part tower + Packet.hpg pkt then none
  else
    match g, Packet.cluspin pkt with
    | some y, true =>
      let runs := clusterRuns hpc (y.live.map (fun i => y.clusters.getD i 0))
      (pickPinned free awake hpc runs []).map (fun cs => hartsOf free cs (runs.map (fun r => r.2)))
    | _, _ =>
      let cls := (x.clustersOn (Packet.tiers pkt) tower).filter awake
      let cores := cls.flatMap (fun c => range' (4 * c) 4)
      let ns := chunks n hpc
      let byTier := ((cls.map (fun c => c / 4)).dedup).map (fun t => cores.filter (fun c => c / 16 == t))
      let cs := if Packet.spread pkt then pickSpread free byTier (16 * (ns.length + 2)) byTier ns []
                else pickPacked free cores ns []
      cs.map (fun cs => hartsOf free cs ns)

/-! ### Which gang is next (R115 to R117) -/

/-- A gang that a queue would place next: launch, suspended gang if it is one, and the keys of R117. -/
structure Cand where
  q      : Nat
  id     : Nat
  l      : Launch
  g      : Option Susp
  urgent : Bool
  key    : List Nat
  deriving DecidableEq, Repr

/-- The oldest suspended gang of a launch that has lost no member (log entry 15, DEDUCED). -/
def Launch.oldest (l : Launch) : Option Susp := l.resume.find? (fun x => x.lost.isEmpty)

/-- The next gang of a queue: of the resume list's first launch, else of the head packet. -/
def nextGang (s : State) (q : Queue) : Option (Nat × Launch × Option Susp) :=
  let back := q.resume.findSome? (fun id =>
    (tabFind s.launches id).bind (fun l => l.oldest.map (fun g => (id, l, some g))))
  match back with
  | some x => some x
  | none =>
    match q.pkts with
    | [] => none
    | id :: _ =>
      match tabFind s.launches id with
      | none => none
      | some l =>
        match l.oldest with
        | some g => some (id, l, some g)
        | none => if l.nextg < Packet.gangs l.packet then some (id, l, none) else none

/-- Numbers from after a last winner on, wrapping at 64. -/
def afterLast (last k : Nat) : Nat := (k + 127 - last) % 64

/-- The tower is one where the gang may go, under TOWER and TIERS (R117): for a gang pinned to its clusters, where they are. -/
def mayGo (x : Part) (tower : Nat) (l : Launch) (g : Option Susp) : Bool :=
  (Packet.towers l.packet).contains tower && !(x.clustersOn (Packet.tiers l.packet) tower).isEmpty &&
  (match g, Packet.cluspin l.packet with
   | some y, true => y.live.all (fun i => y.clusters.getD i 0 / 48 == tower)
   | _, _ => true)

/-- A queue's candidate on a tower: it competes from the cycle after its ready cycle. -/
def candidate (s : State) (p tower q : Nat) : Option Cand :=
  let x := s.queue q
  match x.ready, nextGang s x with
  | some c, some (id, l, g) =>
    if c < s.cycle ∧ queueReady (s.part p) x ∧ mayGo (s.part p) tower l g then
      let last := if tower = 0 then (s.part p).last0 else (s.part p).last1
      let first := match x.urgent with
        | some u => [0, u]
        | none => [1, 0]
      some { q := q, id := id, l := l, g := g, urgent := x.urgent.isSome,
             key := first ++ [16 - (Packet.prio l.packet + x.step), c, afterLast last q] }
    else none
  | _, _ => none

/-- Insert a candidate in the order of R117. -/
def insertCand (c : Cand) : List Cand → List Cand
  | [] => [c]
  | d :: ds => if decide (d.key < c.key) then d :: insertCand c ds else c :: d :: ds

/-- The candidates of a partition on a tower, in the order of R117. -/
def candidates (s : State) (p tower : Nat) : List Cand :=
  ((s.part p).queueList.filterMap (candidate s p tower)).foldl (fun l c => insertCand c l) []

/-- What a partition's turn would do on a tower: place a gang, begin the wake of tiers, make room for an urgent gang. -/
structure Plan where
  place : Option (Cand × List Nat)
  wakes : List Nat
  room  : Option Cand
  deriving DecidableEq, Repr

/-- The gang fits on some tower it may go to, on tiers that are awake. -/
def fitsSomewhere (s : State) (c : Cand) : Bool :=
  [0, 1].any (fun t => mayGo (s.part c.l.part) t c.l c.g && (fit s t c.l c.g false []).isSome)

/-- Go through the candidates in order (R117, R118). A gang for either tower goes to tower 0 when it fits there (R20); one that
fits only with the cores of a sleeping tier begins its wake and waits (R383); of urgent queues only the first counts. -/
def planFor (s : State) (tower : Nat) : List Cand → Plan
  | [] => { place := none, wakes := [], room := none }
  | c :: cs =>
    let other := tower == 1 && mayGo (s.part c.l.part) 0 c.l c.g && (fit s 0 c.l c.g false []).isSome
    let stop : Plan := { place := none, wakes := [], room := none }
    let next := if c.urgent then stop else planFor s tower cs
    if other then next
    else
      match fit s tower c.l c.g false [] with
      | some hs => { place := some (c, hs), wakes := [], room := none }
      | none =>
        if fitsSomewhere s c then next
        else
          match fit s tower c.l c.g true [] with
          | some hs => { next with wakes := next.wakes ++ ((hs.map tierOf).dedup.filter (fun t => !tierAwake s t)) }
          | none => if c.urgent then { stop with room := some c } else next

/-! ### Freeing a hart -/

/-- A hart's slot is free: its record goes back to reset, but for VCFG, which nothing but VCFG, RSTCTX and a start changes (R62, R78);
and its tier is idle from now if it was the last one there (R383). -/
def freeHart (g : Nat) : M Unit := do
  modHart g (fun h => { Hart.reset with vcfg := h.vcfg })
  let s ← getState
  let t := tierOf g
  whenM (s.harts.all (fun e => e.2.place.isNone || tierOf e.1 != t)) (modTier t (fun x => { x with idleFrom := s.cycle }))

/-! ### The slot map and the suspended-gang records (R348) -/

/-- Where the slot map lies. -/
def mapAddr (x : Part) : Nat := x.ctxbase + 0x2E4080
/-- Where image slot k lies. -/
def slotAddr (x : Part) (k : Nat) : Nat := x.ctxbase + 0x400000 + k * 0x1000000
/-- Where a suspended-gang record lies. -/
def suspAddr (x : Part) (r : Nat) : Nat := x.ctxbase + 0x1E4080 + 256 * r
/-- No slot, no record. -/
def noIndex : Nat := 0xFFFF

/-- The slot map. -/
def readMap (p : Nat) : M Bits := do
  match ← devRead p (mapAddr (← gets (fun s => s.part p))) 512 with
  | some b => pure b
  | none => walkerError p

/-- Write a structure of the save area. -/
def writeArea (p va n : Nat) (v : Bits) : M Unit := do
  if ← devWrite p va n v then pure () else walkerError p

/-- The free image slots, ascending. -/
def freeSlots (x : Part) (map : Bits) : List Nat := (List.range x.ctxcap).filter (fun k => !bitAt map k)

/-- The launches of a partition. -/
def launchesOf (s : State) (p : Nat) : List (Nat × Launch) := s.launches.filter (fun e => e.2.part == p)

/-- The lowest suspended-gang record that no suspended gang of the partition holds. -/
def freeRecord (s : State) (p : Nat) : Nat :=
  let used := (launchesOf s p).flatMap (fun e => e.2.resume.map (fun x => x.rec'))
  ((List.range 4096).find? (fun k => !used.contains k)).getD 4095

/-- A suspended-gang record's bytes, with the record of the gang suspended next. -/
def suspBits (x : Susp) (next : Nat) : Bits :=
  x.gang % 2 ^ 24 + next * 2 ^ 32 + x.slots.length * 2 ^ 48
    + packBytes (x.slots.map (fun k => (k, 2))) * 2 ^ 64

/-- The record that follows each of a launch's suspended gangs. -/
def nextRecords : List Susp → List (Susp × Nat)
  | [] => []
  | [x] => [(x, noIndex)]
  | x :: y :: rest => (x, y.rec') :: nextRecords (y :: rest)

/-- Write the records of a launch's suspended gangs. -/
def writeSusps (p : Nat) (l : Launch) : M Unit := do
  let x ← gets (fun s => s.part p)
  eachM (nextRecords l.resume) (fun e => writeArea p (suspAddr x e.1.rec') 256 (suspBits e.1 e.2))

/-! ### Suspending a gang (R119, R343) -/

/-- The members of a gang that are to be saved: index and hart. -/
def Gang.saved (x : Gang) : List (Nat × Nat) :=
  ((List.range x.members.length).filter (fun i => !x.retired.contains i && !x.lost.contains i)).map
    (fun i => (i, x.members.getD i 0))

/-- The items that a member's streams hold for it, which its image does not. -/
def Gang.keptItems (x : Gang) (me : Nat) : List KeptItem :=
  x.streams.filterMap (fun t => if t.cons = me then t.item.map (fun i => (t.vd % detached, i)) else none)

/-- What a suspended hart keeps beside its image. -/
def Hart.hidden (h : Hart) (x : Gang) : Hidden :=
  { sup := h.sup, status := h.status, erets := h.erets, resumePc := h.resumePc, tvec := h.tvec, vqHeld := h.vqHeld,
    vsWritten := h.vsWritten, bpSkip := h.bpSkip, stoppedAt := h.stoppedAt, capNow := h.capNow,
    cfgPcs := h.chans.toList.map (fun c => c.cfgPc), remote := h.remote, trip := h.lp.trip
    items := x.keptItems h.index, sRet := x.sRet, tens := h.vq.map (fun e => e.ten)
    fault := match h.hstop with
      | .faultWait t => some (t, none)
      | _ => none }

/-- Write the images of some members into image slots, lowest first, and note what the images leave out. -/
def saveMembers (p : Nat) (x : Gang) : List (Nat × Nat) → List Nat → M Unit
  | (_, g) :: ms, k :: ks => do
    let s ← getState
    let h := s.hart g
    let im := imageFrom s g { h with resumePc := h.pc }
    writeArea p (slotAddr (s.part p) k) im.length im.bits
    modPart p (fun y => { y with hidden := tabPut y.hidden k (h.hidden x) }.renamed g (some (Config.numHarts + k)))
    saveMembers p x ms ks
  | _, _ => pure ()

/-- The suspended gang that a placed one becomes, given the slots of its saved members. -/
def Gang.suspended (x : Gang) (rec' : Nat) (slots : List Nat) : Susp :=
  let saved := x.saved.map (fun e => e.1)
  { gang := x.index, rec' := rec'
    slots := (List.range x.members.length).map (fun i =>
      match saved.findIdx? (fun j => j == i) with
      | some k => slots.getD k noIndex
      | none => noIndex)
    clusters := x.members.map clusterOf, retired := x.retired, lost := x.lost, sRet := x.sRet }

/-- A barrier write of a gang is queued, or is transmitted and not yet taken by every tier. -/
def barrierQueued (s : State) (gg : Nat) : Bool :=
  let names (w : BWrite) : Bool := w.what.gang == some gg
  s.tiers.any (fun e => e.2.tx.any (fun q => q.2.any names)) || s.towers.any (fun e => e.2.sent.any (fun x => names x.2))

/-- Everything the members have queued or posted takes its effect first, and their registers are filled: their images have no place for
it. Their clusters' dirty bytes pass home, so that what they have stored is performed wherever they go on (R25). -/
def settleGang (gg : Nat) (x : Gang) : M Unit := do
  let waits (s : State) : Bool := barrierQueued s gg || x.saved.any (fun e => decide ((s.hart e.2).bstQueued ≠ 0))
  whenM (← gets waits) (eachM ((x.members.map towerOf).dedup) (fun t => cicadaDrive t Config.txDepth))
  if ← gets waits then halt
  else do
    eachM x.saved (fun e => drainPosted e.2)
    eachM x.saved (fun e => do
      let _ ← fillRegs e.2)
    eachM ((x.saved.map (fun e => clusterOf e.2)).dedup) mergeCluster

/-- Suspend a placed gang, with room for the images of those that are saved. -/
def suspendGang (gg : Nat) : M Unit := do
  match ← gets (fun s => tabFind s.gangs gg) with
  | none => pure ()
  | some x => do
    settleGang gg x
    let s ← getState
    match tabFind s.gangs gg, tabFind s.launches x.launch with
    | some x, some l => do
      let p := l.part
      let map ← readMap p
      let slots := (freeSlots (← gets (fun s => s.part p)) map).take x.saved.length
      eachM x.saved (fun e => stopHart e.2)
      saveMembers p x x.saved slots
      let y ← gets (fun s => x.suspended (freeRecord s p) slots)
      writeArea p (mapAddr (← gets (fun s => s.part p))) 512 (slots.foldl (fun b k => bitPut b k true) map)
      let l' := { l with resume := l.resume ++ [y] }
      writeSusps p l'
      upd (.launch x.launch (some l'))
      upd (.gang gg none)
      eachM x.saved (fun e => freeHart e.2)
      whenM (!l.queued) (modQueue l.queue (fun q =>
        if q.resume.contains x.launch then q else { q with resume := q.resume ++ [x.launch] }))
      refreshPart p
    | _, _ => pure ()

/-! ### Restoring a gang (R119, R346) -/

/-- The hart that an image and what stands beside it describe, placed as a member. -/
def restored (x : Part) (im : Image) (hid : Option Hidden) (place : Place) : Hart :=
  let h := { im.h with place := some place, pc := im.h.resumePc }
  match hid with
  | some y =>
    { h with
      sup := y.sup, status := y.status, erets := y.erets, resumePc := y.resumePc, tvec := y.tvec, vqHeld := y.vqHeld
      vsWritten := y.vsWritten, bpSkip := y.bpSkip, stoppedAt := y.stoppedAt, capNow := y.capNow, remote := y.remote
      lp := { h.lp with trip := y.trip }
      vq := h.vq.zipIdx.map (fun e => { e.1 with ten := y.tens.getD e.2 e.1.ten })
      hstop := match y.fault with
        | some (t, none) => .faultWait t
        | _ => .run
      chans := Vector.ofFn (fun k => { h.chan k.val with cfgPc := y.cfgPcs.getD k.val 0 }) }
  | none =>
    { h with
      sup := h.status.extractLsb' 0 1 == 1#1, tvec := x.tvbase, vsWritten := h.vq.isEmpty && h.vstart != 0
      stoppedAt := !h.vq.isEmpty
      lp := { h.lp with trip := if h.tripOpen h.pc then .atPc else .no } }

/-- The image in a slot of the save area. -/
def readImage (p k : Nat) : M Image := do
  let a := slotAddr (← gets (fun s => s.part p)) k
  match ← devRead p a 16 with
  | none => walkerError p
  | some hd =>
    let n := bitsGet hd 64 64
    if n < 0x2000 ∨ 0x1000000 < n then walkerError p
    else
      match ← devRead p a n with
      | none => walkerError p
      | some b =>
        match imageOf b with
        | some im => pure im
        | none => walkerError p

/-- Read the images of some slots. -/
def readImages (p : Nat) : List Nat → M (List Image)
  | [] => pure []
  | k :: ks => do
    let im ← readImage p k
    let ims ← readImages p ks
    pure (im :: ims)

/-- The gang that a suspended one becomes on some harts, its barrier as its images hold it. -/
def Susp.gangOn (y : Susp) (launch cycle : Nat) (urgent : Bool) (ms : List (Nat × Nat)) (word : Word) (arr : Nat) : Gang :=
  { launch := launch, index := y.gang
    members := (List.range y.slots.length).map (fun i =>
      match ms.find? (fun e => e.1 == i) with
      | some e => e.2
      | none => (ms.map (fun e => e.2)).headD 0)
    retired := y.retired, lost := y.lost, placed := cycle, urgent := urgent
    size := word.extractLsb' 0 7, arr := BitVec.ofNat 7 arr, epoch := word.extractLsb' 16 16, st := word.extractLsb' 62 2
    streams := [], sRet := y.sRet }

/-- A hart that takes over a slot grows its core's register-file partition: the L1 drains and empties (R78). -/
def banksOver (g old : Nat) : M Unit := do
  if ← gets (fun s => decide (old < coreBanksWith s g (s.hart g).banks)) then do
    let _ ← flushCore g
    modCore (coreOf g) (fun k => { k with l1 := [] })
  else pure ()

/-- Put a hart's record into its slot. -/
def fillSlot (g : Nat) (h : Hart) : M Unit := do
  let old ← gets (fun s => coreBanksWith s g (s.hart g).banks)
  putHart g h
  banksOver g old

/-- Put restored members on their harts: one whose fault record found room while it was suspended takes its trap (R127). -/
def putMembers (p launch gg : Nat) : List (Nat × Nat) → List Nat → List Image → M Unit
  | (i, g) :: ms, k :: ks, im :: ims => do
    let s ← getState
    let x := s.part p
    let hid := tabFind x.hidden k
    fillSlot g (restored x im hid { launch := launch, gang := gg, index := i, since := s.cycle })
    modPart p (fun x => x.renamed (Config.numHarts + k) (some g))
    match hid.bind (fun y => y.fault) with
    | some (t, some va) => deliverTrap g t va
    | _ => pure ()
    putMembers p launch gg ms ks ims
  | _, _, _ => pure ()

/-- A hart starts or is restored: an acquire at .sys over both its sides (R173). -/
def acquireStart (g : Nat) : M Unit := acquireAt g 6 true

/-- Place a suspended gang on some harts. -/
def restoreGang (id : Nat) (l : Launch) (y : Susp) (urgent : Bool) (hs : List Nat) : M Unit := do
  let p := l.part
  let ms := y.live.zip hs
  let slots := y.live.map (fun i => y.slots.getD i noIndex)
  let ims ← readImages p slots
  let map ← readMap p
  let word := (ims.map (fun im => im.gbar)).headD 0
  let arr := (ims.filter (fun im => im.h.arrived)).length
  let gg ← freshId
  let cycle ← gets (fun s => s.cycle)
  upd (.gang gg (some (y.gangOn id cycle urgent ms word arr).withViews))
  putMembers p id gg ms slots ims
  let hid ← gets (fun s => (s.part p).hidden)
  eachM ((ms.zip ims).zip slots) (fun e =>
    attachHalves e.1.1.2 e.1.2 (((tabFind hid e.2).map (fun y => y.items)).getD []))
  eachM hs acquireStart
  writeArea p (mapAddr (← gets (fun s => s.part p))) 512 (slots.foldl (fun b k => bitPut b k false) map)
  modPart p (fun x => { x with hidden := x.hidden.filter (fun e => !slots.contains e.1) })
  let l' := { l with resume := l.resume.filter (fun z => z != y) }
  upd (.launch id (some l'))
  writeSusps p l'
  whenM l'.resume.isEmpty (modQueue l.queue (fun q => { q with resume := q.resume.filter (fun k => k != id) }))

/-! ### Starting a gang (R21, R22) -/

/-- The share of gang k: first element and count. -/
def shareOf (pkt : Bits) (k : Nat) : Nat × Nat :=
  if Packet.claim pkt then (0, 0)
  else
    let n := Packet.total pkt
    let size := roundUp (ceilDiv n (Packet.gangs pkt)) (Packet.grain pkt)
    let a := min (k * size) n
    (a, min size (n - a))

/-- VLCAP of a starting hart. -/
def startCap (x : Part) : Word := if x.lvlcap = 0 then 65536 else capRound (BitVec.ofNat 64 x.lvlcap)

/-- The x registers at entry, for member i of gang k. -/
def entryX (l : Launch) (k i : Nat) : List Word :=
  let pkt := l.packet
  let g := k * Packet.hpg pkt + i
  let w := BitVec.ofNat 64
  let (a, n) := shareOf pkt k
  [0, 0, w (Packet.stkBase pkt + (g + 1) * Packet.stkSize pkt), l.paddr, w i, w (Packet.hpg pkt), w k, w (Packet.gangs pkt),
   0, 0, w a, w n] ++ (List.range 12).map (Packet.arg pkt)

/-- A hart at entry, for member i of gang k of a launch. -/
def entryHart (x : Part) (l : Launch) (place : Place) (k : Nat) : Hart :=
  { Hart.reset with
    x := vecOf 32 0 (entryX l k place.index)
    pc := BitVec.ofNat 64 (Packet.entry l.packet)
    ptroot := x.proot
    tvec := x.tvbase
    vlcap := startCap x
    capNow := (startCap x).toNat
    fwdlim := x.fwdlim
    partid := BitVec.ofNat 6 l.part
    place := some place }

/-- Put the members of a starting gang on their harts, the first being member i. -/
def startMembers (id gg k : Nat) (l : Launch) : Nat → List Nat → M Unit
  | _, [] => pure ()
  | i, g :: gs => do
    let s ← getState
    fillSlot g (entryHart (s.part l.part) l { launch := id, gang := gg, index := i, since := s.cycle } k)
    startMembers id gg k l (i + 1) gs

/-- Start the next gang of a launch on some harts. -/
def startGang (id : Nat) (l : Launch) (urgent : Bool) (hs : List Nat) : M Unit := do
  let gg ← freshId
  let cycle ← gets (fun s => s.cycle)
  upd (.gang gg (some (Gang.withViews {
    launch := id, index := l.nextg, members := hs, retired := [], lost := [], placed := cycle, urgent := urgent
    size := BitVec.ofNat 7 hs.length, arr := 0, epoch := 0, st := 1, streams := [], sRet := [] })))
  startMembers id gg l.nextg l 0 hs
  eachM hs (fun g => do
    layAnew g
    acquireStart g)
  upd (.launch id (some { l with nextg := l.nextg + 1, live := l.live + hs.length }))
  whenM (l.nextg == 0) (journalStatus l.part l.seq 2)

/-! ### One cycle of a front end (R117) -/

/-- A packet leaves its queue when it has no suspended gang and none to place (R115). -/
def leaveQueue (id : Nat) : M Unit := do
  match ← gets (fun s => tabFind s.launches id) with
  | none => pure ()
  | some l =>
    if l.queued ∧ l.resume.isEmpty ∧ Packet.gangs l.packet ≤ l.nextg then do
      upd (.launch id (some { l with queued := false }))
      modQueue l.queue (fun q => { q with pkts := q.pkts.filter (fun k => k != id) })
    else pure ()

/-- Place a chosen gang: its queue's aging restarts, and the queue and the partition become the last winners. -/
def placeChosen (tower : Nat) (c : Cand) (hs : List Nat) : M Unit := do
  match c.g with
  | some y => restoreGang c.id c.l y c.urgent hs
  | none => startGang c.id c.l c.urgent hs
  leaveQueue c.id
  let cycle ← gets (fun s => s.cycle)
  modQueue c.q (fun q => { q with step := 0, ageAt := cycle, urgent := none })
  modPart c.l.part (fun x => if tower = 0 then { x with last0 := c.q } else { x with last1 := c.q })
  modTower tower (fun x => { x with lastPart := c.l.part })
  refreshPart c.l.part

/-- The gangs of a partition with harts on a tower that may be victims: of no lost member, in the order of R118. -/
def victims (s : State) (p tower : Nat) : List (Nat × Gang) :=
  let key (x : Gang) : List Nat :=
    [if x.urgent ∧ s.cycle < x.placed + agingCycles then 1 else 0,
     ((tabFind s.launches x.launch).map (fun l => Packet.prio l.packet)).getD 0, s.cycle - x.placed]
  let mine := s.gangs.filter (fun e =>
    ((tabFind s.launches e.2.launch).map (fun l => l.part)) == some p && e.2.lost.isEmpty
      && e.2.saved.any (fun m => towerOf m.2 == tower))
  mine.foldl (fun l e =>
    let (before, after) := l.partition (fun d => decide (key d.2 < key e.2))
    before ++ e :: after) []

/-- Victims one at a time until the urgent gang fits, as far as image slots are free for all their members. -/
def chooseVictims (s : State) (tower : Nat) (c : Cand) : Nat → List Nat → List (Nat × Gang) → List Nat
  | _, _, [] => []
  | slots, freed, (gg, x) :: rest =>
    if (fit s tower c.l c.g true freed).isSome then []
    else if slots < x.saved.length then chooseVictims s tower c slots freed rest
    else gg :: chooseVictims s tower c (slots - x.saved.length) (freed ++ x.saved.map (fun e => e.2)) rest

/-- Make room for an urgent gang, if the partition's own harts can (R118). -/
def makeRoom (tower : Nat) (c : Cand) : M Unit := do
  let map ← readMap c.l.part
  let s ← getState
  let chosen := chooseVictims s tower c (freeSlots (s.part c.l.part) map).length [] (victims s c.l.part tower)
  let freed := chosen.flatMap (fun gg => ((tabFind s.gangs gg).map (fun x => x.saved.map (fun e => e.2))).getD [])
  whenM (fit s tower c.l c.g true freed).isSome (eachM chosen suspendGang)

/-- One cycle of a tower's front end (R117, R118). -/
def placeOne (tower : Nat) : M Unit := do
  let ps ← gets runningParts
  eachM ps agePart
  let s ← getState
  let plans := ps.map (fun p => (p, planFor s tower (candidates s p tower)))
  eachM (plans.flatMap (fun e => e.2.wakes)) wake
  let last := (s.tower tower).lastPart
  let turns := (plans.filterMap (fun e => e.2.place.map (fun c => (afterLast last e.1, c))))
  match turns.foldl (fun b e => match b with
    | some d => if e.1 < d.1 then some e else b
    | none => some e) none with
  | some (_, c, hs) => placeChosen tower c hs
  | none => pure ()
  eachM (plans.filterMap (fun e => e.2.room)) (makeRoom tower)

end Sys2Proof.Machine
end

