-- ==== Sys2Proof/Machine/SaveArea.lean ====
section
/-!
DEFINITION. Machine/SaveArea.lean: the launch-queue state in the context save area (R132, R348): written at QUIESCE and STOP,
read back at RESUME; and the suspension of every gang of a partition.
-/
namespace Sys2Proof.Machine

/-! ### Suspending every gang of a partition (R132, R151) -/

/-- The placed gangs of a partition, one apart if so asked. -/
def gangsOf (s : State) (p : Nat) (but : Option Nat) : List (Nat × Gang) :=
  s.gangs.filter (fun e =>
    ((tabFind s.launches e.2.launch).map (fun l => l.part)) == some p && some e.1 != but)

/-- The partition's save area has image slots for every member of its placed gangs. -/
def roomForAll (p : Nat) (but : Option Nat) : M Bool := do
  let map ← readMap p
  gets (fun s => decide (((gangsOf s p but).map (fun e => e.2.saved.length)).sum ≤ (freeSlots (s.part p) map).length))

/-- Suspend them. -/
def suspendAll (p : Nat) (but : Option Nat) : M Unit := do
  let gs ← gets (fun s => gangsOf s p but)
  eachM gs (fun e => suspendGang e.1)

/-- Every broadcast write queued by the partition's tiers is transmitted, and applied at every awake tier (R239 step 4). -/
def broadcastsDone (s : State) (p : Nat) : Bool :=
  let tiers := ((List.range 96).filter (fun c => bitAt (s.part p).clusters c)).map (fun c => c / 4)
  tiers.all (fun t =>
    (tabGet [] (s.tier t).tx p).isEmpty
      && (towerTiers (t / 12)).all (fun k => !tierAwake s k || (s.tier k).replica != .current
            || (s.tower (t / 12)).seq == (s.tier k).applied))

/-- The order moves of itself until then, while nothing else says what moves. -/
def drainBroadcasts (p : Nat) : M Unit := do
  let s ← getState
  if broadcastsDone s p then pure ()
  else do
    whenM s.sched.isEmpty (eachM [0, 1] (fun t => cicadaDrive t Config.txDepth))
    if ← gets (fun s => broadcastsDone s p) then pure () else halt

/-! ### Writing the state region (R348) -/

/-- A launch record. -/
def launchRecord (l : Launch) (nextRes : Nat) : Bits :=
  l.packet % 2 ^ 1024
    + fieldBits [(128, 8, l.paddr.toNat), (136, 1, l.src), (137, 1, l.queue + 128 * bit l.queued), (138, 2, nextRes),
        (140, 4, l.nextg), (144, 8, l.seq), (152, 8, l.claim), (160, 4, l.live),
        (164, 2, (l.resume.head?.map (fun y => y.rec')).getD noIndex), (166, 2, l.resume.length)]

/-- The launch that follows in its queue's resume list. -/
def nextInResume (s : State) (ids : List Nat) (id : Nat) (l : Launch) : Nat :=
  let list := (s.queue l.queue).resume
  match list.findIdx? (fun k => k == id) with
  | some i => (ids.findIdx? (fun k => some k == list[i + 1]?)).getD noIndex
  | none => noIndex

/-- A queue record. -/
def queueRecord (ids : List Nat) (q : Queue) : Bits :=
  let at' (id : Nat) : Nat := (ids.findIdx? (fun k => k == id)).getD noIndex
  fieldBits [(0, 2, q.pkts.length), (66, 2, (q.resume.head?.map at').getD noIndex)]
    + packBytes (q.pkts.map (fun id => (at' id, 2))) * 2 ^ 16

/-- A graph record. -/
def graphRecord (x : Graph) : Bits := fieldBits [(0, 8, x.addr.toNat), (8, 8, x.gdone.toNat), (16, 4, x.live)]

/-- The region's header. -/
def regionHeader (x : Part) (launches graphs : Nat) : Bits :=
  fieldBits [(0, 4, 0x49585331), (4, 2, 1), (6, 1, 1), (8, 4, launches), (12, 2, graphs), (14, 1, x.last0), (15, 1, x.last1),
    (16, 2, x.ctxcap)]

/-- Write the header, the queue, launch and graph records, and set VALID. -/
def writeRegion (p : Nat) : M Unit := do
  let s ← getState
  let x := s.part p
  let ls := launchesOf s p
  let ids := ls.map (fun e => e.1)
  let graphs := s.graphs.filter (fun e => e.2.part == p)
  writeArea p (x.ctxbase + 0x80) 8192
    (packBytes ((List.range 64).map (fun q =>
      (if bitAt x.queues q then queueRecord ids (s.queue q) else fieldBits [(66, 2, noIndex)], 128))))
  eachM (ls.zipIdx) (fun e =>
    writeArea p (x.ctxbase + 0x2080 + 256 * e.2) 256 (launchRecord e.1.2 (nextInResume s ids e.1.1 e.1.2)))
  eachM ls (fun e => writeSusps p e.2)
  eachM (graphs.zipIdx) (fun e => writeArea p (x.ctxbase + 0x1E2080 + 32 * e.2) 32 (graphRecord e.1.2))
  writeArea p x.ctxbase 128 (regionHeader x ls.length graphs.length)
  whenM (x.stood != ids) (modPart p (fun x => { x with stood := ids }))

/-! ### Reading it back (R132, R348) -/

/-- A chain of records by their next indices, at most so many. -/
def chain (next : Nat → Option Nat) : Nat → Nat → Option (List Nat)
  | 0, _ => none
  | n + 1, k =>
    if k = noIndex then some []
    else
      match next k with
      | none => none
      | some j => (chain next n j).map (fun ks => k :: ks)

/-- Every item of a list of options. -/
def allSome {α : Type} : List (Option α) → Option (List α)
  | [] => some []
  | none :: _ => none
  | some x :: xs => (allSome xs).map (fun ys => x :: ys)

/-- A byte string within the region: offset, bytes. -/
def cutBytes (b : Bits) (off n : Nat) : Bits := bitsGet b (8 * off) (8 * n)

/-- The suspended gang of a record. The images give the cluster each member left, and whether the barrier is BROKEN: then
the members without an image are lost, else they have retired; the sizes of the retired stand beside the images (R18, log entry 10). -/
def suspOf (x : Part) (map r : Bits) (k : Nat) (left : Nat → Nat × Bool) : Option Susp :=
  let n := cutBytes r 6 1
  let slots := (List.range n).map (fun i => cutBytes r (8 + 2 * i) 2)
  let gone := (List.range n).filter (fun i => slots.getD i noIndex == noIndex)
  if n = 0 ∨ 64 < n ∨ slots.any (fun q => q != noIndex && (decide (x.ctxcap ≤ q) || !bitAt map q)) then none
  else
    some { gang := cutBytes r 0 3, rec' := k, slots := slots
           clusters := slots.map (fun q => if q = noIndex then 0 else (left q).1)
           retired := if slots.any (fun q => (left q).2) then [] else gone
           lost := if slots.any (fun q => (left q).2) then gone else []
           sRet := ((slots.findSome? (fun q => tabFind x.hidden q)).map (fun y => y.sRet)).getD [] }

/-- A launch from its record: none when it is malformed. -/
def launchOf (p : Nat) (x : Part) (r : Bits) (ys : List Susp) : Option Launch :=
  let q := cutBytes r 137 1
  let l : Launch :=
    { packet := cutBytes r 0 128, paddr := BitVec.ofNat 64 (cutBytes r 128 8), src := cutBytes r 136 1, seq := cutBytes r 144 8
      part := p, queue := q % 64, queued := q.testBit 7, nextg := cutBytes r 140 3, resume := ys
      claim := cutBytes r 152 8, live := (ys.map (fun y => y.live.length)).sum, node := none }
  if !bitAt x.queues (q % 64) ∨ 2 < l.src ∨ cutBytes r 166 2 ≠ ys.length ∨ Packet.gangs l.packet < l.nextg then none
  else some l

/-- What a region holds: launches by index, the packets and the resume list of each queue, the graphs. -/
structure Region348 where
  launches : List Launch
  queues   : List (List Nat × List Nat)
  graphs   : List (Nat × Nat × Nat)
  last0    : Nat
  last1    : Nat
  deriving DecidableEq, Repr

/-- The header names a region that may be loaded. -/
def headerLoads (x : Part) (b : Bits) : Bool :=
  decide (cutBytes b 0 4 = 0x49585331) && decide (cutBytes b 4 2 = 1) && decide (cutBytes b 6 1 = 1)
    && decide (cutBytes b 8 4 ≤ 7680) && decide (cutBytes b 12 2 ≤ 256) && decide (cutBytes b 14 1 < 64)
    && decide (cutBytes b 15 1 < 64) && decide (cutBytes b 16 2 = x.ctxcap)

/-- The region's records: none when one is malformed. What the images say comes beside it. -/
def regionOf348 (p : Nat) (x : Part) (b : Bits) (left : Nat → Nat × Bool) : Option Region348 :=
  let n := cutBytes b 8 4
  let lrec (k : Nat) : Bits := cutBytes b (0x2080 + 256 * k) 256
  let srec (k : Nat) : Bits := cutBytes b (0x1E4080 + 256 * k) 256
  let qrec (q : Nat) : Bits := cutBytes b (0x80 + 128 * q) 128
  let map := cutBytes b 0x2E4080 512
  let susps (k : Nat) : Option (List Susp) :=
    (chain (fun k => if k < 4096 then some (cutBytes (srec k) 4 2) else none) 4097 (cutBytes (lrec k) 164 2)).bind
      (fun ks => allSome (ks.map (fun k => suspOf x map (srec k) k left)))
  let one (k : Nat) : Option Launch := (susps k).bind (fun ys => launchOf p x (lrec k) ys)
  let queue (q : Nat) : Option (List Nat × List Nat) :=
    let m := cutBytes (qrec q) 0 2
    let pkts := (List.range (min m 32)).map (fun k => cutBytes (qrec q) (2 + 2 * k) 2)
    let first := cutBytes (qrec q) 66 2
    if 32 < m ∨ pkts.any (fun k => decide (n ≤ k)) ∨ ((!bitAt x.queues q) ∧ (m ≠ 0 ∨ first ≠ noIndex)) then none
    else (chain (fun k => if k < n then some (cutBytes (lrec k) 138 2) else none) (n + 1) first).map (fun r => (pkts, r))
  if headerLoads x b then
    match allSome ((List.range n).map one), allSome ((List.range 64).map queue) with
    | some ls, some qs =>
      some { launches := ls, queues := qs
             graphs := (List.range (cutBytes b 12 2)).map (fun k =>
               (cutBytes b (0x1E2080 + 32 * k) 8, cutBytes b (0x1E2088 + 32 * k) 8, cutBytes b (0x1E2090 + 32 * k) 4))
             last0 := cutBytes b 14 1, last1 := cutBytes b 15 1 }
    | _, _ => none
  else none

/-- Of the images in some slots: the cluster the hart left, and whether its gang's barrier is BROKEN. -/
def slotMarks (p : Nat) (map : Bits) : List Nat → M (Tab (Nat × Bool))
  | [] => pure []
  | k :: ks => do
    let rest ← slotMarks p map ks
    if bitAt map k then
      let a ← gets (fun s => slotAddr (s.part p) k)
      match ← devRead p a 24, ← devRead p (a + 0x370) 8 with
      | some hd, some gb => pure (tabPut rest k (clusterOf (bitsGet hd 176 16), decide (bitsGet gb 62 2 = 2)))
      | _, _ => walkerError p
    else pure rest

/-! ### Graphs in flight -/

/-- The nodes of a graph: those its start line names and those reached from them. -/
def reachNodes (p : Nat) : Nat → List Nat → List Nat → M (List Nat)
  | 0, _, seen => pure seen
  | _, [], seen => pure seen
  | fuel + 1, j :: js, seen => do
    let n ← gets (fun s => (s.part p).nodecnt)
    if seen.contains j ∨ n ≤ j then reachNodes p fuel js seen
    else do
      let ks ← successors p (← readNode p j)
      reachNodes p fuel (ks ++ js) (j :: seen)

/-- Of some nodes, those in a state, with their packets' addresses. -/
def nodesIn (p : Nat) (sts : List Nat) : List Nat → M (List (Nat × Nat × Nat))
  | [] => pure []
  | j :: js => do
    let b ← readNode p j
    let rest ← nodesIn p sts js
    pure (if sts.contains (ndState b) then (j, ndState b, ndPkt b) :: rest else rest)

/-- The journal number of a graph whose line lies in a packet slot of the journal. -/
def graphSeq (p addr : Nat) : M Nat := do
  let x ← gets (fun s => s.part p)
  let first := journalSlot x 0
  if addr < first ∨ first + 128 * journalSlots ≤ addr then pure 0
  else
    match ← devRead p (journalEntry x ((addr - first) / 128)) 8 with
    | some n => pure n
    | none => walkerError p

/-- The journal says that a command of that number has FAILED, which an abandoned graph's entry does from its abandonment on (R131,
R351). -/
def journalFailed (p seq : Nat) : M Bool := do
  if seq = 0 then pure false
  else
    match ← devRead p (journalEntry (← gets (fun s => s.part p)) seq + 9) 1 with
    | some st => pure (st == 4)
    | none => walkerError p

/-- Take up a graph of the region: its live nodes come from the node table. -/
def loadGraph (p addr gdone live : Nat) : M Unit := do
  match ← devRead p addr 128 with
  | none => walkerError p
  | some line => do
    let n ← gets (fun s => (s.part p).nodecnt)
    let all ← reachNodes p (256 * (n + 1)) (rootsOf line) []
    let nodes ← nodesIn p [ndReady, ndRunning] all
    let bad ← nodesIn p [ndFailed] all
    let seq ← graphSeq p addr
    let gone ← journalFailed p seq
    let id ← freshId
    upd (.graph id (some { addr := BitVec.ofNat 64 addr, seq := seq, part := p, queue := 0, gdone := BitVec.ofNat 64 gdone
                           live := live, fail := !bad.isEmpty, begun := true, nodes := nodes.map (fun e => e.1)
                           abandoned := gone }))
    let s ← getState
    eachM nodes (fun e =>
      whenM (e.2.1 == ndRunning) (eachM (launchesOf s p) (fun l =>
        whenM (l.2.src == 2 && l.2.paddr.toNat == e.2.2 && l.2.node.isNone)
          (modLaunch l.1 (fun x => { x with node := some (id, e.1) })))))

/-- A launch that has anything left to do. -/
def Launch.unfinished (l : Launch) : Bool := l.queued || !l.resume.isEmpty

/-- The suspended gang of a standing launch that a record names, with what the record leaves out. -/
def Launch.known (l : Launch) (y : Susp) : Susp := (l.resume.find? (fun z => z.gang == y.gang && z.slots == y.slots)).getD y

/-- A standing launch as its record gives it. What its running harts have claimed or ended since stays so: the claim counter never
goes back, and the harts counted are those that stand (log entry 17, DEDUCED). -/
def Launch.reloaded (l r : Launch) : Launch :=
  { l with queue := r.queue, queued := r.queued, nextg := r.nextg, resume := r.resume.map l.known, claim := max l.claim r.claim }

/-- Take up the launches of a region, and answer their numbers by index: one whose number still stands is brought up to its record,
one that has ended since is taken up no more, and any other with something left to do gets a fresh number. -/
def loadLaunches : List (Option Nat × Launch) → M (List (Option Nat))
  | [] => pure []
  | (at', r) :: rest => do
    let id ← match at' with
      | some id => do
        match ← gets (fun s => tabFind s.launches id) with
        | some l => do
          whenM (l.reloaded r != l) (upd (.launch id (some (l.reloaded r))))
          pure (some id)
        | none => pure none
      | none =>
        if r.unfinished then do
          let id ← freshId
          upd (.launch id (some r))
          pure (some id)
        else pure none
    let ids ← loadLaunches rest
    pure (id :: ids)

/-- The launches of a list of record indices. -/
def namedBy (ids : List (Option Nat)) (ks : List Nat) : List Nat := ks.filterMap (fun k => (ids[k]?).join)

/-- A launch queue as its record gives it, and behind that what the region does not name. -/
def Queue.reloaded (q : Queue) (stood : List Nat) (ids : List (Option Nat)) (r : List Nat × List Nat) : Queue :=
  let rest (l : List Nat) : List Nat := l.filter (fun id => !stood.contains id)
  { q with pkts := namedBy ids r.1 ++ rest q.pkts, resume := namedBy ids r.2 ++ rest q.resume }

/-- Take up a graph record: a running graph of that line keeps the lower count, since nodes may have ended since; with the launches
of the region still standing, a graph that no longer runs has ended. -/
def reloadGraph (p : Nat) (stands : Bool) (g : Nat × Nat × Nat) : M Unit := do
  match ← gets (fun s => s.graphs.find? (fun e => e.2.part == p && e.2.addr.toNat == g.1)) with
  | some (id, x) => whenM (decide (g.2.2 < x.live)) (modGraph id (fun x => { x with live := g.2.2 }))
  | none => whenM (!stands) (loadGraph p g.1 g.2.1 g.2.2)

/-- Take up a region: with the launches that it names still standing, or without. -/
def loadRegion (p : Nat) (stands : Bool) (r : Region348) : M Unit := do
  let stood ← gets (fun s => if stands then (s.part p).stood else [])
  let ids ← loadLaunches (r.launches.zipIdx.map (fun e => (stood[e.2]?, e.1)))
  eachM (r.queues.zipIdx) (fun e => do
    let q ← gets (fun s => s.queue e.2)
    let q' := q.reloaded stood ids e.1
    whenM (q' != q) (upd (.queue e.2 q')))
  modPart p (fun x => { x with last0 := r.last0, last1 := r.last1 })
  eachM r.graphs (reloadGraph p stands)

/-- Every queue of a partition restarts with step count 0 and this cycle as its ready cycle (R132). -/
def restartQueues (p : Nat) : M Unit := do
  let qs ← gets (fun s => (s.part p).queueList)
  eachM qs (fun q => modQueue q (fun x => { x with ready := none }))
  refreshPart p

/-- The region that a reload takes up: none when it is malformed; with VALID = 0 there is nothing to take up. -/
def regionToLoad (p : Nat) (x : Part) (b : Bits) : M (Option (Option Region348)) := do
  if cutBytes b 0 4 ≠ 0x49585331 ∨ cutBytes b 4 2 ≠ 1 then pure none
  else if cutBytes b 6 1 = 0 then pure (some none)
  else do
    let marks ← slotMarks p (cutBytes b 0x2E4080 512) (List.range x.ctxcap)
    pure ((regionOf348 p x b (fun k => tabGet (0, false) marks k)).map some)

/-- Reload the launch queues from the save area and clear PAUSE (R132, R348). False when the region is malformed, and then
nothing changes. -/
def reload (p : Nat) : M Bool := do
  let x ← gets (fun s => s.part p)
  match ← devRead p x.ctxbase 0x2E4280 with
  | none => walkerError p
  | some b => do
    match ← regionToLoad p x b with
    | none => pure false
    | some r => do
      match r with
      | some r => do
        loadRegion p x.kept r
        writeArea p (x.ctxbase + 6) 1 0
      | none => pure ()
      modPart p (fun x => { x with pause := false, kept := false, quiescer := none, stood := [] })
      restartQueues p
      pure true

end Sys2Proof.Machine
end

