-- ==== Sys2Proof/Machine/Sys.lean ====
section
/-!
DEFINITION. Machine/Sys.lean: the system instructions (R233 to R240): TRAP, BRK, ERET, WFE, ICSYNC, TLBI, SAVECTX, RSTCTX,
QUIESCE and RETIRE.
-/
namespace Sys2Proof.Machine

/-! ### TRAP, BRK, ERET -/

/-- TRAP (R212): it completes, and EPC holds what comes next, by the loop's choice at a trip's end (R221). -/
def execTrap (k : BitVec 5) : State → Host.Outcome State Fault Refusal :=
  runM (scalar [] (fun g _ => do
    needDrained g
    modHart g (fun h =>
      let h := h.advance 4
      h.enterTrap (BitVec.ofNat 16 Cause.trap.code) h.pc (k.zeroExtend 64) 0 .drained h.vqHeld)))

/-- BRK (R212). -/
def execBrk : State → Host.Outcome State Fault Refusal := runM (scalar [] (fun g _ => trapAfter g .break_ 0))

/-- ERET (R213). -/
def execEret : State → Host.Outcome State Fault Refusal := runM (supervisor [] (fun g h => putHart g h.returnTrap))

/-! ### WFE (R234) -/

/-- An asynchronous event is pending for a hart (R374). -/
def eventPending (s : State) (g : Nat) : Bool := s.parts.any (fun e => e.2.target == some g && e.2.event != 0)

/-- Cycles a WFE waits at most. -/
def wfeCycles : Nat := 65536

/-- EPOCH and STATE of a hart's barrier, as its tier holds it. -/
def barrierOf (s : State) (g : Nat) : BitVec 16 × BitVec 2 :=
  match s.barrierSeen g with
  | some b => (b.epoch, b.st)
  | none => (0, 0)

/-- The wait of a WFE that began so ends. -/
def wfeOver (s : State) (g : Nat) (w : Nat × BitVec 16 × BitVec 2) : Bool :=
  eventPending s g || barrierOf s g != w.2 || decide (w.1 + wfeCycles ≤ s.cycle)

/-- The hart past its WFE. -/
def Hart.wfeDone (h : Hart) : Hart := { h.advance 4 with wfe := none }

/-- WFE (R234). -/
def execWfe : State → Host.Outcome State Fault Refusal :=
  runM (scalar [] (fun g h => do
    let s ← getState
    let w := h.wfe.getD (s.cycle, barrierOf s g)
    putHart g (if wfeOver s g w then h.wfeDone else { h with wfe := some w })))

/-! ### ICSYNC (R235) -/

/-- A hart's loop body is pinned no more. -/
def unpin (g : Nat) : M Unit := do
  whenM (← getHart g).lp.pinned.isSome (modHart g (fun h => { h with lp := { h.lp with pinned := none } }))

/-- ICSYNC (R235). -/
def execIcsync : State → Host.Outcome State Fault Refusal :=
  runM (scalar [] (fun g _ => do
    releaseAll g 1
    modCore (coreOf g) (fun k => { k with icache := [] })
    eachM (coreHarts (coreOf g)) unpin
    modHart g (fun h => h.advance 4)))

/-! ### TLBI and shootdown (R236) -/

/-- The cores of a partition. -/
def Part.cores (x : Part) : List Nat := (List.range Config.numCores).filter (fun c => bitAt x.clusters (c / 4))

/-- Drop the copies of named lines in a core's L1 and scalar cache. -/
def Core.dropNamed (k : Core) (at' : Option Nat) : Core :=
  { k with
    l1 := k.l1.filter (fun e => !tlbNames at' (128 * e.2.va))
    scache := k.scache.filter (fun e => !tlbNames at' (128 * e.2.va)) }

/-- A hart without the translations it holds of what a TLBI names. -/
def Hart.dropNamed (h : Hart) (at' : Option Nat) : Hart := { h with tlb := h.tlb.filter (fun t => !tlbNames at' t.base) }

/-- A hart's waits on MIG for a named page end: its accesses, its channels' and its completed writes' walk again. -/
def Hart.walkAgain (h : Hart) (at' : Option Nat) : Hart :=
  let keep (w : Option Nat) : Option Nat := w.filter (fun va => !tlbNames at' va)
  { h with
    migWait := keep h.migWait, migVec := keep h.migVec
    chans := h.chans.map (fun (c : Chan) => { c with mig := keep c.mig })
    posted := h.posted.map (fun p => { p with mig := keep p.mig }) }

/-- The placed harts of a partition. -/
def hartsIn (s : State) (p : Nat) : List (Nat × Hart) := s.harts.filter (fun e => e.2.partid.toNat == p && e.2.place.isSome)

/-- Change the harts of a partition that a function changes. -/
def eachHart (p : Nat) (f : Hart → Hart) : M Unit := do
  let s ← getState
  eachM (hartsIn s p) (fun e => whenM (f e.2 != e.2) (putHart e.1 (f e.2)))

/-- An instruction of the partition holds a pin of what a TLBI names (R140). -/
def pinsLeft (s : State) (p : Nat) (at' : Option Nat) : Bool :=
  (hartsIn s p).any (fun e => e.2.flight.any (fun f => f.pins.any (fun t => tlbNames at' t.base)))

/-- Steps 2 and 3 of R236 over a partition: what is held of the named pages is dropped, and once no instruction holds a pin of one,
the accesses that wait on MIG walk again. False while one does. -/
def shoot (p : Nat) (at' : Option Nat) : M Bool := do
  let s ← getState
  eachM (s.part p).cores (fun c =>
    let k := s.core c
    whenM (k.dropNamed at' != k) (modCore c (fun k => k.dropNamed at')))
  eachHart p (fun h => h.dropNamed at')
  if ← gets (fun s => pinsLeft s p at') then pure false
  else do
    eachHart p (fun h => h.walkAgain at')
    pure true

/-- Both forms: the hart's stores are performed at .dev first. While the TLBI waits for pins, new instructions wait for it (R140). -/
def tlbi (regs : List (BitVec 5)) (at' : Hart → Option Nat) : M Unit :=
  supervisor regs (fun g h => do
    releaseAll g 4
    if ← shoot h.partid.toNat (at' h) then modHart g (fun h => { h with shooting := none }.advance 4)
    else modHart g (fun h => { h with shooting := some (at' h) }))

/-- TLBI x_a (R236). -/
def execTlbi (a : BitVec 5) : State → Host.Outcome State Fault Refusal := runM (tlbi [a] (fun h => some (h.getX a).toNat))
/-- TLBI.ALL (R236). -/
def execTlbiAll : State → Host.Outcome State Fault Refusal := runM (tlbi [] (fun _ => none))

/-! ### Reaching an image (R237, R238) -/

/-- Walk the pieces of an image: all of them, the first that faults with its address, or one that waits on MIG. -/
def imageWalk (s : State) (w : Walker) (acc : Acc) : List (Nat × Nat) → List VPiece → Except (Option Cause × Nat) (List VPiece)
  | [], ps => .ok ps
  | (va, n) :: rest, ps =>
    if 2 ^ 57 ≤ va then .error (some .xlateNone, va)
    else if inSpad va n then .error (some .spadRange, va)
    else
      match walkPieces s w acc [(va, n)] with
      | .fail f => .error (some f.cause, va)
      | .mig a => .error (none, a)
      | .spad _ => .error (some .spadRange, va)
      | .pages qs => if (absent s w.tier qs).isSome then .error (some .addrNone, va) else imageWalk s w acc rest (ps ++ qs)

/-- The page pieces of an image. A fault traps with the failing page's address. -/
def imagePieces (g : Nat) (acc : Acc) (va n : Nat) : M (List VPiece) := do
  let s ← getState
  let w := s.walker g
  match imageWalk s w acc (pagePieces va n) [] with
  | .ok ps => if ← touchPieces w ps then pure ps else hartError g w.part
  | .error (some c, a) => trapAfter g c (BitVec.ofNat 64 a)
  | .error (none, a) => holdScalar g (some a)

/-- The line pieces of an image at their lines: copies says whose copies of a load's lines may serve it. -/
def imageReach (g : Nat) (copies : Option Bool) (ps : List VPiece) : M (List (Nat × Ready)) := do
  let w ← gets (fun s => s.walker g)
  match ← reach g copies w (ps.flatMap VPiece.lines) with
  | .fail f => trapAfter g f.cause (BitVec.ofNat 64 f.addr)
  | .wait m => holdScalar g m
  | .stop => hartError g w.part
  | .ok rs => pure rs

/-- Read n bytes of an image. -/
def imageLoad (g va n : Nat) : M Bits := do
  let ps ← imagePieces g .load va n
  loadAll g false (← imageReach g (some false) ps)

/-- The address of an image: bits [6:0] read as zero. -/
def imageAddr (x : Word) : Nat := x.toNat / 128 * 128

/-! ### SAVECTX (R237) -/

/-- The hart as its image holds it: x[a]'s slot takes KSCRATCH, KSCRATCH's the image address, and the resume PC's the position
that ERET would go to. -/
def Hart.forImage (h : Hart) (a : BitVec 5) (va : Nat) : Hart :=
  { (h.setX a h.kscratch) with
    kscratch := BitVec.ofNat 64 va
    resumePc := if h.erets.head? = some .queue then h.resumePc else h.epc }

/-- Launch-entry vector state (R21, R237 step 4). -/
def Hart.vectorEntry (h : Hart) : Hart :=
  { h with
    v := Vector.replicate 32 0
    m := Vector.replicate 12 0
    w := Vector.replicate 8 0
    a := Vector.replicate 4 0
    e := Vector.replicate 4 Hist.reset
    vl := 0
    vstart := 0
    ftrim := 0
    fflags := 0
    tilem := 0
    tilen := 0
    vq := []
    rq := []
    flight := none
    vqHeld := false
    vsWritten := false
    stoppedAt := false
    chans := Vector.replicate 4 Chan.reset
    ilk := Vector.replicate 16 Ilk.reset }

/-- SAVECTX (R237): the image is translated before anything changes. -/
def execSavectx (a : BitVec 5) : State → Host.Outcome State Fault Refusal :=
  runM (supervisor [a] (fun g h => do
    if ← fillRegs g then pure () else halt
    let va := imageAddr (h.getX a)
    let len ← gets (fun s => (imageFrom s g h).length)
    let rs ← imageReach g none (← imagePieces g .store va len)
    freeScalar g
    stopHart g
    let b ← gets (fun s => (imageFrom s g ((s.hart g).forImage a va)).bits)
    storeAll g false h.pc rs b
    match ← gets (fun s => s.gangOf g) with
    | some (gg, _) => modGang gg (fun x => x.detach h.index)
    | none => pure ()
    modHart g (fun h => h.vectorEntry.advance 4)))

/-! ### RSTCTX (R238) -/

/-- Statuses of RSTCTX. -/
def rstFormat : Nat := 1
/-- LENGTH. -/
def rstLength : Nat := 2
/-- SPACE. -/
def rstSpace : Nat := 3
/-- PARTITION. -/
def rstPartition : Nat := 4

/-- The first check that an image fails on a hart's core, or 0. -/
def restoreStatus (s : State) (g : Nat) (im : Image) : Nat :=
  let k := s.core (coreOf g)
  let cells := cellsOthers s g + im.h.cellsHeld
  let hist := (im.h.e.toList.map (fun x => x.bytes)).sum
    + (((coreHarts (coreOf g)).filter (fun j => j != g)).map (fun j => ((s.hart j).e.toList.map (fun x => x.bytes)).sum)).sum
  if im.h.banks * popcount8 k.lglive * 1024 / im.h.named < im.h.lay then rstLength
  else if 65536 < cells ∨ 65536 < hist then rstSpace
  else if im.h.partid ≠ (s.hart g).partid then rstPartition
  else 0

/-- How the ERET that follows resumes the restored position: by the saved cause and queue. -/
def restoredKind (im : Image) : TrapKind :=
  let c := im.h.ecause.toNat
  if c = Cause.event.code then .event
  else if im.h.vq.isEmpty ∨ c = Cause.illegal.code ∨ c = Cause.trap.code then .drained
  else .queue

/-- The hart h, past its RSTCTX, which the image's INSTRET does not count (log entry 79, DESIGN CHOICE), with what the image restores. -/
def Hart.restoredBy (h : Hart) (im : Image) (d : BitVec 5) (cycle : Nat) : Hart :=
  let y := im.h
  { y with
    x := (y.setX d 0).x
    pc := h.pc
    lp := { y.lp with trip := if y.tripOpen y.resumePc then .atResume else .no }
    sup := h.sup
    status := (h.status.extractLsb' 1 2) ++ (y.status.extractLsb' 0 1)
    tvec := h.tvec
    kscratch := y.getX d
    partid := h.partid
    erets := restoredKind im :: h.erets.tail
    vqHeld := !y.vq.isEmpty
    vsWritten := y.vq.isEmpty && y.vstart != 0
    stoppedAt := !y.vq.isEmpty
    place := h.place.map (fun p => { p with since := cycle })
    bstQueued := h.bstQueued
    bstNext := h.bstNext
    posted := h.posted
    remote := h.remote }

/-- Addresses of the CPCFGs of restored channels, which an image does not hold: free values. -/
def freePcs (g : Nat) : List Nat → M Unit
  | [] => pure ()
  | n :: ns => do
    if ((← getHart g).chan n).active then do
      let v ← freeBits 64
      modHart g (fun h => h.setChan n { h.chan n with cfgPc := BitVec.ofNat 64 v })
    else pure ()
    freePcs g ns

/-- The gang's barrier from a member's image (R69, R323): ARR is the number of members that have arrived. -/
def Gang.restoredFrom (x : Gang) (word : Word) (arrived : Nat) : Gang :=
  { x with
    size := word.extractLsb' 0 7
    arr := BitVec.ofNat 7 arrived
    epoch := word.extractLsb' 16 16
    st := word.extractLsb' 62 2 }

/-- Members of a gang that have arrived. -/
def arrivedIn (s : State) (x : Gang) : Nat := (x.standing.filter (fun g => (s.hart g).arrived)).length

/-- RSTCTX on an image that passes every check. -/
def restoreHart (g : Nat) (d : BitVec 5) (im : Image) : M Unit := do
  let s ← getState
  whenM (decide (coreBanksWith s g (s.hart g).banks < coreBanksWith s g im.h.banks)) (growBanks g)
  modHart g (fun h => (h.advance 4).restoredBy im d s.cycle)
  freePcs g channels
  match ← gets (fun s => s.gangOf g) with
  | some (gg, x) => do
    let n ← gets (fun s => arrivedIn s x)
    modGang gg (fun x => (x.restoredFrom im.gbar n).withViews)
    attachHalves g im []
  | none => pure ()

/-- RSTCTX (R238). -/
def execRstctx (d a : BitVec 5) : State → Host.Outcome State Fault Refusal :=
  runM (supervisor [d, a] (fun g h => do
    needDrained g
    let va := imageAddr (h.getX a)
    let fixed ← imageLoad g va 0x2000
    let im ← if headerGood fixed then do
        let b ← imageLoad g va (wordAt fixed 8)
        pure (imageOf b)
      else pure none
    freeScalar g
    let st ← gets (fun s => match im with
      | none => rstFormat
      | some im => restoreStatus s g im)
    match im, st with
    | some im, 0 => restoreHart g d im
    | _, st => modHart g (fun h => (h.setX d (BitVec.ofNat 64 st)).advance 4)))

/-! ### QUIESCE (R239) -/

/-- QUIESCE (R239): one that has set PAUSE goes on with its own steps. With too few image slots it waits before it sets PAUSE
(log entry 18, DEDUCED). -/
def execQuiesce (d : BitVec 5) : State → Host.Outcome State Fault Refusal :=
  runM (supervisor [d] (fun g h => do
    let p := h.partid.toNat
    let x ← gets (fun s => s.part p)
    let own := h.place.map (fun e => e.gang)
    let ends (n : Nat) : M Unit := modHart g (fun h => (h.setX d (BitVec.ofNat 64 n)).advance 4)
    if x.state ≠ .run then ends 1
    else if x.pause ∧ x.quiescer ≠ some g then ends 2
    else do
      if ← roomForAll p own then pure () else halt
      modPart p (fun x => { x with pause := true, quiescer := some g })
      refreshPart p
      suspendAll p own
      drainBroadcasts p
      writeRegion p
      modPart p (fun x => { x with kept := true, quiescer := none })
      ends 0))

/-! ### RETIRE (R240) -/

/-- The hart with its channels stopped, its tiles and histories released and its loop ended (R240 steps 3 and 5). -/
def Hart.retiring (h : Hart) : Hart :=
  let h : Hart := { h with chans := h.chans.map (fun (c : Chan) => c.stopped) }
  { channels.foldl (fun h n => h.chanIlk n) h with
    tilem := 0
    tilen := 0
    e := Vector.replicate 4 Hist.reset
    lp := { h.lp with active := false, pinned := none } }

/-- A gang without a member that retires with an effective size: its bindings as consumer close, as producer they run dry. -/
def Gang.retire (x : Gang) (i size : Nat) : Gang :=
  { x with
    retired := i :: x.retired
    sRet := size :: x.sRet
    streams := (x.streams.filter (fun t => t.cons != i)).map (fun t => if t.prod = i then { t with done := true } else t) }

/-- A gang with no member left. -/
def Gang.over (x : Gang) : Bool := (List.range x.members.length).all (fun i => x.retired.contains i)

/-- RETIRE (R240): entries that a trap has kept resume first (log entry 9, DEDUCED). -/
def execRetire : State → Host.Outcome State Fault Refusal :=
  runM (scalar [] (fun g h => do
    whenM (h.vqHeld && !h.vq.isEmpty) (modHart g (fun h => { h with vqHeld := false }))
    releaseSys g
    if (← getHart g).bstQueued ≠ 0 then do
      cicadaWaits g
      if (← getHart g).bstQueued ≠ 0 then halt else pure ()
    else pure ()
    match ← gets (fun s => s.gangOf g) with
    | some (gg, x) => do
      let size ← gets (fun s => effSize (s.hart g) (s.core (coreOf g)))
      if ← barrierChange g x (.lower gg) then pure () else halt
      modGang gg (fun x => x.retire h.index size)
      match ← gets (fun s => tabFind s.gangs gg) with
      | some x => whenM x.over (upd (.gang gg none))
      | none => pure ()
    | none => pure ()
    modHart g (fun h => h.retiring)
    freeHart g
    match h.place with
    | some e => do
      modLaunch e.launch (fun l => { l with live := l.live - 1 })
      launchTry e.launch
    | none => pure ()))

end Sys2Proof.Machine
end

