-- ==== Sys2Proof/Machine/Edge.lean ====
section
/-!
DEFINITION. Machine/Edge.lean: what the steps at the package's edge share. Who may reach a window (R370, R373, R386), and answers
to the fabric.
-/
namespace Sys2Proof.Machine

/-- Bring-up has ended its step 5: fabric traffic other than the management mailbox's is answered (R386). -/
def State.fabricOpen (s : State) : Bool := s.security.boot == .open

/-- The access table lets a fabric endpoint reach partition p (R373); identifier 1,023 is reserved. -/
def State.mayReach (s : State) (id p : Nat) : Bool := decide (id < 1023) && bitAt (s.accessOf id).1.toNat p

/-- Answer the fabric. -/
def answer (r : Reply) : M Unit := upd (.reply r)

/-- A step that fabric endpoint id asks for: before bring-up has come so far nothing is answered. -/
def fromFabric (m : M Unit) : M Unit := do
  whenM (← gets State.fabricOpen) m

/-- A hart runs at its place in partition p. -/
def Hart.runsIn (h : Hart) (p : Nat) : Bool := h.place.isSome && h.hstop == .run && h.partid.toNat == p

/-- A hart runs at its place. -/
def Hart.runs (h : Hart) : Bool := h.place.isSome && h.hstop == .run

end Sys2Proof.Machine
end

