-- ==== Sys2Proof/Machine/ErrorSteps.lean ====
section
/-!
DEFINITION. Machine/ErrorSteps.lean: scrubbing (R111), uncorrectable and corrected errors by where they occur (R32, R112, R151, R349,
R350) and the retirement of a lane group (R80).
-/
namespace Sys2Proof.Machine

/-- SCRUB (R111): a line read and written back corrected, or the end of a pass. -/
def execScrub (tier line corrected : Nat) (passEnd : Bool) : State → Host.Outcome State Fault Refusal :=
  runM (do
    whenM (← gets (fun s => tierOfPa s (128 * line) == some tier))
      (modTier tier (fun x => { x with drcor := sat32 x.drcor corrected }))
    whenM (passEnd && decide (tier < Config.numTiers)) (modTier tier (fun x => { x with scrubs := sat32 x.scrubs 1 })))

/-- A core holds a copy of the line. -/
def Core.holds (k : Core) (line : Nat) : Bool :=
  (tabFind k.l1 line).isSome || (tabFind k.scache line).isSome || (tabFind k.icache line).isSome

/-- A clean copy is invalidated, and refetched when it is next needed: the core's, its cluster's, or the slice's of the line's home. -/
def cleanError (c line : Nat) : M Unit := do
  let s ← getState
  if (s.core c).holds line then
    modCore c (fun k => { k with
      l1 := tabDel k.l1 line, scache := tabDel k.scache line, icache := tabDel k.icache line, ceunc := sat32 k.ceunc 1 })
  else if (tabFind (s.cluster (c / 4)) line).any (fun x => x.st == .s || x.st == .e) then do
    upd (.cc (c / 4) line none)
    modTier (c / 16) (fun x => { x with srunc := sat32 x.srunc 1 })
  else tierCount line (fun x => { x with srunc := sat32 x.srunc 1 })

/-- The body that a hart's loop buffer holds is fetched again, from the instruction cache or beyond (R110). -/
def loopError (g : Nat) : M Unit := do
  whenM (← getHart g).lp.pinned.isSome (modHart g (fun h => { h with lp := { h.lp with pinned := none } }))

/-- The partition that PTAG of a line names, if any. -/
def LineMeta.owner (x : LineMeta) : Option Nat := if x.ptag = 127 then none else some x.ptag

/-- A dirty line is written back poisoned, and charged to the partition its PTAG names (R112, R349). -/
def dirtyError (line : Nat) : M Unit := do
  let s ← getState
  eachM (holders s (128 * line)) (fun c => whenM (tabFind (s.cluster c) line).isSome (upd (.cc c line none)))
  let x := s.line line
  upd (.line line { x with poison := true })
  tierCount line (fun t => { t with poisonwb := sat32 t.poisonwb 1, srunc := sat32 t.srunc 1 })
  match x.owner with
  | some p => postApart { FRec.base .poisonWb 0x7FF p with aux := 128 * line } none
  | none => pure ()

/-- What an error does, by its place. -/
def errorAt : ErrSite → M Unit
  | .cleanLine c line => cleanError c line
  | .dirtyLine line => dirtyError line
  | .dramLine line => dramError line
  | .hartState g => do
    modCore (coreOf g) (fun k => { k with ceunc := sat32 k.ceunc 1 })
    loseHart g
  | .residue g => do
    modCore (coreOf g) (fun k => { k with ceunc := sat32 k.ceunc 1, resmis := sat32 k.resmis 1 })
    loseHart g
  | .partEntry p => do
    let st ← gets (fun s => (s.part p).state)
    whenM (st == .config || st == .locked || st == .run) (partError p)
  | .corrected c => modCore c (fun k => { k with cecor := sat32 k.cecor 1 })
  | .loopBuffer g => loopError g
  | .correctedTier t => modTier t (fun x => { x with srcor := sat32 x.srcor 1 })

/-- UNCORRECTABLE_ERROR (R112, R350), and the corrected errors that the same places count (R111). -/
def execUncorrectableError (site : ErrSite) : State → Host.Outcome State Fault Refusal := runM (errorAt site)

/-- A core without one of its lane groups, or as it is when it has none such. -/
def Core.retireGroup (k : Core) (lg : Nat) : Core :=
  if lg < 8 ∧ k.lglive.toNat.testBit lg then
    { k with lglive := k.lglive &&& ~~~(1#8 <<< lg), lgret := sat32 k.lgret 1, l1 := [] }
  else k

/-- LANE_GROUP_RETIREMENT (R80): only while no hart of the core is placed. Register sizes follow from LGLIVE. -/
def execLaneGroupRetirement (core lg : Nat) : State → Host.Outcome State Fault Refusal :=
  runM (do
    let s ← getState
    whenM ((coreHarts core).all (fun g => (s.hart g).place.isNone)) (modCore core (fun k => k.retireGroup lg)))

end Sys2Proof.Machine
end

