-- ==== Sys2Proof/Machine/TierSteps.lean ====
section
/-!
DEFINITION. Machine/TierSteps.lean: the broadcast order's frames, slots and receivers (R147, R159, R329), tiers falling asleep and
waking (R106, R128, R383), power (R384) and bring-up (R386).
-/
namespace Sys2Proof.Machine

/-! ### The broadcast order -/

/-- FRAME_BOUNDARY (R146, R159): the frame counter advances and a pending slot table takes effect. -/
def execFrameBoundary (tower : Nat) : State → Host.Outcome State Fault Refusal :=
  runM (whenM (decide (tower < 2)) (frameEnds tower))

/-- SLOT_TRANSMISSION (R110, R147, R157). -/
def execSlotTransmission (tower slot : Nat) (crcOk : Bool) : State → Host.Outcome State Fault Refusal :=
  runM (whenM (decide (tower < 2) && decide (slot < 256)) (slotPasses tower slot crcOk))

/-- BROADCAST_APPLY (R329). -/
def execBroadcastApply (tier : Nat) (crcOk : Bool) : State → Host.Outcome State Fault Refusal :=
  runM (whenM (decide (tier < Config.numTiers)) (takeNext tier crcOk))

/-! ### Sleep -/

/-- Cycles of idleness before a tier may sleep (R383). -/
def sleepCycles : Nat := 65536

/-- The wake-log offset of a tier in the slot table in force. -/
def State.wlogOf (s : State) (t : Nat) : Nat := (s.tower (t / 12)).table.wlogs.getD (t % 12) 0

/-- A tier may enter SLEEP: its policy is set, it has a wake log, and no hart has been placed on it for so long. -/
def maySleep (s : State) (t : Nat) : Bool :=
  let x := s.tier t
  x.policy && s.wlogOf t != 0 && x.power == .awake && x.replica == .current
    && s.harts.all (fun e => e.2.place.isNone || tierOf e.1 != t) && decide (x.idleFrom + sleepCycles ≤ s.cycle)

/-- A cluster's cache passes its dirty bytes and is emptied. -/
def flushCluster (c : Nat) : M Unit := do
  mergeCluster c
  let ls ← gets (fun s => s.cluster c)
  eachM ls (fun e => upd (.cc c e.1 none))

/-- TIER_SLEEP (R106, R383): the tier's logic goes off with its caches, and its replica logs. -/
def execTierSleep (tier : Nat) : State → Host.Outcome State Fault Refusal :=
  runM (do
    if tier < Config.numTiers ∧ (← gets (fun s => maySleep s tier)) then do
      eachM (tierClusters tier) flushCluster
      eachM (range' (16 * tier) 16) (fun c => modCore c (fun k => { k with l1 := [], scache := [], icache := [] }))
      modTier tier (fun x => { x with power := .asleep, replica := .logging, wlogged := 0 })
    else pure ())

/-- TIER_WAKE (R383): the wake ends, and the replay or the refill begins. -/
def execTierWake (tier : Nat) : State → Host.Outcome State Fault Refusal :=
  runM (do
    whenM ((← gets (fun s => (s.tier tier).power)) == .waking) (modTier tier (fun x => { x with power := .replaying })))

/-- A tier whose replica has become CURRENT is awake, and idle from now. -/
def tierCurrent (tier : Nat) : M Unit := do
  let cycle ← gets (fun s => s.cycle)
  modTier tier (fun x => { x with power := .awake, replica := .current, wlogged := 0, idleFrom := cycle })
  forgetTaken (tier / 12)

/-- WAKE_LOG_REPLAY_END (R128): the entries are in the replica, in sequence order. The replay goes on while a write numbered before the
wake has not reached the log (R177). -/
def execWakeLogReplayEnd (tier : Nat) : State → Host.Outcome State Fault Refusal :=
  runM (do
    let x ← gets (fun s => s.tier tier)
    let woke := seqReached x.next x.wakeSeq
    if x.power = .replaying ∧ x.replica = .logging ∧ woke then do
      replayLog tier x.wlogged 0
      tierCurrent tier
    else pure ())

/-- The nearest tiers of a tier's tower first, the lower first of two as near. -/
def neighbours (t : Nat) : List Nat :=
  (range' 1 11).flatMap (fun d =>
    (if 12 * (t / 12) + d ≤ t then [t - d] else []) ++ (if t + d < 12 * (t / 12) + 12 then [t + d] else []))

/-- The tier that a refill copies from: the nearest that is awake and has applied every write numbered before the wake (R177). -/
def refillFrom (s : State) (t : Nat) : Option Nat :=
  (neighbours t).find? (fun k => (s.tier k).power == .awake && (s.tier k).replica == .current
    && seqReached (s.tier k).applied (s.tier t).wakeSeq)

/-- REPLICA_REFILL_END (R106, R157): the region and APPLIED are those of the tier copied from. -/
def execReplicaRefillEnd (tier : Nat) : State → Host.Outcome State Fault Refusal :=
  runM (do
    let s ← getState
    let x := s.tier tier
    if x.power = .replaying ∧ x.replica = .stale then
      match refillFrom s tier with
      | some k => do
        let tb := (s.tower (tier / 12)).table
        let at' := fun (t : Nat) => s.physical (t * Config.tierBytes + tb.bOff)
        homeWrite (at' tier) tb.bLen (s.bytes (at' k) tb.bLen)
        modTier tier (fun x => { x with applied := (s.tier k).applied })
        tierCurrent tier
      | none => pure ()
    else pure ())

/-! ### Power -/

/-- THERMAL of the event word (R374). -/
def eventThermal : Word := 8

/-- MXRATE after a sample (R384). -/
def nextRate (rate watts : Nat) (hot : Bool) : Nat :=
  let r := if 2100 < watts then max 1 (rate - 1) else if watts < 2000 then min 8 (rate + 1) else rate
  if hot then min r 4 else r

/-- POWER_SAMPLE (R384). -/
def execPowerSample (watts : Nat) (hot : Bool) : State → Host.Outcome State Fault Refusal :=
  runM (do
    let rate ← gets (fun s => s.mxrate)
    upd (.mxrate (nextRate rate watts hot))
    whenM hot (setEventAll eventThermal))

/-- THERMAL_SHUTDOWN (R384): power is removed and nothing is saved. -/
def execThermalShutdown : State → Host.Outcome State Fault Refusal := runM (upd (.powered false))

/-! ### Bring-up (R386) -/

/-- Dvorder links of the package (R371). -/
def numLinks : Nat := 18

/-- Steps 2 to 4: DRAM stands initialised, failing lane groups are retired, and every link that trains is UP. -/
def bringUp (lanes : List (Nat × Nat)) (dead : List Nat) : M Unit := do
  eachM lanes (fun e => whenM (decide (e.1 < Config.numCores)) (modCore e.1 (fun k =>
    if e.2 < 8 ∧ k.lglive.toNat.testBit e.2 then
      { k with lglive := k.lglive &&& ~~~(1#8 <<< e.2), lgret := k.lgret + 1 } else k)))
  eachM (List.range numLinks) (fun k => modLink k (fun x => { x with st := if dead.contains k then .down else .up }))

/-- POWER_UP (R380, R386): from the removal of power, or before it. The ROM refuses an image whose signature fails or whose
version is too low. -/
def execPowerUp (imageOk versionOk : Bool) (lanes : List (Nat × Nat)) (deadLinks : List Nat) :
    State → Host.Outcome State Fault Refusal :=
  runM (do
    let s ← getState
    if s.powered = false ∨ s.security.boot = .off then do
      upd .powerOn
      let x ← gets (fun s => s.security)
      if imageOk && versionOk then do
        bringUp lanes deadLinks
        upd (.security { x with boot := .monitor })
      else upd (.security { x with boot := .refused })
    else pure ())

end Sys2Proof.Machine
end

