-- ==== Sys2Proof/Machine/LinkSteps.lean ====
section
/-!
DEFINITION. Machine/LinkSteps.lean: the states of the Dvorder links (R371, R372) and their counts (R370).
-/
namespace Sys2Proof.Machine

/-- LINK of the event word (R374). -/
def eventLink : Word := 4

/-- Cycles in 1 ms (R1). -/
def downCycles : Nat := 1100000

/-- Add to one of a link's or a port's six counts, in the order sent, received, retried, CRC failures, retrainings, DOWN entries
(R370); they wrap modulo 2^64. -/
def addTo (counts : List Nat) (k n : Nat) : List Nat := counts.set k ((counts.getD k 0 + n) % 2 ^ 64)

/-- A link changes its state: LINK is set in every partition's event word. -/
def linkTo (k : Nat) (f : Link → Link) : M Unit := do
  modLink k f
  setEventAll eventLink

/-- A link in RETRAIN from a cycle on. -/
def Link.retraining (x : Link) (cycle : Nat) : Link :=
  { x with st := .retrain, retries := 0, leftAt := cycle, tryAt := cycle, counts := addTo x.counts 4 1 }

/-- A link of the package in a given state. -/
def linkIs (s : State) (k : Nat) (st : LinkState) : Bool := decide (k < numLinks) && (s.link k).st == st

/-- LINK_RETRAIN_ENTRY (R372): UP to RETRAIN. -/
def execLinkRetrainEntry (k : Nat) : State → Host.Outcome State Fault Refusal :=
  runM (do
    let s ← getState
    whenM (linkIs s k .up) (linkTo k (fun x => x.retraining s.cycle)))

/-- TRAINING_ATTEMPT_END (R372): RETRAIN to UP, or a new attempt begins at once. -/
def execTrainingAttemptEnd (k : Nat) (ok : Bool) : State → Host.Outcome State Fault Refusal :=
  runM (do
    let s ← getState
    if linkIs s k .retrain then
      if ok then linkTo k (fun x => { x with st := .up, retries := 0 })
      else modLink k (fun x => { x with tryAt := s.cycle })
    else pure ())

/-- LINK_DOWN_TIMEOUT (R372): 1 ms has passed since the link left UP. -/
def execLinkDownTimeout (k : Nat) : State → Host.Outcome State Fault Refusal :=
  runM (do
    let s ← getState
    whenM (linkIs s k .retrain && decide ((s.link k).leftAt + downCycles ≤ s.cycle))
      (linkTo k (fun x => { x with st := .down, counts := addTo x.counts 5 1 })))

/-- Successive retries of a flit, all failing, that send a link to RETRAIN (R372). -/
def maxRetries : Nat := 8

/-- FLIT_CRC_FAILURE (R371, R372): the flit is replayed from the buffer, or, when its eighth retry has failed, the link goes to
RETRAIN. -/
def execFlitCrcFailure (k : Nat) : State → Host.Outcome State Fault Refusal :=
  runM (do
    let s ← getState
    if linkIs s k .up then do
      modLink k (fun x => { x with counts := addTo x.counts 3 1 })
      if (s.link k).retries = maxRetries then linkTo k (fun x => x.retraining s.cycle)
      else modLink k (fun x => { x with retries := x.retries + 1, counts := addTo x.counts 2 1 })
    else pure ())

end Sys2Proof.Machine
end

