-- ==== Sys2Proof/Machine/Monitor.lean ====
section
/-!
DEFINITION. Machine/Monitor.lean: mailboxes and calls (R375, R376), and the calls of a partition's own mailbox: PART_INFO, COUNTERS,
SHOOTDOWN, RESUME, ABANDON, SETEVENT, QUOTA, QPAIR, MREG, MDEREG, QPCONN.
-/
namespace Sys2Proof.Machine

/-! ### A call (R375) -/

/-- STATUS of a response. -/
def callOk : Nat := 0
/-- DENIED. -/
def callDenied : Nat := 1
/-- BADARG. -/
def callBadarg : Nat := 2
/-- STATE. -/
def callState : Nat := 3

/-- What a call gives: STATUS, and its results as a number of bytes. -/
structure CallEnd where
  status : Nat
  results : Bits
  bytes  : Nat
  deriving DecidableEq, Repr

/-- A call that ends with a status and states no results. -/
def ends (status : Nat) : M CallEnd := pure { status := status, results := 0, bytes := 0 }

/-- A call that ends with results of so many bytes. -/
def gives (n : Nat) (v : Bits) : M CallEnd := pure { status := callOk, results := v, bytes := n }

/-- MAILBOX of the event word (R374). -/
def eventMailbox : Word := 2

/-- The mailbox as it stands. -/
def getBox (s : State) : Mbox → Mailbox
  | .part p => s.mailbox p
  | .mgmt => s.mgmtBox

/-- Write a mailbox's record. -/
def putBox (m : Mbox) (x : Mailbox) : M Unit :=
  match m with
  | .part p => upd (.mailbox p x)
  | .mgmt => upd (.mgmtBox x)

/-- Whether a caller reaches a mailbox (R370, R373, R380, R386). While the monitor awaits the management controller's DOMAIN and
ACCESS, and after a refused image, the management mailbox hears every fabric caller. -/
def mayCall (s : State) (m : Mbox) (w : Caller) : Bool :=
  match m, w with
  | .part p, .hart g => decide (p < 64) && (s.hart g).runsIn p
  | .part p, .fabric id => decide (p < 64) && s.fabricOpen && s.mayReach id p
  | .mgmt, .hart _ => false
  | .mgmt, .fabric id =>
    match s.security.boot with
    | .off => false
    | .refused | .monitor => true
    | .open => decide (id < 1023) && (s.accessOf id).2

/-- A caller that a mailbox does not hear is answered at all (R386). -/
def hearsRefusal (s : State) (w : Caller) : Bool :=
  match w with
  | .hart _ => false
  | .fabric _ => s.fabricOpen

/-- The write of a request line ends, for a fabric caller. -/
def acknowledge (w : Caller) (r : Reply) : M Unit :=
  match w with
  | .hart _ => pure ()
  | .fabric _ => answer r

/-- The response of a call that has ended. The bytes that no result fills are free values. -/
def respond (m : Mbox) (tag : BitVec 16) (e : CallEnd) : M Unit := do
  let rest ← freeBits (8 * (120 - e.bytes))
  let line := e.status + tag.toNat * 2 ^ 16 + 2 ^ 32 + (e.results % 2 ^ (8 * e.bytes)) * 2 ^ 64 + rest * 2 ^ (64 + 8 * e.bytes)
  putBox m { request := 0, response := line }
  match m with
  | .part p => setEvent p eventMailbox
  | .mgmt => pure ()

/-- A request: it is ignored while another runs in its mailbox; one whose steps wait goes on when it comes again. -/
def call (m : Mbox) (w : Caller) (code : Nat) (tag : BitVec 16) (body : M CallEnd) : M Unit := do
  let s ← getState
  if mayCall s m w then do
    acknowledge w .ok
    let req := code + tag.toNat * 2 ^ 16
    let x := getBox s m
    if x.request = 0 ∨ x.request = req then do
      putBox m { request := req, response := tag.toNat * 2 ^ 16 }
      respond m tag (← body)
    else pure ()
  else whenM (hearsRefusal s w) (acknowledge w .denied)

/-- A call of a partition's mailbox; in the management mailbox it is not listed. -/
def partCall (m : Mbox) (w : Caller) (code : Nat) (tag : BitVec 16) (body : Nat → M CallEnd) : M Unit :=
  call m w code tag (match m with
    | .part p => body p
    | .mgmt => do
      if (← gets (fun s => s.security.boot)) = .open then ends callBadarg else ends callState)

/-! ### The partition entry (R150) -/

/-- STATE's code. -/
def PState.code : PState → Nat
  | .free => 0 | .config => 1 | .locked => 2 | .run => 3 | .error => 4

/-- Bytes 128 to 255 of an entry. -/
def rangeFields : Nat → List (Nat × Nat) → List IField
  | _, [] => []
  | off, (b, n) :: rest => (off, 8, b) :: (off + 8, 8, n / 2 ^ 24) :: rangeFields (off + 16) rest

/-- The 256 bytes of a partition's entry. -/
def entryBits (x : Part) : Bits :=
  fieldBits ([(0, 8, x.state.code + x.pceil * 8 + x.fwdlim.toNat * 64 + bit x.pause * 256), (8, 16, x.clusters),
    (24, 8, x.queues), (32, 2, x.quota0), (34, 2, x.quota1), (36, 4, x.nodecnt), (40, 8, x.fqbase), (48, 8, x.dlbase),
    (56, 1, x.dlcap), (64, 8, x.jbase), (72, 8, x.relbase), (80, 8, x.ctxbase), (88, 8, x.nodebase), (96, 8, x.proot.toNat),
    (104, 8, x.tvbase.toNat), (112, 4, x.lvlcap), (116, 4, x.ctxcap), (120, 8, x.rbbase)] ++ rangeFields 128 x.ranges)

/-- The low n bytes of a bit string. -/
def byteList : Nat → Bits → List Byte
  | 0, _ => []
  | n + 1, v => BitVec.ofNat 8 v :: byteList n (v / 256)

/-! ### The counter window's rows (R162, R370) -/

/-- A queue's row. -/
def queueRow (q : Queue) (cycle : Nat) : Bits :=
  let q := q.aged cycle 8
  fieldBits ((0, 8, q.accept) :: ((List.range 6).map (fun k => (8 + 4 * k, 4, q.refuse.getD k 0)))
    ++ [(32, 2, q.ageCyc cycle), (34, 1, q.step)])

/-- A tier's row. -/
def tierRow (t : Tier) : Bits :=
  packBytes ([t.drcor, t.drunc, t.srcor, t.srunc, t.poisonwb, t.scrubs, t.crcdrop, t.wakeovf].map (fun n => (n, 4)))

/-- A port's row. -/
def portRow (counts : List Nat) : Bits := packBytes (counts.map (fun n => (n, 8)))

/-- A partition holds a cluster on a tier. -/
def Part.onTier (x : Part) (t : Nat) : Bool := (tierClusters t).any (fun c => bitAt x.clusters c)

/-- A partition holds a queue pair on a port. -/
def EthPort.heldBy (x : EthPort) (p : Nat) : Bool := x.owner.any (fun e => e.2 == p)

/-- The row of a tower. -/
def towerRow (x : Tower) : Bits := fieldBits [(0, 8, x.seq), (8, 8, x.frame.toNat)]

/-- The 64 bytes of the counter window at an offset, as the monitor reads them (R162, R370). -/
def counterWindow (s : State) (off : Nat) : Bits :=
  if off < 0x1000 then queueRow (s.queue (off / 0x40)) s.cycle
  else if off < 0x1600 then tierRow (s.tier ((off - 0x1000) / 0x40))
  else if off = 0x1800 then towerRow (s.tower 0) + towerRow (s.tower 1) * 2 ^ 128
  else if 0x2000 ≤ off ∧ off < 0x2000 + 0x40 * numLinks then portRow (s.link ((off - 0x2000) / 0x40)).counts
  else if 0x2800 ≤ off ∧ off < 0x2900 then portRow (s.port ((off - 0x2800) / 0x40)).counts
  else 0

/-- The row of the counter window at an offset, when it is one of the partition's. -/
def counterRow (s : State) (p off : Nat) : Option Bits :=
  let own : Bool :=
    if off < 0x1000 then bitAt (s.part p).queues (off / 0x40)
    else if off < 0x1600 then (s.part p).onTier ((off - 0x1000) / 0x40)
    else decide (0x2800 ≤ off) && decide (off < 0x2900) && (s.port ((off - 0x2800) / 0x40)).heldBy p
  if off % 0x40 = 0 ∧ own then some (counterWindow s off) else none

/-! ### Calls 1 to 4 -/

/-- PART_INFO's results: bytes 0 to 119 of the entry. -/
def partInfoBody (p : Nat) : M CallEnd := do gives 120 (entryBits (← gets (fun s => s.part p)))

/-- PART_INFO (R376). -/
def execPartInfo (m : Mbox) (w : Caller) (tag : BitVec 16) : State → Host.Outcome State Fault Refusal :=
  runM (partCall m w 1 tag partInfoBody)

/-- COUNTERS (R162, R376). -/
def execCounters (m : Mbox) (w : Caller) (tag : BitVec 16) (off : Nat) : State → Host.Outcome State Fault Refusal :=
  runM (partCall m w 2 tag (fun p => do
    match ← gets (fun s => counterRow s p off) with
    | some row => gives 64 row
    | none => ends callDenied))

/-- SHOOTDOWN's steps: while pins are waited for, new instructions wait for the call (R140). -/
def shootdownBody (at' : Option Nat) (p : Nat) : M CallEnd := do
  let waits (w : Option (Option Nat)) : M Unit := do
    whenM (← gets (fun s => (s.part p).shooting != w)) (modPart p (fun x => { x with shooting := w }))
  if ← shoot p at' then do
    waits none
    ends callOk
  else do
    waits (some at')
    halt

/-- SHOOTDOWN (R236, R376). -/
def execShootdown (m : Mbox) (w : Caller) (tag : BitVec 16) (va : Word) (all : Bool) :
    State → Host.Outcome State Fault Refusal :=
  runM (partCall m w 3 tag (shootdownBody (if all then none else some va.toNat)))

/-- RESUME's steps. -/
def resumeBody (p : Nat) : M CallEnd := do
  let x ← gets (fun s => s.part p)
  if x.state ≠ .run ∨ x.pause = false then ends callState
  else if ← reload p then ends callOk
  else ends callBadarg

/-- RESUME (R132, R348, R376). -/
def execResume (m : Mbox) (w : Caller) (tag : BitVec 16) : State → Host.Outcome State Fault Refusal :=
  runM (partCall m w 4 tag resumeBody)

/-! ### ABANDON (R351) -/

/-- Discard a hart with no image: its completed writes are performed as far as they can, its cluster's dirty bytes pass home (R25), a
move under way aborts, its queued broadcast writes belong to no hart any more, and a record of its that waits for room names none. -/
def discardHart (g : Nat) : M Unit := do
  let h ← getHart g
  stopFlight g
  let _ ← flushHart g
  mergeCluster (clusterOf g)
  disown g
  modPart h.partid.toNat (fun x => x.renamed g none)
  freeHart g

/-- Discard a placed gang. -/
def discardGang (gg : Nat) (x : Gang) : M Unit := do
  eachM (x.standing) discardHart
  upd (.gang gg none)

/-- Free the image slots of suspended gangs. -/
def dropImages (p : Nat) (ys : List Susp) : M Unit := do
  let slots := (ys.flatMap (fun y => y.slots)).filter (fun k => k != noIndex)
  if slots.isEmpty then pure ()
  else do
    let map ← readMap p
    writeArea p (mapAddr (← gets (fun s => s.part p))) 512 (slots.foldl (fun b k => bitPut b k false) map)
    modPart p (fun x => slots.foldl (fun (x : Part) k => x.renamed (Config.numHarts + k) none)
      { x with hidden := x.hidden.filter (fun e => !slots.contains e.1) })

/-- The placed gangs of a launch. -/
def gangsOfLaunch (s : State) (id : Nat) : List (Nat × Gang) := s.gangs.filter (fun e => e.2.launch == id)

/-- Abandon a launch. -/
def abandonLaunch (p id : Nat) (l : Launch) (abcode : Nat) : M Unit := do
  let gs ← gets (fun s => gangsOfLaunch s id)
  eachM gs (fun e => discardGang e.1 e.2)
  dropImages p l.resume
  modQueue l.queue (fun q => { q with
    pkts := q.pkts.filter (fun k => k != id), resume := q.resume.filter (fun k => k != id) })
  launchEnds id false abcode
  refreshPart p

/-- Mark the READY nodes of a graph FAILED. -/
def failReady (gr p : Nat) : List Nat → M Unit
  | [] => pure ()
  | j :: js => do
    let b ← readNode p j
    whenM (ndState b == ndReady) (do
      setNode p j ndFailed
      nodeLeaves gr j true)
    failReady gr p js

/-- Abandon a graph. -/
def abandonGraph (gr : Nat) (x : Graph) (abcode : Nat) : M Unit := do
  modGraph gr (fun x => { x with abandoned := true })
  failReady gr x.part x.nodes
  whenM (x.gdone != 0)
    (completionRecord x.part x.gdone.toNat (recordBits 2 2 abcode x.seq x.addr.toNat 0))
  journalStatus x.part x.seq 4
  graphEnd gr

/-- ABANDON (R351, R376). -/
def execAbandon (m : Mbox) (w : Caller) (tag : BitVec 16) (paddr : Word) (abcode : BitVec 16) :
    State → Host.Outcome State Fault Refusal :=
  runM (partCall m w 5 tag (fun p => do
    let s ← getState
    match (launchesOf s p).find? (fun e => e.2.paddr == paddr) with
    | some (id, l) => do
      abandonLaunch p id l abcode.toNat
      ends callOk
    | none =>
      match s.graphs.find? (fun e => e.2.part == p && e.2.addr == paddr && !e.2.abandoned) with
      | some (gr, x) => do
        abandonGraph gr x abcode.toNat
        ends callOk
      | none => ends callBadarg))

/-! ### SETEVENT, QUOTA -/

/-- SETEVENT (R374, R376). -/
def execSetevent (m : Mbox) (w : Caller) (tag : BitVec 16) (target : Nat) (hevaddr : Word) :
    State → Host.Outcome State Fault Refusal :=
  runM (partCall m w 6 tag (fun p => do
    let x ← gets (fun s => s.part p)
    if target < Config.numHarts ∧ bitAt x.clusters (clusterOf target) then do
      modPart p (fun x => { x with target := some target, hevaddr := hevaddr })
      ends callOk
    else ends callBadarg))

/-- QUOTA (R150, R151, R376). -/
def execQuota (m : Mbox) (w : Caller) (tag : BitVec 16) (q0 q1 : Nat) : State → Host.Outcome State Fault Refusal :=
  runM (partCall m w 7 tag (fun p => do
    if q0 ≤ 768 ∧ q1 ≤ 768 then do
      modPart p (fun x => { x with quota0 := q0, quota1 := q1 })
      ends callOk
    else ends callBadarg))

/-! ### Ethernet resources (R376 to R379) -/

/-- Ethernet ports, and queue pairs of a port (R377). -/
def numPorts : Nat := 4
/-- Queue pairs of a port. -/
def queuePairs : Nat := 1024

/-- The free queue pairs of a port, ascending. -/
def EthPort.freePairs (x : EthPort) : List Nat := (List.range queuePairs).filter (fun k => (tabFind x.owner k).isNone)

/-- QPAIR (R376, R377): the lowest free pairs. -/
def execQpair (m : Mbox) (w : Caller) (tag : BitVec 16) (port count : Nat) : State → Host.Outcome State Fault Refusal :=
  runM (partCall m w 8 tag (fun p => do
    let x ← gets (fun s => s.port port)
    if numPorts ≤ port then ends callBadarg
    else if x.freePairs.length < count then ends callState
    else do
      modPort port (fun x => { x with owner := (x.freePairs.take count).foldl (fun t k => tabPut t k p) x.owner })
      ends callOk))

/-- Registered regions that a partition may hold (R376). -/
def maxRegions : Nat := 4096

/-- MREG (R376, R379): the result is the key. -/
def execMreg (m : Mbox) (w : Caller) (tag : BitVec 16) (port : Nat) (va : Word) (len : Nat) (rd wr : Bool) :
    State → Host.Outcome State Fault Refusal :=
  runM (partCall m w 9 tag (fun p => do
    let s ← getState
    if numPorts ≤ port then ends callBadarg
    else if maxRegions ≤ (s.mregs.filter (fun e => e.2.part == p)).length then ends callState
    else do
      let key ← freshId
      upd (.mreg key (some { part := p, port := port, va := va.toNat, len := len, rd := rd, wr := wr }))
      gives 4 key))

/-- MDEREG (R376): inbound accesses are performed whole, so none is using it. -/
def execMdereg (m : Mbox) (w : Caller) (tag : BitVec 16) (key : Nat) : State → Host.Outcome State Fault Refusal :=
  runM (partCall m w 10 tag (fun p => do
    match ← gets (fun s => tabFind s.mregs key) with
    | some x =>
      if x.part = p then do
        upd (.mreg key none)
        ends callOk
      else ends callBadarg
    | none => ends callBadarg))

/-- QPCONN (R376, R379). -/
def execQpconn (m : Mbox) (w : Caller) (tag : BitVec 16) (port qp : Nat) (conn : QpConn) :
    State → Host.Outcome State Fault Refusal :=
  runM (partCall m w 11 tag (fun p => do
    if numPorts ≤ port ∨ queuePairs ≤ qp then ends callBadarg
    else if (tabFind (← gets (fun s => s.port port)).owner qp) = some p then do
      modPort port (fun x => { x with conns := tabPut x.conns qp conn })
      ends callOk
    else ends callState))

end Sys2Proof.Machine
end

