-- ==== Sys2Proof/Machine/Manage.lean ====
section
/-!
DEFINITION. Machine/Manage.lean: the calls of the management mailbox (R376): the transitions of a partition (R151), the slot table
(R146, R147), the access table (R373), links (R372), the package number (R71), migration (R352) and sleep policies (R383).
-/
namespace Sys2Proof.Machine

/-- A call of the management mailbox: BADARG in a partition's (R376); after a refused image every call answers STATE (R380); until
step 5 of bring-up has ended only the early ones do anything (R386). -/
def mgmtCall (m : Mbox) (w : Caller) (code : Nat) (tag : BitVec 16) (early : Bool) (body : M CallEnd) : M Unit :=
  call m w code tag (match m with
    | .part _ => ends callBadarg
    | .mgmt => do
      match ← gets (fun s => s.security.boot) with
      | .open => body
      | .monitor => if early then body else ends callState
      | _ => ends callState)

/-! ### CREATE -/

/-- The ranges of an entry's bytes 128 to 255, each in its place: the local base and the length in bytes, 0 for one not used. -/
def rangesOf (b : Bits) : List (Nat × Nat) :=
  (List.range 8).map (fun k => (bitsGet b (8 * (128 + 16 * k) + 24) 30 * 2 ^ 24, cutBytes b (136 + 16 * k) 8 * 2 ^ 24))

/-- The partition that an entry's bytes describe, in CONFIG. -/
def partOf (b : Bits) : Part :=
  { Part.reset with
    state := .config, pceil := bitsGet b 3 3, fwdlim := BitVec.ofNat 2 (bitsGet b 6 2), pause := b.testBit 8
    clusters := bitsGet b 64 96, queues := cutBytes b 24 8, quota0 := cutBytes b 32 2, quota1 := cutBytes b 34 2
    nodecnt := cutBytes b 36 4, fqbase := cutBytes b 40 8, dlbase := cutBytes b 48 8, dlcap := cutBytes b 56 1
    jbase := cutBytes b 64 8, relbase := cutBytes b 72 8, ctxbase := cutBytes b 80 8, nodebase := cutBytes b 88 8
    proot := BitVec.ofNat 64 (cutBytes b 96 8) &&& ptrootMask, tvbase := BitVec.ofNat 64 (cutBytes b 104 8) &&& addrMask
    lvlcap := cutBytes b 112 4, ctxcap := cutBytes b 116 4, rbbase := cutBytes b 120 8, ranges := rangesOf b }

/-- The fields are such as R150 lays out: quotas to 768, the dirty log's capacity, bases aligned; reserved bits are not read (R6). -/
def entryGood (b : Bits) : Bool :=
  let x := partOf b
  decide (x.quota0 ≤ 768) && decide (x.quota1 ≤ 768) && decide (12 ≤ x.dlcap) && decide (x.dlcap ≤ 24)
    && [x.fqbase, x.dlbase, x.jbase, x.relbase, x.ctxbase, x.nodebase].all (fun a => a % 128 == 0)
    && decide (x.rbbase % 2 ^ 24 = 0)

/-- The fields of an entry that LOCKED locks: all but STATE, PAUSE and the quotas (R151). -/
def Part.locked (x : Part) : Bits := entryBits { x with state := .free, pause := false, quota0 := 0, quota1 := 0 }

/-- Create a partition from an entry's bytes (FREE to CONFIG). In any other state the call answers STATE; one that would write a locked
field takes the partition to ERROR (log entry 84, DEDUCED). -/
def createPart (p : Nat) (b : Bits) : M CallEnd := do
  let x ← gets (fun s => s.part p)
  if 64 ≤ p ∨ entryGood b = false then ends callBadarg
  else if x.state ≠ .free then do
    whenM ((x.state == .locked || x.state == .run) && x.locked != (partOf b).locked) (partError p)
    ends callState
  else do
    upd (.part p (partOf b))
    ends callOk

/-- CREATE (R150, R151, R376). -/
def execCreate (m : Mbox) (w : Caller) (tag : BitVec 16) (p : Nat) (entry : BitVec 2048) :
    State → Host.Outcome State Fault Refusal :=
  runM (mgmtCall m w 16 tag false (createPart p entry.toNat))

/-! ### LOCK, START -/

/-- Two stretches overlap. -/
def rangesMeet (a b : Nat × Nat) : Bool :=
  decide (0 < a.2) && decide (0 < b.2) && decide (a.1 < b.1 + b.2) && decide (b.1 < a.1 + a.2)

/-- Two partitions hold a cluster, a queue or a byte of memory in common. -/
def Part.meets (x y : Part) : Bool :=
  (x.clusters &&& y.clusters) != 0 || (x.queues &&& y.queues) != 0
    || x.ranges.any (fun a => y.ranges.any (rangesMeet a))

/-- The slot table a tower will have from its next frame on. -/
def Tower.coming (x : Tower) : SlotTable := x.pending.getD x.table

/-- Every tier of a tower that holds a cluster of the partition has a slot of it (R147). -/
def slotsFor (tb : SlotTable) (tower p : Nat) (x : Part) : Bool :=
  (List.range 12).all (fun t => !x.onTier (12 * tower + t)
    || tb.slots.any (fun e => bitsGet e.toNat 0 4 == t && bitsGet e.toNat 6 6 == p))

/-- What a lock checks (R88, R147, R151, R348). -/
def lockable (s : State) (p : Nat) (x : Part) : Bool :=
  s.parts.all (fun e => e.1 == p || e.2.state == .free || !x.meets e.2)
    && x.ranges.all (fun r => decide (r.2 = 0) || decide (r.1 + r.2 ≤ Config.localBytes))
    && [0, 1].all (fun t => slotsFor (s.tower t).coming t p x)
    && decide (x.ctxcap ≤ 4096)

/-- LOCK (R151, R376): the entry as locked is measured (R381). -/
def execLock (m : Mbox) (w : Caller) (tag : BitVec 16) (p : Nat) : State → Host.Outcome State Fault Refusal :=
  runM (mgmtCall m w 17 tag false (do
    let s ← getState
    let x := s.part p
    if 64 ≤ p then ends callBadarg
    else if x.state ≠ .config ∨ lockable s p x = false then ends callState
    else do
      let x' := { x with state := .locked }
      upd (.part p x')
      upd (.security { s.security with
        measured := tabPut s.security.measured p (Config.sha256 (byteList 256 (entryBits x'))) })
      ends callOk))

/-- START (R151, R376). -/
def execStart (m : Mbox) (w : Caller) (tag : BitVec 16) (p : Nat) : State → Host.Outcome State Fault Refusal :=
  runM (mgmtCall m w 18 tag false (do
    let x ← gets (fun s => s.part p)
    if 64 ≤ p then ends callBadarg
    else if x.state ≠ .locked then ends callState
    else do
      modPart p (fun x => { x with state := .run })
      refreshPart p
      ends callOk))

/-! ### STOP -/

/-- Discard every hart of a partition that still stands placed, and its gangs. -/
def discardRest (p : Nat) : M Unit := do
  let gs ← gets (fun s => gangsOf s p none)
  eachM gs (fun e => discardGang e.1 e.2)
  let hs ← gets (fun s => (s.harts.filter (fun e => e.2.place.isSome && e.2.partid.toNat == p)).map (fun e => e.1))
  eachM hs discardHart

/-- STOP (R151, R348, R376): with too few image slots it answers STATE (log entry 18, DEDUCED). -/
def execStop (m : Mbox) (w : Caller) (tag : BitVec 16) (p : Nat) : State → Host.Outcome State Fault Refusal :=
  runM (mgmtCall m w 19 tag false (do
    let x ← gets (fun s => s.part p)
    if 64 ≤ p then ends callBadarg
    else if x.state ≠ .run then ends callState
    else if ← roomForAll p none then do
      suspendAll p none
      drainBroadcasts p
      discardRest p
      writeRegion p
      modPart p (fun x => { x with state := .config, kept := true, quiescer := none })
      refreshPart p
      ends callOk
    else ends callState))

/-! ### TEARDOWN -/

/-- A line lies in some ranges of local memory of this package. -/
def State.inRanges (s : State) (rs : List (Nat × Nat)) (l : Nat) : Bool :=
  pkgOf (128 * l) == s.pkg && rs.any (fun r => decide (r.1 ≤ localOf (128 * l)) && decide (localOf (128 * l) < r.1 + r.2))

/-- A line's moves end: one under way out of it or into it aborts. -/
def endMoves (l : Nat) : M Unit := do
  moveAbort l
  let srcs ← gets (fun s => movesInto s l)
  eachM srcs moveAbort

/-- Memory ranges are zeroed: data, metadata and cached copies. -/
def zeroRanges (rs : List (Nat × Nat)) : M Unit := do
  let s ← getState
  let ls := (s.lines.map (fun e => e.1)).filter (s.inRanges rs)
  eachM ls endMoves
  eachM rs (fun r => upd (.mem (s.physical r.1) r.2 0))
  eachM ls (fun l => upd (.line l LineMeta.reset))
  eachM s.clusters (fun c => eachM (c.2.filter (fun e => s.inRanges rs e.1)) (fun e => upd (.cc c.1 e.1 none)))

/-- A cluster's cores keep nothing for the next partition (R87). -/
def wipeCore (c : Nat) : M Unit := do
  upd (.spad c 0 (8192 * Config.coreBanks) 0)
  modCore c (fun k => { k with l1 := [], scache := [], icache := [] })

/-- A port without what a partition holds on it. -/
def EthPort.without (x : EthPort) (p : Nat) : EthPort :=
  { x with
    owner := x.owner.filter (fun e => e.2 != p)
    conns := x.conns.filter (fun e => tabFind x.owner e.1 != some p)
    work := x.work.filter (fun e => e.1 != p)
    recv := x.recv.filter (fun e => e.2.1 != p) }

/-- What the partition holds beside its entry goes: launches, graphs, queue contents, reclamations, Ethernet resources. -/
def releaseAllOf (p : Nat) : M Unit := do
  let s ← getState
  eachM (launchesOf s p) (fun e => upd (.launch e.1 none))
  eachM (s.graphs.filter (fun e => e.2.part == p)) (fun e => upd (.graph e.1 none))
  eachM (s.part p).queueList (fun q => modQueue q (fun x => { x with
    pkts := [], resume := [], ready := none, step := 0, urgent := none }))
  upd (.reclaims (s.reclaims.filter (fun r => r.part != p)))
  eachM (List.range numPorts) (fun e => modPort e (fun x => x.without p))
  eachM (s.mregs.filter (fun e => e.2.part == p)) (fun e => upd (.mreg e.1 none))
  upd (.security { s.security with measured := tabDel s.security.measured p })

/-- TEARDOWN (R87, R151, R376). -/
def execTeardown (m : Mbox) (w : Caller) (tag : BitVec 16) (p : Nat) : State → Host.Outcome State Fault Refusal :=
  runM (mgmtCall m w 20 tag false (do
    let x ← gets (fun s => s.part p)
    if 64 ≤ p then ends callBadarg
    else if x.state ≠ .config ∧ x.state ≠ .error then ends callState
    else do
      discardRest p
      releaseAllOf p
      zeroRanges x.ranges
      eachM x.cores wipeCore
      upd (.part p Part.reset)
      ends callOk))

/-! ### SLOTS, ACCESS, LINK, DOMAIN, SLEEP -/

/-- Units of a broadcast region's length, of which there may be 512 (R146, R329). -/
def regionUnit : Nat := 65536

/-- The wake-log area of a tier of a tower lies within its tier, outside the broadcast region and outside every partition's ranges
(R128). -/
def wlogGood (s : State) (tower : Nat) (tb : SlotTable) (t : Nat) : Bool :=
  let off := tb.wlogs.getD t 0
  let size := 640 * Config.wlogDepth
  let area := ((12 * tower + t) * Config.tierBytes + off, size)
  off == 0 || (off % regionUnit == 0 && decide (off + size ≤ Config.tierBytes) && !rangesMeet (off, size) (tb.bOff, tb.bLen)
    && s.parts.all (fun e => e.2.state == .free || !e.2.ranges.any (rangesMeet area)))

/-- A slot table that the monitor may write to a tower: the window's shape (R146), a region of at most 32 MiB within a tier
(R329), wake logs where R128 places them, and a slot for every tier that holds a cluster of a partition (R147). -/
def slotsGood (s : State) (tower : Nat) (tb : SlotTable) : Bool :=
  decide (tower < 2) && decide (tb.slots.length = 256) && decide (tb.wlogs.length = 12)
    && decide (tb.bOff % regionUnit = 0) && decide (tb.bLen % regionUnit = 0) && decide (tb.bLen ≤ 512 * regionUnit)
    && decide (tb.bOff + tb.bLen ≤ Config.tierBytes)
    && (List.range 12).all (wlogGood s tower tb)
    && s.parts.all (fun e => e.2.state == .free || slotsFor tb tower e.1 e.2)

/-- SLOTS (R146, R147, R376): it takes effect at the tower's next frame boundary. -/
def execSlots (m : Mbox) (w : Caller) (tag : BitVec 16) (tower : Nat) (entries : List (BitVec 16)) (off len : Nat)
    (wlogs : List Nat) : State → Host.Outcome State Fault Refusal :=
  runM (mgmtCall m w 21 tag false (do
    let s ← getState
    let tb : SlotTable := { slots := entries, bOff := off, bLen := len, wlogs := wlogs }
    if slotsGood s tower tb then do
      modTower tower (fun x => { x with pending := some tb })
      ends callOk
    else ends callBadarg))

/-- ACCESS (R373, R376): the first one ends step 5 of bring-up (R386, log entry 21, DEDUCED). -/
def execAccess (m : Mbox) (w : Caller) (tag : BitVec 16) (id : Nat) (pmask : Word) (mgmt : Bool) :
    State → Host.Outcome State Fault Refusal :=
  runM (mgmtCall m w 22 tag true (do
    if id < 1023 then do
      upd (.access id (pmask, mgmt))
      let x ← gets (fun s => s.security)
      upd (.security { x with boot := .open })
      ends callOk
    else ends callBadarg))

/-- LINK (R372, R376): DOWN to RETRAIN. -/
def execLink (m : Mbox) (w : Caller) (tag : BitVec 16) (k : Nat) : State → Host.Outcome State Fault Refusal :=
  runM (mgmtCall m w 23 tag false (do
    let s ← getState
    if numLinks ≤ k then ends callBadarg
    else if linkIs s k .down then do
      linkTo k (fun x => x.retraining s.cycle)
      ends callOk
    else ends callState))

/-- DOMAIN (R71, R376): STATE once any partition exists. -/
def execDomain (m : Mbox) (w : Caller) (tag : BitVec 16) (pkg : Nat) : State → Host.Outcome State Fault Refusal :=
  runM (mgmtCall m w 24 tag true (do
    let s ← getState
    if 900 ≤ pkg then ends callBadarg
    else if s.parts.any (fun e => e.2.state != .free) then ends callState
    else do
      upd (.pkg pkg)
      ends callOk))

/-- SLEEP (R376, R383): BADARG for a tier whose wake-log offset is 0. -/
def execSleep (m : Mbox) (w : Caller) (tag : BitVec 16) (tower mask : Nat) (on : Bool) :
    State → Host.Outcome State Fault Refusal :=
  runM (mgmtCall m w 26 tag false (do
    let s ← getState
    let ts := (List.range 12).filter (fun t => bitAt mask t)
    if 2 ≤ tower ∨ ts.any (fun t => (s.tower tower).coming.wlogs.getD t 0 == 0) then ends callBadarg
    else do
      eachM ts (fun t => modTier (12 * tower + t) (fun x => { x with policy := on }))
      ends callOk))

/-! ### MIGRATE (R352) -/

/-- A finished session with a peer (R382). -/
def sessionWith (s : State) (peer : Nat) : Bool := s.security.sessions.any (fun e => e.2.peer == peer && e.2.finished)

/-- The transfer waits on no link that is DOWN (R387). -/
def peerUp (s : State) (peer : Nat) : Bool := (s.link (Config.linkOf peer).val).st != .down

/-- The cells of a partition's ranges, by local address. -/
def cellsIn (s : State) (rs : List (Nat × Nat)) : List Host.Cell :=
  (s.mem.filter (fun c => s.inRanges rs (c.1 / 128))).map (fun c => (localOf c.1, c.2))

/-- Send a partition to the peer: the pages, the save area and the images as they stand. -/
def migrateOut (x : Part) : M CallEnd := do
  if x.state = .run ∨ x.state = .config then do
    let cells ← gets (fun s => cellsIn s x.ranges)
    answer (.partition (entryBits x) cells)
    ends callOk
  else ends callState

/-- Write received bytes at local addresses. -/
def receiveCells (image : List (Nat × Byte)) : M Unit := do
  let base ← gets (fun s => s.physical 0)
  eachM image (fun c => homeWrite (base + c.1) 1 c.2.toNat)

/-- Receive a partition from the peer: a partition that does not exist yet is created from its entry, and the bytes go to its
ranges. -/
def migrateIn (p : Nat) (x : Part) (entry : Bits) (image : List (Nat × Byte)) : M CallEnd := do
  let y := if x.state = .free then partOf entry else x
  if y.state ≠ .config then ends callState
  else if image.any (fun c => !y.holds c.1) then ends callBadarg
  else do
    let e ← if x.state = .free then createPart p entry else ends callOk
    whenM (e.status == callOk) (receiveCells image)
    pure e

/-- MIGRATE (R352, R376, R387). -/
def execMigrate (m : Mbox) (w : Caller) (tag : BitVec 16) (p peer : Nat) (out : Bool) (entry : BitVec 2048)
    (image : List (Nat × BitVec 8)) : State → Host.Outcome State Fault Refusal :=
  runM (mgmtCall m w 25 tag false (do
    let s ← getState
    let x := s.part p
    if 64 ≤ p then ends callBadarg
    else if sessionWith s peer = false ∨ peerUp s peer = false then ends callState
    else if out then migrateOut x
    else migrateIn p x entry.toNat image))

end Sys2Proof.Machine
end

