-- ==== Sys2Proof/Machine/Ether.lean ====
section
/-!
DEFINITION. Machine/Ether.lean: the Ethernet ports (R377 to R379): posting work and receive lines, completions, and inbound messages.
-/
namespace Sys2Proof.Machine

/-! ### Lines -/

/-- LVA of a line. -/
def lineLva (b : Bits) : Nat := bitsGet b 0 64
/-- LEN. -/
def lineLen (b : Bits) : Nat := bitsGet b 64 32
/-- QP. -/
def lineQp (b : Bits) : Nat := bitsGet b 96 16
/-- OP. -/
def lineOp (b : Bits) : Nat := bitsGet b 112 8
/-- CADDR. -/
def lineCaddr (b : Bits) : Nat := bitsGet b 256 64

/-- A length or completion address outside what R378 gives. -/
def lineBad (b : Bits) : Bool := decide (lineLen b = 0) || decide (2 ^ 31 < lineLen b) || decide (lineCaddr b % 16 ≠ 0)

/-- Lines outstanding of a partition on a port. -/
def EthPort.outstanding (x : EthPort) (p : Nat) : Nat :=
  (x.work.filter (fun e => e.1 == p)).length + (x.recv.filter (fun e => e.2.1 == p)).length

/-- Outstanding lines at which a partition's next is refused on a port (R378). -/
def maxLines : Nat := 256

/-- The port's frame counts move by what the exchange took on the wire, which the spec does not state: free values. -/
def countFrames (e : Nat) : M Unit := do
  let n ← freeBits 384
  modPort e (fun x => { x with counts := (List.range 6).foldl (fun c k => addTo c k (bitsGet n (64 * k) 64)) x.counts })

/-- Write a completion with release at .sys (R378): STATUS 1 DONE or 2 ERROR, LEN, and CYCLE. -/
def completion (p caddr status len : Nat) : M Unit := do
  let cycle ← gets (fun s => s.cycle)
  let _ ← devWrite p caddr 16 (status + len % 2 ^ 32 * 2 ^ 32 + cycle % 2 ^ 64 * 2 ^ 64)
  pure ()

/-- A completion with ERROR, whose LEN no rule states: a free value. -/
def completionError (p caddr : Nat) : M Unit := do
  let len ← freeBits 32
  completion p caddr 2 len

/-- Post a line of a caller to a partition's slot of a port: reached as R370 and R373 allow, checked in R378's order, and answered
to a fabric caller. -/
def postLine (w : Caller) (port p : Nat) (full : Bool) (accept : M Unit) : M Unit := do
  let s ← getState
  let status (code : Nat) : M Unit := acknowledge w (.status (statusWord code 0 0))
  let reached := match w with
    | .hart g => (s.hart g).runsIn p
    | .fabric id => s.fabricOpen && s.mayReach id p
  if reached && decide (port < numPorts) && decide (p < 64) then
    if !full then status partialCode
    else if !(s.port port).heldBy p then status deniedCode
    else if maxLines ≤ (s.port port).outstanding p then status fullCode
    else do
      accept
      status accepted
  else whenM (hearsRefusal s w) (acknowledge w .denied)

/-- An accepted work line waits for its completion. -/
def postWork (port p : Nat) (b : Bits) : M Unit := modPort port (fun x => { x with work := x.work ++ [(p, b)] })

/-- An accepted receive line waits for a message; one that names no queue pair of the partition, or that is malformed, ends in
ERROR at once. -/
def postRecv (port p : Nat) (b : Bits) : M Unit := do
  let x ← gets (fun s => s.port port)
  if lineBad b = false ∧ tabFind x.owner (lineQp b) = some p then
    modPort port (fun x => { x with recv := x.recv ++ [(lineQp b, p, b)] })
  else completionError p (lineCaddr b)

/-- WORK_LINE_POST (R378). -/
def execWorkLinePost (w : Caller) (port p : Nat) (line : BitVec 1024) (full : Bool) :
    State → Host.Outcome State Fault Refusal := runM (postLine w port p full (postWork port p line.toNat))

/-- RECEIVE_LINE_POST (R378, R379). -/
def execReceiveLinePost (w : Caller) (port p : Nat) (line : BitVec 1024) (full : Bool) :
    State → Host.Outcome State Fault Refusal := runM (postLine w port p full (postRecv port p line.toNat))

/-! ### Completing work (R378) -/

/-- The oldest outstanding work line of a partition, and the others. -/
def takeWork (p : Nat) : List (Nat × Bits) → Option (Bits × List (Nat × Bits))
  | [] => none
  | (k, b) :: rest => if k = p then some (b, rest) else (takeWork p rest).map (fun r => (r.1, (k, b) :: r.2))

/-- Bytes as one number, the first lowest. -/
def numOf : List Byte → Nat
  | [] => 0
  | b :: bs => b.toNat + 256 * numOf bs

/-- Move the payload of a work line: a SEND or RDMA WRITE reads LVA, an RDMA READ writes it. False when LVA does not translate. -/
def moveWork (p : Nat) (b : Bits) (data : List Byte) : M Bool :=
  if lineOp b = 2 then devWrite p (lineLva b) (lineLen b) (numOf (data.take (lineLen b)))
  else do pure (← devRead p (lineLva b) (lineLen b)).isSome

/-- A work line that names a connected queue pair of the partition and an operation. -/
def workGood (x : EthPort) (p : Nat) (b : Bits) : Bool :=
  lineBad b == false && decide (lineOp b ≤ 2) && tabFind x.owner (lineQp b) == some p && (tabFind x.conns (lineQp b)).isSome

/-- WORK_LINE_COMPLETION (R378): the oldest outstanding line of the partition on the port ends. -/
def execWorkLineCompletion (port p : Nat) (ok : Bool) (data : List (BitVec 8)) : State → Host.Outcome State Fault Refusal :=
  runM (do
    let x ← gets (fun s => s.port port)
    match takeWork p x.work with
    | none => pure ()
    | some (b, rest) => do
      modPort port (fun x => { x with work := rest })
      countFrames port
      let done ← if ok && workGood x p b then moveWork p b data else pure false
      if done then completion p (lineCaddr b) 1 (lineLen b) else completionError p (lineCaddr b))

/-! ### Inbound messages (R379) -/

/-- Reasons of a NAK. -/
def nakInvalid : Nat := 1
/-- Remote access error. -/
def nakAccess : Nat := 2

/-- The partition of a connected queue pair of a port. -/
def connected (x : EthPort) (qp : Nat) : Option Nat := (tabFind x.owner qp).filter (fun _ => (tabFind x.conns qp).isSome)

/-- The oldest receive line of a queue pair, and the others. -/
def takeRecv (qp : Nat) : List (Nat × Nat × Bits) → Option (Bits × List (Nat × Nat × Bits))
  | [] => none
  | (k, p, b) :: rest => if k = qp then some (b, rest) else (takeRecv qp rest).map (fun r => (r.1, (k, p, b) :: r.2))

/-- A message that is longer than its buffer: the port writes nothing beyond LEN; whether it writes what lies below is a free
choice. -/
def overlong (p : Nat) (b : Bits) (data : List Byte) : M Unit := do
  if ← gets (fun s => Config.freeValue s.freeCtr % 2 == 1) then do
    let _ ← devWrite p (lineLva b) (lineLen b) (numOf (data.take (lineLen b)))
  else pure ()
  let _ ← freeBits 1
  answer (.nak nakInvalid)
  completionError p (lineCaddr b)

/-- INBOUND_SEND (R379). -/
def execInboundSend (port qp : Nat) (data : List (BitVec 8)) : State → Host.Outcome State Fault Refusal :=
  runM (do
    let x ← gets (fun s => s.port port)
    match connected x qp with
    | none => pure ()
    | some p => do
      countFrames port
      match takeRecv qp x.recv with
      | none => answer .rnr
      | some (b, rest) => do
        modPort port (fun x => { x with recv := rest })
        if lineLen b < data.length then overlong p b data
        else if ← devWrite p (lineLva b) data.length (numOf data) then do
          completion p (lineCaddr b) 1 data.length
          answer .ok
        else do
          answer (.nak nakAccess)
          completionError p (lineCaddr b))

/-- The registration that an inbound operation names, if every check of R379 passes. -/
def regionFor (s : State) (port p key va len : Nat) (write : Bool) : Bool :=
  match tabFind s.mregs key with
  | some r => r.port == port && r.part == p && decide (r.va ≤ va) && decide (va + len ≤ r.va + r.len)
      && (if write then r.wr else r.rd)
  | none => false

/-- A translation fault of an inbound operation: the NAK, and a NOTRAP record with its cause. -/
def inboundFault (p va len : Nat) (acc : Acc) : M Unit := do
  answer (.nak nakAccess)
  let s ← getState
  match devCause s p acc (pagePieces va len) with
  | some c => postApart { FRec.base c 0x7FF p with detail := acc.detail } (some va)
  | none => pure ()

/-- INBOUND_RDMA_WRITE (R378, R379): performed at its home before it is acknowledged. -/
def execInboundRdmaWrite (port qp key : Nat) (va : Word) (data : List (BitVec 8)) :
    State → Host.Outcome State Fault Refusal :=
  runM (do
    let s ← getState
    match connected (s.port port) qp with
    | none => pure ()
    | some p => do
      countFrames port
      if regionFor s port p key va.toNat data.length true then
        if ← devWrite p va.toNat data.length (numOf data) then answer .ok
        else inboundFault p va.toNat data.length .store
      else answer (.nak nakAccess))

/-- INBOUND_RDMA_READ (R379). -/
def execInboundRdmaRead (port qp key : Nat) (va : Word) (len : Nat) : State → Host.Outcome State Fault Refusal :=
  runM (do
    let s ← getState
    match connected (s.port port) qp with
    | none => pure ()
    | some p => do
      countFrames port
      if regionFor s port p key va.toNat len false then
        match ← devRead p va.toNat len with
        | some v => answer (.data (byteList len v))
        | none => inboundFault p va.toNat len .load
      else answer (.nak nakAccess))

end Sys2Proof.Machine
end

