-- ==== Sys2Proof/Machine/FrontSteps.lean ====
section
/-!
DEFINITION. Machine/FrontSteps.lean: arrivals at a launch-queue window (R121, R122, R130), the front end's cycle (R117), aging
(R116), pre-emption of a gang (R343) and the start of a graph node (R149).
-/
namespace Sys2Proof.Machine

/-- Answer an arrival from the fabric at queue q, and count it. -/
def answerArrival (q code check seq : Nat) : M Unit := do
  countArrival q code
  answer (.status (statusWord code check seq))

/-- The partition that an endpoint's write to queue q's window reaches: none for DENIED. -/
def windowPart (s : State) (id q : Nat) : Option Nat := (queueOwner s q).filter (fun p => s.mayReach id p)

/-- An accepted command's journal writes failed (R399). -/
def journalFails (p q : Nat) : M Unit := do
  partError p
  answerArrival q deniedCode 0 0

/-- Journal a command that has passed the checks before JOURNAL, and then do what accepting it means, before the answer (R122,
R130). -/
def journalled (p q kind : Nat) (line : Bits) (accept : Nat → Word → M Unit) : M Unit := do
  match ← journalLook p with
  | .failed => journalFails p q
  | .busy => answerArrival q journalCode 0 0
  | .next seq =>
    if ← journalAccept p q kind seq line then do
      let slot ← gets (fun s => journalSlot (s.part p) seq)
      accept seq (BitVec.ofNat 64 slot)
      answerArrival q accepted 0 seq
    else journalFails p q

/-- A launch packet from an endpoint. -/
def hostPacket (id q : Nat) (line : Bits) : M Unit := do
  match ← gets (fun s => windowPart s id q) with
  | none => answerArrival q deniedCode 0 0
  | some p =>
    match ← gets (fun s => packetRefusal s p q line) with
    | some (code, check) => answerArrival q code check 0
    | none => journalled p q 1 line (fun seq slot => enqueuePacket p q line slot 0 seq none)

/-- A graph-start line from an endpoint. -/
def hostGraph (id q : Nat) (line : Bits) : M Unit := do
  match ← gets (fun s => windowPart s id q) with
  | none => answerArrival q deniedCode 0 0
  | some p =>
    match ← graphRefusal p line with
    | none => journalFails p q
    | some (some code) => answerArrival q code 0 0
    | some none => journalled p q 2 line (fun seq slot => do
        if ← graphStart p q slot seq line then pure () else partError p)

/-- A write of an endpoint to queue q's window (R121). A window that does not exist refuses it. -/
def windowStore (id q off : Nat) (line : Bits) (full : Bool) : M Unit :=
  if 64 ≤ q then answer .denied
  else if !full ∨ (off ≠ 0 ∧ off ≠ 0x80) then answerArrival q partialCode 0 0
  else if off = 0 then hostPacket id q line
  else hostGraph id q line

/-- ENQUEUE_STORE (R121, R122). A hart's store never reaches the window (R370). -/
def execEnqueueStore (w : Caller) (q off : Nat) (line : BitVec 1024) (full : Bool) :
    State → Host.Outcome State Fault Refusal :=
  runM (match w with
    | .hart _ => pure ()
    | .fabric id => fromFabric (windowStore id q off line.toNat full))

/-- GRAPH_START_WINDOW (R121, R334). -/
def execGraphStartWindow (w : Caller) (q : Nat) (line : BitVec 1024) (full : Bool) : State → Host.Outcome State Fault Refusal :=
  runM (match w with
    | .hart _ => pure ()
    | .fabric id => fromFabric (windowStore id q 0x80 line.toNat full))

/-- PLACE_GANG (R117, R118): one cycle of a tower's front end. -/
def execPlaceGang (tower : Nat) : State → Host.Outcome State Fault Refusal := runM (whenM (decide (tower < 2)) (placeOne tower))

/-- AGING_STEP (R116). -/
def execAgingStep (q : Nat) : State → Host.Outcome State Fault Refusal :=
  runM (do
    let s ← getState
    whenM (decide (q < 64)) (modQueue q (fun x => x.age s.cycle)))

/-- The gang of a hart that may be pre-empted: its partition runs, no member is lost, and it has image slots for all. -/
def preemptible (g : Nat) : M (Option Nat) := do
  let s ← getState
  match s.gangOf g with
  | none => pure none
  | some (gg, x) =>
    let p := (s.hart g).partid.toNat
    if (s.part p).state = .run ∧ x.lost.isEmpty then do
      let map ← readMap p
      gets (fun s => if x.saved.length ≤ (freeSlots (s.part p) map).length then some gg else none)
    else pure none

/-- PREEMPTION (R31, R119, R343): the hart is stopped and its image written, with every other member of its gang. -/
def execPreemption (g : Nat) : State → Host.Outcome State Fault Refusal :=
  runM (do
    match ← preemptible g with
    | some gg => suspendGang gg
    | none => pure ())

/-- GRAPH_NODE_START (R149). -/
def execGraphNodeStart (gr node : Nat) : State → Host.Outcome State Fault Refusal := runM (startNode gr node)

end Sys2Proof.Machine
end

