-- ==== Sys2Proof/Machine/Fabric.lean ====
section
/-!
DEFINITION. Machine/Fabric.lean: requests from the fabric (R103, R105, R112, R370, R373): to local DRAM line by line, and to the
device windows.
-/
namespace Sys2Proof.Machine

/-! ### Local DRAM -/

/-- The partition that a line's PTAG names: a line that nothing has written yet is tagged when it is (R98). -/
def tagOf (s : State) (line : Nat) : Nat :=
  let t := (s.line line).ptag
  if t = 127 then s.ptagOf (localOf (128 * line)) else t

/-- R373's first row for one line: a package's request names the line's partition. -/
def lineOpen (s : State) (id : Nat) (part : Option Nat) (line : Nat) : Bool :=
  let t := tagOf s line
  decide (t < 64) && s.mayReach id t && (decide (900 ≤ id) || part == some t)

/-- What stands in the way of an access at its line: nothing, a hold or a wake, an answer. -/
inductive AtLine where
  | free
  | held
  | ends (r : Reply)
  deriving DecidableEq, Repr

/-- A fabric access at one line of local DRAM: whole says that it writes all of it. -/
def atLine (line : Nat) (whole : Bool) : M AtLine := do
  if ← wakeFor (128 * line) then pure .held
  else do
    let s ← getState
    let x := s.line line
    if x.mark != (x.st != 0#2) then do
      dramError line
      pure (.ends .poison)
    else if x.st = 1#2 ∨ x.reserved then do
      holdAt line
      pure .held
    else if x.st = 2#2 ∨ x.st = 3#2 then pure (.ends (.record (s.bytes (128 * line) 128)))
    else if x.poison ∧ !whole then pure (.ends .poison)
    else pure .free

/-- The first line that stands in the way. -/
def atLines (pa n : Nat) (write : Bool) : List (Nat × Nat) → M AtLine
  | [] => pure .free
  | (a, k) :: rest => do
    match ← atLine (a / 128) (write && k == 128) with
    | .free => atLines pa n write rest
    | r => pure r

/-- Every cluster gives up its copies of the lines of an access (R94). -/
def probeLines (ps : List (Nat × Nat)) : M Unit :=
  eachM ps (fun e => do
    let s ← getState
    recallLine (e.1 / 128) (holders s e.1))

/-- Write bytes at their home for the fabric. -/
def fabricStore (pa n : Nat) (v : Bits) : M Unit := do
  probeLines (linePieces pa n)
  homeWrite pa n v
  keepReclaim pa n

/-- Carry out a request to DRAM that the access table and the lines let pass. -/
def fabricPerform (pa : Nat) : FabReq → M Unit
  | .read _ n => do answer (.data (byteList n (← gets (fun s => s.bytes pa n))))
  | .write _ data => do
    fabricStore pa data.length (numOf data)
    answer .ok
  | .atomic _ size op operand cmp => do
    probeLines (linePieces pa size)
    let old ← gets (fun s => s.bytes pa size)
    let low (v : Word) : Nat := v.toNat % 2 ^ (8 * size)
    match amoResult op (8 * size) old (low operand) (low cmp) with
    | some v => fabricStore pa size v
    | none => pure ()
    answer (.data (byteList size old))

/-- Address, bytes and whether it writes. -/
def reqShape : FabReq → Nat × Nat × Bool
  | .read a n => (a, n, false)
  | .write a d => (a, d.length, true)
  | .atomic a n _ _ _ => (a, n, true)

/-- An atomic that R277 lays out: 4 or 8 bytes, aligned, a listed operation. -/
def reqGood : FabReq → Bool
  | .atomic a n op _ _ => (n == 4 || n == 8) && a % n == 0 && decide (op ≤ 9)
  | _ => true

/-- A request inside a tower's broadcast region (R105): a read returns the replica of the tier the address names, and waits
while it wakes or refills. -/
def regionRequest (a n : Nat) (write : Bool) : M Unit := do
  let s ← getState
  if write then answer .denied
  else
    let t := homeTier a
    if ← wakeFor (s.physical a) then pure ()
    else if (s.tier t).replica != .current then pure ()
    else answer (.data (byteList n (s.bytes (s.physical a) n)))

/-- A request to local DRAM. One that its line's home holds goes on when the home replays it (R103); one that waits for a tier is asked
again. -/
def dramRequest (id : Nat) (part : Option Nat) (req : FabReq) : M Unit := do
  let s ← getState
  let (a, n, write) := reqShape req
  let pa := s.physical a
  let ps := linePieces pa n
  if ps.any (fun e => s.inBroadcast (localOf e.1)) then
    if ps.all (fun e => s.inBroadcast (localOf e.1)) then regionRequest a n write else answer .denied
  else if !reqGood req || !ps.all (fun e => lineOpen s id part (e.1 / 128)) then answer .denied
  else
    match ← atLines pa n write ps with
    | .held => pure ()
    | .ends r => answer r
    | .free => fabricPerform pa req

/-! ### Windows -/

/-- The partition that a window belongs to (R373). -/
def Win.owner (s : State) : Win → Option Nat
  | .launch q => (s.parts.find? (fun e => e.2.state != .free && bitAt e.2.queues q)).map (fun e => e.1)
  | .event p => some p
  | .mbox p => some p
  | .eth _ p => some p
  | _ => none

/-- A full-line write of a request line to a mailbox: the calls that take no arguments run; a code that is not listed answers
BADARG; the others come as their own steps (log entry 19, DEDUCED). -/
def mailboxWrite (m : Mbox) (id : Nat) (line : Bits) : M Unit :=
  let code := bitsGet line 0 16
  let tag : BitVec 16 := BitVec.ofNat 16 (bitsGet line 16 16)
  match code with
  | 1 => partCall m (.fabric id) 1 tag partInfoBody
  | 4 => partCall m (.fabric id) 4 tag resumeBody
  | _ =>
    if (1 ≤ code ∧ code ≤ 11) ∨ (16 ≤ code ∧ code ≤ 26) then acknowledge (.fabric id) .ok
    else call m (.fabric id) code tag (do
      if (← gets (fun s => s.security.boot)) = .open then ends callBadarg else ends callState)

/-- A write to a window of a partition. -/
def windowRequest (id : Nat) (win : Win) (off : Nat) (data : List Byte) : M Unit :=
  let full := data.length == 128 && off % 128 == 0
  let line : BitVec 1024 := BitVec.ofNat 1024 (numOf data)
  match win with
  | .event p => do
    whenM (off == 0 && data.length == 8) (setEvent p (BitVec.ofNat 64 (numOf data) &&& 0xFFFFFFFFFFFF0000))
    answer .ok
  | .mbox p => if full && off == 0 then mailboxWrite (.part p) id line.toNat else answer .ok
  | .eth e p =>
    postLine (.fabric id) e p full (if off = 0 then postWork e p line.toNat else postRecv e p line.toNat)
  | _ => answer .denied

/-- A request to a window. -/
def toWindow (id : Nat) (win : Win) (off : Nat) (req : FabReq) : M Unit := do
  let s ← getState
  let open' : Bool := match win with
    | .mgmt => decide (id < 1023) && (s.accessOf id).2
    | w => match w.owner s with
      | some p => s.mayReach id p
      | none => false
  match win, req with
  | .launch q, .write _ d => windowStore id q off (numOf d) (d.length == 128 && off % 128 == 0)
  | _, .read _ n =>
    if open' then answer (.data (byteList n (match win with
      | .mgmt => if 0x80 ≤ off ∧ off < 0x100 then bitsGet s.mgmtBox.response (8 * (off - 0x80)) (8 * n) else 0
      | w => windowRead s w off n)))
    else answer .denied
  | _, .write _ d =>
    if !open' then answer .denied
    else match win with
      | .mgmt => if d.length = 128 ∧ off = 0 then mailboxWrite .mgmt id (numOf d) else answer .ok
      | w => windowRequest id w off d
  | _, .atomic .. => answer .denied

/-- FABRIC_REQUEST (R373). A write that begins in a launch queue's window and leaves it is one of that window (R122). -/
def execFabricRequest (id : Nat) (part : Option Nat) (req : FabReq) : State → Host.Outcome State Fault Refusal :=
  runM (fromFabric (do
    let k := (Config.linkOf id).val
    let n ← freeBits 128
    modLink k (fun x => { x with retries := 0, counts := addTo (addTo x.counts 0 (bitsGet n 0 64)) 1 (bitsGet n 64 64) })
    let (a, len, _) := reqShape req
    if 1023 ≤ id ∨ len = 0 then answer .denied
    else if a + len ≤ Config.localBytes then dramRequest id part req
    else
      match windowAt a, windowAt (a + len - 1), req with
      | some (.launch q, off), _, .write .. => toWindow id (.launch q) off req
      | some (w, off), some (w', _), _ => if w = w' then toWindow id w off req else answer .denied
      | _, _, _ => answer .denied))

end Sys2Proof.Machine
end

