-- ==== Sys2Proof/Machine/HartSteps.lean ====
section
/-!
DEFINITION. Machine/HartSteps.lean: the steps of a hart that no encoding selects. CSR writes (R61 to R81), the vector queue, copy
channels, moves, reclamations and completed writes moving of themselves (R101, R124, R126, R288, R292, R398), fault records,
events and WFE's end (R127, R214, R234, R374), and a peer's acknowledgement (R178).
-/
namespace Sys2Proof.Machine

/-! ### CSR writes -/

/-- A hart's write of a CSR that its privilege may write (R61): it waits as the instruction does, and then writes. -/
def csrEvent (g n : Nat) (v : Word) : M Unit := do
  let s ← getState
  let h := s.hart g
  if h.runs ∧ (csrValue s g n).isSome ∧ csrAllowed n h.sup true then do
    csrWait g n true
    csrStore g n v
  else pure ()

/-- VTYPE_WRITE (R66). -/
def execVtypeWrite (g : Nat) (v : Word) : State → Host.Outcome State Fault Refusal := runM (csrEvent g 0x013 v)
/-- VSTART_WRITE (R64). -/
def execVstartWrite (g : Nat) (v : Word) : State → Host.Outcome State Fault Refusal := runM (csrEvent g 0x012 v)
/-- RMODE_WRITE (R67). -/
def execRmodeWrite (g : Nat) (v : Word) : State → Host.Outcome State Fault Refusal := runM (csrEvent g 0x011 v)
/-- VLCAP_WRITE (R75, R81). -/
def execVlcapWrite (g : Nat) (v : Word) : State → Host.Outcome State Fault Refusal := runM (csrEvent g 0x820 v)
/-- SPBANKS_WRITE (R79). -/
def execSpbanksWrite (g : Nat) (v : Word) : State → Host.Outcome State Fault Refusal := runM (csrEvent g 0x821 v)
/-- PTROOT_WRITE (R231). -/
def execPtrootWrite (g : Nat) (v : Word) : State → Host.Outcome State Fault Refusal := runM (csrEvent g 0x810 v)
/-- CSR_WRITE (R61). -/
def execCsrWrite (g : Nat) (c : BitVec 12) (v : Word) : State → Host.Outcome State Fault Refusal :=
  runM (csrEvent g c.toNat v)

/-! ### The vector queue and copy channels -/

/-- VECTOR_ENTRY_COMPLETE (R124): the oldest entry performs, and completes unless it waits or traps. -/
def execVectorEntryComplete (g : Nat) : State → Host.Outcome State Fault Refusal :=
  runM (do
    if (← getHart g).runs then do
      let _ ← runHead g
    else pure ())

/-- STRIP_FETCH (R126): an element of a released strip is fetched. -/
def execStripFetch (g ch elem : Nat) : State → Host.Outcome State Fault Refusal :=
  runM (do
    let h ← getHart g
    let c := h.chan ch
    if ch < 4 ∧ chanRuns h ch ∧ elem < c.limit ∧ c.isFetched elem = false then do
      let _ ← fetchElem g ch elem
    else pure ())

/-- ELEMENT_LANDING (R292): a fetched element lands. -/
def execElementLanding (g ch elem : Nat) : State → Host.Outcome State Fault Refusal :=
  runM (do
    let h ← getHart g
    if ch < 4 ∧ chanRuns h ch ∧ (tabFind (h.chan ch).fetched elem).isSome then do
      let _ ← landElem g ch elem
    else pure ())

/-! ### Moves, reclamations, completed writes -/

/-- The hart whose oldest entry waits for the move of a line. -/
def moverOf (s : State) (line : Nat) : Option Nat :=
  (s.harts.find? (fun e => e.2.runs && e.2.flight.any (fun f => f.move == some line))).map (fun e => e.1)

/-- MOVE_COMPLETE (R101): a MOVING line's data passes, and its mover goes on. -/
def execMoveComplete (line : Nat) : State → Host.Outcome State Fault Refusal :=
  runM (do
    let x ← gets (fun s => s.line line)
    match x.move with
    | some m =>
      if x.st = 1#2 then do
        let _ ← moveDone line m.dst m.newva m.part
        match ← gets (fun s => moverOf s line) with
        | some g => do
          let _ ← runHead g
        | none => pure ()
      else pure ()
    | none => pure ())

/-- RECLAIM_COMPLETE (R288): a reclamation ends once what it awaits has completed. -/
def execReclaimComplete (p idx : Nat) : State → Host.Outcome State Fault Refusal := runM (reclaimTry p idx)

/-- POSTED_WRITE_FOLLOW (R398): the oldest completed write of a hart that is not performed yet. -/
def execPostedWriteFollow (g : Nat) : State → Host.Outcome State Fault Refusal :=
  runM (do
    let _ ← postedStep g none)

/-- Without one remote write. -/
def Part.acked (x : Part) (k : Nat) : Part :=
  { x with hidden := x.hidden.map (fun e => (e.1, { e.2 with remote := tabDel e.2.remote k })) }

/-- POSTED_WRITE_ACK (R178): a peer's home acknowledges a write of hart g, wherever the hart now is. -/
def execPostedWriteAck (g k : Nat) : State → Host.Outcome State Fault Refusal :=
  runM (do
    let s ← getState
    if (tabFind (s.hart g).remote k).isSome then modHart g (fun h => { h with remote := tabDel h.remote k })
    else eachM s.parts (fun e =>
      whenM (e.2.hidden.any (fun x => (tabFind x.2.remote k).isSome)) (modPart e.1 (fun x => x.acked k))))

/-! ### Fault records, events, WFE -/

/-- FAULT_RECORD_POST (R127): the oldest record that waits for room. -/
def execFaultRecordPost (p : Nat) : State → Host.Outcome State Fault Refusal := runM (postWaiting p)

/-- The hart that a partition's event word can be delivered to now: its target, placed there, with EIE set and between two
scalar instructions, none of which waits for a trip's count (R214, R374). -/
def eventTarget (s : State) (p : Nat) : Option Nat :=
  (s.part p).target.filter (fun g =>
    let h := s.hart g
    (s.part p).event != 0 && h.runsIn p && h.status.extractLsb' 1 1 == 1#1
      && h.migWait.isNone && !h.holdS && !h.arrived && h.bacq.isNone && h.lp.trip != .atPc)

/-- EVENT_DELIVERY (R211, R214, R374): EVAL takes the event word, which is cleared. A WFE under way completes first; the vector queue
stops where its oldest entry stands. -/
def execEventDelivery (p : Nat) : State → Host.Outcome State Fault Refusal :=
  runM (do
    match ← gets (fun s => eventTarget s p) with
    | none => pure ()
    | some g => do
      stopFlight g
      let word ← gets (fun s => (s.part p).event)
      modHart g (fun h =>
        let h := (if h.wfe.isSome then h.wfeDone else h).stopQueue
        h.enterTrap (BitVec.ofNat 16 Cause.event.code) h.pc word 0 .event (h.vqHeld || !h.vq.isEmpty))
      modPart p (fun x => { x with event := 0 }))

/-- EVENT_WINDOW_WRITE (R374): bits [63:16] are ORed into the word. A hart reaches its own partition's window, a fabric endpoint
those the access table names. -/
def execEventWindowWrite (w : Caller) (p : Nat) (v : Word) : State → Host.Outcome State Fault Refusal :=
  runM (do
    let bits := v &&& 0xFFFFFFFFFFFF0000
    match w with
    | .hart g => whenM ((← getHart g).runsIn p) (setEvent p bits)
    | .fabric id => fromFabric (do
      if p < 64 ∧ (← gets (fun s => s.mayReach id p)) then do
        setEvent p bits
        answer .ok
      else answer .denied))

/-- WFE_TIMEOUT (R234): 65,536 cycles have passed since the WFE began. -/
def execWfeTimeout (g : Nat) : State → Host.Outcome State Fault Refusal :=
  runM (do
    let s ← getState
    let h := s.hart g
    match h.wfe with
    | some w => whenM (h.runs && decide (w.1 + wfeCycles ≤ s.cycle)) (putHart g h.wfeDone)
    | none => pure ())

end Sys2Proof.Machine
end

