-- ==== Sys2Proof/Machine/ScalarFp.lean ====
section
/-!
DEFINITION. Machine/ScalarFp.lean: scalar floating point (R227 to R230).
-/
namespace Sys2Proof.Machine

/-- The type code of a format field (R190): 0 .f32, 1 .f64. -/
def fpCode (f : BitVec 2) : BitVec 8 := if f = 1#2 then 0x8B else 0x7B
/-- The format of a format field. -/
def fpFmt (f : BitVec 2) : FFmt := codeFmt (fpCode f)

/-- The value of an operand in a format; bits above the format are ignored (R227). -/
def fpArg (f : BitVec 2) (x : Word) : FVal := (fpFmt f).decode x.toNat

/-- Finish a scalar floating-point instruction (R227): the flags go to FFLAGS; an enabled one traps with x[d]
unwritten, else the result goes to x[d], and an instruction that rounds takes a seed. -/
def fpEnd (g : Nat) (h : Hart) (d : BitVec 5) (rounds : Bool) (r : Word × Nat) : M Unit :=
  match trappedFlag r.2 (trapEnables h.rmode) with
  | some k => flagTrap g (2 ^ k)
  | none =>
    let h := (h.orFlags r.2).setX d r.1
    putHart g ((if rounds then h.takeSeed else h).advance 4)

/-- A rounding operation of R228 on the exact result of its operands. -/
def fpRound (d : BitVec 5) (regs : List (BitVec 5)) (f : BitVec 2) (op : Hart → Ex) : M Unit :=
  scalar (d :: regs) (fun g h =>
    let r := (fpFmt f).finish h.scalarRnd (op h)
    fpEnd g h d true (BitVec.ofNat 64 r.1, r.2))

/-- An operation that rounds nothing. -/
def fpPlain (d : BitVec 5) (regs : List (BitVec 5)) (op : Hart → Nat × Nat) : M Unit :=
  scalar (d :: regs) (fun g h =>
    let r := op h
    fpEnd g h d false (BitVec.ofNat 64 r.1, r.2))

/-- FADD (R228). -/
def execFadd (d a b : BitVec 5) (f : BitVec 2) : State → Host.Outcome State Fault Refusal :=
  runM (fpRound d [a, b] f (fun h => fAdd h.scalarDown (fpArg f (h.getX a)) (fpArg f (h.getX b))))
/-- FSUB (R228). -/
def execFsub (d a b : BitVec 5) (f : BitVec 2) : State → Host.Outcome State Fault Refusal :=
  runM (fpRound d [a, b] f (fun h => fSub h.scalarDown (fpArg f (h.getX a)) (fpArg f (h.getX b))))
/-- FMUL (R228). -/
def execFmul (d a b : BitVec 5) (f : BitVec 2) : State → Host.Outcome State Fault Refusal :=
  runM (fpRound d [a, b] f (fun h => fMul (fpArg f (h.getX a)) (fpArg f (h.getX b))))
/-- FDIV (R228). -/
def execFdiv (d a b : BitVec 5) (f : BitVec 2) : State → Host.Outcome State Fault Refusal :=
  runM (fpRound d [a, b] f (fun h => fDiv (fpArg f (h.getX a)) (fpArg f (h.getX b))))
/-- FSQRT (R228). -/
def execFsqrt (d a : BitVec 5) (f : BitVec 2) : State → Host.Outcome State Fault Refusal :=
  runM (fpRound d [a] f (fun h => fSqrt (fpArg f (h.getX a))))
/-- FMA (R228): x[d] is the addend. -/
def execFma (d a b : BitVec 5) (f : BitVec 2) : State → Host.Outcome State Fault Refusal :=
  runM (fpRound d [a, b] f (fun h =>
    fMulAdd h.scalarDown (fpArg f (h.getX a)) (fpArg f (h.getX b)) (fpArg f (h.getX d))))
/-- FMIN (R228, R40). -/
def execFmin (d a b : BitVec 5) (f : BitVec 2) : State → Host.Outcome State Fault Refusal :=
  runM (fpPlain d [a, b] (fun h => fMinMax (fpFmt f) false (h.getX a).toNat (h.getX b).toNat))
/-- FMAX (R228, R40). -/
def execFmax (d a b : BitVec 5) (f : BitVec 2) : State → Host.Outcome State Fault Refusal :=
  runM (fpPlain d [a, b] (fun h => fMinMax (fpFmt f) true (h.getX a).toNat (h.getX b).toNat))
/-- FCMP (R229). -/
def execFcmp (d a b : BitVec 5) (f c : BitVec 2) : State → Host.Outcome State Fault Refusal :=
  runM (fpPlain d [a, b] (fun h =>
    let r := fCompare (fpFmt f) c.toNat (h.getX a).toNat (h.getX b).toNat
    (bit r.1, r.2)))
/-- FCLASS (R229): no flag. -/
def execFclass (d a : BitVec 5) (f : BitVec 2) : State → Host.Outcome State Fault Refusal :=
  runM (fpPlain d [a] (fun h => (fClass (fpFmt f) (h.getX a).toNat, 0)))

/-- The result of FCVT from a source format to a target, as x[d] holds it: a 32-bit signed integer is sign-extended. -/
def fcvtWord (src dst : BitVec 8) (rd : Rnd) (x : Word) : Word × Nat :=
  let r := convert src dst rd (x.toNat % 2 ^ codeWidth src)
  (if codeFloat dst then BitVec.ofNat 64 r.1 else BitVec.ofInt 64 (intOf (codeSigned dst) (codeWidth dst) r.1), r.2)

/-- FCVT to a float format (R230). -/
def execFcvtToFloat (d a b : BitVec 5) (f : BitVec 2) : State → Host.Outcome State Fault Refusal :=
  runM (scalar [d, a] (fun g h => fpEnd g h d true (fcvtWord (convTarget b) (fpCode f) h.scalarRnd (h.getX a))))
/-- FCVT to an integer format (R230). -/
def execFcvtToInt (d a b : BitVec 5) (f : BitVec 2) : State → Host.Outcome State Fault Refusal :=
  runM (scalar [d, a] (fun g h => fpEnd g h d true (fcvtWord (fpCode f) (convTarget b) h.scalarRnd (h.getX a))))

end Sys2Proof.Machine
end

