-- ==== Sys2Proof/Machine/Spdm.lean ====
section
/-!
DEFINITION. Machine/Spdm.lean: the monitor as an SPDM 1.2 responder (R381, R382). What DSP0274 alone fixes of a message is outside
the spec's text: a request that comes out of its order is answered with an error, and the contents that R381 and R382 name
are given as bytes.
-/
namespace Sys2Proof.Machine

/-- Why a request is refused. -/
def spdmUnexpected : Nat := 1
/-- No algorithm in common. -/
def spdmNoCommon : Nat := 2
/-- No session of that number with the peer, or none free. -/
def spdmSession : Nat := 3
/-- Every leaf of the identity key has been used (R381). -/
def spdmNoLeaf : Nat := 4
/-- No such measurement. -/
def spdmNoIndex : Nat := 5

/-- A request from a host or a peer monitor, once bring-up has ended step 5 (R386). -/
def spdm (body : Security → M Unit) : M Unit := fromFabric (do body (← gets (fun s => s.security)))

/-- Change the security processor's record. -/
def modSecurity (f : Security → Security) : M Unit := do upd (.security (f (← gets (fun s => s.security))))

/-- A request after NEGOTIATE_ALGORITHMS. -/
def negotiatedSpdm (peer : Nat) (body : Security → M Unit) : M Unit :=
  spdm (fun x => if x.negotiated.contains peer then body x else answer (.spdmError spdmUnexpected))

/-- One-time leaves of the identity key (R381). -/
def leaves : Nat := 2 ^ 40

/-- Sign a message: the counter is advanced before the signature is released, and at its end nothing is signed (R381). -/
def signing (message : List Byte) (k : List Byte → M Unit) : M Unit := do
  let x ← gets (fun s => s.security)
  if leaves ≤ x.leaf then answer (.spdmError spdmNoLeaf)
  else do
    modSecurity (fun x => { x with leaf := x.leaf + 1 })
    k (Config.hssSignature x.leaf message)

/-- The n bytes of a number, lowest first. -/
def numBytes : Nat → Nat → List Byte
  | 0, _ => []
  | n + 1, v => BitVec.ofNat 8 v :: numBytes n (v / 256)

/-- GET_VERSION (R382): version 1.2; it begins the exchange with the peer anew. -/
def execGetVersion (peer : Nat) : State → Host.Outcome State Fault Refusal :=
  runM (spdm (fun _ => do
    modSecurity (fun x => { x with
      versioned := peer :: x.versioned.filter (fun k => k != peer)
      capable := x.capable.filter (fun k => k != peer)
      negotiated := x.negotiated.filter (fun k => k != peer) })
    answer (.spdm 1 [0x12])))

/-- GET_CAPABILITIES (R382): the flags of the answer are DSP0274's, a free value. -/
def execGetCapabilities (peer : Nat) : State → Host.Outcome State Fault Refusal :=
  runM (spdm (fun x =>
    if x.versioned.contains peer then do
      modSecurity (fun x => { x with capable := peer :: x.capable.filter (fun k => k != peer) })
      let flags ← freeBits 32
      answer (.spdm 2 (numBytes 4 flags))
    else answer (.spdmError spdmUnexpected)))

/-- The algorithms of R382. -/
def supported : List SpdmAlg := [.ecdheP384, .aes256Gcm, .sha384, .hssVendor]

/-- NEGOTIATE_ALGORITHMS (R382): the four, when the peer offers them. -/
def execNegotiateAlgorithms (peer : Nat) (offer : List SpdmAlg) : State → Host.Outcome State Fault Refusal :=
  runM (spdm (fun x =>
    if x.capable.contains peer then
      if supported.all (fun a => offer.contains a) then do
        modSecurity (fun x => { x with negotiated := peer :: x.negotiated.filter (fun k => k != peer) })
        answer (.spdm 3 [])
      else answer (.spdmError spdmNoCommon)
    else answer (.spdmError spdmUnexpected)))

/-- The digest of the certificate chain. -/
def chainDigest : List Byte := numBytes 48 (Config.sha384 Config.certChain).toNat

/-- GET_DIGESTS (R382). -/
def execGetDigests (peer : Nat) : State → Host.Outcome State Fault Refusal :=
  runM (negotiatedSpdm peer (fun _ => answer (.spdm 4 chainDigest)))

/-- GET_CERTIFICATE (R382): a portion of the chain. -/
def execGetCertificate (peer off len : Nat) : State → Host.Outcome State Fault Refusal :=
  runM (negotiatedSpdm peer (fun _ => answer (.spdm 5 ((Config.certChain.drop off).take len))))

/-- CHALLENGE (R382): the chain's digest, signed with the peer's nonce. -/
def execChallenge (peer : Nat) (nonce : BitVec 256) : State → Host.Outcome State Fault Refusal :=
  runM (negotiatedSpdm peer (fun _ =>
    signing (numBytes 32 nonce.toNat ++ chainDigest) (fun sig => answer (.spdm 6 (chainDigest ++ sig)))))

/-- The bytes of a slot table, as its window holds them (R146). -/
def slotTableBytes (x : SlotTable) : List Byte :=
  x.slots.flatMap (fun e => numBytes 2 e.toNat) ++ numBytes 8 x.bOff ++ numBytes 8 (x.bLen / 65536)
    ++ x.wlogs.flatMap (numBytes 8)

/-- A measurement (R381): of the partition entries, the digest of each partition as locked, ascending. -/
def measurement (s : State) : Nat → Option (List Byte)
  | 1 => some (numBytes 32 (Config.sha256 Config.bootRom).toNat)
  | 2 => some (numBytes 32 (Config.sha256 Config.monitorImage).toNat)
  | 3 => some (s.security.measured.flatMap (fun e => numBytes 32 e.2.toNat))
  | 4 => some (numBytes 32 (Config.sha256 (slotTableBytes (s.tower 0).table ++ slotTableBytes (s.tower 1).table)).toNat)
  | _ => none

/-- GET_MEASUREMENTS (R381, R382). -/
def execGetMeasurements (peer index : Nat) (signed : Bool) : State → Host.Outcome State Fault Refusal :=
  runM (negotiatedSpdm peer (fun _ => do
    match ← gets (fun s => measurement s index) with
    | none => answer (.spdmError spdmNoIndex)
    | some b =>
      if signed then signing b (fun sig => answer (.spdm 7 (b ++ sig)))
      else answer (.spdm 7 b)))

/-- Sessions held at once (R382). -/
def maxSessions : Nat := 4

/-- The lowest session number not in use. -/
def freeSession (x : Security) : Nat := ((List.range (x.sessions.length + 1)).find? (fun k => (tabFind x.sessions k).isNone)).getD 0

/-- KEY_EXCHANGE (R382): a fifth session is refused; the answer is signed (R381). -/
def execKeyExchange (peer share : Nat) : State → Host.Outcome State Fault Refusal :=
  runM (negotiatedSpdm peer (fun x =>
    if maxSessions ≤ x.sessions.length then answer (.spdmError spdmSession)
    else
      let mine := numBytes 96 (Config.ecdheShare x.exchanges)
      signing (numBytes 96 share ++ mine) (fun sig => do
        let id := freeSession x
        modSecurity (fun x => { x with
          sessions := tabPut x.sessions id { peer := peer, finished := false }, exchanges := x.exchanges + 1 })
        answer (.spdm 8 (numBytes 2 id ++ mine ++ sig)))))

/-- A session of that number with the peer, its handshake finished or not. -/
def sessionOf (x : Security) (peer session : Nat) (finished : Bool) : Option Session :=
  (tabFind x.sessions session).filter (fun y => y.peer == peer && y.finished == finished)

/-- FINISH (R382): the session's handshake ends. -/
def execFinish (peer session : Nat) : State → Host.Outcome State Fault Refusal :=
  runM (spdm (fun x =>
    match sessionOf x peer session false with
    | some y => do
      modSecurity (fun x => { x with sessions := tabPut x.sessions session { y with finished := true } })
      answer (.spdm 9 [])
    | none => answer (.spdmError spdmSession)))

/-- END_SESSION (R382). -/
def execEndSession (peer session : Nat) : State → Host.Outcome State Fault Refusal :=
  runM (spdm (fun x =>
    match sessionOf x peer session true with
    | some _ => do
      modSecurity (fun x => { x with sessions := tabDel x.sessions session })
      answer (.spdm 10 [])
    | none => answer (.spdmError spdmSession)))

end Sys2Proof.Machine
end

