-- ==== Sys2Proof/Machine/VAccess.lean ====
section
/-!
DEFINITION. Machine/VAccess.lean: vector loads and stores, atomics, forwarding and copy instructions (R267 to R294). Each is sent to the vector queue; what it performs stands in
VDispatch.perform.
-/
namespace Sys2Proof.Machine

/-- VLD (R269): Unit-stride vector load after translating and pinning pages. -/
def execVld (d a : BitVec 5) (m : BitVec 4) : State → Host.Outcome State Fault Refusal := runM (send (.vld d a m))
/-- VLDS (R269): Strided vector load. -/
def execVlds (d a b : BitVec 5) (m : BitVec 4) : State → Host.Outcome State Fault Refusal := runM (send (.vlds d a b m))
/-- VLX (R269): Indexed gather load. -/
def execVlx (d a b : BitVec 5) (m : BitVec 4) : State → Host.Outcome State Fault Refusal := runM (send (.vlx d a b m))
/-- VLDFF (R273): Unit-stride load that trims VL at an unmapped page. -/
def execVldff (d a : BitVec 5) (m : BitVec 4) : State → Host.Outcome State Fault Refusal := runM (send (.vldff d a m))
/-- VLXFF (R273): Gather that trims VL at an unmapped page. -/
def execVlxff (d a b : BitVec 5) (m : BitVec 4) : State → Host.Outcome State Fault Refusal := runM (send (.vlxff d a b m))
/-- VLD_SCALE (R271): Loads scale codes into a w register. -/
def execVldScale (d a : BitVec 5) : State → Host.Outcome State Fault Refusal := runM (send (.vldScale d a))
/-- VLD_MASK (R271): Loads mask bits into an m register. -/
def execVldMask (d a : BitVec 5) : State → Host.Outcome State Fault Refusal := runM (send (.vldMask d a))
/-- VST (R269): Unit-stride vector store. -/
def execVst (d a : BitVec 5) (m : BitVec 4) : State → Host.Outcome State Fault Refusal := runM (send (.vst d a m))
/-- VSTS (R269): Strided vector store. -/
def execVsts (d a b : BitVec 5) (m : BitVec 4) : State → Host.Outcome State Fault Refusal := runM (send (.vsts d a b m))
/-- VSX (R269): Indexed scatter store. -/
def execVsx (d a b : BitVec 5) (m : BitVec 4) : State → Host.Outcome State Fault Refusal := runM (send (.vsx d a b m))
/-- VSCADD (R276): Merges addends per address and adds each sum atomically at its home. -/
def execVscadd (d a b : BitVec 5) (m : BitVec 4) : State → Host.Outcome State Fault Refusal := runM (send (.vscadd d a b m))
/-- VST_SCALE (R271): Stores a w register's scale codes. -/
def execVstScale (d a : BitVec 5) : State → Host.Outcome State Fault Refusal := runM (send (.vstScale d a))
/-- VST_MASK (R271): Stores a mask register's bits. -/
def execVstMask (d a : BitVec 5) : State → Host.Outcome State Fault Refusal := runM (send (.vstMask d a))
/-- VXLATE (R275): Translates virtual addresses to physical ones with a fault mask. -/
def execVxlate (d a b : BitVec 5) (m : BitVec 4) : State → Host.Outcome State Fault Refusal := runM (send (.vxlate d a b m))
/-- VXLATEFF (R275): Translates addresses, trimming VL at the first unmapped one. -/
def execVxlateff (d a b : BitVec 5) (m : BitVec 4) : State → Host.Outcome State Fault Refusal := runM (send (.vxlateff d a b m))
/-- VAMO_ADD (R278): Vector atomic add per element. -/
def execVamoAdd (d b : BitVec 5) (m : BitVec 4) (s : BitVec 3) (q l : BitVec 1) : State → Host.Outcome State Fault Refusal := runM (send (.vamoAdd d b m s q l))
/-- VAMO_AND (R278): Vector atomic AND. -/
def execVamoAnd (d b : BitVec 5) (m : BitVec 4) (s : BitVec 3) (q l : BitVec 1) : State → Host.Outcome State Fault Refusal := runM (send (.vamoAnd d b m s q l))
/-- VAMO_OR (R278): Vector atomic OR. -/
def execVamoOr (d b : BitVec 5) (m : BitVec 4) (s : BitVec 3) (q l : BitVec 1) : State → Host.Outcome State Fault Refusal := runM (send (.vamoOr d b m s q l))
/-- VAMO_XOR (R278): Vector atomic XOR. -/
def execVamoXor (d b : BitVec 5) (m : BitVec 4) (s : BitVec 3) (q l : BitVec 1) : State → Host.Outcome State Fault Refusal := runM (send (.vamoXor d b m s q l))
/-- VAMO_MIN (R278): Vector atomic signed minimum. -/
def execVamoMin (d b : BitVec 5) (m : BitVec 4) (s : BitVec 3) (q l : BitVec 1) : State → Host.Outcome State Fault Refusal := runM (send (.vamoMin d b m s q l))
/-- VAMO_MAX (R278): Vector atomic signed maximum. -/
def execVamoMax (d b : BitVec 5) (m : BitVec 4) (s : BitVec 3) (q l : BitVec 1) : State → Host.Outcome State Fault Refusal := runM (send (.vamoMax d b m s q l))
/-- VAMO_MINN (R278): Vector atomic natural minimum. -/
def execVamoMinn (d b : BitVec 5) (m : BitVec 4) (s : BitVec 3) (q l : BitVec 1) : State → Host.Outcome State Fault Refusal := runM (send (.vamoMinn d b m s q l))
/-- VAMO_MAXN (R278): Vector atomic natural maximum. -/
def execVamoMaxn (d b : BitVec 5) (m : BitVec 4) (s : BitVec 3) (q l : BitVec 1) : State → Host.Outcome State Fault Refusal := runM (send (.vamoMaxn d b m s q l))
/-- VAMO_SWAP (R278): Vector atomic swap. -/
def execVamoSwap (d b : BitVec 5) (m : BitVec 4) (s : BitVec 3) (q l : BitVec 1) : State → Host.Outcome State Fault Refusal := runM (send (.vamoSwap d b m s q l))
/-- FWDMOVE (R283): Moves each source line to its destination and leaves a forwarding record. -/
def execFwdmove (a b : BitVec 5) (m : BitVec 4) : State → Host.Outcome State Fault Refusal := runM (send (.fwdmove a b m))
/-- FWDRES (R285): Resolves pointers through their forwarding chains. -/
def execFwdres (d a : BitVec 5) (m : BitVec 4) : State → Host.Outcome State Fault Refusal := runM (send (.fwdres d a m))
/-- FWDRESFF (R285): Resolves pointers, trimming VL at a miss, depth or stale fault. -/
def execFwdresff (d a : BitVec 5) (m : BitVec 4) : State → Host.Outcome State Fault Refusal := runM (send (.fwdresff d a m))
/-- PCMPR (R286): Compares pointers by where their chains end. -/
def execPcmpr (d a b : BitVec 5) (m : BitVec 4) : State → Host.Outcome State Fault Refusal := runM (send (.pcmpr d a b m))
/-- FWDPATH (R287): Rewrites multi-hop chains to point at their final line. -/
def execFwdpath (a : BitVec 5) (m : BitVec 4) : State → Host.Outcome State Fault Refusal := runM (send (.fwdpath a m))
/-- FWDRECL (R288): Sets a region to RECLAIM, waits for in-flight accesses, then returns its lines to NORMAL. -/
def execFwdrecl (a : BitVec 5) : State → Host.Outcome State Fault Refusal := runM (send (.fwdrecl a))
/-- FWDRECL_TOMB (R288): Sets a region to TOMB and its forwarded lines to TOMBSTONE. -/
def execFwdreclTomb (a : BitVec 5) : State → Host.Outcome State Fault Refusal := runM (send (.fwdreclTomb a))
/-- CPSTEP (R291): Retires the oldest unretired strip of a copy channel. -/
def execCpstep (c : BitVec 5) : State → Host.Outcome State Fault Refusal := runM (send (.cpstep c))
/-- CPWAIT (R291): Releases every strip and waits until the channel has landed all or stopped. -/
def execCpwait (c : BitVec 5) : State → Host.Outcome State Fault Refusal := runM (send (.cpwait c))
/-- CPLAND (R291): Returns the channel's landed count without waiting. -/
def execCpland (d c : BitVec 5) : State → Host.Outcome State Fault Refusal := runM (send (.cpland d c))
/-- CPCFG (R290): Reads a copy descriptor, configures a channel and releases strips 0 to 3. -/
def execCpcfg (a c : BitVec 5) (t : BitVec 8) : State → Host.Outcome State Fault Refusal := runM (send (.cpcfg a c t))

end Sys2Proof.Machine
end

