-- ==== Sys2Proof/Machine/VArith.lean ====
section
/-!
DEFINITION. Machine/VArith.lean: the vector and mask instructions of R242 to R266. Each is sent to the vector queue; what it performs stands in
VDispatch.perform.
-/
namespace Sys2Proof.Machine

/-- VADD (R247): Elementwise add modulo 2^W. -/
def execVadd (d a b : BitVec 5) (m : BitVec 4) : State → Host.Outcome State Fault Refusal := runM (send (.vadd d a b m))
/-- VSUB (R247): Elementwise subtract. -/
def execVsub (d a b : BitVec 5) (m : BitVec 4) : State → Host.Outcome State Fault Refusal := runM (send (.vsub d a b m))
/-- VMUL (R247): Elementwise low product. -/
def execVmul (d a b : BitVec 5) (m : BitVec 4) : State → Host.Outcome State Fault Refusal := runM (send (.vmul d a b m))
/-- VMULH (R247): Elementwise high product. -/
def execVmulh (d a b : BitVec 5) (m : BitVec 4) : State → Host.Outcome State Fault Refusal := runM (send (.vmulh d a b m))
/-- VMACC (R247): Elementwise multiply-accumulate into vd. -/
def execVmacc (d a b : BitVec 5) (m : BitVec 4) : State → Host.Outcome State Fault Refusal := runM (send (.vmacc d a b m))
/-- VDIV (R247): Elementwise quotient under R35. -/
def execVdiv (d a b : BitVec 5) (m : BitVec 4) : State → Host.Outcome State Fault Refusal := runM (send (.vdiv d a b m))
/-- VREM (R247): Elementwise remainder under R35. -/
def execVrem (d a b : BitVec 5) (m : BitVec 4) : State → Host.Outcome State Fault Refusal := runM (send (.vrem d a b m))
/-- VMIN (R247): Elementwise minimum. -/
def execVmin (d a b : BitVec 5) (m : BitVec 4) : State → Host.Outcome State Fault Refusal := runM (send (.vmin d a b m))
/-- VMAX (R247): Elementwise maximum. -/
def execVmax (d a b : BitVec 5) (m : BitVec 4) : State → Host.Outcome State Fault Refusal := runM (send (.vmax d a b m))
/-- VAND (R247): Elementwise AND. -/
def execVand (d a b : BitVec 5) (m : BitVec 4) : State → Host.Outcome State Fault Refusal := runM (send (.vand d a b m))
/-- VOR (R247): Elementwise OR. -/
def execVor (d a b : BitVec 5) (m : BitVec 4) : State → Host.Outcome State Fault Refusal := runM (send (.vor d a b m))
/-- VXOR (R247): Elementwise XOR. -/
def execVxor (d a b : BitVec 5) (m : BitVec 4) : State → Host.Outcome State Fault Refusal := runM (send (.vxor d a b m))
/-- VSLL (R247): Elementwise left shift. -/
def execVsll (d a b : BitVec 5) (m : BitVec 4) : State → Host.Outcome State Fault Refusal := runM (send (.vsll d a b m))
/-- VSRL (R247): Elementwise logical right shift. -/
def execVsrl (d a b : BitVec 5) (m : BitVec 4) : State → Host.Outcome State Fault Refusal := runM (send (.vsrl d a b m))
/-- VSRA (R247): Elementwise arithmetic right shift. -/
def execVsra (d a b : BitVec 5) (m : BitVec 4) : State → Host.Outcome State Fault Refusal := runM (send (.vsra d a b m))
/-- VADDS (R247): Elementwise saturating add. -/
def execVadds (d a b : BitVec 5) (m : BitVec 4) : State → Host.Outcome State Fault Refusal := runM (send (.vadds d a b m))
/-- VSUBS (R247): Elementwise saturating subtract. -/
def execVsubs (d a b : BitVec 5) (m : BitVec 4) : State → Host.Outcome State Fault Refusal := runM (send (.vsubs d a b m))
/-- VADC (R248): Add with carry in and out through the carry mask. -/
def execVadc (d a b : BitVec 5) (m : BitVec 4) : State → Host.Outcome State Fault Refusal := runM (send (.vadc d a b m))
/-- VSBC (R248): Subtract with borrow through the carry mask. -/
def execVsbc (d a b : BitVec 5) (m : BitVec 4) : State → Host.Outcome State Fault Refusal := runM (send (.vsbc d a b m))
/-- VMERGE (R249): Selects vb where the mask is set and va elsewhere. -/
def execVmerge (d a b : BitVec 5) (m : BitVec 4) : State → Host.Outcome State Fault Refusal := runM (send (.vmerge d a b m))
/-- VADD_X (R247): Elementwise add of a scalar. -/
def execVaddX (d a b : BitVec 5) (m : BitVec 4) : State → Host.Outcome State Fault Refusal := runM (send (.vaddX d a b m))
/-- VSUB_X (R247): Elementwise subtract of a scalar. -/
def execVsubX (d a b : BitVec 5) (m : BitVec 4) : State → Host.Outcome State Fault Refusal := runM (send (.vsubX d a b m))
/-- VMUL_X (R247): Elementwise low product with a scalar. -/
def execVmulX (d a b : BitVec 5) (m : BitVec 4) : State → Host.Outcome State Fault Refusal := runM (send (.vmulX d a b m))
/-- VMULH_X (R247): Elementwise high product with a scalar. -/
def execVmulhX (d a b : BitVec 5) (m : BitVec 4) : State → Host.Outcome State Fault Refusal := runM (send (.vmulhX d a b m))
/-- VMACC_X (R247): Elementwise multiply-accumulate with a scalar. -/
def execVmaccX (d a b : BitVec 5) (m : BitVec 4) : State → Host.Outcome State Fault Refusal := runM (send (.vmaccX d a b m))
/-- VDIV_X (R247): Elementwise quotient by a scalar. -/
def execVdivX (d a b : BitVec 5) (m : BitVec 4) : State → Host.Outcome State Fault Refusal := runM (send (.vdivX d a b m))
/-- VREM_X (R247): Elementwise remainder by a scalar. -/
def execVremX (d a b : BitVec 5) (m : BitVec 4) : State → Host.Outcome State Fault Refusal := runM (send (.vremX d a b m))
/-- VMIN_X (R247): Elementwise minimum with a scalar. -/
def execVminX (d a b : BitVec 5) (m : BitVec 4) : State → Host.Outcome State Fault Refusal := runM (send (.vminX d a b m))
/-- VMAX_X (R247): Elementwise maximum with a scalar. -/
def execVmaxX (d a b : BitVec 5) (m : BitVec 4) : State → Host.Outcome State Fault Refusal := runM (send (.vmaxX d a b m))
/-- VAND_X (R247): Elementwise AND with a scalar. -/
def execVandX (d a b : BitVec 5) (m : BitVec 4) : State → Host.Outcome State Fault Refusal := runM (send (.vandX d a b m))
/-- VOR_X (R247): Elementwise OR with a scalar. -/
def execVorX (d a b : BitVec 5) (m : BitVec 4) : State → Host.Outcome State Fault Refusal := runM (send (.vorX d a b m))
/-- VXOR_X (R247): Elementwise XOR with a scalar. -/
def execVxorX (d a b : BitVec 5) (m : BitVec 4) : State → Host.Outcome State Fault Refusal := runM (send (.vxorX d a b m))
/-- VSLL_X (R247): Elementwise left shift by a scalar. -/
def execVsllX (d a b : BitVec 5) (m : BitVec 4) : State → Host.Outcome State Fault Refusal := runM (send (.vsllX d a b m))
/-- VSRL_X (R247): Elementwise logical right shift by a scalar. -/
def execVsrlX (d a b : BitVec 5) (m : BitVec 4) : State → Host.Outcome State Fault Refusal := runM (send (.vsrlX d a b m))
/-- VSRA_X (R247): Elementwise arithmetic right shift by a scalar. -/
def execVsraX (d a b : BitVec 5) (m : BitVec 4) : State → Host.Outcome State Fault Refusal := runM (send (.vsraX d a b m))
/-- VADDS_X (R247): Elementwise saturating add of a scalar. -/
def execVaddsX (d a b : BitVec 5) (m : BitVec 4) : State → Host.Outcome State Fault Refusal := runM (send (.vaddsX d a b m))
/-- VSUBS_X (R247): Elementwise saturating subtract of a scalar. -/
def execVsubsX (d a b : BitVec 5) (m : BitVec 4) : State → Host.Outcome State Fault Refusal := runM (send (.vsubsX d a b m))
/-- VADC_X (R248): Add a scalar with carry through the carry mask. -/
def execVadcX (d a b : BitVec 5) (m : BitVec 4) : State → Host.Outcome State Fault Refusal := runM (send (.vadcX d a b m))
/-- VSBC_X (R248): Subtract a scalar with borrow through the carry mask. -/
def execVsbcX (d a b : BitVec 5) (m : BitVec 4) : State → Host.Outcome State Fault Refusal := runM (send (.vsbcX d a b m))
/-- VMERGE_X (R249): Selects a scalar where the mask is set and va elsewhere. -/
def execVmergeX (d a b : BitVec 5) (m : BitVec 4) : State → Host.Outcome State Fault Refusal := runM (send (.vmergeX d a b m))
/-- VCMPEQ (R250): Integer equality compare into a mask. -/
def execVcmpeq (d a b : BitVec 5) (m : BitVec 4) : State → Host.Outcome State Fault Refusal := runM (send (.vcmpeq d a b m))
/-- VCMPNE (R250): Integer inequality compare into a mask. -/
def execVcmpne (d a b : BitVec 5) (m : BitVec 4) : State → Host.Outcome State Fault Refusal := runM (send (.vcmpne d a b m))
/-- VCMPLT (R250): Integer less-than compare into a mask. -/
def execVcmplt (d a b : BitVec 5) (m : BitVec 4) : State → Host.Outcome State Fault Refusal := runM (send (.vcmplt d a b m))
/-- VCMPLE (R250): Integer less-or-equal compare into a mask. -/
def execVcmple (d a b : BitVec 5) (m : BitVec 4) : State → Host.Outcome State Fault Refusal := runM (send (.vcmple d a b m))
/-- VCMPGT (R250): Integer greater-than compare into a mask. -/
def execVcmpgt (d a b : BitVec 5) (m : BitVec 4) : State → Host.Outcome State Fault Refusal := runM (send (.vcmpgt d a b m))
/-- VCMPGE (R250): Integer greater-or-equal compare into a mask. -/
def execVcmpge (d a b : BitVec 5) (m : BitVec 4) : State → Host.Outcome State Fault Refusal := runM (send (.vcmpge d a b m))
/-- VFCMPEQ (R250): Floating-point equality compare into a mask. -/
def execVfcmpeq (d a b : BitVec 5) (m : BitVec 4) : State → Host.Outcome State Fault Refusal := runM (send (.vfcmpeq d a b m))
/-- VFCMPLT (R250): Floating-point less-than compare into a mask. -/
def execVfcmplt (d a b : BitVec 5) (m : BitVec 4) : State → Host.Outcome State Fault Refusal := runM (send (.vfcmplt d a b m))
/-- VFCMPLE (R250): Floating-point less-or-equal compare into a mask. -/
def execVfcmple (d a b : BitVec 5) (m : BitVec 4) : State → Host.Outcome State Fault Refusal := runM (send (.vfcmple d a b m))
/-- VFCMPNE (R250): Floating-point inequality compare into a mask. -/
def execVfcmpne (d a b : BitVec 5) (m : BitVec 4) : State → Host.Outcome State Fault Refusal := runM (send (.vfcmpne d a b m))
/-- VFCMPUN (R250): Unordered compare into a mask. -/
def execVfcmpun (d a b : BitVec 5) (m : BitVec 4) : State → Host.Outcome State Fault Refusal := runM (send (.vfcmpun d a b m))
/-- VFADD (R251): Elementwise floating-point add. -/
def execVfadd (d a b : BitVec 5) (m : BitVec 4) : State → Host.Outcome State Fault Refusal := runM (send (.vfadd d a b m))
/-- VFSUB (R251): Elementwise floating-point subtract. -/
def execVfsub (d a b : BitVec 5) (m : BitVec 4) : State → Host.Outcome State Fault Refusal := runM (send (.vfsub d a b m))
/-- VFMUL (R251): Elementwise floating-point multiply. -/
def execVfmul (d a b : BitVec 5) (m : BitVec 4) : State → Host.Outcome State Fault Refusal := runM (send (.vfmul d a b m))
/-- VFMA (R251): Elementwise fused multiply-add. -/
def execVfma (d a b : BitVec 5) (m : BitVec 4) : State → Host.Outcome State Fault Refusal := runM (send (.vfma d a b m))
/-- VFDIV (R251): Elementwise floating-point divide. -/
def execVfdiv (d a b : BitVec 5) (m : BitVec 4) : State → Host.Outcome State Fault Refusal := runM (send (.vfdiv d a b m))
/-- VFSQRT (R251): Elementwise square root. -/
def execVfsqrt (d a : BitVec 5) (m : BitVec 4) : State → Host.Outcome State Fault Refusal := runM (send (.vfsqrt d a m))
/-- VFMIN (R251): Elementwise floating-point minimum. -/
def execVfmin (d a b : BitVec 5) (m : BitVec 4) : State → Host.Outcome State Fault Refusal := runM (send (.vfmin d a b m))
/-- VFMAX (R251): Elementwise floating-point maximum. -/
def execVfmax (d a b : BitVec 5) (m : BitVec 4) : State → Host.Outcome State Fault Refusal := runM (send (.vfmax d a b m))
/-- VFCVT (R253): Converts each element to the target named by the conversion code. -/
def execVfcvt (d a : BitVec 5) (m : BitVec 4) (k : BitVec 5) : State → Host.Outcome State Fault Refusal := runM (send (.vfcvt d a m k))
/-- VFRCP (R252): Elementwise reciprocal, rounded once. -/
def execVfrcp (d a : BitVec 5) (m : BitVec 4) : State → Host.Outcome State Fault Refusal := runM (send (.vfrcp d a m))
/-- VFRSQ (R252): Elementwise reciprocal square root. -/
def execVfrsq (d a : BitVec 5) (m : BitVec 4) : State → Host.Outcome State Fault Refusal := runM (send (.vfrsq d a m))
/-- VFEXP2 (R252): Elementwise base-2 exponential. -/
def execVfexp2 (d a : BitVec 5) (m : BitVec 4) : State → Host.Outcome State Fault Refusal := runM (send (.vfexp2 d a m))
/-- VFLOG2 (R252): Elementwise base-2 logarithm. -/
def execVflog2 (d a : BitVec 5) (m : BitVec 4) : State → Host.Outcome State Fault Refusal := runM (send (.vflog2 d a m))
/-- VFTANH (R252): Elementwise hyperbolic tangent. -/
def execVftanh (d a : BitVec 5) (m : BitVec 4) : State → Host.Outcome State Fault Refusal := runM (send (.vftanh d a m))
/-- VFADD_X (R251): Elementwise floating-point add of a scalar. -/
def execVfaddX (d a b : BitVec 5) (m : BitVec 4) : State → Host.Outcome State Fault Refusal := runM (send (.vfaddX d a b m))
/-- VFSUB_X (R251): Elementwise floating-point subtract of a scalar. -/
def execVfsubX (d a b : BitVec 5) (m : BitVec 4) : State → Host.Outcome State Fault Refusal := runM (send (.vfsubX d a b m))
/-- VFMUL_X (R251): Elementwise floating-point multiply by a scalar. -/
def execVfmulX (d a b : BitVec 5) (m : BitVec 4) : State → Host.Outcome State Fault Refusal := runM (send (.vfmulX d a b m))
/-- VFMA_X (R251): Elementwise fused multiply-add with a scalar. -/
def execVfmaX (d a b : BitVec 5) (m : BitVec 4) : State → Host.Outcome State Fault Refusal := runM (send (.vfmaX d a b m))
/-- VFMIN_X (R251): Elementwise floating-point minimum with a scalar. -/
def execVfminX (d a b : BitVec 5) (m : BitVec 4) : State → Host.Outcome State Fault Refusal := runM (send (.vfminX d a b m))
/-- VFMAX_X (R251): Elementwise floating-point maximum with a scalar. -/
def execVfmaxX (d a b : BitVec 5) (m : BitVec 4) : State → Host.Outcome State Fault Refusal := runM (send (.vfmaxX d a b m))
/-- VMV (R254): Copies active elements of va into vd. -/
def execVmv (d a : BitVec 5) (m : BitVec 4) : State → Host.Outcome State Fault Refusal := runM (send (.vmv d a m))
/-- VMV_FROM_SCALAR (R254): Writes a scalar into every active element. -/
def execVmvFromScalar (d a : BitVec 5) (m : BitVec 4) : State → Host.Outcome State Fault Refusal := runM (send (.vmvFromScalar d a m))
/-- VSLIDEUP (R255): Slides elements up by a scalar amount. -/
def execVslideup (d a b : BitVec 5) (m : BitVec 4) : State → Host.Outcome State Fault Refusal := runM (send (.vslideup d a b m))
/-- VSLIDEDN (R255): Slides elements down by a scalar amount, filling with zero. -/
def execVslidedn (d a b : BitVec 5) (m : BitVec 4) : State → Host.Outcome State Fault Refusal := runM (send (.vslidedn d a b m))
/-- VPERM (R256): Gathers elements of va by an index vector. -/
def execVperm (d a b : BitVec 5) (m : BitVec 4) : State → Host.Outcome State Fault Refusal := runM (send (.vperm d a b m))
/-- VCOMPRESS (R257): Packs the selected elements of va to the bottom of vd. -/
def execVcompress (d a b : BitVec 5) : State → Host.Outcome State Fault Refusal := runM (send (.vcompress d a b))
/-- VIOTA (R257): Writes running counts of set mask bits. -/
def execViota (d a : BitVec 5) (m : BitVec 4) : State → Host.Outcome State Fault Refusal := runM (send (.viota d a m))
/-- VID (R254): Writes each element's index. -/
def execVid (d : BitVec 5) (m : BitVec 4) : State → Host.Outcome State Fault Refusal := runM (send (.vid d m))
/-- VMV_TO_SCALE (R254): Copies byte elements into a scale register. -/
def execVmvToScale (d a : BitVec 5) : State → Host.Outcome State Fault Refusal := runM (send (.vmvToScale d a))
/-- VMV_FROM_SCALE (R254): Copies a scale register into byte elements. -/
def execVmvFromScale (d a : BitVec 5) : State → Host.Outcome State Fault Refusal := runM (send (.vmvFromScale d a))
/-- VRED_ADD (R258): Integer sum reduction into an x register. -/
def execVredAdd (d a b : BitVec 5) (m : BitVec 4) : State → Host.Outcome State Fault Refusal := runM (send (.vredAdd d a b m))
/-- VRED_AND (R258): AND reduction. -/
def execVredAnd (d a b : BitVec 5) (m : BitVec 4) : State → Host.Outcome State Fault Refusal := runM (send (.vredAnd d a b m))
/-- VRED_OR (R258): OR reduction. -/
def execVredOr (d a b : BitVec 5) (m : BitVec 4) : State → Host.Outcome State Fault Refusal := runM (send (.vredOr d a b m))
/-- VRED_XOR (R258): XOR reduction. -/
def execVredXor (d a b : BitVec 5) (m : BitVec 4) : State → Host.Outcome State Fault Refusal := runM (send (.vredXor d a b m))
/-- VRED_MIN (R258): Minimum reduction. -/
def execVredMin (d a b : BitVec 5) (m : BitVec 4) : State → Host.Outcome State Fault Refusal := runM (send (.vredMin d a b m))
/-- VRED_MAX (R258): Maximum reduction. -/
def execVredMax (d a b : BitVec 5) (m : BitVec 4) : State → Host.Outcome State Fault Refusal := runM (send (.vredMax d a b m))
/-- VFREDO (R259): Ordered floating-point sum reduction. -/
def execVfredo (d a b : BitVec 5) (m : BitVec 4) : State → Host.Outcome State Fault Refusal := runM (send (.vfredo d a b m))
/-- VFREDT (R259): Fixed-tree floating-point sum reduction. -/
def execVfredt (d a b : BitVec 5) (m : BitVec 4) : State → Host.Outcome State Fault Refusal := runM (send (.vfredt d a b m))
/-- MAND (R260): Mask AND. -/
def execMand (d a b : BitVec 5) : State → Host.Outcome State Fault Refusal := runM (send (.mand d a b))
/-- MOR (R260): Mask OR. -/
def execMor (d a b : BitVec 5) : State → Host.Outcome State Fault Refusal := runM (send (.mor d a b))
/-- MXOR (R260): Mask XOR. -/
def execMxor (d a b : BitVec 5) : State → Host.Outcome State Fault Refusal := runM (send (.mxor d a b))
/-- MANDN (R260): Mask AND NOT. -/
def execMandn (d a b : BitVec 5) : State → Host.Outcome State Fault Refusal := runM (send (.mandn d a b))
/-- MNOT (R260): Mask NOT. -/
def execMnot (d a : BitVec 5) : State → Host.Outcome State Fault Refusal := runM (send (.mnot d a))
/-- MWHILE (R261): Sets mask bits below a scalar count. -/
def execMwhile (d a : BitVec 5) : State → Host.Outcome State Fault Refusal := runM (send (.mwhile d a))
/-- MPOP (R262): Counts set mask bits below VL into an x register. -/
def execMpop (d a : BitVec 5) : State → Host.Outcome State Fault Refusal := runM (send (.mpop d a))
/-- MPOP_VL (R262): Counts set mask bits and also sets VL to the count. -/
def execMpopVl (d a : BitVec 5) : State → Host.Outcome State Fault Refusal := runM (send (.mpopVl d a))
/-- MFIRST (R263): Writes the lowest set mask index, or all ones. -/
def execMfirst (d a : BitVec 5) : State → Host.Outcome State Fault Refusal := runM (send (.mfirst d a))
/-- MLAST (R263): Writes the highest set mask index, or all ones. -/
def execMlast (d a : BitVec 5) : State → Host.Outcome State Fault Refusal := runM (send (.mlast d a))
/-- MSHUP (R264): Shifts mask bits up by one element. -/
def execMshup (d a : BitVec 5) : State → Host.Outcome State Fault Refusal := runM (send (.mshup d a))
/-- VTOPK (R265): Marks the k highest-ranked candidate elements in a mask. -/
def execVtopk (d a b : BitVec 5) (m : BitVec 4) : State → Host.Outcome State Fault Refusal := runM (send (.vtopk d a b m))

end Sys2Proof.Machine
end

