-- ==== Sys2Proof/Machine/VMatrix.lean ====
section
/-!
DEFINITION. Machine/VMatrix.lean: matrix, narrow-format and Lacewing instructions (R295 to R318). Each is sent to the vector queue; what it performs stands in
VDispatch.perform.
-/
namespace Sys2Proof.Machine

/-- MOPA (R298): Accumulates an outer product of two operands into a tile. -/
def execMopa (d a b : BitVec 5) (ta tb : BitVec 8) (sa sb : BitVec 3) (sat scl : Bool) : State → Host.Outcome State Fault Refusal := runM (send (.mopa d a b ta tb sa sb sat scl))
/-- MZERO (R300): Zeroes every cell of a granted tile. -/
def execMzero (d : BitVec 5) : State → Host.Outcome State Fault Refusal := runM (send (.mzero d))
/-- MFILL (R300): Sets every cell of a tile to a scalar value. -/
def execMfill (d a : BitVec 5) : State → Host.Outcome State Fault Refusal := runM (send (.mfill d a))
/-- MDRAIN (R301): Stores tile columns to memory with a row stride. -/
def execMdrain (d a b : BitVec 5) (m : BitVec 4) (ta : BitVec 8) : State → Host.Outcome State Fault Refusal := runM (send (.mdrain d a b m ta))
/-- MRDROW (R302): Reads one tile row into a vector register. -/
def execMrdrow (d a b : BitVec 5) (ta : BitVec 8) : State → Host.Outcome State Fault Refusal := runM (send (.mrdrow d a b ta))
/-- VHAD (R307): Applies a blockwise Hadamard transform and narrows the result. -/
def execVhad (d a : BitVec 5) (m : BitVec 4) (ta tb : BitVec 8) (n : BitVec 4) : State → Host.Outcome State Fault Refusal := runM (send (.vhad d a m ta tb n))
/-- VCVTN (R304): Narrows wide floats to a narrow format with one rounding. -/
def execVcvtn (d a : BitVec 5) (m : BitVec 4) (ta tb : BitVec 8) (sa : BitVec 3) (scl : Bool) : State → Host.Outcome State Fault Refusal := runM (send (.vcvtn d a m ta tb sa scl))
/-- VCVTW (R305): Widens narrow elements times their scales. -/
def execVcvtw (d a : BitVec 5) (m : BitVec 4) (ta tb : BitVec 8) (sa : BitVec 3) (scl : Bool) : State → Host.Outcome State Fault Refusal := runM (send (.vcvtw d a m ta tb sa scl))
/-- VSCALE (R306): Derives per-block scale codes from block maxima. -/
def execVscale (d a : BitVec 5) (ta tb : BitVec 8) : State → Host.Outcome State Fault Refusal := runM (send (.vscale d a ta tb))
/-- XCFG (R309): Configures a Lacewing history and reserves its space. -/
def execXcfg (d a : BitVec 5) : State → Host.Outcome State Fault Refusal := runM (send (.xcfg d a))
/-- XCKPT (R310): Appends each element's value to its history. -/
def execXckpt (d a : BitVec 5) (m : BitVec 4) : State → Host.Outcome State Fault Refusal := runM (send (.xckpt d a m))
/-- XDRAIN (R311): Writes each element's extrapolated estimate and updates its flags. -/
def execXdrain (d a : BitVec 5) (m : BitVec 4) : State → Host.Outcome State Fault Refusal := runM (send (.xdrain d a m))
/-- XSTAT (R316): Copies a history flag into a mask. -/
def execXstat (d a : BitVec 5) (m : BitVec 4) (f : BitVec 2) : State → Host.Outcome State Fault Refusal := runM (send (.xstat d a m f))
/-- XCLR (R316): Clears every element's entries, PREV and flags. -/
def execXclr (d : BitVec 5) : State → Host.Outcome State Fault Refusal := runM (send (.xclr d))

end Sys2Proof.Machine
end

