-- ==== Sys2Proof/Machine/VSync.lean ====
section
/-!
DEFINITION. Machine/VSync.lean: streams, broadcast writes, and the fences of the vector side. Each is sent to the vector queue; what it performs stands in
VDispatch.perform.
-/
namespace Sys2Proof.Machine

/-- FENCE_SV (R172): Orders earlier scalar accesses before later vector accesses at a scope. -/
def execFenceSv (s : BitVec 3) : State → Host.Outcome State Fault Refusal := runM (send (.fenceSv s))
/-- FENCE_VV (R172): Orders earlier vector accesses before later vector accesses at a scope. -/
def execFenceVv (s : BitVec 3) : State → Host.Outcome State Fault Refusal := runM (send (.fenceVv s))
/-- SOPEN (R324): Binds a local register as consumer of another member's register stream. -/
def execSopen (d a k : BitVec 5) : State → Host.Outcome State Fault Refusal := runM (send (.sopen d a k))
/-- SCLOSE (R327): Ends a stream binding and zeroes the register. -/
def execSclose (d : BitVec 5) : State → Host.Outcome State Fault Refusal := runM (send (.sclose d))
/-- BST_VECTOR (R328): Releases at .towr and queues broadcast writes of vector elements. -/
def execBstVector (d a : BitVec 5) (m : BitVec 4) : State → Host.Outcome State Fault Refusal := runM (send (.bstVector d a m))
/-- BST_SCALAR (R328): Queues a broadcast write of 8 scalar bytes. -/
def execBstScalar (a b : BitVec 5) : State → Host.Outcome State Fault Refusal := runM (send (.bstScalar a b))

end Sys2Proof.Machine
end

