-- ==== Sys2Proof/Machine/Work.lean ====
section
/-!
DEFINITION. Machine/Work.lean: GBAR (R320 to R323), BACQ (R158, R330), LAUNCH (R332), CLAIM (R333) and GRUN (R335).
-/
namespace Sys2Proof.Machine

/-! ### GBAR -/

/-- A hart's arrival is void: it waits in its barrier no more (R322). -/
def voidArrival (g gg : Nat) : M Unit := do
  modGang gg (fun x => x.onView (tierOf g) (fun b => { b with arr := 0 }))
  modHart g (fun h => { h with arrived := false, barrierQ := false })

/-- Wait in the barrier of a gang, as the hart's tier holds it: a new EPOCH ends the wait with an acquire at .towr, and else BROKEN
traps. -/
def gbarWait (g gg : Nat) : M Unit := do
  whenM (← gets (fun s => (s.gangOf g).any (fun e => e.2.spans))) (cicadaWaits g)
  let h ← getHart g
  match ← gets (fun s => s.barrierSeen g) with
  | none => pure ()
  | some b =>
    if b.epoch ≠ h.epochAt then do
      acquireAt g 3 true
      putHart g h.gbarDone
    else if b.st = 2#2 then do
      voidArrival g gg
      trapAfter g .gangLost 0
    else pure ()

/-- GBAR (R320). -/
def execGbar : State → Host.Outcome State Fault Refusal :=
  runM (scalar [] (fun g _ => do
    releaseAll g 3
    match ← gets (fun s => s.gangOf g) with
    | none => do
      acquireAt g 3 true
      modHart g (fun h => h.gbarDone)
    | some (gg, x) =>
      let b := x.seenFrom (tierOf g)
      if (← getHart g).arrived then gbarWait g gg
      else if b.st = 2#2 then trapAfter g .gangLost 0
      else do
        if ← barrierChange g x (.arrive gg) then pure () else halt
        modHart g (fun h => { h with arrived := true, epochAt := b.epoch, barrierQ := x.spans })
        gbarWait g gg))

/-! ### BACQ -/

/-- The tier's receiver has reached a BACQ's target: SEQ as it issued, and one above the hart's last BST, which has been
transmitted (R158). A replica that refills is waited for (R177). -/
def bacqReached (s : State) (g target : Nat) : Bool :=
  let h := s.hart g
  let t := s.tier (tierOf g)
  decide (h.bstQueued = 0) && t.replica == .current && seqReached t.applied target && h.bstNext.all (seqReached t.applied)

/-- BACQ.BCST (R158, R330). -/
def execBacq : State → Host.Outcome State Fault Refusal :=
  runM (scalar [] (fun g h => do
    needDrained g
    let target ← gets (fun s => h.bacq.getD (s.tower (towerOf g)).seq)
    whenM (← gets (fun s => !bacqReached s g target)) (cicadaWaits g)
    if ← gets (fun s => bacqReached s g target) then do
      let cycle ← gets (fun s => s.cycle)
      acquireAt g 3 true
      modHart g (fun h => (if h.bacqAt.isSome then h.bacqOver cycle else { h with bacq := none }).advance 4)
    else do
      let cycle ← gets (fun s => s.cycle)
      modHart g (fun h => { h.bacqWaits cycle with bacq := some target })))

/-! ### LAUNCH, CLAIM, GRUN -/

/-- The code and check that an arrival from a hart of a partition gets at queue q (R122, R332). -/
def launchCode (s : State) (p q : Nat) (pkt : Bits) : Nat × Nat :=
  if 63 < q ∨ !bitAt (s.part p).queues q ∨ (s.part p).state ≠ .run then (deniedCode, 0)
  else (packetRefusal s p q pkt).getD (accepted, 0)

/-- LAUNCH (R332). -/
def execLaunch (d a b : BitVec 5) : State → Host.Outcome State Fault Refusal :=
  runM (scalar [d, a, b] (fun g h => do
    releaseSys g
    let t := h.getX a
    let q := (h.getX b).toNat
    let p := h.partid.toNat
    let pkt ← scalarLoad g 128 t 128
    let (code, check) ← gets (fun s => launchCode s p q pkt)
    countArrival q code
    whenM (code == accepted) (enqueuePacket p q pkt t 1 0 none)
    modHart g (fun h => (h.setX d (BitVec.ofNat 64 (statusWord code check 0))).advance 4)))

/-- CLAIM (R333). -/
def execClaim (d a : BitVec 5) : State → Host.Outcome State Fault Refusal :=
  runM (scalar [d, a] (fun g h => do
    needDrained g
    let id := (h.place.map (fun e => e.launch)).getD 0
    let l ← gets (fun s => tabFind s.launches id)
    let start := (l.map (fun l => l.claim)).getD 0
    let total := (l.map (fun l => Packet.total l.packet)).getD 0
    let count := min (h.getX a).toNat (total - start)
    modLaunch id (fun l => { l with claim := start + count })
    modHart g (fun h => ((h.setX d (BitVec.ofNat 64 start)).setX a (BitVec.ofNat 64 count)).advance 4)))

/-- GRUN (R335). -/
def execGrun (d a : BitVec 5) : State → Host.Outcome State Fault Refusal :=
  runM (scalar [d, a] (fun g h => do
    releaseSys g
    let t := h.getX a
    let p := h.partid.toNat
    let line ← scalarLoad g 128 t 128
    let code ← match ← graphRefusal p line with
      | none => hartError g p
      | some (some code) => pure code
      | some none => do
        if ← graphStart p 0 t 0 line then pure accepted else hartError g p
    modHart g (fun h => (h.setX d (BitVec.ofNat 64 (statusWord code 0 0))).advance 4)))

end Sys2Proof.Machine
end

