-- ==== Sys2Proof/Machine/Dispatch.lean ====
section
/-!
DEFINITION. Machine/Dispatch.lean: one arm for each instruction and step of the opcode table.
-/
namespace Sys2Proof.Machine

/-- The meaning of an instruction of the hart in turn, or of a step of the part. -/
def exec (i : Instr) (s : State) : Host.Outcome State Fault Refusal :=
  match i with
  | .add d a b => Sys2Proof.Machine.execAdd d a b s
  | .sub d a b => Sys2Proof.Machine.execSub d a b s
  | .and d a b => Sys2Proof.Machine.execAnd d a b s
  | .or d a b => Sys2Proof.Machine.execOr d a b s
  | .xor d a b => Sys2Proof.Machine.execXor d a b s
  | .sll d a b => Sys2Proof.Machine.execSll d a b s
  | .srl d a b => Sys2Proof.Machine.execSrl d a b s
  | .sra d a b => Sys2Proof.Machine.execSra d a b s
  | .mul d a b => Sys2Proof.Machine.execMul d a b s
  | .mulh d a b => Sys2Proof.Machine.execMulh d a b s
  | .mulhn d a b => Sys2Proof.Machine.execMulhn d a b s
  | .div d a b => Sys2Proof.Machine.execDiv d a b s
  | .divn d a b => Sys2Proof.Machine.execDivn d a b s
  | .rem d a b => Sys2Proof.Machine.execRem d a b s
  | .remn d a b => Sys2Proof.Machine.execRemn d a b s
  | .slt d a b => Sys2Proof.Machine.execSlt d a b s
  | .sltn d a b => Sys2Proof.Machine.execSltn d a b s
  | .min d a b => Sys2Proof.Machine.execMin d a b s
  | .max d a b => Sys2Proof.Machine.execMax d a b s
  | .minn d a b => Sys2Proof.Machine.execMinn d a b s
  | .maxn d a b => Sys2Proof.Machine.execMaxn d a b s
  | .clz d a => Sys2Proof.Machine.execClz d a s
  | .ctz d a => Sys2Proof.Machine.execCtz d a s
  | .popc d a => Sys2Proof.Machine.execPopc d a s
  | .sext d a w => Sys2Proof.Machine.execSext d a w s
  | .zext d a w => Sys2Proof.Machine.execZext d a w s
  | .addi d a imm => Sys2Proof.Machine.execAddi d a imm s
  | .andi d a imm => Sys2Proof.Machine.execAndi d a imm s
  | .ori d a imm => Sys2Proof.Machine.execOri d a imm s
  | .xori d a imm => Sys2Proof.Machine.execXori d a imm s
  | .slti d a imm => Sys2Proof.Machine.execSlti d a imm s
  | .slli d a c => Sys2Proof.Machine.execSlli d a c s
  | .srli d a c => Sys2Proof.Machine.execSrli d a c s
  | .srai d a c => Sys2Proof.Machine.execSrai d a c s
  | .lih d imm => Sys2Proof.Machine.execLih d imm s
  | .addpc d imm => Sys2Proof.Machine.execAddpc d imm s
  | .jal d imm => Sys2Proof.Machine.execJal d imm s
  | .jalr d a imm => Sys2Proof.Machine.execJalr d a imm s
  | .beq a b imm => Sys2Proof.Machine.execBeq a b imm s
  | .bne a b imm => Sys2Proof.Machine.execBne a b imm s
  | .blt a b imm => Sys2Proof.Machine.execBlt a b imm s
  | .bge a b imm => Sys2Proof.Machine.execBge a b imm s
  | .bltn a b imm => Sys2Proof.Machine.execBltn a b imm s
  | .bgen a b imm => Sys2Proof.Machine.execBgen a b imm s
  | .loop a imm => Sys2Proof.Machine.execLoop a imm s
  | .ldS8 d a imm => Sys2Proof.Machine.execLdS8 d a imm s
  | .ldN8 d a imm => Sys2Proof.Machine.execLdN8 d a imm s
  | .ldS16 d a imm => Sys2Proof.Machine.execLdS16 d a imm s
  | .ldN16 d a imm => Sys2Proof.Machine.execLdN16 d a imm s
  | .ldS32 d a imm => Sys2Proof.Machine.execLdS32 d a imm s
  | .ldN32 d a imm => Sys2Proof.Machine.execLdN32 d a imm s
  | .ld64 d a imm => Sys2Proof.Machine.execLd64 d a imm s
  | .st8 a b imm => Sys2Proof.Machine.execSt8 a b imm s
  | .st16 a b imm => Sys2Proof.Machine.execSt16 a b imm s
  | .st32 a b imm => Sys2Proof.Machine.execSt32 a b imm s
  | .st64 a b imm => Sys2Proof.Machine.execSt64 a b imm s
  | .fadd d a b f => Sys2Proof.Machine.execFadd d a b f s
  | .fsub d a b f => Sys2Proof.Machine.execFsub d a b f s
  | .fmul d a b f => Sys2Proof.Machine.execFmul d a b f s
  | .fdiv d a b f => Sys2Proof.Machine.execFdiv d a b f s
  | .fsqrt d a f => Sys2Proof.Machine.execFsqrt d a f s
  | .fma d a b f => Sys2Proof.Machine.execFma d a b f s
  | .fmin d a b f => Sys2Proof.Machine.execFmin d a b f s
  | .fmax d a b f => Sys2Proof.Machine.execFmax d a b f s
  | .fcmp d a b f c => Sys2Proof.Machine.execFcmp d a b f c s
  | .fclass d a f => Sys2Proof.Machine.execFclass d a f s
  | .fcvtToFloat d a b f => Sys2Proof.Machine.execFcvtToFloat d a b f s
  | .fcvtToInt d a b f => Sys2Proof.Machine.execFcvtToInt d a b f s
  | .csrrw d a c => Sys2Proof.Machine.execCsrrw d a c s
  | .csrrs d a c => Sys2Proof.Machine.execCsrrs d a c s
  | .csrrc d a c => Sys2Proof.Machine.execCsrrc d a c s
  | .trap k => Sys2Proof.Machine.execTrap k s
  | .brk => Sys2Proof.Machine.execBrk s
  | .eret => Sys2Proof.Machine.execEret s
  | .wfe => Sys2Proof.Machine.execWfe s
  | .icsync => Sys2Proof.Machine.execIcsync s
  | .tlbi a => Sys2Proof.Machine.execTlbi a s
  | .tlbiAll => Sys2Proof.Machine.execTlbiAll s
  | .savectx a => Sys2Proof.Machine.execSavectx a s
  | .rstctx d a => Sys2Proof.Machine.execRstctx d a s
  | .quiesce d => Sys2Proof.Machine.execQuiesce d s
  | .retire => Sys2Proof.Machine.execRetire s
  | .fenceSv sc => Sys2Proof.Machine.execFenceSv sc s
  | .fenceVs sc => Sys2Proof.Machine.execFenceVs sc s
  | .fenceVv sc => Sys2Proof.Machine.execFenceVv sc s
  | .fenceAll sc => Sys2Proof.Machine.execFenceAll sc s
  | .fenceSys d => Sys2Proof.Machine.execFenceSys d s
  | .amoAddW d a b sc q l => Sys2Proof.Machine.execAmoAddW d a b sc q l s
  | .amoAndW d a b sc q l => Sys2Proof.Machine.execAmoAndW d a b sc q l s
  | .amoOrW d a b sc q l => Sys2Proof.Machine.execAmoOrW d a b sc q l s
  | .amoXorW d a b sc q l => Sys2Proof.Machine.execAmoXorW d a b sc q l s
  | .amoMinW d a b sc q l => Sys2Proof.Machine.execAmoMinW d a b sc q l s
  | .amoMaxW d a b sc q l => Sys2Proof.Machine.execAmoMaxW d a b sc q l s
  | .amoMinnW d a b sc q l => Sys2Proof.Machine.execAmoMinnW d a b sc q l s
  | .amoMaxnW d a b sc q l => Sys2Proof.Machine.execAmoMaxnW d a b sc q l s
  | .amoSwapW d a b sc q l => Sys2Proof.Machine.execAmoSwapW d a b sc q l s
  | .amoCasW d a b sc q l => Sys2Proof.Machine.execAmoCasW d a b sc q l s
  | .amoAddD d a b sc q l => Sys2Proof.Machine.execAmoAddD d a b sc q l s
  | .amoAndD d a b sc q l => Sys2Proof.Machine.execAmoAndD d a b sc q l s
  | .amoOrD d a b sc q l => Sys2Proof.Machine.execAmoOrD d a b sc q l s
  | .amoXorD d a b sc q l => Sys2Proof.Machine.execAmoXorD d a b sc q l s
  | .amoMinD d a b sc q l => Sys2Proof.Machine.execAmoMinD d a b sc q l s
  | .amoMaxD d a b sc q l => Sys2Proof.Machine.execAmoMaxD d a b sc q l s
  | .amoMinnD d a b sc q l => Sys2Proof.Machine.execAmoMinnD d a b sc q l s
  | .amoMaxnD d a b sc q l => Sys2Proof.Machine.execAmoMaxnD d a b sc q l s
  | .amoSwapD d a b sc q l => Sys2Proof.Machine.execAmoSwapD d a b sc q l s
  | .amoCasD d a b sc q l => Sys2Proof.Machine.execAmoCasD d a b sc q l s
  | .vsetlT d a t => Sys2Proof.Machine.execVsetlT d a t s
  | .vsetl d a => Sys2Proof.Machine.execVsetl d a s
  | .vcfg b n => Sys2Proof.Machine.execVcfg b n s
  | .vsett d a b => Sys2Proof.Machine.execVsett d a b s
  | .vadd d a b m => Sys2Proof.Machine.execVadd d a b m s
  | .vsub d a b m => Sys2Proof.Machine.execVsub d a b m s
  | .vmul d a b m => Sys2Proof.Machine.execVmul d a b m s
  | .vmulh d a b m => Sys2Proof.Machine.execVmulh d a b m s
  | .vmacc d a b m => Sys2Proof.Machine.execVmacc d a b m s
  | .vdiv d a b m => Sys2Proof.Machine.execVdiv d a b m s
  | .vrem d a b m => Sys2Proof.Machine.execVrem d a b m s
  | .vmin d a b m => Sys2Proof.Machine.execVmin d a b m s
  | .vmax d a b m => Sys2Proof.Machine.execVmax d a b m s
  | .vand d a b m => Sys2Proof.Machine.execVand d a b m s
  | .vor d a b m => Sys2Proof.Machine.execVor d a b m s
  | .vxor d a b m => Sys2Proof.Machine.execVxor d a b m s
  | .vsll d a b m => Sys2Proof.Machine.execVsll d a b m s
  | .vsrl d a b m => Sys2Proof.Machine.execVsrl d a b m s
  | .vsra d a b m => Sys2Proof.Machine.execVsra d a b m s
  | .vadds d a b m => Sys2Proof.Machine.execVadds d a b m s
  | .vsubs d a b m => Sys2Proof.Machine.execVsubs d a b m s
  | .vadc d a b m => Sys2Proof.Machine.execVadc d a b m s
  | .vsbc d a b m => Sys2Proof.Machine.execVsbc d a b m s
  | .vmerge d a b m => Sys2Proof.Machine.execVmerge d a b m s
  | .vaddX d a b m => Sys2Proof.Machine.execVaddX d a b m s
  | .vsubX d a b m => Sys2Proof.Machine.execVsubX d a b m s
  | .vmulX d a b m => Sys2Proof.Machine.execVmulX d a b m s
  | .vmulhX d a b m => Sys2Proof.Machine.execVmulhX d a b m s
  | .vmaccX d a b m => Sys2Proof.Machine.execVmaccX d a b m s
  | .vdivX d a b m => Sys2Proof.Machine.execVdivX d a b m s
  | .vremX d a b m => Sys2Proof.Machine.execVremX d a b m s
  | .vminX d a b m => Sys2Proof.Machine.execVminX d a b m s
  | .vmaxX d a b m => Sys2Proof.Machine.execVmaxX d a b m s
  | .vandX d a b m => Sys2Proof.Machine.execVandX d a b m s
  | .vorX d a b m => Sys2Proof.Machine.execVorX d a b m s
  | .vxorX d a b m => Sys2Proof.Machine.execVxorX d a b m s
  | .vsllX d a b m => Sys2Proof.Machine.execVsllX d a b m s
  | .vsrlX d a b m => Sys2Proof.Machine.execVsrlX d a b m s
  | .vsraX d a b m => Sys2Proof.Machine.execVsraX d a b m s
  | .vaddsX d a b m => Sys2Proof.Machine.execVaddsX d a b m s
  | .vsubsX d a b m => Sys2Proof.Machine.execVsubsX d a b m s
  | .vadcX d a b m => Sys2Proof.Machine.execVadcX d a b m s
  | .vsbcX d a b m => Sys2Proof.Machine.execVsbcX d a b m s
  | .vmergeX d a b m => Sys2Proof.Machine.execVmergeX d a b m s
  | .vcmpeq d a b m => Sys2Proof.Machine.execVcmpeq d a b m s
  | .vcmpne d a b m => Sys2Proof.Machine.execVcmpne d a b m s
  | .vcmplt d a b m => Sys2Proof.Machine.execVcmplt d a b m s
  | .vcmple d a b m => Sys2Proof.Machine.execVcmple d a b m s
  | .vcmpgt d a b m => Sys2Proof.Machine.execVcmpgt d a b m s
  | .vcmpge d a b m => Sys2Proof.Machine.execVcmpge d a b m s
  | .vfcmpeq d a b m => Sys2Proof.Machine.execVfcmpeq d a b m s
  | .vfcmplt d a b m => Sys2Proof.Machine.execVfcmplt d a b m s
  | .vfcmple d a b m => Sys2Proof.Machine.execVfcmple d a b m s
  | .vfcmpne d a b m => Sys2Proof.Machine.execVfcmpne d a b m s
  | .vfcmpun d a b m => Sys2Proof.Machine.execVfcmpun d a b m s
  | .vfadd d a b m => Sys2Proof.Machine.execVfadd d a b m s
  | .vfsub d a b m => Sys2Proof.Machine.execVfsub d a b m s
  | .vfmul d a b m => Sys2Proof.Machine.execVfmul d a b m s
  | .vfma d a b m => Sys2Proof.Machine.execVfma d a b m s
  | .vfdiv d a b m => Sys2Proof.Machine.execVfdiv d a b m s
  | .vfsqrt d a m => Sys2Proof.Machine.execVfsqrt d a m s
  | .vfmin d a b m => Sys2Proof.Machine.execVfmin d a b m s
  | .vfmax d a b m => Sys2Proof.Machine.execVfmax d a b m s
  | .vfcvt d a m k => Sys2Proof.Machine.execVfcvt d a m k s
  | .vfrcp d a m => Sys2Proof.Machine.execVfrcp d a m s
  | .vfrsq d a m => Sys2Proof.Machine.execVfrsq d a m s
  | .vfexp2 d a m => Sys2Proof.Machine.execVfexp2 d a m s
  | .vflog2 d a m => Sys2Proof.Machine.execVflog2 d a m s
  | .vftanh d a m => Sys2Proof.Machine.execVftanh d a m s
  | .vfaddX d a b m => Sys2Proof.Machine.execVfaddX d a b m s
  | .vfsubX d a b m => Sys2Proof.Machine.execVfsubX d a b m s
  | .vfmulX d a b m => Sys2Proof.Machine.execVfmulX d a b m s
  | .vfmaX d a b m => Sys2Proof.Machine.execVfmaX d a b m s
  | .vfminX d a b m => Sys2Proof.Machine.execVfminX d a b m s
  | .vfmaxX d a b m => Sys2Proof.Machine.execVfmaxX d a b m s
  | .vmv d a m => Sys2Proof.Machine.execVmv d a m s
  | .vmvFromScalar d a m => Sys2Proof.Machine.execVmvFromScalar d a m s
  | .vslideup d a b m => Sys2Proof.Machine.execVslideup d a b m s
  | .vslidedn d a b m => Sys2Proof.Machine.execVslidedn d a b m s
  | .vperm d a b m => Sys2Proof.Machine.execVperm d a b m s
  | .vcompress d a b => Sys2Proof.Machine.execVcompress d a b s
  | .viota d a m => Sys2Proof.Machine.execViota d a m s
  | .vid d m => Sys2Proof.Machine.execVid d m s
  | .vmvToScale d a => Sys2Proof.Machine.execVmvToScale d a s
  | .vmvFromScale d a => Sys2Proof.Machine.execVmvFromScale d a s
  | .vredAdd d a b m => Sys2Proof.Machine.execVredAdd d a b m s
  | .vredAnd d a b m => Sys2Proof.Machine.execVredAnd d a b m s
  | .vredOr d a b m => Sys2Proof.Machine.execVredOr d a b m s
  | .vredXor d a b m => Sys2Proof.Machine.execVredXor d a b m s
  | .vredMin d a b m => Sys2Proof.Machine.execVredMin d a b m s
  | .vredMax d a b m => Sys2Proof.Machine.execVredMax d a b m s
  | .vfredo d a b m => Sys2Proof.Machine.execVfredo d a b m s
  | .vfredt d a b m => Sys2Proof.Machine.execVfredt d a b m s
  | .mand d a b => Sys2Proof.Machine.execMand d a b s
  | .mor d a b => Sys2Proof.Machine.execMor d a b s
  | .mxor d a b => Sys2Proof.Machine.execMxor d a b s
  | .mandn d a b => Sys2Proof.Machine.execMandn d a b s
  | .mnot d a => Sys2Proof.Machine.execMnot d a s
  | .mwhile d a => Sys2Proof.Machine.execMwhile d a s
  | .mpop d a => Sys2Proof.Machine.execMpop d a s
  | .mpopVl d a => Sys2Proof.Machine.execMpopVl d a s
  | .mfirst d a => Sys2Proof.Machine.execMfirst d a s
  | .mlast d a => Sys2Proof.Machine.execMlast d a s
  | .mshup d a => Sys2Proof.Machine.execMshup d a s
  | .vtopk d a b m => Sys2Proof.Machine.execVtopk d a b m s
  | .vld d a m => Sys2Proof.Machine.execVld d a m s
  | .vlds d a b m => Sys2Proof.Machine.execVlds d a b m s
  | .vlx d a b m => Sys2Proof.Machine.execVlx d a b m s
  | .vldff d a m => Sys2Proof.Machine.execVldff d a m s
  | .vlxff d a b m => Sys2Proof.Machine.execVlxff d a b m s
  | .vldScale d a => Sys2Proof.Machine.execVldScale d a s
  | .vldMask d a => Sys2Proof.Machine.execVldMask d a s
  | .vst d a m => Sys2Proof.Machine.execVst d a m s
  | .vsts d a b m => Sys2Proof.Machine.execVsts d a b m s
  | .vsx d a b m => Sys2Proof.Machine.execVsx d a b m s
  | .vscadd d a b m => Sys2Proof.Machine.execVscadd d a b m s
  | .vstScale d a => Sys2Proof.Machine.execVstScale d a s
  | .vstMask d a => Sys2Proof.Machine.execVstMask d a s
  | .vxlate d a b m => Sys2Proof.Machine.execVxlate d a b m s
  | .vxlateff d a b m => Sys2Proof.Machine.execVxlateff d a b m s
  | .vamoAdd d b m sc q l => Sys2Proof.Machine.execVamoAdd d b m sc q l s
  | .vamoAnd d b m sc q l => Sys2Proof.Machine.execVamoAnd d b m sc q l s
  | .vamoOr d b m sc q l => Sys2Proof.Machine.execVamoOr d b m sc q l s
  | .vamoXor d b m sc q l => Sys2Proof.Machine.execVamoXor d b m sc q l s
  | .vamoMin d b m sc q l => Sys2Proof.Machine.execVamoMin d b m sc q l s
  | .vamoMax d b m sc q l => Sys2Proof.Machine.execVamoMax d b m sc q l s
  | .vamoMinn d b m sc q l => Sys2Proof.Machine.execVamoMinn d b m sc q l s
  | .vamoMaxn d b m sc q l => Sys2Proof.Machine.execVamoMaxn d b m sc q l s
  | .vamoSwap d b m sc q l => Sys2Proof.Machine.execVamoSwap d b m sc q l s
  | .fwdmove a b m => Sys2Proof.Machine.execFwdmove a b m s
  | .fwdres d a m => Sys2Proof.Machine.execFwdres d a m s
  | .fwdresff d a m => Sys2Proof.Machine.execFwdresff d a m s
  | .pcmpr d a b m => Sys2Proof.Machine.execPcmpr d a b m s
  | .fwdpath a m => Sys2Proof.Machine.execFwdpath a m s
  | .fwdrecl a => Sys2Proof.Machine.execFwdrecl a s
  | .fwdreclTomb a => Sys2Proof.Machine.execFwdreclTomb a s
  | .cpstep c => Sys2Proof.Machine.execCpstep c s
  | .cpwait c => Sys2Proof.Machine.execCpwait c s
  | .cpland d c => Sys2Proof.Machine.execCpland d c s
  | .cpcfg a c t => Sys2Proof.Machine.execCpcfg a c t s
  | .launch d a b => Sys2Proof.Machine.execLaunch d a b s
  | .claim d a => Sys2Proof.Machine.execClaim d a s
  | .grun d a => Sys2Proof.Machine.execGrun d a s
  | .gbar => Sys2Proof.Machine.execGbar s
  | .sopen d a k => Sys2Proof.Machine.execSopen d a k s
  | .sclose d => Sys2Proof.Machine.execSclose d s
  | .bstVector d a m => Sys2Proof.Machine.execBstVector d a m s
  | .bstScalar a b => Sys2Proof.Machine.execBstScalar a b s
  | .bacq => Sys2Proof.Machine.execBacq s
  | .mopa d a b ta tb sa sb sat scl => Sys2Proof.Machine.execMopa d a b ta tb sa sb sat scl s
  | .mzero d => Sys2Proof.Machine.execMzero d s
  | .mfill d a => Sys2Proof.Machine.execMfill d a s
  | .mdrain d a b m ta => Sys2Proof.Machine.execMdrain d a b m ta s
  | .mrdrow d a b ta => Sys2Proof.Machine.execMrdrow d a b ta s
  | .vhad d a m ta tb n => Sys2Proof.Machine.execVhad d a m ta tb n s
  | .vcvtn d a m ta tb sa scl => Sys2Proof.Machine.execVcvtn d a m ta tb sa scl s
  | .vcvtw d a m ta tb sa scl => Sys2Proof.Machine.execVcvtw d a m ta tb sa scl s
  | .vscale d a ta tb => Sys2Proof.Machine.execVscale d a ta tb s
  | .xcfg d a => Sys2Proof.Machine.execXcfg d a s
  | .xckpt d a m => Sys2Proof.Machine.execXckpt d a m s
  | .xdrain d a m => Sys2Proof.Machine.execXdrain d a m s
  | .xstat d a m f => Sys2Proof.Machine.execXstat d a m f s
  | .xclr d => Sys2Proof.Machine.execXclr d s
  | .cAdd d a b => Sys2Proof.Machine.execCAdd d a b s
  | .cSub d a b => Sys2Proof.Machine.execCSub d a b s
  | .cAnd d a b => Sys2Proof.Machine.execCAnd d a b s
  | .cOr d a b => Sys2Proof.Machine.execCOr d a b s
  | .cXor d a b => Sys2Proof.Machine.execCXor d a b s
  | .cAddi d a imm => Sys2Proof.Machine.execCAddi d a imm s
  | .cLi d imm => Sys2Proof.Machine.execCLi d imm s
  | .cSlli d a imm => Sys2Proof.Machine.execCSlli d a imm s
  | .cSrli d a imm => Sys2Proof.Machine.execCSrli d a imm s
  | .cSrai d a imm => Sys2Proof.Machine.execCSrai d a imm s
  | .cLdS32 d a imm => Sys2Proof.Machine.execCLdS32 d a imm s
  | .cLd64 d a imm => Sys2Proof.Machine.execCLd64 d a imm s
  | .cSt32 d a imm => Sys2Proof.Machine.execCSt32 d a imm s
  | .cSt64 d a imm => Sys2Proof.Machine.execCSt64 d a imm s
  | .cBeq a imm => Sys2Proof.Machine.execCBeq a imm s
  | .cBne a imm => Sys2Proof.Machine.execCBne a imm s
  | .vtypeWrite g v => Sys2Proof.Machine.execVtypeWrite g v s
  | .vstartWrite g v => Sys2Proof.Machine.execVstartWrite g v s
  | .rmodeWrite g v => Sys2Proof.Machine.execRmodeWrite g v s
  | .vlcapWrite g v => Sys2Proof.Machine.execVlcapWrite g v s
  | .spbanksWrite g v => Sys2Proof.Machine.execSpbanksWrite g v s
  | .ptrootWrite g v => Sys2Proof.Machine.execPtrootWrite g v s
  | .csrWrite g c v => Sys2Proof.Machine.execCsrWrite g c v s
  | .enqueueStore w q off line full => Sys2Proof.Machine.execEnqueueStore w q off line full s
  | .graphStartWindow w q line full => Sys2Proof.Machine.execGraphStartWindow w q line full s
  | .placeGang tower => Sys2Proof.Machine.execPlaceGang tower s
  | .agingStep q => Sys2Proof.Machine.execAgingStep q s
  | .preemption g => Sys2Proof.Machine.execPreemption g s
  | .graphNodeStart gr node => Sys2Proof.Machine.execGraphNodeStart gr node s
  | .vectorEntryComplete g => Sys2Proof.Machine.execVectorEntryComplete g s
  | .faultRecordPost p => Sys2Proof.Machine.execFaultRecordPost p s
  | .eventDelivery p => Sys2Proof.Machine.execEventDelivery p s
  | .eventWindowWrite w p v => Sys2Proof.Machine.execEventWindowWrite w p v s
  | .wfeTimeout g => Sys2Proof.Machine.execWfeTimeout g s
  | .stripFetch g ch elem => Sys2Proof.Machine.execStripFetch g ch elem s
  | .elementLanding g ch elem => Sys2Proof.Machine.execElementLanding g ch elem s
  | .moveComplete line => Sys2Proof.Machine.execMoveComplete line s
  | .reclaimComplete p idx => Sys2Proof.Machine.execReclaimComplete p idx s
  | .postedWriteFollow g => Sys2Proof.Machine.execPostedWriteFollow g s
  | .scrub tier line corrected passEnd => Sys2Proof.Machine.execScrub tier line corrected passEnd s
  | .uncorrectableError site => Sys2Proof.Machine.execUncorrectableError site s
  | .laneGroupRetirement core lg => Sys2Proof.Machine.execLaneGroupRetirement core lg s
  | .frameBoundary tower => Sys2Proof.Machine.execFrameBoundary tower s
  | .slotTransmission tower slot crcOk => Sys2Proof.Machine.execSlotTransmission tower slot crcOk s
  | .broadcastApply tier crcOk => Sys2Proof.Machine.execBroadcastApply tier crcOk s
  | .tierSleep tier => Sys2Proof.Machine.execTierSleep tier s
  | .tierWake tier => Sys2Proof.Machine.execTierWake tier s
  | .wakeLogReplayEnd tier => Sys2Proof.Machine.execWakeLogReplayEnd tier s
  | .replicaRefillEnd tier => Sys2Proof.Machine.execReplicaRefillEnd tier s
  | .powerSample watts hot => Sys2Proof.Machine.execPowerSample watts hot s
  | .thermalShutdown => Sys2Proof.Machine.execThermalShutdown s
  | .powerUp imageOk versionOk lanes deadLinks => Sys2Proof.Machine.execPowerUp imageOk versionOk lanes deadLinks s
  | .linkRetrainEntry k => Sys2Proof.Machine.execLinkRetrainEntry k s
  | .trainingAttemptEnd k ok => Sys2Proof.Machine.execTrainingAttemptEnd k ok s
  | .linkDownTimeout k => Sys2Proof.Machine.execLinkDownTimeout k s
  | .fabricRequest id part req => Sys2Proof.Machine.execFabricRequest id part req s
  | .partInfo m w tag => Sys2Proof.Machine.execPartInfo m w tag s
  | .counters m w tag off => Sys2Proof.Machine.execCounters m w tag off s
  | .shootdown m w tag va all => Sys2Proof.Machine.execShootdown m w tag va all s
  | .resume m w tag => Sys2Proof.Machine.execResume m w tag s
  | .abandon m w tag paddr abcode => Sys2Proof.Machine.execAbandon m w tag paddr abcode s
  | .setevent m w tag target hevaddr => Sys2Proof.Machine.execSetevent m w tag target hevaddr s
  | .quota m w tag q0 q1 => Sys2Proof.Machine.execQuota m w tag q0 q1 s
  | .qpair m w tag port count => Sys2Proof.Machine.execQpair m w tag port count s
  | .mreg m w tag port va len rd wr => Sys2Proof.Machine.execMreg m w tag port va len rd wr s
  | .mdereg m w tag key => Sys2Proof.Machine.execMdereg m w tag key s
  | .qpconn m w tag port qp conn => Sys2Proof.Machine.execQpconn m w tag port qp conn s
  | .create m w tag p entry => Sys2Proof.Machine.execCreate m w tag p entry s
  | .lock m w tag p => Sys2Proof.Machine.execLock m w tag p s
  | .start m w tag p => Sys2Proof.Machine.execStart m w tag p s
  | .stop m w tag p => Sys2Proof.Machine.execStop m w tag p s
  | .teardown m w tag p => Sys2Proof.Machine.execTeardown m w tag p s
  | .slots m w tag tower entries off len wlogs => Sys2Proof.Machine.execSlots m w tag tower entries off len wlogs s
  | .access m w tag id pmask mgmt => Sys2Proof.Machine.execAccess m w tag id pmask mgmt s
  | .link m w tag k => Sys2Proof.Machine.execLink m w tag k s
  | .domain m w tag pkg => Sys2Proof.Machine.execDomain m w tag pkg s
  | .migrate m w tag p peer out entry image => Sys2Proof.Machine.execMigrate m w tag p peer out entry image s
  | .sleep m w tag tower mask on => Sys2Proof.Machine.execSleep m w tag tower mask on s
  | .workLinePost w port p line full => Sys2Proof.Machine.execWorkLinePost w port p line full s
  | .workLineCompletion port p ok data => Sys2Proof.Machine.execWorkLineCompletion port p ok data s
  | .receiveLinePost w port p line full => Sys2Proof.Machine.execReceiveLinePost w port p line full s
  | .inboundSend port qp data => Sys2Proof.Machine.execInboundSend port qp data s
  | .inboundRdmaWrite port qp key va data => Sys2Proof.Machine.execInboundRdmaWrite port qp key va data s
  | .inboundRdmaRead port qp key va len => Sys2Proof.Machine.execInboundRdmaRead port qp key va len s
  | .getVersion peer => Sys2Proof.Machine.execGetVersion peer s
  | .getCapabilities peer => Sys2Proof.Machine.execGetCapabilities peer s
  | .negotiateAlgorithms peer offer => Sys2Proof.Machine.execNegotiateAlgorithms peer offer s
  | .getDigests peer => Sys2Proof.Machine.execGetDigests peer s
  | .getCertificate peer off len => Sys2Proof.Machine.execGetCertificate peer off len s
  | .challenge peer nonce => Sys2Proof.Machine.execChallenge peer nonce s
  | .getMeasurements peer index signed => Sys2Proof.Machine.execGetMeasurements peer index signed s
  | .keyExchange peer share => Sys2Proof.Machine.execKeyExchange peer share s
  | .finish peer session => Sys2Proof.Machine.execFinish peer session s
  | .endSession peer session => Sys2Proof.Machine.execEndSession peer session s
  | .postedWriteAck g k => Sys2Proof.Machine.execPostedWriteAck g k s
  | .flitCrcFailure k => Sys2Proof.Machine.execFlitCrcFailure k s

end Sys2Proof.Machine
end

