-- ==== Sys2Proof/Machine/Fetch.lean ====
section
/-!
DEFINITION. Machine/Fetch.lean: fetching an instruction's parcels through the loop buffer, the instruction cache or memory
(R92, R179, R222), and the breakpoints that match a fetch (R153, R355).
-/
namespace Sys2Proof.Machine

/-- A parcel of the pinned body, when the address lies in it (R222). -/
def Hart.pinnedParcel (h : Hart) (a : Word) : Option Nat :=
  match h.lp.pinned with
  | some b => if h.inBody a then some (bitsGet b (8 * (a.toNat - h.lp.start.toNat)) 16) else none
  | none => none

/-- A line as a fetch sees it: the instruction cache's copy, else what the hart's cluster gives. -/
def codeLine (s : State) (g pa : Nat) : Bits :=
  match tabFind (s.core (coreOf g)).icache (pa / 128) with
  | some x => x.data
  | none => s.lineFor g pa

/-- Fetch a parcel through translation (R179): an address outside the space is XLATE_NONE, one in the scratchpad window
SPAD_RANGE. A line of memory fills the instruction cache. -/
def fetchMapped (g va : Nat) : M (Res Nat) := do
  let s ← getState
  let w := s.walker g
  if 2 ^ 57 ≤ va then pure (.fail (plainFault .xlateNone va 2))
  else if inSpad va 2 then pure (.fail (plainFault .spadRange va 2))
  else
    match walk s w .fetch va with
    | .fault c => pure (.fail (xlateFault s w c va .fetch))
    | .mig _ => pure (.wait (some va))
    | .ok l => do
      if ← touchLeaf w.part va l false then
        match tabFind (s.core (coreOf g)).icache (l.pa / 128) with
        | some x => pure (.ok (bitsGet x.data (8 * (l.pa % 128)) 16))
        | none => do
          match ← settle g w .fetch va 2 l with
          | .fail f => pure (.fail f)
          | .wait m => pure (.wait m)
          | .stop => hartError g w.part
          | .ok r => do
            let s ← getState
            match r.tgt with
            | .line pa => do
              let ln := s.lineFor g pa
              touchLine g pa
              whenM (r.hops.isEmpty && !l.bc) (modCore (coreOf g) (fun k =>
                { k with icache := tabPut k.icache (pa / 128) { va := va / 128, data := ln } }))
              pure (.ok (bitsGet ln (8 * (pa % 128)) 16))
            | .replica _ pa => pure (.ok (s.bytes pa 2))
            | _ => pure (.ok 0)
      else hartError g w.part

/-- Fetch the parcel at an address. -/
def fetchParcel (g : Nat) (a : Word) : M (Res Nat) := do
  match (← getHart g).pinnedParcel a with
  | some p => pure (.ok p)
  | none => fetchMapped g a.toNat

/-- Parcels that the first one announces (R179). -/
def parcelsOf (p : Nat) : Nat := if p % 2 = 0 then 1 else if p % 4 = 1 then 2 else 4

/-- Fetch n more parcels from an address up, lowest first. -/
def fetchMore (g : Nat) (a : Word) : Nat → M (Res Nat)
  | 0 => pure (.ok 0)
  | n + 1 => do
    match ← fetchParcel g a with
    | .fail f => pure (.fail f)
    | .wait m => pure (.wait m)
    | .stop => pure .stop
    | .ok p => do
      match ← fetchMore g (a + 2) n with
      | .ok q => pure (.ok (p + q * 65536))
      | r => pure r

/-- Fetch the instruction at an address: its parcels' bits and its length in bytes. -/
def fetchInstr (g : Nat) (a : Word) : M (Res (Nat × Nat)) := do
  match ← fetchParcel g a with
  | .fail f => pure (.fail f)
  | .wait m => pure (.wait m)
  | .stop => pure .stop
  | .ok p => do
    let n := parcelsOf p
    match ← fetchMore g (a + 2) (n - 1) with
    | .ok q => pure (.ok (p + q * 65536, 2 * n))
    | .fail f => pure (.fail f)
    | .wait m => pure (.wait m)
    | .stop => pure .stop

/-! ### Pinning a loop body (R222) -/

/-- The leaves of a body's pages, when each line of it can be fetched with no fault and no wait. -/
def bodyLeaves (s : State) (g : Nat) (w : Walker) : List (Nat × Nat) → Option (List (Nat × Nat × Leaf))
  | [] => some []
  | (va, n) :: rest =>
    match walk s w .fetch va with
    | .ok l =>
      match targetOf s w.tier l with
      | .line pa =>
        let x := s.line (pa / 128)
        if l.bc ∨ x.st ≠ 0#2 ∨ x.mark ∨ x.reserved ∨ x.poison ∨ pkgOf pa ≠ s.pkg then none
        else
          match tierOfPa s pa with
          | some t => if (s.tier t).power = .awake then (bodyLeaves s g w rest).map (fun ls => (va, n, l) :: ls) else none
          | none => none
      | _ => none
    | _ => none

/-- The bytes of a body's lines. -/
def bodyBytes (s : State) (g : Nat) : List (Nat × Nat × Leaf) → Bits
  | [] => 0
  | (_, n, l) :: rest => bitsGet (codeLine s g l.pa) (8 * (l.pa % 128)) (8 * n) + 2 ^ (8 * n) * bodyBytes s g rest

/-- Set A of the pages of a body. -/
def bodyTouch (g part : Nat) : List (Nat × Nat × Leaf) → M Unit
  | [] => pure ()
  | (va, _, l) :: rest => do
    if ← touchLeaf part va l false then bodyTouch g part rest else hartError g part

/-- At the start of a trip, pin an unpinned body of at most 128 parcels. -/
def pinBody (g : Nat) : M Unit := do
  let s ← getState
  let h := s.hart g
  let w := s.walker g
  let n := h.lp.stop.toNat - h.lp.start.toNat
  if h.lp.active ∧ h.lp.pinned = none ∧ h.pc = h.lp.start ∧ n ≤ 256 ∧ h.lp.stop.toNat ≤ Config.spadBase then
    match bodyLeaves s g w (linePieces h.lp.start.toNat n) with
    | some ls => do
      bodyTouch g w.part ls
      modHart g (fun h => { h with lp := { h.lp with pinned := some (bodyBytes s g ls) } })
    | none => pure ()
  else pure ()

/-! ### Breakpoints at a fetch (R153, R355) -/

/-- The enabled breakpoints at an address that fire before the instruction performs: those qualified by an element do so only
for a scalar instruction. -/
def fetchBps (h : Hart) (a : Word) (vector : Bool) : List Nat :=
  (List.range 8).filter (fun n =>
    let ctl := (h.bpctl[n % 8]'(Nat.mod_lt _ (by decide))).toNat
    ctl.testBit 0 && (!(ctl.testBit 1) || !vector) && (h.bpaddr[n % 8]'(Nat.mod_lt _ (by decide))) == a)

/-- Set HIT of breakpoints. -/
def Hart.setHits (h : Hart) (ns : List Nat) : Hart :=
  { h with bpctl := ns.foldl (fun v n => v.set (n % 8) ((v[n % 8]'(Nat.mod_lt _ (by decide))) ||| 4) (Nat.mod_lt _ (by decide))) h.bpctl }

/-- Trap at a breakpoint, after the queue has drained (R210): each that fires sets HIT, and EVAL names the lowest. -/
def bpTrap {α : Type} (g : Nat) (ns : List Nat) : M α := do
  needDrained g
  modHart g (fun h => h.setHits ns)
  let h ← getHart g
  scalarTrap g .break_ h.pc (BitVec.ofNat 64 (ns.headD 0))

end Sys2Proof.Machine
end

