-- ==== Sys2Proof/Machine/Step.lean ====
section
/-!
DEFINITION. Machine/Step.lean: one step of the package. What moves next is plain data (log entry 1, DESIGN CHOICE): a hart, a step of the
part, time alone, or the replacement of a cached line.
-/
namespace Sys2Proof.Machine

/-- The breakpoints that a decoded instruction, or a string of parcels that is none, meets at its fetch. -/
def fetchStops (h : Hart) (i : Option Instr) : List Nat :=
  if h.bpSkip then []
  else
    let vector := match i with
      | some i => (vop i h.vtype h).isSome
      | none => false
    fetchBps h h.pc vector

/-- A hart's turn up to the instruction it executes (R207, R241): the queue moves unless the vector side lags, a trip that ended
on the instruction that writes its count waits for it (R125, R220), the loop body is
pinned, the parcels are fetched and decoded, and the first of fetch fault, breakpoint and ILLEGAL is taken. -/
noncomputable def turn (g : Nat) : M (Option Instr) := do
  let s ← getState
  let h := s.hart g
  if h.place.isNone then pure none
  else
    match h.hstop with
    | .faultWait _ => do
      postWaiting h.partid.toNat
      pure none
    | .lost => pure none
    | .error => pure none
    | .run =>
      if h.migWait.isSome then pure none
      else do
        whenM (!s.lag.vside || h.lp.trip == .atPc) (runQueue g h.vq.length)
        if (← getHart g).lp.trip = .atPc then pure none
        else do
          pinBody g
          let pc := (← getHart g).pc
          match ← fetchInstr g pc with
          | .wait m => do
            modHart g (fun h => { h with migWait := m })
            pure none
          | .stop => hartError g h.partid.toNat
          | .fail f => trapAfter g f.cause (BitVec.ofNat 64 f.addr)
          | .ok (bits, _) => do
            let h ← getHart g
            match decode (wordsOf (BitVec.ofNat 64 bits)) with
            | .error _ =>
              match fetchStops h none with
              | [] => trapAfter g .illegal 0
              | n :: ns => bpTrap g (n :: ns)
            | .ok i =>
              match fetchStops h (some i) with
              | [] => pure (some i)
              | n :: ns => bpTrap g (n :: ns)

/-- The hart has not moved: its instruction waits and will be fetched again. Instructions of the vector queue may have completed
meanwhile. -/
def stayed (h h' : Hart) : Bool :=
  h'.pc == h.pc && h'.traps == h.traps && h'.instret == h.instret + BitVec.ofNat 64 (h.vq.length - h'.vq.length)

/-- No breakpoint matches the first fetch after ERET (R355): the mark stays while that instruction waits. Once it has gone on, its
access is held no more. -/
def keepSkip (g : Nat) (h : Hart) (s : State) : State :=
  let h' := s.hart g
  if (h.bpSkip ∨ h.holdS) ∧ h'.place.isSome ∧ stayed h h' = false then
    { s with harts := tabPut s.harts g { h' with bpSkip := h'.bpSkip && decide (h'.erets.length < h.erets.length), holdS := false } }
  else s

/-- The outcome with a change to its next state. -/
def mapNext (f : State → State) : Host.Outcome State Fault Refusal → Host.Outcome State Fault Refusal
  | .next s => .next (f s)
  | .fault r => .fault r
  | .refused r => .refused r

/-- A hart's turn. -/
noncomputable def stepHart (g : Nat) (s : State) : Host.Outcome State Fault Refusal :=
  let s := { s with cur := g }
  mapNext (keepSkip g (s.hart g))
    ((turn g (fun r => match r with
      | some i => Act.goOn i
      | none => Act.done)).runInto exec s)

/-- What a hart holds of an address's page once a walk has used it (R138): no more than what its table gives with A set. -/
def keepHeld (g va : Nat) : M Unit := do
  let s ← getState
  let h := s.hart g
  match [Acc.load, .store, .fetch].findSome? (fun acc => heldOf s (s.walker g) acc va) with
  | some t =>
    if h.place.isSome ∧ (leafEntry t.bits (bitsGet va t.size 3)).testBit 6 ∧ ¬ h.tlb.contains t then
      putHart g { h with tlb := h.tlb ++ [t] }
    else pure ()
  | none => pure ()

/-- The v, m and w registers of a hart that runs, with no instruction in its queue, leave for its backing area (R83). -/
def spillIdle (g : Nat) : M Unit := do
  let h ← getHart g
  whenM (h.place.isSome && h.hstop == .run && !h.spilled && h.vq.isEmpty) (spillRegs g)

/-- What moves without a hart's instruction: a clean copy goes, a dirty line of a cluster cache first passes its bytes (R94), a
directory entry is replaced with its lines (R97), a translation is held, and registers are spilled or filled. -/
def dropCopy : Turn → M Unit
  | .dropScalar c l => modCore c (fun k => { k with scache := tabDel k.scache l })
  | .dropL1 c l => modCore c (fun k => { k with l1 := tabDel k.l1 l })
  | .dropIcache c l => modCore c (fun k => { k with icache := tabDel k.icache l })
  | .dropCluster c l => do
    match ← gets (fun s => tabFind (s.cluster c) l) with
    | some x => do
      whenM (x.st == .l) (mergeDirty l x)
      upd (.cc c l none)
    | none => pure ()
  | .dropRegion r => dropEntry r
  | .keep g va => keepHeld g va
  | .spill g => spillIdle g
  | .fill g => do
    let _ ← fillRegs g
    pure ()
  | _ => pure ()

/-- One turn. -/
noncomputable def stepTurn (t : Turn) (s : State) : Host.Outcome State Fault Refusal :=
  match t with
  | .hart g => stepHart g s
  | .event i => exec i s
  | .pass n => .next { s with cycle := s.cycle + n }
  | t => runM (dropCopy t) s

/-- A cycle has passed (log entry 2, DESIGN CHOICE). -/
def State.tick (s : State) : State := { s with cycle := s.cycle + 1 }

/-- One step: the turn that stands first in the schedule, or the current hart's. Without power nothing moves but bring-up
(R384, R386). -/
noncomputable def step (s : State) : Host.Outcome State Fault Refusal :=
  match s.sched with
  | [] => if s.powered then mapNext State.tick (stepHart s.cur { s with doing := .hart s.cur }) else .fault .unpowered
  | t :: rest =>
    let s := { s with sched := rest, doing := t }
    if s.powered then mapNext State.tick (stepTurn t s)
    else
      match t with
      | .event (.powerUp a b c d) => mapNext State.tick (exec (.powerUp a b c d) s)
      | _ => .fault .unpowered

/-! ### Placing an instruction where the next step fetches it -/

/-- Nothing keeps a fetch of a line of memory waiting. -/
def fetchOpen (s : State) (pa : Nat) : Bool := (s.line (pa / 128)).plain && (sleepingTier s pa).isNone && pkgOf pa == s.pkg

/-- The physical address that the pc of a hart leads to, when its next step would fetch there with no fault and no wait. -/
def fetchPa (s : State) (g : Nat) : Option Nat :=
  let h := s.hart g
  if h.place.isSome ∧ h.hstop = .run ∧ h.migWait = none ∧ h.lp.trip ≠ .atPc ∧ h.vq = [] ∧ s.sched = [] ∧ s.powered ∧ h.pc.toNat % 65536 ≤ 65528 then
    match walk s (s.walker g) .fetch h.pc.toNat with
    | .ok l =>
      match targetOf s (tierOf g) l with
      | .line pa => if fetchOpen s pa && fetchOpen s (pa + 7) then some pa else none
      | _ => none
    | _ => none
  else none

/-- Where withFetchWord puts the four tables and the page of a hart that nothing has placed. -/
def probeBase : Nat := 0x1000000

/-- A state whose current hart is placed in a running partition 0 that holds 16 MiB at probeBase, with the page of its pc
mapped there for every access (log entry 12, DESIGN CHOICE). -/
def State.withProgram (s : State) : State :=
  let g := s.cur
  let va := (s.hart g).pc.toNat % 2 ^ 57
  let base := s.physical probeBase
  let root := base
  let t1 := base + 0x2000
  let t2 := base + 0x4000
  let t3 := base + 0x10000
  let page := base + 0x20000
  let entry := page ||| 0xDF
  let m := memWrite s.mem (root + 8 * bitsGet va 48 9) 8 (t1 ||| 1)
  let m := memWrite m (t1 + 8 * bitsGet va 38 10) 8 (t2 ||| 1)
  let m := memWrite m (t2 + 8 * bitsGet va 28 10) 8 (t3 ||| 1)
  let m := memWrite m (t3 + 128 * bitsGet va 19 9 + 8 * bitsGet va 16 3) 8 entry
  let m := memWrite m (t3 + 128 * bitsGet va 19 9 + 72) 8 (0x101 <<< bitsGet va 16 3)
  let p := s.part 0
  let h := s.hart g
  { s with
    mem := m
    powered := true
    sched := []
    parts := tabPut s.parts 0 { p with
      state := .run, clusters := bitPut p.clusters (clusterOf g) true, ranges := [(probeBase, 0x1000000)], proot := BitVec.ofNat 64 root }
    harts := tabPut s.harts g { h with
      place := some { launch := 0, gang := 0, index := 0, since := s.cycle }
      partid := 0
      ptroot := BitVec.ofNat 64 root
      hstop := .run
      migWait := none
      vq := []
      flight := none
      tlb := []
      lp := LoopState.reset } }

/-- The words laid out from a physical address up, where the hart's next step fetches: no copy of their lines stands before memory. -/
def State.putCode (s : State) (pa bytes w : Nat) : State :=
  let c := coreOf s.cur
  let k := s.core c
  let h := s.hart s.cur
  let drop {α : Type} (t : Tab α) : Tab α := tabDel (tabDel t (pa / 128)) ((pa + bytes - 1) / 128)
  { s with
    mem := memWrite s.mem pa bytes w
    cores := tabPut s.cores c { k with icache := drop k.icache }
    clusters := tabPut s.clusters (clusterOf s.cur) (drop (s.cluster (clusterOf s.cur)))
    harts := tabPut s.harts s.cur { h with lp := { h.lp with pinned := none } } }

/-- The state with an instruction of at most eight bytes stored where the next step fetches (log entry 12, DESIGN CHOICE). -/
def State.withFetchWord (s : State) (nbits w : Nat) : State :=
  let w := w % 2 ^ nbits
  match fetchPa s s.cur with
  | some pa => s.putCode pa 8 w
  | none =>
    let s := s.withProgram
    s.putCode (s.physical probeBase + 0x20000 + (s.hart s.cur).pc.toNat % 65536) 8 w

end Sys2Proof.Machine
end

