-- ==== Sys2Proof/Safety.lean ====
section
/-!
DEFINITION. Safety.lean: what claims about runs are stated in: the invariant that every step keeps, and a safe run.
-/
namespace Sys2Proof.Machine

/-- A hart's record keeps what every hart keeps: x0 reads 0 (R59), the pc is even (R62), reserved bits read 0 (R6). -/
def Hart.wf (h : Hart) : Prop := h.canon = h

/-- The hart in turn. -/
def State.me (s : State) : Hart := s.hart s.cur

/-- The state with the record of the hart in turn replaced. -/
def State.setMe (s : State) (h : Hart) : State := Prim.apply s (.hart s.cur h)

/-- No register of the list waits for the read queue, nor does the count register of a loop whose body holds the pc
(R125). -/
def Hart.free (h : Hart) (rs : List (BitVec 5)) : Prop :=
  (∀ r ∈ rs, h.pendingX r = false) ∧ (h.inBody h.pc = true → h.pendingX h.lp.reg = false)

/-- No register of the read queue is waited for, and no vector instruction is in the queue, or an outer handler holds the
queue. -/
def State.Drained (s : State) : Prop := s.me.free [] ∧ (s.me.vqHeld = true ∨ s.me.vq = [])

/-- Nothing stands in the way of the hart's access to the n bytes at va: they lie in one line of memory of this package, outside
the scratchpad window, at the address of the leaf that the walk gives; the page's marks are set (R137); the line is open, in no
copy of the core's caches and dirty in no cluster, and its directory has room for as many lines as a page has; its tier is awake; no completed write waits; no vector
atomic with .aq of the hart waits (R173); and no TLBI waits for pins (R140). -/
structure State.Opens (s : State) (acc : Acc) (va n : Nat) (l : Leaf) : Prop where
  inLine : 0 < n ∧ va % 128 + n ≤ 128 ∧ va + n ≤ Config.spadBase
  walks  : walk s (s.walker s.cur) acc va = .ok l
  within : l.pa % 128 = va % 128
  marked : leafMarked (s.bytes l.line 128) l.idx acc.writes = s.bytes l.line 128
  memory : pkgOf l.pa = s.pkg ∧ localOf l.pa < Config.localBytes ∧ l.bc = false
  clear  : s.line (l.pa / 128) = { LineMeta.reset with ptag := (s.line (l.pa / 128)).ptag }
  awake  : (s.tier (homeTier (localOf l.pa))).power = .awake
  uncopied : tabFind (s.core (coreOf s.cur)).icache (l.pa / 128) = none ∧
    tabFind (s.core (coreOf s.cur)).scache (l.pa / 128) = none ∧ tabFind (s.core (coreOf s.cur)).l1 (l.pa / 128) = none
  clean  : ∀ c x, tabFind (s.cluster c) (l.pa / 128) = some x → x.st ≠ .l
  prompt : (∀ e ∈ s.harts, e.2.posted = []) ∧ s.lag.stores = false ∧ s.reclaims = []
  room   : s.linesHeld (homeTier (localOf l.pa)) + 512 ≤ dirPlaces
  later  : ∀ e ∈ s.me.vq, acquiresBoth e.insn = false
  calm   : (∀ e ∈ s.harts, e.2.shooting = none) ∧ (s.part s.me.partid.toNat).shooting = none

/-- The access at va, one byte of an open line but for a forwarding record in it, hops once: the record is good and leads to the byte
at nva (R100, R141). -/
structure State.Hops (s : State) (acc : Acc) (va : Nat) (l : Leaf) (nva : Nat) : Prop where
  below  : va < Config.spadBase
  walks  : walk s (s.walker s.cur) acc va = .ok l
  within : l.pa % 128 = va % 128
  marked : leafMarked (s.bytes l.line 128) l.idx acc.writes = s.bytes l.line 128
  memory : pkgOf l.pa = s.pkg ∧ localOf l.pa < Config.localBytes ∧ l.bc = false
  record : s.line (l.pa / 128) = { LineMeta.reset with mark := true, st := 2, ptag := (s.line (l.pa / 128)).ptag }
  good   : recordGood (s.bytes (l.pa / 128 * 128) 128) s.me.partid.toNat = true
  next   : nva = bitsGet (s.bytes (l.pa / 128 * 128) 128) 0 57 / 128 * 128 + va % 128

/-- The relocation table of partition p can be read, the A bits of its pages set already and nothing in the way of a read, and its bytes
are t (R144, R399). -/
def State.TableHolds (s : State) (p : Nat) (t : Bits) : Prop :=
  ∃ ls, devLeaves s p .load (pagePieces (s.part p).relbase 32768) = some ls ∧
    (∀ e ∈ ls, leafMarked (s.bytes e.1.line 128) e.1.idx false = s.bytes e.1.line 128 ∧ devPlain s e.1 e.2 = true) ∧ devGet s ls = t

/-- The hart in turn can run, and the eight bytes at its pc can be fetched. -/
structure State.Fetches (s : State) (l : Leaf) : Prop where
  turn  : s.sched = [] ∧ s.powered = true
  runs  : s.me.place.isSome = true ∧ s.me.hstop = .run ∧ s.me.migWait = none ∧ s.me.vq = [] ∧ s.me.lp = LoopState.reset
  opens : s.Opens .fetch s.me.pc.toNat 8 l
  walks : ∀ k, k < 4 → walk s (s.walker s.cur) .fetch (s.me.pc.toNat + 2 * k) = .ok { l with pa := l.pa + 2 * k }

/-- Nothing that the hart in turn has begun is left to wait for: its queue is empty, no copy channel is active, and no completed write
waits. -/
structure State.Quiet (s : State) : Prop where
  queue : s.me.vq = [] ∧ ∀ e ∈ s.harts, e.2.posted = []
  chans : ∀ n (hn : n < 4), s.me.chans[n].active = false

/-- So, and no line is dirty in the hart's cluster. -/
structure State.Settled (s : State) : Prop extends s.Quiet where
  clean : ∀ e ∈ s.cluster (clusterOf s.cur), e.2.st ≠ .l

/-- Nothing of the hart in turn is under way on its vector side, so that an instruction sent there performs at once and alone: its
vector and read queues are empty and nothing of an instruction is under way, its interlock table has room (R143), its registers are not
spilled (R83), no trip of its loop waits for a count (R220) and its vector side does not lag; and no enabled breakpoint qualifies by an
element (R153). -/
structure State.Idle (s : State) : Prop where
  decided : s.me.lp.trip = .no
  idle   : s.me.vq = [] ∧ s.me.rq = [] ∧ s.me.migVec = none ∧ s.lag.vside = false
  free   : s.me.flight = none ∧ s.me.ilkAt = none ∧ s.me.spilled = false ∧ VCtx.tableFull s.me = false
  breaks : ∀ k (hk : k < 8), (s.me.bpctl[k].getLsbD 0 && s.me.bpctl[k].getLsbD 1) = false

/-- So, and the hart's gang has no stream open. -/
structure State.Lone (s : State) : Prop extends s.Idle where
  unbound : ∀ k x, s.gangOf s.cur = some (k, x) → x.streams = []

/-- So, and no copy channel of the hart is active. -/
structure State.Calm (s : State) : Prop extends s.Lone where
  still : ∀ n (hn : n < 4), s.me.chans[n].active = false

/-- The queue takes instruction i, as op: it is legal under VTYPE as it stands (R206, R207). -/
def State.Accepts (s : State) (i : Instr) (op : VOp) : Prop := vop i s.me.vtype s.me = some op ∧ sendIllegal s.me op = false

/-- The state with instruction i in the queue and the pc past it, before it performs. -/
def State.sent (s : State) (i : Instr) (op : VOp) : State := s.setMe (s.me.enqueue i op)

/-- The first element of the next vector instruction: VSTART where a CSR write has set it since the last one, else 0 (R64). -/
def Hart.first (h : Hart) : Nat := if h.vsWritten then h.vstart.toNat else 0

/-- The element groups from that element up to VL (R165). -/
def Hart.groups (h : Hart) : Nat :=
  let k := VCtx.groupOf (vtCode h.vtype)
  if h.vl.toNat ≤ h.first then 0 else (h.vl.toNat - 1) / k + 1 - h.first / k

/-- The hart after a vector-side instruction of len bytes that it sent to an empty queue has completed, but for the instruction's own
effect: the pc past it (R220), a seed used by one that rounds in mode SR (R50), VSTART 0, a breakpoint's exemption used up (R355), and
the counts of instructions and of element groups. -/
def Hart.past (h : Hart) (len : Nat) (rounds : Bool) : Hart :=
  { ((if rounds then h.takeSeed else h).goto .inline (h.pc + BitVec.ofNat 64 len)) with
    vstart := 0
    vsWritten := false
    vqHeld := false
    bpSkip := false
    migVec := none
    holdV := false
    stoppedAt := false
    flight := none
    ilk := h.ilk.map Ilk.passed
    instret := h.instret + 1
    egops := h.egops + BitVec.ofNat 64 h.groups }

/-- Element e is active under mask field m (R242). -/
def Hart.active (h : Hart) (m : BitVec 4) (e : Nat) : Bool :=
  decide (h.first ≤ e) && decide (e < h.vl.toNat) && (m == 12 || (h.mreg m.toNat).testBit e)

/-- Element e takes part in a whole-instruction instruction under mask field m (R242, R243). -/
def Hart.takesPart (h : Hart) (m : BitVec 4) (e : Nat) : Bool :=
  decide (h.first < h.vl.toNat) && decide (e < h.vl.toNat) && (m == 12 || (h.mreg m.toNat).testBit e)

/-- How the n-th rounding of element e rounds (R49, R51): in RMODE's mode and seed. -/
def Hart.rndAt (h : Hart) (e n : Nat) : Rnd :=
  ({ mode := bitsGet h.rmode.toNat 0 3, seed := bitsGet h.rmode.toNat 32 32 } : Mode).at e n

/-- The elements of a vector group of VTYPE's format and group size. -/
def Hart.capacity (h : Hart) : Nat := vtGroup h.vtype * perReg h.lay (codeWidth (vtCode h.vtype))

/-- Registers that may stand for groups of VTYPE's group size (R60). -/
def Hart.grouped (h : Hart) (rs : List (BitVec 5)) : Prop :=
  ∀ r ∈ rs, r.toNat % vtGroup h.vtype = 0 ∧ r.toNat + vtGroup h.vtype ≤ h.named

/-- Element e of the group at r in VTYPE's format. -/
def Hart.elem (h : Hart) (r : BitVec 5) (e : Nat) : Nat := h.vget (vtCode h.vtype) r.toNat e

/-- In h' the elements of the n registers from d, in format t, are as val gives them where on holds, and as in h elsewhere; and
every other vector register is as in h. -/
def Hart.Writes (h h' : Hart) (t : BitVec 8) (d : BitVec 5) (n : Nat) (on : Nat → Bool) (val : Nat → Nat) : Prop :=
  (∀ e, e < n * perReg h.lay (codeWidth t) → h'.vget t d.toNat e = if on e then val e else h.vget t d.toNat e) ∧
  ∀ r, r < 32 → r < d.toNat ∨ d.toNat + n ≤ r → h'.vreg r = h.vreg r

/-- In h' the bits of mask register d are as val gives them where on holds, and as in h elsewhere; and every other mask register is
as in h. -/
def Hart.Marks (h h' : Hart) (d : Nat) (on val : Nat → Bool) : Prop :=
  (∀ e, (h'.mreg d).testBit e = if on e then val e else (h.mreg d).testBit e) ∧
  ∀ r, r < 12 → r ≠ d → h'.mreg r = h.mreg r

/-- In h' FFLAGS has, beside the flags it has in h, those that val gives where on holds (R52). -/
def Hart.Flags (h h' : Hart) (on : Nat → Bool) (val : Nat → Nat) : Prop :=
  ∀ k, k < 5 → (h'.fflags.getLsbD k = true ↔ h.fflags.getLsbD k = true ∨ ∃ e, on e = true ∧ (val e).testBit k = true)

/-- None of the flags has its trap enabled in RMODE (R52, R67). -/
def Hart.untrapped (h : Hart) (flags : Nat) : Prop := flags &&& trapEnables h.rmode = 0

/-- The tree of R58 over leaves that may be absent: node j of a level, and the flags of all the sums below it. Two present nodes give
their sum, which add rounds; one present gives itself. -/
def sumTree (add : Nat → Nat → Nat → Nat → Nat × Nat) (leaf : Nat → Option Nat) : Nat → Nat → Option Nat × Nat
  | 0, j => (leaf j, 0)
  | level + 1, j =>
    let p := sumTree add leaf level (2 * j)
    let q := sumTree add leaf level (2 * j + 1)
    match p.1, q.1 with
    | some x, some y => let z := add (level + 1) j x y; (some z.1, p.2 ||| q.2 ||| z.2)
    | some x, none => (some x, p.2 ||| q.2)
    | none, y => (y, p.2 ||| q.2)

/-- Element i after t stages of the transform of R307 on FP32 codes, and the flags of its last rounding: the sum of its pair where bit
t - 1 of i is 0, else the difference, each rounded to nearest. -/
def hadamard (x : Nat → Nat) : Nat → Nat → Nat × Nat
  | 0, i => (x i, 0)
  | t + 1, i =>
    let v (k : Nat) : FVal := f32.decode (hadamard x t k).1
    f32.finish rne (if i.testBit t then fAdd false (v (i - 2 ^ t)) (v i).neg else fAdd false (v i) (v (i + 2 ^ t)))

/-- A program, from a state, gives a value in a next state and goes on, in a step that may have begun in any state. -/
def Gives {α : Type} (m : M α) (s : State) (x : α) (s' : State) : Prop :=
  ∀ (f : Instr → State → Host.Outcome State Fault Refusal) (b : State) (k : α → Act),
    Act.runFrom f b (m k) s = Act.runFrom f b (k x) s'

/-- A program goes on to its end from a state: nothing on the way ends the step. -/
def completes (m : M Unit) (s : State) : Bool :=
  match runM (do m; faultWith .unpowered) s with
  | .fault _ => true
  | _ => false

/-- A program answers true from a state. -/
def answers (m : M Bool) (s : State) : Bool := completes (do if ← m then pure () else halt) s

/-- A mailbox that caller w reaches, in which no call runs; the event word of its partition is not also written to memory (R374,
R375). -/
structure State.Hears (s : State) (m : Mbox) (w : Caller) : Prop where
  may   : mayCall s m w = true
  idle  : (getBox s m).request = 0
  quiet : ∀ p, m = .part p → (s.part p).hevaddr = 0

/-- The state in which the body of a call runs: its request line has been taken, and the write of it answered to a fabric caller. -/
def State.busy (s : State) (m : Mbox) (w : Caller) (code : Nat) (tag : BitVec 16) : State :=
  let s1 := match w with
    | .hart _ => s
    | .fabric _ => Prim.apply s (.reply .ok)
  let box : Mailbox := { request := code + tag.toNat * 2 ^ 16, response := tag.toNat * 2 ^ 16 }
  match m with
  | .part p => Prim.apply s1 (.mailbox p box)
  | .mgmt => Prim.apply s1 (.mgmtBox box)

/-- A call of mailbox m has ended (R374, R375): the response line gives STATUS, TAG and DONE, and then n bytes of results; the mailbox
takes the next call; and a partition's event word has MAILBOX set. -/
structure State.Ended (t : State) (m : Mbox) (tag : BitVec 16) (status n results : Nat) : Prop where
  head    : bitsGet (getBox t m).response 0 64 = status + tag.toNat * 2 ^ 16 + 2 ^ 32
  results : bitsGet (getBox t m).response 64 (8 * n) = results % 2 ^ (8 * n)
  idle    : (getBox t m).request = 0
  event   : ∀ p, m = .part p → (t.part p).event.getLsbD 1 = true

/-- The device reaches the n bytes at va for partition p: they lie in one page, at the address of the leaf that the walk gives, the
page's marks are set (R137, R399), nothing stands in the way of them, and no cluster holds a line of them. -/
structure State.DeviceOpens (s : State) (p : Nat) (acc : Acc) (va n : Nat) (l : Leaf) : Prop where
  walks  : 0 < n ∧ devLeaves s p acc (pagePieces va n) = some [(l, n)]
  marked : leafMarked (s.bytes l.line 128) l.idx acc.writes = s.bytes l.line 128
  plain  : devPlain s l n = true
  uncached : ∀ e ∈ s.clusters, ∀ x ∈ e.2, x.1 < l.pa / 128 ∨ (l.pa + n - 1) / 128 < x.1

/-- No partition's event word is also written to memory. -/
def State.Unwatched (s : State) : Prop := ∀ e ∈ s.parts, (s.part e.1).hevaddr = 0

/-- The invariant: every memory and scratchpad in its canonical form, the lines' table by rising numbers with no record that
stands for an unlisted one, every listed hart well kept. -/
structure State.Inv (s : State) : Prop where
  mem   : memWf s.mem = true
  spad  : ∀ e ∈ s.cores, memWf e.2.spad = true
  lines : s.lines.Pairwise (fun x y => x.1 < y.1) ∧ ∀ e ∈ s.lines, e.2 ≠ LineMeta.reset
  harts : ∀ e ∈ s.harts, e.2.wf

/-- A run of n steps that no fault and no refusal ends. -/
def SafeRun (n : Nat) (s : State) : Prop := ∃ t, core.run n s = .next t

end Sys2Proof.Machine
end

