-- ==== Sys2Proof/Certificates/Slice0/Obligations.lean ====
section
/-!
DEFINITION. Certificates/Slice0/Obligations.lean: the statements for the provers. s.me is the record of the hart in turn,
s.setMe h the state with that record replaced by h (as kept: x0 zero, pc even, reserved bits zero) and nothing else changed,
and h.advance n the record h with one more completed instruction of n bytes: the pc n further and INSTRET one higher, or the trip's
end that R220 decides.
-/
open Sys2Proof Sys2Proof.Machine

/-! ### Scalar arithmetic -/

/-- R215, R34, R35, R36. Every two-operand OP instruction completes with the result of its row in x[d], and changes nothing else:
no other register, no flag, no memory. So do CLZ, CTZ and POPC, which count bits of x[a], and SEXT and ZEXT, which extend its low 8,
16 or 32 bits. -/
def Obligations.IntegerResults : Prop :=
  (∀ (s : State) (d a b : BitVec 5), s.me.free [d, a, b] →
     let x := s.me.getX a
     let y := s.me.getX b
     let run (i : Instr) (v : Word) : Prop := exec i s = .next (s.setMe ((s.me.setX d v).advance 4))
     run (.add d a b) (x + y) ∧
     run (.sub d a b) (x - y) ∧
     run (.and d a b) (x &&& y) ∧
     run (.or d a b) (x ||| y) ∧
     run (.xor d a b) (x ^^^ y) ∧
     run (.sll d a b) (if 64 ≤ y.toNat then 0 else x <<< y.toNat) ∧
     run (.srl d a b) (if 64 ≤ y.toNat then 0 else x >>> y.toNat) ∧
     run (.sra d a b) (if 64 ≤ y.toNat then (if x.msb then BitVec.allOnes 64 else 0) else x.sshiftRight y.toNat) ∧
     run (.mul d a b) (x * y) ∧
     run (.mulh d a b) (BitVec.ofInt 64 (x.toInt * y.toInt / 2 ^ 64)) ∧
     run (.mulhn d a b) (BitVec.ofNat 64 (x.toNat * y.toNat / 2 ^ 64)) ∧
     run (.div d a b) (if y = 0 then BitVec.allOnes 64 else BitVec.ofInt 64 (x.toInt.tdiv y.toInt)) ∧
     run (.divn d a b) (if y = 0 then BitVec.allOnes 64 else x / y) ∧
     run (.rem d a b) (if y = 0 then x else BitVec.ofInt 64 (x.toInt.tmod y.toInt)) ∧
     run (.remn d a b) (if y = 0 then x else x % y) ∧
     run (.slt d a b) (if x.toInt < y.toInt then 1 else 0) ∧
     run (.sltn d a b) (if x.toNat < y.toNat then 1 else 0) ∧
     run (.min d a b) (if x.toInt ≤ y.toInt then x else y) ∧
     run (.max d a b) (if x.toInt ≤ y.toInt then y else x) ∧
     run (.minn d a b) (if x.toNat ≤ y.toNat then x else y) ∧
     run (.maxn d a b) (if x.toNat ≤ y.toNat then y else x)) ∧
  ∀ (s : State) (d a : BitVec 5), s.me.free [d, a] →
    let x := s.me.getX a
    let run (i : Instr) (v : Word) : Prop := exec i s = .next (s.setMe ((s.me.setX d v).advance 4))
    (∃ n, run (.clz d a) (BitVec.ofNat 64 n) ∧ n ≤ 64 ∧ (∀ k, k < n → x.getLsbD (63 - k) = false) ∧
      (n < 64 → x.getLsbD (63 - n) = true)) ∧
    (∃ n, run (.ctz d a) (BitVec.ofNat 64 n) ∧ n ≤ 64 ∧ (∀ k, k < n → x.getLsbD k = false) ∧
      (n < 64 → x.getLsbD n = true)) ∧
    run (.popc d a) (BitVec.ofNat 64 ((List.range 64).countP (fun k => x.getLsbD k))) ∧
    run (.sext d a 0) ((x.extractLsb' 0 8).signExtend 64) ∧
    run (.sext d a 1) ((x.extractLsb' 0 16).signExtend 64) ∧
    run (.sext d a 2) ((x.extractLsb' 0 32).signExtend 64) ∧
    run (.zext d a 0) ((x.extractLsb' 0 8).zeroExtend 64) ∧
    run (.zext d a 1) ((x.extractLsb' 0 16).zeroExtend 64) ∧
    run (.zext d a 2) ((x.extractLsb' 0 32).zeroExtend 64)

/-- R216, R217, R204, R205. The immediate forms complete with the result of their rows in x[d], and change nothing else. The compressed
arithmetic forms act as the full ones, on x8 to x15, and are 2 bytes long. -/
def Obligations.ImmediateAndCompressedResults : Prop :=
  (∀ (s : State) (d a : BitVec 5) (i : BitVec 14) (c : BitVec 6) (j : BitVec 19),
     let x := s.me.getX a
     let y : Word := i.signExtend 64
     let run (i : Instr) (v : Word) : Prop := exec i s = .next (s.setMe ((s.me.setX d v).advance 4))
     (s.me.free [d, a] →
       run (.addi d a i) (x + y) ∧
       run (.andi d a i) (x &&& y) ∧
       run (.ori d a i) (x ||| y) ∧
       run (.xori d a i) (x ^^^ y) ∧
       run (.slti d a i) (if x.toInt < y.toInt then 1 else 0) ∧
       run (.slli d a c) (x <<< c.toNat) ∧
       run (.srli d a c) (x >>> c.toNat) ∧
       run (.srai d a c) (x.sshiftRight c.toNat)) ∧
     (s.me.free [d] →
       run (.lih d j) (BitVec.ofInt 64 (j.toInt * 2 ^ 14)) ∧
       run (.addpc d j) (s.me.pc + BitVec.ofInt 64 j.toInt))) ∧
  ∀ (s : State) (d a b : BitVec 3) (i : BitVec 5),
    let D : BitVec 5 := 1#2 ++ d
    let x := s.me.getX (1#2 ++ a)
    let y := s.me.getX (1#2 ++ b)
    let run (i : Instr) (v : Word) : Prop := exec i s = .next (s.setMe ((s.me.setX D v).advance 2))
    (s.me.free [D, 1#2 ++ a, 1#2 ++ b] →
      run (.cAdd d a b) (x + y) ∧
      run (.cSub d a b) (x - y) ∧
      run (.cAnd d a b) (x &&& y) ∧
      run (.cOr d a b) (x ||| y) ∧
      run (.cXor d a b) (x ^^^ y)) ∧
    (s.me.free [D, 1#2 ++ a] →
      run (.cAddi d a i) (x + i.signExtend 64) ∧
      run (.cSlli d a i) (x <<< i.toNat) ∧
      run (.cSrli d a i) (x >>> i.toNat) ∧
      run (.cSrai d a i) (x.sshiftRight i.toNat)) ∧
    (s.me.free [D] → run (.cLi d i) (i.signExtend 64))

/-! ### Control transfer -/

/-- R218. A branch whose condition holds goes to A plus twice its offset, one whose condition fails goes past itself; neither
writes a register. The compressed branches compare with zero.

R219. JAL and JALR write A + 4 to x[d] and go to their target, which for JALR comes from the old x[a]; d = x0 makes a plain
jump of it, another d a call (R221). -/
def Obligations.BranchesAndJumps : Prop :=
  (∀ (s : State) (a b : BitVec 5) (i : BitVec 14) (c : BitVec 3) (j : BitVec 8),
     let x := s.me.getX a
     let y := s.me.getX b
     let z := s.me.getX (1#2 ++ c)
     let run (k : Instr) (len : Nat) (off : Int) (taken : Prop) : Prop :=
       (taken → exec k s = .next (s.setMe (s.me.transfer .jump (s.me.pc + BitVec.ofInt 64 (2 * off))))) ∧
       (¬ taken → exec k s = .next (s.setMe (s.me.advance len)))
     (s.me.free [a, b] →
       run (.beq a b i) 4 i.toInt (x = y) ∧
       run (.bne a b i) 4 i.toInt (x ≠ y) ∧
       run (.blt a b i) 4 i.toInt (x.toInt < y.toInt) ∧
       run (.bge a b i) 4 i.toInt (y.toInt ≤ x.toInt) ∧
       run (.bltn a b i) 4 i.toInt (x.toNat < y.toNat) ∧
       run (.bgen a b i) 4 i.toInt (y.toNat ≤ x.toNat)) ∧
     (s.Inv → s.me.free [1#2 ++ c, 0] →
       run (.cBeq c j) 2 j.toInt (z = 0) ∧
       run (.cBne c j) 2 j.toInt (z ≠ 0))) ∧
  ∀ (s : State) (d a : BitVec 5) (i : BitVec 14) (j : BitVec 19),
    let flow : Flow := if d = 0 then .jump else .call
    let linked := s.me.setX d (s.me.pc + 4)
    (s.me.free [d] →
      exec (.jal d j) s = .next (s.setMe (linked.transfer flow (s.me.pc + BitVec.ofInt 64 (2 * j.toInt))))) ∧
    (s.me.free [d, a] →
      exec (.jalr d a i) s =
        .next (s.setMe (linked.transfer flow ((s.me.getX a + BitVec.ofInt 64 i.toInt) &&& ~~~1#64))))

/-- R220, R221. LOOP with a count of 0 skips the body and leaves the loop inactive; otherwise it makes the loop active over the body
from A + 4 up to A + 2 × imm14, counted in x[a], and goes on at A + 4; x[a] keeps its value. An instruction in the body that
completes in line with END as its next pc ends a trip: with a count of 0 or 1 left the count becomes 0, the loop inactive and the
pc END; with more the count falls by one and the pc is the start of the body. Each channel with AUTO set retires a strip (R289,
R291). Here the instruction is an ADDI that does not write the count. -/
def Obligations.LoopsStartAndEnd : Prop :=
  (∀ (s : State) (a : BitVec 5) (i : BitVec 14), s.me.free [a] →
     ∃ h, exec (.loop a i) s = .next (s.setMe h) ∧ h.x = s.me.x ∧ h.instret = s.me.instret + 1 ∧
       (s.me.getX a = 0 → h.lp.active = false ∧ h.pc = s.me.pc + BitVec.ofNat 64 (2 * i.toNat)) ∧
       (s.me.getX a ≠ 0 → h.pc = s.me.pc + 4 ∧
         h.lp = { active := true, start := s.me.pc + 4, stop := s.me.pc + BitVec.ofNat 64 (2 * i.toNat), reg := a, pinned := none }) ∧
       h = { s.me with lp := h.lp, pc := h.pc, instret := h.instret }) ∧
  ∀ (s : State) (d a : BitVec 5) (i : BitVec 14), s.me.free [d, a] →
    s.me.lp.active = true → s.me.lp.start.toNat ≤ s.me.pc.toNat → s.me.pc.toNat < s.me.lp.stop.toNat →
    s.me.pc + 4 = s.me.lp.stop → d ≠ s.me.lp.reg → s.me.lp.reg ≠ 0 →
    let chans := s.me.chans.map (fun c => if c.auto then c.retireStrip else c)
    let n := s.me.getX s.me.lp.reg
    let after := s.me.setX d (s.me.getX a + i.signExtend 64)
    (n.toNat ≤ 1 → exec (.addi d a i) s = .next (s.setMe
      { after.setX s.me.lp.reg 0 with
        lp := { s.me.lp with active := false, pinned := none }
        pc := s.me.lp.stop
        chans := chans
        instret := s.me.instret + 1 })) ∧
    (2 ≤ n.toNat → exec (.addi d a i) s = .next (s.setMe
      { after.setX s.me.lp.reg (n - 1) with
        pc := s.me.lp.start
        chans := chans
        instret := s.me.instret + 1 }))

/-! ### Encodings -/

/-- R181, R189, R194, R201, R202, R204. Words written out from their layouts decode to the instructions they stand for. -/
def Obligations.DecodeSampleWords : Prop :=
  decode (.base 0x00210805#32) = .ok (.add 8 8 8) ∧
  decode (.base 0x010823A1#32) = .ok (.vadd 3 1 2 2) ∧
  decode (.base 0xFFFC0809#32) = .ok (.addi 8 0 0x3FFF) ∧
  decode (.base 0x00084331#32) = .ok (.beq 2 2 3) ∧
  decode (.base 0x48000089#32) = .ok .retire ∧
  decode (.prefixed 0x00787803#32 0x060840FD#32) = .ok (.mopa 0 2 2 0x78 0x78 0 0 false false) ∧
  decode (.parcel 0x0020#16) = .ok (.cAdd 1 0 0)

/-- R179 to R205. Decoding the words of a well-formed instruction gives the instruction back, with every operand at every value
its encoding admits. -/
def Obligations.EncodeThenDecode : Prop :=
  ∀ (i : Instr) (ws : Words), i.wf = true → encode i = some ws → decode (wordsOf ws.bits) = .ok i

/-- R206. Every string of words that selects an instruction is that instruction's own encoding: it is well formed, and no other
words stand for it. -/
def Obligations.DecodeThenEncode : Prop :=
  ∀ (x : BitVec 64) (i : Instr), decode (wordsOf x) = .ok i → i.wf = true ∧ encode i = some (wordsOf x)

/-- R201, R204, R206. The reserved majors, EXT standing alone, a reserved prefix class, a prefix before a word of another major,
and the parcel 0 select nothing. -/
def Obligations.ReservedWordsSelectNothing : Prop :=
  ∀ (x : BitVec 64) (i : Instr),
    (x.extractLsb' 0 2 = 1#2 →
      (x.extractLsb' 2 6 = 0#6 ∨ (0x37 ≤ (x.extractLsb' 2 6).toNat ∧ (x.extractLsb' 2 6).toNat ≤ 0x3F)) →
      decode (wordsOf x) ≠ .ok i) ∧
    (x.extractLsb' 0 2 = 3#2 →
      (3 ≤ (x.extractLsb' 2 6).toNat ∨ x.extractLsb' 32 8 ≠ 0xFD#8) → decode (wordsOf x) ≠ .ok i) ∧
    (x.extractLsb' 0 16 = 0#16 → decode (wordsOf x) ≠ .ok i)

/-! ### The step, and what every step keeps -/

/-- R179, R180. When the bytes at the pc of a hart that can run decode to an instruction, a step of that hart is the
instruction's own execution, on a state that differs from the present one in cached copies and in the turn that it notes alone; then a breakpoint's
exemption is used up (R355) and a cycle has passed. -/
def Obligations.StepRunsDecoded : Prop :=
  ∀ (s : State) (l : Leaf) (i : Instr), s.Fetches l → decode (wordsOf (BitVec.ofNat 64 (s.bytes l.pa 8))) = .ok i →
    fetchStops s.me (some i) = [] →
    ∃ t : State, step s = mapNext State.tick (mapNext (keepSkip s.cur s.me) (exec i t)) ∧
      t = { s with doing := .hart s.cur, cores := t.cores, clusters := t.clusters } ∧
      ∀ c, t.core c = { s.core c with icache := (t.core c).icache }

/-- R6, R59, R62, R99. The state after reset has the memories in their one form and every hart with x0 zero, an even pc and its
reserved bits zero. -/
def Obligations.ResetInv : Prop := State.reset.Inv

/-- R6, R59, R62, R99. Every step keeps that. -/
def Obligations.StepKeepsInv : Prop := ∀ s t : State, s.Inv → step s = .next t → t.Inv

/-- R62. What a hart's registers hold at reset, where the spec gives a value. -/
def Obligations.ResetRegisters : Prop :=
  ∀ g : Nat,
    let h := State.reset.hart g
    h.vcfg = 6 ∧ h.tilek = 16 ∧ h.vlcap = 0x10000 ∧ h.status = 0 ∧ h.fflags = 0 ∧ h.rmode = 0 ∧ h.vstart = 0 ∧ h.vtype = 0 ∧
    h.ftrim = 0 ∧ h.vl = 0 ∧ h.place = none ∧ (State.reset.core (coreOf g)).lglive = 0xFF ∧
    (State.reset.core (coreOf g)).spbanks = 0 ∧ ∀ a, State.reset.byte a = 0

/-! ### Traps and returns -/

/-- R211, R212, R221. TRAP and BRK, with no vector instruction left to wait for: the privilege and EIE are kept in STATUS, the
privilege becomes supervisor and EIE 0, EPC holds what comes next, by the loop's choice at a trip's end (TRAP), or the instruction
(BRK), ECAUSE and EVAL tell which, and the pc is TVEC. The last part says the same of trap entry itself, whatever the trap: it
changes no x register and no loop state. -/
def Obligations.TrapAndBreakEnter : Prop :=
  ∀ (s : State) (k : BitVec 5), s.Drained →
    let entered (h : Hart) (cause : BitVec 16) (eval : Word) : Hart :=
      { h with
        status := (h.status.extractLsb' 1 1) ++ (0#1 ++ BitVec.ofBool h.sup)
        sup := true
        epc := h.pc
        ecause := cause
        eval := eval
        eqpos := 0
        pc := h.tvec &&& ~~~1#64
        traps := h.traps + 1
        erets := .drained :: h.erets
        wfe := none }
    let past := s.me.advance 4
    exec (.trap k) s = .next (s.setMe (entered past 3 (k.zeroExtend 64))) ∧
    (s.me.inBody s.me.pc = false → past.pc = s.me.pc + 4) ∧
    exec .brk s = .next (s.setMe (entered s.me 2 0)) ∧
    ∀ (h : Hart) (cause : BitVec 16) (epc eval : Word) (eqpos : BitVec 5) (kind : TrapKind) (held : Bool),
      let t := h.enterTrap cause epc eval eqpos kind held
      t.status.getLsbD 0 = h.sup ∧ t.status.getLsbD 2 = h.status.getLsbD 1 ∧ t.status.getLsbD 1 = false ∧ t.sup = true ∧
      t.epc = epc ∧ t.ecause = cause ∧ t.eval = eval ∧ t.eqpos = eqpos ∧ t.pc = h.tvec &&& ~~~1#64 ∧ t.traps = h.traps + 1 ∧
      t.x = h.x ∧ t.lp = h.lp ∧ t.instret = h.instret

/-- R213. ERET in supervisor: the privilege and EIE come back from STATUS, FAULTED channels start again, and the pc is EPC, or
the resume PC with VSTART 0 after a trap that kept the vector queue, where a trip that waited for its count waits again. -/
def Obligations.EretReturns : Prop :=
  ∀ s : State, s.me.free [] → s.me.sup = true →
    ∃ h, exec .eret s = .next (s.setMe h) ∧
      h.sup = s.me.status.getLsbD 0 ∧ h.status.getLsbD 1 = s.me.status.getLsbD 2 ∧
      (s.me.erets.head? ≠ some .queue → h.pc = s.me.epc &&& ~~~1#64 ∧ h.vstart = s.me.vstart ∧ h.lp = s.me.lp) ∧
      (s.me.erets.head? = some .queue → h.pc = s.me.resumePc ∧ h.vstart = 0 ∧ h.lp = s.me.lp.fromResume) ∧
      h.instret = s.me.instret + 1 ∧
      (∀ n (hn : n < 4), h.chans[n] = { s.me.chans[n] with faulted := false }) ∧
      h = { s.me with
        sup := h.sup, status := h.status, pc := h.pc, lp := h.lp, vstart := h.vstart, erets := s.me.erets.tail, vqHeld := h.vqHeld
        bpSkip := true, chans := h.chans, instret := h.instret }

/-- R191, R207, R211. A program that executes a supervisor-only instruction takes ILLEGAL: EPC is the instruction, and nothing
but the trap registers, STATUS, the privilege and the pc changes.

R61, R207. A CSR instruction on an unassigned number, on one its privilege may not read, or writing one its privilege may not
write, takes ILLEGAL and changes nothing else. -/
def Obligations.IllegalByPrivilege : Prop :=
  (∀ (s : State) (d a : BitVec 5), s.Drained → s.me.free [d, a] → s.me.sup = false →
     let trapped (i : Instr) : Prop :=
       exec i s = .next (s.setMe (s.me.enterTrap 1 s.me.pc 0 0 .drained s.me.vqHeld))
     trapped .eret ∧ trapped (.tlbi a) ∧ trapped .tlbiAll ∧ trapped (.savectx a) ∧ trapped (.rstctx d a) ∧
     trapped (.quiesce d)) ∧
  ∀ (s : State) (d a : BitVec 5) (c : BitVec 12), s.Drained → s.me.free [d, a] →
    let trapped (i : Instr) : Prop :=
      exec i s = .next (s.setMe (s.me.enterTrap 1 s.me.pc 0 0 .drained s.me.vqHeld))
    (c = 0x000 ∨ c = 0x015 ∨ c = 0x403 ∨ c = 0x7FF ∨ c = 0x807 ∨ c = 0xFFF →
      trapped (.csrrw d a c) ∧ trapped (.csrrs d a c) ∧ trapped (.csrrc d a c)) ∧
    (s.me.sup = false → 0x800 ≤ c.toNat → trapped (.csrrw d a c) ∧ trapped (.csrrs d a c) ∧ trapped (.csrrc d a c)) ∧
    (c.toNat / 0x400 % 2 = 1 → trapped (.csrrw d a c) ∧ (a ≠ 0 → trapped (.csrrs d a c) ∧ trapped (.csrrc d a c)))

/-! ### Scalar floating point -/

/-- R227 to R230. Where no flag that it sets has its trap enabled (R52), FADD to FMAX, FMA and FSQRT write the rounded result of the
operands, bits above the format taken as 0; FCMP writes whether its condition holds, a NaN making EQ, LT and LE false and UN true; FCVT
writes the value of x[a] converted from the one format to the other and rounded, a 32-bit integer result by its signedness extended. The
flags are added to FFLAGS, and in mode SR an instruction that rounds uses a seed. FCLASS, whatever the traps, writes one set bit of ten
and changes no flag. Nothing else changes. -/
def Obligations.ScalarFloatResults : Prop :=
  (∀ (s : State) (d a b : BitVec 5) (f : BitVec 2), s.me.free [d, a, b] →
     let F := fpFmt f
     let X := fpArg f (s.me.getX a)
     let Y := fpArg f (s.me.getX b)
     let Z := fpArg f (s.me.getX d)
     let down := s.me.scalarDown
     let ends (i : Instr) (r : Nat × Nat) (seed : Bool) : Prop :=
       let h := (s.me.orFlags r.2).setX d (BitVec.ofNat 64 r.1)
       s.me.untrapped r.2 → exec i s = .next (s.setMe ((if seed then h.takeSeed else h).advance 4))
     let rounded (e : Ex) : Nat × Nat := F.finish s.me.scalarRnd e
     ends (.fadd d a b f) (rounded (fAdd down X Y)) true ∧
     ends (.fsub d a b f) (rounded (fSub down X Y)) true ∧
     ends (.fmul d a b f) (rounded (fMul X Y)) true ∧
     ends (.fdiv d a b f) (rounded (fDiv X Y)) true ∧
     ends (.fsqrt d a f) (rounded (fSqrt X)) true ∧
     ends (.fma d a b f) (rounded (fMulAdd down X Y Z)) true ∧
     ends (.fmin d a b f) (fMinMax F false (s.me.getX a).toNat (s.me.getX b).toNat) false ∧
     ends (.fmax d a b f) (fMinMax F true (s.me.getX a).toNat (s.me.getX b).toNat) false) ∧
  (∀ (s : State) (d a b : BitVec 5) (f c : BitVec 2), s.me.free [d, a, b] →
     (let X := fpArg f (s.me.getX a)
      let Y := fpArg f (s.me.getX b)
      let v : Bool :=
        if c = 0 then fCmp X Y == some .eq
        else if c = 1 then fCmp X Y == some .lt
        else if c = 2 then fCmp X Y == some .lt || fCmp X Y == some .eq
        else fCmp X Y == none
      let fl : Nat := if c = 0 ∨ c = 3 then sigFlag X ||| sigFlag Y else if fCmp X Y = none then 1 else 0
      (s.me.untrapped fl →
        exec (.fcmp d a b f c) s = .next (s.setMe (((s.me.orFlags fl).setX d (if v then 1 else 0)).advance 4))) ∧
      ((∃ n, X = .nan n) ∨ (∃ n, Y = .nan n) → (v = true ↔ c = 3)) ∧ (fl = 0 ∨ fl = 1)) ∧
     (∃ k, k < 10 ∧ exec (.fclass d a f) s = .next (s.setMe ((s.me.setX d (BitVec.ofNat 64 (2 ^ k))).advance 4)))) ∧
  ∀ (s : State) (d a b : BitVec 5) (f : BitVec 2), s.me.free [d, a] →
    let ends (i : Instr) (src dst : BitVec 8) : Prop :=
      let r := convert src dst s.me.scalarRnd ((s.me.getX a).toNat % 2 ^ codeWidth src)
      let v := if codeFloat dst then BitVec.ofNat 64 r.1 else BitVec.ofInt 64 (intOf (codeSigned dst) (codeWidth dst) r.1)
      s.me.untrapped r.2 → exec i s = .next (s.setMe ((((s.me.orFlags r.2).setX d v).takeSeed).advance 4))
    ends (.fcvtToFloat d a b f) (convTarget b) (fpCode f) ∧
    ends (.fcvtToInt d a b f) (fpCode f) (convTarget b)

/-- R52, R210, R227. A scalar floating-point instruction that sets a flag whose trap is enabled takes FPE: of its flags the first such one
alone is added to FFLAGS, and x[d] keeps its value. -/
def Obligations.EnabledFlagTraps : Prop :=
  ∀ (s : State) (d a b : BitVec 5) (f : BitVec 2) (k : Nat), s.Inv → s.Drained → s.me.free [d, a, b] →
    let flags := ((fpFmt f).finish s.me.scalarRnd (fDiv (fpArg f (s.me.getX a)) (fpArg f (s.me.getX b)))).2
    k < 5 → flags.testBit k = true → (trapEnables s.me.rmode).testBit k = true → s.me.untrapped (flags % 2 ^ k) →
    exec (.fdiv d a b f) s =
      .next (s.setMe ((s.me.orFlags (2 ^ k)).enterTrap 0x20 s.me.pc 0 0 .drained s.me.vqHeld))

/-! ### Control and status registers -/

/-- R61 to R75, R152, R164, R165. A CSR instruction on a CSR with no behaviour of its own, by a privilege that may: x[d] takes the old
value; CSRRW, and CSRRS and CSRRC with a register other than x0, write the new value, reserved bits left 0; with x0 they write
nothing. Nothing else changes. The second part says what reading the CSRs that no instruction of their own hart writes gives: VL,
MVL, which is some number of its width while VTYPE holds no valid type (log entry 5, DESIGN CHOICE), VCFG, the tile sizes, the watermarks, the
hart's place, its partition, and the counters. -/
def Obligations.CsrReadsAndWrites : Prop :=
  (∀ (s : State) (d a : BitVec 5), s.Inv → s.me.free [d, a] → s.me.vq = [] →
     let h := s.me
     let x := h.getX a
     let plain (n : Nat) (old : Word) (put : Word → Hart) : Prop :=
       let c := BitVec.ofNat 12 n
       let writes (v : Word) : State := s.setMe (((put v).setX d old).advance 4)
       (0x800 ≤ n → h.sup = true) →
         exec (.csrrw d a c) s = .next (writes x) ∧
         (a ≠ 0 → exec (.csrrs d a c) s = .next (writes (old ||| x)) ∧ exec (.csrrc d a c) s = .next (writes (old &&& ~~~x))) ∧
         (a = 0 → exec (.csrrs d a c) s = .next (s.setMe ((h.setX d old).advance 4)) ∧
           exec (.csrrc d a c) s = .next (s.setMe ((h.setX d old).advance 4)))
     plain 0x010 (h.fflags.zeroExtend 64) (fun v => { h with fflags := v.extractLsb' 0 5 }) ∧
     plain 0x011 h.rmode (fun v => { h with rmode :=
       if 6 ≤ (v.extractLsb' 0 3).toNat then v &&& 0xFFFFFFFF000000F8 else v &&& 0xFFFFFFFF000000FF }) ∧
     plain 0x012 (h.vstart.zeroExtend 64) (fun v => { h with vstart := v.extractLsb' 0 23, vsWritten := true }) ∧
     plain 0x014 (h.ftrim.zeroExtend 64) (fun v => { h with ftrim := v.extractLsb' 0 23 }) ∧
     plain 0x800 (h.status.zeroExtend 64) (fun v => { h with status := v.extractLsb' 0 3 }) ∧
     plain 0x801 h.tvec (fun v => { h with tvec := v &&& 0x01FFFFFFFFFFFFFE }) ∧
     plain 0x802 h.epc (fun v => { h with epc := v }) ∧
     plain 0x803 (h.ecause.zeroExtend 64) (fun v => { h with ecause := v.extractLsb' 0 16 }) ∧
     plain 0x804 h.eval (fun v => { h with eval := v }) ∧
     plain 0x805 (h.eqpos.zeroExtend 64) (fun v => { h with eqpos := v.extractLsb' 0 5 }) ∧
     plain 0x806 h.kscratch (fun v => { h with kscratch := v }) ∧
     plain 0x810 h.ptroot (fun v => { h with ptroot := v &&& 0x003FFFFFFFFFF000 }) ∧
     plain 0x822 (h.fwdlim.zeroExtend 64) (fun v => { h with fwdlim := v.extractLsb' 0 2 }) ∧
     ∀ k : Fin 8,
       plain (0x830 + 2 * k.val) h.bpaddr[k] (fun v => { h with bpaddr := h.bpaddr.set k (v &&& 0x01FFFFFFFFFFFFFE) }) ∧
       plain (0x831 + 2 * k.val) h.bpctl[k] (fun v => { h with bpctl := h.bpctl.set k (v &&& 0x7FFFFF07) })) ∧
  ∀ (s : State) (d : BitVec 5), s.Inv → s.me.free [d, 0] → s.me.vq = [] →
    let g := s.cur
    let reads (n : Nat) (v : Word) : Prop :=
      exec (.csrrs d 0 (BitVec.ofNat 12 n)) s = .next (s.setMe ((s.me.setX d v).advance 4))
    (reads 0x400 (s.me.vl.zeroExtend 64) ∧
      (s.me.vtype.getLsbD 15 = false → reads 0x401 (BitVec.ofNat 64 (s.mvl g))) ∧
      (s.me.vtype.getLsbD 15 = true → ∃ t v, exec (.csrrs d 0 0x401) s = .next t ∧ v < 2 ^ 23 ∧ t.mem = s.mem ∧
        t.me = (((s.me.setX d (BitVec.ofNat 64 v)).advance 4).canon)) ∧
      reads 0x402 (s.me.vcfg.zeroExtend 64) ∧
      reads 0x404 (s.me.tilem.zeroExtend 64) ∧ reads 0x405 (s.me.tilen.zeroExtend 64) ∧
      reads 0x406 (s.me.tilek.zeroExtend 64) ∧ reads 0x410 s.me.chans[0].wmark ∧ reads 0x413 s.me.chans[3].wmark ∧
      reads 0x421 ((s.core (g / 4)).lglive.zeroExtend 64) ∧
      reads 0x440 (BitVec.ofNat 64 s.cycle) ∧ reads 0x442 s.me.instret ∧ reads 0x443 s.me.egops ∧
      reads 0x445 s.me.fwdhops ∧ reads 0x448 s.me.xfallbk) ∧
    (s.pkg < 900 → g < 1536 → ∃ v, reads 0x420 v ∧ v.toNat % 4 = g % 4 ∧ v.toNat / 4 % 4 = g / 4 % 4 ∧
      v.toNat / 16 % 4 = g / 16 % 4 ∧ v.toNat / 64 % 16 = g / 64 % 12 ∧ v.toNat / 1024 % 64 = g / 768 ∧
      v.toNat / 65536 = s.pkg) ∧
    (s.me.sup = true → reads 0xC00 (s.me.partid.zeroExtend 64) ∧ reads 0xC44 s.me.preempts ∧ reads 0xC45 s.me.traps ∧
      reads 0xC40 (BitVec.ofNat 64 (s.core (g / 4)).cecor))

/-- R66, R75, R79. A write of VTYPE with a reserved type sets VILL alone and VL to 0; one with a valid type takes it, VILL clear and
reserved bits 0, and VL falls to the new MVL where it was above. A write of VLCAP takes the largest power of two at or below the
value, within 64 bytes and 64 KiB. A write of SPBANKS gives the scratchpad the banks asked for, rounded down to a multiple of 8, at
most 64 and at most what the registers and the 16 banks of the L1 leave; the scratchpad is zero afterwards and memory is
unchanged. No completed write of the core waits then, and no other hart of it is in an access. -/
def Obligations.CsrWritesWithEffects : Prop :=
  (∀ (s : State) (d a : BitVec 5), s.Inv → s.me.free [d, a] → s.me.vq = [] →
     (s.me.lp.active = true → d ≠ s.me.lp.reg) →
     let v := s.me.getX a
     ∃ h, exec (.csrrw d a 0x013) s = .next (s.setMe h) ∧
       (d ≠ 0 → h.getX d = s.me.vtype) ∧ h.pc = ((s.me.advance 4)).pc ∧ h.v = s.me.v ∧ h.m = s.me.m ∧ h.vcfg = s.me.vcfg ∧
       (codeValid (v.extractLsb' 0 8) = false → h.vtype = 0x8000 ∧ h.vl = 0) ∧
       (codeValid (v.extractLsb' 0 8) = true → h.vtype = v &&& 0xFFF ∧
         h.vl.toNat = min s.me.vl.toNat ((s.setMe h).mvl s.cur))) ∧
  (∀ (s : State) (a : BitVec 5), s.Inv → s.me.free [0, a] → s.me.vq = [] → s.me.sup = true →
     ∃ (h : Hart) (k : Nat), exec (.csrrw 0 a 0x820) s = .next (s.setMe (h.advance 4)) ∧
       h = { s.me with vlcap := h.vlcap, capNow := h.capNow, sFix := none } ∧
       6 ≤ k ∧ k ≤ 16 ∧ h.vlcap = BitVec.ofNat 64 (2 ^ k) ∧
       (2 ^ k ≤ (s.me.getX a).toNat ∨ k = 6) ∧ ((s.me.getX a).toNat < 2 ^ (k + 1) ∨ k = 16)) ∧
  ∀ (s : State) (a : BitVec 5), s.Inv → s.me.free [0, a] → s.me.vq = [] → s.me.sup = true →
    (∀ k ∈ coreHarts (s.cur / 4), (s.hart k).posted = [] ∧ (k ≠ s.cur → (s.hart k).flight = none)) →
    ∃ t n, exec (.csrrw 0 a 0x821) s = .next t ∧ t.me = (s.me.advance 4).canon ∧ t.mem = s.mem ∧
      (t.core (s.cur / 4)).spbanks = BitVec.ofNat 7 n ∧ n % 8 = 0 ∧ n ≤ 64 ∧ n ≤ (s.me.getX a).toNat ∧
      (n = 0 ∨ n + coreBanksWith s s.cur s.me.banks + 16 ≤ 96) ∧
      ∀ k, k < 96 * 8192 → memByte (t.core (s.cur / 4)).spad k = 0

/-! ### Scalar memory -/

/-- R223, R224. A load of n bytes that nothing stands in the way of: x[d] takes the bytes at x[a] plus the offset, lowest first,
sign-extended for the S forms and zero-extended for the others. No byte of memory, no line's metadata and no other hart
changes. -/
def Obligations.LoadResults : Prop :=
  ∀ (s : State) (d a : BitVec 5) (i : BitVec 14) (u v : BitVec 3) (j : BitVec 5) (l : Leaf), s.Inv →
    let loads (k : Instr) (len : Nat) (D : BitVec 5) (va : Word) (n : Nat) (value : Nat → Word) : Prop :=
      s.Opens .load va.toNat n l →
      ∃ t, exec k s = .next t ∧
        t.me = ((({ s.me with holdS := false } : Hart).setX D (value (s.bytes l.pa n))).advance len).canon ∧
        t.mem = s.mem ∧ t.lines = s.lines ∧ ∀ g, g ≠ s.cur → t.hart g = s.hart g
    (s.me.free [d, a] →
      let va := s.me.getX a + i.signExtend 64
      loads (.ldS8 d a i) 4 d va 1 (fun x => (BitVec.ofNat 8 x).signExtend 64) ∧
      loads (.ldN8 d a i) 4 d va 1 (fun x => (BitVec.ofNat 8 x).zeroExtend 64) ∧
      loads (.ldS16 d a i) 4 d va 2 (fun x => (BitVec.ofNat 16 x).signExtend 64) ∧
      loads (.ldN16 d a i) 4 d va 2 (fun x => (BitVec.ofNat 16 x).zeroExtend 64) ∧
      loads (.ldS32 d a i) 4 d va 4 (fun x => (BitVec.ofNat 32 x).signExtend 64) ∧
      loads (.ldN32 d a i) 4 d va 4 (fun x => (BitVec.ofNat 32 x).zeroExtend 64) ∧
      loads (.ld64 d a i) 4 d va 8 (fun x => BitVec.ofNat 64 x)) ∧
    (s.me.free [1#2 ++ u, 1#2 ++ v] →
      loads (.cLdS32 u v j) 2 (1#2 ++ u) (s.me.getX (1#2 ++ v) + 4 * j.zeroExtend 64) 4
        (fun x => (BitVec.ofNat 32 x).signExtend 64) ∧
      loads (.cLd64 u v j) 2 (1#2 ++ u) (s.me.getX (1#2 ++ v) + 8 * j.zeroExtend 64) 8 (fun x => BitVec.ofNat 64 x))

/-- R223, R225. A store of n bytes that nothing stands in the way of: the n bytes at x[a] plus the offset take the low n bytes of
the data register, lowest first; every other byte of memory, every register and every other hart is unchanged, and of the lines'
metadata at most PTAG (R98). -/
def Obligations.StoreResults : Prop :=
  ∀ (s : State) (a b : BitVec 5) (i : BitVec 14) (u v : BitVec 3) (j : BitVec 5) (l : Leaf), s.Inv →
    let stores (k : Instr) (len : Nat) (data va : Word) (n : Nat) : Prop :=
      s.Opens .store va.toNat n l →
      ∃ t, exec k s = .next t ∧ t.me = (({ s.me with holdS := false } : Hart).advance len).canon ∧
        (∀ m, m < n → t.byte (l.pa + m) = data.extractLsb' (8 * m) 8) ∧
        (∀ x, x < l.pa ∨ l.pa + n ≤ x → t.byte x = s.byte x) ∧
        (∀ x, t.line x = { s.line x with ptag := (t.line x).ptag }) ∧ ∀ g, g ≠ s.cur → t.hart g = s.hart g
    (s.me.free [a, b] →
      let va := s.me.getX a + i.signExtend 64
      stores (.st8 a b i) 4 (s.me.getX b) va 1 ∧
      stores (.st16 a b i) 4 (s.me.getX b) va 2 ∧
      stores (.st32 a b i) 4 (s.me.getX b) va 4 ∧
      stores (.st64 a b i) 4 (s.me.getX b) va 8) ∧
    (s.me.free [1#2 ++ v, 1#2 ++ u] →
      stores (.cSt32 u v j) 2 (s.me.getX (1#2 ++ u)) (s.me.getX (1#2 ++ v) + 4 * j.zeroExtend 64) 4 ∧
      stores (.cSt64 u v j) 2 (s.me.getX (1#2 ++ u)) (s.me.getX (1#2 ++ v) + 8 * j.zeroExtend 64) 8)

/-- R226. The faults of a scalar access in their order, each with EVAL the access's address and nothing else written: an address
outside the 57-bit space, one in the scratchpad window, a misaligned atomic, and the cause of a walk that fails. -/
def Obligations.ScalarAccessFaults : Prop :=
  ∀ (s : State) (d a b : BitVec 5) (i : BitVec 14) (c : Cause), s.Drained → s.me.free [d, a, b] →
    let va := s.me.getX a + i.signExtend 64
    let x := s.me.getX a
    let trapped (k : Instr) (cause : Cause) (eval : Word) : Prop :=
      exec k s = .next (s.setMe (s.me.enterTrap (BitVec.ofNat 16 cause.code) s.me.pc eval 0 .drained s.me.vqHeld))
    (2 ^ 57 ≤ va.toNat → trapped (.ld64 d a i) .xlateNone va ∧ trapped (.st64 a b i) .xlateNone va) ∧
    (Config.spadBase ≤ va.toNat → va.toNat < 2 ^ 57 →
      trapped (.ld64 d a i) .spadRange va ∧ trapped (.st64 a b i) .spadRange va) ∧
    (x.toNat + 8 ≤ Config.spadBase → x.toNat % 8 ≠ 0 → trapped (.amoAddD d a b 4 0 0) .misalign x) ∧
    (va.toNat + 8 ≤ Config.spadBase → va.toNat % 65536 ≤ 65528 →
      (walk s (s.walker s.cur) .load va.toNat = .fault c → trapped (.ld64 d a i) c va) ∧
      (walk s (s.walker s.cur) .store va.toNat = .fault c → trapped (.st64 a b i) c va))

/-- R95, R277, R279. An aligned scalar atomic at tier scope or wider, with any acquire and release marks, that nothing stands in the
way of: x[d] takes the old value sign-extended, and the bytes at x[a] take the operation's result from the old value and x[b]; a CAS
whose old value is not x[d] stores nothing. Every other byte of memory and every other hart is unchanged. One at core or cluster
scope on a line of the hart's own tier leaves memory as it is unless its cluster holds the line M: the new value stands in the
cluster, where the hart's next load finds it. -/
def Obligations.AtomicResults : Prop :=
  (∀ (s : State) (d a b : BitVec 5) (sc : BitVec 3) (q r : BitVec 1) (l : Leaf), s.Inv → s.me.free [d, a, b] → s.Settled →
     s.me.remote = [] → 2 ≤ sc.toNat → sc.toNat ≤ 6 →
     let amo (w : Nat) (k : Instr) (f : BitVec w → BitVec w → BitVec w → BitVec w) : Prop :=
       let n := w / 8
       let old := BitVec.ofNat w (s.bytes l.pa n)
       let new := f old ((s.me.getX b).setWidth w) ((s.me.getX d).setWidth w)
       s.Opens .atomic (s.me.getX a).toNat n l → (s.me.getX a).toNat % n = 0 →
       ∃ t, exec k s = .next t ∧
         t.me = ((({ s.me with holdS := false } : Hart).setX d (old.signExtend 64)).advance 4).canon ∧
         (∀ m, m < n → t.byte (l.pa + m) = new.extractLsb' (8 * m) 8) ∧
         (∀ x, x < l.pa ∨ l.pa + n ≤ x → t.byte x = s.byte x) ∧ ∀ g, g ≠ s.cur → t.hart g = s.hart g
     amo 32 (.amoAddW d a b sc q r) (fun o x _ => o + x) ∧ amo 64 (.amoAddD d a b sc q r) (fun o x _ => o + x) ∧
     amo 32 (.amoAndW d a b sc q r) (fun o x _ => o &&& x) ∧ amo 64 (.amoAndD d a b sc q r) (fun o x _ => o &&& x) ∧
     amo 32 (.amoOrW d a b sc q r) (fun o x _ => o ||| x) ∧ amo 64 (.amoOrD d a b sc q r) (fun o x _ => o ||| x) ∧
     amo 32 (.amoXorW d a b sc q r) (fun o x _ => o ^^^ x) ∧ amo 64 (.amoXorD d a b sc q r) (fun o x _ => o ^^^ x) ∧
     amo 32 (.amoMinW d a b sc q r) (fun o x _ => if o.toInt ≤ x.toInt then o else x) ∧
     amo 64 (.amoMinD d a b sc q r) (fun o x _ => if o.toInt ≤ x.toInt then o else x) ∧
     amo 32 (.amoMaxW d a b sc q r) (fun o x _ => if o.toInt ≤ x.toInt then x else o) ∧
     amo 64 (.amoMaxD d a b sc q r) (fun o x _ => if o.toInt ≤ x.toInt then x else o) ∧
     amo 32 (.amoMinnW d a b sc q r) (fun o x _ => if o.toNat ≤ x.toNat then o else x) ∧
     amo 64 (.amoMinnD d a b sc q r) (fun o x _ => if o.toNat ≤ x.toNat then o else x) ∧
     amo 32 (.amoMaxnW d a b sc q r) (fun o x _ => if o.toNat ≤ x.toNat then x else o) ∧
     amo 64 (.amoMaxnD d a b sc q r) (fun o x _ => if o.toNat ≤ x.toNat then x else o) ∧
     amo 32 (.amoSwapW d a b sc q r) (fun _ x _ => x) ∧ amo 64 (.amoSwapD d a b sc q r) (fun _ x _ => x) ∧
     amo 32 (.amoCasW d a b sc q r) (fun o x c => if o = c then x else o) ∧
     amo 64 (.amoCasD d a b sc q r) (fun o x c => if o = c then x else o)) ∧
  ∀ (s : State) (d a b : BitVec 5) (sc : BitVec 3) (l : Leaf), s.Inv → s.me.free [d, a, b] →
    s.Opens .atomic (s.me.getX a).toNat 8 l → (s.me.getX a).toNat % 8 = 0 → sc.toNat ≤ 1 →
    homeTier (localOf l.pa) = tierOf s.cur →
    (∀ x, tabFind (s.cluster (clusterOf s.cur)) (l.pa / 128) = some x → x.st ≠ .m) →
    let old := BitVec.ofNat 64 (s.bytes l.pa 8)
    ∃ t, exec (.amoAddD d a b sc 0 0) s = .next t ∧ t.mem = s.mem ∧ (d ≠ 0 → t.me.getX d = old) ∧
      BitVec.ofNat 64 (bitsGet (t.lineFor s.cur l.pa) (8 * (l.pa % 128)) 64) = old + s.me.getX b

/-- R172, R173, R178, R280, R281. FENCE.VS, FENCE.ALL and FENCE.SYS when nothing of the hart is left to wait for: they complete,
FENCE.SYS with status 0; copies that an acquire must not keep are dropped, and memory is unchanged. FENCE.SYS with a write to a
peer whose link is down reports it: bit 0, one link, the peer's package; FENCE.ALL at system scope then takes LINK_DOWN.

R94, R96. A release at tier scope or wider passes the bytes that the hart's cluster holds dirty to their home. -/
def Obligations.FencesComplete : Prop :=
  ((∀ (s : State) (d : BitVec 5) (sc : BitVec 3), s.Inv → s.me.free [d] → s.Settled → s.me.remote = [] →
      let done (i : Instr) (scope : Nat) (h : Hart) : Prop :=
        ∃ t, exec i s = .next t ∧ t.me = h.canon ∧ t.mem = s.mem ∧ (∀ g, g ≠ s.cur → t.hart g = s.hart g) ∧
          (t.core (s.cur / 4)).scache = [] ∧ (1 ≤ scope → (t.core (s.cur / 4)).l1 = []) ∧
          (scope = 0 → (t.core (s.cur / 4)).l1 = (s.core (s.cur / 4)).l1)
      done (.fenceVs sc) sc.toNat (s.me.advance 4) ∧
      done (.fenceAll sc) sc.toNat (s.me.advance 4) ∧
      done (.fenceSys d) 6 ((s.me.setX d 0).advance 4)) ∧
   ∀ (s : State) (d : BitVec 5) (k peer : Nat), s.Inv → s.me.free [d] → s.Settled → s.me.remote = [(k, peer)] → peer < 900 →
     (s.link (Config.linkOf peer).val).st = .down →
     (∃ t, exec (.fenceSys d) s = .next t ∧
       t.me = ((({ s.me with remote := [] } : Hart).setX d (BitVec.ofNat 64 (1 + 256 + 65536 * peer))).advance 4).canon) ∧
     ∃ t, exec (.fenceAll 6) s = .next t ∧ t.me = (s.me.enterTrap 0x11 s.me.pc 0 0 .drained s.me.vqHeld).canon) ∧
  ∀ (s : State) (sc : BitVec 3) (n : Nat) (x : CcLine), s.Inv → s.me.free [] → s.Quiet → 2 ≤ sc.toNat → sc.toNat ≤ 4 →
    s.cluster (clusterOf s.cur) = [(n, x)] → x.st = .l →
    ∃ t, exec (.fenceAll sc) s = .next t ∧
      (∀ k, k < 128 → t.byte (128 * n + k) =
        if x.mask.testBit k then BitVec.ofNat 8 (bitsGet x.data (8 * k) 8) else s.byte (128 * n + k)) ∧
      ∀ k, k < 128 * n ∨ 128 * n + 128 ≤ k → t.byte k = s.byte k

/-! ### System instructions -/

/-- R234, R235, R236. A WFE whose wait is over completes: an event is pending, the barrier has moved since it began, or 65,536 cycles
have passed; one whose wait is not over stays, and notes when it began. ICSYNC empties the instruction cache of the core and unpins
the loop bodies of its harts. TLBI and TLBI.ALL, where no instruction of the partition holds a pin of the named 16 MiB, or of any page,
drop the copies of its bytes from the caches of the partition's cores and the translations of it that harts hold, and end the waits on
MIG that name it. None changes memory. -/
def Obligations.WaitingAndSynchronising : Prop :=
  (∀ s : State, s.me.free [] →
     (eventPending s s.cur = true ∨ (∃ w, s.me.wfe = some w ∧ (barrierOf s s.cur ≠ w.2 ∨ w.1 + 65536 ≤ s.cycle)) →
       exec .wfe s = .next (s.setMe { s.me.advance 4 with wfe := none })) ∧
     (eventPending s s.cur = false → s.me.wfe = none →
       exec .wfe s = .next (s.setMe { s.me with wfe := some (s.cycle, barrierOf s s.cur) }))) ∧
  ∀ (s : State) (a : BitVec 5), s.Inv → s.Settled → s.me.free [a] →
    (∃ t, exec .icsync s = .next t ∧ (t.core (s.cur / 4)).icache = [] ∧
      (∀ g ∈ coreHarts (s.cur / 4), (t.hart g).lp.pinned = none) ∧ t.mem = s.mem ∧
      t.me = (({ s.me with lp := { s.me.lp with pinned := none } } : Hart).advance 4).canon) ∧
    (s.me.sup = true → s.me.migWait = none → s.me.migVec = none → s.me.shooting = none →
      (∀ n (hn : n < 4), s.me.chans[n].mig = none) →
      let ends (i : Instr) (named : Nat → Prop) : Prop :=
        (∀ e ∈ s.harts, e.2.partid = s.me.partid → e.2.place.isSome = true →
          ∀ f, e.2.flight = some f → ∀ u ∈ f.pins, ¬ named u.base) →
        ∃ t, exec i s = .next t ∧ t.me = (({ s.me with tlb := t.me.tlb } : Hart).advance 4).canon ∧ t.mem = s.mem ∧
          (∀ c, c < 384 → bitAt (s.part s.me.partid.toNat).clusters (c / 4) = true →
            (∀ e ∈ (t.core c).l1, ¬ named (128 * e.2.va)) ∧ ∀ e ∈ (t.core c).scache, ¬ named (128 * e.2.va)) ∧
          ∀ e ∈ s.harts, e.2.partid = s.me.partid → e.2.place.isSome = true → s.hart e.1 = e.2 →
            (∀ va, (t.hart e.1).migWait = some va → ¬ named va) ∧ (∀ va, (t.hart e.1).migVec = some va → ¬ named va) ∧
            ∀ u ∈ (t.hart e.1).tlb, ¬ named u.base
      ends (.tlbi a) (fun va => va / 2 ^ 24 = (s.me.getX a).toNat / 2 ^ 24) ∧ ends .tlbiAll (fun _ => True))

/-- R237, R347. SAVECTX with an image that lies in one page whose lines are open: the image begins with its magic number, holds the
x registers with KSCRATCH in the place of x[a], and lies within its stretch of memory, outside which no byte changes; the
hart goes on with the vector state of a launch's entry. Its registers are not spilled here. -/
def Obligations.SavectxWritesImage : Prop :=
  ∀ (s : State) (a : BitVec 5) (l : Leaf), s.Inv → s.me.free [a] → s.Quiet → s.me.sup = true →
    s.me.inBody s.me.pc = false → s.me.wfe = none → s.me.spilled = false → s.me.flight = none →
    let va := (s.me.getX a).toNat / 128 * 128
    let len := (imageFrom s s.cur s.me).length
    va % 65536 + len ≤ 65536 →
    (∀ k, 128 * k < len → s.Opens .store (va + 128 * k) (min 128 (len - 128 * k)) { l with pa := l.pa + 128 * k }) →
    ∃ t, exec (.savectx a) s = .next t ∧
      t.bytes l.pa 4 = 0x49584331 ∧
      (∀ r : BitVec 5, t.bytes (l.pa + 0x80 + 8 * r.toNat) 8 =
        if r = a ∧ a ≠ 0 then s.me.kscratch.toNat else (s.me.getX r).toNat) ∧
      (∀ x, x < l.pa ∨ l.pa + len ≤ x → t.byte x = s.byte x) ∧
      t.me.v = Vector.replicate 32 0 ∧ t.me.m = Vector.replicate 12 0 ∧ t.me.vl = 0 ∧ t.me.tilem = 0 ∧ t.me.tilen = 0 ∧
      t.me.x = s.me.x ∧ t.me.preempts = s.me.preempts + 1 ∧ t.me.instret = s.me.instret + 1

/-- R238. RSTCTX of an image that passes every check: the vector state, the loop, the counters and the x registers are the
image's, but for x[d], which takes status 0, its saved value going to KSCRATCH; pc, privilege, TVEC and memory stay. -/
def Obligations.RstctxRestores : Prop :=
  ∀ (s : State) (d a : BitVec 5) (l : Leaf) (im : Image), s.Inv → s.me.free [d, a] → s.me.vq = [] → s.me.sup = true →
    let va := (s.me.getX a).toNat / 128 * 128
    let len := bitsGet (s.bytes l.pa 16) 64 64
    va % 65536 + len ≤ 65536 → 0x2000 ≤ len →
    (∀ k, 128 * k < len → s.Opens .load (va + 128 * k) (min 128 (len - 128 * k)) { l with pa := l.pa + 128 * k }) →
    headerGood (s.bytes l.pa 0x2000) = true → imageOf (s.bytes l.pa len) = some im → restoreStatus s s.cur im = 0 →
    ∃ t, exec (.rstctx d a) s = .next t ∧ t.mem = s.mem ∧
      (∀ r : BitVec 5, r ≠ 0 → t.me.getX r = if r = d then 0 else im.h.getX r) ∧
      t.me.kscratch = im.h.getX d ∧ t.me.v = im.h.v ∧ t.me.m = im.h.m ∧ t.me.w = im.h.w ∧
      t.me.a = im.h.a ∧ t.me.e = im.h.e ∧ t.me.vl = im.h.vl ∧ t.me.epc = im.h.epc ∧ t.me.vq = im.h.vq ∧
      t.me.pc = ((s.me.advance 4).canon).pc ∧ t.me.sup = s.me.sup ∧ t.me.tvec = s.me.tvec ∧ t.me.partid = s.me.partid

/-- R239. QUIESCE in a running partition with no gang but its own placed, nothing of its broadcasts left, and its save area in
reach: status 0, PAUSE set, and the other harts unchanged; one that finds PAUSE set by another answers 2, and one whose
partition does not run answers 1. -/
def Obligations.QuiesceStatuses : Prop :=
  ∀ (s : State) (d : BitVec 5), s.Inv → s.me.free [d] → s.me.sup = true →
    let p := s.me.partid.toNat
    let own := s.me.place.map (fun e => e.gang)
    ((s.part p).state ≠ .run → exec (.quiesce d) s = .next (s.setMe ((s.me.setX d 1).advance 4))) ∧
    ((s.part p).state = .run → (s.part p).pause = true → (s.part p).quiescer ≠ some s.cur →
      exec (.quiesce d) s = .next (s.setMe ((s.me.setX d 2).advance 4))) ∧
    ((s.part p).state = .run → (s.part p).pause = false → gangsOf s p own = [] → broadcastsDone s p = true →
      completes (do
        if ← roomForAll p own then pure () else halt
        modPart p (fun x => { x with pause := true, quiescer := some s.cur })
        refreshPart p
        writeRegion p) s = true →
      ∃ t, exec (.quiesce d) s = .next t ∧ t.me = ((s.me.setX d 0).advance 4).canon ∧ (t.part p).pause = true ∧
        (t.part p).state = .run ∧ ∀ g, g ≠ s.cur → t.hart g = s.hart g)

/-- R240. RETIRE of a member whose gang lies on one tier, in a launch with other harts still placed: the hart is free, its banks as they
were (R62), the barrier
counts one member less, and the launch one hart less; memory and the other harts are unchanged. -/
def Obligations.RetireFreesHart : Prop :=
  ∀ (s : State) (e : Place) (x : Gang) (l : Launch), s.Inv → s.me.free [] → s.Settled → s.me.remote = [] →
    s.me.bstQueued = 0 → s.me.place = some e → tabFind s.gangs e.gang = some x → x.spans = false →
    tabFind s.launches e.launch = some l → 2 ≤ l.live →
    ∃ t, exec .retire s = .next t ∧ t.me = { Hart.reset with vcfg := s.me.vcfg } ∧ t.mem = s.mem ∧ (∀ g, g ≠ s.cur → t.hart g = s.hart g) ∧
      tabFind t.launches e.launch = some { l with live := l.live - 1 } ∧
      (∀ y, tabFind t.gangs e.gang = some y → y.size = x.size - 1 ∧ e.index ∈ y.retired ∧ y.members = x.members)

/-! ### Configuration of the vector side -/

/-- R76, R77, R78, R81, R245, R246, R296. VSETL, with a type or without: VL and x[d] take the smaller of x[a] and MVL, or 0 while VILL
is set; a type replaces the format, sets the group to 1 and clears VILL, and keeps the block size and the scale format; no vector
register changes. VCFG with room for the banks: VCFG takes the codes, the vector, mask, scale and accumulator registers are zero,
VL, VTYPE and the tile sizes are 0, the x registers stay, and a core that loses banks of its L1 loses the L1's lines; without room
it takes VCFG_SPACE. VSETT grants rows and columns that fit: never more than asked for, than 128, than the limit of the register
size, or than the cells that the other harts of the core leave; both are 0 or neither is; x[d] takes the rows; a changed grant
zeroes every tile; TILEK takes the block size. -/
def Obligations.VectorConfiguration : Prop :=
  (∀ (s : State) (d a : BitVec 5) (ty : BitVec 8), s.Inv → s.me.free [d, a] → s.me.vq = [] → s.me.sFix = none →
     s.me.vlcap.toNat ≤ 65536 → (s.me.lp.active = true → d ≠ s.me.lp.reg) →
     let granted (i : Instr) (vtype : Word) (ill : Bool) : Prop :=
       ∃ h, exec i s = .next (s.setMe h) ∧ h.vtype = vtype ∧
         h.vl.toNat = (if ill then 0 else min (s.me.getX a).toNat ((s.setMe h).mvl s.cur)) ∧
         (d ≠ 0 → h.getX d = h.vl.zeroExtend 64) ∧ h.capNow = s.me.vlcap.toNat ∧ h.v = s.me.v ∧ h.m = s.me.m ∧
         (∀ r, r ≠ d → (s.me.lp.active = true → r ≠ s.me.lp.reg) → h.getX r = s.me.getX r) ∧ h.instret = s.me.instret + 1
     granted (.vsetlT d a ty) ((s.me.vtype &&& 0xC00) ||| ty.zeroExtend 64) false ∧
     granted (.vsetl d a) s.me.vtype (s.me.vtype.getLsbD 15)) ∧
  (∀ (s : State) (b n : BitVec 2), s.Inv → s.me.free [] → s.me.vq = [] → hasStream s s.cur = false →
     (∀ k ∈ coreHarts (s.cur / 4), (s.hart k).posted = []) →
     let now := coreBanksWith s s.cur (16 * 2 ^ b.toNat)
     let k := s.core (s.cur / 4)
     (now + k.spbanks.toNat + 16 ≤ 96 →
       ∃ t, exec (.vcfg b n) s = .next t ∧ t.me.vcfg = b ++ n ∧ t.me.v = Vector.replicate 32 0 ∧
         t.me.m = Vector.replicate 12 0 ∧ t.me.w = Vector.replicate 8 0 ∧ t.me.a = Vector.replicate 4 0 ∧ t.me.vl = 0 ∧
         t.me.vtype = 0 ∧ t.me.tilem = 0 ∧ t.me.tilen = 0 ∧ t.me.instret = s.me.instret + 1 ∧ t.mem = s.mem ∧
         (s.me.inBody s.me.pc = false → t.me.x = s.me.x ∧ t.me.pc = s.me.pc + 4) ∧
         (coreBanksWith s s.cur s.me.banks < now → (t.core (s.cur / 4)).l1 = []) ∧
         (now ≤ coreBanksWith s s.cur s.me.banks → (t.core (s.cur / 4)).l1 = k.l1)) ∧
     (96 < now + k.spbanks.toNat + 16 →
       exec (.vcfg b n) s = .next (s.setMe (s.me.enterTrap 0x24 s.me.pc 0 0 .drained s.me.vqHeld)))) ∧
  ∀ (s : State) (d a b : BitVec 5), s.Inv → s.me.free [d, a, b] → s.me.vq = [] → s.me.vtype.getLsbD 15 = false →
    (s.me.lp.active = true → d ≠ s.me.lp.reg) →
    ∃ h, exec (.vsett d a b) s = .next (s.setMe h) ∧
      let r := h.tilem.toNat
      let c := h.tilen.toNat
      r ≤ (s.me.getX a).toNat ∧ r ≤ 128 ∧ c ≤ (s.me.getX b).toNat ∧ c ≤ 128 ∧ (r = 0 ↔ c = 0) ∧
      4 * r * c ≤ 65536 - cellsOthers s s.cur ∧
      r ≤ 4 * pow2Below ((s.setMe h).sg s.cur) / vtBlock s.me.vtype ∧
      c ≤ 4 * pow2Below ((s.setMe h).sg s.cur) / vtBlock s.me.vtype ∧
      (d ≠ 0 → h.getX d = BitVec.ofNat 64 r) ∧ h.tilek.toNat = vtBlock s.me.vtype ∧ h.vtype = s.me.vtype ∧
      h.vl = s.me.vl ∧ h.v = s.me.v ∧
      h.a = (if h.tilem = s.me.tilem ∧ h.tilen = s.me.tilen then s.me.a else Vector.replicate 4 0)

/-! ### Work -/

/-- R114, R122, R332, R333. LAUNCH of a packet that passes every check, at a queue with room: status 0; the packet stands last in the
queue as an arrival of a hart, and the queue's count of acceptances rises; memory does not change. At a queue that is not the
partition's, or in a partition that does not run, it is DENIED; in a paused partition PAUSED; a packet that fails a check is INVALID
with the check's row; and at a full queue it is FULL; the queues then keep their packets. CLAIM: x[d] takes the launch's counter,
x[a] what is granted of the elements left, and the counter moves past them; nothing else changes.

R335, R121. GRUN of a graph-start line that the walker accepts: status 0, and the walker holds a graph of the line's address
with its roots live. The line is in the hart's scalar cache. -/
def Obligations.LaunchClaimAndGraph : Prop :=
  ((∀ (s : State) (d a b : BitVec 5) (l : Leaf), s.Inv → s.me.free [d, a, b] → s.Settled → s.me.remote = [] →
      (s.me.getX a).toNat % 128 = 0 → s.Opens .load (s.me.getX a).toNat 128 l →
      let p := s.me.partid.toNat
      let q := (s.me.getX b).toNat
      let pkt := s.bytes l.pa 128
      q < 64 → bitAt (s.part p).queues q = true → (s.part p).state = .run → (s.part p).pause = false →
      packetCheck (s.part p) pkt = none → (s.queue q).pkts.length < 32 →
      ∃ t, exec (.launch d a b) s = .next t ∧
        t.me = ((({ s.me with holdS := false } : Hart).setX d 0).advance 4).canon ∧ t.mem = s.mem ∧
        (t.queue q).pkts = (s.queue q).pkts ++ [s.nextId] ∧ (t.queue q).accept = ((s.queue q).accept + 1) % 2 ^ 64 ∧
        ∃ x, tabFind t.launches s.nextId = some x ∧ x.packet = pkt ∧ x.paddr = s.me.getX a ∧ x.src = 1 ∧ x.part = p ∧
          x.queue = q ∧ x.queued = true ∧ x.nextg = 0 ∧ x.live = 0) ∧
   (∀ (s : State) (d a b : BitVec 5) (l : Leaf) (row : Nat), s.Inv → s.me.free [d, a, b] → s.Settled → s.me.remote = [] →
      (s.me.getX a).toNat % 128 = 0 → s.Opens .load (s.me.getX a).toNat 128 l → row < 16 →
      let p := s.me.partid.toNat
      let q := (s.me.getX b).toNat
      let own := q < 64 ∧ bitAt (s.part p).queues q = true ∧ (s.part p).state = .run
      let answered (status : Nat) : Prop :=
        ∃ t, exec (.launch d a b) s = .next t ∧
          t.me = ((({ s.me with holdS := false } : Hart).setX d (BitVec.ofNat 64 status)).advance 4).canon ∧
          t.launches = s.launches ∧ ∀ k, (t.queue k).pkts = (s.queue k).pkts
      (¬ own → answered 2) ∧
      (own → (s.part p).pause = true → answered 3) ∧
      (own → (s.part p).pause = false → packetCheck (s.part p) (s.bytes l.pa 128) = some row → answered (4 + 16 * row)) ∧
      (own → (s.part p).pause = false → packetCheck (s.part p) (s.bytes l.pa 128) = none → 32 ≤ (s.queue q).pkts.length →
        answered 5)) ∧
   ∀ (s : State) (d a : BitVec 5) (e : Place) (l : Launch), s.Drained → s.me.free [d, a] → d ≠ a → a ≠ 0 →
     s.me.place = some e → tabFind s.launches e.launch = some l →
     let n := min (s.me.getX a).toNat (Packet.total l.packet - l.claim)
     exec (.claim d a) s = .next (({ s with
       launches := tabPut s.launches e.launch { l with claim := l.claim + n } } : State).setMe
         (((s.me.setX d (BitVec.ofNat 64 l.claim)).setX a (BitVec.ofNat 64 n)).advance 4))) ∧
  ∀ (s : State) (d a : BitVec 5) (l : Leaf) (x : CLine), s.Inv → s.me.free [d, a] → s.Settled → s.me.remote = [] →
    s.me.holdS = false → (s.me.getX a).toNat % 128 = 0 → (s.me.getX a).toNat + 128 ≤ Config.spadBase →
    walk s (s.walker s.cur) .load (s.me.getX a).toNat = .ok l → targetOf s (tierOf s.cur) l = .line l.pa →
    l.pa % 128 = 0 → leafMarked (s.bytes l.line 128) l.idx false = s.bytes l.line 128 → l.bc = false → pkgOf l.pa = s.pkg →
    tabFind (s.core (coreOf s.cur)).scache (l.pa / 128) = some x → x.va = (s.me.getX a).toNat / 128 → x.data < 2 ^ 1024 →
    answers (do
      match ← graphRefusal s.me.partid.toNat x.data with
      | some none => graphStart s.me.partid.toNat 0 (s.me.getX a) 0 x.data
      | _ => pure false) s = true →
    ∃ t id y, exec (.grun d a) s = .next t ∧ t.me = ((s.me.setX d 0).advance 4).canon ∧
      tabFind t.graphs id = some y ∧ y.addr = s.me.getX a ∧ y.part = s.me.partid.toNat ∧ y.live = x.data % 256 ∧
      y.abandoned = false

/-- R158, R320, R321, R330. GBAR on a hart with no gang acts as an acquire and completes; with a gang on one tier it arrives, waits
while members are missing, and as the last to arrive ends the episode: ARR 0, EPOCH one higher, and it goes on. BACQ completes
once the tier's receiver has applied every write that the order had taken when it issued, those of the hart among them; copies an
acquire must not keep are dropped. -/
def Obligations.BarrierAndBroadcastWaits : Prop :=
  (∀ (s : State) (e : Place) (x : Gang), s.Inv → s.me.free [] → s.Settled →
     (s.gangOf s.cur = none →
       ∃ t, exec .gbar s = .next t ∧ t.me = ({ s.me.advance 4 with arrived := false, barrierQ := false } : Hart).canon ∧
         t.mem = s.mem ∧ (t.core (s.cur / 4)).l1 = []) ∧
     (s.me.place = some e → tabFind s.gangs e.gang = some x → x.spans = false → x.st = 1 → s.me.arrived = false →
       x.size ≠ 0 →
       (x.arr + 1 = x.size →
         ∃ t, exec .gbar s = .next t ∧ t.me = ({ s.me.advance 4 with
             arrived := false, epochAt := x.epoch, barrierQ := false } : Hart).canon ∧
           tabFind t.gangs e.gang = some { x with arr := 0, epoch := x.epoch + 1 } ∧ t.mem = s.mem) ∧
       (x.arr + 1 ≠ x.size →
         ∃ t, exec .gbar s = .next t ∧ t.me = ({ s.me with arrived := true, epochAt := x.epoch, barrierQ := false } : Hart) ∧
           tabFind t.gangs e.gang = some { x with arr := x.arr + 1 } ∧ t.mem = s.mem))) ∧
  ∀ s : State, s.Inv → s.me.free [] → s.me.vq = [] → s.me.bstQueued = 0 → s.me.bstNext = none → s.me.bacq = none → s.me.bacqAt = none →
    (s.tier (tierOf s.cur)).replica = .current → (s.tier (tierOf s.cur)).applied = (s.tower (towerOf s.cur)).seq →
    ∃ t, exec .bacq s = .next t ∧ t.me = (s.me.advance 4).canon ∧ t.mem = s.mem ∧
      (t.core (s.cur / 4)).l1 = [] ∧ (t.core (s.cur / 4)).scache = []

/-! ### Vector arithmetic -/

/-- R242, R247, R34, R35, R36. VINT and VINTX, but for VADC, VSBC and VMERGE, on a group of any format of CLASS 0 to 9: each active
element of the group takes the function of its row, of the elements of the sources, or the scalar, and of its own old value; every
other element, every other register, every flag and memory stay. -/
def Obligations.VectorIntegerResults : Prop :=
  ∀ (s : State) (d a b : BitVec 5) (m : BitVec 4), s.Lone → s.me.vtype.getLsbD 15 = false →
    codeClass (vtCode s.me.vtype) ≤ 9 → s.me.vl.toNat ≤ s.me.capacity →
    let h := s.me
    let t := vtCode h.vtype
    let w := codeWidth t
    let V (x : Nat) : Int := intOf (codeSigned t) w x
    let keep (z : Int) : Nat := (z % 2 ^ w).toNat
    let clamp (z : Int) : Nat := keep (max (intMin (codeSigned t) w) (min (intMax (codeSigned t) w) z))
    let run (i : Instr) (y : Nat → Nat) (f : Nat → Nat → Nat → Nat) : Prop :=
      ∃ h', exec i s = .next (s.setMe h') ∧ h' = { h.past 4 false with v := h'.v } ∧
        h.Writes h' t d (vtGroup h.vtype) (h.active m) (fun e => f (h.elem a e) (y e) (h.elem d e))
    let both (i ix : Instr) (f : Nat → Nat → Nat → Nat) : Prop :=
      (h.grouped [d, a, b] → run i (h.elem b) f) ∧ (h.grouped [d, a] → run ix (fun _ => (h.getX b).toNat % 2 ^ w) f)
    both (.vadd d a b m) (.vaddX d a b m) (fun x y _ => keep (V x + V y)) ∧
    both (.vsub d a b m) (.vsubX d a b m) (fun x y _ => keep (V x - V y)) ∧
    both (.vmul d a b m) (.vmulX d a b m) (fun x y _ => keep (V x * V y)) ∧
    both (.vmulh d a b m) (.vmulhX d a b m) (fun x y _ => keep (V x * V y / 2 ^ w)) ∧
    both (.vmacc d a b m) (.vmaccX d a b m) (fun x y z => keep (V z + V x * V y)) ∧
    both (.vdiv d a b m) (.vdivX d a b m) (fun x y _ => if y = 0 then 2 ^ w - 1 else keep ((V x).tdiv (V y))) ∧
    both (.vrem d a b m) (.vremX d a b m) (fun x y _ => if y = 0 then x else keep ((V x).tmod (V y))) ∧
    both (.vmin d a b m) (.vminX d a b m) (fun x y _ => if V x ≤ V y then x else y) ∧
    both (.vmax d a b m) (.vmaxX d a b m) (fun x y _ => if V x ≤ V y then y else x) ∧
    both (.vand d a b m) (.vandX d a b m) (fun x y _ => x &&& y) ∧
    both (.vor d a b m) (.vorX d a b m) (fun x y _ => x ||| y) ∧
    both (.vxor d a b m) (.vxorX d a b m) (fun x y _ => x ^^^ y) ∧
    both (.vsll d a b m) (.vsllX d a b m) (fun x y _ => if w ≤ y then 0 else x * 2 ^ y % 2 ^ w) ∧
    both (.vsrl d a b m) (.vsrlX d a b m) (fun x y _ => if w ≤ y then 0 else x / 2 ^ y) ∧
    both (.vsra d a b m) (.vsraX d a b m) (fun x y _ => keep (intOf true w x / 2 ^ (min y w))) ∧
    both (.vadds d a b m) (.vaddsX d a b m) (fun x y _ => clamp (V x + V y)) ∧
    both (.vsubs d a b m) (.vsubsX d a b m) (fun x y _ => clamp (V x - V y))

/-- R248, R249. VADC and VSBC perform every element from VSTART up to VL, with mask register m giving each its carry and taking the
carry out of it; VMERGE takes B where the mask's bit is set and va where it is clear. Nothing else changes. -/
def Obligations.VectorCarryAndMerge : Prop :=
  ∀ (s : State) (d a b : BitVec 5) (m : BitVec 4), s.Lone → s.me.vtype.getLsbD 15 = false →
    codeClass (vtCode s.me.vtype) ≤ 9 → s.me.vl.toNat ≤ s.me.capacity → m.toNat < 12 →
    let h := s.me
    let t := vtCode h.vtype
    let w := codeWidth t
    let c (e : Nat) : Nat := if (h.mreg m.toNat).testBit e then 1 else 0
    let run (i : Instr) (val : Nat → Nat) (marks : Nat → Bool) : Prop :=
      ∃ h', exec i s = .next (s.setMe h') ∧ h' = { h.past 4 false with v := h'.v, m := h'.m } ∧
        h.Writes h' t d (vtGroup h.vtype) (h.active 12) val ∧ h.Marks h' m.toNat (h.active 12) marks
    let all (i ic im : Instr) (y : Nat → Nat) : Prop :=
      run i (fun e => (h.elem a e + y e + c e) % 2 ^ w) (fun e => decide (2 ^ w ≤ h.elem a e + y e + c e)) ∧
      run ic (fun e => ((h.elem a e - y e - c e : Int) % 2 ^ w).toNat) (fun e => decide ((h.elem a e - y e - c e : Int) < 0)) ∧
      run im (fun e => if c e = 1 then y e else h.elem a e) (fun e => (h.mreg m.toNat).testBit e)
    (h.grouped [d, a, b] → all (.vadc d a b m) (.vsbc d a b m) (.vmerge d a b m) (h.elem b)) ∧
    (h.grouped [d, a] → all (.vadcX d a b m) (.vsbcX d a b m) (.vmergeX d a b m) (fun _ => (h.getX b).toNat % 2 ^ w))

/-- R250. VCMP and VFCMP write, at each active element, whether the condition holds of the two elements; the floating-point ones add
NV for a signalling NaN, and VFCMPLT and VFCMPLE for any NaN, and complete so where NV's trap is not enabled or NV is not set. Nothing
else changes. -/
def Obligations.VectorCompares : Prop :=
  ∀ (s : State) (d a b : BitVec 5) (m : BitVec 4), s.Lone → s.me.vtype.getLsbD 15 = false → d.toNat < 12 →
    s.me.grouped [a, b] →
    let h := s.me
    let t := vtCode h.vtype
    let w := codeWidth t
    let run (i : Instr) (cond : Nat → Bool) (flags : Nat → Nat) : Prop :=
      (∀ e, h.active m e = true → h.untrapped (flags e)) → ∃ h', exec i s = .next (s.setMe h') ∧ h' = { h.past 4 false with m := h'.m, fflags := h'.fflags } ∧
        h.Marks h' d.toNat (h.active m) cond ∧ h.Flags h' (h.active m) flags
    (codeClass t ≤ 9 →
      let V (x : Nat) : Int := intOf (codeSigned t) w x
      let ints (i : Instr) (cond : Int → Int → Prop) [∀ x y, Decidable (cond x y)] : Prop :=
        run i (fun e => decide (cond (V (h.elem a e)) (V (h.elem b e)))) (fun _ => 0)
      ints (.vcmpeq d a b m) (fun x y => x = y) ∧ ints (.vcmpne d a b m) (fun x y => x ≠ y) ∧
      ints (.vcmplt d a b m) (fun x y => x < y) ∧ ints (.vcmple d a b m) (fun x y => x ≤ y) ∧
      ints (.vcmpgt d a b m) (fun x y => x > y) ∧ ints (.vcmpge d a b m) (fun x y => x ≥ y)) ∧
    (codeClass t = 11 → 5 ≤ codeSub t → codeSub t ≤ 8 →
      let X (e : Nat) : FVal := (codeFmt t).decode (h.elem a e)
      let Y (e : Nat) : FVal := (codeFmt t).decode (h.elem b e)
      let quiet (e : Nat) : Nat := sigFlag (X e) ||| sigFlag (Y e)
      let loud (e : Nat) : Nat := if fCmp (X e) (Y e) = none then 1 else 0
      run (.vfcmpeq d a b m) (fun e => fCmp (X e) (Y e) == some .eq) quiet ∧
      run (.vfcmplt d a b m) (fun e => fCmp (X e) (Y e) == some .lt) loud ∧
      run (.vfcmple d a b m) (fun e => fCmp (X e) (Y e) == some .lt || fCmp (X e) (Y e) == some .eq) loud ∧
      run (.vfcmpne d a b m) (fun e => fCmp (X e) (Y e) != some .eq) quiet ∧
      run (.vfcmpun d a b m) (fun e => fCmp (X e) (Y e) == none) quiet)

/-- R251, R252, R253, R49, R51, R52. The floating-point instructions, where no flag that an active element sets has its trap enabled: each
active element takes the exact result of its row rounded once, with the element's number where the mode is SR; the active elements' flags are added to FFLAGS, and
an instruction that rounds uses one seed in mode SR. Nothing else changes. -/
def Obligations.VectorFloatResults : Prop :=
  ∀ (s : State) (d a b : BitVec 5) (m : BitVec 4), s.Lone → s.me.vtype.getLsbD 15 = false →
    codeClass (vtCode s.me.vtype) = 11 → 5 ≤ codeSub (vtCode s.me.vtype) → codeSub (vtCode s.me.vtype) ≤ 8 →
    s.me.vl.toNat ≤ s.me.capacity →
    let h := s.me
    let t := vtCode h.vtype
    let F := codeFmt t
    let down := bitsGet h.rmode.toNat 0 3 == 4
    let run (i : Instr) (rounds : Bool) (r : Nat → Nat × Nat) : Prop :=
      (∀ e, h.active m e = true → h.untrapped (r e).2) → ∃ h', exec i s = .next (s.setMe h') ∧ h' = { h.past 4 rounds with v := h'.v, fflags := h'.fflags } ∧
        h.Writes h' t d (vtGroup h.vtype) (h.active m) (fun e => (r e).1) ∧ h.Flags h' (h.active m) (fun e => (r e).2)
    let X (e : Nat) : FVal := F.decode (h.elem a e)
    let Z (e : Nat) : FVal := F.decode (h.elem d e)
    let near (f : Nat → Ex) (e : Nat) : Nat × Nat := F.finish (h.rndAt e 0) (f e)
    let scal (_ : Nat) : Nat := (h.getX b).toNat % 2 ^ codeWidth t
    let both (i ix : Instr) (f : FVal → FVal → FVal → Ex) : Prop :=
      (h.grouped [d, a, b] → run i true (near (fun e => f (X e) (F.decode (h.elem b e)) (Z e)))) ∧
      (h.grouped [d, a] → run ix true (near (fun e => f (X e) (F.decode (scal e)) (Z e))))
    both (.vfadd d a b m) (.vfaddX d a b m) (fun x y _ => fAdd down x y) ∧
    both (.vfsub d a b m) (.vfsubX d a b m) (fun x y _ => fSub down x y) ∧
    both (.vfmul d a b m) (.vfmulX d a b m) (fun x y _ => fMul x y) ∧
    both (.vfma d a b m) (.vfmaX d a b m) (fun x y z => fMulAdd down x y z) ∧
    (h.grouped [d, a, b] →
      run (.vfdiv d a b m) true (near (fun e => fDiv (X e) (F.decode (h.elem b e)))) ∧
      run (.vfmin d a b m) false (fun e => fMinMax F false (h.elem a e) (h.elem b e)) ∧
      run (.vfmax d a b m) false (fun e => fMinMax F true (h.elem a e) (h.elem b e))) ∧
    (h.grouped [d, a] →
      run (.vfminX d a b m) false (fun e => fMinMax F false (h.elem a e) (scal e)) ∧
      run (.vfmaxX d a b m) false (fun e => fMinMax F true (h.elem a e) (scal e)) ∧
      run (.vfsqrt d a m) true (near (fun e => fSqrt (X e))) ∧
      (codeSub t ≤ 7 →
        run (.vfrcp d a m) true (near (fun e => fDiv (.num false 1 0 false) (X e))) ∧
        run (.vfrsq d a m) true (near (fun e => VCtx.fRsq (X e))) ∧
        run (.vfexp2 d a m) true (near (fun e => VCtx.fExp2 (X e))) ∧
        run (.vflog2 d a m) true (near (fun e => VCtx.fLog2 (X e))) ∧
        run (.vftanh d a m) true (near (fun e => VCtx.fTanh (X e)))))

/-- R253, R41, R42. VFCVT that the queue accepts, where no flag that an active element sets has its trap enabled: each active element of
the destination's group, in the target's format, takes the source's element converted: a float rounded once, an integer to an integer
by its low bits. -/
def Obligations.VectorConversions : Prop :=
  ∀ (s : State) (d a k : BitVec 5) (m : BitVec 4) (op : VOp), s.Lone → s.Accepts (.vfcvt d a m k) op →
    s.me.lay % 8 = 0 → s.sg s.cur = s.me.lay → s.me.vl.toNat ≤ s.me.capacity →
    let h := s.me
    let t := vtCode h.vtype
    let u := convTarget k
    let r (e : Nat) : Nat × Nat := convert t u (h.rndAt e 0) (h.elem a e)
    (∀ e, h.active m e = true → h.untrapped (r e).2) →
    ∃ h' n, exec (.vfcvt d a m k) s = .next (s.setMe h') ∧
      h' = { h.past 4 (codeFloat t || codeFloat u) with v := h'.v, fflags := h'.fflags } ∧
      (n = 1 ∨ n = 2 ∨ n = 4 ∨ n = 8) ∧ mvlOf h.lay (codeWidth t) (vtGroup h.vtype) ≤ mvlOf h.lay (codeWidth u) n ∧
      (∀ k, k < n → (k = 1 ∨ k = 2 ∨ k = 4) → mvlOf h.lay (codeWidth u) k < mvlOf h.lay (codeWidth t) (vtGroup h.vtype)) ∧
      h.Writes h' u d n (h.active m) (fun e => (r e).1) ∧ h.Flags h' (h.active m) (fun e => (r e).2)

/-! ### Vector moves, reductions and masks -/

/-- R254 to R257. The moves and permutes: VMV, VID and the scale-register moves perform element by element, and the slides, VPERM,
VCOMPRESS and VIOTA read every source first. Each writes its destination as its row says and nothing else. -/
def Obligations.VectorMoves : Prop :=
  (∀ (d a b : BitVec 5) (m : BitVec 4), m.toNat ≤ 12 →
     decode (.base (4#5 ++ (m ++ (b ++ (a ++ (d ++ 0xB5#8)))))) = .ok (.vperm d a b m)) ∧
  ∀ (s : State) (d a b : BitVec 5) (m : BitVec 4), s.Lone → s.me.vtype.getLsbD 15 = false → s.me.vl.toNat ≤ s.me.capacity →
    let h := s.me
    let t := vtCode h.vtype
    let w := codeWidth t
    let vl := h.vl.toNat
    let put (i : Instr) (on : Nat → Bool) (val : Nat → Nat) : Prop :=
      ∃ h', exec i s = .next (s.setMe h') ∧ h' = { h.past 4 false with v := h'.v } ∧
        h.Writes h' t d (vtGroup h.vtype) on val
    let n := (h.getX b).toNat
    let set (r : BitVec 5) (e : Nat) : Bool := (h.mreg r.toNat).testBit e
    let chosen := (List.range vl).filter (set b)
    (h.grouped [d, a] →
      put (.vmv d a m) (h.active m) (h.elem a) ∧
      put (.vslideup d a b m) (fun e => h.takesPart m e && decide (n ≤ e)) (fun e => h.elem a (e - n)) ∧
      put (.vslidedn d a b m) (h.takesPart m) (fun e => if e + n < vl then h.elem a (e + n) else 0) ∧
      put (.vcompress d a b) (fun e => decide (h.first < vl) && decide (e < chosen.length))
        (fun e => h.elem a (chosen.getD e 0))) ∧
    (h.grouped [d, a, b] →
      put (.vperm d a b m) (h.takesPart m) (fun e => if h.elem b e < vl then h.elem a (h.elem b e) else 0)) ∧
    (h.grouped [d] →
      (codeClass t ≠ 10 → put (.vmvFromScalar d a m) (h.active m) (fun _ => (h.getX a).toNat % 2 ^ w)) ∧
      (codeClass t ≤ 9 → put (.vid d m) (h.active m) (fun e => e % 2 ^ w)) ∧
      (codeClass t ≤ 7 → put (.viota d a m) (h.takesPart m)
        (fun e => (List.range e).countP (fun k => h.takesPart m k && set a k) % 2 ^ w)) ∧
      (t = 4 → put (.vmvFromScale d a) (h.active 12) (fun e => if e < h.wCodes then h.wget a.toNat e else 0))) ∧
    (h.grouped [a] → t = 4 → d.toNat < 8 →
      ∃ h', exec (.vmvToScale d a) s = .next (s.setMe h') ∧ h' = { h.past 4 false with w := h'.w } ∧
        (∀ j, h'.wget d.toNat j = if h.active 12 j ∧ j < h.wCodes then h.elem a j else h.wget d.toNat j) ∧
        ∀ r, r < 8 → r ≠ d.toNat → h'.wreg r = h.wreg r)

/-- R56, R258, R262, R263. The integer reductions, MPOP, MPOP.VL, MFIRST and MLAST write x[d] with the value of their row; MPOP.VL
makes it VL as well. No vector or mask register, flag or memory changes. Where the instruction ends a trip whose count is x[d],
the trip is decided on the value written (R220).

R57, R58, R259. VFREDO adds the active elements one after another to the start value, rounding each sum with the element's number.
VFREDT adds them pair by pair, level by level, up to the root of the smallest tree that holds VL leaves, and that to the start value;
each sum rounds with the lowest number of its leaves and its level. Where no flag so set has its trap enabled, x[d] takes the code, and
the flags are added to FFLAGS. -/
def Obligations.Reductions : Prop :=
  (∀ (s : State) (d a b : BitVec 5) (m : BitVec 4), s.Lone → s.me.vtype.getLsbD 15 = false →
     let h := s.me
     let t := vtCode h.vtype
     let w := codeWidth t
     let V (x : Nat) : Int := intOf (codeSigned t) w x
     let run (i : Instr) (v : Word) : Prop := exec i s = .next (s.setMe ((h.setX d v).past 4 false))
     (codeClass t ≤ 7 → h.grouped [a] →
       let reduce (i : Instr) (f : Nat → Nat → Nat) : Prop :=
         run i (BitVec.ofInt 64 (V (((List.range h.vl.toNat).filter (h.takesPart m)).foldl (fun acc e => f acc (h.elem a e))
           ((h.getX b).toNat % 2 ^ w))))
       reduce (.vredAdd d a b m) (fun x y => (x + y) % 2 ^ w) ∧
       reduce (.vredAnd d a b m) (fun x y => x &&& y) ∧
       reduce (.vredOr d a b m) (fun x y => x ||| y) ∧
       reduce (.vredXor d a b m) (fun x y => x ^^^ y) ∧
       reduce (.vredMin d a b m) (fun x y => if V x ≤ V y then x else y) ∧
       reduce (.vredMax d a b m) (fun x y => if V x ≤ V y then y else x)) ∧
     let set (e : Nat) : Bool := h.takesPart 12 e && (h.mreg a.toNat).testBit e
     let count := (List.range h.vl.toNat).countP set
     run (.mpop d a) (BitVec.ofNat 64 count) ∧
     exec (.mpopVl d a) s =
       .next (s.setMe { (h.setX d (BitVec.ofNat 64 count)).past 4 false with vl := BitVec.ofNat 23 count }) ∧
     (∀ e, set e = true → (∀ k, k < e → set k = false) → run (.mfirst d a) (BitVec.ofNat 64 e)) ∧
     (∀ e, set e = true → (∀ k, e < k → set k = false) → run (.mlast d a) (BitVec.ofNat 64 e)) ∧
     ((∀ e, set e = false) → run (.mfirst d a) (BitVec.allOnes 64) ∧ run (.mlast d a) (BitVec.allOnes 64))) ∧
  ∀ (s : State) (d a b : BitVec 5) (m : BitVec 4), s.Lone → s.me.vtype.getLsbD 15 = false →
    codeClass (vtCode s.me.vtype) = 11 → 5 ≤ codeSub (vtCode s.me.vtype) → codeSub (vtCode s.me.vtype) ≤ 8 →
    s.me.grouped [a] →
    let h := s.me
    let F := codeFmt (vtCode h.vtype)
    let start := (h.getX b).toNat % 2 ^ codeWidth (vtCode h.vtype)
    let sum (e n x y : Nat) : Nat × Nat :=
      F.finish (h.rndAt e n) (fAdd (bitsGet h.rmode.toNat 0 3 == 4) (F.decode x) (F.decode y))
    let run (i : Instr) (x flags : Nat) : Prop :=
      h.untrapped flags → exec i s = .next (s.setMe (((h.setX d (BitVec.ofNat 64 x)).past 4 true).orFlags flags))
    let r := ((List.range h.vl.toNat).filter (h.takesPart m)).foldl
      (fun (q : Nat × Nat) e => let y := sum e 0 q.1 (h.elem a e); (y.1, q.2 ||| y.2)) (start, 0)
    run (.vfredo d a b m) r.1 r.2 ∧
    ∀ k, h.vl.toNat ≤ 2 ^ k → (k = 0 ∨ 2 ^ (k - 1) < h.vl.toNat) →
      let root := sumTree (fun level node => sum (node * 2 ^ level) (level - 1))
        (fun e => if h.takesPart m e then some (h.elem a e) else none) k 0
      match root.1 with
      | none => run (.vfredt d a b m) start 0
      | some x => run (.vfredt d a b m) (sum 0 k start x).1 (root.2 ||| (sum 0 k start x).2)

/-- R260, R261, R264, R265. The mask instructions write a mask register and nothing else: the logic ones and MWHILE bit by bit, MSHUP
the bits one place up, and VTOPK the candidates of which fewer than k rank before: a larger value ranks before a smaller, a number
before a NaN, and the lower element before its equals. -/
def Obligations.MaskResults : Prop :=
  decode (.base 0x2E01A2BD#32) = .ok (.mwhile 2 13) ∧
  (∀ d a : BitVec 5, d.toNat < 12 → a.toNat < 12 →
     decode (.base (10#5 ++ (12#4 ++ (0#5 ++ (a ++ (d ++ 0xBD#8)))))) = .ok (.mshup d a)) ∧
  ∀ (s : State) (d a b : BitVec 5) (m : BitVec 4), s.Lone → s.me.vtype.getLsbD 15 = false → d.toNat < 12 →
    let h := s.me
    let t := vtCode h.vtype
    let mark (i : Instr) (on val : Nat → Bool) : Prop :=
      ∃ h', exec i s = .next (s.setMe h') ∧ h' = { h.past 4 false with m := h'.m } ∧ h.Marks h' d.toNat on val
    let A (e : Nat) : Bool := (h.mreg a.toNat).testBit e
    let B (e : Nat) : Bool := (h.mreg b.toNat).testBit e
    mark (.mand d a b) (h.active 12) (fun e => A e && B e) ∧
    mark (.mor d a b) (h.active 12) (fun e => A e || B e) ∧
    mark (.mxor d a b) (h.active 12) (fun e => A e != B e) ∧
    mark (.mandn d a b) (h.active 12) (fun e => A e && !B e) ∧
    mark (.mnot d a) (h.active 12) (fun e => !A e) ∧
    mark (.mwhile d a) (h.active 12) (fun e => decide (e < (h.getX a).toNat)) ∧
    mark (.mshup d a) (h.takesPart 12) (fun e => decide (0 < e) && A (e - 1)) ∧
    (codeClass t ≠ 10 → h.grouped [a] →
      let V (e : Nat) : Int := intOf (codeSigned t) (codeWidth t) (h.elem a e)
      let X (e : Nat) : FVal := (codeFmt t).decode (h.elem a e)
      let nan (e : Nat) : Bool := fCmp (X e) (X e) == none
      let before (j e : Nat) : Bool :=
        if codeClass t = 11 then
          (nan e && !nan j) || fCmp (X j) (X e) == some .gt ||
            (decide (j < e) && ((nan j && nan e) || fCmp (X j) (X e) == some .eq))
        else decide (V e < V j) || (decide (j < e) && decide (V j = V e))
      mark (.vtopk d a b m) (h.takesPart 12) (fun e => h.takesPart m e &&
        decide ((List.range h.vl.toNat).countP (fun j => h.takesPart m j && before j e) < (h.getX b).toNat)))

/-! ### Vector memory -/

/-- R84, R267 to R273. Vector loads. Where every active element lies in the valid bytes of the scratchpad, each takes its bytes, lowest
first, and nothing else changes; so do the loads of a scale and of a mask register. An element of memory that nothing stands in the
way of takes the bytes that stand there, and memory does not change. VLXFF with an active element that is not the first, and all
above it, outside the 57-bit space loads those below it and cuts VL and FTRIM there. -/
def Obligations.VectorLoads : Prop :=
  ∀ (s : State) (d a b : BitVec 5) (m : BitVec 4), s.Inv → s.Calm → s.me.vtype.getLsbD 15 = false →
    codeClass (vtCode s.me.vtype) ≠ 10 → s.me.vl.toNat ≤ s.me.capacity →
    let h := s.me
    let t := vtCode h.vtype
    let n := codeBytes t
    let vl := h.vl.toNat
    let pad := s.core (s.cur / 4)
    let inPad (va k : Nat) : Prop :=
      Config.spadBase ≤ va ∧ va + k ≤ Config.spadBase + 8192 * pad.spbanks.toNat ∧ va + k ≤ 2 ^ 57
    let held (va k : Nat) : Nat := memBits pad.spad (va - Config.spadBase) k
    let unit (e : Nat) : Nat := (h.getX a + BitVec.ofNat 64 (e * n)).toNat
    let stride (e : Nat) : Nat := (h.getX a + BitVec.ofNat 64 e * h.getX b).toNat
    let index (e : Nat) : Nat := (h.getX a + BitVec.ofNat 64 (h.elem b e)).toNat
    let loads (i : Instr) (va : Nat → Nat) : Prop :=
      ((∀ e, h.active m e = true → inPad (va e) n) →
        ∃ h', exec i s = .next (s.setMe h') ∧ h' = { h.past 4 false with v := h'.v } ∧
          h.Writes h' t d (vtGroup h.vtype) (h.active m) (fun e => held (va e) n % 2 ^ codeWidth t)) ∧
      ∀ (e : Nat) (l : Leaf), (∀ k, h.active m k = true ↔ k = e) → s.Opens .load (va e) n l →
        ∃ u h', exec i s = .next u ∧ u.me = h'.canon ∧ h' = { h.past 4 false with v := h'.v } ∧
          h.Writes h' t d (vtGroup h.vtype) (h.active m) (fun _ => s.bytes l.pa n % 2 ^ codeWidth t) ∧
          u.mem = s.mem ∧ u.lines = s.lines ∧ ∀ g, g ≠ s.cur → u.hart g = s.hart g
    (h.grouped [d] →
      loads (.vld d a m) unit ∧ loads (.vldff d a m) unit ∧ loads (.vlds d a b m) stride) ∧
    (h.grouped [d, b] →
      loads (.vlx d a b m) index ∧ loads (.vlxff d a b m) index ∧
      ∀ j, h.first < j → h.active m j = true → (∀ e, h.active m e = true → e < j → inPad (index e) n) →
        (∀ e, h.active m e = true → j ≤ e → 2 ^ 57 < index e + n) →
        ∃ h', exec (.vlxff d a b m) s = .next (s.setMe h') ∧
          h' = { h.past 4 false with
            v := h'.v, vl := BitVec.ofNat 23 j, ftrim := BitVec.ofNat 23 j, egops := h'.egops } ∧
          h.Writes h' t d (vtGroup h.vtype) (fun e => h.active m e && decide (e < j))
            (fun e => held (index e) n % 2 ^ codeWidth t)) ∧
    (let k := if h.first < vl then min (ceilDiv vl (vtBlock h.vtype)) h.wCodes else 0
     d.toNat < 8 → inPad (h.getX a).toNat k →
      ∃ h', exec (.vldScale d a) s = .next (s.setMe h') ∧ h' = { h.past 4 false with w := h'.w } ∧
        (∀ j, h'.wget d.toNat j = if j < k then held ((h.getX a).toNat + j) 1 else h.wget d.toNat j) ∧
        ∀ r, r < 8 → r ≠ d.toNat → h'.wreg r = h.wreg r) ∧
    (let k := if h.first < vl then ceilDiv vl 8 else 0
     d.toNat < 12 → inPad (h.getX a).toNat k →
      ∃ h', exec (.vldMask d a) s = .next (s.setMe h') ∧ h' = { h.past 4 false with m := h'.m } ∧
        h.Marks h' d.toNat (h.takesPart 12) (fun e => (held ((h.getX a).toNat + e / 8) 1).testBit (e % 8)))

/-- R84, R267 to R272. Vector stores. Where every active element lies in the valid bytes of the scratchpad, each of their bytes takes
its value from the last active element that covers it, and every other byte keeps its value; memory and the other cores do not
change. The stores of a scale and of a mask register write their bytes so. An element stored to memory that nothing stands in the
way of writes its bytes there and no other. -/
def Obligations.VectorStores : Prop :=
  ∀ (s : State) (d a b : BitVec 5) (m : BitVec 4), s.Inv → s.Calm → s.me.vtype.getLsbD 15 = false →
    codeClass (vtCode s.me.vtype) ≠ 10 → s.me.vl.toNat ≤ s.me.capacity →
    let h := s.me
    let t := vtCode h.vtype
    let n := codeBytes t
    let vl := h.vl.toNat
    let pad := s.core (s.cur / 4)
    let inPad (va k : Nat) : Prop :=
      Config.spadBase ≤ va ∧ va + k ≤ Config.spadBase + 8192 * pad.spbanks.toNat ∧ va + k ≤ 2 ^ 57
    let unit (e : Nat) : Nat := (h.getX a + BitVec.ofNat 64 (e * n)).toNat
    let stride (e : Nat) : Nat := (h.getX a + BitVec.ofNat 64 e * h.getX b).toNat
    let index (e : Nat) : Nat := (h.getX a + BitVec.ofNat 64 (h.elem b e)).toNat
    let data (e j : Nat) : Byte := BitVec.ofNat 8 (memCode t (h.elem d e) / 2 ^ (8 * j))
    let padded (u : State) : Prop :=
      u.me = (h.past 4 false).canon ∧ u.mem = s.mem ∧ u.lines = s.lines ∧ (∀ c, c ≠ s.cur / 4 → u.core c = s.core c) ∧
        ∀ g, g ≠ s.cur → u.hart g = s.hart g
    let stores (i : Instr) (va : Nat → Nat) : Prop :=
      let covers (e x : Nat) : Prop := h.active m e = true ∧ va e ≤ Config.spadBase + x ∧ Config.spadBase + x < va e + n
      ((∀ e, h.active m e = true → inPad (va e) n) →
        ∃ u, exec i s = .next u ∧ padded u ∧
          (∀ e x, covers e x → (∀ f, e < f → ¬ covers f x) →
            memByte (u.core (s.cur / 4)).spad x = data e (Config.spadBase + x - va e)) ∧
          ∀ x, (∀ e, ¬ covers e x) → memByte (u.core (s.cur / 4)).spad x = memByte pad.spad x) ∧
      ∀ (e : Nat) (l : Leaf), (∀ k, h.active m k = true ↔ k = e) → s.Opens .store (va e) n l →
        ∃ u, exec i s = .next u ∧ u.me = (h.past 4 false).canon ∧ (∀ j, j < n → u.byte (l.pa + j) = data e j) ∧
          (∀ x, x < l.pa ∨ l.pa + n ≤ x → u.byte x = s.byte x) ∧
          (∀ x, u.line x = { s.line x with ptag := (u.line x).ptag }) ∧ ∀ g, g ≠ s.cur → u.hart g = s.hart g
    let whole (i : Instr) (k : Nat) (byte : Nat → Byte) : Prop :=
      let va := (h.getX a).toNat
      inPad va k → ∃ u, exec i s = .next u ∧ padded u ∧
        ∀ x, memByte (u.core (s.cur / 4)).spad x =
          if va ≤ Config.spadBase + x ∧ Config.spadBase + x < va + k then byte (Config.spadBase + x - va) else memByte pad.spad x
    (h.grouped [d] → stores (.vst d a m) unit ∧ stores (.vsts d a b m) stride) ∧
    (h.grouped [d, b] → stores (.vsx d a b m) index) ∧
    whole (.vstScale d a) (if h.first < vl then min (ceilDiv vl (vtBlock h.vtype)) h.wCodes else 0)
      (fun j => BitVec.ofNat 8 (h.wget d.toNat j)) ∧
    whole (.vstMask d a) (if h.first < vl then ceilDiv vl 8 else 0)
      (fun j => BitVec.ofNat 8 (bitsGet (h.mreg d.toNat % 2 ^ vl) (8 * j) 8))

/-- R276, R277, R278, R279. One active element of a vector atomic at tier scope or wider, with any acquire and release marks, and one
of VSCADD, at an aligned address that nothing stands in the way of: the bytes take the operation's result from the old value and
the element, a floating-point VSCADD, which sets no flag whose trap is enabled, rounding the sum with the element's second rounding. An atomic's element of vd takes the old
value. Every other byte of memory and every other hart is unchanged. -/
def Obligations.VectorAtomics : Prop :=
  ∀ (s : State) (d a b : BitVec 5) (m : BitVec 4) (e : Nat) (l : Leaf), s.Inv → s.Lone → s.Settled →
    s.me.remote = [] → s.me.vtype.getLsbD 15 = false → s.me.vl.toNat ≤ s.me.capacity →
    (∀ k, s.me.active m k = true ↔ k = e) → (∀ k, s.me.takesPart m k = true → k = e) →
    let h := s.me
    let t := vtCode h.vtype
    let n := codeBytes t
    let w := codeWidth t
    let V (x : Nat) : Int := intOf true w x
    let wrote (u : State) (new : Nat) : Prop :=
      (∀ j, j < n → u.byte (l.pa + j) = BitVec.ofNat 8 (new / 2 ^ (8 * j))) ∧
        (∀ x, x < l.pa ∨ l.pa + n ≤ x → u.byte x = s.byte x) ∧ ∀ g, g ≠ s.cur → u.hart g = s.hart g
    let old := s.bytes l.pa n
    let held := h.elem d e
    (∀ (sc : BitVec 3) (q r : BitVec 1) (op : VOp), 2 ≤ sc.toNat → sc.toNat ≤ 6 → s.Opens .atomic (h.vget 7#8 b.toNat e) n l →
       h.vget 7#8 b.toNat e % n = 0 → s.Accepts (.vamoAdd d b m sc q r) op →
       let amo (i : Instr) (new : Nat) : Prop :=
         ∃ u h', exec i s = .next u ∧ u.me = h'.canon ∧ h' = { h.past 4 false with v := h'.v } ∧
           h.Writes h' t d (vtGroup h.vtype) (h.active m) (fun _ => old) ∧ wrote u new
       amo (.vamoAdd d b m sc q r) ((old + held) % 2 ^ w) ∧
       amo (.vamoAnd d b m sc q r) (old &&& held) ∧
       amo (.vamoOr d b m sc q r) (old ||| held) ∧
       amo (.vamoXor d b m sc q r) (old ^^^ held) ∧
       amo (.vamoMin d b m sc q r) (if V old ≤ V held then old else held) ∧
       amo (.vamoMax d b m sc q r) (if V old ≤ V held then held else old) ∧
       amo (.vamoMinn d b m sc q r) (if old ≤ held then old else held) ∧
       amo (.vamoMaxn d b m sc q r) (if old ≤ held then held else old) ∧
       amo (.vamoSwap d b m sc q r) held) ∧
    (h.grouped [d, b] →
      let va := (h.getX a + BitVec.ofNat 64 (h.elem b e)).toNat
      s.Opens .atomic va n l → va % n = 0 →
      (codeClass t ≤ 9 →
        ∃ u, exec (.vscadd d a b m) s = .next u ∧ u.me = (h.past 4 false).canon ∧
          wrote u ((old + memCode t held) % 2 ^ (8 * n))) ∧
      (codeClass t = 11 → 5 ≤ codeSub t → codeSub t ≤ 8 →
        let F := codeFmt t
        let sum := F.finish (h.rndAt e 1) (fAdd (bitsGet h.rmode.toNat 0 3 == 4) (F.decode old) (F.decode held))
        h.untrapped sum.2 → ∃ u, exec (.vscadd d a b m) s = .next u ∧ u.me = ((h.past 4 true).orFlags sum.2).canon ∧ wrote u sum.1))

/-! ### Pointers and forwarding -/

/-- R275. VXLATE writes for each active element the physical address that a program load would find, or 0 and a mask bit of 1 where the
walk fails or waits on MIG or the address lies in the scratchpad window or outside the 57-bit space; no A or D bit is set and nothing
else changes. VXLATEFF does the same, but at the lowest active element whose walk gives XLATE_NONE it cuts VL and FTRIM, and performs
the elements below it alone. -/
def Obligations.VectorTranslations : Prop :=
  ∀ (s : State) (d a b : BitVec 5) (m : BitVec 4), s.Inv → s.Lone → s.me.vtype.getLsbD 15 = false →
    (codeClass (vtCode s.me.vtype) = 3 ∨ codeClass (vtCode s.me.vtype) = 7) → s.me.vl.toNat ≤ s.me.capacity →
    s.me.grouped [d, a] → b.toNat < 12 →
    let h := s.me
    let t := vtCode h.vtype
    let w := s.walker s.cur
    let found (e : Nat) : Option Nat :=
      if h.elem a e < Config.spadBase then
        match walk s w .load (h.elem a e) with
        | .ok l => some (l.pa % 2 ^ 54)
        | _ => none
      else none
    let absent (e : Nat) : Prop :=
      2 ^ 57 ≤ h.elem a e ∨ (h.elem a e < Config.spadBase ∧ walk s w .load (h.elem a e) = .fault .xlateNone)
    let gives (i : Instr) (on : Nat → Bool) (cut : Option Nat) : Prop :=
      ∃ h', exec i s = .next (s.setMe h') ∧
        h' = { h.past 4 false with v := h'.v, m := h'.m, vl := h'.vl, ftrim := h'.ftrim, egops := h'.egops } ∧
        (cut = none → h'.vl = h.vl ∧ h'.ftrim = h.ftrim ∧ h'.egops = (h.past 4 false).egops) ∧
        (∀ j, cut = some j → h'.vl.toNat = j ∧ h'.ftrim.toNat = j) ∧
        h.Writes h' t d (vtGroup h.vtype) on (fun e => (found e).getD 0) ∧ h.Marks h' b.toNat on (fun e => (found e).isNone)
    gives (.vxlate d a b m) (h.active m) none ∧
    ((∀ e, h.active m e = true → ¬ absent e) → gives (.vxlateff d a b m) (h.active m) none) ∧
    ∀ j, h.active m j = true → absent j → (∀ e, h.active m e = true → e < j → ¬ absent e) →
      gives (.vxlateff d a b m) (fun e => h.active m e && decide (e < j)) (some j)

/-- R141, R285, R286, R287. Pointers. Those to lines with no record resolve to themselves: FWDRES and FWDRESFF write the pointer, PCMPR
whether its two pointers are equal, and FWDPATH changes nothing. A pointer to a line whose good record leads to a line with none
resolves there, with one hop counted. FWDPATH on a chain of two hops replaces the first record by one to the last line. The hops
lie in no region here. -/
def Obligations.PointerResults : Prop :=
  ∀ (s : State) (d a b : BitVec 5) (m : BitVec 4) (e : Nat) (l n : Leaf), s.Inv → s.Calm → s.me.vtype.getLsbD 15 = false →
    (codeClass (vtCode s.me.vtype) = 3 ∨ codeClass (vtCode s.me.vtype) = 7) → s.me.vl.toNat ≤ s.me.capacity →
    (∀ k, s.me.active m k = true ↔ k = e) →
    let h := s.me
    let t := vtCode h.vtype
    let same (u : State) : Prop := u.mem = s.mem ∧ u.lines = s.lines ∧ ∀ g, g ≠ s.cur → u.hart g = s.hart g
    let resolves (i : Instr) (x hops : Nat) : Prop :=
      ∃ u h', exec i s = .next u ∧ u.me = h'.canon ∧
        h' = { h.past 4 false with v := h'.v, fwdhops := h.fwdhops + BitVec.ofNat 64 hops } ∧
        h.Writes h' t d (vtGroup h.vtype) (h.active m) (fun _ => x) ∧ same u
    let compares (i : Instr) (v : Bool) (hops : Nat) : Prop :=
      ∃ u h', exec i s = .next u ∧ u.me = h'.canon ∧
        h' = { h.past 4 false with m := h'.m, fwdhops := h.fwdhops + BitVec.ofNat 64 hops } ∧
        h.Marks h' d.toNat (h.active m) (fun _ => v) ∧ same u
    let alone (u : State) : Prop := ∃ q, u.TableHolds h.partid.toNat q ∧ ∀ va, regionIn q va (List.range 1024) = none
    let p := h.elem a e
    let q := h.elem b e
    (h.grouped [d, a] →
      (s.Opens .load p 1 l → resolves (.fwdres d a m) p 0 ∧ resolves (.fwdresff d a m) p 0) ∧
      ∀ x, s.Hops .load p l x → s.Opens .load x 1 n → alone s →
        resolves (.fwdres d a m) x 1 ∧ resolves (.fwdresff d a m) x 1) ∧
    (h.grouped [a, b] → d.toNat < 12 →
      (s.Opens .load p 1 l → s.Opens .load q 1 n → compares (.pcmpr d a b m) (decide (p = q)) 0) ∧
      ∀ x, s.Hops .load p l x → s.Opens .load q 1 n → x = q → alone s → compares (.pcmpr d a b m) true 1) ∧
    (h.grouped [a] →
      let va := p / 128 * 128
      (s.Opens .path va 128 l → ∃ u, exec (.fwdpath a m) s = .next u ∧ u.me = (h.past 4 false).canon ∧ same u) ∧
      ∀ (x y : Nat) (o : Leaf) (u : State), s.Hops .path va l x → s.Hops .load x n y → s.Opens .load y 1 o → h.fwdlim ≠ 1 →
        leafMarked (s.bytes l.line 128) l.idx true = s.bytes l.line 128 →
        Gives (homeWrite l.pa 128 (fwdRecord y h.partid.toNat)) s () u → alone u →
        ∃ v, exec (.fwdpath a m) s = .next v ∧ v.me = ({ h.past 4 false with fwdhops := h.fwdhops + 2 } : Hart).canon ∧
          v.mem = u.mem ∧ v.bytes l.pa 128 = fwdRecord y h.partid.toNat ∧
          ∀ k, k < l.pa ∨ l.pa + 128 ≤ k → v.byte k = s.byte k)

/-- R101, R282, R283. FWDMOVE of one active element, from a line in an ACTIVE region to one that nothing stands in the way of: the move
begins and completes, and the region's MOVES is counted. The move passes the line's bytes to the destination, leaves the record of
the new address in the source, which is FORWARD, and changes no other byte.

R144, R145, R288. FWDRECL.TOMB of a region whose pages the walks find, its accesses no matter, makes its STATE TOMB and its FORWARD
lines TOMBSTONE, and changes nothing where it is TOMB already. FWDRECL makes it RECLAIM; with no access and no move of the partition
under way it then ends at once: every record line in the region's pages is NORMAL, and the region is free. -/
def Obligations.LinesForwardedAndReclaimed : Prop :=
  ((∀ (s : State) (a b : BitVec 5) (m : BitVec 4) (e : Nat) (l n : Leaf) (t : Bits) (r : Region) (u v w : State), s.Inv → s.Calm →
      s.me.vtype.getLsbD 15 = false → (codeClass (vtCode s.me.vtype) = 3 ∨ codeClass (vtCode s.me.vtype) = 7) →
      s.me.vl.toNat ≤ s.me.capacity → s.me.grouped [a, b] → (∀ k, s.me.active m k = true ↔ k = e) → s.lag.moves = false →
      let h := s.me
      let p := h.partid.toNat
      let src := h.elem a e
      let dst := h.elem b e
      let tag := (s.line (n.pa / 128)).ptag
      src % 128 = 0 → dst % 128 = 0 → s.Opens .atomic src 128 l → s.Opens .store dst 128 n → l.pa ≠ n.pa → (tag = 127 ∨ tag = p) →
      s.TableHolds p t → regionIn t src (List.range 1024) = some r → r.st = 1 →
      (∀ f : Hart, Gives (moveBegin (l.pa / 128) (n.pa / 128) dst p) (s.setMe f) () (u.setMe f)) →
      (∀ f : Hart, Gives (moveDone (l.pa / 128) (n.pa / 128) dst p) (u.setMe f) true (v.setMe f)) →
      (∀ f : Hart, Gives (countMove s.cur p src) (v.setMe f) () (w.setMe f)) →
      ∃ x, exec (.fwdmove a b m) s = .next x ∧ x.me = (h.past 4 false).canon ∧ x.mem = w.mem ∧ x.lines = w.lines) ∧
   ∀ (s : State) (src dst newva p : Nat), s.Inv → src ≠ dst → 128 * src + 128 ≤ Config.localBytes →
     128 * dst + 128 ≤ Config.localBytes → p < 128 → s.reclaims = [] →
     (s.line src).poison = false → (∀ c x, tabFind (s.cluster c) src = some x → x.st ≠ .l) →
     (∀ c x, tabFind (s.cluster c) dst = some x → x.st ≠ .l) →
     ∃ u v, Gives (moveBegin src dst newva p) s () u ∧ Gives (moveDone src dst newva p) u true v ∧
       u.mem = s.mem ∧ (u.line src).st = 1 ∧ (u.line dst).reserved = true ∧
       v.bytes (128 * dst) 128 = s.bytes (128 * src) 128 ∧ v.bytes (128 * src) 128 = fwdRecord newva p ∧
       (v.line src).mark = true ∧ (v.line src).st = 2 ∧ (v.line dst).reserved = false ∧
       ∀ k, k / 128 ≠ src → k / 128 ≠ dst → v.byte k = s.byte k) ∧
  ∀ (s : State) (a : BitVec 5) (t : Bits) (r : Region) (ls : List (Nat × Leaf)), s.Inv → s.Calm →
    s.me.vtype.getLsbD 15 = false → (codeClass (vtCode s.me.vtype) = 3 ∨ codeClass (vtCode s.me.vtype) = 7) →
    let h := s.me
    let p := h.partid.toNat
    let w := s.walker s.cur
    let state := (s.part p).relbase + 32 * r.idx + 8
    let frames := ls.map (fun e => (e.2.pa, 65536))
    s.TableHolds p t → VCtx.namedRegion t (h.getX a) = some r → r.st ≠ 4 →
    regionLeaves s w (pagesOf s w r.base r.lsize) = .ok ls →
    (∀ e ∈ ls, leafMarked (s.bytes e.2.line 128) e.2.idx true = s.bytes e.2.line 128) →
    (r.st = 3 → exec (.fwdreclTomb a) s = .next (s.setMe (h.past 4 false))) ∧
    (∀ u : State, r.st ≠ 3 → u = { s with mem := u.mem, lines := u.lines } → (∀ f : Hart, Gives (needWrite s.cur p state 1 3) (s.setMe f) () (u.setMe f)) →
      ∃ x, exec (.fwdreclTomb a) s = .next x ∧ x.me = (h.past 4 false).canon ∧ x.mem = u.mem ∧
        ∀ n, x.line n = if n ∈ markedLines s frames [2] then { u.line n with st := 3 } else u.line n) ∧
    ∀ u v : State, s.lag.reclaim = false → s.reclaims = [] → begunAccesses s p = [] → markedLines u frames [1] = [] →
      u = { s with mem := u.mem, lines := u.lines } →
      (∀ f : Hart, Gives (needWrite s.cur p state 1 4) (s.setMe f) () (u.setMe f)) →
      (∀ f : Hart, Gives (reclaimFinish { part := p, idx := r.idx, frames := frames, awaited := [] })
        (Prim.apply (u.setMe f) (.reclaims [{ part := p, idx := r.idx, frames := frames, awaited := [] }])) () (v.setMe f)) →
      v.reclaims = [] →
      ∃ x, exec (.fwdrecl a) s = .next x ∧ x.me = (h.past 4 false).canon ∧ x.mem = v.mem ∧ x.lines = v.lines ∧
        ∀ n ∈ markedLines u frames [2, 3], (x.line n).st = 0 ∧ (x.line n).mark = false

/-! ### Copy channels, streams, broadcast writes and fences of the vector side -/

/-- R289, R290, R291. CPCFG with VL 0 does nothing else; with a descriptor that nothing stands in the way of reading, that is not refused
and does not name the scratchpad, the channel takes it, with the captured type, mode and seed, VL as the length of a strip and strips
0 to 3 released, and its ranges enter the interlock table. CPSTEP retires a strip, CPLAND gives x[d] the landed count, and CPWAIT on
a channel that is not active completes. -/
def Obligations.CopyChannels : Prop :=
  (∀ (s : State) (d c : BitVec 5), s.Lone → c.toNat < 4 →
     let g := s.me.past 4 false
     exec (.cpstep c) s = .next (s.setMe (g.setChan c.toNat (g.chan c.toNat).retireStrip)) ∧
     exec (.cpland d c) s = .next (s.setMe ((s.me.setX d (BitVec.ofNat 64 (s.me.chan c.toNat).land)).past 4 false)) ∧
     (s.Inv → (g.chan c.toNat).active = false → exec (.cpwait c) s = .next (s.setMe g))) ∧
  ∀ (s : State) (a c : BitVec 5) (t : BitVec 8) (l : Leaf), s.Inv → s.Calm → c.toNat < 4 →
    let h := s.me
    let g := h.past 4 true
    (h.vl = 0 → exec (.cpcfg a c t) s = .next (s.setMe g)) ∧
    (h.vl ≠ 0 → s.Opens .load (h.getX a).toNat 40 l →
      let x := s.bytes l.pa 40
      let new : Chan := { Chan.reset with
        desc := Vector.ofFn (fun (k : Fin 5) => BitVec.ofNat 64 (bitsGet x (64 * k.val) 64))
        typ := t
        mode := h.rmode.extractLsb' 0 3
        seed := h.rmode.extractLsb' 32 32
        active := true
        exp := h.vl
        released := 4
        cfgPc := h.pc }
      new.bad = false → new.inWindow = none →
      ∃ u, exec (.cpcfg a c t) s = .next u ∧ u.me = ((g.setChan c.toNat new).setRanges c.toNat).canon ∧ u.mem = s.mem ∧
        u.lines = s.lines ∧ ∀ k, k ≠ s.cur → u.hart k = s.hart k)

/-- R324, R327. SOPEN that nothing refuses opens a stream from register k of the member that x[a] names into vd, with nothing written or
read. SCLOSE of a stream's register closes the stream and zeroes the register; on one that receives no stream it does nothing
else. -/
def Obligations.StreamsOpenAndClose : Prop :=
  (∀ (s : State) (d a k : BitVec 5) (gg : Nat) (x : Gang), s.Inv → s.Lone → s.gangOf s.cur = some (gg, x) →
     d.toNat < s.me.named →
     let n := (s.me.getX a).toNat
     sopenFault s s.cur x n k.toNat d.toNat = none →
     ∃ t, exec (.sopen d a k) s = .next t ∧ t.me = (s.me.past 4 false).canon ∧ t.mem = s.mem ∧
       (∀ g, g ≠ s.cur → t.hart g = s.hart g) ∧
       tabFind t.gangs gg = some { x with streams := [
         { prod := n, k := k.toNat, cons := s.me.index, vd := d.toNat, written := 0, read := 0, item := none, done := false }] }) ∧
  ∀ (s : State) (d : BitVec 5), s.Inv → s.Idle → d.toNat < s.me.named →
    ((∀ gg x, s.gangOf s.cur = some (gg, x) → x.into s.me.index d.toNat = none) →
      exec (.sclose d) s = .next (s.setMe (s.me.past 4 false))) ∧
    ∀ (gg : Nat) (x : Gang), s.gangOf s.cur = some (gg, x) → (x.into s.me.index d.toNat).isSome = true →
      ∃ t, exec (.sclose d) s = .next t ∧ t.me = ((s.me.past 4 false).setVreg d.toNat 0).canon ∧ t.mem = s.mem ∧
        tabFind t.gangs gg = some (x.dropStream s.me.index d.toNat)

/-- R172, R280, R328, R329. FENCE.SV and FENCE.VV when nothing of the hart is left to wait for: they complete, the core's L1 empties at
cluster scope or wider, its scalar cache stays, and memory is unchanged. A BST to a broadcast block of the hart's tower, in either
form, queues one write of the block with the word's bit set and its data in the word's place, and counts it; no memory changes. -/
def Obligations.VectorFencesAndBroadcasts : Prop :=
  ∀ s : State, s.Inv → s.Lone → s.Settled → s.me.remote = [] →
    let h := s.me
    let core := s.core (s.cur / 4)
    (∀ sc : BitVec 3,
      let done (i : Instr) : Prop :=
        ∃ t, exec i s = .next t ∧ t.me = (h.past 4 false).canon ∧ t.mem = s.mem ∧
          t.core (s.cur / 4) = { core with l1 := if 1 ≤ sc.toNat then [] else core.l1 }
      done (.fenceSv sc) ∧ done (.fenceVv sc)) ∧
    ∀ (d a b : BitVec 5) (m : BitVec 4) (l : Leaf) (va i k : Nat), s.cur < 1536 →
      let p := h.partid.toNat
      let queued := tabGet [] (s.tier (tierOf s.cur)).tx p
      let reaches : Prop :=
        va % 8 = 0 ∧ va + 8 ≤ Config.spadBase ∧ walk s (s.walker s.cur) .bst va = .ok l ∧
          leafMarked (s.bytes l.line 128) l.idx true = s.bytes l.line 128 ∧ localOf l.pa < Config.localBytes ∧
          VCtx.blockOf s s.cur l.pa = some (i, k) ∧ queued.length < 64
      let sends (j : Instr) (word data : Nat) : Prop :=
        ∃ t, exec j s = .next t ∧ t.mem = s.mem ∧
          t.me = ({ h.past 4 false with bstQueued := h.bstQueued + 1 } : Hart).canon ∧
          tabGet [] (t.tier (tierOf s.cur)).tx p =
            queued ++ [{ hart := s.cur, what := .block i (2 ^ word) (data * 2 ^ (64 * word)) }]
      (va = (h.getX a).toNat → reaches → k < 64 → sends (.bstScalar a b) k (h.getX b).toNat) ∧
      ∀ e, h.vtype.getLsbD 15 = false → (codeClass (vtCode h.vtype) = 3 ∨ codeClass (vtCode h.vtype) = 7 ∨ vtCode h.vtype = 0x8B) →
        h.vl.toNat ≤ h.capacity → h.grouped [d] → (∀ n, h.active m n = true ↔ n = e) →
        va = (h.getX a + BitVec.ofNat 64 (8 * e)).toNat → reaches → sends (.bstVector d a m) (va % 512 / 8) (h.elem d e)

/-! ### Matrix and narrow formats -/

/-- R53, R54, R297 to R302. MOPA that the queue accepts, of two integer formats: every granted cell takes its old value plus the sum of
the products over TILEK, modulo 2^32, or with saturation block by block of 16. Of formats of which one is floating point, with TILEK 16,
where no flag that a cell sets has its trap enabled: the old value plus the exact products, rounded once. MZERO and MFILL give every granted cell 0, or x[a]
modulo 2^32. MDRAIN to the scratchpad stores columns of cells 4 bytes wide with x[b] from row to row, where no two cells' bytes
meet; MRDROW reads row x[b] into a vector group. Nothing else changes but MXCYC. -/
def Obligations.MatrixResults : Prop :=
  (∀ (s : State) (d : BitVec 2) (a b : BitVec 5) (ta tb : BitVec 8) (sa sb : BitVec 3) (scl : Bool), s.Inv → s.Lone →
     s.sg s.cur = s.me.lay → s.me.first < s.me.vl.toNat →
     let h := s.me
     let K := h.tilek.toNat
     let D : BitVec 5 := d.zeroExtend 5
     let runs (sat : Bool) (rounds : Bool) (flags : Nat) (cell : Nat → Nat → Nat) : Prop :=
       ∃ h', exec (.mopa D a b ta tb sa sb sat scl) s = .next (s.setMe h') ∧
         h' = { (h.past 8 rounds).orFlags flags with a := h'.a, mxcyc := h'.mxcyc } ∧
         (∀ i j, i < h.tilem.toNat → j < h.tilen.toNat → h'.cell d.toNat i j = cell i j) ∧
         ∀ r, r < 4 → r ≠ d.toNat → h'.tile r = h.tile r
     (∀ op, s.Accepts (.mopa D a b ta tb sa sb false scl) op → codeFloat ta = false → codeFloat tb = false →
       let term (i j k : Nat) : Int :=
         intValue ta (h.vget ta a.toNat (i * K + k)) * intValue tb (h.vget tb b.toNat (j * K + k))
       let part (i j q : Nat) : Int := ((List.range (min 16 (K - 16 * q))).map (fun k => term i j (16 * q + k))).sum
       runs false false 0 (fun i j => (((h.cell d.toNat i j : Int) + ((List.range K).map (term i j)).sum) % 2 ^ 32).toNat) ∧
       runs true false 0 (fun i j => ((List.range ((K + 15) / 16)).foldl (fun acc q =>
         max (-2 ^ 31) (min (2 ^ 31 - 1) (acc + part i j q))) (intOf true 32 (h.cell d.toNat i j)) % 2 ^ 32).toNat)) ∧
     (∀ op, s.Accepts (.mopa D a b ta tb sa sb false false) op → (codeFloat ta || codeFloat tb) = true → K = 16 → scl = false →
       let prod (i j k : Nat) : FVal := (fMul (valueOf ta (h.vget ta a.toNat (i * K + k))) (valueOf tb (h.vget tb b.toNat (j * K + k)))).val
       let r (i j : Nat) : Nat × Nat :=
         f32.finish (h.rndAt (128 * i + j) 0)
           (blockSum (bitsGet h.rmode.toNat 0 3 == 4) (f32.decode (h.cell d.toNat i j)) ((List.range 16).map (prod i j)))
       (∀ i j, i < h.tilem.toNat → j < h.tilen.toNat → h.untrapped (r i j).2) →
       ∃ flags, runs false true flags (fun i j => (r i j).1) ∧
         ∀ k, flags.testBit k = true ↔ ∃ i j, i < h.tilem.toNat ∧ j < h.tilen.toNat ∧ (r i j).2.testBit k = true)) ∧
  ∀ (s : State) (d : BitVec 2) (a b : BitVec 5) (m : BitVec 4) (ta : BitVec 8), s.Inv → s.Calm →
    s.me.vtype.getLsbD 15 = false →
    let h := s.me
    let D : BitVec 5 := d.zeroExtend 5
    let rows := h.tilem.toNat
    let cols := h.tilen.toNat
    (h.first < h.vl.toNat →
      let fills (i : Instr) (v : Nat) : Prop :=
        ∃ h', exec i s = .next (s.setMe h') ∧ h' = { h.past 8 false with a := h'.a } ∧
          (∀ i j, i < rows → j < cols → h'.cell d.toNat i j = v) ∧ ∀ r, r < 4 → r ≠ d.toNat → h'.tile r = h.tile r
      fills (.mzero D) 0 ∧ fills (.mfill D a) ((h.getX a).toNat % 2 ^ 32)) ∧
    (let va (i j : Nat) : Nat := (h.getX a + BitVec.ofNat 64 i * h.getX b + BitVec.ofNat 64 (4 * j)).toNat
     let on (i j : Nat) : Prop := i < rows ∧ j < cols ∧ h.active m j = true
     let pad := s.core (s.cur / 4)
     (∀ i j, on i j → Config.spadBase ≤ va i j ∧ va i j + 4 ≤ Config.spadBase + 8192 * pad.spbanks.toNat ∧ va i j + 4 ≤ 2 ^ 57) →
     (∀ i j i' j', on i j → on i' j' → (i ≠ i' ∨ j ≠ j') → va i j + 4 ≤ va i' j' ∨ va i' j' + 4 ≤ va i j) →
     ∃ u, exec (.mdrain D a b m ta) s = .next u ∧ u.me = (h.past 8 false).canon ∧ u.mem = s.mem ∧
       (∀ i j k, on i j → k < 4 → memByte (u.core (s.cur / 4)).spad (va i j - Config.spadBase + k) =
         BitVec.ofNat 8 (h.cell d.toNat i j / 2 ^ (8 * k))) ∧
       ∀ x, (∀ i j, on i j → Config.spadBase + x < va i j ∨ va i j + 4 ≤ Config.spadBase + x) →
         memByte (u.core (s.cur / 4)).spad x = memByte pad.spad x) ∧
    ((codeClass (vtCode h.vtype) = 2 ∨ codeClass (vtCode h.vtype) = 6 ∨ vtCode h.vtype = 0x7B) → h.vl.toNat ≤ h.capacity →
      h.grouped [b] →
      let r := (h.getX a).toNat
      ∃ h', exec (.mrdrow b D a ta) s = .next (s.setMe h') ∧ h' = { h.past 8 false with v := h'.v } ∧
        h.Writes h' (vtCode h.vtype) b (vtGroup h.vtype) (h.active 12) (fun j =>
          if r < rows ∧ j < cols then h.cell d.toNat r j else 0))

/-- R43, R303 to R307. Narrow formats, for instructions that the queue accepts and that set no flag whose trap is enabled. VCVTN divides
each active element by its block's scale, VCVTW multiplies it, and each rounds once; without scales the element is converted alone.
VSCALE gives the scale code of each block of its source to its own register. VHAD gives each active element its value of the transform
of its block, each stage of it rounded to FP32 to nearest, converted by one rounding more. Nothing else changes but FFLAGS. -/
def Obligations.NarrowFormats : Prop :=
  ∀ (s : State) (d a : BitVec 5) (m : BitVec 4) (ta tb : BitVec 8) (sa : BitVec 3), s.Inv → s.Lone → s.me.lay % 8 = 0 →
    s.sg s.cur = s.me.lay → s.me.vl.toNat ≤ s.me.capacity →
    let h := s.me
    let group (t : BitVec 8) : Nat := mvlOf h.lay (codeWidth t) (vtGroup h.vtype)
    let scale (i : Nat) : FVal := scaleValue (vtE4m3 h.vtype) (h.wget sa.toNat (i / vtBlock h.vtype))
    let writes (i : Instr) (src dst : BitVec 8) (f : Nat → Ex) : Prop :=
      ∀ op, s.Accepts i op →
        let on (e : Nat) : Bool := h.active m e && decide (e < group src)
        let r (e : Nat) : Nat × Nat := writeAs dst (h.rndAt e 0) (f e)
        (∀ e, on e = true → h.untrapped (r e).2) →
        ∃ h' k, exec i s = .next (s.setMe h') ∧ h' = { h.past 8 true with v := h'.v, fflags := h'.fflags } ∧
          (k = 1 ∨ k = 2 ∨ k = 4 ∨ k = 8) ∧ group src ≤ mvlOf h.lay (codeWidth dst) k ∧
          h.Writes h' dst d k on (fun e => (r e).1) ∧ h.Flags h' on (fun e => (r e).2)
    let wide (e : Nat) : FVal := valueOf tb (h.vget tb a.toNat e)
    let small (e : Nat) : FVal := valueOf ta (h.vget ta a.toNat e)
    writes (.vcvtn d a m ta tb sa false) tb ta (fun e => { val := wide e, flags := sigFlag (wide e) }) ∧
    writes (.vcvtn d a m ta tb sa true) tb ta (fun e =>
      let q := unscaled (wide e) (scale e)
      { q with flags := q.flags ||| sigFlag (wide e) }) ∧
    writes (.vcvtw d a m ta tb sa false) ta tb (fun e => { val := small e, flags := sigFlag (small e) }) ∧
    writes (.vcvtw d a m ta tb sa true) ta tb (fun e =>
      match scale e, small e with
      | .num _ 0 _ _, .inf _ => exact (.nan false)
      | z, x => scaled x z) ∧
    (∀ op, s.Accepts (.vscale d a ta tb) op → d.toNat < 8 →
      let n := if h.first < h.vl.toNat then min h.vl.toNat (group tb) else 0
      let B := vtBlock h.vtype
      let code (q : Nat) : Nat × Nat := VCtx.scaleCode (vtE4m3 h.vtype) ta
        ((List.range (min B (n - B * q))).map (fun k => wide (B * q + k)))
      (∀ q, B * q < n → h.untrapped (code q).2) →
      ∃ h', exec (.vscale d a ta tb) s = .next (s.setMe h') ∧ h' = { h.past 8 false with w := h'.w, fflags := h'.fflags } ∧
        (∀ q, h'.wget d.toNat q = if B * q < n ∧ q < h.wCodes then (code q).1 else h.wget d.toNat q) ∧
        (∀ r, r < 8 → r ≠ d.toNat → h'.wreg r = h.wreg r) ∧
        h.Flags h' (fun q => decide (B * q < n)) (fun q => (code q).2)) ∧
    ∀ (g : BitVec 4) (op : VOp), s.Accepts (.vhad d a m ta tb g) op → 1 ≤ g.toNat → g.toNat ≤ 7 →
      let n := if h.first < h.vl.toNat then min h.vl.toNat (group tb) else 0
      let x (i : Nat) : Nat := if n ≤ i then 0 else if codeSub tb = 7 then h.vget tb a.toNat i else 2 ^ 16 * h.vget tb a.toNat i
      let on (e : Nat) : Bool := h.takesPart m e && decide (e < n)
      let r (e : Nat) : Nat × Nat := writeAs ta (h.rndAt e 0) (exact (f32.decode (hadamard x g.toNat e).1))
      let sets (k : Nat) : Prop :=
        (∃ t i, t < g.toNat ∧ i / 2 ^ g.toNat * 2 ^ g.toNat < n ∧ (hadamard x (t + 1) i).2.testBit k = true) ∨
          ∃ e, on e = true ∧ (r e).2.testBit k = true
      (∀ k, sets k → (trapEnables h.rmode).testBit k = false) →
      ∃ h' k, exec (.vhad d a m ta tb g) s = .next (s.setMe h') ∧
        h' = { h.past 8 true with v := h'.v, fflags := h'.fflags } ∧
        (k = 1 ∨ k = 2 ∨ k = 4 ∨ k = 8) ∧ group tb ≤ mvlOf h.lay (codeWidth ta) k ∧
        h.Writes h' ta d k on (fun e => (r e).1) ∧
        ∀ k, k < 5 → (h'.fflags.getLsbD k = true ↔ h.fflags.getLsbD k = true ∨ sets k)

/-! ### Histories -/

/-- R308 to R312, R316. XCFG of a word that is not refused, with room in the core's history store: the register takes it, with VL
elements, or none for DEPTH 0, all blank. XCKPT appends each active element, a NaN as the canonical one, dropping the oldest entry
beyond DEPTH, and STAG says whether the newest two are equal. XCKPT and XDRAIN complete so where no flag that they set has its trap
enabled. XDRAIN gives each active element its estimate: 0 with no entries, the newest entry where STAG is
set, else the mode's; it keeps it in PREV, sets NZD, CONV and DIV, and counts fallbacks. XSTAT copies a flag into a mask, and XCLR
makes every element blank. The last part is AITKEN's estimate from three entries whose second difference is not too small. -/
def Obligations.HistoryResults : Prop :=
  (∀ (s : State) (d : BitVec 2) (a : BitVec 5) (m : BitVec 4) (r : BitVec 5), s.Inv → s.Lone → s.me.vtype.getLsbD 15 = false →
     s.me.first < s.me.vl.toNat → s.me.vl.toNat ≤ s.me.capacity →
     let h := s.me
     let t := vtCode h.vtype
     let D : BitVec 5 := d.zeroExtend 5
     let x := h.hist d.toNat
     let F := x.fmt
     let others (h' : Hart) : Prop := ∀ k, k < 4 → k ≠ d.toNat → h'.hist k = h.hist k
     (let w := h.getX a
      let new : Hist := { cfg := w, nel := h.vl.toNat, elems := [] }
      Hist.bad w = false → new.bytes + s.histBytes s.cur (some d.toNat) ≤ 65536 →
      let n := if w.toNat % 16 = 0 then 0 else h.vl.toNat
      exec (.xcfg D a) s = .next (s.setMe ((h.past 8 false).setHist d.toNat
        { cfg := w, nel := n, elems := List.replicate n { entries := [], prev := none, nzd := false, stag := false,
                                                          conv := false, div := false } }))) ∧
     exec (.xclr D) s = .next (s.setMe ((h.past 8 false).setHist d.toNat
       { x with elems := List.replicate x.nel { entries := [], prev := none, nzd := false, stag := false,
                                                conv := false, div := false } })) ∧
     (r.toNat < 12 →
       let copies (f : BitVec 2) (flag : HistElem → Bool) : Prop :=
         ∃ h', exec (.xstat r D m f) s = .next (s.setMe h') ∧ h' = { h.past 8 false with m := h'.m } ∧
           h.Marks h' r.toNat (h.active m) (fun e => decide (e < x.nel) && flag (x.elem e))
       copies 0 (fun e => e.nzd) ∧ copies 1 (fun e => e.stag) ∧ copies 2 (fun e => e.conv) ∧ copies 3 (fun e => e.div)) ∧
     (t = x.code → x.elems.length = x.nel →
       (h.grouped [a] →
         let enters (e : Nat) : Bool := h.active m e && decide (e < x.nel)
         (∀ e, enters e = true → h.untrapped (sigFlag (F.decode (h.elem a e)))) →
         ∃ h', exec (.xckpt D a m) s = .next (s.setMe h') ∧ h' = { h.past 8 true with e := h'.e, fflags := h'.fflags } ∧
           others h' ∧ h.Flags h' enters (fun e => sigFlag (F.decode (h.elem a e))) ∧
           (h'.hist d.toNat).cfg = x.cfg ∧ (h'.hist d.toNat).nel = x.nel ∧
           ∀ e, (h'.hist d.toNat).elem e =
             if enters e then
               let v := match F.decode (h.elem a e) with
                 | .nan _ => F.nanCode
                 | _ => h.elem a e
               let all := (x.elem e).entries ++ [v]
               let kept := if x.depth < all.length then all.tail else all
               { x.elem e with
                 entries := kept
                 stag := match kept.reverse with
                   | u :: v :: _ => fCmp (F.decode v) (F.decode u) == some .eq
                   | _ => false }
             else x.elem e) ∧
       (h.grouped [r] →
         let has (e : Nat) : Bool := h.active m e && decide (e < x.nel) && !(x.elem e).entries.isEmpty
         let y (e : Nat) : Estimate := estimate x (bitsGet h.rmode.toNat 0 3 == 4) (h.rndAt e) 0 (x.elem e)
         (∀ e, has e = true → h.untrapped (y e).2.2.fl) →
         ∃ h', exec (.xdrain r D m) s = .next (s.setMe h') ∧
           h' = { h.past 8 true with
             v := h'.v, e := h'.e, fflags := h'.fflags
             xfallbk := h.xfallbk + BitVec.ofNat 64 ((List.range h.vl.toNat).countP (fun e => has e && (y e).2.1)) } ∧
           h.Writes h' t r (vtGroup h.vtype) (h.active m) (fun e => if has e then (y e).1 else 0) ∧
           h.Flags h' has (fun e => (y e).2.2.fl) ∧ others h' ∧
           (∀ e, (h'.hist d.toNat).elem e =
             if has e then
               { x.elem e with
                 prev := some (y e).1, nzd := (y e).2.1, div := diverges x (x.elem e) (y e).1
                 conv := converges x (x.elem e) (y e).1 }
             else x.elem e) ∧
           ∀ e, has e = true → (x.elem e).stag = true → (y e).1 = (x.elem e).entries.getLastD 0))) ∧
  ∀ (x : Hist) (down : Bool) (rd : Nat → Rnd) (ten a b c : Nat) (older : List Nat) (e : HistElem),
    let F := x.fmt
    let op (n : Nat) (f : FVal → FVal → Ex) (u v : Nat) : Nat := (F.finish (rd n) (f (F.decode u) (F.decode v))).1
    x.mode = 0 → e.stag = false → e.entries = older ++ [a, b, c] →
    let t1 := op 0 (fSub down) c b
    let t2 := op 1 (fSub down) b a
    let dd := op 2 (fSub down) t1 t2
    tooSmall x dd [a, b, c] = false →
    (estimate x down rd ten e).1 = op 5 (fSub down) c (op 4 fDiv (op 3 fMul t1 t1) dd) ∧
      (estimate x down rd ten e).2.1 = false

/-! ### Steps that no encoding selects -/

/-- R61 to R81, R231. A CSR write of a hart that runs with an empty vector queue completes, and writes that CSR and nothing else
but what the CSR's rule adds: VTYPE clamps VL or sets VILL, VLCAP rounds and ends a restored size, SPBANKS moves banks and zeroes the
scratchpad. A write that the hart's privilege may not make, or to a read-only or unassigned number, changes nothing. CSR_WRITE of
one of the six is that one. -/
def Obligations.CsrWriteSteps : Prop :=
  (∀ (s : State) (g : Nat) (v : Word),
     exec (.csrWrite g 0x011 v) s = exec (.rmodeWrite g v) s ∧
     exec (.csrWrite g 0x012 v) s = exec (.vstartWrite g v) s ∧
     exec (.csrWrite g 0x013 v) s = exec (.vtypeWrite g v) s ∧
     exec (.csrWrite g 0x810 v) s = exec (.ptrootWrite g v) s ∧
     exec (.csrWrite g 0x820 v) s = exec (.vlcapWrite g v) s ∧
     exec (.csrWrite g 0x821 v) s = exec (.spbanksWrite g v) s) ∧
  (∀ (s : State) (g : Nat) (c : BitVec 12) (v : Word),
     (s.hart g).runs = false ∨ csrValue s g c.toNat = none ∨ csrAllowed c.toNat (s.hart g).sup true = false →
     exec (.csrWrite g c v) s = .next s) ∧
  ∀ (s : State) (g : Nat) (v : Word), s.Inv → (s.hart g).runs = true → (s.hart g).vq = [] →
    let h := s.hart g
    let put (h' : Hart) : State := Prim.apply s (.hart g h')
    let run (i : Instr) (h' : Hart) : Prop := exec i s = .next (put h')
    let plain (n : Nat) (h' : Hart) : Prop := (0x800 ≤ n → h.sup = true) → run (.csrWrite g (BitVec.ofNat 12 n) v) h'
    run (.rmodeWrite g v) { h with rmode :=
      if 6 ≤ (v.extractLsb' 0 3).toNat then v &&& 0xFFFFFFFF000000F8 else v &&& 0xFFFFFFFF000000FF } ∧
    run (.vstartWrite g v) { h with vstart := v.extractLsb' 0 23, vsWritten := true } ∧
    (∃ h', run (.vtypeWrite g v) h' ∧ h'.pc = h.pc ∧ h'.x = h.x ∧ h'.v = h.v ∧ h'.m = h.m ∧ h'.vcfg = h.vcfg ∧
      (codeValid (v.extractLsb' 0 8) = false → h'.vtype = 0x8000 ∧ h'.vl = 0) ∧
      (codeValid (v.extractLsb' 0 8) = true →
        h'.vtype = v &&& 0xFFF ∧ h'.vl.toNat = min h.vl.toNat ((put h').mvl g))) ∧
    (h.sup = true →
      run (.ptrootWrite g v) { h with ptroot := v &&& 0x003FFFFFFFFFF000 } ∧
      (∃ k : Nat, run (.vlcapWrite g v)
          { h with vlcap := BitVec.ofNat 64 (2 ^ k), capNow := h.sFix.getD h.capNow, sFix := none } ∧
        6 ≤ k ∧ k ≤ 16 ∧ (2 ^ k ≤ v.toNat ∨ k = 6) ∧ (v.toNat < 2 ^ (k + 1) ∨ k = 16)) ∧
      ((∀ k ∈ coreHarts (g / 4), (s.hart k).posted = [] ∧ (k ≠ g → (s.hart k).flight = none)) →
      ∃ t n, exec (.spbanksWrite g v) s = .next t ∧ t = { s with cores := t.cores } ∧
        (t.core (g / 4)).spbanks = BitVec.ofNat 7 n ∧ n % 8 = 0 ∧ n ≤ 64 ∧ n ≤ v.toNat ∧
        (n = 0 ∨ n + coreBanksWith s g h.banks + 16 ≤ 96) ∧
        (n + 8 ≤ v.toNat → n + 8 ≤ 64 → 96 < n + 8 + coreBanksWith s g h.banks + 16) ∧
        (∀ k, k < 96 * 8192 → memByte (t.core (g / 4)).spad k = 0) ∧ ∀ c, c ≠ g / 4 → t.core c = s.core c)) ∧
    (h.sup = false → exec (.ptrootWrite g v) s = .next s ∧ exec (.vlcapWrite g v) s = .next s ∧
      exec (.spbanksWrite g v) s = .next s) ∧
    plain 0x010 { h with fflags := v.extractLsb' 0 5 } ∧
    plain 0x014 { h with ftrim := v.extractLsb' 0 23 } ∧
    plain 0x800 { h with status := v.extractLsb' 0 3 } ∧
    plain 0x801 { h with tvec := v &&& 0x01FFFFFFFFFFFFFE } ∧
    plain 0x802 { h with epc := v } ∧
    plain 0x803 { h with ecause := v.extractLsb' 0 16 } ∧
    plain 0x804 { h with eval := v } ∧
    plain 0x805 { h with eqpos := v.extractLsb' 0 5 } ∧
    plain 0x806 { h with kscratch := v } ∧
    plain 0x822 { h with fwdlim := v.extractLsb' 0 2 } ∧
    ∀ k : Fin 8,
      plain (0x830 + 2 * k.val) { h with bpaddr := h.bpaddr.set k (v &&& 0x01FFFFFFFFFFFFFE) } ∧
      plain (0x831 + 2 * k.val) { h with bpctl := h.bpctl.set k (v &&& 0x7FFFFF07) }

/-- R101, R124, R126, R178, R234, R288, R292, R398. What a hart has begun goes on in steps of its own: a strip's element is fetched;
a fetched element is converted and lands; a move's data passes and its source forwards; a reclamation that awaits nothing makes
its record lines NORMAL; a completed write reaches its home; a peer's acknowledgement is noted; the oldest entry of the
vector queue performs as it does where the vector side keeps pace; a WFE ends after 65,536 cycles. A step that finds nothing to do
changes nothing. -/
def Obligations.HartSteps : Prop :=
  (∀ (s : State) (ch elem : Nat) (l : Leaf), s.Inv → ch < 4 → chanRuns s.me ch = true →
     let h := s.me
     let c := h.chan ch
     (elem < c.limit → c.isFetched elem = false → s.Opens .load (c.srcAddr elem) c.es l →
       h.chanMay ch elem false (c.srcAddr elem) c.es = true →
       ∃ u, exec (.stripFetch s.cur ch elem) s = .next u ∧
         u.me = ((h.setChan ch { c with
           fetched := tabPut c.fetched elem (s.bytes l.pa c.es)
           held := false }).chanIlk ch).canon ∧
         u.mem = s.mem ∧ ∀ k, k ≠ s.cur → u.hart k = s.hart k) ∧
     (c.limit ≤ elem ∨ c.isFetched elem = true → exec (.stripFetch s.cur ch elem) s = .next s) ∧
     (tabFind c.fetched elem = none → exec (.elementLanding s.cur ch elem) s = .next s) ∧
     ∀ x, tabFind c.fetched elem = some x → s.Opens .store (c.dstAddr elem) c.ed l →
       h.chanMay ch elem true (c.dstAddr elem) c.ed = true →
       let rd : Rnd := ({ mode := c.mode.toNat, seed := c.seed.toNat } : Mode).at elem 0
       let y := if c.conv then convert c.srcCode c.typ rd x else (memCode c.typ (x % 2 ^ codeWidth c.typ), 0)
       trappedFlag y.2 (trapEnables h.rmode) = none →
       let g := h.orFlags y.2
       ∃ u, exec (.elementLanding s.cur ch elem) s = .next u ∧ u.me = ((g.setChan ch (c.land1 elem)).chanIlk ch).canon ∧
         (∀ k, k < c.ed → u.byte (l.pa + k) = BitVec.ofNat 8 (y.1 / 2 ^ (8 * k))) ∧
         (∀ k, k < l.pa ∨ l.pa + c.ed ≤ k → u.byte k = s.byte k) ∧ ∀ k, k ≠ s.cur → u.hart k = s.hart k) ∧
  (∀ (s : State) (src dst newva p : Nat) (b : Bool), s.Inv → (s.line src).st = 1 →
     (s.line src).move = some { dst := dst, newva := newva, part := p, failed := b } → moverOf s src = none → src ≠ dst → 128 * src + 128 ≤ Config.localBytes → 128 * dst + 128 ≤ Config.localBytes → p < 128 → s.reclaims = [] →
     (∀ c x, tabFind (s.cluster c) dst = some x → x.st ≠ .l) →
     ∃ u, exec (.moveComplete src) s = .next u ∧ (u.line dst).reserved = false ∧ (u.line src).move = none ∧ u.harts = s.harts ∧
       ((s.line src).poison = true ∨ b = true → (u.line src).mark = false ∧ (u.line src).st = 0 ∧ u.mem = s.mem) ∧
       ((s.line src).poison = false → b = false →
         (u.line src).mark = true ∧ (u.line src).st = 2 ∧ u.bytes (128 * dst) 128 = s.bytes (128 * src) 128 ∧
         u.bytes (128 * src) 128 = fwdRecord newva p ∧ ∀ k, k / 128 ≠ src → k / 128 ≠ dst → u.byte k = s.byte k)) ∧
  (∀ (s : State) (line : Nat), (s.line line).move = none ∨ (s.line line).st ≠ 1 → exec (.moveComplete line) s = .next s) ∧
  (∀ (s : State) (p idx : Nat) (r : Reclaim), s.reclaims = [r] → r.part = p → r.idx = idx → (∀ e ∈ s.harts, e.2.posted = []) →
     (reclaimReady s r = false → exec (.reclaimComplete p idx) s = .next s) ∧
     (reclaimReady s r = true → completes (reclaimFinish r) s = true → ∃ u, exec (.reclaimComplete p idx) s = .next u ∧ u.reclaims = [] ∧ u.harts = s.harts ∧
       ∀ n ∈ markedLines s r.frames [2, 3], (u.line n).st = 0 ∧ (u.line n).mark = false)) ∧
  (∀ (s : State) (g : Nat), s.Inv →
     let h := s.hart g
     (h.posted = [] → exec (.postedWriteFollow g) s = .next s) ∧
     (∀ p rest, h.posted = p :: rest → p.mig = none → (∀ k, k ≠ g → (s.hart k).posted = []) →
       s.linesHeld (homeTier (localOf p.pa)) < dirPlaces → 0 < p.size → p.pa % 128 + p.size ≤ 128 → pkgOf p.pa = s.pkg →
       localOf p.pa < Config.localBytes → s.line (p.pa / 128) = { LineMeta.reset with ptag := (s.line (p.pa / 128)).ptag } →
       (s.tier (homeTier (localOf p.pa))).power = .awake → s.reclaims = [] →
       (∀ c x, tabFind (s.cluster c) (p.pa / 128) = some x → x.st ≠ .l) →
       ∃ u, exec (.postedWriteFollow g) s = .next u ∧ u.hart g = ({ h with posted := rest } : Hart).canon ∧
         (∀ k, k < p.size → u.byte (p.pa + k) = BitVec.ofNat 8 (p.data / 2 ^ (8 * k))) ∧
         (∀ k, k < p.pa ∨ p.pa + p.size ≤ k → u.byte k = s.byte k) ∧ ∀ k, k ≠ g → u.hart k = s.hart k) ∧
     ∀ k,
       ((tabFind h.remote k).isSome = true →
         exec (.postedWriteAck g k) s = .next (Prim.apply s (.hart g { h with remote := tabDel h.remote k }))) ∧
       (tabFind h.remote k = none → s.parts = [] → exec (.postedWriteAck g k) s = .next s) ∧
       ∀ p x, tabFind h.remote k = none → s.parts = [(p, x)] →
         x.hidden.any (fun e => (tabFind e.2.remote k).isSome) = true →
         exec (.postedWriteAck g k) s = .next (Prim.apply s (.part p { x with
           hidden := x.hidden.map (fun e => (e.1, { e.2 with remote := tabDel e.2.remote k })) }))) ∧
  (∀ (s : State) (d a b : BitVec 5) (m : BitVec 4) (op : VOp), s.Inv → s.Lone → s.me.runs = true →
     (s.Accepts (.mnot d a) op → exec (.vectorEntryComplete s.cur) (s.sent (.mnot d a) op) = exec (.mnot d a) s) ∧
     (s.Accepts (.vadd d a b m) op → exec (.vectorEntryComplete s.cur) (s.sent (.vadd d a b m) op) = exec (.vadd d a b m) s) ∧
     (s.Accepts (.vld d a m) op → exec (.vectorEntryComplete s.cur) (s.sent (.vld d a m) op) = exec (.vld d a m) s) ∧
     (s.Accepts (.mnot d a) op → d.toNat < 12 → s.me.vtype.getLsbD 15 = false → ∃ h',
       exec (.vectorEntryComplete s.cur) (s.sent (.mnot d a) op) = .next (s.setMe h') ∧ h' = { s.me.past 4 false with m := h'.m })) ∧
  ∀ (s : State) (g : Nat),
    let h := s.hart g
    ((h.vq = [] ∨ h.runs = false ∨ h.vqHeld = true ∨ h.migVec ≠ none) → exec (.vectorEntryComplete g) s = .next s) ∧
    (∀ w, h.runs = true → h.wfe = some w → w.1 + 65536 ≤ s.cycle →
      exec (.wfeTimeout g) s = .next (Prim.apply s (.hart g { h.advance 4 with wfe := none }))) ∧
    (h.wfe = none ∨ h.runs = false → exec (.wfeTimeout g) s = .next s) ∧
    ∀ w, h.wfe = some w → s.cycle < w.1 + 65536 → exec (.wfeTimeout g) s = .next s

/-- R80, R106, R111, R112, R128, R146, R147, R151, R157, R159, R329, R349, R350, R383, R384, R386. The part's own steps. Errors count
where they are met, poison a line, stop a hart and break its gang's barrier, or put a partition in ERROR. A lane group
retires while no hart of its core is placed. A frame boundary, a slot and a receiver move the broadcast order on. A tier that may sleep goes off and
logs; one that wakes replays or refills, and is CURRENT. A power sample moves MXRATE; a shutdown removes power; bring-up trains links. -/
def Obligations.PartSteps : Prop :=
  (∀ (s : State) (tier line n : Nat) (last : Bool),
     let sat (a k : Nat) : Nat := min (a + k) (2 ^ 32 - 1)
     let x := s.tier tier
     (∃ u, exec (.scrub tier line n last) s = .next u ∧ u = { s with tiers := u.tiers } ∧
       u.tier tier = { x with
         drcor := if tierOfPa s (128 * line) = some tier then sat x.drcor n else x.drcor
         scrubs := if last = true ∧ tier < 24 then sat x.scrubs 1 else x.scrubs } ∧
       ∀ k, k ≠ tier → u.tier k = s.tier k) ∧
     (∀ c,
       let k := s.core c
       ((tabFind k.l1 line).isSome ∨ (tabFind k.scache line).isSome ∨ (tabFind k.icache line).isSome →
         exec (.uncorrectableError (.cleanLine c line)) s = .next (Prim.apply s (.core c { k with
           l1 := tabDel k.l1 line
           scache := tabDel k.scache line
           icache := tabDel k.icache line
           ceunc := sat k.ceunc 1 }))) ∧
       exec (.uncorrectableError (.corrected c)) s = .next (Prim.apply s (.core c { k with cecor := sat k.cecor 1 })) ∧
       (tabFind k.l1 line = none → tabFind k.scache line = none → tabFind k.icache line = none →
         ((∀ y, tabFind (s.cluster (c / 4)) line = some y → y.st ≠ .s ∧ y.st ≠ .e) → tierOfPa s (128 * line) = some tier →
           exec (.uncorrectableError (.cleanLine c line)) s = .next (Prim.apply s (.tier tier { x with srunc := sat x.srunc 1 }))) ∧
         ∀ y, tabFind (s.cluster (c / 4)) line = some y → y.st = .s ∨ y.st = .e →
           let z := s.tier (c / 16)
           exec (.uncorrectableError (.cleanLine c line)) s = .next (Prim.apply (Prim.apply s (.cc (c / 4) line none))
             (.tier (c / 16) { z with srunc := sat z.srunc 1 })))) ∧
     (∀ g,
       let h := s.hart g
       (h.lp.pinned = none → exec (.uncorrectableError (.loopBuffer g)) s = .next s) ∧
       (h.lp.pinned ≠ none → exec (.uncorrectableError (.loopBuffer g)) s =
         .next (Prim.apply s (.hart g { h with lp := { h.lp with pinned := none } })))) ∧
     exec (.uncorrectableError (.correctedTier tier)) s = .next (Prim.apply s (.tier tier { x with srcor := sat x.srcor 1 })) ∧
     (tierOfPa s (128 * line) = some tier →
       ((∀ e ∈ s.lines, ∀ m, e.2.move = some m → m.dst ≠ line) →
         exec (.uncorrectableError (.dramLine line)) s = .next (Prim.apply
           (Prim.apply s (.line line { s.line line with poison := true })) (.tier tier { x with drunc := sat x.drunc 1 }))) ∧
       ((s.line line).ptag = 127 → ∃ u, exec (.uncorrectableError (.dirtyLine line)) s = .next u ∧
         u.tier tier = { x with poisonwb := sat x.poisonwb 1, srunc := sat x.srunc 1 } ∧ u.harts = s.harts ∧
         (u.line line).poison = true ∧ u.mem = s.mem) ∧
       (completes (errorAt (.dirtyLine line)) s = true → (∀ e ∈ s.harts, e.2.posted = []) →
         ∃ u, exec (.uncorrectableError (.dirtyLine line)) s = .next u ∧ (u.tier tier).poisonwb = sat x.poisonwb 1 ∧
           (u.tier tier).srunc = sat x.srunc 1 ∧ u.harts = s.harts)) ∧
     ∀ p,
       (((s.part p).state = .config ∨ (s.part p).state = .locked ∨ (s.part p).state = .run) →
         ∃ u, exec (.uncorrectableError (.partEntry p)) s = .next u ∧ u = { s with parts := u.parts, queues := u.queues } ∧
           u.part p = { s.part p with state := .error } ∧ (∀ k, k ≠ p → u.part k = s.part k) ∧
           ∀ q, q < 64 → bitAt (s.part p).queues q = true →
             u.queue q = { s.queue q with ready := none, step := 0, urgent := (u.queue q).urgent }) ∧
       ((s.part p).state = .free ∨ (s.part p).state = .error → exec (.uncorrectableError (.partEntry p)) s = .next s)) ∧
  (∀ (s : State) (g : Nat) (e : Place) (x : Gang), s.Inv → (s.hart g).place = some e → (s.hart g).hstop ≠ .lost →
     tabFind s.gangs e.gang = some x → x.spans = false → (∀ e ∈ s.harts, e.2.posted = []) →
     let lost (site : ErrSite) (re : Nat) : Prop :=
       completes (errorAt site) s = true →
       ∃ u, exec (.uncorrectableError site) s = .next u ∧ u.hart g = { s.hart g with hstop := .lost } ∧ (∀ k, k ≠ g → u.hart k = s.hart k) ∧
         tabFind u.gangs e.gang = some { x with lost := e.index :: x.lost, st := 2 } ∧
         u.core (g / 4) = { s.core (g / 4) with
           ceunc := min ((s.core (g / 4)).ceunc + 1) (2 ^ 32 - 1)
           resmis := min ((s.core (g / 4)).resmis + re) (2 ^ 32 - 1) }
     (s.core (g / 4)).ceunc < 2 ^ 32 → (s.core (g / 4)).resmis < 2 ^ 32 →
     lost (.hartState g) 0 ∧ lost (.residue g) 1) ∧
  (∀ (s : State) (c lg : Nat), lg < 8 →
     let k := s.core c
     ((∀ g, g / 4 = c → (s.hart g).place = none) → k.lglive.getLsbD lg = true →
       ∃ u, exec (.laneGroupRetirement c lg) s = .next u ∧ u = { s with cores := u.cores } ∧
         u.core c = { k with lglive := (u.core c).lglive, lgret := min (k.lgret + 1) (2 ^ 32 - 1), l1 := [] } ∧
         (∀ i, i < 8 → (u.core c).lglive.getLsbD i = (k.lglive.getLsbD i && decide (i ≠ lg))) ∧
         ∀ j, j ≠ c → u.core j = s.core j) ∧
     ((∃ g, g / 4 = c ∧ (s.hart g).place ≠ none) → exec (.laneGroupRetirement c lg) s = .next s)) ∧
  (∀ (s : State) (tower slot : Nat) (w : BWrite) (rest : List BWrite) (i : Nat) (mask load : Bits), s.Inv → tower < 2 → slot < 256 →
     let x := s.tower tower
     let e := (x.table.slots.getD slot 15).toNat
     let t := 12 * tower + e % 16
     let p := e / 64 % 64
     exec (.frameBoundary tower) s = .next (Prim.apply s (.tower tower { x with
       frame := x.frame + 1
       table := x.pending.getD x.table
       pending := none })) ∧
     (12 ≤ e % 16 → exec (.slotTransmission tower slot true) s = .next s) ∧
     (e % 16 < 12 → (s.tier t).power = .awake → tabGet [] (s.tier t).tx p = w :: rest →
       let n := w.num.getD x.seq
       let seq := if w.num.isSome then x.seq else (x.seq + 1) % 2 ^ 48
       (w.what = .block i mask load → w.hart < 1536 →
         ∃ u, exec (.slotTransmission tower slot true) s = .next u ∧ u.mem = s.mem ∧ tabGet [] (u.tier t).tx p = rest ∧
           (u.tower tower).seq = seq ∧ tabFind (u.tower tower).sent n = some { w with num := none } ∧
           u.hart w.hart = { s.hart w.hart with
             bstQueued := (s.hart w.hart).bstQueued - 1
             bstNext := some ((n + 1) % 2 ^ 48) }) ∧
       ∃ u, exec (.slotTransmission tower slot false) s = .next u ∧ u = { s with tiers := u.tiers, towers := u.towers } ∧
         tabGet [] (u.tier t).tx p = { w with num := some n } :: rest ∧ (u.tower tower).seq = seq ∧
         (u.tower tower).sent = x.sent ∧
         ∀ k, u.tier k = { s.tier k with
           tx := (u.tier k).tx
           crcdrop := if 12 * tower ≤ k ∧ k < 12 * tower + 12 ∧ (s.tier k).power = .awake then
             (min ((s.tier k).crcdrop + 1) (2 ^ 32 - 1)) else (s.tier k).crcdrop })) ∧
  (∀ (s : State) (t : Nat) (w : BWrite) (i : Nat) (mask load : Bits), s.Inv → t < 24 →
     let x := s.tier t
     let n := (x.applied + x.wlogged) % 2 ^ 48
     (tabFind (s.tower (t / 12)).sent n = none → exec (.broadcastApply t true) s = .next s) ∧
     (tabFind (s.tower (t / 12)).sent n = some w → w.what = .block i mask load → x.replica = .current → mask < 2 ^ 64 →
       let a := s.physical (t * Config.tierBytes + (s.tower (t / 12)).table.bOff + 512 * i)
       exec (.broadcastApply t false) s = .next (Prim.apply s (.tier t { x with crcdrop := min (x.crcdrop + 1) (2 ^ 32 - 1) })) ∧
       ∃ u, exec (.broadcastApply t true) s = .next u ∧ u.tier t = { x with applied := (x.applied + 1) % 2 ^ 48 } ∧
         u.harts = s.harts ∧
         (∀ k, k < 64 → u.bytes (a + 8 * k) 8 = if mask.testBit k then bitsGet load (64 * k) 64 else s.bytes (a + 8 * k) 8) ∧
         ∀ b, b < a ∨ a + 512 ≤ b → u.byte b = s.byte b)) ∧
  (∀ (s : State) (t : Nat), s.Inv → t < 24 →
     let x := s.tier t
     let now (a : Nat) : Tier := { x with power := .awake, replica := .current, wlogged := 0, idleFrom := s.cycle, applied := a }
     (x.policy = true → (s.tower (t / 12)).table.wlogs.getD (t % 12) 0 ≠ 0 → x.power = .awake → x.replica = .current →
       (∀ e ∈ s.harts, tierOf e.1 = t → e.2.place = none) → x.idleFrom + 65536 ≤ s.cycle →
       ∃ u, exec (.tierSleep t) s = .next u ∧ u.tier t = { x with power := .asleep, replica := .logging, wlogged := 0 } ∧
         u.harts = s.harts ∧ (∀ c, c / 16 = t → (u.core c).l1 = [] ∧ (u.core c).scache = [] ∧ (u.core c).icache = []) ∧
         ∀ c, c / 4 = t → u.cluster c = []) ∧
     (x.policy = false ∨ x.power ≠ .awake ∨ s.cycle < x.idleFrom + 65536 → exec (.tierSleep t) s = .next s) ∧
     (x.power = .waking → exec (.tierWake t) s = .next (Prim.apply s (.tier t { x with power := .replaying }))) ∧
     (x.power ≠ .waking → exec (.tierWake t) s = .next s) ∧
     (x.power = .replaying → x.replica = .logging → seqReached ((x.applied + x.wlogged) % 2 ^ 48) x.wakeSeq = false →
       exec (.wakeLogReplayEnd t) s = .next s) ∧
     (x.power = .replaying → x.replica = .logging → seqReached ((x.applied + x.wlogged) % 2 ^ 48) x.wakeSeq = true →
       x.applied < 2 ^ 48 → ∃ u, exec (.wakeLogReplayEnd t) s = .next u ∧ u.tier t = now ((x.applied + x.wlogged) % 2 ^ 48) ∧ u.harts = s.harts ∧
         (x.wlogged = 0 → u.mem = s.mem)) ∧
     (x.power ≠ .replaying → exec (.wakeLogReplayEnd t) s = .next s ∧ exec (.replicaRefillEnd t) s = .next s) ∧
     ∀ k, x.power = .replaying → x.replica = .stale → refillFrom s t = some k →
       let tb := (s.tower (t / 12)).table
       ∃ u, exec (.replicaRefillEnd t) s = .next u ∧ u.tier t = now (s.tier k).applied ∧ u.harts = s.harts ∧
         u.bytes (s.physical (t * Config.tierBytes + tb.bOff)) tb.bLen =
           s.bytes (s.physical (k * Config.tierBytes + tb.bOff)) tb.bLen) ∧
  (∀ (s : State) (w : Nat),
     let r := if 2100 < w then max 1 (s.mxrate - 1) else if w < 2000 then min 8 (s.mxrate + 1) else s.mxrate
     exec (.powerSample w false) s = .next (Prim.apply s (.mxrate r)) ∧
     (s.Unwatched → ∃ u, exec (.powerSample w true) s = .next u ∧ u = { s with parts := u.parts, mxrate := min r 4 } ∧
       ∀ e ∈ s.parts, u.part e.1 = { s.part e.1 with event := (s.part e.1).event ||| 8 }) ∧
     exec .thermalShutdown s = .next (Prim.apply s (.powered false))) ∧
  ∀ (s : State) (image version : Bool) (lanes : List (Nat × Nat)) (dead : List Nat),
    (s.powered = true → s.security.boot ≠ .off → exec (.powerUp image version lanes dead) s = .next s) ∧
    (s.powered = false ∨ s.security.boot = .off →
      (image && version) = false →
        exec (.powerUp image version lanes dead) s = .next (Prim.apply (Prim.apply s .powerOn)
          (.security { State.reset.security with leaf := s.security.leaf, boot := .refused }))) ∧
    (s.powered = false ∨ s.security.boot = .off → image = true → version = true →
      ∃ u, exec (.powerUp image version lanes dead) s = .next u ∧ u.powered = true ∧ u.mem = [] ∧ u.harts = [] ∧ u.parts = [] ∧
        u.security = { State.reset.security with leaf := s.security.leaf, boot := .monitor } ∧
        (∀ k, k < 18 → (u.link k).st = if dead.contains k then .down else .up) ∧
        (∀ e ∈ lanes, e.1 < 384 → e.2 < 8 → (u.core e.1).lglive.getLsbD e.2 = false) ∧
        ∀ c, (∀ e ∈ lanes, e.1 ≠ c) → u.core c = Core.reset)

/-- R103, R277, R370, R371, R372, R373, R386. A link changes state, with LINK set in every partition's event word: UP to RETRAIN,
RETRAIN to UP, RETRAIN to DOWN after 1 ms; a CRC failure counts and is retried, until its eighth retry has failed. A request from the fabric that the access table
lets pass, at a NORMAL line of local DRAM on an awake tier, reads, writes or updates the bytes at their home and is answered; one
that it does not let pass is denied; and before the fabric opens nothing is answered. -/
def Obligations.LinksAndFabric : Prop :=
  (∀ (s : State) (k : Nat), k < 18 → s.Unwatched →
     let x := s.link k
     let plus (c : List Nat) (i : Nat) : List Nat := c.set i ((c.getD i 0 + 1) % 2 ^ 64)
     let told (i : Instr) (y : Link) : Prop :=
       ∃ u, exec i s = .next u ∧ u = { s with links := tabPut s.links k y, parts := u.parts } ∧
         ∀ e ∈ s.parts, u.part e.1 = { s.part e.1 with event := (s.part e.1).event ||| 4 }
     let again (c : List Nat) : Link :=
       { st := .retrain, retries := 0, leftAt := s.cycle, tryAt := s.cycle, counts := plus c 4 }
     (x.st = .up →
       told (.linkRetrainEntry k) (again x.counts) ∧
       (x.retries ≠ 8 → exec (.flitCrcFailure k) s = .next { s with
         links := tabPut s.links k { x with retries := x.retries + 1, counts := plus (plus x.counts 3) 2 } }) ∧
       (x.retries = 8 → told (.flitCrcFailure k) (again (plus x.counts 3)))) ∧
     (x.st ≠ .up → exec (.linkRetrainEntry k) s = .next s ∧ exec (.flitCrcFailure k) s = .next s) ∧
     (x.st = .retrain →
       told (.trainingAttemptEnd k true) { x with st := .up, retries := 0 } ∧
       exec (.trainingAttemptEnd k false) s = .next { s with links := tabPut s.links k { x with tryAt := s.cycle } } ∧
       (x.leftAt + 1100000 ≤ s.cycle → told (.linkDownTimeout k) { x with st := .down, counts := plus x.counts 5 }) ∧
       (s.cycle < x.leftAt + 1100000 → exec (.linkDownTimeout k) s = .next s)) ∧
     (x.st ≠ .retrain → exec (.trainingAttemptEnd k true) s = .next s ∧ exec (.linkDownTimeout k) s = .next s)) ∧
  (∀ (s : State) (id : Nat) (part : Option Nat) (req : FabReq), s.security.boot ≠ .open →
     exec (.fabricRequest id part req) s = .next s) ∧
  ∀ (s : State) (id a n op : Nat) (part : Option Nat) (data : List (BitVec 8)) (x y : Word), s.Inv → s.security.boot = .open →
    a + n ≤ Config.localBytes → 0 < n → a % 128 + n ≤ 128 → data.length = n → s.inBroadcast a = false →
    let pa := s.physical a
    let line := pa / 128
    let answered (req : FabReq) (r : Reply) (u : State) : Prop :=
      exec (.fabricRequest id part req) s = .next u ∧ u.replies = s.replies ++ [r] ∧ u.harts = s.harts
    (1023 ≤ id ∨ lineOpen s id part line = false →
      ∃ u v, answered (.read a n) .denied u ∧ answered (.write a data) .denied v ∧ u.mem = s.mem ∧ v.mem = s.mem) ∧
    (id < 1023 → lineOpen s id part line = true → s.line line = { LineMeta.reset with ptag := (s.line line).ptag } →
      (s.tier (homeTier (localOf pa))).power = .awake → s.reclaims = [] →
      (∀ c z, tabFind (s.cluster c) line = some z → z.st ≠ .l) → (∀ e ∈ s.harts, e.2.posted = []) →
      (∃ u b, answered (.read a n) (.data b) u ∧ u.mem = s.mem ∧ b.length = n ∧ ∀ k, k < n → b[k]? = some (s.byte (pa + k))) ∧
      (∃ u, answered (.write a data) .ok u ∧ (∀ k, k < n → some (u.byte (pa + k)) = data[k]?) ∧
        ∀ k, k < pa ∨ pa + n ≤ k → u.byte k = s.byte k) ∧
      ((n = 4 ∨ n = 8) → a % n = 0 → op ≤ 9 →
        let old := s.bytes pa n
        let low (v : Word) : Nat := v.toNat % 2 ^ (8 * n)
        ∃ u b, answered (.atomic a n op x y) (.data b) u ∧ b.length = n ∧ (∀ k, k < n → b[k]? = some (s.byte (pa + k))) ∧
          (∀ v, amoResult op (8 * n) old (low x) (low y) = some v → u.bytes pa n = v % 2 ^ (8 * n)) ∧
          (amoResult op (8 * n) old (low x) (low y) = none → u.mem = s.mem) ∧
          ∀ k, k < pa ∨ pa + n ≤ k → u.byte k = s.byte k))

/-- R21, R114, R116, R117, R119, R121, R122, R127, R130, R149, R211, R214, R343, R374. The front end. A write of an endpoint to a launch window is
answered with the first check that it fails, and counted; an accepted packet is journaled and joins its queue, and an accepted
graph start makes its roots READY. A tower places the gang that it plans: each member's hart holds the entry registers. Aging,
pre-emption, a node's start, a waiting record, an event's delivery and a write of an event word are as their rules say. -/
def Obligations.FrontEndSteps : Prop :=
  (∀ (s : State) (id g q off : Nat) (line : BitVec 1024) (full : Bool),
     exec (.graphStartWindow (.fabric id) q line full) s = exec (.enqueueStore (.fabric id) q 0x80 line full) s ∧
     exec (.enqueueStore (.hart g) q off line full) s = .next s ∧ exec (.graphStartWindow (.hart g) q line full) s = .next s ∧
     (s.security.boot ≠ .open → exec (.enqueueStore (.fabric id) q off line full) s = .next s) ∧
     (s.security.boot = .open →
       let told (off code word : Nat) : Prop := exec (.enqueueStore (.fabric id) q off line true) s =
         .next (Prim.apply (Prim.apply s (.queue q ((s.queue q).count code))) (.reply (.status word)))
       (64 ≤ q → exec (.enqueueStore (.fabric id) q off line full) s = .next (Prim.apply s (.reply .denied))) ∧
       (q < 64 →
         ((full = false ∨ (off ≠ 0 ∧ off ≠ 0x80)) → exec (.enqueueStore (.fabric id) q off line full) s =
           .next (Prim.apply (Prim.apply s (.queue q ((s.queue q).count 1))) (.reply (.status 1)))) ∧
         (windowPart s id q = none → told 0 2 2 ∧ told 0x80 2 2) ∧
         ∀ p, windowPart s id q = some p →
           let x := s.part p
           let pkt := line.toNat
           (x.pause = true → told 0 3 3 ∧ told 0x80 3 3) ∧
           (x.pause = false →
             (∀ row, packetCheck x pkt = some row → row < 16 → told 0 4 (4 + 16 * row)) ∧
             (lineMalformed x pkt = true → told 0x80 4 4) ∧
             (packetCheck x pkt = none →
               (32 ≤ (s.queue q).pkts.length → told 0 5 5) ∧
               ∀ (u v : State) (seq : Nat), (s.queue q).pkts.length < 32 → Gives (journalLook p) s (.next seq) u →
                 Gives (journalAccept p q 1 seq pkt) u true v → u = { s with mem := u.mem, lines := u.lines } →
                 v = { s with mem := v.mem, lines := v.lines } →
                 ∃ t, exec (.enqueueStore (.fabric id) q 0 line true) s = .next t ∧ t.mem = v.mem ∧ t.harts = s.harts ∧
                   (t.queue q).pkts = (s.queue q).pkts ++ [s.nextId] ∧
                   (t.queue q).accept = ((s.queue q).accept + 1) % 2 ^ 64 ∧
                   t.replies = s.replies ++ [.status (seq % 2 ^ 24 * 256)] ∧
                   tabFind t.launches s.nextId = some {
                     packet := pkt, paddr := BitVec.ofNat 64 (journalSlot x seq), src := 0, seq := seq, part := p, queue := q
                     queued := true, nextg := 0, resume := [], claim := 0, live := 0, node := none }) ∧
             ∀ (a b c d : State) (seq : Nat), Gives (graphRefusal p pkt) s (some none) a → Gives (journalLook p) a (.next seq) b →
               Gives (journalAccept p q 2 seq pkt) b true c → c.parts = s.parts →
               Gives (graphStart p q (BitVec.ofNat 64 (journalSlot x seq)) seq pkt) c true d →
               ∃ t, exec (.graphStartWindow (.fabric id) q line true) s = .next t ∧ t.mem = d.mem ∧ t.graphs = d.graphs ∧
                 (t.queue q).accept = ((d.queue q).accept + 1) % 2 ^ 64 ∧
                 t.replies = d.replies ++ [.status (seq % 2 ^ 24 * 256)])))) ∧
  (∀ (s a : State) (tower p : Nat) (c : Cand) (hs : List Nat), s.Inv →
     (2 ≤ tower ∨ runningParts s = [] → exec (.placeGang tower) s = .next s) ∧
     (tower < 2 → runningParts s = [p] → Gives (agePart p) s () a →
       let l := c.l
       (planFor a tower (candidates a p tower) = { place := none, wakes := [], room := none } →
         exec (.placeGang tower) s = .next a) ∧
       (planFor a tower (candidates a p tower) = { place := some (c, hs), wakes := [], room := none } →
         (∀ b, Gives (placeChosen tower c hs) a () b → exec (.placeGang tower) s = .next b) ∧
         (c.g = none → l.seq = 0 ∨ l.nextg ≠ 0 → hs.Nodup → (∀ e ∈ s.harts, e.2.posted = []) →
           ∃ t, exec (.placeGang tower) s = .next t ∧ t.mem = s.mem ∧
             (∀ i g, hs[i]? = some g → ∃ n, t.hart g = Hart.canon { Hart.reset with
               x := vecOf 32 0 (entryX l l.nextg i)
               pc := BitVec.ofNat 64 (Packet.entry l.packet)
               ptroot := (s.part l.part).proot
               tvec := (s.part l.part).tvbase
               vlcap := startCap (s.part l.part)
               capNow := (startCap (s.part l.part)).toNat
               fwdlim := (s.part l.part).fwdlim
               partid := BitVec.ofNat 6 l.part
               lay := n
               place := some { launch := c.id, gang := s.nextId, index := i, since := s.cycle } }) ∧
             (∀ g, g ∉ hs → t.hart g = s.hart g) ∧
             (∃ x, tabFind t.gangs s.nextId = some x ∧ x.launch = c.id ∧ x.index = l.nextg ∧ x.members = hs ∧ x.retired = [] ∧
               x.lost = [] ∧ x.size = BitVec.ofNat 7 hs.length ∧ x.arr = 0 ∧ x.epoch = 0 ∧ x.st = 1) ∧
             ∃ y, tabFind t.launches c.id = some y ∧ y = { l with
               nextg := l.nextg + 1, live := l.live + hs.length, queued := y.queued })))) ∧
  (∀ (s : State) (q : Nat),
     let x := s.queue q
     (64 ≤ q → exec (.agingStep q) s = .next s) ∧
     (q < 64 → ∃ t, exec (.agingStep q) s = .next t ∧ t = { s with queues := t.queues } ∧
       (x.ready ≠ none → x.step < 8 → x.ageAt + 65536 ≤ s.cycle →
         t.queue q = { x with
           ageAt := x.ageAt + 65536
           step := x.step + 1
           urgent := if x.step = 7 then some (x.ageAt + 65536) else x.urgent }) ∧
       (x.ready = none ∨ 8 ≤ x.step ∨ s.cycle < x.ageAt + 65536 → t.queue q = x))) ∧
  (∀ (s a : State) (g gg : Nat) (x : Gang) (l : Launch), s.Inv →
     (s.gangOf g = none → exec (.preemption g) s = .next s) ∧
     ((s.part (s.hart g).partid.toNat).state ≠ .run → exec (.preemption g) s = .next s) ∧
     (Gives (preemptible g) s (some gg) a → tabFind a.gangs gg = some x → tabFind a.launches x.launch = some l →
       completes (suspendGang gg) a = true → (∀ e ∈ x.saved, (a.hart e.2).spilled = false) →
       ∃ t, exec (.preemption g) s = .next t ∧ tabFind t.gangs gg = none ∧ (∀ e ∈ x.saved, (t.hart e.2).place = none) ∧
         ∃ y, tabFind t.launches x.launch = some { l with resume := l.resume ++ [y] } ∧ y.gang = x.index ∧
           y.retired = x.retired ∧ y.lost = x.lost)) ∧
  (∀ (s : State) (gr j : Nat) (x : Graph),
     (tabFind s.graphs gr = none → exec (.graphNodeStart gr j) s = .next s) ∧
     (tabFind s.graphs gr = some x →
       let p := x.part
       (j ∉ x.nodes ∨ x.abandoned = true ∨ (s.part p).pause = true ∨ (s.part p).state ≠ .run →
         exec (.graphNodeStart gr j) s = .next s) ∧
       ∀ (a b : State) (nd : Bits), j ∈ x.nodes → x.abandoned = false → (s.part p).pause = false → (s.part p).state = .run →
         Gives (readNode p j) s nd a →
         (ndState nd ≠ 1 → exec (.graphNodeStart gr j) s = .next a) ∧
         (ndState nd = 1 → ndKind nd = 1 → Gives (startCompute gr p j nd) a () b →
           (∃ y, tabFind b.graphs gr = some y ∧ y.live ≠ 0) → exec (.graphNodeStart gr j) s = .next b) ∧
         (ndState nd = 1 → ndKind nd = 2 → Gives (startCopy gr p j nd) a () b →
           (∃ y, tabFind b.graphs gr = some y ∧ y.live ≠ 0) → exec (.graphNodeStart gr j) s = .next b))) ∧
  (∀ (s u : State) (p g va len : Nat) (rest : List (Option Nat × Nat × Nat)) (v : Nat) (r : PendingTrap), s.Inv →
     let x := s.part p
     (x.waiting = [] → exec (.faultRecordPost p) s = .next s) ∧
     (x.waiting = (some g, v, len) :: rest → g < 1536 → (s.hart g).hstop = .faultWait r →
       (Gives (postWaiting.postRetry p len v) s .full u → exec (.faultRecordPost p) s = .next u) ∧
       (Gives (postWaiting.postRetry p len v) s (.at va) u → u.harts = s.harts →
         ∃ t, exec (.faultRecordPost p) s = .next t ∧ (t.part p).waiting = rest ∧
           let h := t.hart g
           h.hstop = .run ∧ h.ecause = r.cause ∧ h.epc = r.epc ∧ h.eval = BitVec.ofNat 64 va ∧ h.sup = true ∧
           h.pc = (s.hart g).canon.tvec &&& ~~~1#64 ∧ h.x = (s.hart g).x ∧ h.v = (s.hart g).v)) ∧
     (x.waiting = (none, v, len) :: rest → x.hevaddr = 0 → Gives (postWaiting.postRetry p len v) s (.at va) u → u.parts = s.parts →
       exec (.faultRecordPost p) s = .next (Prim.apply u (.part p { x with waiting := rest, event := x.event ||| 1 })))) ∧
  (∀ (s : State) (p g : Nat), s.Inv →
     let x := s.part p
     let h := s.hart g
     (x.target = none ∨ x.event = 0 → exec (.eventDelivery p) s = .next s) ∧
     (x.target = some g → h.status.getLsbD 1 = false → exec (.eventDelivery p) s = .next s) ∧
     (x.target = some g → x.event ≠ 0 → h.runsIn p = true → h.status.getLsbD 1 = true → h.migWait = none → h.holdS = false →
       h.arrived = false → h.bacq = none → h.lp.trip ≠ .atPc → h.flight = none → h.ilkAt = none →
       let at' := if h.wfe.isSome then h.advance 4 else h
       exec (.eventDelivery p) s = .next (Prim.apply (Prim.apply s (.hart g { at' with
         status := 1#1 ++ (0#1 ++ BitVec.ofBool h.sup)
         sup := true
         epc := at'.pc
         ecause := 0x04
         eval := x.event
         eqpos := 0
         pc := h.tvec &&& ~~~1#64
         traps := h.traps + 1
         erets := .event :: h.erets
         vqHeld := h.vqHeld || !h.vq.isEmpty
         vstart := (h.vq.head?.map (fun e => e.vstart)).getD h.vstart
         vsWritten := h.vsWritten && h.vq.isEmpty
         ilk := if h.vq.isEmpty then h.ilk else h.ilk.map Ilk.unissued
         wfe := none
         migVec := none
         holdV := false
         stoppedAt := h.stoppedAt || !h.vq.isEmpty })) (.part p { x with event := 0 })))) ∧
  ∀ (s : State) (p g id : Nat) (v : Word), (s.part p).hevaddr = 0 →
    let t := Prim.apply s (.part p { s.part p with event := (s.part p).event ||| (v &&& 0xFFFFFFFFFFFF0000) })
    ((s.hart g).runsIn p = true → exec (.eventWindowWrite (.hart g) p v) s = .next t) ∧
    ((s.hart g).runsIn p = false → exec (.eventWindowWrite (.hart g) p v) s = .next s) ∧
    (s.security.boot = .open → p < 64 → s.mayReach id p = true →
      exec (.eventWindowWrite (.fabric id) p v) s = .next (Prim.apply t (.reply .ok))) ∧
    (s.security.boot = .open → s.mayReach id p = false →
      exec (.eventWindowWrite (.fabric id) p v) s = .next (Prim.apply s (.reply .denied)))

/-- R162, R236, R351, R374, R375, R376, R379. The calls of a partition's own mailbox. A call of a caller that reaches the mailbox, while no
other runs there, ends with its status, its results and what it does: PART_INFO gives bytes 0 to 119 of the entry, COUNTERS a row,
and so on. In the management mailbox these calls are bad arguments. A caller that does not reach the mailbox changes
nothing there, and a request is ignored while another call runs. -/
def Obligations.PartitionCalls : Prop :=
  (∀ (s : State) (p : Nat) (w : Caller) (tag abcode : BitVec 16) (off target q0 q1 port n len key qp : Nat) (va hev pad : Word)
     (all rd wr : Bool) (conn : QpConn), s.Inv → s.Hears (.part p) w →
     let m : Mbox := .part p
     let x := s.part p
     let e := s.port port
     let ends (i : Instr) (status bytes results : Nat) (holds : State → Prop) : Prop :=
       ∃ t, exec i s = .next t ∧ t.Ended m tag status bytes results ∧ holds t
     let same (t : State) : Prop := t.mem = s.mem ∧ t.harts = s.harts
     ends (.partInfo m w tag) 0 120 (entryBits x) same ∧
     (∀ row, counterRow s p off = some row → ends (.counters m w tag off) 0 64 row same) ∧
     (counterRow s p off = none → ends (.counters m w tag off) 1 0 0 same) ∧
     (let named := if all then none else some va.toNat
      x.shooting = none → pinsLeft s p named = false → ends (.shootdown m w tag va all) 0 0 0 (fun t => t.mem = s.mem ∧
        (∀ c ∈ x.cores, t.core c = (s.core c).dropNamed named) ∧
        ∀ k, (s.hart k).partid.toNat = p → (s.hart k).place.isSome = true → ∀ u ∈ (t.hart k).tlb, tlbNames named u.base = false)) ∧
     (x.state ≠ .run ∨ x.pause = false → ends (.resume m w tag) 3 0 0 same) ∧
     (x.state = .run → x.pause = true → ∀ u ok, Gives (reload p) (s.busy m w 4 tag) ok u → (u.part p).hevaddr = 0 →
       ends (.resume m w tag) (if ok then 0 else 2) 0 0 (fun t => t.mem = u.mem ∧ t.launches = u.launches ∧
         (t.part p).pause = (u.part p).pause)) ∧
     ((∀ k ∈ s.launches, k.2.part = p → k.2.paddr ≠ pad) →
       (∀ k ∈ s.graphs, k.2.part = p → k.2.abandoned = false → k.2.addr ≠ pad) →
       ends (.abandon m w tag pad abcode) 2 0 0 same) ∧
     (∀ id l, s.launches = [(id, l)] → l.part = p → l.paddr = pad → gangsOfLaunch s id = [] → l.resume = [] → l.node = none →
       (∀ e ∈ s.harts, e.2.posted = []) → completes (abandonLaunch p id l abcode.toNat) (s.busy m w 5 tag) = true →
       ends (.abandon m w tag pad abcode) 0 0 0 (fun t =>
         t.launches = [] ∧ id ∉ (t.queue l.queue).pkts ∧ id ∉ (t.queue l.queue).resume ∧ t.harts = s.harts)) ∧
     (target < 1536 → x.clusters.testBit (target / 16) = true →
       ends (.setevent m w tag target hev) 0 0 0 (fun t => (t.part p).target = some target ∧ (t.part p).hevaddr = hev)) ∧
     (1536 ≤ target ∨ x.clusters.testBit (target / 16) = false → ends (.setevent m w tag target hev) 2 0 0 same) ∧
     (q0 ≤ 768 → q1 ≤ 768 → ends (.quota m w tag q0 q1) 0 0 0 (fun t =>
       t.part p = { x with quota0 := q0, quota1 := q1, event := x.event ||| 2 })) ∧
     (768 < q0 ∨ 768 < q1 → ends (.quota m w tag q0 q1) 2 0 0 same) ∧
     (4 ≤ port →
       ends (.qpair m w tag port n) 2 0 0 same ∧ ends (.mreg m w tag port va len rd wr) 2 0 0 same ∧
       ends (.qpconn m w tag port qp conn) 2 0 0 same) ∧
     (port < 4 →
       (e.freePairs.length < n → ends (.qpair m w tag port n) 3 0 0 same) ∧
       (n ≤ e.freePairs.length → ends (.qpair m w tag port n) 0 0 0 (fun t =>
         (∀ k r, tabFind e.owner k = some r → tabFind (t.port port).owner k = some r) ∧
         ∃ ks : List Nat, ks.length = n ∧ ks.Nodup ∧
           ∀ k ∈ ks, k < 1024 ∧ tabFind e.owner k = none ∧ tabFind (t.port port).owner k = some p)) ∧
       ((s.mregs.filter (fun r => r.2.part == p)).length < 4096 →
         ends (.mreg m w tag port va len rd wr) 0 4 s.nextId (fun t =>
           tabFind t.mregs s.nextId = some { part := p, port := port, va := va.toNat, len := len, rd := rd, wr := wr })) ∧
       (4096 ≤ (s.mregs.filter (fun r => r.2.part == p)).length → ends (.mreg m w tag port va len rd wr) 3 0 0 same) ∧
       (qp < 1024 → tabFind e.owner qp = some p → ends (.qpconn m w tag port qp conn) 0 0 0 (fun t =>
         t.port port = { e with conns := tabPut e.conns qp conn })) ∧
       (qp < 1024 → tabFind e.owner qp ≠ some p → ends (.qpconn m w tag port qp conn) 3 0 0 same)) ∧
     (∀ r, tabFind s.mregs key = some r →
       (r.part = p → ends (.mdereg m w tag key) 0 0 0 (fun t => tabFind t.mregs key = none)) ∧
       (r.part ≠ p → ends (.mdereg m w tag key) 2 0 0 same)) ∧
     (tabFind s.mregs key = none → ends (.mdereg m w tag key) 2 0 0 same)) ∧
  (∀ (s : State) (w : Caller) (tag : BitVec 16), s.Hears .mgmt w → s.security.boot = .open →
     let bad (i : Instr) : Prop := ∃ t, exec i s = .next t ∧ t.Ended .mgmt tag 2 0 0 ∧ t.mem = s.mem ∧ t.parts = s.parts
     bad (.partInfo .mgmt w tag) ∧ bad (.counters .mgmt w tag 0) ∧ bad (.resume .mgmt w tag) ∧ bad (.quota .mgmt w tag 0 0)) ∧
  ∀ (s : State) (p g id : Nat) (tag : BitVec 16),
    (mayCall s (.part p) (.hart g) = false → exec (.partInfo (.part p) (.hart g) tag) s = .next s) ∧
    (mayCall s (.part p) (.fabric id) = false → s.security.boot = .open →
      exec (.partInfo (.part p) (.fabric id) tag) s = .next (Prim.apply s (.reply .denied))) ∧
    (mayCall s (.part p) (.hart g) = true → (s.mailbox p).request ≠ 0 → (s.mailbox p).request ≠ 1 + tag.toNat * 2 ^ 16 →
      exec (.partInfo (.part p) (.hart g) tag) s = .next s)

/-- R71, R87, R146, R147, R151, R352, R372, R373, R376, R380, R381, R383, R386. The calls of the management mailbox, once the fabric is open. CREATE,
LOCK, START, STOP and TEARDOWN take a partition from FREE to CONFIG, LOCKED, RUN, CONFIG and FREE, and answer STATE
in any other state; a CREATE that would write a locked field takes its partition to ERROR (the model's reading, log entry 84); SLOTS makes a table pending; ACCESS, LINK, DOMAIN, MIGRATE and SLEEP do as their rows say. In a partition's
mailbox they are bad arguments; after a refused image each answers STATE. -/
def Obligations.ManagementCalls : Prop :=
  (∀ (s : State) (id p k tower mask off len peer : Nat) (tag : BitVec 16) (entry : BitVec 2048) (slots : List (BitVec 16))
     (wlogs : List Nat) (pm : Word) (mg on : Bool), s.Inv → s.Hears .mgmt (.fabric id) → s.security.boot = .open →
     let m : Mbox := .mgmt
     let w : Caller := .fabric id
     let x := s.part p
     let b := entry.toNat
     let ends (i : Instr) (status : Nat) (holds : State → Prop) : Prop :=
       ∃ t, exec i s = .next t ∧ t.Ended m tag status 0 0 ∧ holds t
     let same (t : State) : Prop := t.mem = s.mem ∧ t.harts = s.harts ∧ t.parts = s.parts
     (p < 64 → entryGood b = true →
       (x.state = .free → ends (.create m w tag p entry) 0 (fun t => t.part p = partOf b ∧ ∀ j, j ≠ p → t.part j = s.part j)) ∧
       (x.state = .config ∨ x.state = .error ∨ x.state ≠ .free ∧ x.locked = (partOf b).locked →
         ends (.create m w tag p entry) 3 same) ∧
       ((x.state = .locked ∨ x.state = .run) → x.locked ≠ (partOf b).locked → ends (.create m w tag p entry) 3 (fun t =>
         t.part p = { x with state := .error } ∧ (∀ j, j ≠ p → t.part j = s.part j) ∧ t.mem = s.mem ∧ t.harts = s.harts))) ∧
     (64 ≤ p ∨ entryGood b = false → ends (.create m w tag p entry) 2 same) ∧
     (64 ≤ p → ends (.lock m w tag p) 2 same ∧ ends (.start m w tag p) 2 same ∧ ends (.stop m w tag p) 2 same ∧
       ends (.teardown m w tag p) 2 same) ∧
     (p < 64 →
       (x.state = .config → lockable s p x = true → ends (.lock m w tag p) 0 (fun t =>
         t.part p = { x with state := .locked } ∧ tabFind t.security.measured p =
           some (Config.sha256 (byteList 256 (entryBits { x with state := .locked }))))) ∧
       (x.state ≠ .config ∨ lockable s p x = false → ends (.lock m w tag p) 3 same) ∧
       (x.state = .locked → ends (.start m w tag p) 0 (fun t => t.part p = { x with state := .run } ∧
         ∀ q, q < 64 → x.queues.testBit q = true → x.pause = false → (s.queue q).ready = none → (s.queue q).pkts ≠ [] →
           (t.queue q).ready = some s.cycle)) ∧
       (x.state ≠ .locked → ends (.start m w tag p) 3 same) ∧
       (x.state = .run → ∀ u v, Gives (roomForAll p none) (s.busy m w 19 tag) true u →
         Gives (do suspendAll p none; drainBroadcasts p; discardRest p; writeRegion p) u () v →
         ends (.stop m w tag p) 0 (fun t => t.part p = { v.part p with state := .config, kept := true, quiescer := none } ∧
           t.harts = v.harts ∧ t.mem = v.mem)) ∧
       (x.state = .run → ∀ u, Gives (roomForAll p none) (s.busy m w 19 tag) false u → ends (.stop m w tag p) 3 (fun t =>
         t.harts = u.harts ∧ t.parts = u.parts)) ∧
       (x.state ≠ .run → ends (.stop m w tag p) 3 same) ∧
       ((x.state = .config ∨ x.state = .error) → gangsOf s p none = [] →
         (∀ e ∈ s.harts, e.2.partid.toNat = p → e.2.place = none) → ends (.teardown m w tag p) 0 (fun t =>
           t.part p = Part.reset ∧ (∀ r ∈ x.ranges, ∀ a, r.1 ≤ a → a < r.1 + r.2 → t.byte (s.physical a) = 0) ∧
           (∀ a, (∀ r ∈ x.ranges, a < s.physical r.1 ∨ s.physical (r.1 + r.2) ≤ a) → t.byte a = s.byte a) ∧
           (∀ c ∈ x.cores, (t.core c).l1 = [] ∧ (t.core c).scache = [] ∧ (t.core c).icache = [] ∧
             ∀ j, j < 8192 * 96 → memByte (t.core c).spad j = 0) ∧
           (∀ e ∈ t.launches, e.2.part ≠ p) ∧ ∀ e ∈ t.graphs, e.2.part ≠ p)) ∧
       (x.state ≠ .config → x.state ≠ .error → ends (.teardown m w tag p) 3 same)) ∧
     (let tb : SlotTable := { slots := slots, bOff := off, bLen := len, wlogs := wlogs }
      (slotsGood s tower tb = true → ends (.slots m w tag tower slots off len wlogs) 0 (fun t =>
        t.tower tower = { s.tower tower with pending := some tb } ∧ t.parts = s.parts)) ∧
      (slotsGood s tower tb = false → ends (.slots m w tag tower slots off len wlogs) 2 same)) ∧
     (k < 1023 → ends (.access m w tag k pm mg) 0 (fun t => t.accessOf k = (pm, mg) ∧ t.parts = s.parts)) ∧
     (1023 ≤ k → ends (.access m w tag k pm mg) 2 same) ∧
     (18 ≤ k → ends (.link m w tag k) 2 same) ∧
     (k < 18 →
       ((s.link k).st = .down → s.Unwatched → ends (.link m w tag k) 0 (fun t => t.link k = { s.link k with
         st := .retrain
         retries := 0
         leftAt := s.cycle
         tryAt := s.cycle
         counts := (s.link k).counts.set 4 (((s.link k).counts.getD 4 0 + 1) % 2 ^ 64) })) ∧
       ((s.link k).st ≠ .down → ends (.link m w tag k) 3 same)) ∧
     (900 ≤ k → ends (.domain m w tag k) 2 same) ∧
     (k < 900 → (∀ e ∈ s.parts, e.2.state = .free) → ends (.domain m w tag k) 0 (fun t => t.pkg = k)) ∧
     (k < 900 → (∃ e ∈ s.parts, e.2.state ≠ .free) → ends (.domain m w tag k) 3 same) ∧
     (tower < 2 → (∀ t, t < 12 → mask.testBit t = true → (s.tower tower).coming.wlogs.getD t 0 ≠ 0) →
       ends (.sleep m w tag tower mask on) 0 (fun t => t.parts = s.parts ∧
         ∀ j, j < 12 → (t.tier (12 * tower + j)).policy =
           if mask.testBit j then on else (s.tier (12 * tower + j)).policy)) ∧
     (2 ≤ tower ∨ (∃ t, t < 12 ∧ mask.testBit t = true ∧ (s.tower tower).coming.wlogs.getD t 0 = 0) →
       ends (.sleep m w tag tower mask on) 2 same) ∧
     (64 ≤ p → ends (.migrate m w tag p peer true entry []) 2 same) ∧
     (p < 64 →
       (sessionWith s peer = false ∨ peerUp s peer = false → ends (.migrate m w tag p peer true entry []) 3 same) ∧
       (sessionWith s peer = true → peerUp s peer = true →
         ((x.state = .run ∨ x.state = .config) → ends (.migrate m w tag p peer true entry []) 0 (fun t => same t ∧
           t.replies = s.replies ++ [.ok, .partition (entryBits x) (cellsIn s x.ranges)])) ∧
         (∀ a v, x.state = .config → x.holds a = true → ends (.migrate m w tag p peer false entry [(a, v)]) 0 (fun t =>
           t.byte (s.physical a) = v ∧ (∀ j, j ≠ s.physical a → t.byte j = s.byte j) ∧ t.parts = s.parts)) ∧
         (x.state = .free → entryGood b = true → ends (.migrate m w tag p peer false entry []) 0 (fun t =>
           t.part p = partOf b ∧ t.mem = s.mem))))) ∧
  (∀ (s : State) (p q : Nat) (w : Caller) (tag : BitVec 16), s.Hears (.part p) w →
     let bad (i : Instr) : Prop := ∃ t, exec i s = .next t ∧ t.Ended (.part p) tag 2 0 0 ∧ t.mem = s.mem ∧ t.harts = s.harts
     bad (.create (.part p) w tag q 0) ∧ bad (.lock (.part p) w tag q) ∧ bad (.start (.part p) w tag q) ∧
     bad (.stop (.part p) w tag q) ∧ bad (.teardown (.part p) w tag q) ∧ bad (.link (.part p) w tag q)) ∧
  ∀ (s : State) (id q : Nat) (tag : BitVec 16), s.mgmtBox.request = 0 →
    (s.security.boot = .refused → ∃ t, exec (.start .mgmt (.fabric id) tag q) s = .next t ∧ t.Ended .mgmt tag 3 0 0 ∧
      t.parts = s.parts) ∧
    (s.security.boot = .monitor → q < 1023 → ∃ t, exec (.access .mgmt (.fabric id) tag q 1 true) s = .next t ∧
      t.Ended .mgmt tag 0 0 0 ∧ t.accessOf q = (1, true) ∧ t.security.boot = .open) ∧
    (s.security.boot = .off → exec (.start .mgmt (.fabric id) tag q) s = .next s)

/-- R377, R378, R379, R381, R382, R399. The device's own accesses read and write the bytes at their home. A posted work or receive line is answered with the first
check it fails, or waits; a completion gives STATUS, LEN and CYCLE; an inbound message without a receive line is answered RNR, and an
inbound access outside its registration a remote access error. The SPDM responder answers each request that comes in its order,
signs with the next leaf, and holds at most four sessions. -/
def Obligations.EthernetAndSpdm : Prop :=
  (∀ (s : State) (p va n : Nat) (v : Bits) (l : Leaf), s.Inv →
     (s.DeviceOpens p .store va n l → ∃ u, Gives (devWrite p va n v) s true u ∧ u = { s with mem := u.mem, lines := u.lines } ∧
       u.bytes l.pa n = v % 2 ^ (8 * n) ∧ ∀ a, a < l.pa ∨ l.pa + n ≤ a → u.byte a = s.byte a) ∧
     (s.DeviceOpens p .load va n l → Gives (devRead p va n) s (some (s.bytes l.pa n)) s) ∧
     (devLeaves s p .store (pagePieces va n) = none → Gives (devWrite p va n v) s false s) ∧
     (devLeaves s p .load (pagePieces va n) = none → Gives (devRead p va n) s none s)) ∧
  (∀ (s : State) (id g e p : Nat) (line : BitVec 1024), s.Inv → e < 4 → p < 64 →
     let x := s.port e
     let b := line.toNat
     let reply (r : Reply) : State := Prim.apply s (.reply r)
     (s.security.boot = .open → s.mayReach id p = false →
       exec (.workLinePost (.fabric id) e p line true) s = .next (reply .denied) ∧
       exec (.receiveLinePost (.fabric id) e p line true) s = .next (reply .denied)) ∧
     (s.security.boot = .open → s.mayReach id p = true →
       let both (full : Bool) (code : Nat) : Prop :=
         exec (.workLinePost (.fabric id) e p line full) s = .next (reply (.status code)) ∧
         exec (.receiveLinePost (.fabric id) e p line full) s = .next (reply (.status code))
       both false 1 ∧
       (x.heldBy p = false → both true 2) ∧
       (x.heldBy p = true → 256 ≤ x.outstanding p → both true 5) ∧
       (x.heldBy p = true → x.outstanding p < 256 →
         exec (.workLinePost (.fabric id) e p line true) s = .next (Prim.apply
           (Prim.apply s (.port e { x with work := x.work ++ [(p, b)] })) (.reply (.status 0))) ∧
         (lineBad b = false → tabFind x.owner (lineQp b) = some p →
           exec (.receiveLinePost (.fabric id) e p line true) s = .next (Prim.apply
             (Prim.apply s (.port e { x with recv := x.recv ++ [(lineQp b, p, b)] })) (.reply (.status 0)))) ∧
         (lineBad b = true ∨ tabFind x.owner (lineQp b) ≠ some p → completes (completionError p (lineCaddr b)) s = true →
           ∃ t, exec (.receiveLinePost (.fabric id) e p line true) s = .next t ∧ t.port e = x ∧
             t.replies = s.replies ++ [.status 0]))) ∧
     ((s.hart g).runsIn p = true → x.heldBy p = true → x.outstanding p < 256 →
       exec (.workLinePost (.hart g) e p line true) s = .next (Prim.apply s (.port e { x with work := x.work ++ [(p, b)] }))) ∧
     ((s.hart g).runsIn p = false → exec (.workLinePost (.hart g) e p line true) s = .next s)) ∧
  (∀ (s a : State) (e p : Nat) (ok : Bool) (data : List (BitVec 8)) (b : Bits) (rest : List (Nat × Bits)), s.Inv →
     (takeWork p (s.port e).work = none → exec (.workLineCompletion e p ok data) s = .next s) ∧
     (takeWork p (s.port e).work = some (b, rest) →
       Gives (countFrames e) (Prim.apply s (.port e { s.port e with work := rest })) () a →
       let done : Bool := ok && workGood (s.port e) p b
       (done = false → ∀ l, a.DeviceOpens p .store (lineCaddr b) 16 l →
         ∃ t, exec (.workLineCompletion e p ok data) s = .next t ∧ (t.port e).work = rest ∧ t.bytes l.pa 4 = 2 ∧
           t.bytes (l.pa + 8) 8 = s.cycle % 2 ^ 64) ∧
       (done = true → ∀ u d l, Gives (moveWork p b data) a d u → u.cycle = s.cycle → u.ports = a.ports →
         u.DeviceOpens p .store (lineCaddr b) 16 l →
         ∃ t, exec (.workLineCompletion e p ok data) s = .next t ∧ (t.port e).work = rest ∧
           t.bytes l.pa 4 = (if d then 1 else 2) ∧ (d = true → t.bytes (l.pa + 4) 4 = lineLen b % 2 ^ 32) ∧
           t.bytes (l.pa + 8) 8 = s.cycle % 2 ^ 64))) ∧
  (∀ (s a : State) (e qp key len p : Nat) (va : Word) (data : List (BitVec 8)) (b : Bits) (rest : List (Nat × Nat × Bits)),
     s.Inv →
     let x := s.port e
     (connected x qp = none → exec (.inboundSend e qp data) s = .next s ∧
       exec (.inboundRdmaWrite e qp key va data) s = .next s ∧ exec (.inboundRdmaRead e qp key va len) s = .next s) ∧
     (connected x qp = some p → Gives (countFrames e) s () a →
       (takeRecv qp x.recv = none → exec (.inboundSend e qp data) s = .next (Prim.apply a (.reply .rnr))) ∧
       (takeRecv qp x.recv = some (b, rest) → data.length ≤ lineLen b →
         let c := Prim.apply a (.port e { a.port e with recv := rest })
         (∀ u v, Gives (devWrite p (lineLva b) data.length (numOf data)) c true u →
           Gives (completion p (lineCaddr b) 1 data.length) u () v →
           exec (.inboundSend e qp data) s = .next (Prim.apply v (.reply .ok))) ∧
         ∀ u v, Gives (devWrite p (lineLva b) data.length (numOf data)) c false u →
           Gives (completionError p (lineCaddr b)) (Prim.apply u (.reply (.nak 2))) () v →
           exec (.inboundSend e qp data) s = .next v) ∧
       (regionFor s e p key va.toNat data.length true = false →
         exec (.inboundRdmaWrite e qp key va data) s = .next (Prim.apply a (.reply (.nak 2)))) ∧
       (regionFor s e p key va.toNat len false = false →
         exec (.inboundRdmaRead e qp key va len) s = .next (Prim.apply a (.reply (.nak 2)))) ∧
       (regionFor s e p key va.toNat data.length true = true → ∀ u, Gives (devWrite p va.toNat data.length (numOf data)) a true u →
         exec (.inboundRdmaWrite e qp key va data) s = .next (Prim.apply u (.reply .ok))) ∧
       (regionFor s e p key va.toNat len false = true → ∀ u v, Gives (devRead p va.toNat len) a (some v) u →
         exec (.inboundRdmaRead e qp key va len) s = .next (Prim.apply u (.reply (.data (byteList len v))))))) ∧
  ∀ (s : State) (peer off len index share id : Nat) (nonce : BitVec 256) (offer : List SpdmAlg) (signed : Bool),
    let x := s.security
    let all : List Instr := [.getVersion peer, .getCapabilities peer, .negotiateAlgorithms peer offer, .getDigests peer,
      .getCertificate peer off len, .challenge peer nonce, .getMeasurements peer index signed, .keyExchange peer share,
      .finish peer id, .endSession peer id]
    let tells (i : Instr) (y : Security) (r : Reply) : Prop := exec i s = .next (Prim.apply { s with security := y } (.reply r))
    (x.boot ≠ .open → ∀ i ∈ all, exec i s = .next s) ∧
    (x.boot = .open →
      tells (.getVersion peer) { x with
        versioned := peer :: x.versioned.filter (fun k => k != peer)
        capable := x.capable.filter (fun k => k != peer)
        negotiated := x.negotiated.filter (fun k => k != peer) } (.spdm 1 [0x12]) ∧
      (x.versioned.contains peer = false → tells (.getCapabilities peer) x (.spdmError 1)) ∧
      (x.versioned.contains peer = true → ∃ t b, exec (.getCapabilities peer) s = .next t ∧ b.length = 4 ∧
        t.security = { x with capable := peer :: x.capable.filter (fun k => k != peer) } ∧
        t.replies = s.replies ++ [.spdm 2 b]) ∧
      (x.capable.contains peer = false → tells (.negotiateAlgorithms peer offer) x (.spdmError 1)) ∧
      (x.capable.contains peer = true →
        ((.ecdheP384 ∈ offer ∧ .aes256Gcm ∈ offer ∧ .sha384 ∈ offer ∧ .hssVendor ∈ offer) →
          tells (.negotiateAlgorithms peer offer) { x with negotiated := peer :: x.negotiated.filter (fun k => k != peer) }
            (.spdm 3 [])) ∧
        (.ecdheP384 ∉ offer ∨ .aes256Gcm ∉ offer ∨ .sha384 ∉ offer ∨ .hssVendor ∉ offer →
          tells (.negotiateAlgorithms peer offer) x (.spdmError 2))) ∧
      (x.negotiated.contains peer = false →
        tells (.getDigests peer) x (.spdmError 1) ∧ tells (.getCertificate peer off len) x (.spdmError 1) ∧
        tells (.challenge peer nonce) x (.spdmError 1) ∧ tells (.getMeasurements peer index signed) x (.spdmError 1) ∧
        tells (.keyExchange peer share) x (.spdmError 1)) ∧
      (x.negotiated.contains peer = true →
        let next : Security := { x with leaf := x.leaf + 1 }
        let digest := chainDigest
        tells (.getDigests peer) x (.spdm 4 digest) ∧
        tells (.getCertificate peer off len) x (.spdm 5 ((Config.certChain.drop off).take len)) ∧
        (x.leaf < 2 ^ 40 →
          tells (.challenge peer nonce) next
            (.spdm 6 (digest ++ Config.hssSignature x.leaf (numBytes 32 nonce.toNat ++ digest))) ∧
          (x.sessions.length < 4 → ∃ k, tabFind x.sessions k = none ∧ (∀ j, j < k → tabFind x.sessions j ≠ none) ∧
            let mine := numBytes 96 (Config.ecdheShare x.exchanges)
            tells (.keyExchange peer share) { next with
              sessions := tabPut x.sessions k { peer := peer, finished := false }
              exchanges := x.exchanges + 1 }
              (.spdm 8 (numBytes 2 k ++ mine ++ Config.hssSignature x.leaf (numBytes 96 share ++ mine))))) ∧
        (2 ^ 40 ≤ x.leaf → tells (.challenge peer nonce) x (.spdmError 4) ∧
          (x.sessions.length < 4 → tells (.keyExchange peer share) x (.spdmError 4))) ∧
        (4 ≤ x.sessions.length → tells (.keyExchange peer share) x (.spdmError 3)) ∧
        (measurement s index = none → tells (.getMeasurements peer index signed) x (.spdmError 5)) ∧
        ∀ v, measurement s index = some v →
          tells (.getMeasurements peer index false) x (.spdm 7 v) ∧
          (x.leaf < 2 ^ 40 →
            tells (.getMeasurements peer index true) next (.spdm 7 (v ++ Config.hssSignature x.leaf v)))) ∧
      (∀ done, tabFind x.sessions id = some { peer := peer, finished := done } →
        (done = false →
          tells (.finish peer id) { x with sessions := tabPut x.sessions id { peer := peer, finished := true } } (.spdm 9 []) ∧
          tells (.endSession peer id) x (.spdmError 3)) ∧
        (done = true →
          tells (.endSession peer id) { x with sessions := tabDel x.sessions id } (.spdm 10 []) ∧
          tells (.finish peer id) x (.spdmError 3))) ∧
      (tabFind x.sessions id = none → tells (.finish peer id) x (.spdmError 3) ∧ tells (.endSession peer id) x (.spdmError 3)))
end

