-- ==== Sys2Proof/Laws/Arith.lean ====
section
/-!
SUPPORT. Laws/Arith.lean: the integer operations of width 64 as operations on words (R34 to R36).
-/
set_option Elab.async false

namespace Sys2Proof.Machine

theorem toNat_mod (x : Word) : x.toNat % 2^64 = x.toNat := Nat.mod_eq_of_lt x.isLt
theorem sg64 (x : Word) : signedOf 64 x.toNat = x.toInt := by
  simp only [signedOf, BitVec.toInt]
  rw [Nat.mod_eq_of_lt x.isLt]
  have := x.isLt
  split <;> split <;> omega
theorem int64s (x : Word) : intOf true 64 x.toNat = x.toInt := by simp [intOf, sg64]
theorem int64u (x : Word) : intOf false 64 x.toNat = (x.toNat : Int) := by
  have := x.isLt
  simp [intOf]
  omega
theorem wrap64 (z : Int) : BitVec.ofNat 64 (wrapTo 64 z) = BitVec.ofInt 64 z := by
  apply BitVec.eq_of_toNat_eq
  simp [wrapTo, BitVec.toNat_ofInt]
  omega

theorem sll_eq (x : Word) (n : Nat) : sllWord x n = if 64 ≤ n then 0 else x <<< n := by
  unfold sllWord shiftL
  split
  · rfl
  · apply BitVec.eq_of_toNat_eq
    simp
theorem srl_eq (x : Word) (n : Nat) : srlWord x n = if 64 ≤ n then 0 else x >>> n := by
  unfold srlWord shiftR
  split
  · rfl
  · apply BitVec.eq_of_toNat_eq
    rw [toNat_mod]
    simp
    exact lt_of_le_of_lt (Nat.shiftRight_le _ _) x.isLt
theorem sra_eq (x : Word) (n : Nat) : sraWord x n = if 64 ≤ n then (if x.msb then BitVec.allOnes 64 else 0) else x.sshiftRight n := by
  unfold sraWord shiftA
  rw [wrap64, sg64]
  split
  · rename_i h
    rw [min_eq_right (by omega)]
    have h1 := BitVec.toInt_lt (x := x)
    have h2 := BitVec.le_toInt (x := x)
    split
    · rename_i hm
      have : x.toInt < 0 := by rw [BitVec.msb_eq_toInt] at hm; simpa using hm
      have : x.toInt / ((2^64 : Nat) : Int) = -1 := by omega
      rw [this]; rfl
    · rename_i hm
      have : ¬ x.toInt < 0 := by rw [BitVec.msb_eq_toInt] at hm; simpa using hm
      have : x.toInt / ((2^64 : Nat) : Int) = 0 := by omega
      rw [this]; rfl
  · rename_i h
    rw [min_eq_left (by omega)]
    rw [BitVec.sshiftRight, Int.shiftRight_eq_div_pow]

end Sys2Proof.Machine
end

