-- ==== Sys2Proof/Laws/State.lean ====
section
/-!
SUPPORT. Laws/State.lean: what each primitive update of the state, and each named operation on a hart, does to each field;
every lemma is true by unfolding that one definition. Nothing later need unfold a record update.
-/
set_option Elab.async false

namespace Sys2Proof.Machine

/-! ### .hart -/

@[simp] theorem Prim.hart_cycle (s : State) (g : Nat) (h : Hart) : (Prim.apply s (.hart g h)).cycle = s.cycle := rfl
@[simp] theorem Prim.hart_pkg (s : State) (g : Nat) (h : Hart) : (Prim.apply s (.hart g h)).pkg = s.pkg := rfl
@[simp] theorem Prim.hart_mem (s : State) (g : Nat) (h : Hart) : (Prim.apply s (.hart g h)).mem = s.mem := rfl
@[simp] theorem Prim.hart_lines (s : State) (g : Nat) (h : Hart) : (Prim.apply s (.hart g h)).lines = s.lines := rfl
@[simp] theorem Prim.hart_harts (s : State) (g : Nat) (h : Hart) : (Prim.apply s (.hart g h)).harts = tabPut s.harts g h.canon := rfl
@[simp] theorem Prim.hart_cores (s : State) (g : Nat) (h : Hart) : (Prim.apply s (.hart g h)).cores = s.cores := rfl
@[simp] theorem Prim.hart_clusters (s : State) (g : Nat) (h : Hart) : (Prim.apply s (.hart g h)).clusters = s.clusters := rfl
@[simp] theorem Prim.hart_tiers (s : State) (g : Nat) (h : Hart) : (Prim.apply s (.hart g h)).tiers = s.tiers := rfl
@[simp] theorem Prim.hart_towers (s : State) (g : Nat) (h : Hart) : (Prim.apply s (.hart g h)).towers = s.towers := rfl
@[simp] theorem Prim.hart_parts (s : State) (g : Nat) (h : Hart) : (Prim.apply s (.hart g h)).parts = s.parts := rfl
@[simp] theorem Prim.hart_queues (s : State) (g : Nat) (h : Hart) : (Prim.apply s (.hart g h)).queues = s.queues := rfl
@[simp] theorem Prim.hart_launches (s : State) (g : Nat) (h : Hart) : (Prim.apply s (.hart g h)).launches = s.launches := rfl
@[simp] theorem Prim.hart_gangs (s : State) (g : Nat) (h : Hart) : (Prim.apply s (.hart g h)).gangs = s.gangs := rfl
@[simp] theorem Prim.hart_graphs (s : State) (g : Nat) (h : Hart) : (Prim.apply s (.hart g h)).graphs = s.graphs := rfl
@[simp] theorem Prim.hart_links (s : State) (g : Nat) (h : Hart) : (Prim.apply s (.hart g h)).links = s.links := rfl
@[simp] theorem Prim.hart_access (s : State) (g : Nat) (h : Hart) : (Prim.apply s (.hart g h)).access = s.access := rfl
@[simp] theorem Prim.hart_mailboxes (s : State) (g : Nat) (h : Hart) : (Prim.apply s (.hart g h)).mailboxes = s.mailboxes := rfl
@[simp] theorem Prim.hart_mgmtBox (s : State) (g : Nat) (h : Hart) : (Prim.apply s (.hart g h)).mgmtBox = s.mgmtBox := rfl
@[simp] theorem Prim.hart_ports (s : State) (g : Nat) (h : Hart) : (Prim.apply s (.hart g h)).ports = s.ports := rfl
@[simp] theorem Prim.hart_mregs (s : State) (g : Nat) (h : Hart) : (Prim.apply s (.hart g h)).mregs = s.mregs := rfl
@[simp] theorem Prim.hart_nextId (s : State) (g : Nat) (h : Hart) : (Prim.apply s (.hart g h)).nextId = s.nextId := rfl
@[simp] theorem Prim.hart_security (s : State) (g : Nat) (h : Hart) : (Prim.apply s (.hart g h)).security = s.security := rfl
@[simp] theorem Prim.hart_mxrate (s : State) (g : Nat) (h : Hart) : (Prim.apply s (.hart g h)).mxrate = s.mxrate := rfl
@[simp] theorem Prim.hart_powered (s : State) (g : Nat) (h : Hart) : (Prim.apply s (.hart g h)).powered = s.powered := rfl
@[simp] theorem Prim.hart_replies (s : State) (g : Nat) (h : Hart) : (Prim.apply s (.hart g h)).replies = s.replies := rfl
@[simp] theorem Prim.hart_sched (s : State) (g : Nat) (h : Hart) : (Prim.apply s (.hart g h)).sched = s.sched := rfl
@[simp] theorem Prim.hart_doing (s : State) (g : Nat) (h : Hart) : (Prim.apply s (.hart g h)).doing = s.doing := rfl
@[simp] theorem Prim.hart_cur (s : State) (g : Nat) (h : Hart) : (Prim.apply s (.hart g h)).cur = s.cur := rfl
@[simp] theorem Prim.hart_lag (s : State) (g : Nat) (h : Hart) : (Prim.apply s (.hart g h)).lag = s.lag := rfl
@[simp] theorem Prim.hart_freeCtr (s : State) (g : Nat) (h : Hart) : (Prim.apply s (.hart g h)).freeCtr = s.freeCtr := rfl
@[simp] theorem Prim.hart_reclaims (s : State) (g : Nat) (h : Hart) : (Prim.apply s (.hart g h)).reclaims = s.reclaims := rfl

/-! ### .core -/

@[simp] theorem Prim.core_cycle (s : State) (c : Nat) (k : Core) : (Prim.apply s (.core c k)).cycle = s.cycle := rfl
@[simp] theorem Prim.core_pkg (s : State) (c : Nat) (k : Core) : (Prim.apply s (.core c k)).pkg = s.pkg := rfl
@[simp] theorem Prim.core_mem (s : State) (c : Nat) (k : Core) : (Prim.apply s (.core c k)).mem = s.mem := rfl
@[simp] theorem Prim.core_lines (s : State) (c : Nat) (k : Core) : (Prim.apply s (.core c k)).lines = s.lines := rfl
@[simp] theorem Prim.core_harts (s : State) (c : Nat) (k : Core) : (Prim.apply s (.core c k)).harts = s.harts := rfl
@[simp] theorem Prim.core_cores (s : State) (c : Nat) (k : Core) : (Prim.apply s (.core c k)).cores = tabPut s.cores c { k with spad := (s.core c).spad } := rfl
@[simp] theorem Prim.core_clusters (s : State) (c : Nat) (k : Core) : (Prim.apply s (.core c k)).clusters = s.clusters := rfl
@[simp] theorem Prim.core_tiers (s : State) (c : Nat) (k : Core) : (Prim.apply s (.core c k)).tiers = s.tiers := rfl
@[simp] theorem Prim.core_towers (s : State) (c : Nat) (k : Core) : (Prim.apply s (.core c k)).towers = s.towers := rfl
@[simp] theorem Prim.core_parts (s : State) (c : Nat) (k : Core) : (Prim.apply s (.core c k)).parts = s.parts := rfl
@[simp] theorem Prim.core_queues (s : State) (c : Nat) (k : Core) : (Prim.apply s (.core c k)).queues = s.queues := rfl
@[simp] theorem Prim.core_launches (s : State) (c : Nat) (k : Core) : (Prim.apply s (.core c k)).launches = s.launches := rfl
@[simp] theorem Prim.core_gangs (s : State) (c : Nat) (k : Core) : (Prim.apply s (.core c k)).gangs = s.gangs := rfl
@[simp] theorem Prim.core_graphs (s : State) (c : Nat) (k : Core) : (Prim.apply s (.core c k)).graphs = s.graphs := rfl
@[simp] theorem Prim.core_links (s : State) (c : Nat) (k : Core) : (Prim.apply s (.core c k)).links = s.links := rfl
@[simp] theorem Prim.core_access (s : State) (c : Nat) (k : Core) : (Prim.apply s (.core c k)).access = s.access := rfl
@[simp] theorem Prim.core_mailboxes (s : State) (c : Nat) (k : Core) : (Prim.apply s (.core c k)).mailboxes = s.mailboxes := rfl
@[simp] theorem Prim.core_mgmtBox (s : State) (c : Nat) (k : Core) : (Prim.apply s (.core c k)).mgmtBox = s.mgmtBox := rfl
@[simp] theorem Prim.core_ports (s : State) (c : Nat) (k : Core) : (Prim.apply s (.core c k)).ports = s.ports := rfl
@[simp] theorem Prim.core_mregs (s : State) (c : Nat) (k : Core) : (Prim.apply s (.core c k)).mregs = s.mregs := rfl
@[simp] theorem Prim.core_nextId (s : State) (c : Nat) (k : Core) : (Prim.apply s (.core c k)).nextId = s.nextId := rfl
@[simp] theorem Prim.core_security (s : State) (c : Nat) (k : Core) : (Prim.apply s (.core c k)).security = s.security := rfl
@[simp] theorem Prim.core_mxrate (s : State) (c : Nat) (k : Core) : (Prim.apply s (.core c k)).mxrate = s.mxrate := rfl
@[simp] theorem Prim.core_powered (s : State) (c : Nat) (k : Core) : (Prim.apply s (.core c k)).powered = s.powered := rfl
@[simp] theorem Prim.core_replies (s : State) (c : Nat) (k : Core) : (Prim.apply s (.core c k)).replies = s.replies := rfl
@[simp] theorem Prim.core_sched (s : State) (c : Nat) (k : Core) : (Prim.apply s (.core c k)).sched = s.sched := rfl
@[simp] theorem Prim.core_doing (s : State) (c : Nat) (k : Core) : (Prim.apply s (.core c k)).doing = s.doing := rfl
@[simp] theorem Prim.core_cur (s : State) (c : Nat) (k : Core) : (Prim.apply s (.core c k)).cur = s.cur := rfl
@[simp] theorem Prim.core_lag (s : State) (c : Nat) (k : Core) : (Prim.apply s (.core c k)).lag = s.lag := rfl
@[simp] theorem Prim.core_freeCtr (s : State) (c : Nat) (k : Core) : (Prim.apply s (.core c k)).freeCtr = s.freeCtr := rfl
@[simp] theorem Prim.core_reclaims (s : State) (c : Nat) (k : Core) : (Prim.apply s (.core c k)).reclaims = s.reclaims := rfl

/-! ### .spad -/

@[simp] theorem Prim.spad_cycle (s : State) (c a n : Nat) (v : Bits) : (Prim.apply s (.spad c a n v)).cycle = s.cycle := rfl
@[simp] theorem Prim.spad_pkg (s : State) (c a n : Nat) (v : Bits) : (Prim.apply s (.spad c a n v)).pkg = s.pkg := rfl
@[simp] theorem Prim.spad_mem (s : State) (c a n : Nat) (v : Bits) : (Prim.apply s (.spad c a n v)).mem = s.mem := rfl
@[simp] theorem Prim.spad_lines (s : State) (c a n : Nat) (v : Bits) : (Prim.apply s (.spad c a n v)).lines = s.lines := rfl
@[simp] theorem Prim.spad_harts (s : State) (c a n : Nat) (v : Bits) : (Prim.apply s (.spad c a n v)).harts = s.harts := rfl
@[simp] theorem Prim.spad_cores (s : State) (c a n : Nat) (v : Bits) : (Prim.apply s (.spad c a n v)).cores = tabPut s.cores c { s.core c with spad := memWrite (s.core c).spad a n v } := rfl
@[simp] theorem Prim.spad_clusters (s : State) (c a n : Nat) (v : Bits) : (Prim.apply s (.spad c a n v)).clusters = s.clusters := rfl
@[simp] theorem Prim.spad_tiers (s : State) (c a n : Nat) (v : Bits) : (Prim.apply s (.spad c a n v)).tiers = s.tiers := rfl
@[simp] theorem Prim.spad_towers (s : State) (c a n : Nat) (v : Bits) : (Prim.apply s (.spad c a n v)).towers = s.towers := rfl
@[simp] theorem Prim.spad_parts (s : State) (c a n : Nat) (v : Bits) : (Prim.apply s (.spad c a n v)).parts = s.parts := rfl
@[simp] theorem Prim.spad_queues (s : State) (c a n : Nat) (v : Bits) : (Prim.apply s (.spad c a n v)).queues = s.queues := rfl
@[simp] theorem Prim.spad_launches (s : State) (c a n : Nat) (v : Bits) : (Prim.apply s (.spad c a n v)).launches = s.launches := rfl
@[simp] theorem Prim.spad_gangs (s : State) (c a n : Nat) (v : Bits) : (Prim.apply s (.spad c a n v)).gangs = s.gangs := rfl
@[simp] theorem Prim.spad_graphs (s : State) (c a n : Nat) (v : Bits) : (Prim.apply s (.spad c a n v)).graphs = s.graphs := rfl
@[simp] theorem Prim.spad_links (s : State) (c a n : Nat) (v : Bits) : (Prim.apply s (.spad c a n v)).links = s.links := rfl
@[simp] theorem Prim.spad_access (s : State) (c a n : Nat) (v : Bits) : (Prim.apply s (.spad c a n v)).access = s.access := rfl
@[simp] theorem Prim.spad_mailboxes (s : State) (c a n : Nat) (v : Bits) : (Prim.apply s (.spad c a n v)).mailboxes = s.mailboxes := rfl
@[simp] theorem Prim.spad_mgmtBox (s : State) (c a n : Nat) (v : Bits) : (Prim.apply s (.spad c a n v)).mgmtBox = s.mgmtBox := rfl
@[simp] theorem Prim.spad_ports (s : State) (c a n : Nat) (v : Bits) : (Prim.apply s (.spad c a n v)).ports = s.ports := rfl
@[simp] theorem Prim.spad_mregs (s : State) (c a n : Nat) (v : Bits) : (Prim.apply s (.spad c a n v)).mregs = s.mregs := rfl
@[simp] theorem Prim.spad_nextId (s : State) (c a n : Nat) (v : Bits) : (Prim.apply s (.spad c a n v)).nextId = s.nextId := rfl
@[simp] theorem Prim.spad_security (s : State) (c a n : Nat) (v : Bits) : (Prim.apply s (.spad c a n v)).security = s.security := rfl
@[simp] theorem Prim.spad_mxrate (s : State) (c a n : Nat) (v : Bits) : (Prim.apply s (.spad c a n v)).mxrate = s.mxrate := rfl
@[simp] theorem Prim.spad_powered (s : State) (c a n : Nat) (v : Bits) : (Prim.apply s (.spad c a n v)).powered = s.powered := rfl
@[simp] theorem Prim.spad_replies (s : State) (c a n : Nat) (v : Bits) : (Prim.apply s (.spad c a n v)).replies = s.replies := rfl
@[simp] theorem Prim.spad_sched (s : State) (c a n : Nat) (v : Bits) : (Prim.apply s (.spad c a n v)).sched = s.sched := rfl
@[simp] theorem Prim.spad_doing (s : State) (c a n : Nat) (v : Bits) : (Prim.apply s (.spad c a n v)).doing = s.doing := rfl
@[simp] theorem Prim.spad_cur (s : State) (c a n : Nat) (v : Bits) : (Prim.apply s (.spad c a n v)).cur = s.cur := rfl
@[simp] theorem Prim.spad_lag (s : State) (c a n : Nat) (v : Bits) : (Prim.apply s (.spad c a n v)).lag = s.lag := rfl
@[simp] theorem Prim.spad_freeCtr (s : State) (c a n : Nat) (v : Bits) : (Prim.apply s (.spad c a n v)).freeCtr = s.freeCtr := rfl
@[simp] theorem Prim.spad_reclaims (s : State) (c a n : Nat) (v : Bits) : (Prim.apply s (.spad c a n v)).reclaims = s.reclaims := rfl

/-! ### .mem -/

@[simp] theorem Prim.mem_cycle (s : State) (a n : Nat) (v : Bits) : (Prim.apply s (.mem a n v)).cycle = s.cycle := rfl
@[simp] theorem Prim.mem_pkg (s : State) (a n : Nat) (v : Bits) : (Prim.apply s (.mem a n v)).pkg = s.pkg := rfl
@[simp] theorem Prim.mem_mem (s : State) (a n : Nat) (v : Bits) : (Prim.apply s (.mem a n v)).mem = memWrite s.mem a n v := rfl
@[simp] theorem Prim.mem_lines (s : State) (a n : Nat) (v : Bits) : (Prim.apply s (.mem a n v)).lines = s.lines := rfl
@[simp] theorem Prim.mem_harts (s : State) (a n : Nat) (v : Bits) : (Prim.apply s (.mem a n v)).harts = s.harts := rfl
@[simp] theorem Prim.mem_cores (s : State) (a n : Nat) (v : Bits) : (Prim.apply s (.mem a n v)).cores = s.cores := rfl
@[simp] theorem Prim.mem_clusters (s : State) (a n : Nat) (v : Bits) : (Prim.apply s (.mem a n v)).clusters = s.clusters := rfl
@[simp] theorem Prim.mem_tiers (s : State) (a n : Nat) (v : Bits) : (Prim.apply s (.mem a n v)).tiers = s.tiers := rfl
@[simp] theorem Prim.mem_towers (s : State) (a n : Nat) (v : Bits) : (Prim.apply s (.mem a n v)).towers = s.towers := rfl
@[simp] theorem Prim.mem_parts (s : State) (a n : Nat) (v : Bits) : (Prim.apply s (.mem a n v)).parts = s.parts := rfl
@[simp] theorem Prim.mem_queues (s : State) (a n : Nat) (v : Bits) : (Prim.apply s (.mem a n v)).queues = s.queues := rfl
@[simp] theorem Prim.mem_launches (s : State) (a n : Nat) (v : Bits) : (Prim.apply s (.mem a n v)).launches = s.launches := rfl
@[simp] theorem Prim.mem_gangs (s : State) (a n : Nat) (v : Bits) : (Prim.apply s (.mem a n v)).gangs = s.gangs := rfl
@[simp] theorem Prim.mem_graphs (s : State) (a n : Nat) (v : Bits) : (Prim.apply s (.mem a n v)).graphs = s.graphs := rfl
@[simp] theorem Prim.mem_links (s : State) (a n : Nat) (v : Bits) : (Prim.apply s (.mem a n v)).links = s.links := rfl
@[simp] theorem Prim.mem_access (s : State) (a n : Nat) (v : Bits) : (Prim.apply s (.mem a n v)).access = s.access := rfl
@[simp] theorem Prim.mem_mailboxes (s : State) (a n : Nat) (v : Bits) : (Prim.apply s (.mem a n v)).mailboxes = s.mailboxes := rfl
@[simp] theorem Prim.mem_mgmtBox (s : State) (a n : Nat) (v : Bits) : (Prim.apply s (.mem a n v)).mgmtBox = s.mgmtBox := rfl
@[simp] theorem Prim.mem_ports (s : State) (a n : Nat) (v : Bits) : (Prim.apply s (.mem a n v)).ports = s.ports := rfl
@[simp] theorem Prim.mem_mregs (s : State) (a n : Nat) (v : Bits) : (Prim.apply s (.mem a n v)).mregs = s.mregs := rfl
@[simp] theorem Prim.mem_nextId (s : State) (a n : Nat) (v : Bits) : (Prim.apply s (.mem a n v)).nextId = s.nextId := rfl
@[simp] theorem Prim.mem_security (s : State) (a n : Nat) (v : Bits) : (Prim.apply s (.mem a n v)).security = s.security := rfl
@[simp] theorem Prim.mem_mxrate (s : State) (a n : Nat) (v : Bits) : (Prim.apply s (.mem a n v)).mxrate = s.mxrate := rfl
@[simp] theorem Prim.mem_powered (s : State) (a n : Nat) (v : Bits) : (Prim.apply s (.mem a n v)).powered = s.powered := rfl
@[simp] theorem Prim.mem_replies (s : State) (a n : Nat) (v : Bits) : (Prim.apply s (.mem a n v)).replies = s.replies := rfl
@[simp] theorem Prim.mem_sched (s : State) (a n : Nat) (v : Bits) : (Prim.apply s (.mem a n v)).sched = s.sched := rfl
@[simp] theorem Prim.mem_doing (s : State) (a n : Nat) (v : Bits) : (Prim.apply s (.mem a n v)).doing = s.doing := rfl
@[simp] theorem Prim.mem_cur (s : State) (a n : Nat) (v : Bits) : (Prim.apply s (.mem a n v)).cur = s.cur := rfl
@[simp] theorem Prim.mem_lag (s : State) (a n : Nat) (v : Bits) : (Prim.apply s (.mem a n v)).lag = s.lag := rfl
@[simp] theorem Prim.mem_freeCtr (s : State) (a n : Nat) (v : Bits) : (Prim.apply s (.mem a n v)).freeCtr = s.freeCtr := rfl
@[simp] theorem Prim.mem_reclaims (s : State) (a n : Nat) (v : Bits) : (Prim.apply s (.mem a n v)).reclaims = s.reclaims := rfl

/-! ### .line -/

@[simp] theorem Prim.line_cycle (s : State) (l : Nat) (x : LineMeta) : (Prim.apply s (.line l x)).cycle = s.cycle := rfl
@[simp] theorem Prim.line_pkg (s : State) (l : Nat) (x : LineMeta) : (Prim.apply s (.line l x)).pkg = s.pkg := rfl
@[simp] theorem Prim.line_mem (s : State) (l : Nat) (x : LineMeta) : (Prim.apply s (.line l x)).mem = s.mem := rfl
@[simp] theorem Prim.line_lines (s : State) (l : Nat) (x : LineMeta) : (Prim.apply s (.line l x)).lines = if x = LineMeta.reset then tabDel s.lines l else tabPut s.lines l x := rfl
@[simp] theorem Prim.line_harts (s : State) (l : Nat) (x : LineMeta) : (Prim.apply s (.line l x)).harts = s.harts := rfl
@[simp] theorem Prim.line_cores (s : State) (l : Nat) (x : LineMeta) : (Prim.apply s (.line l x)).cores = s.cores := rfl
@[simp] theorem Prim.line_clusters (s : State) (l : Nat) (x : LineMeta) : (Prim.apply s (.line l x)).clusters = s.clusters := rfl
@[simp] theorem Prim.line_tiers (s : State) (l : Nat) (x : LineMeta) : (Prim.apply s (.line l x)).tiers = s.tiers := rfl
@[simp] theorem Prim.line_towers (s : State) (l : Nat) (x : LineMeta) : (Prim.apply s (.line l x)).towers = s.towers := rfl
@[simp] theorem Prim.line_parts (s : State) (l : Nat) (x : LineMeta) : (Prim.apply s (.line l x)).parts = s.parts := rfl
@[simp] theorem Prim.line_queues (s : State) (l : Nat) (x : LineMeta) : (Prim.apply s (.line l x)).queues = s.queues := rfl
@[simp] theorem Prim.line_launches (s : State) (l : Nat) (x : LineMeta) : (Prim.apply s (.line l x)).launches = s.launches := rfl
@[simp] theorem Prim.line_gangs (s : State) (l : Nat) (x : LineMeta) : (Prim.apply s (.line l x)).gangs = s.gangs := rfl
@[simp] theorem Prim.line_graphs (s : State) (l : Nat) (x : LineMeta) : (Prim.apply s (.line l x)).graphs = s.graphs := rfl
@[simp] theorem Prim.line_links (s : State) (l : Nat) (x : LineMeta) : (Prim.apply s (.line l x)).links = s.links := rfl
@[simp] theorem Prim.line_access (s : State) (l : Nat) (x : LineMeta) : (Prim.apply s (.line l x)).access = s.access := rfl
@[simp] theorem Prim.line_mailboxes (s : State) (l : Nat) (x : LineMeta) : (Prim.apply s (.line l x)).mailboxes = s.mailboxes := rfl
@[simp] theorem Prim.line_mgmtBox (s : State) (l : Nat) (x : LineMeta) : (Prim.apply s (.line l x)).mgmtBox = s.mgmtBox := rfl
@[simp] theorem Prim.line_ports (s : State) (l : Nat) (x : LineMeta) : (Prim.apply s (.line l x)).ports = s.ports := rfl
@[simp] theorem Prim.line_mregs (s : State) (l : Nat) (x : LineMeta) : (Prim.apply s (.line l x)).mregs = s.mregs := rfl
@[simp] theorem Prim.line_nextId (s : State) (l : Nat) (x : LineMeta) : (Prim.apply s (.line l x)).nextId = s.nextId := rfl
@[simp] theorem Prim.line_security (s : State) (l : Nat) (x : LineMeta) : (Prim.apply s (.line l x)).security = s.security := rfl
@[simp] theorem Prim.line_mxrate (s : State) (l : Nat) (x : LineMeta) : (Prim.apply s (.line l x)).mxrate = s.mxrate := rfl
@[simp] theorem Prim.line_powered (s : State) (l : Nat) (x : LineMeta) : (Prim.apply s (.line l x)).powered = s.powered := rfl
@[simp] theorem Prim.line_replies (s : State) (l : Nat) (x : LineMeta) : (Prim.apply s (.line l x)).replies = s.replies := rfl
@[simp] theorem Prim.line_sched (s : State) (l : Nat) (x : LineMeta) : (Prim.apply s (.line l x)).sched = s.sched := rfl
@[simp] theorem Prim.line_doing (s : State) (l : Nat) (x : LineMeta) : (Prim.apply s (.line l x)).doing = s.doing := rfl
@[simp] theorem Prim.line_cur (s : State) (l : Nat) (x : LineMeta) : (Prim.apply s (.line l x)).cur = s.cur := rfl
@[simp] theorem Prim.line_lag (s : State) (l : Nat) (x : LineMeta) : (Prim.apply s (.line l x)).lag = s.lag := rfl
@[simp] theorem Prim.line_freeCtr (s : State) (l : Nat) (x : LineMeta) : (Prim.apply s (.line l x)).freeCtr = s.freeCtr := rfl
@[simp] theorem Prim.line_reclaims (s : State) (l : Nat) (x : LineMeta) : (Prim.apply s (.line l x)).reclaims = s.reclaims := rfl

/-! ### .cc -/

@[simp] theorem Prim.cc_cycle (s : State) (c l : Nat) (x : Option CcLine) : (Prim.apply s (.cc c l x)).cycle = s.cycle := rfl
@[simp] theorem Prim.cc_pkg (s : State) (c l : Nat) (x : Option CcLine) : (Prim.apply s (.cc c l x)).pkg = s.pkg := rfl
@[simp] theorem Prim.cc_mem (s : State) (c l : Nat) (x : Option CcLine) : (Prim.apply s (.cc c l x)).mem = s.mem := rfl
@[simp] theorem Prim.cc_lines (s : State) (c l : Nat) (x : Option CcLine) : (Prim.apply s (.cc c l x)).lines = s.lines := rfl
@[simp] theorem Prim.cc_harts (s : State) (c l : Nat) (x : Option CcLine) : (Prim.apply s (.cc c l x)).harts = s.harts := rfl
@[simp] theorem Prim.cc_cores (s : State) (c l : Nat) (x : Option CcLine) : (Prim.apply s (.cc c l x)).cores = s.cores := rfl
@[simp] theorem Prim.cc_clusters (s : State) (c l : Nat) (x : Option CcLine) : (Prim.apply s (.cc c l x)).clusters = tabPut s.clusters c (tabSet (s.cluster c) l x) := rfl
@[simp] theorem Prim.cc_tiers (s : State) (c l : Nat) (x : Option CcLine) : (Prim.apply s (.cc c l x)).tiers = s.tiers := rfl
@[simp] theorem Prim.cc_towers (s : State) (c l : Nat) (x : Option CcLine) : (Prim.apply s (.cc c l x)).towers = s.towers := rfl
@[simp] theorem Prim.cc_parts (s : State) (c l : Nat) (x : Option CcLine) : (Prim.apply s (.cc c l x)).parts = s.parts := rfl
@[simp] theorem Prim.cc_queues (s : State) (c l : Nat) (x : Option CcLine) : (Prim.apply s (.cc c l x)).queues = s.queues := rfl
@[simp] theorem Prim.cc_launches (s : State) (c l : Nat) (x : Option CcLine) : (Prim.apply s (.cc c l x)).launches = s.launches := rfl
@[simp] theorem Prim.cc_gangs (s : State) (c l : Nat) (x : Option CcLine) : (Prim.apply s (.cc c l x)).gangs = s.gangs := rfl
@[simp] theorem Prim.cc_graphs (s : State) (c l : Nat) (x : Option CcLine) : (Prim.apply s (.cc c l x)).graphs = s.graphs := rfl
@[simp] theorem Prim.cc_links (s : State) (c l : Nat) (x : Option CcLine) : (Prim.apply s (.cc c l x)).links = s.links := rfl
@[simp] theorem Prim.cc_access (s : State) (c l : Nat) (x : Option CcLine) : (Prim.apply s (.cc c l x)).access = s.access := rfl
@[simp] theorem Prim.cc_mailboxes (s : State) (c l : Nat) (x : Option CcLine) : (Prim.apply s (.cc c l x)).mailboxes = s.mailboxes := rfl
@[simp] theorem Prim.cc_mgmtBox (s : State) (c l : Nat) (x : Option CcLine) : (Prim.apply s (.cc c l x)).mgmtBox = s.mgmtBox := rfl
@[simp] theorem Prim.cc_ports (s : State) (c l : Nat) (x : Option CcLine) : (Prim.apply s (.cc c l x)).ports = s.ports := rfl
@[simp] theorem Prim.cc_mregs (s : State) (c l : Nat) (x : Option CcLine) : (Prim.apply s (.cc c l x)).mregs = s.mregs := rfl
@[simp] theorem Prim.cc_nextId (s : State) (c l : Nat) (x : Option CcLine) : (Prim.apply s (.cc c l x)).nextId = s.nextId := rfl
@[simp] theorem Prim.cc_security (s : State) (c l : Nat) (x : Option CcLine) : (Prim.apply s (.cc c l x)).security = s.security := rfl
@[simp] theorem Prim.cc_mxrate (s : State) (c l : Nat) (x : Option CcLine) : (Prim.apply s (.cc c l x)).mxrate = s.mxrate := rfl
@[simp] theorem Prim.cc_powered (s : State) (c l : Nat) (x : Option CcLine) : (Prim.apply s (.cc c l x)).powered = s.powered := rfl
@[simp] theorem Prim.cc_replies (s : State) (c l : Nat) (x : Option CcLine) : (Prim.apply s (.cc c l x)).replies = s.replies := rfl
@[simp] theorem Prim.cc_sched (s : State) (c l : Nat) (x : Option CcLine) : (Prim.apply s (.cc c l x)).sched = s.sched := rfl
@[simp] theorem Prim.cc_doing (s : State) (c l : Nat) (x : Option CcLine) : (Prim.apply s (.cc c l x)).doing = s.doing := rfl
@[simp] theorem Prim.cc_cur (s : State) (c l : Nat) (x : Option CcLine) : (Prim.apply s (.cc c l x)).cur = s.cur := rfl
@[simp] theorem Prim.cc_lag (s : State) (c l : Nat) (x : Option CcLine) : (Prim.apply s (.cc c l x)).lag = s.lag := rfl
@[simp] theorem Prim.cc_freeCtr (s : State) (c l : Nat) (x : Option CcLine) : (Prim.apply s (.cc c l x)).freeCtr = s.freeCtr := rfl
@[simp] theorem Prim.cc_reclaims (s : State) (c l : Nat) (x : Option CcLine) : (Prim.apply s (.cc c l x)).reclaims = s.reclaims := rfl

/-! ### .tier -/

@[simp] theorem Prim.tier_cycle (s : State) (t : Nat) (x : Tier) : (Prim.apply s (.tier t x)).cycle = s.cycle := rfl
@[simp] theorem Prim.tier_pkg (s : State) (t : Nat) (x : Tier) : (Prim.apply s (.tier t x)).pkg = s.pkg := rfl
@[simp] theorem Prim.tier_mem (s : State) (t : Nat) (x : Tier) : (Prim.apply s (.tier t x)).mem = s.mem := rfl
@[simp] theorem Prim.tier_lines (s : State) (t : Nat) (x : Tier) : (Prim.apply s (.tier t x)).lines = s.lines := rfl
@[simp] theorem Prim.tier_harts (s : State) (t : Nat) (x : Tier) : (Prim.apply s (.tier t x)).harts = s.harts := rfl
@[simp] theorem Prim.tier_cores (s : State) (t : Nat) (x : Tier) : (Prim.apply s (.tier t x)).cores = s.cores := rfl
@[simp] theorem Prim.tier_clusters (s : State) (t : Nat) (x : Tier) : (Prim.apply s (.tier t x)).clusters = s.clusters := rfl
@[simp] theorem Prim.tier_tiers (s : State) (t : Nat) (x : Tier) : (Prim.apply s (.tier t x)).tiers = tabPut s.tiers t x := rfl
@[simp] theorem Prim.tier_towers (s : State) (t : Nat) (x : Tier) : (Prim.apply s (.tier t x)).towers = s.towers := rfl
@[simp] theorem Prim.tier_parts (s : State) (t : Nat) (x : Tier) : (Prim.apply s (.tier t x)).parts = s.parts := rfl
@[simp] theorem Prim.tier_queues (s : State) (t : Nat) (x : Tier) : (Prim.apply s (.tier t x)).queues = s.queues := rfl
@[simp] theorem Prim.tier_launches (s : State) (t : Nat) (x : Tier) : (Prim.apply s (.tier t x)).launches = s.launches := rfl
@[simp] theorem Prim.tier_gangs (s : State) (t : Nat) (x : Tier) : (Prim.apply s (.tier t x)).gangs = s.gangs := rfl
@[simp] theorem Prim.tier_graphs (s : State) (t : Nat) (x : Tier) : (Prim.apply s (.tier t x)).graphs = s.graphs := rfl
@[simp] theorem Prim.tier_links (s : State) (t : Nat) (x : Tier) : (Prim.apply s (.tier t x)).links = s.links := rfl
@[simp] theorem Prim.tier_access (s : State) (t : Nat) (x : Tier) : (Prim.apply s (.tier t x)).access = s.access := rfl
@[simp] theorem Prim.tier_mailboxes (s : State) (t : Nat) (x : Tier) : (Prim.apply s (.tier t x)).mailboxes = s.mailboxes := rfl
@[simp] theorem Prim.tier_mgmtBox (s : State) (t : Nat) (x : Tier) : (Prim.apply s (.tier t x)).mgmtBox = s.mgmtBox := rfl
@[simp] theorem Prim.tier_ports (s : State) (t : Nat) (x : Tier) : (Prim.apply s (.tier t x)).ports = s.ports := rfl
@[simp] theorem Prim.tier_mregs (s : State) (t : Nat) (x : Tier) : (Prim.apply s (.tier t x)).mregs = s.mregs := rfl
@[simp] theorem Prim.tier_nextId (s : State) (t : Nat) (x : Tier) : (Prim.apply s (.tier t x)).nextId = s.nextId := rfl
@[simp] theorem Prim.tier_security (s : State) (t : Nat) (x : Tier) : (Prim.apply s (.tier t x)).security = s.security := rfl
@[simp] theorem Prim.tier_mxrate (s : State) (t : Nat) (x : Tier) : (Prim.apply s (.tier t x)).mxrate = s.mxrate := rfl
@[simp] theorem Prim.tier_powered (s : State) (t : Nat) (x : Tier) : (Prim.apply s (.tier t x)).powered = s.powered := rfl
@[simp] theorem Prim.tier_replies (s : State) (t : Nat) (x : Tier) : (Prim.apply s (.tier t x)).replies = s.replies := rfl
@[simp] theorem Prim.tier_sched (s : State) (t : Nat) (x : Tier) : (Prim.apply s (.tier t x)).sched = s.sched := rfl
@[simp] theorem Prim.tier_doing (s : State) (t : Nat) (x : Tier) : (Prim.apply s (.tier t x)).doing = s.doing := rfl
@[simp] theorem Prim.tier_cur (s : State) (t : Nat) (x : Tier) : (Prim.apply s (.tier t x)).cur = s.cur := rfl
@[simp] theorem Prim.tier_lag (s : State) (t : Nat) (x : Tier) : (Prim.apply s (.tier t x)).lag = s.lag := rfl
@[simp] theorem Prim.tier_freeCtr (s : State) (t : Nat) (x : Tier) : (Prim.apply s (.tier t x)).freeCtr = s.freeCtr := rfl
@[simp] theorem Prim.tier_reclaims (s : State) (t : Nat) (x : Tier) : (Prim.apply s (.tier t x)).reclaims = s.reclaims := rfl

/-! ### .tower -/

@[simp] theorem Prim.tower_cycle (s : State) (t : Nat) (x : Tower) : (Prim.apply s (.tower t x)).cycle = s.cycle := rfl
@[simp] theorem Prim.tower_pkg (s : State) (t : Nat) (x : Tower) : (Prim.apply s (.tower t x)).pkg = s.pkg := rfl
@[simp] theorem Prim.tower_mem (s : State) (t : Nat) (x : Tower) : (Prim.apply s (.tower t x)).mem = s.mem := rfl
@[simp] theorem Prim.tower_lines (s : State) (t : Nat) (x : Tower) : (Prim.apply s (.tower t x)).lines = s.lines := rfl
@[simp] theorem Prim.tower_harts (s : State) (t : Nat) (x : Tower) : (Prim.apply s (.tower t x)).harts = s.harts := rfl
@[simp] theorem Prim.tower_cores (s : State) (t : Nat) (x : Tower) : (Prim.apply s (.tower t x)).cores = s.cores := rfl
@[simp] theorem Prim.tower_clusters (s : State) (t : Nat) (x : Tower) : (Prim.apply s (.tower t x)).clusters = s.clusters := rfl
@[simp] theorem Prim.tower_tiers (s : State) (t : Nat) (x : Tower) : (Prim.apply s (.tower t x)).tiers = s.tiers := rfl
@[simp] theorem Prim.tower_towers (s : State) (t : Nat) (x : Tower) : (Prim.apply s (.tower t x)).towers = tabPut s.towers t x := rfl
@[simp] theorem Prim.tower_parts (s : State) (t : Nat) (x : Tower) : (Prim.apply s (.tower t x)).parts = s.parts := rfl
@[simp] theorem Prim.tower_queues (s : State) (t : Nat) (x : Tower) : (Prim.apply s (.tower t x)).queues = s.queues := rfl
@[simp] theorem Prim.tower_launches (s : State) (t : Nat) (x : Tower) : (Prim.apply s (.tower t x)).launches = s.launches := rfl
@[simp] theorem Prim.tower_gangs (s : State) (t : Nat) (x : Tower) : (Prim.apply s (.tower t x)).gangs = s.gangs := rfl
@[simp] theorem Prim.tower_graphs (s : State) (t : Nat) (x : Tower) : (Prim.apply s (.tower t x)).graphs = s.graphs := rfl
@[simp] theorem Prim.tower_links (s : State) (t : Nat) (x : Tower) : (Prim.apply s (.tower t x)).links = s.links := rfl
@[simp] theorem Prim.tower_access (s : State) (t : Nat) (x : Tower) : (Prim.apply s (.tower t x)).access = s.access := rfl
@[simp] theorem Prim.tower_mailboxes (s : State) (t : Nat) (x : Tower) : (Prim.apply s (.tower t x)).mailboxes = s.mailboxes := rfl
@[simp] theorem Prim.tower_mgmtBox (s : State) (t : Nat) (x : Tower) : (Prim.apply s (.tower t x)).mgmtBox = s.mgmtBox := rfl
@[simp] theorem Prim.tower_ports (s : State) (t : Nat) (x : Tower) : (Prim.apply s (.tower t x)).ports = s.ports := rfl
@[simp] theorem Prim.tower_mregs (s : State) (t : Nat) (x : Tower) : (Prim.apply s (.tower t x)).mregs = s.mregs := rfl
@[simp] theorem Prim.tower_nextId (s : State) (t : Nat) (x : Tower) : (Prim.apply s (.tower t x)).nextId = s.nextId := rfl
@[simp] theorem Prim.tower_security (s : State) (t : Nat) (x : Tower) : (Prim.apply s (.tower t x)).security = s.security := rfl
@[simp] theorem Prim.tower_mxrate (s : State) (t : Nat) (x : Tower) : (Prim.apply s (.tower t x)).mxrate = s.mxrate := rfl
@[simp] theorem Prim.tower_powered (s : State) (t : Nat) (x : Tower) : (Prim.apply s (.tower t x)).powered = s.powered := rfl
@[simp] theorem Prim.tower_replies (s : State) (t : Nat) (x : Tower) : (Prim.apply s (.tower t x)).replies = s.replies := rfl
@[simp] theorem Prim.tower_sched (s : State) (t : Nat) (x : Tower) : (Prim.apply s (.tower t x)).sched = s.sched := rfl
@[simp] theorem Prim.tower_doing (s : State) (t : Nat) (x : Tower) : (Prim.apply s (.tower t x)).doing = s.doing := rfl
@[simp] theorem Prim.tower_cur (s : State) (t : Nat) (x : Tower) : (Prim.apply s (.tower t x)).cur = s.cur := rfl
@[simp] theorem Prim.tower_lag (s : State) (t : Nat) (x : Tower) : (Prim.apply s (.tower t x)).lag = s.lag := rfl
@[simp] theorem Prim.tower_freeCtr (s : State) (t : Nat) (x : Tower) : (Prim.apply s (.tower t x)).freeCtr = s.freeCtr := rfl
@[simp] theorem Prim.tower_reclaims (s : State) (t : Nat) (x : Tower) : (Prim.apply s (.tower t x)).reclaims = s.reclaims := rfl

/-! ### .part -/

@[simp] theorem Prim.part_cycle (s : State) (p : Nat) (x : Part) : (Prim.apply s (.part p x)).cycle = s.cycle := rfl
@[simp] theorem Prim.part_pkg (s : State) (p : Nat) (x : Part) : (Prim.apply s (.part p x)).pkg = s.pkg := rfl
@[simp] theorem Prim.part_mem (s : State) (p : Nat) (x : Part) : (Prim.apply s (.part p x)).mem = s.mem := rfl
@[simp] theorem Prim.part_lines (s : State) (p : Nat) (x : Part) : (Prim.apply s (.part p x)).lines = s.lines := rfl
@[simp] theorem Prim.part_harts (s : State) (p : Nat) (x : Part) : (Prim.apply s (.part p x)).harts = s.harts := rfl
@[simp] theorem Prim.part_cores (s : State) (p : Nat) (x : Part) : (Prim.apply s (.part p x)).cores = s.cores := rfl
@[simp] theorem Prim.part_clusters (s : State) (p : Nat) (x : Part) : (Prim.apply s (.part p x)).clusters = s.clusters := rfl
@[simp] theorem Prim.part_tiers (s : State) (p : Nat) (x : Part) : (Prim.apply s (.part p x)).tiers = s.tiers := rfl
@[simp] theorem Prim.part_towers (s : State) (p : Nat) (x : Part) : (Prim.apply s (.part p x)).towers = s.towers := rfl
@[simp] theorem Prim.part_parts (s : State) (p : Nat) (x : Part) : (Prim.apply s (.part p x)).parts = tabPut s.parts p x := rfl
@[simp] theorem Prim.part_queues (s : State) (p : Nat) (x : Part) : (Prim.apply s (.part p x)).queues = s.queues := rfl
@[simp] theorem Prim.part_launches (s : State) (p : Nat) (x : Part) : (Prim.apply s (.part p x)).launches = s.launches := rfl
@[simp] theorem Prim.part_gangs (s : State) (p : Nat) (x : Part) : (Prim.apply s (.part p x)).gangs = s.gangs := rfl
@[simp] theorem Prim.part_graphs (s : State) (p : Nat) (x : Part) : (Prim.apply s (.part p x)).graphs = s.graphs := rfl
@[simp] theorem Prim.part_links (s : State) (p : Nat) (x : Part) : (Prim.apply s (.part p x)).links = s.links := rfl
@[simp] theorem Prim.part_access (s : State) (p : Nat) (x : Part) : (Prim.apply s (.part p x)).access = s.access := rfl
@[simp] theorem Prim.part_mailboxes (s : State) (p : Nat) (x : Part) : (Prim.apply s (.part p x)).mailboxes = s.mailboxes := rfl
@[simp] theorem Prim.part_mgmtBox (s : State) (p : Nat) (x : Part) : (Prim.apply s (.part p x)).mgmtBox = s.mgmtBox := rfl
@[simp] theorem Prim.part_ports (s : State) (p : Nat) (x : Part) : (Prim.apply s (.part p x)).ports = s.ports := rfl
@[simp] theorem Prim.part_mregs (s : State) (p : Nat) (x : Part) : (Prim.apply s (.part p x)).mregs = s.mregs := rfl
@[simp] theorem Prim.part_nextId (s : State) (p : Nat) (x : Part) : (Prim.apply s (.part p x)).nextId = s.nextId := rfl
@[simp] theorem Prim.part_security (s : State) (p : Nat) (x : Part) : (Prim.apply s (.part p x)).security = s.security := rfl
@[simp] theorem Prim.part_mxrate (s : State) (p : Nat) (x : Part) : (Prim.apply s (.part p x)).mxrate = s.mxrate := rfl
@[simp] theorem Prim.part_powered (s : State) (p : Nat) (x : Part) : (Prim.apply s (.part p x)).powered = s.powered := rfl
@[simp] theorem Prim.part_replies (s : State) (p : Nat) (x : Part) : (Prim.apply s (.part p x)).replies = s.replies := rfl
@[simp] theorem Prim.part_sched (s : State) (p : Nat) (x : Part) : (Prim.apply s (.part p x)).sched = s.sched := rfl
@[simp] theorem Prim.part_doing (s : State) (p : Nat) (x : Part) : (Prim.apply s (.part p x)).doing = s.doing := rfl
@[simp] theorem Prim.part_cur (s : State) (p : Nat) (x : Part) : (Prim.apply s (.part p x)).cur = s.cur := rfl
@[simp] theorem Prim.part_lag (s : State) (p : Nat) (x : Part) : (Prim.apply s (.part p x)).lag = s.lag := rfl
@[simp] theorem Prim.part_freeCtr (s : State) (p : Nat) (x : Part) : (Prim.apply s (.part p x)).freeCtr = s.freeCtr := rfl
@[simp] theorem Prim.part_reclaims (s : State) (p : Nat) (x : Part) : (Prim.apply s (.part p x)).reclaims = s.reclaims := rfl

/-! ### .queue -/

@[simp] theorem Prim.queue_cycle (s : State) (q : Nat) (x : Queue) : (Prim.apply s (.queue q x)).cycle = s.cycle := rfl
@[simp] theorem Prim.queue_pkg (s : State) (q : Nat) (x : Queue) : (Prim.apply s (.queue q x)).pkg = s.pkg := rfl
@[simp] theorem Prim.queue_mem (s : State) (q : Nat) (x : Queue) : (Prim.apply s (.queue q x)).mem = s.mem := rfl
@[simp] theorem Prim.queue_lines (s : State) (q : Nat) (x : Queue) : (Prim.apply s (.queue q x)).lines = s.lines := rfl
@[simp] theorem Prim.queue_harts (s : State) (q : Nat) (x : Queue) : (Prim.apply s (.queue q x)).harts = s.harts := rfl
@[simp] theorem Prim.queue_cores (s : State) (q : Nat) (x : Queue) : (Prim.apply s (.queue q x)).cores = s.cores := rfl
@[simp] theorem Prim.queue_clusters (s : State) (q : Nat) (x : Queue) : (Prim.apply s (.queue q x)).clusters = s.clusters := rfl
@[simp] theorem Prim.queue_tiers (s : State) (q : Nat) (x : Queue) : (Prim.apply s (.queue q x)).tiers = s.tiers := rfl
@[simp] theorem Prim.queue_towers (s : State) (q : Nat) (x : Queue) : (Prim.apply s (.queue q x)).towers = s.towers := rfl
@[simp] theorem Prim.queue_parts (s : State) (q : Nat) (x : Queue) : (Prim.apply s (.queue q x)).parts = s.parts := rfl
@[simp] theorem Prim.queue_queues (s : State) (q : Nat) (x : Queue) : (Prim.apply s (.queue q x)).queues = tabPut s.queues q x := rfl
@[simp] theorem Prim.queue_launches (s : State) (q : Nat) (x : Queue) : (Prim.apply s (.queue q x)).launches = s.launches := rfl
@[simp] theorem Prim.queue_gangs (s : State) (q : Nat) (x : Queue) : (Prim.apply s (.queue q x)).gangs = s.gangs := rfl
@[simp] theorem Prim.queue_graphs (s : State) (q : Nat) (x : Queue) : (Prim.apply s (.queue q x)).graphs = s.graphs := rfl
@[simp] theorem Prim.queue_links (s : State) (q : Nat) (x : Queue) : (Prim.apply s (.queue q x)).links = s.links := rfl
@[simp] theorem Prim.queue_access (s : State) (q : Nat) (x : Queue) : (Prim.apply s (.queue q x)).access = s.access := rfl
@[simp] theorem Prim.queue_mailboxes (s : State) (q : Nat) (x : Queue) : (Prim.apply s (.queue q x)).mailboxes = s.mailboxes := rfl
@[simp] theorem Prim.queue_mgmtBox (s : State) (q : Nat) (x : Queue) : (Prim.apply s (.queue q x)).mgmtBox = s.mgmtBox := rfl
@[simp] theorem Prim.queue_ports (s : State) (q : Nat) (x : Queue) : (Prim.apply s (.queue q x)).ports = s.ports := rfl
@[simp] theorem Prim.queue_mregs (s : State) (q : Nat) (x : Queue) : (Prim.apply s (.queue q x)).mregs = s.mregs := rfl
@[simp] theorem Prim.queue_nextId (s : State) (q : Nat) (x : Queue) : (Prim.apply s (.queue q x)).nextId = s.nextId := rfl
@[simp] theorem Prim.queue_security (s : State) (q : Nat) (x : Queue) : (Prim.apply s (.queue q x)).security = s.security := rfl
@[simp] theorem Prim.queue_mxrate (s : State) (q : Nat) (x : Queue) : (Prim.apply s (.queue q x)).mxrate = s.mxrate := rfl
@[simp] theorem Prim.queue_powered (s : State) (q : Nat) (x : Queue) : (Prim.apply s (.queue q x)).powered = s.powered := rfl
@[simp] theorem Prim.queue_replies (s : State) (q : Nat) (x : Queue) : (Prim.apply s (.queue q x)).replies = s.replies := rfl
@[simp] theorem Prim.queue_sched (s : State) (q : Nat) (x : Queue) : (Prim.apply s (.queue q x)).sched = s.sched := rfl
@[simp] theorem Prim.queue_doing (s : State) (q : Nat) (x : Queue) : (Prim.apply s (.queue q x)).doing = s.doing := rfl
@[simp] theorem Prim.queue_cur (s : State) (q : Nat) (x : Queue) : (Prim.apply s (.queue q x)).cur = s.cur := rfl
@[simp] theorem Prim.queue_lag (s : State) (q : Nat) (x : Queue) : (Prim.apply s (.queue q x)).lag = s.lag := rfl
@[simp] theorem Prim.queue_freeCtr (s : State) (q : Nat) (x : Queue) : (Prim.apply s (.queue q x)).freeCtr = s.freeCtr := rfl
@[simp] theorem Prim.queue_reclaims (s : State) (q : Nat) (x : Queue) : (Prim.apply s (.queue q x)).reclaims = s.reclaims := rfl

/-! ### .launch -/

@[simp] theorem Prim.launch_cycle (s : State) (i : Nat) (x : Option Launch) : (Prim.apply s (.launch i x)).cycle = s.cycle := rfl
@[simp] theorem Prim.launch_pkg (s : State) (i : Nat) (x : Option Launch) : (Prim.apply s (.launch i x)).pkg = s.pkg := rfl
@[simp] theorem Prim.launch_mem (s : State) (i : Nat) (x : Option Launch) : (Prim.apply s (.launch i x)).mem = s.mem := rfl
@[simp] theorem Prim.launch_lines (s : State) (i : Nat) (x : Option Launch) : (Prim.apply s (.launch i x)).lines = s.lines := rfl
@[simp] theorem Prim.launch_harts (s : State) (i : Nat) (x : Option Launch) : (Prim.apply s (.launch i x)).harts = s.harts := rfl
@[simp] theorem Prim.launch_cores (s : State) (i : Nat) (x : Option Launch) : (Prim.apply s (.launch i x)).cores = s.cores := rfl
@[simp] theorem Prim.launch_clusters (s : State) (i : Nat) (x : Option Launch) : (Prim.apply s (.launch i x)).clusters = s.clusters := rfl
@[simp] theorem Prim.launch_tiers (s : State) (i : Nat) (x : Option Launch) : (Prim.apply s (.launch i x)).tiers = s.tiers := rfl
@[simp] theorem Prim.launch_towers (s : State) (i : Nat) (x : Option Launch) : (Prim.apply s (.launch i x)).towers = s.towers := rfl
@[simp] theorem Prim.launch_parts (s : State) (i : Nat) (x : Option Launch) : (Prim.apply s (.launch i x)).parts = s.parts := rfl
@[simp] theorem Prim.launch_queues (s : State) (i : Nat) (x : Option Launch) : (Prim.apply s (.launch i x)).queues = s.queues := rfl
@[simp] theorem Prim.launch_launches (s : State) (i : Nat) (x : Option Launch) : (Prim.apply s (.launch i x)).launches = tabSet s.launches i x := rfl
@[simp] theorem Prim.launch_gangs (s : State) (i : Nat) (x : Option Launch) : (Prim.apply s (.launch i x)).gangs = s.gangs := rfl
@[simp] theorem Prim.launch_graphs (s : State) (i : Nat) (x : Option Launch) : (Prim.apply s (.launch i x)).graphs = s.graphs := rfl
@[simp] theorem Prim.launch_links (s : State) (i : Nat) (x : Option Launch) : (Prim.apply s (.launch i x)).links = s.links := rfl
@[simp] theorem Prim.launch_access (s : State) (i : Nat) (x : Option Launch) : (Prim.apply s (.launch i x)).access = s.access := rfl
@[simp] theorem Prim.launch_mailboxes (s : State) (i : Nat) (x : Option Launch) : (Prim.apply s (.launch i x)).mailboxes = s.mailboxes := rfl
@[simp] theorem Prim.launch_mgmtBox (s : State) (i : Nat) (x : Option Launch) : (Prim.apply s (.launch i x)).mgmtBox = s.mgmtBox := rfl
@[simp] theorem Prim.launch_ports (s : State) (i : Nat) (x : Option Launch) : (Prim.apply s (.launch i x)).ports = s.ports := rfl
@[simp] theorem Prim.launch_mregs (s : State) (i : Nat) (x : Option Launch) : (Prim.apply s (.launch i x)).mregs = s.mregs := rfl
@[simp] theorem Prim.launch_nextId (s : State) (i : Nat) (x : Option Launch) : (Prim.apply s (.launch i x)).nextId = s.nextId := rfl
@[simp] theorem Prim.launch_security (s : State) (i : Nat) (x : Option Launch) : (Prim.apply s (.launch i x)).security = s.security := rfl
@[simp] theorem Prim.launch_mxrate (s : State) (i : Nat) (x : Option Launch) : (Prim.apply s (.launch i x)).mxrate = s.mxrate := rfl
@[simp] theorem Prim.launch_powered (s : State) (i : Nat) (x : Option Launch) : (Prim.apply s (.launch i x)).powered = s.powered := rfl
@[simp] theorem Prim.launch_replies (s : State) (i : Nat) (x : Option Launch) : (Prim.apply s (.launch i x)).replies = s.replies := rfl
@[simp] theorem Prim.launch_sched (s : State) (i : Nat) (x : Option Launch) : (Prim.apply s (.launch i x)).sched = s.sched := rfl
@[simp] theorem Prim.launch_doing (s : State) (i : Nat) (x : Option Launch) : (Prim.apply s (.launch i x)).doing = s.doing := rfl
@[simp] theorem Prim.launch_cur (s : State) (i : Nat) (x : Option Launch) : (Prim.apply s (.launch i x)).cur = s.cur := rfl
@[simp] theorem Prim.launch_lag (s : State) (i : Nat) (x : Option Launch) : (Prim.apply s (.launch i x)).lag = s.lag := rfl
@[simp] theorem Prim.launch_freeCtr (s : State) (i : Nat) (x : Option Launch) : (Prim.apply s (.launch i x)).freeCtr = s.freeCtr := rfl
@[simp] theorem Prim.launch_reclaims (s : State) (i : Nat) (x : Option Launch) : (Prim.apply s (.launch i x)).reclaims = s.reclaims := rfl

/-! ### .gang -/

@[simp] theorem Prim.gang_cycle (s : State) (i : Nat) (x : Option Gang) : (Prim.apply s (.gang i x)).cycle = s.cycle := rfl
@[simp] theorem Prim.gang_pkg (s : State) (i : Nat) (x : Option Gang) : (Prim.apply s (.gang i x)).pkg = s.pkg := rfl
@[simp] theorem Prim.gang_mem (s : State) (i : Nat) (x : Option Gang) : (Prim.apply s (.gang i x)).mem = s.mem := rfl
@[simp] theorem Prim.gang_lines (s : State) (i : Nat) (x : Option Gang) : (Prim.apply s (.gang i x)).lines = s.lines := rfl
@[simp] theorem Prim.gang_harts (s : State) (i : Nat) (x : Option Gang) : (Prim.apply s (.gang i x)).harts = s.harts := rfl
@[simp] theorem Prim.gang_cores (s : State) (i : Nat) (x : Option Gang) : (Prim.apply s (.gang i x)).cores = s.cores := rfl
@[simp] theorem Prim.gang_clusters (s : State) (i : Nat) (x : Option Gang) : (Prim.apply s (.gang i x)).clusters = s.clusters := rfl
@[simp] theorem Prim.gang_tiers (s : State) (i : Nat) (x : Option Gang) : (Prim.apply s (.gang i x)).tiers = s.tiers := rfl
@[simp] theorem Prim.gang_towers (s : State) (i : Nat) (x : Option Gang) : (Prim.apply s (.gang i x)).towers = s.towers := rfl
@[simp] theorem Prim.gang_parts (s : State) (i : Nat) (x : Option Gang) : (Prim.apply s (.gang i x)).parts = s.parts := rfl
@[simp] theorem Prim.gang_queues (s : State) (i : Nat) (x : Option Gang) : (Prim.apply s (.gang i x)).queues = s.queues := rfl
@[simp] theorem Prim.gang_launches (s : State) (i : Nat) (x : Option Gang) : (Prim.apply s (.gang i x)).launches = s.launches := rfl
@[simp] theorem Prim.gang_gangs (s : State) (i : Nat) (x : Option Gang) : (Prim.apply s (.gang i x)).gangs = tabSet s.gangs i x := rfl
@[simp] theorem Prim.gang_graphs (s : State) (i : Nat) (x : Option Gang) : (Prim.apply s (.gang i x)).graphs = s.graphs := rfl
@[simp] theorem Prim.gang_links (s : State) (i : Nat) (x : Option Gang) : (Prim.apply s (.gang i x)).links = s.links := rfl
@[simp] theorem Prim.gang_access (s : State) (i : Nat) (x : Option Gang) : (Prim.apply s (.gang i x)).access = s.access := rfl
@[simp] theorem Prim.gang_mailboxes (s : State) (i : Nat) (x : Option Gang) : (Prim.apply s (.gang i x)).mailboxes = s.mailboxes := rfl
@[simp] theorem Prim.gang_mgmtBox (s : State) (i : Nat) (x : Option Gang) : (Prim.apply s (.gang i x)).mgmtBox = s.mgmtBox := rfl
@[simp] theorem Prim.gang_ports (s : State) (i : Nat) (x : Option Gang) : (Prim.apply s (.gang i x)).ports = s.ports := rfl
@[simp] theorem Prim.gang_mregs (s : State) (i : Nat) (x : Option Gang) : (Prim.apply s (.gang i x)).mregs = s.mregs := rfl
@[simp] theorem Prim.gang_nextId (s : State) (i : Nat) (x : Option Gang) : (Prim.apply s (.gang i x)).nextId = s.nextId := rfl
@[simp] theorem Prim.gang_security (s : State) (i : Nat) (x : Option Gang) : (Prim.apply s (.gang i x)).security = s.security := rfl
@[simp] theorem Prim.gang_mxrate (s : State) (i : Nat) (x : Option Gang) : (Prim.apply s (.gang i x)).mxrate = s.mxrate := rfl
@[simp] theorem Prim.gang_powered (s : State) (i : Nat) (x : Option Gang) : (Prim.apply s (.gang i x)).powered = s.powered := rfl
@[simp] theorem Prim.gang_replies (s : State) (i : Nat) (x : Option Gang) : (Prim.apply s (.gang i x)).replies = s.replies := rfl
@[simp] theorem Prim.gang_sched (s : State) (i : Nat) (x : Option Gang) : (Prim.apply s (.gang i x)).sched = s.sched := rfl
@[simp] theorem Prim.gang_doing (s : State) (i : Nat) (x : Option Gang) : (Prim.apply s (.gang i x)).doing = s.doing := rfl
@[simp] theorem Prim.gang_cur (s : State) (i : Nat) (x : Option Gang) : (Prim.apply s (.gang i x)).cur = s.cur := rfl
@[simp] theorem Prim.gang_lag (s : State) (i : Nat) (x : Option Gang) : (Prim.apply s (.gang i x)).lag = s.lag := rfl
@[simp] theorem Prim.gang_freeCtr (s : State) (i : Nat) (x : Option Gang) : (Prim.apply s (.gang i x)).freeCtr = s.freeCtr := rfl
@[simp] theorem Prim.gang_reclaims (s : State) (i : Nat) (x : Option Gang) : (Prim.apply s (.gang i x)).reclaims = s.reclaims := rfl

/-! ### .graph -/

@[simp] theorem Prim.graph_cycle (s : State) (i : Nat) (x : Option Graph) : (Prim.apply s (.graph i x)).cycle = s.cycle := rfl
@[simp] theorem Prim.graph_pkg (s : State) (i : Nat) (x : Option Graph) : (Prim.apply s (.graph i x)).pkg = s.pkg := rfl
@[simp] theorem Prim.graph_mem (s : State) (i : Nat) (x : Option Graph) : (Prim.apply s (.graph i x)).mem = s.mem := rfl
@[simp] theorem Prim.graph_lines (s : State) (i : Nat) (x : Option Graph) : (Prim.apply s (.graph i x)).lines = s.lines := rfl
@[simp] theorem Prim.graph_harts (s : State) (i : Nat) (x : Option Graph) : (Prim.apply s (.graph i x)).harts = s.harts := rfl
@[simp] theorem Prim.graph_cores (s : State) (i : Nat) (x : Option Graph) : (Prim.apply s (.graph i x)).cores = s.cores := rfl
@[simp] theorem Prim.graph_clusters (s : State) (i : Nat) (x : Option Graph) : (Prim.apply s (.graph i x)).clusters = s.clusters := rfl
@[simp] theorem Prim.graph_tiers (s : State) (i : Nat) (x : Option Graph) : (Prim.apply s (.graph i x)).tiers = s.tiers := rfl
@[simp] theorem Prim.graph_towers (s : State) (i : Nat) (x : Option Graph) : (Prim.apply s (.graph i x)).towers = s.towers := rfl
@[simp] theorem Prim.graph_parts (s : State) (i : Nat) (x : Option Graph) : (Prim.apply s (.graph i x)).parts = s.parts := rfl
@[simp] theorem Prim.graph_queues (s : State) (i : Nat) (x : Option Graph) : (Prim.apply s (.graph i x)).queues = s.queues := rfl
@[simp] theorem Prim.graph_launches (s : State) (i : Nat) (x : Option Graph) : (Prim.apply s (.graph i x)).launches = s.launches := rfl
@[simp] theorem Prim.graph_gangs (s : State) (i : Nat) (x : Option Graph) : (Prim.apply s (.graph i x)).gangs = s.gangs := rfl
@[simp] theorem Prim.graph_graphs (s : State) (i : Nat) (x : Option Graph) : (Prim.apply s (.graph i x)).graphs = tabSet s.graphs i x := rfl
@[simp] theorem Prim.graph_links (s : State) (i : Nat) (x : Option Graph) : (Prim.apply s (.graph i x)).links = s.links := rfl
@[simp] theorem Prim.graph_access (s : State) (i : Nat) (x : Option Graph) : (Prim.apply s (.graph i x)).access = s.access := rfl
@[simp] theorem Prim.graph_mailboxes (s : State) (i : Nat) (x : Option Graph) : (Prim.apply s (.graph i x)).mailboxes = s.mailboxes := rfl
@[simp] theorem Prim.graph_mgmtBox (s : State) (i : Nat) (x : Option Graph) : (Prim.apply s (.graph i x)).mgmtBox = s.mgmtBox := rfl
@[simp] theorem Prim.graph_ports (s : State) (i : Nat) (x : Option Graph) : (Prim.apply s (.graph i x)).ports = s.ports := rfl
@[simp] theorem Prim.graph_mregs (s : State) (i : Nat) (x : Option Graph) : (Prim.apply s (.graph i x)).mregs = s.mregs := rfl
@[simp] theorem Prim.graph_nextId (s : State) (i : Nat) (x : Option Graph) : (Prim.apply s (.graph i x)).nextId = s.nextId := rfl
@[simp] theorem Prim.graph_security (s : State) (i : Nat) (x : Option Graph) : (Prim.apply s (.graph i x)).security = s.security := rfl
@[simp] theorem Prim.graph_mxrate (s : State) (i : Nat) (x : Option Graph) : (Prim.apply s (.graph i x)).mxrate = s.mxrate := rfl
@[simp] theorem Prim.graph_powered (s : State) (i : Nat) (x : Option Graph) : (Prim.apply s (.graph i x)).powered = s.powered := rfl
@[simp] theorem Prim.graph_replies (s : State) (i : Nat) (x : Option Graph) : (Prim.apply s (.graph i x)).replies = s.replies := rfl
@[simp] theorem Prim.graph_sched (s : State) (i : Nat) (x : Option Graph) : (Prim.apply s (.graph i x)).sched = s.sched := rfl
@[simp] theorem Prim.graph_doing (s : State) (i : Nat) (x : Option Graph) : (Prim.apply s (.graph i x)).doing = s.doing := rfl
@[simp] theorem Prim.graph_cur (s : State) (i : Nat) (x : Option Graph) : (Prim.apply s (.graph i x)).cur = s.cur := rfl
@[simp] theorem Prim.graph_lag (s : State) (i : Nat) (x : Option Graph) : (Prim.apply s (.graph i x)).lag = s.lag := rfl
@[simp] theorem Prim.graph_freeCtr (s : State) (i : Nat) (x : Option Graph) : (Prim.apply s (.graph i x)).freeCtr = s.freeCtr := rfl
@[simp] theorem Prim.graph_reclaims (s : State) (i : Nat) (x : Option Graph) : (Prim.apply s (.graph i x)).reclaims = s.reclaims := rfl

/-! ### .link -/

@[simp] theorem Prim.link_cycle (s : State) (k : Nat) (x : Link) : (Prim.apply s (.link k x)).cycle = s.cycle := rfl
@[simp] theorem Prim.link_pkg (s : State) (k : Nat) (x : Link) : (Prim.apply s (.link k x)).pkg = s.pkg := rfl
@[simp] theorem Prim.link_mem (s : State) (k : Nat) (x : Link) : (Prim.apply s (.link k x)).mem = s.mem := rfl
@[simp] theorem Prim.link_lines (s : State) (k : Nat) (x : Link) : (Prim.apply s (.link k x)).lines = s.lines := rfl
@[simp] theorem Prim.link_harts (s : State) (k : Nat) (x : Link) : (Prim.apply s (.link k x)).harts = s.harts := rfl
@[simp] theorem Prim.link_cores (s : State) (k : Nat) (x : Link) : (Prim.apply s (.link k x)).cores = s.cores := rfl
@[simp] theorem Prim.link_clusters (s : State) (k : Nat) (x : Link) : (Prim.apply s (.link k x)).clusters = s.clusters := rfl
@[simp] theorem Prim.link_tiers (s : State) (k : Nat) (x : Link) : (Prim.apply s (.link k x)).tiers = s.tiers := rfl
@[simp] theorem Prim.link_towers (s : State) (k : Nat) (x : Link) : (Prim.apply s (.link k x)).towers = s.towers := rfl
@[simp] theorem Prim.link_parts (s : State) (k : Nat) (x : Link) : (Prim.apply s (.link k x)).parts = s.parts := rfl
@[simp] theorem Prim.link_queues (s : State) (k : Nat) (x : Link) : (Prim.apply s (.link k x)).queues = s.queues := rfl
@[simp] theorem Prim.link_launches (s : State) (k : Nat) (x : Link) : (Prim.apply s (.link k x)).launches = s.launches := rfl
@[simp] theorem Prim.link_gangs (s : State) (k : Nat) (x : Link) : (Prim.apply s (.link k x)).gangs = s.gangs := rfl
@[simp] theorem Prim.link_graphs (s : State) (k : Nat) (x : Link) : (Prim.apply s (.link k x)).graphs = s.graphs := rfl
@[simp] theorem Prim.link_links (s : State) (k : Nat) (x : Link) : (Prim.apply s (.link k x)).links = tabPut s.links k x := rfl
@[simp] theorem Prim.link_access (s : State) (k : Nat) (x : Link) : (Prim.apply s (.link k x)).access = s.access := rfl
@[simp] theorem Prim.link_mailboxes (s : State) (k : Nat) (x : Link) : (Prim.apply s (.link k x)).mailboxes = s.mailboxes := rfl
@[simp] theorem Prim.link_mgmtBox (s : State) (k : Nat) (x : Link) : (Prim.apply s (.link k x)).mgmtBox = s.mgmtBox := rfl
@[simp] theorem Prim.link_ports (s : State) (k : Nat) (x : Link) : (Prim.apply s (.link k x)).ports = s.ports := rfl
@[simp] theorem Prim.link_mregs (s : State) (k : Nat) (x : Link) : (Prim.apply s (.link k x)).mregs = s.mregs := rfl
@[simp] theorem Prim.link_nextId (s : State) (k : Nat) (x : Link) : (Prim.apply s (.link k x)).nextId = s.nextId := rfl
@[simp] theorem Prim.link_security (s : State) (k : Nat) (x : Link) : (Prim.apply s (.link k x)).security = s.security := rfl
@[simp] theorem Prim.link_mxrate (s : State) (k : Nat) (x : Link) : (Prim.apply s (.link k x)).mxrate = s.mxrate := rfl
@[simp] theorem Prim.link_powered (s : State) (k : Nat) (x : Link) : (Prim.apply s (.link k x)).powered = s.powered := rfl
@[simp] theorem Prim.link_replies (s : State) (k : Nat) (x : Link) : (Prim.apply s (.link k x)).replies = s.replies := rfl
@[simp] theorem Prim.link_sched (s : State) (k : Nat) (x : Link) : (Prim.apply s (.link k x)).sched = s.sched := rfl
@[simp] theorem Prim.link_doing (s : State) (k : Nat) (x : Link) : (Prim.apply s (.link k x)).doing = s.doing := rfl
@[simp] theorem Prim.link_cur (s : State) (k : Nat) (x : Link) : (Prim.apply s (.link k x)).cur = s.cur := rfl
@[simp] theorem Prim.link_lag (s : State) (k : Nat) (x : Link) : (Prim.apply s (.link k x)).lag = s.lag := rfl
@[simp] theorem Prim.link_freeCtr (s : State) (k : Nat) (x : Link) : (Prim.apply s (.link k x)).freeCtr = s.freeCtr := rfl
@[simp] theorem Prim.link_reclaims (s : State) (k : Nat) (x : Link) : (Prim.apply s (.link k x)).reclaims = s.reclaims := rfl

/-! ### .access -/

@[simp] theorem Prim.access_cycle (s : State) (i : Nat) (x : Word × Bool) : (Prim.apply s (.access i x)).cycle = s.cycle := rfl
@[simp] theorem Prim.access_pkg (s : State) (i : Nat) (x : Word × Bool) : (Prim.apply s (.access i x)).pkg = s.pkg := rfl
@[simp] theorem Prim.access_mem (s : State) (i : Nat) (x : Word × Bool) : (Prim.apply s (.access i x)).mem = s.mem := rfl
@[simp] theorem Prim.access_lines (s : State) (i : Nat) (x : Word × Bool) : (Prim.apply s (.access i x)).lines = s.lines := rfl
@[simp] theorem Prim.access_harts (s : State) (i : Nat) (x : Word × Bool) : (Prim.apply s (.access i x)).harts = s.harts := rfl
@[simp] theorem Prim.access_cores (s : State) (i : Nat) (x : Word × Bool) : (Prim.apply s (.access i x)).cores = s.cores := rfl
@[simp] theorem Prim.access_clusters (s : State) (i : Nat) (x : Word × Bool) : (Prim.apply s (.access i x)).clusters = s.clusters := rfl
@[simp] theorem Prim.access_tiers (s : State) (i : Nat) (x : Word × Bool) : (Prim.apply s (.access i x)).tiers = s.tiers := rfl
@[simp] theorem Prim.access_towers (s : State) (i : Nat) (x : Word × Bool) : (Prim.apply s (.access i x)).towers = s.towers := rfl
@[simp] theorem Prim.access_parts (s : State) (i : Nat) (x : Word × Bool) : (Prim.apply s (.access i x)).parts = s.parts := rfl
@[simp] theorem Prim.access_queues (s : State) (i : Nat) (x : Word × Bool) : (Prim.apply s (.access i x)).queues = s.queues := rfl
@[simp] theorem Prim.access_launches (s : State) (i : Nat) (x : Word × Bool) : (Prim.apply s (.access i x)).launches = s.launches := rfl
@[simp] theorem Prim.access_gangs (s : State) (i : Nat) (x : Word × Bool) : (Prim.apply s (.access i x)).gangs = s.gangs := rfl
@[simp] theorem Prim.access_graphs (s : State) (i : Nat) (x : Word × Bool) : (Prim.apply s (.access i x)).graphs = s.graphs := rfl
@[simp] theorem Prim.access_links (s : State) (i : Nat) (x : Word × Bool) : (Prim.apply s (.access i x)).links = s.links := rfl
@[simp] theorem Prim.access_access (s : State) (i : Nat) (x : Word × Bool) : (Prim.apply s (.access i x)).access = tabPut s.access i x := rfl
@[simp] theorem Prim.access_mailboxes (s : State) (i : Nat) (x : Word × Bool) : (Prim.apply s (.access i x)).mailboxes = s.mailboxes := rfl
@[simp] theorem Prim.access_mgmtBox (s : State) (i : Nat) (x : Word × Bool) : (Prim.apply s (.access i x)).mgmtBox = s.mgmtBox := rfl
@[simp] theorem Prim.access_ports (s : State) (i : Nat) (x : Word × Bool) : (Prim.apply s (.access i x)).ports = s.ports := rfl
@[simp] theorem Prim.access_mregs (s : State) (i : Nat) (x : Word × Bool) : (Prim.apply s (.access i x)).mregs = s.mregs := rfl
@[simp] theorem Prim.access_nextId (s : State) (i : Nat) (x : Word × Bool) : (Prim.apply s (.access i x)).nextId = s.nextId := rfl
@[simp] theorem Prim.access_security (s : State) (i : Nat) (x : Word × Bool) : (Prim.apply s (.access i x)).security = s.security := rfl
@[simp] theorem Prim.access_mxrate (s : State) (i : Nat) (x : Word × Bool) : (Prim.apply s (.access i x)).mxrate = s.mxrate := rfl
@[simp] theorem Prim.access_powered (s : State) (i : Nat) (x : Word × Bool) : (Prim.apply s (.access i x)).powered = s.powered := rfl
@[simp] theorem Prim.access_replies (s : State) (i : Nat) (x : Word × Bool) : (Prim.apply s (.access i x)).replies = s.replies := rfl
@[simp] theorem Prim.access_sched (s : State) (i : Nat) (x : Word × Bool) : (Prim.apply s (.access i x)).sched = s.sched := rfl
@[simp] theorem Prim.access_doing (s : State) (i : Nat) (x : Word × Bool) : (Prim.apply s (.access i x)).doing = s.doing := rfl
@[simp] theorem Prim.access_cur (s : State) (i : Nat) (x : Word × Bool) : (Prim.apply s (.access i x)).cur = s.cur := rfl
@[simp] theorem Prim.access_lag (s : State) (i : Nat) (x : Word × Bool) : (Prim.apply s (.access i x)).lag = s.lag := rfl
@[simp] theorem Prim.access_freeCtr (s : State) (i : Nat) (x : Word × Bool) : (Prim.apply s (.access i x)).freeCtr = s.freeCtr := rfl
@[simp] theorem Prim.access_reclaims (s : State) (i : Nat) (x : Word × Bool) : (Prim.apply s (.access i x)).reclaims = s.reclaims := rfl

/-! ### .mailbox -/

@[simp] theorem Prim.mailbox_cycle (s : State) (p : Nat) (x : Mailbox) : (Prim.apply s (.mailbox p x)).cycle = s.cycle := rfl
@[simp] theorem Prim.mailbox_pkg (s : State) (p : Nat) (x : Mailbox) : (Prim.apply s (.mailbox p x)).pkg = s.pkg := rfl
@[simp] theorem Prim.mailbox_mem (s : State) (p : Nat) (x : Mailbox) : (Prim.apply s (.mailbox p x)).mem = s.mem := rfl
@[simp] theorem Prim.mailbox_lines (s : State) (p : Nat) (x : Mailbox) : (Prim.apply s (.mailbox p x)).lines = s.lines := rfl
@[simp] theorem Prim.mailbox_harts (s : State) (p : Nat) (x : Mailbox) : (Prim.apply s (.mailbox p x)).harts = s.harts := rfl
@[simp] theorem Prim.mailbox_cores (s : State) (p : Nat) (x : Mailbox) : (Prim.apply s (.mailbox p x)).cores = s.cores := rfl
@[simp] theorem Prim.mailbox_clusters (s : State) (p : Nat) (x : Mailbox) : (Prim.apply s (.mailbox p x)).clusters = s.clusters := rfl
@[simp] theorem Prim.mailbox_tiers (s : State) (p : Nat) (x : Mailbox) : (Prim.apply s (.mailbox p x)).tiers = s.tiers := rfl
@[simp] theorem Prim.mailbox_towers (s : State) (p : Nat) (x : Mailbox) : (Prim.apply s (.mailbox p x)).towers = s.towers := rfl
@[simp] theorem Prim.mailbox_parts (s : State) (p : Nat) (x : Mailbox) : (Prim.apply s (.mailbox p x)).parts = s.parts := rfl
@[simp] theorem Prim.mailbox_queues (s : State) (p : Nat) (x : Mailbox) : (Prim.apply s (.mailbox p x)).queues = s.queues := rfl
@[simp] theorem Prim.mailbox_launches (s : State) (p : Nat) (x : Mailbox) : (Prim.apply s (.mailbox p x)).launches = s.launches := rfl
@[simp] theorem Prim.mailbox_gangs (s : State) (p : Nat) (x : Mailbox) : (Prim.apply s (.mailbox p x)).gangs = s.gangs := rfl
@[simp] theorem Prim.mailbox_graphs (s : State) (p : Nat) (x : Mailbox) : (Prim.apply s (.mailbox p x)).graphs = s.graphs := rfl
@[simp] theorem Prim.mailbox_links (s : State) (p : Nat) (x : Mailbox) : (Prim.apply s (.mailbox p x)).links = s.links := rfl
@[simp] theorem Prim.mailbox_access (s : State) (p : Nat) (x : Mailbox) : (Prim.apply s (.mailbox p x)).access = s.access := rfl
@[simp] theorem Prim.mailbox_mailboxes (s : State) (p : Nat) (x : Mailbox) : (Prim.apply s (.mailbox p x)).mailboxes = tabPut s.mailboxes p x := rfl
@[simp] theorem Prim.mailbox_mgmtBox (s : State) (p : Nat) (x : Mailbox) : (Prim.apply s (.mailbox p x)).mgmtBox = s.mgmtBox := rfl
@[simp] theorem Prim.mailbox_ports (s : State) (p : Nat) (x : Mailbox) : (Prim.apply s (.mailbox p x)).ports = s.ports := rfl
@[simp] theorem Prim.mailbox_mregs (s : State) (p : Nat) (x : Mailbox) : (Prim.apply s (.mailbox p x)).mregs = s.mregs := rfl
@[simp] theorem Prim.mailbox_nextId (s : State) (p : Nat) (x : Mailbox) : (Prim.apply s (.mailbox p x)).nextId = s.nextId := rfl
@[simp] theorem Prim.mailbox_security (s : State) (p : Nat) (x : Mailbox) : (Prim.apply s (.mailbox p x)).security = s.security := rfl
@[simp] theorem Prim.mailbox_mxrate (s : State) (p : Nat) (x : Mailbox) : (Prim.apply s (.mailbox p x)).mxrate = s.mxrate := rfl
@[simp] theorem Prim.mailbox_powered (s : State) (p : Nat) (x : Mailbox) : (Prim.apply s (.mailbox p x)).powered = s.powered := rfl
@[simp] theorem Prim.mailbox_replies (s : State) (p : Nat) (x : Mailbox) : (Prim.apply s (.mailbox p x)).replies = s.replies := rfl
@[simp] theorem Prim.mailbox_sched (s : State) (p : Nat) (x : Mailbox) : (Prim.apply s (.mailbox p x)).sched = s.sched := rfl
@[simp] theorem Prim.mailbox_doing (s : State) (p : Nat) (x : Mailbox) : (Prim.apply s (.mailbox p x)).doing = s.doing := rfl
@[simp] theorem Prim.mailbox_cur (s : State) (p : Nat) (x : Mailbox) : (Prim.apply s (.mailbox p x)).cur = s.cur := rfl
@[simp] theorem Prim.mailbox_lag (s : State) (p : Nat) (x : Mailbox) : (Prim.apply s (.mailbox p x)).lag = s.lag := rfl
@[simp] theorem Prim.mailbox_freeCtr (s : State) (p : Nat) (x : Mailbox) : (Prim.apply s (.mailbox p x)).freeCtr = s.freeCtr := rfl
@[simp] theorem Prim.mailbox_reclaims (s : State) (p : Nat) (x : Mailbox) : (Prim.apply s (.mailbox p x)).reclaims = s.reclaims := rfl

/-! ### .mgmtBox -/

@[simp] theorem Prim.mgmtBox_cycle (s : State) (x : Mailbox) : (Prim.apply s (.mgmtBox x)).cycle = s.cycle := rfl
@[simp] theorem Prim.mgmtBox_pkg (s : State) (x : Mailbox) : (Prim.apply s (.mgmtBox x)).pkg = s.pkg := rfl
@[simp] theorem Prim.mgmtBox_mem (s : State) (x : Mailbox) : (Prim.apply s (.mgmtBox x)).mem = s.mem := rfl
@[simp] theorem Prim.mgmtBox_lines (s : State) (x : Mailbox) : (Prim.apply s (.mgmtBox x)).lines = s.lines := rfl
@[simp] theorem Prim.mgmtBox_harts (s : State) (x : Mailbox) : (Prim.apply s (.mgmtBox x)).harts = s.harts := rfl
@[simp] theorem Prim.mgmtBox_cores (s : State) (x : Mailbox) : (Prim.apply s (.mgmtBox x)).cores = s.cores := rfl
@[simp] theorem Prim.mgmtBox_clusters (s : State) (x : Mailbox) : (Prim.apply s (.mgmtBox x)).clusters = s.clusters := rfl
@[simp] theorem Prim.mgmtBox_tiers (s : State) (x : Mailbox) : (Prim.apply s (.mgmtBox x)).tiers = s.tiers := rfl
@[simp] theorem Prim.mgmtBox_towers (s : State) (x : Mailbox) : (Prim.apply s (.mgmtBox x)).towers = s.towers := rfl
@[simp] theorem Prim.mgmtBox_parts (s : State) (x : Mailbox) : (Prim.apply s (.mgmtBox x)).parts = s.parts := rfl
@[simp] theorem Prim.mgmtBox_queues (s : State) (x : Mailbox) : (Prim.apply s (.mgmtBox x)).queues = s.queues := rfl
@[simp] theorem Prim.mgmtBox_launches (s : State) (x : Mailbox) : (Prim.apply s (.mgmtBox x)).launches = s.launches := rfl
@[simp] theorem Prim.mgmtBox_gangs (s : State) (x : Mailbox) : (Prim.apply s (.mgmtBox x)).gangs = s.gangs := rfl
@[simp] theorem Prim.mgmtBox_graphs (s : State) (x : Mailbox) : (Prim.apply s (.mgmtBox x)).graphs = s.graphs := rfl
@[simp] theorem Prim.mgmtBox_links (s : State) (x : Mailbox) : (Prim.apply s (.mgmtBox x)).links = s.links := rfl
@[simp] theorem Prim.mgmtBox_access (s : State) (x : Mailbox) : (Prim.apply s (.mgmtBox x)).access = s.access := rfl
@[simp] theorem Prim.mgmtBox_mailboxes (s : State) (x : Mailbox) : (Prim.apply s (.mgmtBox x)).mailboxes = s.mailboxes := rfl
@[simp] theorem Prim.mgmtBox_mgmtBox (s : State) (x : Mailbox) : (Prim.apply s (.mgmtBox x)).mgmtBox = x := rfl
@[simp] theorem Prim.mgmtBox_ports (s : State) (x : Mailbox) : (Prim.apply s (.mgmtBox x)).ports = s.ports := rfl
@[simp] theorem Prim.mgmtBox_mregs (s : State) (x : Mailbox) : (Prim.apply s (.mgmtBox x)).mregs = s.mregs := rfl
@[simp] theorem Prim.mgmtBox_nextId (s : State) (x : Mailbox) : (Prim.apply s (.mgmtBox x)).nextId = s.nextId := rfl
@[simp] theorem Prim.mgmtBox_security (s : State) (x : Mailbox) : (Prim.apply s (.mgmtBox x)).security = s.security := rfl
@[simp] theorem Prim.mgmtBox_mxrate (s : State) (x : Mailbox) : (Prim.apply s (.mgmtBox x)).mxrate = s.mxrate := rfl
@[simp] theorem Prim.mgmtBox_powered (s : State) (x : Mailbox) : (Prim.apply s (.mgmtBox x)).powered = s.powered := rfl
@[simp] theorem Prim.mgmtBox_replies (s : State) (x : Mailbox) : (Prim.apply s (.mgmtBox x)).replies = s.replies := rfl
@[simp] theorem Prim.mgmtBox_sched (s : State) (x : Mailbox) : (Prim.apply s (.mgmtBox x)).sched = s.sched := rfl
@[simp] theorem Prim.mgmtBox_doing (s : State) (x : Mailbox) : (Prim.apply s (.mgmtBox x)).doing = s.doing := rfl
@[simp] theorem Prim.mgmtBox_cur (s : State) (x : Mailbox) : (Prim.apply s (.mgmtBox x)).cur = s.cur := rfl
@[simp] theorem Prim.mgmtBox_lag (s : State) (x : Mailbox) : (Prim.apply s (.mgmtBox x)).lag = s.lag := rfl
@[simp] theorem Prim.mgmtBox_freeCtr (s : State) (x : Mailbox) : (Prim.apply s (.mgmtBox x)).freeCtr = s.freeCtr := rfl
@[simp] theorem Prim.mgmtBox_reclaims (s : State) (x : Mailbox) : (Prim.apply s (.mgmtBox x)).reclaims = s.reclaims := rfl

/-! ### .port -/

@[simp] theorem Prim.port_cycle (s : State) (e : Nat) (x : EthPort) : (Prim.apply s (.port e x)).cycle = s.cycle := rfl
@[simp] theorem Prim.port_pkg (s : State) (e : Nat) (x : EthPort) : (Prim.apply s (.port e x)).pkg = s.pkg := rfl
@[simp] theorem Prim.port_mem (s : State) (e : Nat) (x : EthPort) : (Prim.apply s (.port e x)).mem = s.mem := rfl
@[simp] theorem Prim.port_lines (s : State) (e : Nat) (x : EthPort) : (Prim.apply s (.port e x)).lines = s.lines := rfl
@[simp] theorem Prim.port_harts (s : State) (e : Nat) (x : EthPort) : (Prim.apply s (.port e x)).harts = s.harts := rfl
@[simp] theorem Prim.port_cores (s : State) (e : Nat) (x : EthPort) : (Prim.apply s (.port e x)).cores = s.cores := rfl
@[simp] theorem Prim.port_clusters (s : State) (e : Nat) (x : EthPort) : (Prim.apply s (.port e x)).clusters = s.clusters := rfl
@[simp] theorem Prim.port_tiers (s : State) (e : Nat) (x : EthPort) : (Prim.apply s (.port e x)).tiers = s.tiers := rfl
@[simp] theorem Prim.port_towers (s : State) (e : Nat) (x : EthPort) : (Prim.apply s (.port e x)).towers = s.towers := rfl
@[simp] theorem Prim.port_parts (s : State) (e : Nat) (x : EthPort) : (Prim.apply s (.port e x)).parts = s.parts := rfl
@[simp] theorem Prim.port_queues (s : State) (e : Nat) (x : EthPort) : (Prim.apply s (.port e x)).queues = s.queues := rfl
@[simp] theorem Prim.port_launches (s : State) (e : Nat) (x : EthPort) : (Prim.apply s (.port e x)).launches = s.launches := rfl
@[simp] theorem Prim.port_gangs (s : State) (e : Nat) (x : EthPort) : (Prim.apply s (.port e x)).gangs = s.gangs := rfl
@[simp] theorem Prim.port_graphs (s : State) (e : Nat) (x : EthPort) : (Prim.apply s (.port e x)).graphs = s.graphs := rfl
@[simp] theorem Prim.port_links (s : State) (e : Nat) (x : EthPort) : (Prim.apply s (.port e x)).links = s.links := rfl
@[simp] theorem Prim.port_access (s : State) (e : Nat) (x : EthPort) : (Prim.apply s (.port e x)).access = s.access := rfl
@[simp] theorem Prim.port_mailboxes (s : State) (e : Nat) (x : EthPort) : (Prim.apply s (.port e x)).mailboxes = s.mailboxes := rfl
@[simp] theorem Prim.port_mgmtBox (s : State) (e : Nat) (x : EthPort) : (Prim.apply s (.port e x)).mgmtBox = s.mgmtBox := rfl
@[simp] theorem Prim.port_ports (s : State) (e : Nat) (x : EthPort) : (Prim.apply s (.port e x)).ports = tabPut s.ports e x := rfl
@[simp] theorem Prim.port_mregs (s : State) (e : Nat) (x : EthPort) : (Prim.apply s (.port e x)).mregs = s.mregs := rfl
@[simp] theorem Prim.port_nextId (s : State) (e : Nat) (x : EthPort) : (Prim.apply s (.port e x)).nextId = s.nextId := rfl
@[simp] theorem Prim.port_security (s : State) (e : Nat) (x : EthPort) : (Prim.apply s (.port e x)).security = s.security := rfl
@[simp] theorem Prim.port_mxrate (s : State) (e : Nat) (x : EthPort) : (Prim.apply s (.port e x)).mxrate = s.mxrate := rfl
@[simp] theorem Prim.port_powered (s : State) (e : Nat) (x : EthPort) : (Prim.apply s (.port e x)).powered = s.powered := rfl
@[simp] theorem Prim.port_replies (s : State) (e : Nat) (x : EthPort) : (Prim.apply s (.port e x)).replies = s.replies := rfl
@[simp] theorem Prim.port_sched (s : State) (e : Nat) (x : EthPort) : (Prim.apply s (.port e x)).sched = s.sched := rfl
@[simp] theorem Prim.port_doing (s : State) (e : Nat) (x : EthPort) : (Prim.apply s (.port e x)).doing = s.doing := rfl
@[simp] theorem Prim.port_cur (s : State) (e : Nat) (x : EthPort) : (Prim.apply s (.port e x)).cur = s.cur := rfl
@[simp] theorem Prim.port_lag (s : State) (e : Nat) (x : EthPort) : (Prim.apply s (.port e x)).lag = s.lag := rfl
@[simp] theorem Prim.port_freeCtr (s : State) (e : Nat) (x : EthPort) : (Prim.apply s (.port e x)).freeCtr = s.freeCtr := rfl
@[simp] theorem Prim.port_reclaims (s : State) (e : Nat) (x : EthPort) : (Prim.apply s (.port e x)).reclaims = s.reclaims := rfl

/-! ### .mreg -/

@[simp] theorem Prim.mreg_cycle (s : State) (i : Nat) (x : Option MReg) : (Prim.apply s (.mreg i x)).cycle = s.cycle := rfl
@[simp] theorem Prim.mreg_pkg (s : State) (i : Nat) (x : Option MReg) : (Prim.apply s (.mreg i x)).pkg = s.pkg := rfl
@[simp] theorem Prim.mreg_mem (s : State) (i : Nat) (x : Option MReg) : (Prim.apply s (.mreg i x)).mem = s.mem := rfl
@[simp] theorem Prim.mreg_lines (s : State) (i : Nat) (x : Option MReg) : (Prim.apply s (.mreg i x)).lines = s.lines := rfl
@[simp] theorem Prim.mreg_harts (s : State) (i : Nat) (x : Option MReg) : (Prim.apply s (.mreg i x)).harts = s.harts := rfl
@[simp] theorem Prim.mreg_cores (s : State) (i : Nat) (x : Option MReg) : (Prim.apply s (.mreg i x)).cores = s.cores := rfl
@[simp] theorem Prim.mreg_clusters (s : State) (i : Nat) (x : Option MReg) : (Prim.apply s (.mreg i x)).clusters = s.clusters := rfl
@[simp] theorem Prim.mreg_tiers (s : State) (i : Nat) (x : Option MReg) : (Prim.apply s (.mreg i x)).tiers = s.tiers := rfl
@[simp] theorem Prim.mreg_towers (s : State) (i : Nat) (x : Option MReg) : (Prim.apply s (.mreg i x)).towers = s.towers := rfl
@[simp] theorem Prim.mreg_parts (s : State) (i : Nat) (x : Option MReg) : (Prim.apply s (.mreg i x)).parts = s.parts := rfl
@[simp] theorem Prim.mreg_queues (s : State) (i : Nat) (x : Option MReg) : (Prim.apply s (.mreg i x)).queues = s.queues := rfl
@[simp] theorem Prim.mreg_launches (s : State) (i : Nat) (x : Option MReg) : (Prim.apply s (.mreg i x)).launches = s.launches := rfl
@[simp] theorem Prim.mreg_gangs (s : State) (i : Nat) (x : Option MReg) : (Prim.apply s (.mreg i x)).gangs = s.gangs := rfl
@[simp] theorem Prim.mreg_graphs (s : State) (i : Nat) (x : Option MReg) : (Prim.apply s (.mreg i x)).graphs = s.graphs := rfl
@[simp] theorem Prim.mreg_links (s : State) (i : Nat) (x : Option MReg) : (Prim.apply s (.mreg i x)).links = s.links := rfl
@[simp] theorem Prim.mreg_access (s : State) (i : Nat) (x : Option MReg) : (Prim.apply s (.mreg i x)).access = s.access := rfl
@[simp] theorem Prim.mreg_mailboxes (s : State) (i : Nat) (x : Option MReg) : (Prim.apply s (.mreg i x)).mailboxes = s.mailboxes := rfl
@[simp] theorem Prim.mreg_mgmtBox (s : State) (i : Nat) (x : Option MReg) : (Prim.apply s (.mreg i x)).mgmtBox = s.mgmtBox := rfl
@[simp] theorem Prim.mreg_ports (s : State) (i : Nat) (x : Option MReg) : (Prim.apply s (.mreg i x)).ports = s.ports := rfl
@[simp] theorem Prim.mreg_mregs (s : State) (i : Nat) (x : Option MReg) : (Prim.apply s (.mreg i x)).mregs = tabSet s.mregs i x := rfl
@[simp] theorem Prim.mreg_nextId (s : State) (i : Nat) (x : Option MReg) : (Prim.apply s (.mreg i x)).nextId = s.nextId := rfl
@[simp] theorem Prim.mreg_security (s : State) (i : Nat) (x : Option MReg) : (Prim.apply s (.mreg i x)).security = s.security := rfl
@[simp] theorem Prim.mreg_mxrate (s : State) (i : Nat) (x : Option MReg) : (Prim.apply s (.mreg i x)).mxrate = s.mxrate := rfl
@[simp] theorem Prim.mreg_powered (s : State) (i : Nat) (x : Option MReg) : (Prim.apply s (.mreg i x)).powered = s.powered := rfl
@[simp] theorem Prim.mreg_replies (s : State) (i : Nat) (x : Option MReg) : (Prim.apply s (.mreg i x)).replies = s.replies := rfl
@[simp] theorem Prim.mreg_sched (s : State) (i : Nat) (x : Option MReg) : (Prim.apply s (.mreg i x)).sched = s.sched := rfl
@[simp] theorem Prim.mreg_doing (s : State) (i : Nat) (x : Option MReg) : (Prim.apply s (.mreg i x)).doing = s.doing := rfl
@[simp] theorem Prim.mreg_cur (s : State) (i : Nat) (x : Option MReg) : (Prim.apply s (.mreg i x)).cur = s.cur := rfl
@[simp] theorem Prim.mreg_lag (s : State) (i : Nat) (x : Option MReg) : (Prim.apply s (.mreg i x)).lag = s.lag := rfl
@[simp] theorem Prim.mreg_freeCtr (s : State) (i : Nat) (x : Option MReg) : (Prim.apply s (.mreg i x)).freeCtr = s.freeCtr := rfl
@[simp] theorem Prim.mreg_reclaims (s : State) (i : Nat) (x : Option MReg) : (Prim.apply s (.mreg i x)).reclaims = s.reclaims := rfl

/-! ### .nextId -/

@[simp] theorem Prim.nextId_cycle (s : State) (n : Nat) : (Prim.apply s (.nextId n)).cycle = s.cycle := rfl
@[simp] theorem Prim.nextId_pkg (s : State) (n : Nat) : (Prim.apply s (.nextId n)).pkg = s.pkg := rfl
@[simp] theorem Prim.nextId_mem (s : State) (n : Nat) : (Prim.apply s (.nextId n)).mem = s.mem := rfl
@[simp] theorem Prim.nextId_lines (s : State) (n : Nat) : (Prim.apply s (.nextId n)).lines = s.lines := rfl
@[simp] theorem Prim.nextId_harts (s : State) (n : Nat) : (Prim.apply s (.nextId n)).harts = s.harts := rfl
@[simp] theorem Prim.nextId_cores (s : State) (n : Nat) : (Prim.apply s (.nextId n)).cores = s.cores := rfl
@[simp] theorem Prim.nextId_clusters (s : State) (n : Nat) : (Prim.apply s (.nextId n)).clusters = s.clusters := rfl
@[simp] theorem Prim.nextId_tiers (s : State) (n : Nat) : (Prim.apply s (.nextId n)).tiers = s.tiers := rfl
@[simp] theorem Prim.nextId_towers (s : State) (n : Nat) : (Prim.apply s (.nextId n)).towers = s.towers := rfl
@[simp] theorem Prim.nextId_parts (s : State) (n : Nat) : (Prim.apply s (.nextId n)).parts = s.parts := rfl
@[simp] theorem Prim.nextId_queues (s : State) (n : Nat) : (Prim.apply s (.nextId n)).queues = s.queues := rfl
@[simp] theorem Prim.nextId_launches (s : State) (n : Nat) : (Prim.apply s (.nextId n)).launches = s.launches := rfl
@[simp] theorem Prim.nextId_gangs (s : State) (n : Nat) : (Prim.apply s (.nextId n)).gangs = s.gangs := rfl
@[simp] theorem Prim.nextId_graphs (s : State) (n : Nat) : (Prim.apply s (.nextId n)).graphs = s.graphs := rfl
@[simp] theorem Prim.nextId_links (s : State) (n : Nat) : (Prim.apply s (.nextId n)).links = s.links := rfl
@[simp] theorem Prim.nextId_access (s : State) (n : Nat) : (Prim.apply s (.nextId n)).access = s.access := rfl
@[simp] theorem Prim.nextId_mailboxes (s : State) (n : Nat) : (Prim.apply s (.nextId n)).mailboxes = s.mailboxes := rfl
@[simp] theorem Prim.nextId_mgmtBox (s : State) (n : Nat) : (Prim.apply s (.nextId n)).mgmtBox = s.mgmtBox := rfl
@[simp] theorem Prim.nextId_ports (s : State) (n : Nat) : (Prim.apply s (.nextId n)).ports = s.ports := rfl
@[simp] theorem Prim.nextId_mregs (s : State) (n : Nat) : (Prim.apply s (.nextId n)).mregs = s.mregs := rfl
@[simp] theorem Prim.nextId_nextId (s : State) (n : Nat) : (Prim.apply s (.nextId n)).nextId = n := rfl
@[simp] theorem Prim.nextId_security (s : State) (n : Nat) : (Prim.apply s (.nextId n)).security = s.security := rfl
@[simp] theorem Prim.nextId_mxrate (s : State) (n : Nat) : (Prim.apply s (.nextId n)).mxrate = s.mxrate := rfl
@[simp] theorem Prim.nextId_powered (s : State) (n : Nat) : (Prim.apply s (.nextId n)).powered = s.powered := rfl
@[simp] theorem Prim.nextId_replies (s : State) (n : Nat) : (Prim.apply s (.nextId n)).replies = s.replies := rfl
@[simp] theorem Prim.nextId_sched (s : State) (n : Nat) : (Prim.apply s (.nextId n)).sched = s.sched := rfl
@[simp] theorem Prim.nextId_doing (s : State) (n : Nat) : (Prim.apply s (.nextId n)).doing = s.doing := rfl
@[simp] theorem Prim.nextId_cur (s : State) (n : Nat) : (Prim.apply s (.nextId n)).cur = s.cur := rfl
@[simp] theorem Prim.nextId_lag (s : State) (n : Nat) : (Prim.apply s (.nextId n)).lag = s.lag := rfl
@[simp] theorem Prim.nextId_freeCtr (s : State) (n : Nat) : (Prim.apply s (.nextId n)).freeCtr = s.freeCtr := rfl
@[simp] theorem Prim.nextId_reclaims (s : State) (n : Nat) : (Prim.apply s (.nextId n)).reclaims = s.reclaims := rfl

/-! ### .pkg -/

@[simp] theorem Prim.pkg_cycle (s : State) (n : Nat) : (Prim.apply s (.pkg n)).cycle = s.cycle := rfl
@[simp] theorem Prim.pkg_pkg (s : State) (n : Nat) : (Prim.apply s (.pkg n)).pkg = n := rfl
@[simp] theorem Prim.pkg_mem (s : State) (n : Nat) : (Prim.apply s (.pkg n)).mem = rekey (2 ^ 44) s.pkg n s.mem := rfl
@[simp] theorem Prim.pkg_lines (s : State) (n : Nat) : (Prim.apply s (.pkg n)).lines = rekey (2 ^ 37) s.pkg n s.lines := rfl
@[simp] theorem Prim.pkg_harts (s : State) (n : Nat) : (Prim.apply s (.pkg n)).harts = s.harts := rfl
@[simp] theorem Prim.pkg_cores (s : State) (n : Nat) : (Prim.apply s (.pkg n)).cores = s.cores := rfl
@[simp] theorem Prim.pkg_clusters (s : State) (n : Nat) : (Prim.apply s (.pkg n)).clusters = [] := rfl
@[simp] theorem Prim.pkg_tiers (s : State) (n : Nat) : (Prim.apply s (.pkg n)).tiers = s.tiers := rfl
@[simp] theorem Prim.pkg_towers (s : State) (n : Nat) : (Prim.apply s (.pkg n)).towers = s.towers := rfl
@[simp] theorem Prim.pkg_parts (s : State) (n : Nat) : (Prim.apply s (.pkg n)).parts = s.parts := rfl
@[simp] theorem Prim.pkg_queues (s : State) (n : Nat) : (Prim.apply s (.pkg n)).queues = s.queues := rfl
@[simp] theorem Prim.pkg_launches (s : State) (n : Nat) : (Prim.apply s (.pkg n)).launches = s.launches := rfl
@[simp] theorem Prim.pkg_gangs (s : State) (n : Nat) : (Prim.apply s (.pkg n)).gangs = s.gangs := rfl
@[simp] theorem Prim.pkg_graphs (s : State) (n : Nat) : (Prim.apply s (.pkg n)).graphs = s.graphs := rfl
@[simp] theorem Prim.pkg_links (s : State) (n : Nat) : (Prim.apply s (.pkg n)).links = s.links := rfl
@[simp] theorem Prim.pkg_access (s : State) (n : Nat) : (Prim.apply s (.pkg n)).access = s.access := rfl
@[simp] theorem Prim.pkg_mailboxes (s : State) (n : Nat) : (Prim.apply s (.pkg n)).mailboxes = s.mailboxes := rfl
@[simp] theorem Prim.pkg_mgmtBox (s : State) (n : Nat) : (Prim.apply s (.pkg n)).mgmtBox = s.mgmtBox := rfl
@[simp] theorem Prim.pkg_ports (s : State) (n : Nat) : (Prim.apply s (.pkg n)).ports = s.ports := rfl
@[simp] theorem Prim.pkg_mregs (s : State) (n : Nat) : (Prim.apply s (.pkg n)).mregs = s.mregs := rfl
@[simp] theorem Prim.pkg_nextId (s : State) (n : Nat) : (Prim.apply s (.pkg n)).nextId = s.nextId := rfl
@[simp] theorem Prim.pkg_security (s : State) (n : Nat) : (Prim.apply s (.pkg n)).security = s.security := rfl
@[simp] theorem Prim.pkg_mxrate (s : State) (n : Nat) : (Prim.apply s (.pkg n)).mxrate = s.mxrate := rfl
@[simp] theorem Prim.pkg_powered (s : State) (n : Nat) : (Prim.apply s (.pkg n)).powered = s.powered := rfl
@[simp] theorem Prim.pkg_replies (s : State) (n : Nat) : (Prim.apply s (.pkg n)).replies = s.replies := rfl
@[simp] theorem Prim.pkg_sched (s : State) (n : Nat) : (Prim.apply s (.pkg n)).sched = s.sched := rfl
@[simp] theorem Prim.pkg_doing (s : State) (n : Nat) : (Prim.apply s (.pkg n)).doing = s.doing := rfl
@[simp] theorem Prim.pkg_cur (s : State) (n : Nat) : (Prim.apply s (.pkg n)).cur = s.cur := rfl
@[simp] theorem Prim.pkg_lag (s : State) (n : Nat) : (Prim.apply s (.pkg n)).lag = s.lag := rfl
@[simp] theorem Prim.pkg_freeCtr (s : State) (n : Nat) : (Prim.apply s (.pkg n)).freeCtr = s.freeCtr := rfl
@[simp] theorem Prim.pkg_reclaims (s : State) (n : Nat) : (Prim.apply s (.pkg n)).reclaims = s.reclaims := rfl

/-! ### .security -/

@[simp] theorem Prim.security_cycle (s : State) (x : Security) : (Prim.apply s (.security x)).cycle = s.cycle := rfl
@[simp] theorem Prim.security_pkg (s : State) (x : Security) : (Prim.apply s (.security x)).pkg = s.pkg := rfl
@[simp] theorem Prim.security_mem (s : State) (x : Security) : (Prim.apply s (.security x)).mem = s.mem := rfl
@[simp] theorem Prim.security_lines (s : State) (x : Security) : (Prim.apply s (.security x)).lines = s.lines := rfl
@[simp] theorem Prim.security_harts (s : State) (x : Security) : (Prim.apply s (.security x)).harts = s.harts := rfl
@[simp] theorem Prim.security_cores (s : State) (x : Security) : (Prim.apply s (.security x)).cores = s.cores := rfl
@[simp] theorem Prim.security_clusters (s : State) (x : Security) : (Prim.apply s (.security x)).clusters = s.clusters := rfl
@[simp] theorem Prim.security_tiers (s : State) (x : Security) : (Prim.apply s (.security x)).tiers = s.tiers := rfl
@[simp] theorem Prim.security_towers (s : State) (x : Security) : (Prim.apply s (.security x)).towers = s.towers := rfl
@[simp] theorem Prim.security_parts (s : State) (x : Security) : (Prim.apply s (.security x)).parts = s.parts := rfl
@[simp] theorem Prim.security_queues (s : State) (x : Security) : (Prim.apply s (.security x)).queues = s.queues := rfl
@[simp] theorem Prim.security_launches (s : State) (x : Security) : (Prim.apply s (.security x)).launches = s.launches := rfl
@[simp] theorem Prim.security_gangs (s : State) (x : Security) : (Prim.apply s (.security x)).gangs = s.gangs := rfl
@[simp] theorem Prim.security_graphs (s : State) (x : Security) : (Prim.apply s (.security x)).graphs = s.graphs := rfl
@[simp] theorem Prim.security_links (s : State) (x : Security) : (Prim.apply s (.security x)).links = s.links := rfl
@[simp] theorem Prim.security_access (s : State) (x : Security) : (Prim.apply s (.security x)).access = s.access := rfl
@[simp] theorem Prim.security_mailboxes (s : State) (x : Security) : (Prim.apply s (.security x)).mailboxes = s.mailboxes := rfl
@[simp] theorem Prim.security_mgmtBox (s : State) (x : Security) : (Prim.apply s (.security x)).mgmtBox = s.mgmtBox := rfl
@[simp] theorem Prim.security_ports (s : State) (x : Security) : (Prim.apply s (.security x)).ports = s.ports := rfl
@[simp] theorem Prim.security_mregs (s : State) (x : Security) : (Prim.apply s (.security x)).mregs = s.mregs := rfl
@[simp] theorem Prim.security_nextId (s : State) (x : Security) : (Prim.apply s (.security x)).nextId = s.nextId := rfl
@[simp] theorem Prim.security_security (s : State) (x : Security) : (Prim.apply s (.security x)).security = x := rfl
@[simp] theorem Prim.security_mxrate (s : State) (x : Security) : (Prim.apply s (.security x)).mxrate = s.mxrate := rfl
@[simp] theorem Prim.security_powered (s : State) (x : Security) : (Prim.apply s (.security x)).powered = s.powered := rfl
@[simp] theorem Prim.security_replies (s : State) (x : Security) : (Prim.apply s (.security x)).replies = s.replies := rfl
@[simp] theorem Prim.security_sched (s : State) (x : Security) : (Prim.apply s (.security x)).sched = s.sched := rfl
@[simp] theorem Prim.security_doing (s : State) (x : Security) : (Prim.apply s (.security x)).doing = s.doing := rfl
@[simp] theorem Prim.security_cur (s : State) (x : Security) : (Prim.apply s (.security x)).cur = s.cur := rfl
@[simp] theorem Prim.security_lag (s : State) (x : Security) : (Prim.apply s (.security x)).lag = s.lag := rfl
@[simp] theorem Prim.security_freeCtr (s : State) (x : Security) : (Prim.apply s (.security x)).freeCtr = s.freeCtr := rfl
@[simp] theorem Prim.security_reclaims (s : State) (x : Security) : (Prim.apply s (.security x)).reclaims = s.reclaims := rfl

/-! ### .mxrate -/

@[simp] theorem Prim.mxrate_cycle (s : State) (n : Nat) : (Prim.apply s (.mxrate n)).cycle = s.cycle := rfl
@[simp] theorem Prim.mxrate_pkg (s : State) (n : Nat) : (Prim.apply s (.mxrate n)).pkg = s.pkg := rfl
@[simp] theorem Prim.mxrate_mem (s : State) (n : Nat) : (Prim.apply s (.mxrate n)).mem = s.mem := rfl
@[simp] theorem Prim.mxrate_lines (s : State) (n : Nat) : (Prim.apply s (.mxrate n)).lines = s.lines := rfl
@[simp] theorem Prim.mxrate_harts (s : State) (n : Nat) : (Prim.apply s (.mxrate n)).harts = s.harts := rfl
@[simp] theorem Prim.mxrate_cores (s : State) (n : Nat) : (Prim.apply s (.mxrate n)).cores = s.cores := rfl
@[simp] theorem Prim.mxrate_clusters (s : State) (n : Nat) : (Prim.apply s (.mxrate n)).clusters = s.clusters := rfl
@[simp] theorem Prim.mxrate_tiers (s : State) (n : Nat) : (Prim.apply s (.mxrate n)).tiers = s.tiers := rfl
@[simp] theorem Prim.mxrate_towers (s : State) (n : Nat) : (Prim.apply s (.mxrate n)).towers = s.towers := rfl
@[simp] theorem Prim.mxrate_parts (s : State) (n : Nat) : (Prim.apply s (.mxrate n)).parts = s.parts := rfl
@[simp] theorem Prim.mxrate_queues (s : State) (n : Nat) : (Prim.apply s (.mxrate n)).queues = s.queues := rfl
@[simp] theorem Prim.mxrate_launches (s : State) (n : Nat) : (Prim.apply s (.mxrate n)).launches = s.launches := rfl
@[simp] theorem Prim.mxrate_gangs (s : State) (n : Nat) : (Prim.apply s (.mxrate n)).gangs = s.gangs := rfl
@[simp] theorem Prim.mxrate_graphs (s : State) (n : Nat) : (Prim.apply s (.mxrate n)).graphs = s.graphs := rfl
@[simp] theorem Prim.mxrate_links (s : State) (n : Nat) : (Prim.apply s (.mxrate n)).links = s.links := rfl
@[simp] theorem Prim.mxrate_access (s : State) (n : Nat) : (Prim.apply s (.mxrate n)).access = s.access := rfl
@[simp] theorem Prim.mxrate_mailboxes (s : State) (n : Nat) : (Prim.apply s (.mxrate n)).mailboxes = s.mailboxes := rfl
@[simp] theorem Prim.mxrate_mgmtBox (s : State) (n : Nat) : (Prim.apply s (.mxrate n)).mgmtBox = s.mgmtBox := rfl
@[simp] theorem Prim.mxrate_ports (s : State) (n : Nat) : (Prim.apply s (.mxrate n)).ports = s.ports := rfl
@[simp] theorem Prim.mxrate_mregs (s : State) (n : Nat) : (Prim.apply s (.mxrate n)).mregs = s.mregs := rfl
@[simp] theorem Prim.mxrate_nextId (s : State) (n : Nat) : (Prim.apply s (.mxrate n)).nextId = s.nextId := rfl
@[simp] theorem Prim.mxrate_security (s : State) (n : Nat) : (Prim.apply s (.mxrate n)).security = s.security := rfl
@[simp] theorem Prim.mxrate_mxrate (s : State) (n : Nat) : (Prim.apply s (.mxrate n)).mxrate = n := rfl
@[simp] theorem Prim.mxrate_powered (s : State) (n : Nat) : (Prim.apply s (.mxrate n)).powered = s.powered := rfl
@[simp] theorem Prim.mxrate_replies (s : State) (n : Nat) : (Prim.apply s (.mxrate n)).replies = s.replies := rfl
@[simp] theorem Prim.mxrate_sched (s : State) (n : Nat) : (Prim.apply s (.mxrate n)).sched = s.sched := rfl
@[simp] theorem Prim.mxrate_doing (s : State) (n : Nat) : (Prim.apply s (.mxrate n)).doing = s.doing := rfl
@[simp] theorem Prim.mxrate_cur (s : State) (n : Nat) : (Prim.apply s (.mxrate n)).cur = s.cur := rfl
@[simp] theorem Prim.mxrate_lag (s : State) (n : Nat) : (Prim.apply s (.mxrate n)).lag = s.lag := rfl
@[simp] theorem Prim.mxrate_freeCtr (s : State) (n : Nat) : (Prim.apply s (.mxrate n)).freeCtr = s.freeCtr := rfl
@[simp] theorem Prim.mxrate_reclaims (s : State) (n : Nat) : (Prim.apply s (.mxrate n)).reclaims = s.reclaims := rfl

/-! ### .powered -/

@[simp] theorem Prim.powered_cycle (s : State) (b : Bool) : (Prim.apply s (.powered b)).cycle = s.cycle := rfl
@[simp] theorem Prim.powered_pkg (s : State) (b : Bool) : (Prim.apply s (.powered b)).pkg = s.pkg := rfl
@[simp] theorem Prim.powered_mem (s : State) (b : Bool) : (Prim.apply s (.powered b)).mem = s.mem := rfl
@[simp] theorem Prim.powered_lines (s : State) (b : Bool) : (Prim.apply s (.powered b)).lines = s.lines := rfl
@[simp] theorem Prim.powered_harts (s : State) (b : Bool) : (Prim.apply s (.powered b)).harts = s.harts := rfl
@[simp] theorem Prim.powered_cores (s : State) (b : Bool) : (Prim.apply s (.powered b)).cores = s.cores := rfl
@[simp] theorem Prim.powered_clusters (s : State) (b : Bool) : (Prim.apply s (.powered b)).clusters = s.clusters := rfl
@[simp] theorem Prim.powered_tiers (s : State) (b : Bool) : (Prim.apply s (.powered b)).tiers = s.tiers := rfl
@[simp] theorem Prim.powered_towers (s : State) (b : Bool) : (Prim.apply s (.powered b)).towers = s.towers := rfl
@[simp] theorem Prim.powered_parts (s : State) (b : Bool) : (Prim.apply s (.powered b)).parts = s.parts := rfl
@[simp] theorem Prim.powered_queues (s : State) (b : Bool) : (Prim.apply s (.powered b)).queues = s.queues := rfl
@[simp] theorem Prim.powered_launches (s : State) (b : Bool) : (Prim.apply s (.powered b)).launches = s.launches := rfl
@[simp] theorem Prim.powered_gangs (s : State) (b : Bool) : (Prim.apply s (.powered b)).gangs = s.gangs := rfl
@[simp] theorem Prim.powered_graphs (s : State) (b : Bool) : (Prim.apply s (.powered b)).graphs = s.graphs := rfl
@[simp] theorem Prim.powered_links (s : State) (b : Bool) : (Prim.apply s (.powered b)).links = s.links := rfl
@[simp] theorem Prim.powered_access (s : State) (b : Bool) : (Prim.apply s (.powered b)).access = s.access := rfl
@[simp] theorem Prim.powered_mailboxes (s : State) (b : Bool) : (Prim.apply s (.powered b)).mailboxes = s.mailboxes := rfl
@[simp] theorem Prim.powered_mgmtBox (s : State) (b : Bool) : (Prim.apply s (.powered b)).mgmtBox = s.mgmtBox := rfl
@[simp] theorem Prim.powered_ports (s : State) (b : Bool) : (Prim.apply s (.powered b)).ports = s.ports := rfl
@[simp] theorem Prim.powered_mregs (s : State) (b : Bool) : (Prim.apply s (.powered b)).mregs = s.mregs := rfl
@[simp] theorem Prim.powered_nextId (s : State) (b : Bool) : (Prim.apply s (.powered b)).nextId = s.nextId := rfl
@[simp] theorem Prim.powered_security (s : State) (b : Bool) : (Prim.apply s (.powered b)).security = s.security := rfl
@[simp] theorem Prim.powered_mxrate (s : State) (b : Bool) : (Prim.apply s (.powered b)).mxrate = s.mxrate := rfl
@[simp] theorem Prim.powered_powered (s : State) (b : Bool) : (Prim.apply s (.powered b)).powered = b := rfl
@[simp] theorem Prim.powered_replies (s : State) (b : Bool) : (Prim.apply s (.powered b)).replies = s.replies := rfl
@[simp] theorem Prim.powered_sched (s : State) (b : Bool) : (Prim.apply s (.powered b)).sched = s.sched := rfl
@[simp] theorem Prim.powered_doing (s : State) (b : Bool) : (Prim.apply s (.powered b)).doing = s.doing := rfl
@[simp] theorem Prim.powered_cur (s : State) (b : Bool) : (Prim.apply s (.powered b)).cur = s.cur := rfl
@[simp] theorem Prim.powered_lag (s : State) (b : Bool) : (Prim.apply s (.powered b)).lag = s.lag := rfl
@[simp] theorem Prim.powered_freeCtr (s : State) (b : Bool) : (Prim.apply s (.powered b)).freeCtr = s.freeCtr := rfl
@[simp] theorem Prim.powered_reclaims (s : State) (b : Bool) : (Prim.apply s (.powered b)).reclaims = s.reclaims := rfl

/-! ### .reply -/

@[simp] theorem Prim.reply_cycle (s : State) (r : Reply) : (Prim.apply s (.reply r)).cycle = s.cycle := rfl
@[simp] theorem Prim.reply_pkg (s : State) (r : Reply) : (Prim.apply s (.reply r)).pkg = s.pkg := rfl
@[simp] theorem Prim.reply_mem (s : State) (r : Reply) : (Prim.apply s (.reply r)).mem = s.mem := rfl
@[simp] theorem Prim.reply_lines (s : State) (r : Reply) : (Prim.apply s (.reply r)).lines = s.lines := rfl
@[simp] theorem Prim.reply_harts (s : State) (r : Reply) : (Prim.apply s (.reply r)).harts = s.harts := rfl
@[simp] theorem Prim.reply_cores (s : State) (r : Reply) : (Prim.apply s (.reply r)).cores = s.cores := rfl
@[simp] theorem Prim.reply_clusters (s : State) (r : Reply) : (Prim.apply s (.reply r)).clusters = s.clusters := rfl
@[simp] theorem Prim.reply_tiers (s : State) (r : Reply) : (Prim.apply s (.reply r)).tiers = s.tiers := rfl
@[simp] theorem Prim.reply_towers (s : State) (r : Reply) : (Prim.apply s (.reply r)).towers = s.towers := rfl
@[simp] theorem Prim.reply_parts (s : State) (r : Reply) : (Prim.apply s (.reply r)).parts = s.parts := rfl
@[simp] theorem Prim.reply_queues (s : State) (r : Reply) : (Prim.apply s (.reply r)).queues = s.queues := rfl
@[simp] theorem Prim.reply_launches (s : State) (r : Reply) : (Prim.apply s (.reply r)).launches = s.launches := rfl
@[simp] theorem Prim.reply_gangs (s : State) (r : Reply) : (Prim.apply s (.reply r)).gangs = s.gangs := rfl
@[simp] theorem Prim.reply_graphs (s : State) (r : Reply) : (Prim.apply s (.reply r)).graphs = s.graphs := rfl
@[simp] theorem Prim.reply_links (s : State) (r : Reply) : (Prim.apply s (.reply r)).links = s.links := rfl
@[simp] theorem Prim.reply_access (s : State) (r : Reply) : (Prim.apply s (.reply r)).access = s.access := rfl
@[simp] theorem Prim.reply_mailboxes (s : State) (r : Reply) : (Prim.apply s (.reply r)).mailboxes = s.mailboxes := rfl
@[simp] theorem Prim.reply_mgmtBox (s : State) (r : Reply) : (Prim.apply s (.reply r)).mgmtBox = s.mgmtBox := rfl
@[simp] theorem Prim.reply_ports (s : State) (r : Reply) : (Prim.apply s (.reply r)).ports = s.ports := rfl
@[simp] theorem Prim.reply_mregs (s : State) (r : Reply) : (Prim.apply s (.reply r)).mregs = s.mregs := rfl
@[simp] theorem Prim.reply_nextId (s : State) (r : Reply) : (Prim.apply s (.reply r)).nextId = s.nextId := rfl
@[simp] theorem Prim.reply_security (s : State) (r : Reply) : (Prim.apply s (.reply r)).security = s.security := rfl
@[simp] theorem Prim.reply_mxrate (s : State) (r : Reply) : (Prim.apply s (.reply r)).mxrate = s.mxrate := rfl
@[simp] theorem Prim.reply_powered (s : State) (r : Reply) : (Prim.apply s (.reply r)).powered = s.powered := rfl
@[simp] theorem Prim.reply_replies (s : State) (r : Reply) : (Prim.apply s (.reply r)).replies = s.replies ++ [r] := rfl
@[simp] theorem Prim.reply_sched (s : State) (r : Reply) : (Prim.apply s (.reply r)).sched = s.sched := rfl
@[simp] theorem Prim.reply_doing (s : State) (r : Reply) : (Prim.apply s (.reply r)).doing = s.doing := rfl
@[simp] theorem Prim.reply_cur (s : State) (r : Reply) : (Prim.apply s (.reply r)).cur = s.cur := rfl
@[simp] theorem Prim.reply_lag (s : State) (r : Reply) : (Prim.apply s (.reply r)).lag = s.lag := rfl
@[simp] theorem Prim.reply_freeCtr (s : State) (r : Reply) : (Prim.apply s (.reply r)).freeCtr = s.freeCtr := rfl
@[simp] theorem Prim.reply_reclaims (s : State) (r : Reply) : (Prim.apply s (.reply r)).reclaims = s.reclaims := rfl

/-! ### .freeCtr -/

@[simp] theorem Prim.freeCtr_cycle (s : State) (n : Nat) : (Prim.apply s (.freeCtr n)).cycle = s.cycle := rfl
@[simp] theorem Prim.freeCtr_pkg (s : State) (n : Nat) : (Prim.apply s (.freeCtr n)).pkg = s.pkg := rfl
@[simp] theorem Prim.freeCtr_mem (s : State) (n : Nat) : (Prim.apply s (.freeCtr n)).mem = s.mem := rfl
@[simp] theorem Prim.freeCtr_lines (s : State) (n : Nat) : (Prim.apply s (.freeCtr n)).lines = s.lines := rfl
@[simp] theorem Prim.freeCtr_harts (s : State) (n : Nat) : (Prim.apply s (.freeCtr n)).harts = s.harts := rfl
@[simp] theorem Prim.freeCtr_cores (s : State) (n : Nat) : (Prim.apply s (.freeCtr n)).cores = s.cores := rfl
@[simp] theorem Prim.freeCtr_clusters (s : State) (n : Nat) : (Prim.apply s (.freeCtr n)).clusters = s.clusters := rfl
@[simp] theorem Prim.freeCtr_tiers (s : State) (n : Nat) : (Prim.apply s (.freeCtr n)).tiers = s.tiers := rfl
@[simp] theorem Prim.freeCtr_towers (s : State) (n : Nat) : (Prim.apply s (.freeCtr n)).towers = s.towers := rfl
@[simp] theorem Prim.freeCtr_parts (s : State) (n : Nat) : (Prim.apply s (.freeCtr n)).parts = s.parts := rfl
@[simp] theorem Prim.freeCtr_queues (s : State) (n : Nat) : (Prim.apply s (.freeCtr n)).queues = s.queues := rfl
@[simp] theorem Prim.freeCtr_launches (s : State) (n : Nat) : (Prim.apply s (.freeCtr n)).launches = s.launches := rfl
@[simp] theorem Prim.freeCtr_gangs (s : State) (n : Nat) : (Prim.apply s (.freeCtr n)).gangs = s.gangs := rfl
@[simp] theorem Prim.freeCtr_graphs (s : State) (n : Nat) : (Prim.apply s (.freeCtr n)).graphs = s.graphs := rfl
@[simp] theorem Prim.freeCtr_links (s : State) (n : Nat) : (Prim.apply s (.freeCtr n)).links = s.links := rfl
@[simp] theorem Prim.freeCtr_access (s : State) (n : Nat) : (Prim.apply s (.freeCtr n)).access = s.access := rfl
@[simp] theorem Prim.freeCtr_mailboxes (s : State) (n : Nat) : (Prim.apply s (.freeCtr n)).mailboxes = s.mailboxes := rfl
@[simp] theorem Prim.freeCtr_mgmtBox (s : State) (n : Nat) : (Prim.apply s (.freeCtr n)).mgmtBox = s.mgmtBox := rfl
@[simp] theorem Prim.freeCtr_ports (s : State) (n : Nat) : (Prim.apply s (.freeCtr n)).ports = s.ports := rfl
@[simp] theorem Prim.freeCtr_mregs (s : State) (n : Nat) : (Prim.apply s (.freeCtr n)).mregs = s.mregs := rfl
@[simp] theorem Prim.freeCtr_nextId (s : State) (n : Nat) : (Prim.apply s (.freeCtr n)).nextId = s.nextId := rfl
@[simp] theorem Prim.freeCtr_security (s : State) (n : Nat) : (Prim.apply s (.freeCtr n)).security = s.security := rfl
@[simp] theorem Prim.freeCtr_mxrate (s : State) (n : Nat) : (Prim.apply s (.freeCtr n)).mxrate = s.mxrate := rfl
@[simp] theorem Prim.freeCtr_powered (s : State) (n : Nat) : (Prim.apply s (.freeCtr n)).powered = s.powered := rfl
@[simp] theorem Prim.freeCtr_replies (s : State) (n : Nat) : (Prim.apply s (.freeCtr n)).replies = s.replies := rfl
@[simp] theorem Prim.freeCtr_sched (s : State) (n : Nat) : (Prim.apply s (.freeCtr n)).sched = s.sched := rfl
@[simp] theorem Prim.freeCtr_doing (s : State) (n : Nat) : (Prim.apply s (.freeCtr n)).doing = s.doing := rfl
@[simp] theorem Prim.freeCtr_cur (s : State) (n : Nat) : (Prim.apply s (.freeCtr n)).cur = s.cur := rfl
@[simp] theorem Prim.freeCtr_lag (s : State) (n : Nat) : (Prim.apply s (.freeCtr n)).lag = s.lag := rfl
@[simp] theorem Prim.freeCtr_freeCtr (s : State) (n : Nat) : (Prim.apply s (.freeCtr n)).freeCtr = n := rfl
@[simp] theorem Prim.freeCtr_reclaims (s : State) (n : Nat) : (Prim.apply s (.freeCtr n)).reclaims = s.reclaims := rfl

/-! ### .reclaims -/

@[simp] theorem Prim.reclaims_cycle (s : State) (l : List Reclaim) : (Prim.apply s (.reclaims l)).cycle = s.cycle := rfl
@[simp] theorem Prim.reclaims_pkg (s : State) (l : List Reclaim) : (Prim.apply s (.reclaims l)).pkg = s.pkg := rfl
@[simp] theorem Prim.reclaims_mem (s : State) (l : List Reclaim) : (Prim.apply s (.reclaims l)).mem = s.mem := rfl
@[simp] theorem Prim.reclaims_lines (s : State) (l : List Reclaim) : (Prim.apply s (.reclaims l)).lines = s.lines := rfl
@[simp] theorem Prim.reclaims_harts (s : State) (l : List Reclaim) : (Prim.apply s (.reclaims l)).harts = s.harts := rfl
@[simp] theorem Prim.reclaims_cores (s : State) (l : List Reclaim) : (Prim.apply s (.reclaims l)).cores = s.cores := rfl
@[simp] theorem Prim.reclaims_clusters (s : State) (l : List Reclaim) : (Prim.apply s (.reclaims l)).clusters = s.clusters := rfl
@[simp] theorem Prim.reclaims_tiers (s : State) (l : List Reclaim) : (Prim.apply s (.reclaims l)).tiers = s.tiers := rfl
@[simp] theorem Prim.reclaims_towers (s : State) (l : List Reclaim) : (Prim.apply s (.reclaims l)).towers = s.towers := rfl
@[simp] theorem Prim.reclaims_parts (s : State) (l : List Reclaim) : (Prim.apply s (.reclaims l)).parts = s.parts := rfl
@[simp] theorem Prim.reclaims_queues (s : State) (l : List Reclaim) : (Prim.apply s (.reclaims l)).queues = s.queues := rfl
@[simp] theorem Prim.reclaims_launches (s : State) (l : List Reclaim) : (Prim.apply s (.reclaims l)).launches = s.launches := rfl
@[simp] theorem Prim.reclaims_gangs (s : State) (l : List Reclaim) : (Prim.apply s (.reclaims l)).gangs = s.gangs := rfl
@[simp] theorem Prim.reclaims_graphs (s : State) (l : List Reclaim) : (Prim.apply s (.reclaims l)).graphs = s.graphs := rfl
@[simp] theorem Prim.reclaims_links (s : State) (l : List Reclaim) : (Prim.apply s (.reclaims l)).links = s.links := rfl
@[simp] theorem Prim.reclaims_access (s : State) (l : List Reclaim) : (Prim.apply s (.reclaims l)).access = s.access := rfl
@[simp] theorem Prim.reclaims_mailboxes (s : State) (l : List Reclaim) : (Prim.apply s (.reclaims l)).mailboxes = s.mailboxes := rfl
@[simp] theorem Prim.reclaims_mgmtBox (s : State) (l : List Reclaim) : (Prim.apply s (.reclaims l)).mgmtBox = s.mgmtBox := rfl
@[simp] theorem Prim.reclaims_ports (s : State) (l : List Reclaim) : (Prim.apply s (.reclaims l)).ports = s.ports := rfl
@[simp] theorem Prim.reclaims_mregs (s : State) (l : List Reclaim) : (Prim.apply s (.reclaims l)).mregs = s.mregs := rfl
@[simp] theorem Prim.reclaims_nextId (s : State) (l : List Reclaim) : (Prim.apply s (.reclaims l)).nextId = s.nextId := rfl
@[simp] theorem Prim.reclaims_security (s : State) (l : List Reclaim) : (Prim.apply s (.reclaims l)).security = s.security := rfl
@[simp] theorem Prim.reclaims_mxrate (s : State) (l : List Reclaim) : (Prim.apply s (.reclaims l)).mxrate = s.mxrate := rfl
@[simp] theorem Prim.reclaims_powered (s : State) (l : List Reclaim) : (Prim.apply s (.reclaims l)).powered = s.powered := rfl
@[simp] theorem Prim.reclaims_replies (s : State) (l : List Reclaim) : (Prim.apply s (.reclaims l)).replies = s.replies := rfl
@[simp] theorem Prim.reclaims_sched (s : State) (l : List Reclaim) : (Prim.apply s (.reclaims l)).sched = s.sched := rfl
@[simp] theorem Prim.reclaims_doing (s : State) (l : List Reclaim) : (Prim.apply s (.reclaims l)).doing = s.doing := rfl
@[simp] theorem Prim.reclaims_cur (s : State) (l : List Reclaim) : (Prim.apply s (.reclaims l)).cur = s.cur := rfl
@[simp] theorem Prim.reclaims_lag (s : State) (l : List Reclaim) : (Prim.apply s (.reclaims l)).lag = s.lag := rfl
@[simp] theorem Prim.reclaims_freeCtr (s : State) (l : List Reclaim) : (Prim.apply s (.reclaims l)).freeCtr = s.freeCtr := rfl
@[simp] theorem Prim.reclaims_reclaims (s : State) (l : List Reclaim) : (Prim.apply s (.reclaims l)).reclaims = l := rfl

/-! ### .sched -/

@[simp] theorem Prim.sched_cycle (s : State) (l : List Turn) : (Prim.apply s (.sched l)).cycle = s.cycle := rfl
@[simp] theorem Prim.sched_pkg (s : State) (l : List Turn) : (Prim.apply s (.sched l)).pkg = s.pkg := rfl
@[simp] theorem Prim.sched_mem (s : State) (l : List Turn) : (Prim.apply s (.sched l)).mem = s.mem := rfl
@[simp] theorem Prim.sched_lines (s : State) (l : List Turn) : (Prim.apply s (.sched l)).lines = s.lines := rfl
@[simp] theorem Prim.sched_harts (s : State) (l : List Turn) : (Prim.apply s (.sched l)).harts = s.harts := rfl
@[simp] theorem Prim.sched_cores (s : State) (l : List Turn) : (Prim.apply s (.sched l)).cores = s.cores := rfl
@[simp] theorem Prim.sched_clusters (s : State) (l : List Turn) : (Prim.apply s (.sched l)).clusters = s.clusters := rfl
@[simp] theorem Prim.sched_tiers (s : State) (l : List Turn) : (Prim.apply s (.sched l)).tiers = s.tiers := rfl
@[simp] theorem Prim.sched_towers (s : State) (l : List Turn) : (Prim.apply s (.sched l)).towers = s.towers := rfl
@[simp] theorem Prim.sched_parts (s : State) (l : List Turn) : (Prim.apply s (.sched l)).parts = s.parts := rfl
@[simp] theorem Prim.sched_queues (s : State) (l : List Turn) : (Prim.apply s (.sched l)).queues = s.queues := rfl
@[simp] theorem Prim.sched_launches (s : State) (l : List Turn) : (Prim.apply s (.sched l)).launches = s.launches := rfl
@[simp] theorem Prim.sched_gangs (s : State) (l : List Turn) : (Prim.apply s (.sched l)).gangs = s.gangs := rfl
@[simp] theorem Prim.sched_graphs (s : State) (l : List Turn) : (Prim.apply s (.sched l)).graphs = s.graphs := rfl
@[simp] theorem Prim.sched_links (s : State) (l : List Turn) : (Prim.apply s (.sched l)).links = s.links := rfl
@[simp] theorem Prim.sched_access (s : State) (l : List Turn) : (Prim.apply s (.sched l)).access = s.access := rfl
@[simp] theorem Prim.sched_mailboxes (s : State) (l : List Turn) : (Prim.apply s (.sched l)).mailboxes = s.mailboxes := rfl
@[simp] theorem Prim.sched_mgmtBox (s : State) (l : List Turn) : (Prim.apply s (.sched l)).mgmtBox = s.mgmtBox := rfl
@[simp] theorem Prim.sched_ports (s : State) (l : List Turn) : (Prim.apply s (.sched l)).ports = s.ports := rfl
@[simp] theorem Prim.sched_mregs (s : State) (l : List Turn) : (Prim.apply s (.sched l)).mregs = s.mregs := rfl
@[simp] theorem Prim.sched_nextId (s : State) (l : List Turn) : (Prim.apply s (.sched l)).nextId = s.nextId := rfl
@[simp] theorem Prim.sched_security (s : State) (l : List Turn) : (Prim.apply s (.sched l)).security = s.security := rfl
@[simp] theorem Prim.sched_mxrate (s : State) (l : List Turn) : (Prim.apply s (.sched l)).mxrate = s.mxrate := rfl
@[simp] theorem Prim.sched_powered (s : State) (l : List Turn) : (Prim.apply s (.sched l)).powered = s.powered := rfl
@[simp] theorem Prim.sched_replies (s : State) (l : List Turn) : (Prim.apply s (.sched l)).replies = s.replies := rfl
@[simp] theorem Prim.sched_sched (s : State) (l : List Turn) : (Prim.apply s (.sched l)).sched = l := rfl
@[simp] theorem Prim.sched_doing (s : State) (l : List Turn) : (Prim.apply s (.sched l)).doing = s.doing := rfl
@[simp] theorem Prim.sched_cur (s : State) (l : List Turn) : (Prim.apply s (.sched l)).cur = s.cur := rfl
@[simp] theorem Prim.sched_lag (s : State) (l : List Turn) : (Prim.apply s (.sched l)).lag = s.lag := rfl
@[simp] theorem Prim.sched_freeCtr (s : State) (l : List Turn) : (Prim.apply s (.sched l)).freeCtr = s.freeCtr := rfl
@[simp] theorem Prim.sched_reclaims (s : State) (l : List Turn) : (Prim.apply s (.sched l)).reclaims = s.reclaims := rfl

/-! ### canon -/

@[simp] theorem Hart.canon_x (h : Hart) : (h.canon).x = h.x.set 0 0 := rfl
@[simp] theorem Hart.canon_v (h : Hart) : (h.canon).v = h.v := rfl
@[simp] theorem Hart.canon_m (h : Hart) : (h.canon).m = h.m := rfl
@[simp] theorem Hart.canon_w (h : Hart) : (h.canon).w = h.w := rfl
@[simp] theorem Hart.canon_a (h : Hart) : (h.canon).a = h.a := rfl
@[simp] theorem Hart.canon_e (h : Hart) : (h.canon).e = h.e := rfl
@[simp] theorem Hart.canon_pc (h : Hart) : (h.canon).pc = h.pc &&& ~~~1#64 := rfl
@[simp] theorem Hart.canon_sup (h : Hart) : (h.canon).sup = h.sup := rfl
@[simp] theorem Hart.canon_fflags (h : Hart) : (h.canon).fflags = h.fflags := rfl
@[simp] theorem Hart.canon_rmode (h : Hart) : (h.canon).rmode = h.rmode &&& rmodeMask := rfl
@[simp] theorem Hart.canon_vstart (h : Hart) : (h.canon).vstart = h.vstart := rfl
@[simp] theorem Hart.canon_vsWritten (h : Hart) : (h.canon).vsWritten = h.vsWritten := rfl
@[simp] theorem Hart.canon_vtype (h : Hart) : (h.canon).vtype = h.vtype &&& vtypeMask := rfl
@[simp] theorem Hart.canon_ftrim (h : Hart) : (h.canon).ftrim = h.ftrim := rfl
@[simp] theorem Hart.canon_vl (h : Hart) : (h.canon).vl = h.vl := rfl
@[simp] theorem Hart.canon_vcfg (h : Hart) : (h.canon).vcfg = h.vcfg := rfl
@[simp] theorem Hart.canon_tilem (h : Hart) : (h.canon).tilem = h.tilem := rfl
@[simp] theorem Hart.canon_tilen (h : Hart) : (h.canon).tilen = h.tilen := rfl
@[simp] theorem Hart.canon_tilek (h : Hart) : (h.canon).tilek = h.tilek := rfl
@[simp] theorem Hart.canon_status (h : Hart) : (h.canon).status = h.status := rfl
@[simp] theorem Hart.canon_tvec (h : Hart) : (h.canon).tvec = h.tvec &&& addrMask := rfl
@[simp] theorem Hart.canon_epc (h : Hart) : (h.canon).epc = h.epc := rfl
@[simp] theorem Hart.canon_ecause (h : Hart) : (h.canon).ecause = h.ecause := rfl
@[simp] theorem Hart.canon_eval (h : Hart) : (h.canon).eval = h.eval := rfl
@[simp] theorem Hart.canon_eqpos (h : Hart) : (h.canon).eqpos = h.eqpos := rfl
@[simp] theorem Hart.canon_kscratch (h : Hart) : (h.canon).kscratch = h.kscratch := rfl
@[simp] theorem Hart.canon_ptroot (h : Hart) : (h.canon).ptroot = h.ptroot &&& ptrootMask := rfl
@[simp] theorem Hart.canon_vlcap (h : Hart) : (h.canon).vlcap = h.vlcap := rfl
@[simp] theorem Hart.canon_fwdlim (h : Hart) : (h.canon).fwdlim = h.fwdlim := rfl
@[simp] theorem Hart.canon_partid (h : Hart) : (h.canon).partid = h.partid := rfl
@[simp] theorem Hart.canon_bpaddr (h : Hart) : (h.canon).bpaddr = h.bpaddr := rfl
@[simp] theorem Hart.canon_bpctl (h : Hart) : (h.canon).bpctl = h.bpctl := rfl
@[simp] theorem Hart.canon_hrun (h : Hart) : (h.canon).hrun = h.hrun := rfl
@[simp] theorem Hart.canon_instret (h : Hart) : (h.canon).instret = h.instret := rfl
@[simp] theorem Hart.canon_egops (h : Hart) : (h.canon).egops = h.egops := rfl
@[simp] theorem Hart.canon_mxcyc (h : Hart) : (h.canon).mxcyc = h.mxcyc := rfl
@[simp] theorem Hart.canon_fwdhops (h : Hart) : (h.canon).fwdhops = h.fwdhops := rfl
@[simp] theorem Hart.canon_ilkstall (h : Hart) : (h.canon).ilkstall = h.ilkstall := rfl
@[simp] theorem Hart.canon_bacqwait (h : Hart) : (h.canon).bacqwait = h.bacqwait := rfl
@[simp] theorem Hart.canon_xfallbk (h : Hart) : (h.canon).xfallbk = h.xfallbk := rfl
@[simp] theorem Hart.canon_preempts (h : Hart) : (h.canon).preempts = h.preempts := rfl
@[simp] theorem Hart.canon_traps (h : Hart) : (h.canon).traps = h.traps := rfl
@[simp] theorem Hart.canon_lp (h : Hart) : (h.canon).lp = h.lp := rfl
@[simp] theorem Hart.canon_resumePc (h : Hart) : (h.canon).resumePc = h.resumePc := rfl
@[simp] theorem Hart.canon_erets (h : Hart) : (h.canon).erets = h.erets := rfl
@[simp] theorem Hart.canon_vqHeld (h : Hart) : (h.canon).vqHeld = h.vqHeld := rfl
@[simp] theorem Hart.canon_bpSkip (h : Hart) : (h.canon).bpSkip = h.bpSkip := rfl
@[simp] theorem Hart.canon_capNow (h : Hart) : (h.canon).capNow = h.capNow := rfl
@[simp] theorem Hart.canon_sFix (h : Hart) : (h.canon).sFix = h.sFix := rfl
@[simp] theorem Hart.canon_lay (h : Hart) : (h.canon).lay = h.lay := rfl
@[simp] theorem Hart.canon_vq (h : Hart) : (h.canon).vq = h.vq := rfl
@[simp] theorem Hart.canon_stoppedAt (h : Hart) : (h.canon).stoppedAt = h.stoppedAt := rfl
@[simp] theorem Hart.canon_rq (h : Hart) : (h.canon).rq = h.rq := rfl
@[simp] theorem Hart.canon_chans (h : Hart) : (h.canon).chans = h.chans := rfl
@[simp] theorem Hart.canon_ilk (h : Hart) : (h.canon).ilk = h.ilk := rfl
@[simp] theorem Hart.canon_place (h : Hart) : (h.canon).place = h.place := rfl
@[simp] theorem Hart.canon_arrived (h : Hart) : (h.canon).arrived = h.arrived := rfl
@[simp] theorem Hart.canon_epochAt (h : Hart) : (h.canon).epochAt = h.epochAt := rfl
@[simp] theorem Hart.canon_barrierQ (h : Hart) : (h.canon).barrierQ = h.barrierQ := rfl
@[simp] theorem Hart.canon_bstQueued (h : Hart) : (h.canon).bstQueued = h.bstQueued := rfl
@[simp] theorem Hart.canon_bstNext (h : Hart) : (h.canon).bstNext = h.bstNext := rfl
@[simp] theorem Hart.canon_posted (h : Hart) : (h.canon).posted = h.posted := rfl
@[simp] theorem Hart.canon_remote (h : Hart) : (h.canon).remote = h.remote := rfl
@[simp] theorem Hart.canon_hstop (h : Hart) : (h.canon).hstop = h.hstop := rfl
@[simp] theorem Hart.canon_wfe (h : Hart) : (h.canon).wfe = h.wfe := rfl
@[simp] theorem Hart.canon_bacq (h : Hart) : (h.canon).bacq = h.bacq := rfl
@[simp] theorem Hart.canon_migWait (h : Hart) : (h.canon).migWait = h.migWait := rfl
@[simp] theorem Hart.canon_migVec (h : Hart) : (h.canon).migVec = h.migVec := rfl
@[simp] theorem Hart.canon_tlb (h : Hart) : (h.canon).tlb = h.tlb := rfl
@[simp] theorem Hart.canon_flight (h : Hart) : (h.canon).flight = h.flight := rfl
@[simp] theorem Hart.canon_shooting (h : Hart) : (h.canon).shooting = h.shooting := rfl
@[simp] theorem Hart.canon_spilled (h : Hart) : (h.canon).spilled = h.spilled := rfl
@[simp] theorem Hart.canon_holdS (h : Hart) : (h.canon).holdS = h.holdS := rfl
@[simp] theorem Hart.canon_holdV (h : Hart) : (h.canon).holdV = h.holdV := rfl
@[simp] theorem Hart.canon_ilkAt (h : Hart) : (h.canon).ilkAt = h.ilkAt := rfl
@[simp] theorem Hart.canon_bacqAt (h : Hart) : (h.canon).bacqAt = h.bacqAt := rfl

/-! ### enterTrap -/

@[simp] theorem Hart.enterTrap_x (h : Hart) (c : BitVec 16) (p v : Word) (q : BitVec 5) (k : TrapKind) (b : Bool) : (h.enterTrap c p v q k b).x = h.x := rfl
@[simp] theorem Hart.enterTrap_v (h : Hart) (c : BitVec 16) (p v : Word) (q : BitVec 5) (k : TrapKind) (b : Bool) : (h.enterTrap c p v q k b).v = h.v := rfl
@[simp] theorem Hart.enterTrap_m (h : Hart) (c : BitVec 16) (p v : Word) (q : BitVec 5) (k : TrapKind) (b : Bool) : (h.enterTrap c p v q k b).m = h.m := rfl
@[simp] theorem Hart.enterTrap_w (h : Hart) (c : BitVec 16) (p v : Word) (q : BitVec 5) (k : TrapKind) (b : Bool) : (h.enterTrap c p v q k b).w = h.w := rfl
@[simp] theorem Hart.enterTrap_a (h : Hart) (c : BitVec 16) (p v : Word) (q : BitVec 5) (k : TrapKind) (b : Bool) : (h.enterTrap c p v q k b).a = h.a := rfl
@[simp] theorem Hart.enterTrap_e (h : Hart) (c : BitVec 16) (p v : Word) (q : BitVec 5) (k : TrapKind) (b : Bool) : (h.enterTrap c p v q k b).e = h.e := rfl
@[simp] theorem Hart.enterTrap_pc (h : Hart) (c : BitVec 16) (p v : Word) (q : BitVec 5) (k : TrapKind) (b : Bool) : (h.enterTrap c p v q k b).pc = evenWord h.tvec := rfl
@[simp] theorem Hart.enterTrap_sup (h : Hart) (c : BitVec 16) (p v : Word) (q : BitVec 5) (k : TrapKind) (b : Bool) : (h.enterTrap c p v q k b).sup = true := rfl
@[simp] theorem Hart.enterTrap_fflags (h : Hart) (c : BitVec 16) (p v : Word) (q : BitVec 5) (k : TrapKind) (b : Bool) : (h.enterTrap c p v q k b).fflags = h.fflags := rfl
@[simp] theorem Hart.enterTrap_rmode (h : Hart) (c : BitVec 16) (p v : Word) (q : BitVec 5) (k : TrapKind) (b : Bool) : (h.enterTrap c p v q k b).rmode = h.rmode := rfl
@[simp] theorem Hart.enterTrap_vstart (h : Hart) (c : BitVec 16) (p v : Word) (q : BitVec 5) (k : TrapKind) (b : Bool) : (h.enterTrap c p v q k b).vstart = h.vstart := rfl
@[simp] theorem Hart.enterTrap_vsWritten (h : Hart) (c : BitVec 16) (p v : Word) (q : BitVec 5) (k : TrapKind) (b : Bool) : (h.enterTrap c p v q k b).vsWritten = h.vsWritten := rfl
@[simp] theorem Hart.enterTrap_vtype (h : Hart) (c : BitVec 16) (p v : Word) (q : BitVec 5) (k : TrapKind) (b : Bool) : (h.enterTrap c p v q k b).vtype = h.vtype := rfl
@[simp] theorem Hart.enterTrap_ftrim (h : Hart) (c : BitVec 16) (p v : Word) (q : BitVec 5) (k : TrapKind) (b : Bool) : (h.enterTrap c p v q k b).ftrim = h.ftrim := rfl
@[simp] theorem Hart.enterTrap_vl (h : Hart) (c : BitVec 16) (p v : Word) (q : BitVec 5) (k : TrapKind) (b : Bool) : (h.enterTrap c p v q k b).vl = h.vl := rfl
@[simp] theorem Hart.enterTrap_vcfg (h : Hart) (c : BitVec 16) (p v : Word) (q : BitVec 5) (k : TrapKind) (b : Bool) : (h.enterTrap c p v q k b).vcfg = h.vcfg := rfl
@[simp] theorem Hart.enterTrap_tilem (h : Hart) (c : BitVec 16) (p v : Word) (q : BitVec 5) (k : TrapKind) (b : Bool) : (h.enterTrap c p v q k b).tilem = h.tilem := rfl
@[simp] theorem Hart.enterTrap_tilen (h : Hart) (c : BitVec 16) (p v : Word) (q : BitVec 5) (k : TrapKind) (b : Bool) : (h.enterTrap c p v q k b).tilen = h.tilen := rfl
@[simp] theorem Hart.enterTrap_tilek (h : Hart) (c : BitVec 16) (p v : Word) (q : BitVec 5) (k : TrapKind) (b : Bool) : (h.enterTrap c p v q k b).tilek = h.tilek := rfl
@[simp] theorem Hart.enterTrap_status (h : Hart) (c : BitVec 16) (p v : Word) (q : BitVec 5) (k : TrapKind) (b : Bool) : (h.enterTrap c p v q k b).status = (h.status.extractLsb' 1 1) ++ (0#1 ++ BitVec.ofBool h.sup) := rfl
@[simp] theorem Hart.enterTrap_tvec (h : Hart) (c : BitVec 16) (p v : Word) (q : BitVec 5) (k : TrapKind) (b : Bool) : (h.enterTrap c p v q k b).tvec = h.tvec := rfl
@[simp] theorem Hart.enterTrap_epc (h : Hart) (c : BitVec 16) (p v : Word) (q : BitVec 5) (k : TrapKind) (b : Bool) : (h.enterTrap c p v q k b).epc = p := rfl
@[simp] theorem Hart.enterTrap_ecause (h : Hart) (c : BitVec 16) (p v : Word) (q : BitVec 5) (k : TrapKind) (b : Bool) : (h.enterTrap c p v q k b).ecause = c := rfl
@[simp] theorem Hart.enterTrap_eval (h : Hart) (c : BitVec 16) (p v : Word) (q : BitVec 5) (k : TrapKind) (b : Bool) : (h.enterTrap c p v q k b).eval = v := rfl
@[simp] theorem Hart.enterTrap_eqpos (h : Hart) (c : BitVec 16) (p v : Word) (q : BitVec 5) (k : TrapKind) (b : Bool) : (h.enterTrap c p v q k b).eqpos = q := rfl
@[simp] theorem Hart.enterTrap_kscratch (h : Hart) (c : BitVec 16) (p v : Word) (q : BitVec 5) (k : TrapKind) (b : Bool) : (h.enterTrap c p v q k b).kscratch = h.kscratch := rfl
@[simp] theorem Hart.enterTrap_ptroot (h : Hart) (c : BitVec 16) (p v : Word) (q : BitVec 5) (k : TrapKind) (b : Bool) : (h.enterTrap c p v q k b).ptroot = h.ptroot := rfl
@[simp] theorem Hart.enterTrap_vlcap (h : Hart) (c : BitVec 16) (p v : Word) (q : BitVec 5) (k : TrapKind) (b : Bool) : (h.enterTrap c p v q k b).vlcap = h.vlcap := rfl
@[simp] theorem Hart.enterTrap_fwdlim (h : Hart) (c : BitVec 16) (p v : Word) (q : BitVec 5) (k : TrapKind) (b : Bool) : (h.enterTrap c p v q k b).fwdlim = h.fwdlim := rfl
@[simp] theorem Hart.enterTrap_partid (h : Hart) (c : BitVec 16) (p v : Word) (q : BitVec 5) (k : TrapKind) (b : Bool) : (h.enterTrap c p v q k b).partid = h.partid := rfl
@[simp] theorem Hart.enterTrap_bpaddr (h : Hart) (c : BitVec 16) (p v : Word) (q : BitVec 5) (k : TrapKind) (b : Bool) : (h.enterTrap c p v q k b).bpaddr = h.bpaddr := rfl
@[simp] theorem Hart.enterTrap_bpctl (h : Hart) (c : BitVec 16) (p v : Word) (q : BitVec 5) (k : TrapKind) (b : Bool) : (h.enterTrap c p v q k b).bpctl = h.bpctl := rfl
@[simp] theorem Hart.enterTrap_hrun (h : Hart) (c : BitVec 16) (p v : Word) (q : BitVec 5) (k : TrapKind) (b : Bool) : (h.enterTrap c p v q k b).hrun = h.hrun := rfl
@[simp] theorem Hart.enterTrap_instret (h : Hart) (c : BitVec 16) (p v : Word) (q : BitVec 5) (k : TrapKind) (b : Bool) : (h.enterTrap c p v q k b).instret = h.instret := rfl
@[simp] theorem Hart.enterTrap_egops (h : Hart) (c : BitVec 16) (p v : Word) (q : BitVec 5) (k : TrapKind) (b : Bool) : (h.enterTrap c p v q k b).egops = h.egops := rfl
@[simp] theorem Hart.enterTrap_mxcyc (h : Hart) (c : BitVec 16) (p v : Word) (q : BitVec 5) (k : TrapKind) (b : Bool) : (h.enterTrap c p v q k b).mxcyc = h.mxcyc := rfl
@[simp] theorem Hart.enterTrap_fwdhops (h : Hart) (c : BitVec 16) (p v : Word) (q : BitVec 5) (k : TrapKind) (b : Bool) : (h.enterTrap c p v q k b).fwdhops = h.fwdhops := rfl
@[simp] theorem Hart.enterTrap_ilkstall (h : Hart) (c : BitVec 16) (p v : Word) (q : BitVec 5) (k : TrapKind) (b : Bool) : (h.enterTrap c p v q k b).ilkstall = h.ilkstall := rfl
@[simp] theorem Hart.enterTrap_bacqwait (h : Hart) (c : BitVec 16) (p v : Word) (q : BitVec 5) (k : TrapKind) (b : Bool) : (h.enterTrap c p v q k b).bacqwait = h.bacqwait := rfl
@[simp] theorem Hart.enterTrap_xfallbk (h : Hart) (c : BitVec 16) (p v : Word) (q : BitVec 5) (k : TrapKind) (b : Bool) : (h.enterTrap c p v q k b).xfallbk = h.xfallbk := rfl
@[simp] theorem Hart.enterTrap_preempts (h : Hart) (c : BitVec 16) (p v : Word) (q : BitVec 5) (k : TrapKind) (b : Bool) : (h.enterTrap c p v q k b).preempts = h.preempts := rfl
@[simp] theorem Hart.enterTrap_traps (h : Hart) (c : BitVec 16) (p v : Word) (q : BitVec 5) (k : TrapKind) (b : Bool) : (h.enterTrap c p v q k b).traps = h.traps + 1 := rfl
@[simp] theorem Hart.enterTrap_lp (h : Hart) (c : BitVec 16) (p v : Word) (q : BitVec 5) (k : TrapKind) (b : Bool) : (h.enterTrap c p v q k b).lp = h.lp := rfl
@[simp] theorem Hart.enterTrap_resumePc (h : Hart) (c : BitVec 16) (p v : Word) (q : BitVec 5) (k : TrapKind) (b : Bool) : (h.enterTrap c p v q k b).resumePc = h.resumePc := rfl
@[simp] theorem Hart.enterTrap_erets (h : Hart) (c : BitVec 16) (p v : Word) (q : BitVec 5) (k : TrapKind) (b : Bool) : (h.enterTrap c p v q k b).erets = k :: h.erets := rfl
@[simp] theorem Hart.enterTrap_vqHeld (h : Hart) (c : BitVec 16) (p v : Word) (q : BitVec 5) (k : TrapKind) (b : Bool) : (h.enterTrap c p v q k b).vqHeld = b := rfl
@[simp] theorem Hart.enterTrap_bpSkip (h : Hart) (c : BitVec 16) (p v : Word) (q : BitVec 5) (k : TrapKind) (b : Bool) : (h.enterTrap c p v q k b).bpSkip = h.bpSkip := rfl
@[simp] theorem Hart.enterTrap_capNow (h : Hart) (c : BitVec 16) (p v : Word) (q : BitVec 5) (k : TrapKind) (b : Bool) : (h.enterTrap c p v q k b).capNow = h.capNow := rfl
@[simp] theorem Hart.enterTrap_sFix (h : Hart) (c : BitVec 16) (p v : Word) (q : BitVec 5) (k : TrapKind) (b : Bool) : (h.enterTrap c p v q k b).sFix = h.sFix := rfl
@[simp] theorem Hart.enterTrap_lay (h : Hart) (c : BitVec 16) (p v : Word) (q : BitVec 5) (k : TrapKind) (b : Bool) : (h.enterTrap c p v q k b).lay = h.lay := rfl
@[simp] theorem Hart.enterTrap_vq (h : Hart) (c : BitVec 16) (p v : Word) (q : BitVec 5) (k : TrapKind) (b : Bool) : (h.enterTrap c p v q k b).vq = h.vq := rfl
@[simp] theorem Hart.enterTrap_stoppedAt (h : Hart) (c : BitVec 16) (p v : Word) (q : BitVec 5) (k : TrapKind) (b : Bool) : (h.enterTrap c p v q k b).stoppedAt = h.stoppedAt := rfl
@[simp] theorem Hart.enterTrap_rq (h : Hart) (c : BitVec 16) (p v : Word) (q : BitVec 5) (k : TrapKind) (b : Bool) : (h.enterTrap c p v q k b).rq = h.rq := rfl
@[simp] theorem Hart.enterTrap_chans (h : Hart) (c : BitVec 16) (p v : Word) (q : BitVec 5) (k : TrapKind) (b : Bool) : (h.enterTrap c p v q k b).chans = h.chans := rfl
@[simp] theorem Hart.enterTrap_ilk (h : Hart) (c : BitVec 16) (p v : Word) (q : BitVec 5) (k : TrapKind) (b : Bool) : (h.enterTrap c p v q k b).ilk = h.ilk := rfl
@[simp] theorem Hart.enterTrap_place (h : Hart) (c : BitVec 16) (p v : Word) (q : BitVec 5) (k : TrapKind) (b : Bool) : (h.enterTrap c p v q k b).place = h.place := rfl
@[simp] theorem Hart.enterTrap_arrived (h : Hart) (c : BitVec 16) (p v : Word) (q : BitVec 5) (k : TrapKind) (b : Bool) : (h.enterTrap c p v q k b).arrived = h.arrived := rfl
@[simp] theorem Hart.enterTrap_epochAt (h : Hart) (c : BitVec 16) (p v : Word) (q : BitVec 5) (k : TrapKind) (b : Bool) : (h.enterTrap c p v q k b).epochAt = h.epochAt := rfl
@[simp] theorem Hart.enterTrap_barrierQ (h : Hart) (c : BitVec 16) (p v : Word) (q : BitVec 5) (k : TrapKind) (b : Bool) : (h.enterTrap c p v q k b).barrierQ = h.barrierQ := rfl
@[simp] theorem Hart.enterTrap_bstQueued (h : Hart) (c : BitVec 16) (p v : Word) (q : BitVec 5) (k : TrapKind) (b : Bool) : (h.enterTrap c p v q k b).bstQueued = h.bstQueued := rfl
@[simp] theorem Hart.enterTrap_bstNext (h : Hart) (c : BitVec 16) (p v : Word) (q : BitVec 5) (k : TrapKind) (b : Bool) : (h.enterTrap c p v q k b).bstNext = h.bstNext := rfl
@[simp] theorem Hart.enterTrap_posted (h : Hart) (c : BitVec 16) (p v : Word) (q : BitVec 5) (k : TrapKind) (b : Bool) : (h.enterTrap c p v q k b).posted = h.posted := rfl
@[simp] theorem Hart.enterTrap_remote (h : Hart) (c : BitVec 16) (p v : Word) (q : BitVec 5) (k : TrapKind) (b : Bool) : (h.enterTrap c p v q k b).remote = h.remote := rfl
@[simp] theorem Hart.enterTrap_hstop (h : Hart) (c : BitVec 16) (p v : Word) (q : BitVec 5) (k : TrapKind) (b : Bool) : (h.enterTrap c p v q k b).hstop = h.hstop := rfl
@[simp] theorem Hart.enterTrap_wfe (h : Hart) (c : BitVec 16) (p v : Word) (q : BitVec 5) (k : TrapKind) (b : Bool) : (h.enterTrap c p v q k b).wfe = none := rfl
@[simp] theorem Hart.enterTrap_bacq (h : Hart) (c : BitVec 16) (p v : Word) (q : BitVec 5) (k : TrapKind) (b : Bool) : (h.enterTrap c p v q k b).bacq = h.bacq := rfl
@[simp] theorem Hart.enterTrap_migWait (h : Hart) (c : BitVec 16) (p v : Word) (q : BitVec 5) (k : TrapKind) (b : Bool) : (h.enterTrap c p v q k b).migWait = h.migWait := rfl
@[simp] theorem Hart.enterTrap_migVec (h : Hart) (c : BitVec 16) (p v : Word) (q : BitVec 5) (k : TrapKind) (b : Bool) : (h.enterTrap c p v q k b).migVec = h.migVec := rfl
@[simp] theorem Hart.enterTrap_tlb (h : Hart) (c : BitVec 16) (p v : Word) (q : BitVec 5) (k : TrapKind) (b : Bool) : (h.enterTrap c p v q k b).tlb = h.tlb := rfl
@[simp] theorem Hart.enterTrap_flight (h : Hart) (c : BitVec 16) (p v : Word) (q : BitVec 5) (k : TrapKind) (b : Bool) : (h.enterTrap c p v q k b).flight = h.flight := rfl
@[simp] theorem Hart.enterTrap_shooting (h : Hart) (c : BitVec 16) (p v : Word) (q : BitVec 5) (k : TrapKind) (b : Bool) : (h.enterTrap c p v q k b).shooting = h.shooting := rfl
@[simp] theorem Hart.enterTrap_spilled (h : Hart) (c : BitVec 16) (p v : Word) (q : BitVec 5) (k : TrapKind) (b : Bool) : (h.enterTrap c p v q k b).spilled = h.spilled := rfl
@[simp] theorem Hart.enterTrap_holdS (h : Hart) (c : BitVec 16) (p v : Word) (q : BitVec 5) (k : TrapKind) (b : Bool) : (h.enterTrap c p v q k b).holdS = h.holdS := rfl
@[simp] theorem Hart.enterTrap_holdV (h : Hart) (c : BitVec 16) (p v : Word) (q : BitVec 5) (k : TrapKind) (b : Bool) : (h.enterTrap c p v q k b).holdV = h.holdV := rfl
@[simp] theorem Hart.enterTrap_ilkAt (h : Hart) (c : BitVec 16) (p v : Word) (q : BitVec 5) (k : TrapKind) (b : Bool) : (h.enterTrap c p v q k b).ilkAt = h.ilkAt := rfl
@[simp] theorem Hart.enterTrap_bacqAt (h : Hart) (c : BitVec 16) (p v : Word) (q : BitVec 5) (k : TrapKind) (b : Bool) : (h.enterTrap c p v q k b).bacqAt = h.bacqAt := rfl

/-! ### returnTrap -/

@[simp] theorem Hart.returnTrap_x (h : Hart) : (h.returnTrap).x = h.x := rfl
@[simp] theorem Hart.returnTrap_v (h : Hart) : (h.returnTrap).v = h.v := rfl
@[simp] theorem Hart.returnTrap_m (h : Hart) : (h.returnTrap).m = h.m := rfl
@[simp] theorem Hart.returnTrap_w (h : Hart) : (h.returnTrap).w = h.w := rfl
@[simp] theorem Hart.returnTrap_a (h : Hart) : (h.returnTrap).a = h.a := rfl
@[simp] theorem Hart.returnTrap_e (h : Hart) : (h.returnTrap).e = h.e := rfl
@[simp] theorem Hart.returnTrap_pc (h : Hart) : (h.returnTrap).pc = if h.erets.head? == some .queue then h.resumePc else evenWord h.epc := rfl
@[simp] theorem Hart.returnTrap_sup (h : Hart) : (h.returnTrap).sup = (h.status.extractLsb' 0 1 == 1#1) := rfl
@[simp] theorem Hart.returnTrap_fflags (h : Hart) : (h.returnTrap).fflags = h.fflags := rfl
@[simp] theorem Hart.returnTrap_rmode (h : Hart) : (h.returnTrap).rmode = h.rmode := rfl
@[simp] theorem Hart.returnTrap_vstart (h : Hart) : (h.returnTrap).vstart = if h.erets.head? == some .queue then 0 else h.vstart := rfl
@[simp] theorem Hart.returnTrap_vsWritten (h : Hart) : (h.returnTrap).vsWritten = h.vsWritten := rfl
@[simp] theorem Hart.returnTrap_vtype (h : Hart) : (h.returnTrap).vtype = h.vtype := rfl
@[simp] theorem Hart.returnTrap_ftrim (h : Hart) : (h.returnTrap).ftrim = h.ftrim := rfl
@[simp] theorem Hart.returnTrap_vl (h : Hart) : (h.returnTrap).vl = h.vl := rfl
@[simp] theorem Hart.returnTrap_vcfg (h : Hart) : (h.returnTrap).vcfg = h.vcfg := rfl
@[simp] theorem Hart.returnTrap_tilem (h : Hart) : (h.returnTrap).tilem = h.tilem := rfl
@[simp] theorem Hart.returnTrap_tilen (h : Hart) : (h.returnTrap).tilen = h.tilen := rfl
@[simp] theorem Hart.returnTrap_tilek (h : Hart) : (h.returnTrap).tilek = h.tilek := rfl
@[simp] theorem Hart.returnTrap_status (h : Hart) : (h.returnTrap).status = (h.status.extractLsb' 2 1) ++ ((h.status.extractLsb' 2 1) ++ (h.status.extractLsb' 0 1)) := rfl
@[simp] theorem Hart.returnTrap_tvec (h : Hart) : (h.returnTrap).tvec = h.tvec := rfl
@[simp] theorem Hart.returnTrap_epc (h : Hart) : (h.returnTrap).epc = h.epc := rfl
@[simp] theorem Hart.returnTrap_ecause (h : Hart) : (h.returnTrap).ecause = h.ecause := rfl
@[simp] theorem Hart.returnTrap_eval (h : Hart) : (h.returnTrap).eval = h.eval := rfl
@[simp] theorem Hart.returnTrap_eqpos (h : Hart) : (h.returnTrap).eqpos = h.eqpos := rfl
@[simp] theorem Hart.returnTrap_kscratch (h : Hart) : (h.returnTrap).kscratch = h.kscratch := rfl
@[simp] theorem Hart.returnTrap_ptroot (h : Hart) : (h.returnTrap).ptroot = h.ptroot := rfl
@[simp] theorem Hart.returnTrap_vlcap (h : Hart) : (h.returnTrap).vlcap = h.vlcap := rfl
@[simp] theorem Hart.returnTrap_fwdlim (h : Hart) : (h.returnTrap).fwdlim = h.fwdlim := rfl
@[simp] theorem Hart.returnTrap_partid (h : Hart) : (h.returnTrap).partid = h.partid := rfl
@[simp] theorem Hart.returnTrap_bpaddr (h : Hart) : (h.returnTrap).bpaddr = h.bpaddr := rfl
@[simp] theorem Hart.returnTrap_bpctl (h : Hart) : (h.returnTrap).bpctl = h.bpctl := rfl
@[simp] theorem Hart.returnTrap_hrun (h : Hart) : (h.returnTrap).hrun = h.hrun := rfl
@[simp] theorem Hart.returnTrap_instret (h : Hart) : (h.returnTrap).instret = h.instret + 1 := rfl
@[simp] theorem Hart.returnTrap_egops (h : Hart) : (h.returnTrap).egops = h.egops := rfl
@[simp] theorem Hart.returnTrap_mxcyc (h : Hart) : (h.returnTrap).mxcyc = h.mxcyc := rfl
@[simp] theorem Hart.returnTrap_fwdhops (h : Hart) : (h.returnTrap).fwdhops = h.fwdhops := rfl
@[simp] theorem Hart.returnTrap_ilkstall (h : Hart) : (h.returnTrap).ilkstall = h.ilkstall := rfl
@[simp] theorem Hart.returnTrap_bacqwait (h : Hart) : (h.returnTrap).bacqwait = h.bacqwait := rfl
@[simp] theorem Hart.returnTrap_xfallbk (h : Hart) : (h.returnTrap).xfallbk = h.xfallbk := rfl
@[simp] theorem Hart.returnTrap_preempts (h : Hart) : (h.returnTrap).preempts = h.preempts := rfl
@[simp] theorem Hart.returnTrap_traps (h : Hart) : (h.returnTrap).traps = h.traps := rfl
@[simp] theorem Hart.returnTrap_lp (h : Hart) : (h.returnTrap).lp = if h.erets.head? == some .queue then h.lp.fromResume else h.lp := rfl
@[simp] theorem Hart.returnTrap_resumePc (h : Hart) : (h.returnTrap).resumePc = h.resumePc := rfl
@[simp] theorem Hart.returnTrap_erets (h : Hart) : (h.returnTrap).erets = h.erets.tail := rfl
@[simp] theorem Hart.returnTrap_vqHeld (h : Hart) : (h.returnTrap).vqHeld = (h.vqHeld && h.erets.tail.any (fun k => k != .drained)) := rfl
@[simp] theorem Hart.returnTrap_bpSkip (h : Hart) : (h.returnTrap).bpSkip = true := rfl
@[simp] theorem Hart.returnTrap_capNow (h : Hart) : (h.returnTrap).capNow = h.capNow := rfl
@[simp] theorem Hart.returnTrap_sFix (h : Hart) : (h.returnTrap).sFix = h.sFix := rfl
@[simp] theorem Hart.returnTrap_lay (h : Hart) : (h.returnTrap).lay = h.lay := rfl
@[simp] theorem Hart.returnTrap_vq (h : Hart) : (h.returnTrap).vq = h.vq := rfl
@[simp] theorem Hart.returnTrap_stoppedAt (h : Hart) : (h.returnTrap).stoppedAt = h.stoppedAt := rfl
@[simp] theorem Hart.returnTrap_rq (h : Hart) : (h.returnTrap).rq = h.rq := rfl
@[simp] theorem Hart.returnTrap_chans (h : Hart) : (h.returnTrap).chans = h.chans.map (fun c => { c with faulted := false }) := rfl
@[simp] theorem Hart.returnTrap_ilk (h : Hart) : (h.returnTrap).ilk = h.ilk := rfl
@[simp] theorem Hart.returnTrap_place (h : Hart) : (h.returnTrap).place = h.place := rfl
@[simp] theorem Hart.returnTrap_arrived (h : Hart) : (h.returnTrap).arrived = h.arrived := rfl
@[simp] theorem Hart.returnTrap_epochAt (h : Hart) : (h.returnTrap).epochAt = h.epochAt := rfl
@[simp] theorem Hart.returnTrap_barrierQ (h : Hart) : (h.returnTrap).barrierQ = h.barrierQ := rfl
@[simp] theorem Hart.returnTrap_bstQueued (h : Hart) : (h.returnTrap).bstQueued = h.bstQueued := rfl
@[simp] theorem Hart.returnTrap_bstNext (h : Hart) : (h.returnTrap).bstNext = h.bstNext := rfl
@[simp] theorem Hart.returnTrap_posted (h : Hart) : (h.returnTrap).posted = h.posted := rfl
@[simp] theorem Hart.returnTrap_remote (h : Hart) : (h.returnTrap).remote = h.remote := rfl
@[simp] theorem Hart.returnTrap_hstop (h : Hart) : (h.returnTrap).hstop = h.hstop := rfl
@[simp] theorem Hart.returnTrap_wfe (h : Hart) : (h.returnTrap).wfe = h.wfe := rfl
@[simp] theorem Hart.returnTrap_bacq (h : Hart) : (h.returnTrap).bacq = h.bacq := rfl
@[simp] theorem Hart.returnTrap_migWait (h : Hart) : (h.returnTrap).migWait = h.migWait := rfl
@[simp] theorem Hart.returnTrap_migVec (h : Hart) : (h.returnTrap).migVec = h.migVec := rfl
@[simp] theorem Hart.returnTrap_tlb (h : Hart) : (h.returnTrap).tlb = h.tlb := rfl
@[simp] theorem Hart.returnTrap_flight (h : Hart) : (h.returnTrap).flight = h.flight := rfl
@[simp] theorem Hart.returnTrap_shooting (h : Hart) : (h.returnTrap).shooting = h.shooting := rfl
@[simp] theorem Hart.returnTrap_spilled (h : Hart) : (h.returnTrap).spilled = h.spilled := rfl
@[simp] theorem Hart.returnTrap_holdS (h : Hart) : (h.returnTrap).holdS = h.holdS := rfl
@[simp] theorem Hart.returnTrap_holdV (h : Hart) : (h.returnTrap).holdV = h.holdV := rfl
@[simp] theorem Hart.returnTrap_ilkAt (h : Hart) : (h.returnTrap).ilkAt = h.ilkAt := rfl
@[simp] theorem Hart.returnTrap_bacqAt (h : Hart) : (h.returnTrap).bacqAt = h.bacqAt := rfl

/-! ### setX -/

@[simp] theorem Hart.setX_v (h : Hart) (r : BitVec 5) (v : Word) : (h.setX r v).v = h.v := by unfold Hart.setX; split <;> rfl
@[simp] theorem Hart.setX_m (h : Hart) (r : BitVec 5) (v : Word) : (h.setX r v).m = h.m := by unfold Hart.setX; split <;> rfl
@[simp] theorem Hart.setX_w (h : Hart) (r : BitVec 5) (v : Word) : (h.setX r v).w = h.w := by unfold Hart.setX; split <;> rfl
@[simp] theorem Hart.setX_a (h : Hart) (r : BitVec 5) (v : Word) : (h.setX r v).a = h.a := by unfold Hart.setX; split <;> rfl
@[simp] theorem Hart.setX_e (h : Hart) (r : BitVec 5) (v : Word) : (h.setX r v).e = h.e := by unfold Hart.setX; split <;> rfl
@[simp] theorem Hart.setX_pc (h : Hart) (r : BitVec 5) (v : Word) : (h.setX r v).pc = h.pc := by unfold Hart.setX; split <;> rfl
@[simp] theorem Hart.setX_sup (h : Hart) (r : BitVec 5) (v : Word) : (h.setX r v).sup = h.sup := by unfold Hart.setX; split <;> rfl
@[simp] theorem Hart.setX_fflags (h : Hart) (r : BitVec 5) (v : Word) : (h.setX r v).fflags = h.fflags := by unfold Hart.setX; split <;> rfl
@[simp] theorem Hart.setX_rmode (h : Hart) (r : BitVec 5) (v : Word) : (h.setX r v).rmode = h.rmode := by unfold Hart.setX; split <;> rfl
@[simp] theorem Hart.setX_vstart (h : Hart) (r : BitVec 5) (v : Word) : (h.setX r v).vstart = h.vstart := by unfold Hart.setX; split <;> rfl
@[simp] theorem Hart.setX_vsWritten (h : Hart) (r : BitVec 5) (v : Word) : (h.setX r v).vsWritten = h.vsWritten := by unfold Hart.setX; split <;> rfl
@[simp] theorem Hart.setX_vtype (h : Hart) (r : BitVec 5) (v : Word) : (h.setX r v).vtype = h.vtype := by unfold Hart.setX; split <;> rfl
@[simp] theorem Hart.setX_ftrim (h : Hart) (r : BitVec 5) (v : Word) : (h.setX r v).ftrim = h.ftrim := by unfold Hart.setX; split <;> rfl
@[simp] theorem Hart.setX_vl (h : Hart) (r : BitVec 5) (v : Word) : (h.setX r v).vl = h.vl := by unfold Hart.setX; split <;> rfl
@[simp] theorem Hart.setX_vcfg (h : Hart) (r : BitVec 5) (v : Word) : (h.setX r v).vcfg = h.vcfg := by unfold Hart.setX; split <;> rfl
@[simp] theorem Hart.setX_tilem (h : Hart) (r : BitVec 5) (v : Word) : (h.setX r v).tilem = h.tilem := by unfold Hart.setX; split <;> rfl
@[simp] theorem Hart.setX_tilen (h : Hart) (r : BitVec 5) (v : Word) : (h.setX r v).tilen = h.tilen := by unfold Hart.setX; split <;> rfl
@[simp] theorem Hart.setX_tilek (h : Hart) (r : BitVec 5) (v : Word) : (h.setX r v).tilek = h.tilek := by unfold Hart.setX; split <;> rfl
@[simp] theorem Hart.setX_status (h : Hart) (r : BitVec 5) (v : Word) : (h.setX r v).status = h.status := by unfold Hart.setX; split <;> rfl
@[simp] theorem Hart.setX_tvec (h : Hart) (r : BitVec 5) (v : Word) : (h.setX r v).tvec = h.tvec := by unfold Hart.setX; split <;> rfl
@[simp] theorem Hart.setX_epc (h : Hart) (r : BitVec 5) (v : Word) : (h.setX r v).epc = h.epc := by unfold Hart.setX; split <;> rfl
@[simp] theorem Hart.setX_ecause (h : Hart) (r : BitVec 5) (v : Word) : (h.setX r v).ecause = h.ecause := by unfold Hart.setX; split <;> rfl
@[simp] theorem Hart.setX_eval (h : Hart) (r : BitVec 5) (v : Word) : (h.setX r v).eval = h.eval := by unfold Hart.setX; split <;> rfl
@[simp] theorem Hart.setX_eqpos (h : Hart) (r : BitVec 5) (v : Word) : (h.setX r v).eqpos = h.eqpos := by unfold Hart.setX; split <;> rfl
@[simp] theorem Hart.setX_kscratch (h : Hart) (r : BitVec 5) (v : Word) : (h.setX r v).kscratch = h.kscratch := by unfold Hart.setX; split <;> rfl
@[simp] theorem Hart.setX_ptroot (h : Hart) (r : BitVec 5) (v : Word) : (h.setX r v).ptroot = h.ptroot := by unfold Hart.setX; split <;> rfl
@[simp] theorem Hart.setX_vlcap (h : Hart) (r : BitVec 5) (v : Word) : (h.setX r v).vlcap = h.vlcap := by unfold Hart.setX; split <;> rfl
@[simp] theorem Hart.setX_fwdlim (h : Hart) (r : BitVec 5) (v : Word) : (h.setX r v).fwdlim = h.fwdlim := by unfold Hart.setX; split <;> rfl
@[simp] theorem Hart.setX_partid (h : Hart) (r : BitVec 5) (v : Word) : (h.setX r v).partid = h.partid := by unfold Hart.setX; split <;> rfl
@[simp] theorem Hart.setX_bpaddr (h : Hart) (r : BitVec 5) (v : Word) : (h.setX r v).bpaddr = h.bpaddr := by unfold Hart.setX; split <;> rfl
@[simp] theorem Hart.setX_bpctl (h : Hart) (r : BitVec 5) (v : Word) : (h.setX r v).bpctl = h.bpctl := by unfold Hart.setX; split <;> rfl
@[simp] theorem Hart.setX_hrun (h : Hart) (r : BitVec 5) (v : Word) : (h.setX r v).hrun = h.hrun := by unfold Hart.setX; split <;> rfl
@[simp] theorem Hart.setX_instret (h : Hart) (r : BitVec 5) (v : Word) : (h.setX r v).instret = h.instret := by unfold Hart.setX; split <;> rfl
@[simp] theorem Hart.setX_egops (h : Hart) (r : BitVec 5) (v : Word) : (h.setX r v).egops = h.egops := by unfold Hart.setX; split <;> rfl
@[simp] theorem Hart.setX_mxcyc (h : Hart) (r : BitVec 5) (v : Word) : (h.setX r v).mxcyc = h.mxcyc := by unfold Hart.setX; split <;> rfl
@[simp] theorem Hart.setX_fwdhops (h : Hart) (r : BitVec 5) (v : Word) : (h.setX r v).fwdhops = h.fwdhops := by unfold Hart.setX; split <;> rfl
@[simp] theorem Hart.setX_ilkstall (h : Hart) (r : BitVec 5) (v : Word) : (h.setX r v).ilkstall = h.ilkstall := by unfold Hart.setX; split <;> rfl
@[simp] theorem Hart.setX_bacqwait (h : Hart) (r : BitVec 5) (v : Word) : (h.setX r v).bacqwait = h.bacqwait := by unfold Hart.setX; split <;> rfl
@[simp] theorem Hart.setX_xfallbk (h : Hart) (r : BitVec 5) (v : Word) : (h.setX r v).xfallbk = h.xfallbk := by unfold Hart.setX; split <;> rfl
@[simp] theorem Hart.setX_preempts (h : Hart) (r : BitVec 5) (v : Word) : (h.setX r v).preempts = h.preempts := by unfold Hart.setX; split <;> rfl
@[simp] theorem Hart.setX_traps (h : Hart) (r : BitVec 5) (v : Word) : (h.setX r v).traps = h.traps := by unfold Hart.setX; split <;> rfl
@[simp] theorem Hart.setX_lp (h : Hart) (r : BitVec 5) (v : Word) : (h.setX r v).lp = h.lp := by unfold Hart.setX; split <;> rfl
@[simp] theorem Hart.setX_resumePc (h : Hart) (r : BitVec 5) (v : Word) : (h.setX r v).resumePc = h.resumePc := by unfold Hart.setX; split <;> rfl
@[simp] theorem Hart.setX_erets (h : Hart) (r : BitVec 5) (v : Word) : (h.setX r v).erets = h.erets := by unfold Hart.setX; split <;> rfl
@[simp] theorem Hart.setX_vqHeld (h : Hart) (r : BitVec 5) (v : Word) : (h.setX r v).vqHeld = h.vqHeld := by unfold Hart.setX; split <;> rfl
@[simp] theorem Hart.setX_bpSkip (h : Hart) (r : BitVec 5) (v : Word) : (h.setX r v).bpSkip = h.bpSkip := by unfold Hart.setX; split <;> rfl
@[simp] theorem Hart.setX_capNow (h : Hart) (r : BitVec 5) (v : Word) : (h.setX r v).capNow = h.capNow := by unfold Hart.setX; split <;> rfl
@[simp] theorem Hart.setX_sFix (h : Hart) (r : BitVec 5) (v : Word) : (h.setX r v).sFix = h.sFix := by unfold Hart.setX; split <;> rfl
@[simp] theorem Hart.setX_lay (h : Hart) (r : BitVec 5) (v : Word) : (h.setX r v).lay = h.lay := by unfold Hart.setX; split <;> rfl
@[simp] theorem Hart.setX_vq (h : Hart) (r : BitVec 5) (v : Word) : (h.setX r v).vq = h.vq := by unfold Hart.setX; split <;> rfl
@[simp] theorem Hart.setX_stoppedAt (h : Hart) (r : BitVec 5) (v : Word) : (h.setX r v).stoppedAt = h.stoppedAt := by unfold Hart.setX; split <;> rfl
@[simp] theorem Hart.setX_rq (h : Hart) (r : BitVec 5) (v : Word) : (h.setX r v).rq = h.rq := by unfold Hart.setX; split <;> rfl
@[simp] theorem Hart.setX_chans (h : Hart) (r : BitVec 5) (v : Word) : (h.setX r v).chans = h.chans := by unfold Hart.setX; split <;> rfl
@[simp] theorem Hart.setX_ilk (h : Hart) (r : BitVec 5) (v : Word) : (h.setX r v).ilk = h.ilk := by unfold Hart.setX; split <;> rfl
@[simp] theorem Hart.setX_place (h : Hart) (r : BitVec 5) (v : Word) : (h.setX r v).place = h.place := by unfold Hart.setX; split <;> rfl
@[simp] theorem Hart.setX_arrived (h : Hart) (r : BitVec 5) (v : Word) : (h.setX r v).arrived = h.arrived := by unfold Hart.setX; split <;> rfl
@[simp] theorem Hart.setX_epochAt (h : Hart) (r : BitVec 5) (v : Word) : (h.setX r v).epochAt = h.epochAt := by unfold Hart.setX; split <;> rfl
@[simp] theorem Hart.setX_barrierQ (h : Hart) (r : BitVec 5) (v : Word) : (h.setX r v).barrierQ = h.barrierQ := by unfold Hart.setX; split <;> rfl
@[simp] theorem Hart.setX_bstQueued (h : Hart) (r : BitVec 5) (v : Word) : (h.setX r v).bstQueued = h.bstQueued := by unfold Hart.setX; split <;> rfl
@[simp] theorem Hart.setX_bstNext (h : Hart) (r : BitVec 5) (v : Word) : (h.setX r v).bstNext = h.bstNext := by unfold Hart.setX; split <;> rfl
@[simp] theorem Hart.setX_posted (h : Hart) (r : BitVec 5) (v : Word) : (h.setX r v).posted = h.posted := by unfold Hart.setX; split <;> rfl
@[simp] theorem Hart.setX_remote (h : Hart) (r : BitVec 5) (v : Word) : (h.setX r v).remote = h.remote := by unfold Hart.setX; split <;> rfl
@[simp] theorem Hart.setX_hstop (h : Hart) (r : BitVec 5) (v : Word) : (h.setX r v).hstop = h.hstop := by unfold Hart.setX; split <;> rfl
@[simp] theorem Hart.setX_wfe (h : Hart) (r : BitVec 5) (v : Word) : (h.setX r v).wfe = h.wfe := by unfold Hart.setX; split <;> rfl
@[simp] theorem Hart.setX_bacq (h : Hart) (r : BitVec 5) (v : Word) : (h.setX r v).bacq = h.bacq := by unfold Hart.setX; split <;> rfl
@[simp] theorem Hart.setX_migWait (h : Hart) (r : BitVec 5) (v : Word) : (h.setX r v).migWait = h.migWait := by unfold Hart.setX; split <;> rfl
@[simp] theorem Hart.setX_migVec (h : Hart) (r : BitVec 5) (v : Word) : (h.setX r v).migVec = h.migVec := by unfold Hart.setX; split <;> rfl
@[simp] theorem Hart.setX_tlb (h : Hart) (r : BitVec 5) (v : Word) : (h.setX r v).tlb = h.tlb := by unfold Hart.setX; split <;> rfl
@[simp] theorem Hart.setX_flight (h : Hart) (r : BitVec 5) (v : Word) : (h.setX r v).flight = h.flight := by unfold Hart.setX; split <;> rfl
@[simp] theorem Hart.setX_shooting (h : Hart) (r : BitVec 5) (v : Word) : (h.setX r v).shooting = h.shooting := by unfold Hart.setX; split <;> rfl
@[simp] theorem Hart.setX_spilled (h : Hart) (r : BitVec 5) (v : Word) : (h.setX r v).spilled = h.spilled := by unfold Hart.setX; split <;> rfl
@[simp] theorem Hart.setX_holdS (h : Hart) (r : BitVec 5) (v : Word) : (h.setX r v).holdS = h.holdS := by unfold Hart.setX; split <;> rfl
@[simp] theorem Hart.setX_holdV (h : Hart) (r : BitVec 5) (v : Word) : (h.setX r v).holdV = h.holdV := by unfold Hart.setX; split <;> rfl
@[simp] theorem Hart.setX_ilkAt (h : Hart) (r : BitVec 5) (v : Word) : (h.setX r v).ilkAt = h.ilkAt := by unfold Hart.setX; split <;> rfl
@[simp] theorem Hart.setX_bacqAt (h : Hart) (r : BitVec 5) (v : Word) : (h.setX r v).bacqAt = h.bacqAt := by unfold Hart.setX; split <;> rfl

end Sys2Proof.Machine
end

