-- ==== Sys2Proof/Laws/Table.lean ====
section
/-!
SUPPORT. Laws/Table.lean: reading a table after writing it, and reading each part of the state after a primitive update of it.
-/
set_option Elab.async false

namespace Sys2Proof.Machine

section Tables

variable {α : Type} (dflt : α) (t : Tab α) (i j : Nat) (x : α)

@[simp] theorem tabGet_nil : tabGet dflt [] j = dflt := rfl

@[simp] theorem tabFind_nil : tabFind ([] : Tab α) j = none := rfl

@[simp] theorem tabGet_put_same : tabGet dflt (tabPut t j x) j = x := by
  induction t with
  | nil => simp [tabPut, tabGet]
  | cons e rest ih =>
    obtain ⟨k, v⟩ := e
    simp only [tabPut]
    split
    · simp [tabGet]
    · split
      · simp [tabGet]
      · rename_i h
        simp [tabGet, h, ih]

theorem tabGet_put_other (h : i ≠ j) : tabGet dflt (tabPut t j x) i = tabGet dflt t i := by
  induction t with
  | nil => simp [tabPut, tabGet, h.symm]
  | cons e rest ih =>
    obtain ⟨k, v⟩ := e
    simp only [tabPut]
    split
    · simp [tabGet, h.symm]
    · split
      · rename_i hk
        subst hk
        simp [tabGet, h.symm]
      · simp [tabGet, ih]

theorem tabGet_put : tabGet dflt (tabPut t j x) i = if i = j then x else tabGet dflt t i := by
  split
  · rename_i h
    subst h
    simp
  · rename_i h
    exact tabGet_put_other dflt t i j x h

@[simp] theorem tabFind_put_same : tabFind (tabPut t j x) j = some x := by
  induction t with
  | nil => simp [tabPut, tabFind]
  | cons e rest ih =>
    obtain ⟨k, v⟩ := e
    simp only [tabPut]
    split
    · simp [tabFind]
    · split
      · simp [tabFind]
      · rename_i h
        simp [tabFind, h, ih]

theorem tabFind_put_other (h : i ≠ j) : tabFind (tabPut t j x) i = tabFind t i := by
  induction t with
  | nil => simp [tabPut, tabFind, h.symm]
  | cons e rest ih =>
    obtain ⟨k, v⟩ := e
    simp only [tabPut]
    split
    · simp [tabFind, h.symm]
    · split
      · rename_i hk
        subst hk
        simp [tabFind, h.symm]
      · simp [tabFind, ih]

theorem tabFind_del_other (h : i ≠ j) : tabFind (tabDel t j) i = tabFind t i := by
  induction t with
  | nil => rfl
  | cons e rest ih =>
    obtain ⟨k, v⟩ := e
    simp only [tabDel] at ih
    by_cases hk : k = j
    · subst hk
      simp [tabDel, tabFind, ih, h.symm]
    · simp [tabDel, tabFind, hk, ih]

@[simp] theorem tabFind_del_same : tabFind (tabDel t j) j = none := by
  induction t with
  | nil => rfl
  | cons e rest ih =>
    obtain ⟨k, v⟩ := e
    simp only [tabDel] at ih
    by_cases hk : k = j
    · subst hk
      simpa [tabDel] using ih
    · simp [tabDel, tabFind, hk, ih]

/-- What a table holds after a write was there before or is what was written. -/
theorem mem_tabPut {e : Nat × α} (h : e ∈ tabPut t j x) : e ∈ t ∨ e = (j, x) := by
  induction t with
  | nil => simpa [tabPut] using h
  | cons f rest ih =>
    obtain ⟨k, v⟩ := f
    simp only [tabPut] at h
    split at h
    · rcases List.mem_cons.1 h with h | h
      · exact .inr h
      · exact .inl h
    · split at h
      · rcases List.mem_cons.1 h with h | h
        · exact .inr h
        · exact .inl (List.mem_cons_of_mem _ h)
      · rcases List.mem_cons.1 h with h | h
        · exact .inl (h ▸ List.mem_cons_self ..)
        · rcases ih h with h | h
          · exact .inl (List.mem_cons_of_mem _ h)
          · exact .inr h

/-- A write keeps a table's keys rising. -/
theorem tabPut_sorted (h : t.Pairwise (fun e f => e.1 < f.1)) : (tabPut t j x).Pairwise (fun e f => e.1 < f.1) := by
  induction t with
  | nil => simp [tabPut]
  | cons e rest ih =>
    obtain ⟨k, v⟩ := e
    obtain ⟨hk, hr⟩ := List.pairwise_cons.1 h
    simp only [tabPut]
    split
    · rename_i hjk
      refine List.pairwise_cons.2 ⟨fun f hf => ?_, h⟩
      rcases List.mem_cons.1 hf with rfl | hf
      · exact hjk
      · exact hjk.trans (hk f hf)
    · split
      · rename_i hkj
        exact List.pairwise_cons.2 ⟨fun f hf => hkj ▸ hk f hf, hr⟩
      · refine List.pairwise_cons.2 ⟨fun f hf => ?_, ih hr⟩
        rcases mem_tabPut rest j x hf with hf | rfl
        · exact hk f hf
        · show k < j
          omega

/-- A record of a table, or the default when it is not listed. -/
theorem tabGet_cases : tabGet dflt t j = dflt ∨ (j, tabGet dflt t j) ∈ t := by
  induction t with
  | nil => exact .inl rfl
  | cons e rest ih =>
    obtain ⟨k, v⟩ := e
    by_cases h : k = j
    · subst h
      simp [tabGet]
    · rcases ih with ih | ih
      · exact .inl (by simpa [tabGet, h] using ih)
      · exact .inr (by rw [tabGet, if_neg h]; exact List.mem_cons_of_mem _ ih)

end Tables

/-! ### Reading the state after a primitive update -/

section Reads

variable (s : State)

@[simp] theorem hart_apply_hart_same (g : Nat) (h : Hart) : (Prim.apply s (.hart g h)).hart g = h.canon := by
  simp [State.hart]

theorem hart_apply_hart_other {g g' : Nat} (h : Hart) (hg : g' ≠ g) : (Prim.apply s (.hart g h)).hart g' = s.hart g' := by
  simp [State.hart, tabGet_put_other _ _ _ _ _ hg]

@[simp] theorem tier_apply_tier (t : Nat) (x : Tier) : (Prim.apply s (.tier t x)).tier t = x := by simp [State.tier]
@[simp] theorem tower_apply_tower (t : Nat) (x : Tower) : (Prim.apply s (.tower t x)).tower t = x := by simp [State.tower]
@[simp] theorem part_apply_part (p : Nat) (x : Part) : (Prim.apply s (.part p x)).part p = x := by simp [State.part]
@[simp] theorem queue_apply_queue (q : Nat) (x : Queue) : (Prim.apply s (.queue q x)).queue q = x := by simp [State.queue]
@[simp] theorem link_apply_link (k : Nat) (x : Link) : (Prim.apply s (.link k x)).link k = x := by simp [State.link]
@[simp] theorem port_apply_port (e : Nat) (x : EthPort) : (Prim.apply s (.port e x)).port e = x := by simp [State.port]
@[simp] theorem mailbox_apply_mailbox (p : Nat) (x : Mailbox) : (Prim.apply s (.mailbox p x)).mailbox p = x := by
  simp [State.mailbox]
@[simp] theorem access_apply_access (i : Nat) (x : Word × Bool) : (Prim.apply s (.access i x)).accessOf i = x := by
  simp [State.accessOf]

theorem part_apply_part_other {p q : Nat} (x : Part) (h : q ≠ p) : (Prim.apply s (.part p x)).part q = s.part q := by
  simp [State.part, tabGet_put_other _ _ _ _ _ h]

@[simp] theorem core_apply_core (c : Nat) (k : Core) :
    (Prim.apply s (.core c k)).core c = { k with spad := (s.core c).spad } := by simp [State.core]

@[simp] theorem core_apply_spad (c a n : Nat) (v : Bits) :
    (Prim.apply s (.spad c a n v)).core c = { s.core c with spad := memWrite (s.core c).spad a n v } := by simp [State.core]

theorem core_apply_spad_other {c d : Nat} (a n : Nat) (v : Bits) (h : d ≠ c) :
    (Prim.apply s (.spad c a n v)).core d = s.core d := by simp [State.core, tabGet_put_other _ _ _ _ _ h]

end Reads

/-! ### Canonical harts -/

theorem evenWord_evenWord (w : Word) : w &&& ~~~1#64 &&& ~~~1#64 = w &&& ~~~1#64 := by
  rw [BitVec.and_assoc, BitVec.and_self]

/-- What a hart keeps, it keeps already once kept. -/
@[simp] theorem Hart.canon_canon (h : Hart) : h.canon.canon = h.canon := by
  simp [Hart.canon, BitVec.and_assoc]

/-- The reset record is well kept. -/
theorem Hart.reset_canon : Hart.reset.canon = Hart.reset := by decide +kernel

@[simp] theorem Hart.getX_zero (h : Hart) : h.canon.getX 0 = 0 := by simp [Hart.getX, Hart.canon]

/-- A register reads as it did before the hart was kept, but for x0, which reads 0 (R59). -/
theorem Hart.getX_canon (h : Hart) (r : BitVec 5) (hr : r ≠ 0#5) : h.canon.getX r = h.getX r := by
  have : r.toNat ≠ 0 := fun e => hr (BitVec.eq_of_toNat_eq e)
  simp [Hart.getX, Hart.canon, Vector.getElem_set_ne _ _ this.symm]

@[simp] theorem Hart.getX_setX_same (h : Hart) (r : BitVec 5) (v : Word) (hr : r ≠ 0#5) : (h.setX r v).getX r = v := by
  rw [Hart.setX, if_neg hr]
  simp [Hart.getX]

theorem Hart.getX_setX_other (h : Hart) (r q : BitVec 5) (v : Word) (hq : q ≠ r) : (h.setX r v).getX q = h.getX q := by
  have : r.toNat ≠ q.toNat := fun e => hq (BitVec.eq_of_toNat_eq e.symm)
  unfold Hart.setX
  split
  · rfl
  · simp [Hart.getX, Vector.getElem_set_ne _ _ this]

/-- A write to x0 is discarded (R59). -/
@[simp] theorem Hart.setX_zero (h : Hart) (v : Word) : h.setX 0 v = h := by simp [Hart.setX]

end Sys2Proof.Machine
end

