-- ==== Sys2Proof/Laws/Memory.lean ====
section
/-!
SUPPORT. Laws/Memory.lean: memories keep their canonical form under every operation, and what reading a byte or a number gives after
a write.
-/
set_option Elab.async false

namespace Sys2Proof.Machine

/-- The canonical form, as statements about the list: addresses strictly rising, no zero byte. -/
theorem memWf_iff (m : List Host.Cell) :
    memWf m = true ↔ m.Pairwise (fun x y => x.1 < y.1) ∧ ∀ c ∈ m, c.2 ≠ 0 := by
  induction m with
  | nil => simp [memWf]
  | cons c rest ih =>
    obtain ⟨a, v⟩ := c
    match rest with
    | [] => simp [memWf]
    | (b, w) :: rest =>
      rw [memWf, Bool.and_eq_true, Bool.and_eq_true, ih, List.pairwise_cons (l := (b, w) :: rest)]
      constructor
      · rintro ⟨⟨hab, hv⟩, hp, hz⟩
        have hab : a < b := by simpa using hab
        refine ⟨⟨fun e he => ?_, hp⟩, fun e he => ?_⟩
        · rcases List.mem_cons.1 he with rfl | he
          · exact hab
          · exact hab.trans ((List.pairwise_cons.1 hp).1 e he)
        · rcases List.mem_cons.1 he with rfl | he
          · simpa using hv
          · exact hz e he
      · rintro ⟨⟨hlt, hp⟩, hz⟩
        refine ⟨⟨by simpa using hlt (b, w) (List.mem_cons_self ..), ?_⟩, hp, fun e he => hz e (List.mem_cons_of_mem _ he)⟩
        simpa using hz (a, v) (List.mem_cons_self ..)

/-! ### The cells of a number -/

theorem mem_cellsOf {d a v : Nat} {c : Host.Cell} (h : c ∈ cellsOf d a v) : a ≤ c.1 ∧ c.1 < a + 2 ^ d := by
  induction d generalizing a v with
  | zero =>
    simp only [cellsOf] at h
    split at h
    · simp at h
    · rw [List.mem_singleton] at h
      subst h
      simp
  | succ d ih =>
    simp only [cellsOf] at h
    split at h
    · simp at h
    · rcases List.mem_append.1 h with h | h
      · have := ih h
        exact ⟨this.1, by rw [pow_succ]; omega⟩
      · have := ih h
        exact ⟨by omega, by rw [pow_succ]; omega⟩

/-- Half a number's cells hold half the number. -/
theorem half_bound {d v : Nat} (h : v < 2 ^ (8 * 2 ^ (d + 1))) :
    v % 2 ^ (8 * 2 ^ d) < 2 ^ (8 * 2 ^ d) ∧ v / 2 ^ (8 * 2 ^ d) < 2 ^ (8 * 2 ^ d) := by
  refine ⟨Nat.mod_lt _ (by positivity), Nat.div_lt_of_lt_mul ?_⟩
  rw [← pow_add]
  rwa [show 8 * 2 ^ d + 8 * 2 ^ d = 8 * 2 ^ (d + 1) by rw [pow_succ]; omega]

theorem cellsOf_nonzero {d a v : Nat} (hv : v < 2 ^ (8 * 2 ^ d)) {c : Host.Cell} (h : c ∈ cellsOf d a v) : c.2 ≠ 0 := by
  induction d generalizing a v with
  | zero =>
    simp only [cellsOf] at h
    split at h
    · simp at h
    · rename_i hz
      rw [List.mem_singleton] at h
      subst h
      intro e
      have hz : v ≠ 0 := hz
      have e : v % 2 ^ 8 = 0 := by simpa using congrArg BitVec.toNat e
      have hv : v < 2 ^ 8 := by simpa using hv
      omega
  | succ d ih =>
    simp only [cellsOf] at h
    split at h
    · simp at h
    · rcases List.mem_append.1 h with h | h
      · exact ih (half_bound hv).1 h
      · exact ih (half_bound hv).2 h

theorem cellsOf_sorted (d a v : Nat) : (cellsOf d a v).Pairwise (fun x y => x.1 < y.1) := by
  induction d generalizing a v with
  | zero =>
    simp only [cellsOf]
    split <;> simp
  | succ d ih =>
    simp only [cellsOf]
    split
    · simp
    · refine List.pairwise_append.2 ⟨ih _ _, ih _ _, fun x hx y hy => ?_⟩
      have hx := mem_cellsOf hx
      have hy := mem_cellsOf hy
      omega

/-- The depth that a write of n bytes builds its cells with holds n bytes. -/
theorem lt_depth (n : Nat) : n < 2 ^ (Nat.log2 n + 1) := Nat.lt_log2_self

theorem pow_depth {n v : Nat} : v % 2 ^ (8 * n) < 2 ^ (8 * 2 ^ (Nat.log2 n + 1)) := by
  refine lt_of_lt_of_le (Nat.mod_lt _ (by positivity)) (Nat.pow_le_pow_right (by decide) ?_)
  have := lt_depth n
  omega

/-! ### Reading a byte -/

/-- An address that some cell lists. -/
def listed (m : List Host.Cell) (a : Nat) : Bool := m.any (fun c => c.1 == a)

theorem listed_iff {m : List Host.Cell} {a : Nat} : listed m a = true ↔ ∃ c ∈ m, c.1 = a := by simp [listed]

theorem memByte_of_not_listed {m : List Host.Cell} {a : Nat} (h : listed m a = false) : memByte m a = 0 := by
  induction m with
  | nil => rfl
  | cons c rest ih =>
    obtain ⟨k, v⟩ := c
    simp only [listed, List.any_cons, Bool.or_eq_false_iff, beq_eq_false_iff_ne] at h
    rw [memByte, if_neg h.1]
    exact ih h.2

theorem memByte_of_listed {m : List Host.Cell} {a : Nat} (hz : ∀ c ∈ m, c.2 ≠ 0) (h : listed m a = true) : memByte m a ≠ 0 := by
  induction m with
  | nil => simp [listed] at h
  | cons c rest ih =>
    obtain ⟨k, v⟩ := c
    by_cases hk : k = a
    · rw [memByte, if_pos hk]
      exact hz (k, v) (List.mem_cons_self ..)
    · rw [memByte, if_neg hk]
      exact ih (fun c hc => hz c (List.mem_cons_of_mem _ hc)) (by simpa [listed, hk] using h)

theorem memByte_append (m m' : List Host.Cell) (a : Nat) :
    memByte (m ++ m') a = if listed m a then memByte m a else memByte m' a := by
  induction m with
  | nil => simp [listed]
  | cons c rest ih =>
    obtain ⟨k, v⟩ := c
    by_cases h : k = a
    · simp [memByte, listed, h]
    · simp only [List.cons_append, memByte, if_neg h, ih, listed, List.any_cons]
      simp [h]

theorem memByte_filter (p : Nat → Bool) (m : List Host.Cell) (a : Nat) :
    memByte (m.filter (fun c => p c.1)) a = if p a then memByte m a else 0 := by
  induction m with
  | nil => simp [memByte]
  | cons c rest ih =>
    obtain ⟨k, v⟩ := c
    by_cases hp : p k
    · rw [List.filter_cons_of_pos (by simpa using hp)]
      by_cases h : k = a
      · subst h
        simp [memByte, hp]
      · simp [memByte, h, ih]
    · rw [List.filter_cons_of_neg (by simpa using hp), ih]
      by_cases h : k = a
      · subst h
        simp [hp]
      · simp [memByte, h]

theorem listed_filter (p : Nat → Bool) (m : List Host.Cell) (a : Nat) :
    listed (m.filter (fun c => p c.1)) a = (p a && listed m a) := by
  rw [Bool.eq_iff_iff, Bool.and_eq_true, listed_iff, listed_iff]
  constructor
  · rintro ⟨c, hc, rfl⟩
    have := List.mem_filter.1 hc
    exact ⟨by simpa using this.2, c, this.1, rfl⟩
  · rintro ⟨hp, c, hc, rfl⟩
    exact ⟨c, List.mem_filter.2 ⟨hc, by simpa using hp⟩, rfl⟩

theorem not_listed_cellsOf {d a v b : Nat} (h : ¬ (a ≤ b ∧ b < a + 2 ^ d)) : listed (cellsOf d a v) b = false := by
  rw [Bool.eq_false_iff]
  intro hl
  obtain ⟨c, hc, rfl⟩ := listed_iff.1 hl
  exact h (mem_cellsOf hc)

/-- Byte k of a number. -/
def byteOf (v k : Nat) : Byte := BitVec.ofNat 8 (v / 2 ^ (8 * k))

theorem byteOf_mod {v k w : Nat} (h : k < w) : byteOf (v % 2 ^ (8 * w)) k = byteOf v k := by
  apply BitVec.eq_of_toNat_eq
  simp only [byteOf, BitVec.toNat_ofNat]
  rw [show 8 * w = 8 * k + 8 * (w - k) by omega, pow_add, Nat.mod_mul_right_div_self, Nat.mod_mod_of_dvd]
  exact Nat.pow_dvd_pow 2 (by omega)

theorem byteOf_zero (k : Nat) : byteOf 0 k = 0 := by simp [byteOf]

theorem memByte_cellsOf {d a v b : Nat} (ha : a ≤ b) (hb : b < a + 2 ^ d) (hv : v < 2 ^ (8 * 2 ^ d)) :
    memByte (cellsOf d a v) b = byteOf v (b - a) := by
  induction d generalizing a v with
  | zero =>
    have : b = a := by simp at hb; omega
    subst this
    simp only [cellsOf]
    split
    · rename_i h
      simp [memByte, h, byteOf]
    · simp [memByte, byteOf]
  | succ d ih =>
    simp only [cellsOf]
    split
    · rename_i h
      simp [memByte, h, byteOf]
    · have hh := half_bound hv
      rw [memByte_append]
      by_cases hlow : b < a + 2 ^ d
      · have e := ih ha hlow hh.1
        rw [byteOf_mod (by omega)] at e
        split
        · exact e
        · rename_i hl
          rw [memByte_of_not_listed (not_listed_cellsOf (by omega)), ← e]
          exact (memByte_of_not_listed (by simpa using hl)).symm
      · rw [if_neg (by rw [not_listed_cellsOf (by omega)]; simp)]
        rw [ih (by omega) (by rw [pow_succ] at hb; omega) hh.2]
        simp only [byteOf, Nat.div_div_eq_div_mul, ← pow_add]
        congr 3
        omega

/-- A byte after a write: a byte of the number inside the written bytes, and as before outside them. -/
theorem memByte_memWrite (m : List Host.Cell) (a n v b : Nat) :
    memByte (memWrite m a n v) b = if a ≤ b ∧ b < a + n then byteOf v (b - a) else memByte m b := by
  have hd := lt_depth n
  have hlow : listed (m.filter (fun c => decide (c.1 < a))) b = (decide (b < a) && listed m b) :=
    listed_filter (fun k => decide (k < a)) m b
  have hlow' : memByte (m.filter (fun c => decide (c.1 < a))) b = if decide (b < a) then memByte m b else 0 :=
    memByte_filter (fun k => decide (k < a)) m b
  have hhigh : memByte (m.filter (fun c => decide (a + n ≤ c.1))) b = if decide (a + n ≤ b) then memByte m b else 0 :=
    memByte_filter (fun k => decide (a + n ≤ k)) m b
  have hmid : (if v = 0 then [] else cellsOf (Nat.log2 n + 1) a (v % 2 ^ (8 * n)))
      = cellsOf (Nat.log2 n + 1) a (v % 2 ^ (8 * n)) := by
    split
    · rename_i h
      simp [h, cellsOf]
    · rfl
  rw [memWrite, hmid, List.append_assoc, memByte_append, hlow, hlow', memByte_append, hhigh]
  by_cases h1 : b < a
  · rw [if_neg (show ¬ (a ≤ b ∧ b < a + n) by omega)]
    by_cases hl : listed m b
    · simp [h1, hl]
    · simp [h1, hl, not_listed_cellsOf (show ¬ (a ≤ b ∧ b < a + 2 ^ (Nat.log2 n + 1)) by omega),
        memByte_of_not_listed (show listed m b = false by simpa using hl)]
  · by_cases h2 : b < a + n
    · rw [if_pos (show a ≤ b ∧ b < a + n by omega)]
      have e := memByte_cellsOf (show a ≤ b by omega) (show b < a + 2 ^ (Nat.log2 n + 1) by omega) (pow_depth (n := n) (v := v))
      rw [byteOf_mod (by omega)] at e
      by_cases hl : listed (cellsOf (Nat.log2 n + 1) a (v % 2 ^ (8 * n))) b
      · simp [h1, hl, e]
      · rw [memByte_of_not_listed (by simpa using hl)] at e
        simp [h1, hl, e]
        omega
    · rw [if_neg (show ¬ (a ≤ b ∧ b < a + n) by omega)]
      by_cases hl : listed (cellsOf (Nat.log2 n + 1) a (v % 2 ^ (8 * n))) b
      · exfalso
        obtain ⟨c, hc, rfl⟩ := listed_iff.1 hl
        have hr := mem_cellsOf hc
        have e := memByte_cellsOf hr.1 hr.2 (pow_depth (n := n) (v := v))
        refine memByte_of_listed (fun c hc => cellsOf_nonzero pow_depth hc) hl ?_
        rw [e, byteOf, Nat.div_eq_of_lt]
        · rfl
        · exact lt_of_lt_of_le (Nat.mod_lt v (Nat.two_pow_pos (8 * n))) (Nat.pow_le_pow_right Nat.two_pos (by omega))
      · simp [h1, hl, h2]

/-- Outside the written bytes memory is unchanged. -/
theorem memByte_memWrite_outside (m : List Host.Cell) (a n v b : Nat) (h : ¬ (a ≤ b ∧ b < a + n)) :
    memByte (memWrite m a n v) b = memByte m b := by rw [memByte_memWrite, if_neg h]

/-- Inside the written bytes stand the bytes of the number. -/
theorem memByte_memWrite_inside (m : List Host.Cell) (a n v b : Nat) (h : a ≤ b ∧ b < a + n) :
    memByte (memWrite m a n v) b = byteOf v (b - a) := by rw [memByte_memWrite, if_pos h]

/-! ### The canonical form is kept -/

/-- A write keeps the canonical form. -/
theorem memWf_memWrite (m : List Host.Cell) (a n v : Nat) (h : memWf m = true) : memWf (memWrite m a n v) = true := by
  obtain ⟨hp, hz⟩ := (memWf_iff m).1 h
  have hc : ∀ c ∈ (if v = 0 then [] else cellsOf (Nat.log2 n + 1) a (v % 2 ^ (8 * n))),
      c.2 ≠ 0 ∧ a ≤ c.1 ∧ c.1 < a + n := by
    intro c hc
    split at hc
    · simp at hc
    · have hnz := cellsOf_nonzero pow_depth hc
      have hr := mem_cellsOf hc
      refine ⟨hnz, hr.1, ?_⟩
      by_contra hn
      have hl : listed (cellsOf (Nat.log2 n + 1) a (v % 2 ^ (8 * n))) c.1 = true := listed_iff.2 ⟨c, hc, rfl⟩
      refine memByte_of_listed (fun c hc => cellsOf_nonzero pow_depth hc) hl ?_
      rw [memByte_cellsOf hr.1 hr.2 pow_depth, byteOf, Nat.div_eq_of_lt]
      · rfl
      · exact lt_of_lt_of_le (Nat.mod_lt v (Nat.two_pow_pos (8 * n))) (Nat.pow_le_pow_right Nat.two_pos (by omega))
  have hs : (if v = 0 then [] else cellsOf (Nat.log2 n + 1) a (v % 2 ^ (8 * n))).Pairwise (fun x y => x.1 < y.1) := by
    split
    · exact .nil
    · exact cellsOf_sorted ..
  refine (memWf_iff _).2 ⟨?_, ?_⟩
  · rw [memWrite, List.append_assoc]
    refine List.pairwise_append.2 ⟨hp.filter _, List.pairwise_append.2 ⟨hs, hp.filter _, ?_⟩, ?_⟩
    · intro x hx y hy
      have := (hc x hx).2
      have : a + n ≤ y.1 := by simpa using (List.mem_filter.1 hy).2
      omega
    · intro x hx y hy
      have hxa : x.1 < a := by simpa using (List.mem_filter.1 hx).2
      rcases List.mem_append.1 hy with hy | hy
      · have := (hc y hy).2
        omega
      · have : a + n ≤ y.1 := by simpa using (List.mem_filter.1 hy).2
        omega
  · intro c hmem
    simp only [memWrite, List.mem_append] at hmem
    rcases hmem with (hmem | hmem) | hmem
    · exact hz c (List.mem_filter.1 hmem).1
    · exact (hc c hmem).1
    · exact hz c (List.mem_filter.1 hmem).1

/-- The empty memory is in the canonical form. -/
theorem memWf_nil : memWf [] = true := rfl

/-- Moving a stretch of addresses keeps the order of a list by rising keys. -/
theorem rekey_sorted {α : Type} {w a b : Nat} (hw : 0 < w) {t : List (Nat × α)} (h : t.Pairwise (fun x y => x.1 < y.1)) :
    (rekey w a b t).Pairwise (fun x y => x.1 < y.1) := by
  have low : ∀ {x y : Nat × α}, x.1 / w < b → y.1 / w = b → x.1 < y.1 := by
    intro x y hx hy
    by_contra hn
    have := Nat.div_le_div_right (c := w) (Nat.le_of_not_lt hn)
    omega
  have high : ∀ {x y : Nat × α}, x.1 / w = b → b < y.1 / w → x.1 < y.1 := by
    intro x y hx hy
    by_contra hn
    have := Nat.div_le_div_right (c := w) (Nat.le_of_not_lt hn)
    omega
  have mid : ∀ {e : Nat × α}, e ∈ (t.filter (fun e => e.1 / w == a)).map (fun e => (b * w + e.1 % w, e.2)) → e.1 / w = b := by
    intro e he
    obtain ⟨f, -, rfl⟩ := List.mem_map.1 he
    show (b * w + f.1 % w) / w = b
    rw [Nat.mul_comm, Nat.mul_add_div hw, Nat.div_eq_of_lt (Nat.mod_lt _ hw), Nat.add_zero]
  simp only [rekey]
  rw [List.append_assoc]
  refine List.pairwise_append.2 ⟨(h.filter _).filter _, List.pairwise_append.2 ⟨?_, (h.filter _).filter _, ?_⟩, ?_⟩
  · rw [List.pairwise_map]
    refine (h.filter _).imp_of_mem ?_
    intro x y hx hy hxy
    have hx : x.1 / w = a := by simpa using (List.mem_filter.1 hx).2
    have hy : y.1 / w = a := by simpa using (List.mem_filter.1 hy).2
    have ex := Nat.div_add_mod x.1 w
    have ey := Nat.div_add_mod y.1 w
    rw [hx] at ex
    rw [hy] at ey
    show b * w + x.1 % w < b * w + y.1 % w
    omega
  · intro x hx y hy
    exact high (mid hx) (by simpa using (List.mem_filter.1 hy).2)
  · intro x hx y hy
    have hx : x.1 / w < b := by simpa using (List.mem_filter.1 hx).2
    rcases List.mem_append.1 hy with hy | hy
    · exact low hx (mid hy)
    · have hy : b < y.1 / w := by simpa using (List.mem_filter.1 hy).2
      by_contra hn
      have := Nat.div_le_div_right (c := w) (Nat.le_of_not_lt hn)
      omega

/-- Moving a stretch of addresses keeps the canonical form. -/
theorem memWf_rekey {w : Nat} (hw : 0 < w) (a b : Nat) (m : List Host.Cell) (h : memWf m = true) :
    memWf (rekey w a b m) = true := by
  obtain ⟨hp, hz⟩ := (memWf_iff m).1 h
  refine (memWf_iff _).2 ⟨rekey_sorted hw hp, ?_⟩
  intro c hc
  simp only [rekey, List.mem_append, List.mem_filter, List.mem_map] at hc
  rcases hc with (hc | ⟨f, hf, rfl⟩) | hc
  · exact hz c hc.1.1
  · exact hz f hf.1
  · exact hz c hc.1.1

/-! ### Reading a number -/

/-- The number that n bytes from a upward make. -/
def bytesFrom (m : List Host.Cell) (a : Nat) : Nat → Nat
  | 0 => 0
  | n + 1 => bytesFrom m a n + (memByte m (a + n)).toNat * 2 ^ (8 * n)

theorem bytesFrom_cons_other {k : Nat} {x : Byte} {rest : List Host.Cell} {a n : Nat} (h : ¬ (a ≤ k ∧ k < a + n)) :
    bytesFrom ((k, x) :: rest) a n = bytesFrom rest a n := by
  induction n with
  | zero => rfl
  | succ n ih =>
    rw [bytesFrom, bytesFrom, ih (by omega), memByte, if_neg (by omega)]

theorem bytesFrom_cons_here {k : Nat} {x : Byte} {rest : List Host.Cell} {a n : Nat} (h : a ≤ k ∧ k < a + n)
    (hr : ∀ c ∈ rest, k < c.1) :
    bytesFrom ((k, x) :: rest) a n = x.toNat * 2 ^ (8 * (k - a)) + bytesFrom rest a n := by
  induction n with
  | zero => omega
  | succ n ih =>
    by_cases hk : k = a + n
    · have hz : memByte rest (a + n) = 0 := by
        apply memByte_of_not_listed
        rw [Bool.eq_false_iff]
        intro hl
        obtain ⟨c, hc, e⟩ := listed_iff.1 hl
        have := hr c hc
        omega
      rw [bytesFrom, bytesFrom, bytesFrom_cons_other (by omega), memByte, if_pos hk, hz, show k - a = n by omega]
      simp
      omega
    · rw [bytesFrom, bytesFrom, ih (by omega), memByte, if_neg hk]
      omega

/-- Reading a number is reading its bytes, little-endian (R4). -/
theorem memBits_eq (m : List Host.Cell) (a n : Nat) (h : memWf m = true) : memBits m a n = bytesFrom m a n := by
  obtain ⟨hp, -⟩ := (memWf_iff m).1 h
  clear h
  induction m with
  | nil =>
    have : ∀ n, bytesFrom [] a n = 0 := by
      intro n
      induction n with
      | zero => rfl
      | succ n ih => simp [bytesFrom, memByte, ih]
    rw [this]
    rfl
  | cons c rest ih =>
    obtain ⟨k, x⟩ := c
    rw [List.pairwise_cons] at hp
    rw [memBits]
    split
    · rename_i hk
      rw [bytesFrom_cons_here hk hp.1, ih hp.2]
    · rename_i hk
      rw [bytesFrom_cons_other hk, ih hp.2]

theorem bytesFrom_congr {m m' : List Host.Cell} {a n : Nat} (h : ∀ b, a ≤ b → b < a + n → memByte m b = memByte m' b) :
    bytesFrom m a n = bytesFrom m' a n := by
  induction n with
  | zero => rfl
  | succ n ih =>
    rw [bytesFrom, bytesFrom, ih (fun b h1 h2 => h b h1 (by omega)), h (a + n) (by omega) (by omega)]

theorem bytesFrom_number {m : List Host.Cell} {a n v : Nat} (h : ∀ k, k < n → memByte m (a + k) = byteOf v k) :
    bytesFrom m a n = v % 2 ^ (8 * n) := by
  induction n with
  | zero => simp [bytesFrom, Nat.mod_one]
  | succ n ih =>
    rw [bytesFrom, ih (fun k hk => h k (by omega)), h n (by omega), byteOf, BitVec.toNat_ofNat,
      show 8 * (n + 1) = 8 * n + 8 by omega, pow_add, Nat.mod_mul]
    rw [Nat.mul_comm (v / 2 ^ (8 * n) % 2 ^ 8)]

/-- A read after a write to the same place gives the number written. -/
theorem memBits_memWrite_same (m : List Host.Cell) (a n v : Nat) (h : memWf m = true) :
    memBits (memWrite m a n v) a n = v % 2 ^ (8 * n) := by
  rw [memBits_eq _ _ _ (memWf_memWrite m a n v h)]
  refine bytesFrom_number (fun k hk => ?_)
  rw [memByte_memWrite_inside _ _ _ _ _ (by omega), Nat.add_sub_cancel_left]

/-- A read that meets none of the written bytes gives what it gave before. -/
theorem memBits_memWrite_other (m : List Host.Cell) (a n v b k : Nat) (h : memWf m = true) (hd : b + k ≤ a ∨ a + n ≤ b) :
    memBits (memWrite m a n v) b k = memBits m b k := by
  rw [memBits_eq _ _ _ (memWf_memWrite m a n v h), memBits_eq _ _ _ h]
  refine bytesFrom_congr (fun c h1 h2 => memByte_memWrite_outside _ _ _ _ _ ?_)
  omega

end Sys2Proof.Machine
end

