-- ==== Sys2Proof/Laws/Program.lean ====
section
/-!
SUPPORT. Laws/Program.lean: how programs run. A program gives a value and a next state, or ends the step; what every primitive update
keeps, every program keeps.
-/
set_option Elab.async false

namespace Sys2Proof.Machine

/-! ### Running -/

section Running

variable (f : Instr → State → Host.Outcome State Fault Refusal) (b s : State)

@[simp] theorem runFrom_done : Act.runFrom f b .done s = .next s := rfl
@[simp] theorem runFrom_again (ps : List Prim) : Act.runFrom f b (.again ps) s = .next (ps.foldl Prim.apply b) := rfl
@[simp] theorem runFrom_goOn (i : Instr) : Act.runFrom f b (.goOn i) s = f i s := rfl
@[simp] theorem runFrom_fault (r : Fault) : Act.runFrom f b (.fault r) s = .fault r := rfl
@[simp] theorem runFrom_refuse (r : Refusal) : Act.runFrom f b (.refuse r) s = .refused r := rfl
@[simp] theorem runFrom_upd (p : Prim) (k : Act) : Act.runFrom f b (.upd p k) s = k.runFrom f b (p.apply s) := rfl
@[simp] theorem runFrom_look (k : State → Act) : Act.runFrom f b (.look k) s = (k s).runFrom f b s := rfl

end Running

/-- The program, from a state, ends the step in a next state. -/
def Halts {α : Type} (m : M α) (s s' : State) : Prop :=
  ∀ (f : Instr → State → Host.Outcome State Fault Refusal) (b : State) (k : α → Act), Act.runFrom f b (m k) s = .next s'

section Rules

variable {α β : Type} {s s' s'' : State}

theorem Gives.pure (x : α) (s : State) : Gives (Pure.pure x : M α) s x s := fun _ _ _ => rfl

theorem Gives.bind {m : M α} {g : α → M β} {x : α} {y : β} (h : Gives m s x s') (h' : Gives (g x) s' y s'') :
    Gives (m >>= g) s y s'' := fun f b k => (h f b (fun a => g a k)).trans (h' f b k)

theorem Gives.bind_halts {m : M α} {g : α → M β} {x : α} (h : Gives m s x s') (h' : Halts (g x) s' s'') :
    Halts (m >>= g) s s'' := fun f b k => (h f b (fun a => g a k)).trans (h' f b k)

theorem Halts.bind {m : M α} {g : α → M β} (h : Halts m s s') : Halts (m >>= g) s s' := fun f b k => h f b (fun a => g a k)

theorem Gives.getState (s : State) : Gives Machine.getState s s s := fun _ _ _ => rfl
theorem Gives.gets (f : State → α) (s : State) : Gives (Machine.gets f) s (f s) s := fun _ _ _ => rfl
theorem Gives.upd (p : Prim) (s : State) : Gives (Machine.upd p) s () (p.apply s) := fun _ _ _ => rfl
theorem Gives.getHart (g : Nat) (s : State) : Gives (Machine.getHart g) s (s.hart g) s := fun _ _ _ => rfl
theorem Gives.putHart (g : Nat) (h : Hart) (s : State) : Gives (Machine.putHart g h) s () (Prim.apply s (.hart g h)) :=
  fun _ _ _ => rfl
theorem Gives.modHart (g : Nat) (f : Hart → Hart) (s : State) :
    Gives (Machine.modHart g f) s () (Prim.apply s (.hart g (f (s.hart g)))) := fun _ _ _ => rfl
theorem Gives.modCore (c : Nat) (f : Core → Core) (s : State) :
    Gives (Machine.modCore c f) s () (Prim.apply s (.core c (f (s.core c)))) := fun _ _ _ => rfl
theorem Gives.modTier (t : Nat) (f : Tier → Tier) (s : State) :
    Gives (Machine.modTier t f) s () (Prim.apply s (.tier t (f (s.tier t)))) := fun _ _ _ => rfl
theorem Gives.modTower (t : Nat) (f : Tower → Tower) (s : State) :
    Gives (Machine.modTower t f) s () (Prim.apply s (.tower t (f (s.tower t)))) := fun _ _ _ => rfl
theorem Gives.modPart (p : Nat) (f : Part → Part) (s : State) :
    Gives (Machine.modPart p f) s () (Prim.apply s (.part p (f (s.part p)))) := fun _ _ _ => rfl
theorem Gives.modQueue (q : Nat) (f : Queue → Queue) (s : State) :
    Gives (Machine.modQueue q f) s () (Prim.apply s (.queue q (f (s.queue q)))) := fun _ _ _ => rfl
theorem Gives.modLink (q : Nat) (f : Link → Link) (s : State) :
    Gives (Machine.modLink q f) s () (Prim.apply s (.link q (f (s.link q)))) := fun _ _ _ => rfl
theorem Gives.modPort (q : Nat) (f : EthPort → EthPort) (s : State) :
    Gives (Machine.modPort q f) s () (Prim.apply s (.port q (f (s.port q)))) := fun _ _ _ => rfl
theorem Halts.halt (s : State) : Halts (Machine.halt : M α) s s := fun _ _ _ => rfl

theorem Gives.whenM_true {m : M Unit} (h : Gives m s () s') : Gives (whenM true m) s () s' := h
theorem Gives.whenM_false (m : M Unit) (s : State) : Gives (whenM false m) s () s := fun _ _ _ => rfl
theorem Gives.eachM_nil (g : α → M Unit) (s : State) : Gives (eachM [] g) s () s := fun _ _ _ => rfl
theorem Gives.eachM_cons {x : α} {xs : List α} {g : α → M Unit} (h : Gives (g x) s () s') (h' : Gives (eachM xs g) s' () s'') :
    Gives (eachM (x :: xs) g) s () s'' := h.bind h'

/-- The outcome of a program that gives its end. -/
theorem Gives.run {m : M Unit} (h : Gives m s () s') : runM m s = .next s' := h _ _ _

/-- The outcome of a program that ends the step. -/
theorem Halts.run {m : M Unit} (h : Halts m s s') : runM m s = .next s' := h _ _ _

end Rules

/-! ### What every program keeps -/

/-- A property that every primitive update keeps. -/
def Kept (I : State → Prop) : Prop := ∀ s p, I s → I (Prim.apply s p)

/-- What every primitive update keeps, every program keeps. -/
theorem Kept.runFrom {I : State → Prop} (hI : Kept I) {f : Instr → State → Host.Outcome State Fault Refusal} {b : State}
    (hb : I b) (hf : ∀ i s t, I s → f i s = .next t → I t) (a : Act) (s t : State) (hs : I s) (h : Act.runFrom f b a s = .next t) :
    I t := by
  induction a generalizing s with
  | done =>
    cases h
    exact hs
  | again ps =>
    cases h
    clear hs
    induction ps generalizing b with
    | nil => exact hb
    | cons p ps ih => exact ih (hI b p hb)
  | goOn i => exact hf i s t hs h
  | fault r => cases h
  | refuse r => cases h
  | upd p k ih => exact ih _ (hI s p hs) h
  | look k ih => exact ih s s hs h

theorem Kept.runInto {I : State → Prop} (hI : Kept I) {f : Instr → State → Host.Outcome State Fault Refusal}
    (hf : ∀ i s t, I s → f i s = .next t → I t) (a : Act) (s t : State) (hs : I s) (h : Act.runInto f a s = .next t) : I t :=
  hI.runFrom hs hf a s t hs h

theorem Kept.runM {I : State → Prop} (hI : Kept I) (m : M Unit) (s t : State) (hs : I s) (h : runM m s = .next t) : I t :=
  hI.runInto (fun _ _ _ hs h => by cases h; exact hs) _ s t hs h

/-- Every primitive update keeps the invariant. -/
theorem inv_kept : Kept State.Inv := by
  intro s p h
  obtain ⟨hm, hsp, hl, hh⟩ := h
  have core_wf (c : Nat) : memWf (s.core c).spad = true := by
    rcases tabGet_cases Core.reset s.cores c with e | e
    · rw [State.core, e]
      rfl
    · exact hsp _ e
  cases p with
  | hart g x =>
    refine ⟨hm, hsp, hl, fun e he => ?_⟩
    rcases mem_tabPut _ _ _ he with he | rfl
    · exact hh e he
    · exact Hart.canon_canon x
  | core c k =>
    refine ⟨hm, fun e he => ?_, hl, hh⟩
    rcases mem_tabPut _ _ _ he with he | rfl
    · exact hsp e he
    · exact core_wf c
  | spad c a n v =>
    refine ⟨hm, fun e he => ?_, hl, hh⟩
    rcases mem_tabPut _ _ _ he with he | rfl
    · exact hsp e he
    · exact memWf_memWrite _ a n v (core_wf c)
  | mem a n v => exact ⟨memWf_memWrite s.mem a n v hm, hsp, hl, hh⟩
  | line l x =>
    refine ⟨hm, hsp, ?_, hh⟩
    rw [Prim.line_lines]
    split
    · exact ⟨hl.1.filter _, fun e he => hl.2 e (List.mem_filter.1 he).1⟩
    · rename_i hx
      refine ⟨tabPut_sorted _ _ _ hl.1, fun e he => ?_⟩
      rcases mem_tabPut _ _ _ he with he | rfl
      · exact hl.2 e he
      · exact hx
  | pkg n =>
    refine ⟨memWf_rekey (by decide) s.pkg n s.mem hm, hsp, ⟨rekey_sorted (by decide) hl.1, fun e he => ?_⟩, hh⟩
    rw [Prim.pkg_lines] at he
    simp only [rekey, List.mem_append, List.mem_filter, List.mem_map] at he
    rcases he with (he | ⟨f, hf, rfl⟩) | he
    · exact hl.2 e he.1.1
    · exact hl.2 f hf.1
    · exact hl.2 e he.1.1
  | powerOn =>
    refine ⟨rfl, fun _ he => absurd he (List.not_mem_nil), ⟨List.Pairwise.nil, fun _ he => absurd he (List.not_mem_nil)⟩,
      fun _ he => absurd he (List.not_mem_nil)⟩
  | _ => exact ⟨hm, hsp, hl, hh⟩

end Sys2Proof.Machine
end

