-- ==== Sys2Proof/Laws/Scalar.lean ====
section
/-!
SUPPORT. Laws/Scalar.lean: what the operations that scalar instructions share do: the wait for the read queue, completing, and the trap
taken once the vector queue has drained.
-/
set_option Elab.async false

namespace Sys2Proof.Machine

/-! ### The hart in turn -/

@[simp] theorem me_setMe (s : State) (h : Hart) : (s.setMe h).me = h.canon := by simp [State.setMe, State.me]
@[simp] theorem setMe_cur (s : State) (h : Hart) : (s.setMe h).cur = s.cur := rfl
@[simp] theorem setMe_mem (s : State) (h : Hart) : (s.setMe h).mem = s.mem := rfl
@[simp] theorem setMe_lines (s : State) (h : Hart) : (s.setMe h).lines = s.lines := rfl
@[simp] theorem setMe_cores (s : State) (h : Hart) : (s.setMe h).cores = s.cores := rfl
@[simp] theorem setMe_hart (s : State) (h : Hart) : (s.setMe h).hart s.cur = h.canon := by simp [State.setMe]

/-- No other hart is changed. -/
theorem setMe_hart_other (s : State) (h : Hart) {g : Nat} (hg : g ≠ s.cur) : (s.setMe h).hart g = s.hart g :=
  hart_apply_hart_other s h hg

theorem putHart_me (s : State) (h : Hart) : Gives (putHart s.cur h) s () (s.setMe h) := Gives.putHart _ _ _

theorem tabPut_tabPut {α : Type} (t : Tab α) (j : Nat) (x y : α) : tabPut (tabPut t j x) j y = tabPut t j y := by
  induction t with
  | nil => simp [tabPut]
  | cons e rest ih =>
    obtain ⟨k, v⟩ := e
    simp only [tabPut]
    split
    · simp [tabPut]
    · split
      · rename_i h1 h2
        subst h2
        simp [tabPut]
      · rename_i h1 h2
        simp [tabPut, h1, h2, ih]

/-- Of two writes of one hart's record the later stands. -/
@[simp] theorem setMe_setMe (s : State) (h h' : Hart) : (s.setMe h).setMe h' = s.setMe h' := by
  simp [State.setMe, Prim.apply, tabPut_tabPut]

/-! ### Waiting for the read queue (R125) -/

theorem needRegs_gives {g : Nat} {s : State} {rs : List (BitVec 5)} (h : (s.hart g).free rs) :
    Gives (needRegs g rs) s () s := by
  have hn : ((if (s.hart g).inBody (s.hart g).pc then (s.hart g).lp.reg :: rs else rs).any (s.hart g).pendingX) = false := by
    rw [List.any_eq_false]
    intro r hr
    split at hr
    · rename_i hb
      rcases List.mem_cons.1 hr with rfl | hr
      · simp [h.2 hb]
      · simp [h.1 r hr]
    · simp [h.1 r hr]
  intro f b k
  show Act.runFrom f b ((if _ then _ else _ : M Unit) k) s = _
  rw [hn]
  rfl

/-- An instruction none of whose registers waits is its body. -/
theorem scalar_run {rs : List (BitVec 5)} {body : Nat → Hart → M Unit} {s : State} (h : s.me.free rs) :
    runM (scalar rs body) s = runM (body s.cur s.me) s := by
  have := ((Gives.gets (fun s : State => s.cur) s).bind (g := fun g => do needRegs g rs) (needRegs_gives h))
  show Act.runFrom _ s _ s = _
  exact this _ s (fun _ => (do body s.cur (← getHart s.cur) : M Unit) (fun _ => Act.done))

theorem scalar_gives {rs : List (BitVec 5)} {body : Nat → Hart → M Unit} {s s' : State} (h : s.me.free rs)
    (hb : Gives (body s.cur s.me) s () s') : runM (scalar rs body) s = .next s' := by rw [scalar_run h, hb.run]

/-- Completing with a value: x[d] takes it, the pc and the count of instructions advance, nothing else changes. -/
theorem compute_run {len : Nat} {d : BitVec 5} {rs : List (BitVec 5)} {f : Hart → Word} {s : State} (h : s.me.free (d :: rs)) :
    runM (compute len d rs f) s = .next (s.setMe ((s.me.setX d (f s.me)).advance len)) :=
  scalar_gives h (Gives.putHart _ _ _)

/-! ### Traps after the queue has drained (R210) -/

/-- An empty queue has drained. -/
theorem drain_empty {g : Nat} {s : State} (h : (s.hart g).vq = []) : Gives (drain g) s true s := by
  have hr : Gives (runQueue g (s.hart g).vq.length) s () s := by
    rw [h]
    exact Gives.pure () s
  have hp : Gives (do pure (← getHart g).vq.isEmpty : M Bool) s true s := by
    have := (Gives.getHart g s).bind (g := fun x => (pure x.vq.isEmpty : M Bool)) (Gives.pure _ s)
    rwa [h] at this
  exact (Gives.getHart g s).bind (hr.bind hp)

theorem needDrained_gives {g : Nat} {s : State} (h : (s.hart g).vqHeld = true ∨ (s.hart g).vq = []) :
    Gives (needDrained g) s () s := by
  by_cases hh : (s.hart g).vqHeld = true
  · refine (Gives.getHart g s).bind ?_
    rw [if_pos hh]
    exact Gives.pure () s
  · refine (Gives.getHart g s).bind ?_
    rw [if_neg hh]
    exact (drain_empty (h.resolve_left hh)).bind (Gives.pure () s)

theorem scalarTrap_halts {α : Type} (g : Nat) (c : Cause) (epc eval : Word) (s : State) :
    Halts (scalarTrap g c epc eval : M α) s
      (Prim.apply s (.hart g ((s.hart g).enterTrap (BitVec.ofNat 16 c.code) epc eval 0 .drained (s.hart g).vqHeld))) :=
  fun _ _ _ => rfl

/-- A trap with an empty queue: the entry of R211, with EPC the instruction. -/
theorem trapAfter_halts {α : Type} {g : Nat} {s : State} (c : Cause) (eval : Word)
    (h : (s.hart g).vqHeld = true ∨ (s.hart g).vq = []) :
    Halts (trapAfter g c eval : M α) s
      (Prim.apply s (.hart g
        ((s.hart g).enterTrap (BitVec.ofNat 16 c.code) (s.hart g).pc eval 0 .drained (s.hart g).vqHeld))) := by
  refine (needDrained_gives h).bind_halts ?_
  exact (Gives.getHart g s).bind_halts (scalarTrap_halts g c _ eval s)

/-! ### Completing -/

/-- Outside the body of a loop the next pc is the next instruction's. -/
theorem goto_outside (h : Hart) (flow : Flow) (next : Word) (hb : h.inBody h.pc = false) :
    h.goto flow next = { h with pc := next } := by simp [Hart.goto, hb]

theorem advance_outside (h : Hart) (len : Nat) (hb : h.inBody h.pc = false) :
    h.advance len = { h with pc := h.pc + BitVec.ofNat 64 len, instret := h.instret + 1 } := by
  simp [Hart.advance, goto_outside _ _ _ hb]

theorem transfer_outside (h : Hart) (flow : Flow) (next : Word) (hb : h.inBody h.pc = false) :
    h.transfer flow next = { h with pc := next, instret := h.instret + 1 } := by
  simp [Hart.transfer, goto_outside _ _ _ hb]

/-- Within a body, an instruction whose next pc is not END ends no trip. -/
theorem goto_inside (h : Hart) (next : Word) (hn : next ≠ h.lp.stop) :
    h.goto .inline next = { h with pc := next } := by
  simp [Hart.goto, hn]

/-- Within a body, an instruction whose next pc is END ends the trip (R220). -/
theorem goto_trip (h : Hart) (flow : Flow) (hb : h.inBody h.pc = true) : h.goto flow h.lp.stop = h.tripEnd := by
  simp [Hart.goto, hb]

end Sys2Proof.Machine
end

