-- ==== Sys2Proof/Laws/Csr.lean ====
section
/-!
SUPPORT. Laws/Csr.lean: what a CSR instruction does when its number and privilege allow it, and the wait of R63 with an empty queue.
-/
set_option Elab.async false

namespace Sys2Proof.Machine

/-- The hart in turn of a state that keeps the invariant is well kept. -/
theorem me_canon {s : State} (h : s.Inv) : s.me.canon = s.me := by
  rcases tabGet_cases Hart.reset s.harts s.cur with e | e
  · have : s.me = Hart.reset := e
    rw [this]
    rfl
  · exact h.harts _ e

/-- An empty queue holds no entry to wait for. -/
theorem needPast_gives {s : State} {g : Nat} (p : Instr → Bool) (h : (s.hart g).vq = []) : Gives (needPast g p) s () s := by
  refine (Gives.getHart g s).bind ?_
  simp only [h, List.any_nil, Bool.and_false, Bool.false_eq_true, if_false]
  exact Gives.pure () s

theorem csrWait_gives {s : State} {g n : Nat} {w : Bool} (h : (s.hart g).vq = []) : Gives (csrWait g n w) s () s := by
  unfold csrWait
  split <;> first | exact needPast_gives _ h | exact Gives.pure () s | skip
  cases w
  · exact Gives.pure () s
  · exact needPast_gives _ h

/-- A CSR but MVL of a VTYPE without a valid type is read as it stands. -/
theorem csrRead_gives {s : State} {g n : Nat} {v : Word} (hv : csrValue s g n = some v)
    (hm : n = 0x401 → (s.hart g).vtype.getLsbD 15 = false) : Gives (csrRead g n) s v s := by
  refine (Gives.gets _ s).bind ?_
  have h : (decide (n = 0x401) && (s.hart g).vtype.getLsbD 15) = false := by
    by_cases e : n = 0x401
    · rw [hm e, Bool.and_false]
    · rw [decide_eq_false e, Bool.false_and]
  rw [h]
  have := Gives.gets (fun s => (csrValue s g n).getD 0) s
  rwa [hv] at this

/-- A CSR instruction that may read, and where it writes may write: x[d] takes the old value after the write's own effect. -/
theorem csrOp_run {s : State} {d a : BitVec 5} {c : BitVec 12} {write : Bool} {f : Word → Word → Word} {v : Word} {s' : State}
    (hf : s.me.free [d, a]) (hq : s.me.vq = []) (hv : csrValue s s.cur c.toNat = some v)
    (ha : csrAllowed c.toNat s.me.sup write = true) (hm : c.toNat = 0x401 → s.me.vtype.getLsbD 15 = false)
    (hw : Gives (whenM write (csrStore s.cur c.toNat (f v (s.me.getX a)))) s () s') :
    runM (csrOp d a c write f) s = .next (Prim.apply s' (.hart s.cur (((s'.hart s.cur).setX d v).advance 4))) := by
  rw [csrOp, scalar_run hf]
  refine Gives.run ((Gives.getState s).bind ?_)
  simp only [hv, ha]
  simp only [Option.isNone_some, Bool.false_eq_true, reduceCtorEq, false_or, if_false]
  refine (csrWait_gives hq).bind ((csrRead_gives hv hm).bind ?_)
  exact hw.bind (Gives.modHart _ _ _)

/-- One that its number or privilege does not allow takes ILLEGAL. -/
theorem csrOp_traps {s : State} {d a : BitVec 5} {c : BitVec 12} {write : Bool} {f : Word → Word → Word}
    (hf : s.me.free [d, a]) (hq : s.me.vqHeld = true ∨ s.me.vq = [])
    (h : csrValue s s.cur c.toNat = none ∨ csrAllowed c.toNat s.me.sup write = false) :
    runM (csrOp d a c write f) s = .next (s.setMe (s.me.enterTrap 1 s.me.pc 0 0 .drained s.me.vqHeld)) := by
  rw [csrOp, scalar_run hf]
  refine Halts.run ((Gives.getState s).bind_halts ?_)
  rw [if_pos (by simpa using h)]
  exact trapAfter_halts _ _ hq

end Sys2Proof.Machine
end

