-- ==== Sys2Proof/Laws/Device.lean ====
section
/-!
SUPPORT. Laws/Device.lean: what the device's own accesses, and moves of lines, give where nothing stands in their way.
-/
set_option Elab.async false

namespace Sys2Proof.Machine

/-! ### A hart's record does not matter to a walk -/

theorem setMe_line (s : State) (f : Hart) (l : Nat) : (s.setMe f).line l = s.line l := rfl
theorem setMe_part (s : State) (f : Hart) (p : Nat) : (s.setMe f).part p = s.part p := rfl
theorem setMe_bytes (s : State) (f : Hart) (a n : Nat) : (s.setMe f).bytes a n = s.bytes a n := rfl
theorem setMe_clusters (s : State) (f : Hart) : (s.setMe f).clusters = s.clusters := rfl
theorem setMe_reclaims (s : State) (f : Hart) : (s.setMe f).reclaims = s.reclaims := rfl
theorem walk_setMe (s : State) (f : Hart) (w : Walker) (acc : Acc) (va : Nat) : walk (s.setMe f) w acc va = walk s w acc va := rfl

theorem devLeaves_setMe (s : State) (f : Hart) (p : Nat) (acc : Acc) (l : List (Nat × Nat)) :
    devLeaves (s.setMe f) p acc l = devLeaves s p acc l := by
  induction l with
  | nil => rfl
  | cons e l ih =>
    rw [devLeaves, devLeaves, ih]
    rfl

/-! ### Writes at their home -/

/-- The state after a write of n bytes in one line at their home. -/
def State.wrote (s : State) (pa n : Nat) (v : Bits) : State :=
  let x := s.line (pa / 128)
  Prim.apply (Prim.apply s (.mem pa n v)) (.line (pa / 128) { x with
    ptag := s.ptagOf (localOf (pa / 128 * 128))
    poison := x.poison && !(decide (pa ≤ pa / 128 * 128) && decide (pa / 128 * 128 + 128 ≤ pa + n)) })

theorem homeWrite_gives {s : State} {pa n : Nat} (v : Bits) (hn : 0 < n) (hl : pa % 128 + n ≤ 128) :
    Gives (homeWrite pa n v) s () (s.wrote pa n v) := by
  have e : range' (pa / 128) ((pa + n - 1) / 128 + 1 - pa / 128) = [pa / 128] := by
    have h : (pa + n - 1) / 128 = pa / 128 := by omega
    rw [h]
    have h1 : pa / 128 + 1 - pa / 128 = 1 := by omega
    rw [h1]
    simp [range']
  refine Gives.bind (Gives.upd _ _) (Gives.bind (Gives.getState _) ?_)
  rw [e]
  exact Gives.eachM_cons (Gives.bind (Gives.gets _ _) (Gives.upd _ _)) (Gives.eachM_nil _ _)

/-! ### Device accesses of one page -/

theorem markLeaf_gives {s : State} {l : Leaf} {w : Bool} (h : leafMarked (s.bytes l.line 128) l.idx w = s.bytes l.line 128) :
    Gives (markLeaf l w) s () s := by
  refine Gives.bind (Gives.gets _ _) ?_
  rw [h]
  dsimp only
  rw [bne_self_eq_false]
  exact Gives.whenM_false _ _

theorem touchLeaf_gives {s : State} {p va : Nat} {l : Leaf} {w : Bool}
    (d : (leafEntry (s.bytes l.line 128) l.idx).testBit 7 = true)
    (h : leafMarked (s.bytes l.line 128) l.idx w = s.bytes l.line 128) : Gives (touchLeaf p va l w) s true s := by
  refine Gives.bind (Gives.gets _ _) ?_
  simp only [d, not_true, and_false, if_false]
  exact Gives.bind (Gives.pure true s) (Gives.bind (markLeaf_gives h) (Gives.pure _ _))

theorem devPlain_setMe (s : State) (f : Hart) (l : Leaf) (n : Nat) : devPlain (s.setMe f) l n = devPlain s l n := rfl

/-- Where nothing stands in the way of a piece, it acts at its leaf. -/
theorem devFollow_gives {s : State} {p va n : Nat} {acc : Acc} {touch : Nat → Leaf → M Bool} {l : Leaf} (h : devPlain s l n = true) :
    Gives (devFollow p acc touch [(va, n)] [(l, n)]) s (some [(l, n)]) s := by
  refine Gives.bind (Gives.getState _) ?_
  simp only [h, if_true]
  exact Gives.bind (Gives.pure (some [(l, n)]) s) (Gives.bind (Gives.pure (some []) s) (Gives.pure _ _))

/-- No cluster holds a line: nothing is recalled. -/
theorem recallBytes_gives {s : State} (h : s.clusters = []) (pa n : Nat) : Gives (recallBytes pa n) s () s := by
  refine Gives.bind (Gives.getState _) ?_
  rw [h]
  exact Gives.eachM_nil _ _

theorem devWrite_gives {s u : State} {p va n : Nat} {v : Bits} {l : Leaf} (one : pagePieces va n = [(va, n)])
    (h : devLeaves s p .store [(va, n)] = some [(l, n)]) (d : (leafEntry (s.bytes l.line 128) l.idx).testBit 7 = true)
    (m : leafMarked (s.bytes l.line 128) l.idx true = s.bytes l.line 128) (hp : devPlain s l n = true) (hc : s.clusters = [])
    (w : Gives (homeWrite l.pa n (v % 2 ^ (8 * n))) s () u) : Gives (devWrite p va n v) s true u := by
  refine Gives.bind (Gives.gets _ _) ?_
  rw [one, h]
  refine Gives.bind (x := true) (s' := s) ?_ ?_
  · exact Gives.bind (touchLeaf_gives d m) (Gives.pure _ _)
  · exact Gives.bind (devFollow_gives hp)
      (Gives.bind (Gives.bind (recallBytes_gives hc _ _) (Gives.bind w (Gives.pure _ _))) (Gives.pure _ _))

theorem needWrite_gives {s u : State} {g p va n : Nat} {v : Bits} (h : Gives (devWrite p va n v) s true u) :
    Gives (needWrite g p va n v) s () u := Gives.bind h (Gives.pure _ _)

theorem devRead_gives {s : State} {p va n : Nat} {l : Leaf} (one : pagePieces va n = [(va, n)])
    (h : devLeaves s p .load [(va, n)] = some [(l, n)])
    (m : leafMarked (s.bytes l.line 128) l.idx false = s.bytes l.line 128) (hp : devPlain s l n = true) :
    Gives (devRead p va n) s (some (s.bytes l.pa n)) s := by
  refine Gives.bind (Gives.gets _ _) ?_
  rw [one, h]
  have e : s.bytes l.pa n = devGet s [(l, n)] := by simp [devGet]
  rw [e]
  exact Gives.bind (Gives.bind (markLeaf_gives m) (Gives.pure _ _))
    (Gives.bind (devFollow_gives hp) (Gives.bind (Gives.gets _ _) (Gives.pure _ _)))

theorem countMove_gives {s u : State} {g p va : Nat} {r : Region} {t : Bits}
    (h : Gives (devRead p (s.part p).relbase 32768) s (some t) s) (hr : regionIn t va (List.range 1024) = some r)
    (w : Gives (needWrite g p ((s.part p).relbase + 32 * r.idx + 20) 4 (min (r.moves + 1) (2 ^ 32 - 1))) s () u) :
    Gives (countMove g p va) s () u := by
  refine Gives.bind (Gives.gets _ _) (Gives.bind (x := t) (s' := s) (Gives.bind h (Gives.pure _ _)) ?_)
  have e : [va].filterMap (fun va => regionIn t va (List.range 1024)) = [r] := by simp [hr]
  rw [e]
  refine Gives.eachM_cons ?_ (Gives.eachM_nil _ _)
  simp only [List.find?, beq_self_eq_true, List.countP_cons, List.countP_nil, if_true, Nat.zero_add]
  exact Gives.bind (Gives.gets _ _) w

/-! ### Moves and reclamations -/

theorem probe_gives {s : State} (h : s.clusters = []) (line : Nat) (cs : List Nat) : Gives (probe line cs) s () s := by
  induction cs with
  | nil => exact Gives.pure _ _
  | cons c cs ih =>
    have e : tabFind (s.cluster c) line = none := by
      have e : s.cluster c = [] := by rw [State.cluster, h]; rfl
      rw [e]; rfl
    refine Gives.bind (Gives.gets _ _) ?_
    rw [e]
    exact ih

theorem keepReclaim_gives {s : State} (h : s.reclaims = []) (pa n : Nat) : Gives (keepReclaim pa n) s () s := by
  refine Gives.bind (Gives.gets _ _) ?_
  rw [h]
  exact Gives.eachM_nil _ _

/-- The state after a line's metadata changes. -/
def State.remark (s : State) (l : Nat) (f : LineMeta → LineMeta) : State := Prim.apply s (.line l (f (s.line l)))

/-- A line that holds no access replays none. -/
theorem replay_gives {s : State} {l : Nat} (h : (s.line l).held = []) : Gives (replay l) s () s := by
  refine Gives.bind (Gives.getState _) ?_
  simp only [h]
  exact Gives.whenM_false _ _

theorem moveBegin_gives {s : State} {src dst newva p : Nat} (h : s.clusters = []) :
    Gives (moveBegin src dst newva p) s ()
      ((s.remark src (fun x => { x with mark := true, st := 1, move := some { dst := dst, newva := newva, part := p, failed := false } })).remark dst
        (fun d => { d with reserved := true })) :=
  Gives.bind (Gives.getState _) (Gives.bind (probe_gives h _ _) (Gives.bind (Gives.gets _ _) (Gives.bind (Gives.upd _ _)
    (Gives.bind (Gives.gets _ _) (Gives.upd _ _)))))

theorem releaseDest_gives {s : State} {l : Nat} (h : ((s.remark l (fun d => { d with reserved := false })).line l).held = []) :
    Gives (releaseDest l) s () (s.remark l (fun d => { d with reserved := false })) :=
  Gives.bind (Gives.gets _ _) (Gives.bind (Gives.upd _ _) (replay_gives h))

theorem endMove_gives {s : State} {l : Nat} {m : Bool} {st : BitVec 2}
    (h : ((s.remark l (fun x => { x with mark := m, st := st, move := none })).line l).held = []) :
    Gives (endMove l m st) s () (s.remark l (fun x => { x with mark := m, st := st, move := none })) :=
  Gives.bind (Gives.gets _ _) (Gives.bind (Gives.upd _ _) (replay_gives h))

/-- What a move that ends leaves. -/
def State.moved (s : State) (src dst newva p : Nat) : State :=
  (((s.wrote (dst * 128) 128 (s.bytes (src * 128) 128)).remark dst (fun d => { d with reserved := false })).wrote (src * 128) 128
    (fwdRecord newva p)).remark src (fun x => { x with mark := true, st := 2, move := none })

theorem moveDone_gives {s : State} {src dst newva p : Nat} (h : s.clusters = []) (hr : s.reclaims = [])
    (hp : (s.line src).poison = false) (hf : (s.line src).move.any (fun m => m.failed) = false)
    (hd : (((s.wrote (dst * 128) 128 (s.bytes (src * 128) 128)).remark dst (fun d => { d with reserved := false })).line dst).held = [])
    (hs : ((s.moved src dst newva p).line src).held = []) :
    Gives (moveDone src dst newva p) s true (s.moved src dst newva p) := by
  refine Gives.bind (Gives.gets _ _) ?_
  simp only [hp, hf]
  exact Gives.bind (Gives.getState _) (Gives.bind (probe_gives h _ _) (Gives.bind (homeWrite_gives _ (by decide) (by omega))
    (Gives.bind (keepReclaim_gives (s := s.wrote (dst * 128) 128 (s.bytes (src * 128) 128)) hr _ _) (Gives.bind (releaseDest_gives hd)
      (Gives.bind (homeWrite_gives _ (by decide) (by omega)) (Gives.bind (endMove_gives hs) (Gives.pure _ _)))))))

theorem reclaimFinish_gives {s u : State} {r : Reclaim} (h : markedLines s r.frames [2, 3] = [])
    (hw : let t := Prim.apply s (.reclaims (s.reclaims.filter (fun x => !(x.part == r.part && x.idx == r.idx))))
      Gives (devWrite r.part ((t.part r.part).relbase + 32 * r.idx + 8) 1 0) t true u) : Gives (reclaimFinish r) s () u := by
  refine Gives.bind (Gives.gets _ _) ?_
  rw [h]
  exact Gives.bind (Gives.eachM_nil _ _) (Gives.bind (Gives.gets _ _) (Gives.bind (Gives.upd _ _) (Gives.bind (Gives.gets _ _)
    (Gives.bind hw (Gives.pure _ _)))))

/-! ### They leave the record of the hart in turn alone -/

theorem wrote_setMe (s : State) (f : Hart) (pa n : Nat) (v : Bits) : (s.setMe f).wrote pa n v = (s.wrote pa n v).setMe f := rfl

theorem remark_setMe (s : State) (f : Hart) (l : Nat) (g : LineMeta → LineMeta) :
    (s.setMe f).remark l g = (s.remark l g).setMe f := rfl

end Sys2Proof.Machine
end

