-- ==== Sys2Proof/Laws/Elements.lean ====
section
/-!
SUPPORT. Laws/Elements.lean: bit strings and elements: what a write of a field, of a bit, of an element of a register or of a group
leaves to be read.
-/
set_option Elab.async false

namespace Sys2Proof.Machine

/-! ### Bit strings -/

theorem testBit_bitsGet (v i w k : Nat) : (bitsGet v i w).testBit k = (decide (k < w) && v.testBit (i + k)) := by
  simp [bitsGet, Nat.testBit_mod_two_pow, Nat.testBit_shiftRight]

theorem bitsGet_lt (v i w : Nat) : bitsGet v i w < 2 ^ w := Nat.mod_lt _ (Nat.two_pow_pos w)

theorem testBit_bitsSet (v i w x k : Nat) :
    (bitsSet v i w x).testBit k = if i ≤ k ∧ k < i + w then x.testBit (k - i) else v.testBit k := by
  simp only [bitsSet, Nat.testBit_xor, Nat.testBit_shiftLeft, testBit_bitsGet, Nat.testBit_mod_two_pow]
  split
  · rename_i h
    have e : i + (k - i) = k := by omega
    have d : k - i < w := by omega
    simp [h.1, d, e]
  · rename_i h
    by_cases h1 : i ≤ k
    · have d : ¬ k - i < w := by omega
      simp [h1, d]
    · simp [h1]

theorem testBit_bitPut (v i k : Nat) (b : Bool) : (bitPut v i b).testBit k = if k = i then b else v.testBit k := by
  have one : (1 <<< i).testBit k = decide (k = i) := by
    rw [Nat.testBit_shiftLeft]
    by_cases h : k = i
    · simp [h]
    · simp only [h, decide_false, Bool.and_eq_false_imp, decide_eq_true_eq]
      intro h1
      obtain ⟨j, hj⟩ : ∃ j, k - i = j + 1 := ⟨k - i - 1, by omega⟩
      rw [hj, Nat.testBit_succ]
      simp
  unfold bitPut
  split
  · rename_i h
    split
    · rename_i hk
      subst hk
      simpa using h
    · rfl
  · rename_i h
    rw [Nat.testBit_xor, one]
    split
    · rename_i hk
      subst hk
      simp only [decide_true, Bool.xor_true]
      cases hv : v.testBit k <;> cases b <;> simp_all
    · rename_i hk
      simp [hk]

theorem testBit_planesGet (v P i w k : Nat) : (planesGet v P i w).testBit k = (decide (k < w) && v.testBit (i + P * k)) := by
  induction w generalizing i k with
  | zero => simp [planesGet]
  | succ w ih =>
    have two (b : Bool) (n k : Nat) : ((if b = true then 1 else 0) + 2 * n).testBit k = if k = 0 then b else n.testBit (k - 1) := by
      cases k with
      | zero => cases b <;> simp [Nat.testBit_zero]
      | succ k =>
        rw [Nat.testBit_succ]
        congr 1
        cases b <;> simp
        omega
    rw [planesGet, two]
    split
    · rename_i h
      simp [h]
    · rename_i h
      rw [ih]
      have e : i + P + P * (k - 1) = i + P * k := by
        obtain ⟨j, rfl⟩ : ∃ j, k = j + 1 := ⟨k - 1, by omega⟩
        rw [Nat.mul_succ]
        simp only [Nat.add_sub_cancel]
        omega
      have d : (k - 1 < w) ↔ (k < w + 1) := by omega
      simp [e, d]

theorem testBit_planesSet_other (v P i w x n : Nat) (h : ∀ j, j < w → n ≠ i + P * j) :
    (planesSet v P i w x).testBit n = v.testBit n := by
  induction w generalizing v i x with
  | zero => rfl
  | succ w ih =>
    rw [planesSet, ih, testBit_bitPut, if_neg]
    · simpa using h 0 (by omega)
    · intro j hj
      have := h (j + 1) (by omega)
      rw [Nat.mul_succ] at this
      omega

theorem testBit_planesSet_same (v P i w x k : Nat) (hP : 0 < P) (hk : k < w) :
    (planesSet v P i w x).testBit (i + P * k) = x.testBit k := by
  induction w generalizing v i x k with
  | zero => omega
  | succ w ih =>
    rw [planesSet]
    cases k with
    | zero =>
      rw [testBit_planesSet_other, testBit_bitPut]
      · simp [Nat.testBit_zero]
      · intro j _
        have := Nat.le_mul_of_pos_left j hP
        omega
    | succ k =>
      have := ih (bitPut v i (x % 2 = 1)) (i + P) (x / 2) k (by omega)
      rw [Nat.mul_succ, show i + (P * k + P) = i + P + P * k by omega, this, Nat.testBit_succ]

/-! ### Elements of a register -/

/-- The place of bit k of element i in a register. -/
def bitPlace (S : Nat) (t : BitVec 8) (i k : Nat) : Nat :=
  if codeTransposed t then i + perReg S (codeWidth t) * k else codeWidth t * i + k

theorem testBit_elemGet (S : Nat) (t : BitVec 8) (v i k : Nat) :
    (elemGet S t v i).testBit k = (decide (k < codeWidth t) && v.testBit (bitPlace S t i k)) := by
  unfold elemGet bitPlace
  split
  · exact testBit_planesGet _ _ _ _ _
  · exact testBit_bitsGet _ _ _ _

theorem testBit_elemSet_same {S : Nat} {t : BitVec 8} (v x : Nat) {i k : Nat} (hi : i < perReg S (codeWidth t))
    (hk : k < codeWidth t) : (elemSet S t v i x).testBit (bitPlace S t i k) = x.testBit k := by
  unfold elemSet bitPlace
  split
  · exact testBit_planesSet_same _ _ _ _ _ _ (by omega) hk
  · rw [testBit_bitsSet, if_pos (by omega)]
    congr 1
    omega

theorem testBit_elemSet_other {S : Nat} {t : BitVec 8} (v i x : Nat) {n : Nat}
    (h : ∀ k, k < codeWidth t → n ≠ bitPlace S t i k) : (elemSet S t v i x).testBit n = v.testBit n := by
  unfold bitPlace at h
  unfold elemSet
  split
  · rename_i ht
    simp only [ht, if_true] at h
    exact testBit_planesSet_other _ _ _ _ _ _ h
  · rename_i ht
    simp only [ht, Bool.false_eq_true, if_false] at h
    rw [testBit_bitsSet, if_neg]
    intro hn
    exact h (n - codeWidth t * i) (by omega) (by omega)

/-- Different elements of a register have no bit in common. -/
theorem bitPlace_ne {S : Nat} {t : BitVec 8} {i j k l : Nat} (hi : i < perReg S (codeWidth t)) (hj : j < perReg S (codeWidth t))
    (hk : k < codeWidth t) (hl : l < codeWidth t) (h : i ≠ j) : bitPlace S t i k ≠ bitPlace S t j l := by
  unfold bitPlace
  split
  · intro e
    have h1 : (i + perReg S (codeWidth t) * k) % perReg S (codeWidth t) = (j + perReg S (codeWidth t) * l) % perReg S (codeWidth t) := by
      rw [e]
    rw [Nat.add_mul_mod_self_left, Nat.add_mul_mod_self_left, Nat.mod_eq_of_lt hi, Nat.mod_eq_of_lt hj] at h1
    exact h h1
  · intro e
    have h1 : (codeWidth t * i + k) / codeWidth t = (codeWidth t * j + l) / codeWidth t := by rw [e]
    rw [Nat.mul_add_div (by omega), Nat.mul_add_div (by omega), Nat.div_eq_of_lt hk, Nat.div_eq_of_lt hl] at h1
    exact h (by omega)

theorem elemGet_elemSet_same {S : Nat} {t : BitVec 8} (v x : Nat) {i : Nat} (hi : i < perReg S (codeWidth t)) :
    elemGet S t (elemSet S t v i x) i = x % 2 ^ codeWidth t := by
  apply Nat.eq_of_testBit_eq
  intro k
  rw [testBit_elemGet, Nat.testBit_mod_two_pow]
  by_cases hk : k < codeWidth t
  · rw [testBit_elemSet_same v x hi hk]
  · simp [hk]

theorem elemGet_elemSet_other {S : Nat} {t : BitVec 8} (v x : Nat) {i j : Nat} (hi : i < perReg S (codeWidth t))
    (hj : j < perReg S (codeWidth t)) (h : i ≠ j) : elemGet S t (elemSet S t v i x) j = elemGet S t v j := by
  apply Nat.eq_of_testBit_eq
  intro k
  rw [testBit_elemGet, testBit_elemGet]
  by_cases hk : k < codeWidth t
  · rw [testBit_elemSet_other]
    exact fun l hl => bitPlace_ne hj hi hk hl (Ne.symm h)
  · simp [hk]

/-! ### Vector registers and groups -/

@[simp] theorem Hart.setVreg_lay (h : Hart) (r x : Nat) : (h.setVreg r x).lay = h.lay := rfl
@[simp] theorem Hart.vput_lay (h : Hart) (t : BitVec 8) (b i x : Nat) : (h.vput t b i x).lay = h.lay := rfl
@[simp] theorem Hart.orFlags_lay (h : Hart) (f : Nat) : (h.orFlags f).lay = h.lay := rfl
@[simp] theorem Hart.orFlags_v (h : Hart) (f : Nat) : (h.orFlags f).v = h.v := rfl

theorem Hart.vreg_setVreg (h : Hart) (r q x : Nat) : (h.setVreg r x).vreg q = if r % 32 = q % 32 then x else h.vreg q := by
  simp only [Hart.vreg, Hart.setVreg]
  rw [Vector.getElem_set]

theorem Hart.trim_lay (h : Hart) (t : BitVec 8) (b n : Nat) : (h.trim t b n).lay = h.lay := by
  induction n generalizing h with
  | zero => rfl
  | succ n ih =>
    rw [Hart.trim]
    split
    · rw [ih]
      rfl
    · rfl

/-- The element i of a group within its capacity: its register, and its place there. -/
theorem group_index {b n P i : Nat} (hb : b + n ≤ 32) (hi : i < n * P) : i / P < n ∧ b + i / P < 32 ∧ i % P < P := by
  have hP : 0 < P := by
    rcases Nat.eq_zero_or_pos P with h | h
    · subst h
      omega
    · exact h
  have h1 : i / P < n := Nat.div_lt_of_lt_mul (by rwa [Nat.mul_comm])
  exact ⟨h1, by omega, Nat.mod_lt _ hP⟩

theorem Hart.vget_vput_same (h : Hart) (t : BitVec 8) {b n i : Nat} (x : Nat) (hb : b + n ≤ 32)
    (hi : i < n * perReg h.lay (codeWidth t)) : (h.vput t b i x).vget t b i = x % 2 ^ codeWidth t := by
  obtain ⟨_, _, h3⟩ := group_index hb hi
  simp only [Hart.vget, Hart.vput, Hart.setVreg_lay, Hart.vreg_setVreg, if_true]
  exact elemGet_elemSet_same _ _ h3

theorem Hart.vget_vput_other (h : Hart) (t : BitVec 8) {b n i j : Nat} (x : Nat) (hb : b + n ≤ 32)
    (hi : i < n * perReg h.lay (codeWidth t)) (hj : j < n * perReg h.lay (codeWidth t)) (hij : i ≠ j) :
    (h.vput t b i x).vget t b j = h.vget t b j := by
  obtain ⟨_, h2, h3⟩ := group_index hb hi
  obtain ⟨_, k2, k3⟩ := group_index hb hj
  simp only [Hart.vget, Hart.vput, Hart.setVreg_lay, Hart.vreg_setVreg]
  split
  · rename_i e
    rw [Nat.mod_eq_of_lt h2, Nat.mod_eq_of_lt k2] at e
    have e' : i / perReg h.lay (codeWidth t) = j / perReg h.lay (codeWidth t) := by omega
    rw [elemGet_elemSet_other _ _ h3 k3, e']
    intro em
    apply hij
    rw [← Nat.div_add_mod i (perReg h.lay (codeWidth t)), e', em, Nat.div_add_mod]
  · rfl

/-- A write of a group leaves every register outside it as it is. -/
theorem Hart.vreg_vput_outside (h : Hart) (t : BitVec 8) {b n i r : Nat} (x : Nat) (hb : b + n ≤ 32)
    (hi : i < n * perReg h.lay (codeWidth t)) (hr : r < 32) (ho : r < b ∨ b + n ≤ r) :
    (h.vput t b i x).vreg r = h.vreg r := by
  obtain ⟨h1, h2, _⟩ := group_index hb hi
  simp only [Hart.vput, Hart.vreg_setVreg]
  rw [if_neg]
  rw [Nat.mod_eq_of_lt h2, Nat.mod_eq_of_lt hr]
  generalize i / perReg h.lay (codeWidth t) = q at *
  omega

/-- Tidying a group changes no element of it. -/
theorem Hart.vget_trim (h : Hart) (t : BitVec 8) {b n m j : Nat} (hb : b + n ≤ 32) (hm : m ≤ n)
    (hj : j < n * perReg h.lay (codeWidth t)) : (h.trim t b m).vget t b j = h.vget t b j := by
  induction m generalizing h with
  | zero => rfl
  | succ m ih =>
    obtain ⟨k1, k2, k3⟩ := group_index hb hj
    rw [Hart.trim]
    split
    · rename_i ht
      rw [ih (h.setVreg (b + m) (h.vreg (b + m) % 2 ^ (codeWidth t * perReg h.lay (codeWidth t)))) (by omega) hj]
      simp only [Hart.vget, Hart.setVreg_lay, Hart.vreg_setVreg]
      split
      · rename_i e
        rw [Nat.mod_eq_of_lt (by omega : b + m < 32), Nat.mod_eq_of_lt k2] at e
        have e' : j / perReg h.lay (codeWidth t) = m := by omega
        rw [e']
        apply Nat.eq_of_testBit_eq
        intro k
        rw [testBit_elemGet, testBit_elemGet]
        by_cases hk : k < codeWidth t
        · rw [Nat.testBit_mod_two_pow]
          have : bitPlace h.lay t (j % perReg h.lay (codeWidth t)) k < codeWidth t * perReg h.lay (codeWidth t) := by
            rw [bitPlace, if_pos ht]
            calc j % perReg h.lay (codeWidth t) + perReg h.lay (codeWidth t) * k
                < perReg h.lay (codeWidth t) + perReg h.lay (codeWidth t) * k := by omega
              _ = perReg h.lay (codeWidth t) * (k + 1) := by rw [Nat.mul_succ, Nat.add_comm]
              _ ≤ perReg h.lay (codeWidth t) * codeWidth t := Nat.mul_le_mul_left _ hk
              _ = _ := Nat.mul_comm _ _
          simp [this]
        · simp [hk]
      · rfl
    · rfl

theorem Hart.vreg_trim_outside (h : Hart) (t : BitVec 8) {b n m r : Nat} (hb : b + n ≤ 32) (hm : m ≤ n) (hr : r < 32)
    (ho : r < b ∨ b + n ≤ r) : (h.trim t b m).vreg r = h.vreg r := by
  induction m generalizing h with
  | zero => rfl
  | succ m ih =>
    rw [Hart.trim]
    split
    · rw [ih _ (by omega), Hart.vreg_setVreg, if_neg (by omega)]
    · rfl

/-- Writing and tidying a group changes nothing but vector registers. -/
theorem Hart.vput_v (h : Hart) (t : BitVec 8) (b i x : Nat) : h.vput t b i x = { h with v := (h.vput t b i x).v } := rfl

theorem Hart.trim_v (h : Hart) (t : BitVec 8) (b n : Nat) : h.trim t b n = { h with v := (h.trim t b n).v } := by
  induction n generalizing h with
  | zero => rfl
  | succ n ih =>
    rw [Hart.trim]
    split
    · rw [ih]
      rfl
    · rfl

end Sys2Proof.Machine
end

