-- ==== Sys2Proof/Laws/Encoding.lean ====
section
/-!
SUPPORT. Laws/Encoding.lean: the fields of each layout read back what was laid out (R181, R201, R204).
-/
set_option Elab.async false

namespace Sys2Proof

section rWord

variable (major : BitVec 6) (minor : BitVec 5) (m : BitVec 4) (b : BitVec 5) (a : BitVec 5) (d : BitVec 5)

@[simp] theorem fMajor_rWord : fMajor (rWord major minor m b a d) = major := by
  unfold fMajor rWord
  ext i hi
  simp [BitVec.getElem_extractLsb']
  grind
@[simp] theorem fMinor_rWord : fMinor (rWord major minor m b a d) = minor := by
  unfold fMinor rWord
  ext i hi
  simp [BitVec.getElem_extractLsb']
  grind
@[simp] theorem fM_rWord : fM (rWord major minor m b a d) = m := by
  unfold fM rWord
  ext i hi
  simp [BitVec.getElem_extractLsb']
  grind
@[simp] theorem fB_rWord : fB (rWord major minor m b a d) = b := by
  unfold fB rWord
  ext i hi
  simp [BitVec.getElem_extractLsb']
  grind
@[simp] theorem fA_rWord : fA (rWord major minor m b a d) = a := by
  unfold fA rWord
  ext i hi
  simp [BitVec.getElem_extractLsb']
  grind
@[simp] theorem fD_rWord : fD (rWord major minor m b a d) = d := by
  unfold fD rWord
  ext i hi
  simp [BitVec.getElem_extractLsb']
  grind
@[simp] theorem low_rWord : (rWord major minor m b a d).extractLsb' 0 2 = 1#2 := by
  unfold rWord
  ext i hi
  simp [BitVec.getElem_extractLsb']
  grind

end rWord

section iWord

variable (major : BitVec 6) (imm : BitVec 14) (a : BitVec 5) (d : BitVec 5)

@[simp] theorem fMajor_iWord : fMajor (iWord major imm a d) = major := by
  unfold fMajor iWord
  ext i hi
  simp [BitVec.getElem_extractLsb']
  grind
@[simp] theorem fImmI_iWord : fImmI (iWord major imm a d) = imm := by
  unfold fImmI iWord
  ext i hi
  simp [BitVec.getElem_extractLsb']
  grind
@[simp] theorem fA_iWord : fA (iWord major imm a d) = a := by
  unfold fA iWord
  ext i hi
  simp [BitVec.getElem_extractLsb']
  grind
@[simp] theorem fD_iWord : fD (iWord major imm a d) = d := by
  unfold fD iWord
  ext i hi
  simp [BitVec.getElem_extractLsb']
  grind
@[simp] theorem low_iWord : (iWord major imm a d).extractLsb' 0 2 = 1#2 := by
  unfold iWord
  ext i hi
  simp [BitVec.getElem_extractLsb']
  grind

end iWord

section sWord

variable (major : BitVec 6) (imm : BitVec 14) (b : BitVec 5) (a : BitVec 5)

@[simp] theorem fMajor_sWord : fMajor (sWord major imm b a) = major := by
  unfold fMajor sWord
  ext i hi
  simp [BitVec.getElem_extractLsb']
  grind
@[simp] theorem fA_sWord : fA (sWord major imm b a) = a := by
  unfold fA sWord
  ext i hi
  simp [BitVec.getElem_extractLsb']
  grind
@[simp] theorem fB_sWord : fB (sWord major imm b a) = b := by
  unfold fB sWord
  ext i hi
  simp [BitVec.getElem_extractLsb']
  grind
@[simp] theorem low_sWord : (sWord major imm b a).extractLsb' 0 2 = 1#2 := by
  unfold sWord
  ext i hi
  simp [BitVec.getElem_extractLsb']
  grind
@[simp] theorem hi_sWord : (sWord major imm b a).extractLsb' 23 9 = imm.extractLsb' 5 9 := by
  unfold sWord
  ext i hi
  simp [BitVec.getElem_extractLsb']
  grind
@[simp] theorem lo_sWord : (sWord major imm b a).extractLsb' 8 5 = imm.extractLsb' 0 5 := by
  unfold sWord
  ext i hi
  simp [BitVec.getElem_extractLsb']
  grind
@[simp] theorem fImmS_sWord : fImmS (sWord major imm b a) = imm := by
  rw [fImmS, hi_sWord, lo_sWord]
  ext i hi
  simp
  grind

end sWord

section jWord

variable (major : BitVec 6) (imm : BitVec 19) (d : BitVec 5)

@[simp] theorem fMajor_jWord : fMajor (jWord major imm d) = major := by
  unfold fMajor jWord
  ext i hi
  simp [BitVec.getElem_extractLsb']
  grind
@[simp] theorem fImmJ_jWord : fImmJ (jWord major imm d) = imm := by
  unfold fImmJ jWord
  ext i hi
  simp [BitVec.getElem_extractLsb']
  grind
@[simp] theorem fD_jWord : fD (jWord major imm d) = d := by
  unfold fD jWord
  ext i hi
  simp [BitVec.getElem_extractLsb']
  grind
@[simp] theorem low_jWord : (jWord major imm d).extractLsb' 0 2 = 1#2 := by
  unfold jWord
  ext i hi
  simp [BitVec.getElem_extractLsb']
  grind

end jWord

section pWord

variable (pclass : BitVec 6) (ta : BitVec 8) (tb : BitVec 8) (flags : BitVec 8)

@[simp] theorem pclass_pWord : (pWord pclass ta tb flags).extractLsb' 2 6 = pclass := by
  unfold pWord
  ext i hi
  simp [BitVec.getElem_extractLsb']
  grind
@[simp] theorem ta_pWord : (pWord pclass ta tb flags).extractLsb' 8 8 = ta := by
  unfold pWord
  ext i hi
  simp [BitVec.getElem_extractLsb']
  grind
@[simp] theorem tb_pWord : (pWord pclass ta tb flags).extractLsb' 16 8 = tb := by
  unfold pWord
  ext i hi
  simp [BitVec.getElem_extractLsb']
  grind
@[simp] theorem flags_pWord : (pWord pclass ta tb flags).extractLsb' 24 8 = flags := by
  unfold pWord
  ext i hi
  simp [BitVec.getElem_extractLsb']
  grind
@[simp] theorem low_pWord : (pWord pclass ta tb flags).extractLsb' 0 2 = 3#2 := by
  unfold pWord
  ext i hi
  simp [BitVec.getElem_extractLsb']
  grind

end pWord

section cWord

variable (op : BitVec 4) (hi : BitVec 5) (a : BitVec 3) (d : BitVec 3)

@[simp] theorem op_cWord : (cWord op hi a d).extractLsb' 1 4 = op := by
  unfold cWord
  ext i hi
  simp [BitVec.getElem_extractLsb']
  grind
@[simp] theorem hi_cWord : (cWord op hi a d).extractLsb' 11 5 = hi := by
  unfold cWord
  ext i hi
  simp [BitVec.getElem_extractLsb']
  grind
@[simp] theorem a_cWord : (cWord op hi a d).extractLsb' 8 3 = a := by
  unfold cWord
  ext i hi
  simp [BitVec.getElem_extractLsb']
  grind
@[simp] theorem d_cWord : (cWord op hi a d).extractLsb' 5 3 = d := by
  unfold cWord
  ext i hi
  simp [BitVec.getElem_extractLsb']
  grind
@[simp] theorem low_cWord : (cWord op hi a d).extractLsb' 0 1 = 0#1 := by
  unfold cWord
  ext i hi
  simp [BitVec.getElem_extractLsb']
  grind

end cWord

/-! ### Fields within fields -/

@[simp] theorem fields_2_2_x (x : BitVec 2) (y : BitVec 2) : BitVec.extractLsb' (n := 4) 2 2 (x ++ y) = x := by
  ext i hi
  simp [BitVec.getElem_extractLsb']
  grind

@[simp] theorem fields_2_2_y (x : BitVec 2) (y : BitVec 2) : BitVec.extractLsb' (n := 4) 0 2 (x ++ y) = y := by
  ext i hi
  simp [BitVec.getElem_extractLsb']
  grind

@[simp] theorem fields_2_12_x (x : BitVec 2) (y : BitVec 12) : BitVec.extractLsb' (n := 14) 12 2 (x ++ y) = x := by
  ext i hi
  simp [BitVec.getElem_extractLsb']
  grind

@[simp] theorem fields_2_12_y (x : BitVec 2) (y : BitVec 12) : BitVec.extractLsb' (n := 14) 0 12 (x ++ y) = y := by
  ext i hi
  simp [BitVec.getElem_extractLsb']
  grind

@[simp] theorem fields_1_3_x (x : BitVec 1) (y : BitVec 3) : BitVec.extractLsb' (n := 4) 3 1 (x ++ y) = x := by
  ext i hi
  simp [BitVec.getElem_extractLsb']
  grind

@[simp] theorem fields_1_3_y (x : BitVec 1) (y : BitVec 3) : BitVec.extractLsb' (n := 4) 0 3 (x ++ y) = y := by
  ext i hi
  simp [BitVec.getElem_extractLsb']
  grind

@[simp] theorem fields_1_4_x (x : BitVec 1) (y : BitVec 4) : BitVec.extractLsb' (n := 5) 4 1 (x ++ y) = x := by
  ext i hi
  simp [BitVec.getElem_extractLsb']
  grind

@[simp] theorem fields_1_4_y (x : BitVec 1) (y : BitVec 4) : BitVec.extractLsb' (n := 5) 0 4 (x ++ y) = y := by
  ext i hi
  simp [BitVec.getElem_extractLsb']
  grind

@[simp] theorem fields_8_6_x (x : BitVec 8) (y : BitVec 6) : BitVec.extractLsb' (n := 14) 6 8 (x ++ y) = x := by
  ext i hi
  simp [BitVec.getElem_extractLsb']
  grind

@[simp] theorem fields_8_6_y (x : BitVec 8) (y : BitVec 6) : BitVec.extractLsb' (n := 14) 0 6 (x ++ y) = y := by
  ext i hi
  simp [BitVec.getElem_extractLsb']
  grind

@[simp] theorem fields_6_8_x (x : BitVec 6) (y : BitVec 8) : BitVec.extractLsb' (n := 14) 8 6 (x ++ y) = x := by
  ext i hi
  simp [BitVec.getElem_extractLsb']
  grind

@[simp] theorem fields_6_8_y (x : BitVec 6) (y : BitVec 8) : BitVec.extractLsb' (n := 14) 0 8 (x ++ y) = y := by
  ext i hi
  simp [BitVec.getElem_extractLsb']
  grind

@[simp] theorem fields_1_2_2_x (x : BitVec 1) (y : BitVec 2) (z : BitVec 2) : BitVec.extractLsb' (n := 5) 4 1 (x ++ (y ++ z)) = x := by
  ext i hi
  simp

@[simp] theorem fields_1_2_2_y (x : BitVec 1) (y : BitVec 2) (z : BitVec 2) : BitVec.extractLsb' (n := 5) 2 2 (x ++ (y ++ z)) = y := by
  ext i hi
  simp [BitVec.getElem_extractLsb']
  grind

@[simp] theorem fields_1_2_2_z (x : BitVec 1) (y : BitVec 2) (z : BitVec 2) : BitVec.extractLsb' (n := 5) 0 2 (x ++ (y ++ z)) = z := by
  ext i hi
  simp [BitVec.getElem_extractLsb']
  grind

@[simp] theorem fields_1_1_3_x (x : BitVec 1) (y : BitVec 1) (z : BitVec 3) : BitVec.extractLsb' (n := 5) 4 1 (x ++ (y ++ z)) = x := by
  ext i hi
  simp

@[simp] theorem fields_1_1_3_y (x : BitVec 1) (y : BitVec 1) (z : BitVec 3) : BitVec.extractLsb' (n := 5) 3 1 (x ++ (y ++ z)) = y := by
  ext i hi
  simp [BitVec.getElem_extractLsb']
  grind

@[simp] theorem fields_1_1_3_z (x : BitVec 1) (y : BitVec 1) (z : BitVec 3) : BitVec.extractLsb' (n := 5) 0 3 (x ++ (y ++ z)) = z := by
  ext i hi
  simp [BitVec.getElem_extractLsb']
  grind

@[simp] theorem fields_1_1_3_3_x (x : BitVec 1) (y : BitVec 1) (z : BitVec 3) (t : BitVec 3) : BitVec.extractLsb' (n := 8) 7 1 (x ++ (y ++ (z ++ t))) = x := by
  ext i hi
  simp [BitVec.getElem_extractLsb']
  grind

@[simp] theorem fields_1_1_3_3_y (x : BitVec 1) (y : BitVec 1) (z : BitVec 3) (t : BitVec 3) : BitVec.extractLsb' (n := 8) 6 1 (x ++ (y ++ (z ++ t))) = y := by
  ext i hi
  simp [BitVec.getElem_extractLsb']
  grind

@[simp] theorem fields_1_1_3_3_z (x : BitVec 1) (y : BitVec 1) (z : BitVec 3) (t : BitVec 3) : BitVec.extractLsb' (n := 8) 3 3 (x ++ (y ++ (z ++ t))) = z := by
  ext i hi
  simp [BitVec.getElem_extractLsb']
  grind

@[simp] theorem fields_1_1_3_3_t (x : BitVec 1) (y : BitVec 1) (z : BitVec 3) (t : BitVec 3) : BitVec.extractLsb' (n := 8) 0 3 (x ++ (y ++ (z ++ t))) = t := by
  ext i hi
  simp [BitVec.getElem_extractLsb']
  grind

@[simp] theorem fields_4_4_x (x : BitVec 4) (y : BitVec 4) : BitVec.extractLsb' (n := 8) 4 4 (x ++ y) = x := by
  ext i hi
  simp [BitVec.getElem_extractLsb']
  grind

@[simp] theorem fields_4_4_y (x : BitVec 4) (y : BitVec 4) : BitVec.extractLsb' (n := 8) 0 4 (x ++ y) = y := by
  ext i hi
  simp [BitVec.getElem_extractLsb']
  grind

@[simp] theorem fields_1_4_3_x (x : BitVec 1) (y : BitVec 4) (z : BitVec 3) : BitVec.extractLsb' (n := 8) 7 1 (x ++ (y ++ z)) = x := by
  ext i hi
  simp [BitVec.getElem_extractLsb']
  grind

@[simp] theorem fields_1_4_3_y (x : BitVec 1) (y : BitVec 4) (z : BitVec 3) : BitVec.extractLsb' (n := 8) 3 4 (x ++ (y ++ z)) = y := by
  ext i hi
  simp [BitVec.getElem_extractLsb']
  grind

@[simp] theorem fields_1_4_3_z (x : BitVec 1) (y : BitVec 4) (z : BitVec 3) : BitVec.extractLsb' (n := 8) 0 3 (x ++ (y ++ z)) = z := by
  ext i hi
  simp [BitVec.getElem_extractLsb']
  grind

@[simp] theorem fields_6_2_x (x : BitVec 6) (y : BitVec 2) : BitVec.extractLsb' (n := 8) 2 6 (x ++ y) = x := by
  ext i hi
  simp [BitVec.getElem_extractLsb']
  grind

@[simp] theorem fields_6_2_y (x : BitVec 6) (y : BitVec 2) : BitVec.extractLsb' (n := 8) 0 2 (x ++ y) = y := by
  ext i hi
  simp [BitVec.getElem_extractLsb']
  grind

@[simp] theorem fields_2_3_x (x : BitVec 2) (y : BitVec 3) : BitVec.extractLsb' (n := 5) 3 2 (x ++ y) = x := by
  ext i hi
  simp [BitVec.getElem_extractLsb']
  grind

@[simp] theorem fields_2_3_y (x : BitVec 2) (y : BitVec 3) : BitVec.extractLsb' (n := 5) 0 3 (x ++ y) = y := by
  ext i hi
  simp [BitVec.getElem_extractLsb']
  grind

@[simp] theorem offset_parts (i : BitVec 8) : (i.extractLsb' 5 3 ++ i.extractLsb' 0 5 : BitVec 8) = i := by
  ext k hk
  simp
  grind

@[simp] theorem flagBit_eq (x : Bool) : (flagBit x == 1#1) = x := by cases x <;> rfl

/-- A compressed parcel with an operation other than 0 is not the parcel 0x0000. -/
theorem cWord_ne_zero {op : BitVec 4} (hi : BitVec 5) (a d : BitVec 3) (h : op ≠ 0#4) : cWord op hi a d ≠ 0#16 := by
  intro e
  have := op_cWord op hi a d
  rw [e] at this
  exact h this.symm

/-- The parcel 0x0000 has no field that is not zero. -/
theorem cWord_eq_zero {op : BitVec 4} {hi : BitVec 5} {a d : BitVec 3} (h : cWord op hi a d = 0#16) :
    hi = 0#5 ∧ a = 0#3 ∧ d = 0#3 := by
  have h1 := hi_cWord op hi a d
  have h2 := a_cWord op hi a d
  have h3 := d_cWord op hi a d
  rw [h] at h1 h2 h3
  exact ⟨h1.symm, h2.symm, h3.symm⟩

end Sys2Proof
end

