-- ==== Sys2Proof/Laws/Exec.lean ====
section
/-!
SUPPORT. Laws/Exec.lean: what each arm of exec calls.
-/
set_option Elab.async false

namespace Sys2Proof.Machine

theorem exec_add d a b (s : State) : exec (.add d a b) s = execAdd d a b s := rfl
theorem exec_sub d a b (s : State) : exec (.sub d a b) s = execSub d a b s := rfl
theorem exec_and d a b (s : State) : exec (.and d a b) s = execAnd d a b s := rfl
theorem exec_or d a b (s : State) : exec (.or d a b) s = execOr d a b s := rfl
theorem exec_xor d a b (s : State) : exec (.xor d a b) s = execXor d a b s := rfl
theorem exec_sll d a b (s : State) : exec (.sll d a b) s = execSll d a b s := rfl
theorem exec_srl d a b (s : State) : exec (.srl d a b) s = execSrl d a b s := rfl
theorem exec_sra d a b (s : State) : exec (.sra d a b) s = execSra d a b s := rfl
theorem exec_mul d a b (s : State) : exec (.mul d a b) s = execMul d a b s := rfl
theorem exec_mulh d a b (s : State) : exec (.mulh d a b) s = execMulh d a b s := rfl
theorem exec_mulhn d a b (s : State) : exec (.mulhn d a b) s = execMulhn d a b s := rfl
theorem exec_div d a b (s : State) : exec (.div d a b) s = execDiv d a b s := rfl
theorem exec_divn d a b (s : State) : exec (.divn d a b) s = execDivn d a b s := rfl
theorem exec_rem d a b (s : State) : exec (.rem d a b) s = execRem d a b s := rfl
theorem exec_remn d a b (s : State) : exec (.remn d a b) s = execRemn d a b s := rfl
theorem exec_slt d a b (s : State) : exec (.slt d a b) s = execSlt d a b s := rfl
theorem exec_sltn d a b (s : State) : exec (.sltn d a b) s = execSltn d a b s := rfl
theorem exec_min d a b (s : State) : exec (.min d a b) s = execMin d a b s := rfl
theorem exec_max d a b (s : State) : exec (.max d a b) s = execMax d a b s := rfl
theorem exec_minn d a b (s : State) : exec (.minn d a b) s = execMinn d a b s := rfl
theorem exec_maxn d a b (s : State) : exec (.maxn d a b) s = execMaxn d a b s := rfl
theorem exec_clz d a (s : State) : exec (.clz d a) s = execClz d a s := rfl
theorem exec_ctz d a (s : State) : exec (.ctz d a) s = execCtz d a s := rfl
theorem exec_popc d a (s : State) : exec (.popc d a) s = execPopc d a s := rfl
theorem exec_sext d a w (s : State) : exec (.sext d a w) s = execSext d a w s := rfl
theorem exec_zext d a w (s : State) : exec (.zext d a w) s = execZext d a w s := rfl
theorem exec_addi d a imm (s : State) : exec (.addi d a imm) s = execAddi d a imm s := rfl
theorem exec_andi d a imm (s : State) : exec (.andi d a imm) s = execAndi d a imm s := rfl
theorem exec_ori d a imm (s : State) : exec (.ori d a imm) s = execOri d a imm s := rfl
theorem exec_xori d a imm (s : State) : exec (.xori d a imm) s = execXori d a imm s := rfl
theorem exec_slti d a imm (s : State) : exec (.slti d a imm) s = execSlti d a imm s := rfl
theorem exec_slli d a c (s : State) : exec (.slli d a c) s = execSlli d a c s := rfl
theorem exec_srli d a c (s : State) : exec (.srli d a c) s = execSrli d a c s := rfl
theorem exec_srai d a c (s : State) : exec (.srai d a c) s = execSrai d a c s := rfl
theorem exec_lih d imm (s : State) : exec (.lih d imm) s = execLih d imm s := rfl
theorem exec_addpc d imm (s : State) : exec (.addpc d imm) s = execAddpc d imm s := rfl
theorem exec_jal d imm (s : State) : exec (.jal d imm) s = execJal d imm s := rfl
theorem exec_jalr d a imm (s : State) : exec (.jalr d a imm) s = execJalr d a imm s := rfl
theorem exec_beq a b imm (s : State) : exec (.beq a b imm) s = execBeq a b imm s := rfl
theorem exec_bne a b imm (s : State) : exec (.bne a b imm) s = execBne a b imm s := rfl
theorem exec_blt a b imm (s : State) : exec (.blt a b imm) s = execBlt a b imm s := rfl
theorem exec_bge a b imm (s : State) : exec (.bge a b imm) s = execBge a b imm s := rfl
theorem exec_bltn a b imm (s : State) : exec (.bltn a b imm) s = execBltn a b imm s := rfl
theorem exec_bgen a b imm (s : State) : exec (.bgen a b imm) s = execBgen a b imm s := rfl
theorem exec_loop a imm (s : State) : exec (.loop a imm) s = execLoop a imm s := rfl
theorem exec_ldS8 d a imm (s : State) : exec (.ldS8 d a imm) s = execLdS8 d a imm s := rfl
theorem exec_ldN8 d a imm (s : State) : exec (.ldN8 d a imm) s = execLdN8 d a imm s := rfl
theorem exec_ldS16 d a imm (s : State) : exec (.ldS16 d a imm) s = execLdS16 d a imm s := rfl
theorem exec_ldN16 d a imm (s : State) : exec (.ldN16 d a imm) s = execLdN16 d a imm s := rfl
theorem exec_ldS32 d a imm (s : State) : exec (.ldS32 d a imm) s = execLdS32 d a imm s := rfl
theorem exec_ldN32 d a imm (s : State) : exec (.ldN32 d a imm) s = execLdN32 d a imm s := rfl
theorem exec_ld64 d a imm (s : State) : exec (.ld64 d a imm) s = execLd64 d a imm s := rfl
theorem exec_st8 a b imm (s : State) : exec (.st8 a b imm) s = execSt8 a b imm s := rfl
theorem exec_st16 a b imm (s : State) : exec (.st16 a b imm) s = execSt16 a b imm s := rfl
theorem exec_st32 a b imm (s : State) : exec (.st32 a b imm) s = execSt32 a b imm s := rfl
theorem exec_st64 a b imm (s : State) : exec (.st64 a b imm) s = execSt64 a b imm s := rfl
theorem exec_fadd d a b f (s : State) : exec (.fadd d a b f) s = execFadd d a b f s := rfl
theorem exec_fsub d a b f (s : State) : exec (.fsub d a b f) s = execFsub d a b f s := rfl
theorem exec_fmul d a b f (s : State) : exec (.fmul d a b f) s = execFmul d a b f s := rfl
theorem exec_fdiv d a b f (s : State) : exec (.fdiv d a b f) s = execFdiv d a b f s := rfl
theorem exec_fsqrt d a f (s : State) : exec (.fsqrt d a f) s = execFsqrt d a f s := rfl
theorem exec_fma d a b f (s : State) : exec (.fma d a b f) s = execFma d a b f s := rfl
theorem exec_fmin d a b f (s : State) : exec (.fmin d a b f) s = execFmin d a b f s := rfl
theorem exec_fmax d a b f (s : State) : exec (.fmax d a b f) s = execFmax d a b f s := rfl
theorem exec_fcmp d a b f c (s : State) : exec (.fcmp d a b f c) s = execFcmp d a b f c s := rfl
theorem exec_fclass d a f (s : State) : exec (.fclass d a f) s = execFclass d a f s := rfl
theorem exec_fcvtToFloat d a b f (s : State) : exec (.fcvtToFloat d a b f) s = execFcvtToFloat d a b f s := rfl
theorem exec_fcvtToInt d a b f (s : State) : exec (.fcvtToInt d a b f) s = execFcvtToInt d a b f s := rfl
theorem exec_csrrw d a c (s : State) : exec (.csrrw d a c) s = execCsrrw d a c s := rfl
theorem exec_csrrs d a c (s : State) : exec (.csrrs d a c) s = execCsrrs d a c s := rfl
theorem exec_csrrc d a c (s : State) : exec (.csrrc d a c) s = execCsrrc d a c s := rfl
theorem exec_trap k (s : State) : exec (.trap k) s = execTrap k s := rfl
theorem exec_brk (s : State) : exec (.brk) s = execBrk s := rfl
theorem exec_eret (s : State) : exec (.eret) s = execEret s := rfl
theorem exec_wfe (s : State) : exec (.wfe) s = execWfe s := rfl
theorem exec_icsync (s : State) : exec (.icsync) s = execIcsync s := rfl
theorem exec_tlbi a (s : State) : exec (.tlbi a) s = execTlbi a s := rfl
theorem exec_tlbiAll (s : State) : exec (.tlbiAll) s = execTlbiAll s := rfl
theorem exec_savectx a (s : State) : exec (.savectx a) s = execSavectx a s := rfl
theorem exec_rstctx d a (s : State) : exec (.rstctx d a) s = execRstctx d a s := rfl
theorem exec_quiesce d (s : State) : exec (.quiesce d) s = execQuiesce d s := rfl
theorem exec_retire (s : State) : exec (.retire) s = execRetire s := rfl
theorem exec_fenceSv sc (s : State) : exec (.fenceSv sc) s = execFenceSv sc s := rfl
theorem exec_fenceVs sc (s : State) : exec (.fenceVs sc) s = execFenceVs sc s := rfl
theorem exec_fenceVv sc (s : State) : exec (.fenceVv sc) s = execFenceVv sc s := rfl
theorem exec_fenceAll sc (s : State) : exec (.fenceAll sc) s = execFenceAll sc s := rfl
theorem exec_fenceSys d (s : State) : exec (.fenceSys d) s = execFenceSys d s := rfl
theorem exec_amoAddW d a b sc q l (s : State) : exec (.amoAddW d a b sc q l) s = execAmoAddW d a b sc q l s := rfl
theorem exec_amoAndW d a b sc q l (s : State) : exec (.amoAndW d a b sc q l) s = execAmoAndW d a b sc q l s := rfl
theorem exec_amoOrW d a b sc q l (s : State) : exec (.amoOrW d a b sc q l) s = execAmoOrW d a b sc q l s := rfl
theorem exec_amoXorW d a b sc q l (s : State) : exec (.amoXorW d a b sc q l) s = execAmoXorW d a b sc q l s := rfl
theorem exec_amoMinW d a b sc q l (s : State) : exec (.amoMinW d a b sc q l) s = execAmoMinW d a b sc q l s := rfl
theorem exec_amoMaxW d a b sc q l (s : State) : exec (.amoMaxW d a b sc q l) s = execAmoMaxW d a b sc q l s := rfl
theorem exec_amoMinnW d a b sc q l (s : State) : exec (.amoMinnW d a b sc q l) s = execAmoMinnW d a b sc q l s := rfl
theorem exec_amoMaxnW d a b sc q l (s : State) : exec (.amoMaxnW d a b sc q l) s = execAmoMaxnW d a b sc q l s := rfl
theorem exec_amoSwapW d a b sc q l (s : State) : exec (.amoSwapW d a b sc q l) s = execAmoSwapW d a b sc q l s := rfl
theorem exec_amoCasW d a b sc q l (s : State) : exec (.amoCasW d a b sc q l) s = execAmoCasW d a b sc q l s := rfl
theorem exec_amoAddD d a b sc q l (s : State) : exec (.amoAddD d a b sc q l) s = execAmoAddD d a b sc q l s := rfl
theorem exec_amoAndD d a b sc q l (s : State) : exec (.amoAndD d a b sc q l) s = execAmoAndD d a b sc q l s := rfl
theorem exec_amoOrD d a b sc q l (s : State) : exec (.amoOrD d a b sc q l) s = execAmoOrD d a b sc q l s := rfl
theorem exec_amoXorD d a b sc q l (s : State) : exec (.amoXorD d a b sc q l) s = execAmoXorD d a b sc q l s := rfl
theorem exec_amoMinD d a b sc q l (s : State) : exec (.amoMinD d a b sc q l) s = execAmoMinD d a b sc q l s := rfl
theorem exec_amoMaxD d a b sc q l (s : State) : exec (.amoMaxD d a b sc q l) s = execAmoMaxD d a b sc q l s := rfl
theorem exec_amoMinnD d a b sc q l (s : State) : exec (.amoMinnD d a b sc q l) s = execAmoMinnD d a b sc q l s := rfl
theorem exec_amoMaxnD d a b sc q l (s : State) : exec (.amoMaxnD d a b sc q l) s = execAmoMaxnD d a b sc q l s := rfl
theorem exec_amoSwapD d a b sc q l (s : State) : exec (.amoSwapD d a b sc q l) s = execAmoSwapD d a b sc q l s := rfl
theorem exec_amoCasD d a b sc q l (s : State) : exec (.amoCasD d a b sc q l) s = execAmoCasD d a b sc q l s := rfl
theorem exec_vsetlT d a t (s : State) : exec (.vsetlT d a t) s = execVsetlT d a t s := rfl
theorem exec_vsetl d a (s : State) : exec (.vsetl d a) s = execVsetl d a s := rfl
theorem exec_vcfg b n (s : State) : exec (.vcfg b n) s = execVcfg b n s := rfl
theorem exec_vsett d a b (s : State) : exec (.vsett d a b) s = execVsett d a b s := rfl
theorem exec_vadd d a b m (s : State) : exec (.vadd d a b m) s = execVadd d a b m s := rfl
theorem exec_vsub d a b m (s : State) : exec (.vsub d a b m) s = execVsub d a b m s := rfl
theorem exec_vmul d a b m (s : State) : exec (.vmul d a b m) s = execVmul d a b m s := rfl
theorem exec_vmulh d a b m (s : State) : exec (.vmulh d a b m) s = execVmulh d a b m s := rfl
theorem exec_vmacc d a b m (s : State) : exec (.vmacc d a b m) s = execVmacc d a b m s := rfl
theorem exec_vdiv d a b m (s : State) : exec (.vdiv d a b m) s = execVdiv d a b m s := rfl
theorem exec_vrem d a b m (s : State) : exec (.vrem d a b m) s = execVrem d a b m s := rfl
theorem exec_vmin d a b m (s : State) : exec (.vmin d a b m) s = execVmin d a b m s := rfl
theorem exec_vmax d a b m (s : State) : exec (.vmax d a b m) s = execVmax d a b m s := rfl
theorem exec_vand d a b m (s : State) : exec (.vand d a b m) s = execVand d a b m s := rfl
theorem exec_vor d a b m (s : State) : exec (.vor d a b m) s = execVor d a b m s := rfl
theorem exec_vxor d a b m (s : State) : exec (.vxor d a b m) s = execVxor d a b m s := rfl
theorem exec_vsll d a b m (s : State) : exec (.vsll d a b m) s = execVsll d a b m s := rfl
theorem exec_vsrl d a b m (s : State) : exec (.vsrl d a b m) s = execVsrl d a b m s := rfl
theorem exec_vsra d a b m (s : State) : exec (.vsra d a b m) s = execVsra d a b m s := rfl
theorem exec_vadds d a b m (s : State) : exec (.vadds d a b m) s = execVadds d a b m s := rfl
theorem exec_vsubs d a b m (s : State) : exec (.vsubs d a b m) s = execVsubs d a b m s := rfl
theorem exec_vadc d a b m (s : State) : exec (.vadc d a b m) s = execVadc d a b m s := rfl
theorem exec_vsbc d a b m (s : State) : exec (.vsbc d a b m) s = execVsbc d a b m s := rfl
theorem exec_vmerge d a b m (s : State) : exec (.vmerge d a b m) s = execVmerge d a b m s := rfl
theorem exec_vaddX d a b m (s : State) : exec (.vaddX d a b m) s = execVaddX d a b m s := rfl
theorem exec_vsubX d a b m (s : State) : exec (.vsubX d a b m) s = execVsubX d a b m s := rfl
theorem exec_vmulX d a b m (s : State) : exec (.vmulX d a b m) s = execVmulX d a b m s := rfl
theorem exec_vmulhX d a b m (s : State) : exec (.vmulhX d a b m) s = execVmulhX d a b m s := rfl
theorem exec_vmaccX d a b m (s : State) : exec (.vmaccX d a b m) s = execVmaccX d a b m s := rfl
theorem exec_vdivX d a b m (s : State) : exec (.vdivX d a b m) s = execVdivX d a b m s := rfl
theorem exec_vremX d a b m (s : State) : exec (.vremX d a b m) s = execVremX d a b m s := rfl
theorem exec_vminX d a b m (s : State) : exec (.vminX d a b m) s = execVminX d a b m s := rfl
theorem exec_vmaxX d a b m (s : State) : exec (.vmaxX d a b m) s = execVmaxX d a b m s := rfl
theorem exec_vandX d a b m (s : State) : exec (.vandX d a b m) s = execVandX d a b m s := rfl
theorem exec_vorX d a b m (s : State) : exec (.vorX d a b m) s = execVorX d a b m s := rfl
theorem exec_vxorX d a b m (s : State) : exec (.vxorX d a b m) s = execVxorX d a b m s := rfl
theorem exec_vsllX d a b m (s : State) : exec (.vsllX d a b m) s = execVsllX d a b m s := rfl
theorem exec_vsrlX d a b m (s : State) : exec (.vsrlX d a b m) s = execVsrlX d a b m s := rfl
theorem exec_vsraX d a b m (s : State) : exec (.vsraX d a b m) s = execVsraX d a b m s := rfl
theorem exec_vaddsX d a b m (s : State) : exec (.vaddsX d a b m) s = execVaddsX d a b m s := rfl
theorem exec_vsubsX d a b m (s : State) : exec (.vsubsX d a b m) s = execVsubsX d a b m s := rfl
theorem exec_vadcX d a b m (s : State) : exec (.vadcX d a b m) s = execVadcX d a b m s := rfl
theorem exec_vsbcX d a b m (s : State) : exec (.vsbcX d a b m) s = execVsbcX d a b m s := rfl
theorem exec_vmergeX d a b m (s : State) : exec (.vmergeX d a b m) s = execVmergeX d a b m s := rfl
theorem exec_vcmpeq d a b m (s : State) : exec (.vcmpeq d a b m) s = execVcmpeq d a b m s := rfl
theorem exec_vcmpne d a b m (s : State) : exec (.vcmpne d a b m) s = execVcmpne d a b m s := rfl
theorem exec_vcmplt d a b m (s : State) : exec (.vcmplt d a b m) s = execVcmplt d a b m s := rfl
theorem exec_vcmple d a b m (s : State) : exec (.vcmple d a b m) s = execVcmple d a b m s := rfl
theorem exec_vcmpgt d a b m (s : State) : exec (.vcmpgt d a b m) s = execVcmpgt d a b m s := rfl
theorem exec_vcmpge d a b m (s : State) : exec (.vcmpge d a b m) s = execVcmpge d a b m s := rfl
theorem exec_vfcmpeq d a b m (s : State) : exec (.vfcmpeq d a b m) s = execVfcmpeq d a b m s := rfl
theorem exec_vfcmplt d a b m (s : State) : exec (.vfcmplt d a b m) s = execVfcmplt d a b m s := rfl
theorem exec_vfcmple d a b m (s : State) : exec (.vfcmple d a b m) s = execVfcmple d a b m s := rfl
theorem exec_vfcmpne d a b m (s : State) : exec (.vfcmpne d a b m) s = execVfcmpne d a b m s := rfl
theorem exec_vfcmpun d a b m (s : State) : exec (.vfcmpun d a b m) s = execVfcmpun d a b m s := rfl
theorem exec_vfadd d a b m (s : State) : exec (.vfadd d a b m) s = execVfadd d a b m s := rfl
theorem exec_vfsub d a b m (s : State) : exec (.vfsub d a b m) s = execVfsub d a b m s := rfl
theorem exec_vfmul d a b m (s : State) : exec (.vfmul d a b m) s = execVfmul d a b m s := rfl
theorem exec_vfma d a b m (s : State) : exec (.vfma d a b m) s = execVfma d a b m s := rfl
theorem exec_vfdiv d a b m (s : State) : exec (.vfdiv d a b m) s = execVfdiv d a b m s := rfl
theorem exec_vfsqrt d a m (s : State) : exec (.vfsqrt d a m) s = execVfsqrt d a m s := rfl
theorem exec_vfmin d a b m (s : State) : exec (.vfmin d a b m) s = execVfmin d a b m s := rfl
theorem exec_vfmax d a b m (s : State) : exec (.vfmax d a b m) s = execVfmax d a b m s := rfl
theorem exec_vfcvt d a m k (s : State) : exec (.vfcvt d a m k) s = execVfcvt d a m k s := rfl
theorem exec_vfrcp d a m (s : State) : exec (.vfrcp d a m) s = execVfrcp d a m s := rfl
theorem exec_vfrsq d a m (s : State) : exec (.vfrsq d a m) s = execVfrsq d a m s := rfl
theorem exec_vfexp2 d a m (s : State) : exec (.vfexp2 d a m) s = execVfexp2 d a m s := rfl
theorem exec_vflog2 d a m (s : State) : exec (.vflog2 d a m) s = execVflog2 d a m s := rfl
theorem exec_vftanh d a m (s : State) : exec (.vftanh d a m) s = execVftanh d a m s := rfl
theorem exec_vfaddX d a b m (s : State) : exec (.vfaddX d a b m) s = execVfaddX d a b m s := rfl
theorem exec_vfsubX d a b m (s : State) : exec (.vfsubX d a b m) s = execVfsubX d a b m s := rfl
theorem exec_vfmulX d a b m (s : State) : exec (.vfmulX d a b m) s = execVfmulX d a b m s := rfl
theorem exec_vfmaX d a b m (s : State) : exec (.vfmaX d a b m) s = execVfmaX d a b m s := rfl
theorem exec_vfminX d a b m (s : State) : exec (.vfminX d a b m) s = execVfminX d a b m s := rfl
theorem exec_vfmaxX d a b m (s : State) : exec (.vfmaxX d a b m) s = execVfmaxX d a b m s := rfl
theorem exec_vmv d a m (s : State) : exec (.vmv d a m) s = execVmv d a m s := rfl
theorem exec_vmvFromScalar d a m (s : State) : exec (.vmvFromScalar d a m) s = execVmvFromScalar d a m s := rfl
theorem exec_vslideup d a b m (s : State) : exec (.vslideup d a b m) s = execVslideup d a b m s := rfl
theorem exec_vslidedn d a b m (s : State) : exec (.vslidedn d a b m) s = execVslidedn d a b m s := rfl
theorem exec_vperm d a b m (s : State) : exec (.vperm d a b m) s = execVperm d a b m s := rfl
theorem exec_vcompress d a b (s : State) : exec (.vcompress d a b) s = execVcompress d a b s := rfl
theorem exec_viota d a m (s : State) : exec (.viota d a m) s = execViota d a m s := rfl
theorem exec_vid d m (s : State) : exec (.vid d m) s = execVid d m s := rfl
theorem exec_vmvToScale d a (s : State) : exec (.vmvToScale d a) s = execVmvToScale d a s := rfl
theorem exec_vmvFromScale d a (s : State) : exec (.vmvFromScale d a) s = execVmvFromScale d a s := rfl
theorem exec_vredAdd d a b m (s : State) : exec (.vredAdd d a b m) s = execVredAdd d a b m s := rfl
theorem exec_vredAnd d a b m (s : State) : exec (.vredAnd d a b m) s = execVredAnd d a b m s := rfl
theorem exec_vredOr d a b m (s : State) : exec (.vredOr d a b m) s = execVredOr d a b m s := rfl
theorem exec_vredXor d a b m (s : State) : exec (.vredXor d a b m) s = execVredXor d a b m s := rfl
theorem exec_vredMin d a b m (s : State) : exec (.vredMin d a b m) s = execVredMin d a b m s := rfl
theorem exec_vredMax d a b m (s : State) : exec (.vredMax d a b m) s = execVredMax d a b m s := rfl
theorem exec_vfredo d a b m (s : State) : exec (.vfredo d a b m) s = execVfredo d a b m s := rfl
theorem exec_vfredt d a b m (s : State) : exec (.vfredt d a b m) s = execVfredt d a b m s := rfl
theorem exec_mand d a b (s : State) : exec (.mand d a b) s = execMand d a b s := rfl
theorem exec_mor d a b (s : State) : exec (.mor d a b) s = execMor d a b s := rfl
theorem exec_mxor d a b (s : State) : exec (.mxor d a b) s = execMxor d a b s := rfl
theorem exec_mandn d a b (s : State) : exec (.mandn d a b) s = execMandn d a b s := rfl
theorem exec_mnot d a (s : State) : exec (.mnot d a) s = execMnot d a s := rfl
theorem exec_mwhile d a (s : State) : exec (.mwhile d a) s = execMwhile d a s := rfl
theorem exec_mpop d a (s : State) : exec (.mpop d a) s = execMpop d a s := rfl
theorem exec_mpopVl d a (s : State) : exec (.mpopVl d a) s = execMpopVl d a s := rfl
theorem exec_mfirst d a (s : State) : exec (.mfirst d a) s = execMfirst d a s := rfl
theorem exec_mlast d a (s : State) : exec (.mlast d a) s = execMlast d a s := rfl
theorem exec_mshup d a (s : State) : exec (.mshup d a) s = execMshup d a s := rfl
theorem exec_vtopk d a b m (s : State) : exec (.vtopk d a b m) s = execVtopk d a b m s := rfl
theorem exec_vld d a m (s : State) : exec (.vld d a m) s = execVld d a m s := rfl
theorem exec_vlds d a b m (s : State) : exec (.vlds d a b m) s = execVlds d a b m s := rfl
theorem exec_vlx d a b m (s : State) : exec (.vlx d a b m) s = execVlx d a b m s := rfl
theorem exec_vldff d a m (s : State) : exec (.vldff d a m) s = execVldff d a m s := rfl
theorem exec_vlxff d a b m (s : State) : exec (.vlxff d a b m) s = execVlxff d a b m s := rfl
theorem exec_vldScale d a (s : State) : exec (.vldScale d a) s = execVldScale d a s := rfl
theorem exec_vldMask d a (s : State) : exec (.vldMask d a) s = execVldMask d a s := rfl
theorem exec_vst d a m (s : State) : exec (.vst d a m) s = execVst d a m s := rfl
theorem exec_vsts d a b m (s : State) : exec (.vsts d a b m) s = execVsts d a b m s := rfl
theorem exec_vsx d a b m (s : State) : exec (.vsx d a b m) s = execVsx d a b m s := rfl
theorem exec_vscadd d a b m (s : State) : exec (.vscadd d a b m) s = execVscadd d a b m s := rfl
theorem exec_vstScale d a (s : State) : exec (.vstScale d a) s = execVstScale d a s := rfl
theorem exec_vstMask d a (s : State) : exec (.vstMask d a) s = execVstMask d a s := rfl
theorem exec_vxlate d a b m (s : State) : exec (.vxlate d a b m) s = execVxlate d a b m s := rfl
theorem exec_vxlateff d a b m (s : State) : exec (.vxlateff d a b m) s = execVxlateff d a b m s := rfl
theorem exec_vamoAdd d b m sc q l (s : State) : exec (.vamoAdd d b m sc q l) s = execVamoAdd d b m sc q l s := rfl
theorem exec_vamoAnd d b m sc q l (s : State) : exec (.vamoAnd d b m sc q l) s = execVamoAnd d b m sc q l s := rfl
theorem exec_vamoOr d b m sc q l (s : State) : exec (.vamoOr d b m sc q l) s = execVamoOr d b m sc q l s := rfl
theorem exec_vamoXor d b m sc q l (s : State) : exec (.vamoXor d b m sc q l) s = execVamoXor d b m sc q l s := rfl
theorem exec_vamoMin d b m sc q l (s : State) : exec (.vamoMin d b m sc q l) s = execVamoMin d b m sc q l s := rfl
theorem exec_vamoMax d b m sc q l (s : State) : exec (.vamoMax d b m sc q l) s = execVamoMax d b m sc q l s := rfl
theorem exec_vamoMinn d b m sc q l (s : State) : exec (.vamoMinn d b m sc q l) s = execVamoMinn d b m sc q l s := rfl
theorem exec_vamoMaxn d b m sc q l (s : State) : exec (.vamoMaxn d b m sc q l) s = execVamoMaxn d b m sc q l s := rfl
theorem exec_vamoSwap d b m sc q l (s : State) : exec (.vamoSwap d b m sc q l) s = execVamoSwap d b m sc q l s := rfl
theorem exec_fwdmove a b m (s : State) : exec (.fwdmove a b m) s = execFwdmove a b m s := rfl
theorem exec_fwdres d a m (s : State) : exec (.fwdres d a m) s = execFwdres d a m s := rfl
theorem exec_fwdresff d a m (s : State) : exec (.fwdresff d a m) s = execFwdresff d a m s := rfl
theorem exec_pcmpr d a b m (s : State) : exec (.pcmpr d a b m) s = execPcmpr d a b m s := rfl
theorem exec_fwdpath a m (s : State) : exec (.fwdpath a m) s = execFwdpath a m s := rfl
theorem exec_fwdrecl a (s : State) : exec (.fwdrecl a) s = execFwdrecl a s := rfl
theorem exec_fwdreclTomb a (s : State) : exec (.fwdreclTomb a) s = execFwdreclTomb a s := rfl
theorem exec_cpstep c (s : State) : exec (.cpstep c) s = execCpstep c s := rfl
theorem exec_cpwait c (s : State) : exec (.cpwait c) s = execCpwait c s := rfl
theorem exec_cpland d c (s : State) : exec (.cpland d c) s = execCpland d c s := rfl
theorem exec_cpcfg a c t (s : State) : exec (.cpcfg a c t) s = execCpcfg a c t s := rfl
theorem exec_launch d a b (s : State) : exec (.launch d a b) s = execLaunch d a b s := rfl
theorem exec_claim d a (s : State) : exec (.claim d a) s = execClaim d a s := rfl
theorem exec_grun d a (s : State) : exec (.grun d a) s = execGrun d a s := rfl
theorem exec_gbar (s : State) : exec (.gbar) s = execGbar s := rfl
theorem exec_sopen d a k (s : State) : exec (.sopen d a k) s = execSopen d a k s := rfl
theorem exec_sclose d (s : State) : exec (.sclose d) s = execSclose d s := rfl
theorem exec_bstVector d a m (s : State) : exec (.bstVector d a m) s = execBstVector d a m s := rfl
theorem exec_bstScalar a b (s : State) : exec (.bstScalar a b) s = execBstScalar a b s := rfl
theorem exec_bacq (s : State) : exec (.bacq) s = execBacq s := rfl
theorem exec_mopa d a b ta tb sa sb sat scl (s : State) : exec (.mopa d a b ta tb sa sb sat scl) s = execMopa d a b ta tb sa sb sat scl s := rfl
theorem exec_mzero d (s : State) : exec (.mzero d) s = execMzero d s := rfl
theorem exec_mfill d a (s : State) : exec (.mfill d a) s = execMfill d a s := rfl
theorem exec_mdrain d a b m ta (s : State) : exec (.mdrain d a b m ta) s = execMdrain d a b m ta s := rfl
theorem exec_mrdrow d a b ta (s : State) : exec (.mrdrow d a b ta) s = execMrdrow d a b ta s := rfl
theorem exec_vhad d a m ta tb n (s : State) : exec (.vhad d a m ta tb n) s = execVhad d a m ta tb n s := rfl
theorem exec_vcvtn d a m ta tb sa scl (s : State) : exec (.vcvtn d a m ta tb sa scl) s = execVcvtn d a m ta tb sa scl s := rfl
theorem exec_vcvtw d a m ta tb sa scl (s : State) : exec (.vcvtw d a m ta tb sa scl) s = execVcvtw d a m ta tb sa scl s := rfl
theorem exec_vscale d a ta tb (s : State) : exec (.vscale d a ta tb) s = execVscale d a ta tb s := rfl
theorem exec_xcfg d a (s : State) : exec (.xcfg d a) s = execXcfg d a s := rfl
theorem exec_xckpt d a m (s : State) : exec (.xckpt d a m) s = execXckpt d a m s := rfl
theorem exec_xdrain d a m (s : State) : exec (.xdrain d a m) s = execXdrain d a m s := rfl
theorem exec_xstat d a m f (s : State) : exec (.xstat d a m f) s = execXstat d a m f s := rfl
theorem exec_xclr d (s : State) : exec (.xclr d) s = execXclr d s := rfl
theorem exec_cAdd d a b (s : State) : exec (.cAdd d a b) s = execCAdd d a b s := rfl
theorem exec_cSub d a b (s : State) : exec (.cSub d a b) s = execCSub d a b s := rfl
theorem exec_cAnd d a b (s : State) : exec (.cAnd d a b) s = execCAnd d a b s := rfl
theorem exec_cOr d a b (s : State) : exec (.cOr d a b) s = execCOr d a b s := rfl
theorem exec_cXor d a b (s : State) : exec (.cXor d a b) s = execCXor d a b s := rfl
theorem exec_cAddi d a imm (s : State) : exec (.cAddi d a imm) s = execCAddi d a imm s := rfl
theorem exec_cLi d imm (s : State) : exec (.cLi d imm) s = execCLi d imm s := rfl
theorem exec_cSlli d a imm (s : State) : exec (.cSlli d a imm) s = execCSlli d a imm s := rfl
theorem exec_cSrli d a imm (s : State) : exec (.cSrli d a imm) s = execCSrli d a imm s := rfl
theorem exec_cSrai d a imm (s : State) : exec (.cSrai d a imm) s = execCSrai d a imm s := rfl
theorem exec_cLdS32 d a imm (s : State) : exec (.cLdS32 d a imm) s = execCLdS32 d a imm s := rfl
theorem exec_cLd64 d a imm (s : State) : exec (.cLd64 d a imm) s = execCLd64 d a imm s := rfl
theorem exec_cSt32 d a imm (s : State) : exec (.cSt32 d a imm) s = execCSt32 d a imm s := rfl
theorem exec_cSt64 d a imm (s : State) : exec (.cSt64 d a imm) s = execCSt64 d a imm s := rfl
theorem exec_cBeq a imm (s : State) : exec (.cBeq a imm) s = execCBeq a imm s := rfl
theorem exec_cBne a imm (s : State) : exec (.cBne a imm) s = execCBne a imm s := rfl
theorem exec_vtypeWrite g v (s : State) : exec (.vtypeWrite g v) s = execVtypeWrite g v s := rfl
theorem exec_vstartWrite g v (s : State) : exec (.vstartWrite g v) s = execVstartWrite g v s := rfl
theorem exec_rmodeWrite g v (s : State) : exec (.rmodeWrite g v) s = execRmodeWrite g v s := rfl
theorem exec_vlcapWrite g v (s : State) : exec (.vlcapWrite g v) s = execVlcapWrite g v s := rfl
theorem exec_spbanksWrite g v (s : State) : exec (.spbanksWrite g v) s = execSpbanksWrite g v s := rfl
theorem exec_ptrootWrite g v (s : State) : exec (.ptrootWrite g v) s = execPtrootWrite g v s := rfl
theorem exec_csrWrite g c v (s : State) : exec (.csrWrite g c v) s = execCsrWrite g c v s := rfl
theorem exec_enqueueStore w q off line full (s : State) : exec (.enqueueStore w q off line full) s = execEnqueueStore w q off line full s := rfl
theorem exec_graphStartWindow w q line full (s : State) : exec (.graphStartWindow w q line full) s = execGraphStartWindow w q line full s := rfl
theorem exec_placeGang tower (s : State) : exec (.placeGang tower) s = execPlaceGang tower s := rfl
theorem exec_agingStep q (s : State) : exec (.agingStep q) s = execAgingStep q s := rfl
theorem exec_preemption g (s : State) : exec (.preemption g) s = execPreemption g s := rfl
theorem exec_graphNodeStart gr node (s : State) : exec (.graphNodeStart gr node) s = execGraphNodeStart gr node s := rfl
theorem exec_vectorEntryComplete g (s : State) : exec (.vectorEntryComplete g) s = execVectorEntryComplete g s := rfl
theorem exec_faultRecordPost p (s : State) : exec (.faultRecordPost p) s = execFaultRecordPost p s := rfl
theorem exec_eventDelivery p (s : State) : exec (.eventDelivery p) s = execEventDelivery p s := rfl
theorem exec_eventWindowWrite w p v (s : State) : exec (.eventWindowWrite w p v) s = execEventWindowWrite w p v s := rfl
theorem exec_wfeTimeout g (s : State) : exec (.wfeTimeout g) s = execWfeTimeout g s := rfl
theorem exec_stripFetch g ch elem (s : State) : exec (.stripFetch g ch elem) s = execStripFetch g ch elem s := rfl
theorem exec_elementLanding g ch elem (s : State) : exec (.elementLanding g ch elem) s = execElementLanding g ch elem s := rfl
theorem exec_moveComplete line (s : State) : exec (.moveComplete line) s = execMoveComplete line s := rfl
theorem exec_reclaimComplete p idx (s : State) : exec (.reclaimComplete p idx) s = execReclaimComplete p idx s := rfl
theorem exec_postedWriteFollow g (s : State) : exec (.postedWriteFollow g) s = execPostedWriteFollow g s := rfl
theorem exec_scrub tier line corrected passEnd (s : State) : exec (.scrub tier line corrected passEnd) s = execScrub tier line corrected passEnd s := rfl
theorem exec_uncorrectableError site (s : State) : exec (.uncorrectableError site) s = execUncorrectableError site s := rfl
theorem exec_laneGroupRetirement core lg (s : State) : exec (.laneGroupRetirement core lg) s = execLaneGroupRetirement core lg s := rfl
theorem exec_frameBoundary tower (s : State) : exec (.frameBoundary tower) s = execFrameBoundary tower s := rfl
theorem exec_slotTransmission tower slot crcOk (s : State) : exec (.slotTransmission tower slot crcOk) s = execSlotTransmission tower slot crcOk s := rfl
theorem exec_broadcastApply tier crcOk (s : State) : exec (.broadcastApply tier crcOk) s = execBroadcastApply tier crcOk s := rfl
theorem exec_tierSleep tier (s : State) : exec (.tierSleep tier) s = execTierSleep tier s := rfl
theorem exec_tierWake tier (s : State) : exec (.tierWake tier) s = execTierWake tier s := rfl
theorem exec_wakeLogReplayEnd tier (s : State) : exec (.wakeLogReplayEnd tier) s = execWakeLogReplayEnd tier s := rfl
theorem exec_replicaRefillEnd tier (s : State) : exec (.replicaRefillEnd tier) s = execReplicaRefillEnd tier s := rfl
theorem exec_powerSample watts hot (s : State) : exec (.powerSample watts hot) s = execPowerSample watts hot s := rfl
theorem exec_thermalShutdown (s : State) : exec (.thermalShutdown) s = execThermalShutdown s := rfl
theorem exec_powerUp imageOk versionOk lanes deadLinks (s : State) : exec (.powerUp imageOk versionOk lanes deadLinks) s = execPowerUp imageOk versionOk lanes deadLinks s := rfl
theorem exec_linkRetrainEntry k (s : State) : exec (.linkRetrainEntry k) s = execLinkRetrainEntry k s := rfl
theorem exec_trainingAttemptEnd k ok (s : State) : exec (.trainingAttemptEnd k ok) s = execTrainingAttemptEnd k ok s := rfl
theorem exec_linkDownTimeout k (s : State) : exec (.linkDownTimeout k) s = execLinkDownTimeout k s := rfl
theorem exec_fabricRequest id part req (s : State) : exec (.fabricRequest id part req) s = execFabricRequest id part req s := rfl
theorem exec_partInfo m w tag (s : State) : exec (.partInfo m w tag) s = execPartInfo m w tag s := rfl
theorem exec_counters m w tag off (s : State) : exec (.counters m w tag off) s = execCounters m w tag off s := rfl
theorem exec_shootdown m w tag va all (s : State) : exec (.shootdown m w tag va all) s = execShootdown m w tag va all s := rfl
theorem exec_resume m w tag (s : State) : exec (.resume m w tag) s = execResume m w tag s := rfl
theorem exec_abandon m w tag paddr abcode (s : State) : exec (.abandon m w tag paddr abcode) s = execAbandon m w tag paddr abcode s := rfl
theorem exec_setevent m w tag target hevaddr (s : State) : exec (.setevent m w tag target hevaddr) s = execSetevent m w tag target hevaddr s := rfl
theorem exec_quota m w tag q0 q1 (s : State) : exec (.quota m w tag q0 q1) s = execQuota m w tag q0 q1 s := rfl
theorem exec_qpair m w tag port count (s : State) : exec (.qpair m w tag port count) s = execQpair m w tag port count s := rfl
theorem exec_mreg m w tag port va len rd wr (s : State) : exec (.mreg m w tag port va len rd wr) s = execMreg m w tag port va len rd wr s := rfl
theorem exec_mdereg m w tag key (s : State) : exec (.mdereg m w tag key) s = execMdereg m w tag key s := rfl
theorem exec_qpconn m w tag port qp conn (s : State) : exec (.qpconn m w tag port qp conn) s = execQpconn m w tag port qp conn s := rfl
theorem exec_create m w tag p entry (s : State) : exec (.create m w tag p entry) s = execCreate m w tag p entry s := rfl
theorem exec_lock m w tag p (s : State) : exec (.lock m w tag p) s = execLock m w tag p s := rfl
theorem exec_start m w tag p (s : State) : exec (.start m w tag p) s = execStart m w tag p s := rfl
theorem exec_stop m w tag p (s : State) : exec (.stop m w tag p) s = execStop m w tag p s := rfl
theorem exec_teardown m w tag p (s : State) : exec (.teardown m w tag p) s = execTeardown m w tag p s := rfl
theorem exec_slots m w tag tower entries off len wlogs (s : State) : exec (.slots m w tag tower entries off len wlogs) s = execSlots m w tag tower entries off len wlogs s := rfl
theorem exec_access m w tag id pmask mgmt (s : State) : exec (.access m w tag id pmask mgmt) s = execAccess m w tag id pmask mgmt s := rfl
theorem exec_link m w tag k (s : State) : exec (.link m w tag k) s = execLink m w tag k s := rfl
theorem exec_domain m w tag pkg (s : State) : exec (.domain m w tag pkg) s = execDomain m w tag pkg s := rfl
theorem exec_migrate m w tag p peer out entry image (s : State) : exec (.migrate m w tag p peer out entry image) s = execMigrate m w tag p peer out entry image s := rfl
theorem exec_sleep m w tag tower mask on (s : State) : exec (.sleep m w tag tower mask on) s = execSleep m w tag tower mask on s := rfl
theorem exec_workLinePost w port p line full (s : State) : exec (.workLinePost w port p line full) s = execWorkLinePost w port p line full s := rfl
theorem exec_workLineCompletion port p ok data (s : State) : exec (.workLineCompletion port p ok data) s = execWorkLineCompletion port p ok data s := rfl
theorem exec_receiveLinePost w port p line full (s : State) : exec (.receiveLinePost w port p line full) s = execReceiveLinePost w port p line full s := rfl
theorem exec_inboundSend port qp data (s : State) : exec (.inboundSend port qp data) s = execInboundSend port qp data s := rfl
theorem exec_inboundRdmaWrite port qp key va data (s : State) : exec (.inboundRdmaWrite port qp key va data) s = execInboundRdmaWrite port qp key va data s := rfl
theorem exec_inboundRdmaRead port qp key va len (s : State) : exec (.inboundRdmaRead port qp key va len) s = execInboundRdmaRead port qp key va len s := rfl
theorem exec_getVersion peer (s : State) : exec (.getVersion peer) s = execGetVersion peer s := rfl
theorem exec_getCapabilities peer (s : State) : exec (.getCapabilities peer) s = execGetCapabilities peer s := rfl
theorem exec_negotiateAlgorithms peer offer (s : State) : exec (.negotiateAlgorithms peer offer) s = execNegotiateAlgorithms peer offer s := rfl
theorem exec_getDigests peer (s : State) : exec (.getDigests peer) s = execGetDigests peer s := rfl
theorem exec_getCertificate peer off len (s : State) : exec (.getCertificate peer off len) s = execGetCertificate peer off len s := rfl
theorem exec_challenge peer nonce (s : State) : exec (.challenge peer nonce) s = execChallenge peer nonce s := rfl
theorem exec_getMeasurements peer index signed (s : State) : exec (.getMeasurements peer index signed) s = execGetMeasurements peer index signed s := rfl
theorem exec_keyExchange peer share (s : State) : exec (.keyExchange peer share) s = execKeyExchange peer share s := rfl
theorem exec_finish peer session (s : State) : exec (.finish peer session) s = execFinish peer session s := rfl
theorem exec_endSession peer session (s : State) : exec (.endSession peer session) s = execEndSession peer session s := rfl
theorem exec_postedWriteAck g k (s : State) : exec (.postedWriteAck g k) s = execPostedWriteAck g k s := rfl
theorem exec_flitCrcFailure k (s : State) : exec (.flitCrcFailure k) s = execFlitCrcFailure k s := rfl

end Sys2Proof.Machine
end

