-- ==== Sys2Proof/Laws/Front.lean ====
section
/-!
SUPPORT. Laws/Front.lean: what the front end's and the walker's programs give where nothing stands in their way.
-/
set_option Elab.async false

namespace Sys2Proof.Machine

/-! ### Reads of several pages -/

theorem devTouch_gives {s : State} {ls : List (Leaf × Nat)}
    (m : ∀ e ∈ ls, leafMarked (s.bytes e.1.line 128) e.1.idx false = s.bytes e.1.line 128) : Gives (devTouch false ls) s () s := by
  induction ls with
  | nil => exact Gives.pure _ _
  | cons e ls ih =>
    exact Gives.bind (markLeaf_gives (m e (by simp))) (ih (fun x hx => m x (by simp [hx])))

theorem devLeaves_length {s : State} {p : Nat} {acc : Acc} {ps : List (Nat × Nat)} {ls : List (Leaf × Nat)}
    (h : devLeaves s p acc ps = some ls) : ps.length = ls.length := by
  induction ps generalizing ls with
  | nil =>
    cases h
    rfl
  | cons q ps ih =>
    unfold devLeaves at h
    split at h
    · rename_i h1 h2
      split at h
      · cases h
        simp [ih h2]
      · cases h
    · cases h

theorem devFollow_pieces {s : State} {p : Nat} {acc : Acc} {touch : Nat → Leaf → M Bool} {ps : List (Nat × Nat)} {ls : List (Leaf × Nat)}
    (h : ps.length = ls.length) (hp : ∀ e ∈ ls, devPlain s e.1 e.2 = true) : Gives (devFollow p acc touch ps ls) s (some ls) s := by
  induction ps generalizing ls with
  | nil =>
    cases ls with
    | nil => exact Gives.pure _ _
    | cons => simp at h
  | cons q ps ih =>
    cases ls with
    | nil => simp at h
    | cons e ls =>
      refine Gives.bind (Gives.getState _) ?_
      simp only [hp e (by simp), if_true]
      exact Gives.bind (Gives.pure (some [e]) s)
        (Gives.bind (ih (by simpa using h) (fun x hx => hp x (by simp [hx]))) (Gives.pure _ _))

theorem devRead_pieces {s : State} {p va n : Nat} {ls : List (Leaf × Nat)} (h : devLeaves s p .load (pagePieces va n) = some ls)
    (m : ∀ e ∈ ls, leafMarked (s.bytes e.1.line 128) e.1.idx false = s.bytes e.1.line 128)
    (hp : ∀ e ∈ ls, devPlain s e.1 e.2 = true) : Gives (devRead p va n) s (some (devGet s ls)) s := by
  refine Gives.bind (Gives.gets _ _) ?_
  rw [h]
  exact Gives.bind (devTouch_gives m)
    (Gives.bind (devFollow_pieces (devLeaves_length h) hp) (Gives.bind (Gives.gets _ _) (Gives.pure _ _)))

/-! ### Writes of several lines -/

/-- The state after a write of n bytes at their home, each line they meet keeping its own metadata. -/
def State.wroteLines (s : State) (pa n : Nat) (v : Bits) : State :=
  let t := Prim.apply s (.mem pa n v)
  (range' (pa / 128) ((pa + n - 1) / 128 + 1 - pa / 128)).foldl (fun u l =>
    Prim.apply u (.line l { u.line l with
      ptag := t.ptagOf (localOf (l * 128))
      poison := (u.line l).poison && !(decide (pa ≤ l * 128) && decide (l * 128 + 128 ≤ pa + n)) })) t

theorem eachM_gives {α : Type} {g : α → M Unit} {f : State → α → State} (h : ∀ s x, Gives (g x) s () (f s x)) (xs : List α) (s : State) :
    Gives (eachM xs g) s () (xs.foldl f s) := by
  induction xs generalizing s with
  | nil => exact Gives.pure _ _
  | cons x xs ih => exact Gives.bind (h s x) (ih _)

theorem homeWrite_lines (s : State) (pa n : Nat) (v : Bits) : Gives (homeWrite pa n v) s () (s.wroteLines pa n v) :=
  Gives.bind (Gives.upd _ _) (Gives.bind (Gives.getState _) (eachM_gives (fun _ _ => Gives.bind (Gives.gets _ _) (Gives.upd _ _)) _ _))

/-! ### The journal (R130) -/

theorem journalLook_gives {s : State} {p n st seq : Nat} (h1 : Gives (devRead p (s.part p).jbase 8) s (some n) s) (hs : max 1 n = seq)
    (hn : seq ≠ 2 ^ 64 - 1) (h2 : Gives (devRead p (journalEntry (s.part p) seq + 9) 1) s (some st) s)
    (h3 : ¬ (st = 1 ∨ st = 2)) : Gives (journalLook p) s (.next seq) s := by
  subst hs
  refine Gives.bind (Gives.gets _ _) (Gives.bind h1 ?_)
  dsimp only
  rw [if_neg hn]
  refine Gives.bind h2 ?_
  dsimp only
  rw [if_neg h3]
  exact Gives.pure _ _

theorem journalAccept_gives {s a b c : State} {p q kind seq : Nat} {line : Bits}
    (h1 : Gives (devWrite p (journalSlot (s.part p) seq) 128 line) s true a)
    (h2 : Gives (devWrite p (journalEntry (s.part p) seq) 32
      (seq + kind * 2 ^ 64 + 1 * 2 ^ 72 + q * 2 ^ 80 + journalSlot (s.part p) seq * 2 ^ 128 + (s.cycle % 2 ^ 64) * 2 ^ 192)) a true b)
    (h3 : Gives (devWrite p (s.part p).jbase 8 (seq + 1)) b true c) : Gives (journalAccept p q kind seq line) s true c :=
  Gives.bind (Gives.getState _) (Gives.bind h1 (Gives.bind h2 h3))

/-! ### Graphs (R149, R334) -/

theorem graphRefusal_gives {s : State} {p j st : Nat} {line : Bits} (h1 : (s.part p).pause = false) (h2 : lineMalformed (s.part p) line = false)
    (h3 : rootsOf line = [j]) (h4 : Gives (devRead p (nodeAddr (s.part p) j + 1) 1) s (some st) s) (h5 : st = ndIdle ∨ st = ndDone)
    (h6 : s.graphs.length < graphPlaces) : Gives (graphRefusal p line) s (some none) s := by
  refine Gives.bind (Gives.gets _ _) ?_
  rw [h1, h2, h3]
  refine Gives.bind (x := some false) (s' := s) ?_ ?_
  · refine Gives.bind (Gives.gets _ _) (Gives.bind h4 ?_)
    dsimp only
    rw [if_pos h5]
    exact Gives.pure _ _
  · refine Gives.bind (Gives.gets _ _) ?_
    rw [if_neg (by omega)]
    exact Gives.pure _ _

theorem graphStart_gives {s a b : State} {p q seq j : Nat} {addr : Word} {line : Bits} (h : rootsOf line = [j])
    (h1 : Gives (devWrite p (nodeAddr (s.part p) j + 1) 1 ndReady) s true a)
    (h2 : Gives (devWrite p (nodeAddr (s.part p) j + 56) 8 (s.cycle % 2 ^ 64)) a true b) :
    Gives (graphStart p q addr seq line) s true (Prim.apply (Prim.apply b (.nextId (b.nextId + 1))) (.graph b.nextId (some {
      addr := addr, seq := seq, part := p, queue := q, gdone := BitVec.ofNat 64 (bitsGet line 64 57), live := 1, fail := false,
      begun := false, nodes := [j], abandoned := false }))) := by
  refine Gives.bind (x := true) (s' := b) ?_ ?_
  · rw [h]
    exact Gives.bind (Gives.getState _) (Gives.bind h1 (Gives.bind h2 (Gives.pure _ _)))
  · rw [h]
    exact Gives.bind (Gives.bind (Gives.gets _ _) (Gives.bind (Gives.upd _ _) (Gives.pure _ _)))
      (Gives.bind (Gives.upd _ _) (Gives.pure _ _))

theorem readNode_gives {s : State} {p j : Nat} {b : Bits} (h : Gives (devRead p (nodeAddr (s.part p) j) 64) s (some b) s) :
    Gives (readNode p j) s b s :=
  Gives.bind (Gives.gets _ _) (Gives.bind h (Gives.pure _ _))

theorem writeNode_gives {s a : State} {p j off n v : Nat} (h : Gives (devWrite p (nodeAddr (s.part p) j + off) n v) s true a) :
    Gives (writeNode p j off n v) s () a :=
  Gives.bind (Gives.gets _ _) (Gives.bind h (Gives.pure _ _))

theorem setNode_gives {s a b : State} {p j st : Nat} (h1 : Gives (devWrite p (nodeAddr (s.part p) j + 1) 1 st) s true a)
    (h2 : Gives (devWrite p (nodeAddr (a.part p) j + 56) 8 (s.cycle % 2 ^ 64)) a true b) : Gives (setNode p j st) s () b :=
  Gives.bind (Gives.gets _ _) (Gives.bind (writeNode_gives h1) (writeNode_gives h2))

theorem nodeRuns_gives {s a b : State} {gr p j : Nat} {nd : Bits} {x : Graph} (h1 : Gives (setNode p j ndRunning) s () a)
    (h2 : Gives (writeNode p j 6 2 (ndInit nd)) a () b) (h3 : tabFind b.graphs gr = some x) (h4 : x.begun = true) :
    Gives (nodeRuns gr p j nd) s () b := by
  refine Gives.bind h1 (Gives.bind h2 (Gives.bind (Gives.gets _ _) ?_))
  rw [h3]
  dsimp only
  rw [if_pos h4]
  exact Gives.pure _ _

theorem refreshPart_gives {s : State} {p q : Nat} (h : (s.part p).queueList = [q]) :
    Gives (refreshPart p) s () (Prim.apply s (.queue q ((s.queue q).refresh (s.part p) s.cycle))) := by
  refine Gives.bind (Gives.getState _) ?_
  rw [h]
  exact Gives.eachM_cons (Gives.upd _ _) (Gives.eachM_nil _ _)

theorem agePart_gives {s : State} {p q : Nat} (h : (s.part p).queueList = [q]) :
    Gives (agePart p) s () (Prim.apply s (.queue q ((s.queue q).aged s.cycle 8))) := by
  refine Gives.bind (Gives.getState _) ?_
  rw [h]
  exact Gives.eachM_cons (Gives.upd _ _) (Gives.eachM_nil _ _)

theorem modGraph_gives {s : State} {gr : Nat} {x : Graph} (f : Graph → Graph) (h : tabFind s.graphs gr = some x) :
    Gives (modGraph gr f) s () (Prim.apply s (.graph gr (some (f x)))) := by
  refine Gives.bind (Gives.gets _ _) ?_
  rw [h]
  exact Gives.upd _ _

theorem countArrival_gives {s : State} {q : Nat} (code : Nat) (h : q < 64) :
    Gives (countArrival q code) s () (Prim.apply s (.queue q ((s.queue q).count code))) := by
  unfold countArrival
  rw [decide_eq_true h]
  exact Gives.whenM_true (Gives.modQueue _ _ _)

/-- The state after a packet joins its queue, before the readiness of the partition's queues. -/
def State.joined (s : State) (q : Nat) (l : Launch) : State :=
  Prim.apply (Prim.apply (Prim.apply s (.nextId (s.nextId + 1))) (.launch s.nextId (some l)))
    (.queue q { s.queue q with pkts := (s.queue q).pkts ++ [s.nextId] })

theorem enqueuePacket_gives {s : State} {p q r : Nat} {pkt : Bits} {paddr : Word} {src seq : Nat} {node : Option (Nat × Nat)} {l : Launch}
    (hl : l = { packet := pkt, paddr := paddr, src := src, seq := seq, part := p, queue := q, queued := true, nextg := 0, resume := [], claim := 0,
                live := 0, node := node })
    (h : ((s.joined q l).part p).queueList = [r]) :
    Gives (enqueuePacket p q pkt paddr src seq node) s ()
      (Prim.apply (s.joined q l) (.queue r (((s.joined q l).queue r).refresh ((s.joined q l).part p) (s.joined q l).cycle))) := by
  subst hl
  exact Gives.bind (Gives.bind (Gives.gets _ _) (Gives.bind (Gives.upd _ _) (Gives.pure _ _))) (Gives.bind (Gives.upd _ _)
    (Gives.bind (Gives.modQueue _ _ _) (refreshPart_gives h)))

theorem startCompute_gives {s a b : State} {gr p j : Nat} {nd pkt : Bits} (h1 : ndPkt nd % 128 = 0)
    (h2 : Gives (devRead p (ndPkt nd) 128) s (some pkt) s) (h3 : bitAt (s.part p).queues (ndQueue nd) = true)
    (h4 : packetRefusal s p (ndQueue nd) pkt = none) (h5 : ndQueue nd < 64)
    (h6 : Gives (nodeRuns gr p j nd) (Prim.apply s (.queue (ndQueue nd) ((s.queue (ndQueue nd)).count 0))) () a)
    (h7 : Gives (enqueuePacket p (ndQueue nd) pkt (BitVec.ofNat 64 (ndPkt nd)) 2 0 (some (gr, j))) a () b) :
    Gives (startCompute gr p j nd) s () b := by
  refine Gives.bind (Gives.getState _) ?_
  rw [if_pos h1]
  refine Gives.bind h2 ?_
  dsimp only
  rw [if_pos h3, h4]
  exact Gives.bind (countArrival_gives 0 h5) (Gives.bind h6 h7)

theorem nodeEnds_gives {s a : State} {gr j : Nat} {x y : Graph} {nd : Bits} (h1 : tabFind s.graphs gr = some x)
    (h2 : x.nodes.contains j = true) (h3 : Gives (readNode x.part j) s nd s) (h4 : ndSuccs nd = 0)
    (h5 : Gives (setNode x.part j ndDone) s () a) (h6 : tabFind a.graphs gr = some y)
    (h7 : let z : Graph := { y with
        live := if y.nodes.contains j then y.live - 1 else y.live, nodes := y.nodes.filter (fun k => k != j), fail := y.fail || false }
      tabFind (Prim.apply a (.graph gr (some z))).graphs gr = some z ∧ z.live ≠ 0) :
    Gives (nodeEnds gr j true) s () (Prim.apply a (.graph gr (some { y with
      live := if y.nodes.contains j then y.live - 1 else y.live, nodes := y.nodes.filter (fun k => k != j), fail := y.fail || false }))) := by
  refine Gives.bind (Gives.gets _ _) ?_
  rw [h1]
  dsimp only
  rw [h2]
  refine Gives.bind h3 ?_
  have e : Gives (successors x.part nd) s [] s := by
    unfold successors
    rw [h4]
    exact Gives.pure _ _
  rw [if_pos rfl]
  refine Gives.bind e (Gives.bind (Gives.gets _ _) (Gives.bind h5 (Gives.bind (Gives.pure _ _) (Gives.bind (modGraph_gives _ h6)
    (Gives.bind (Gives.gets _ _) ?_)))))
  rw [h7.1]
  dsimp only
  rw [if_neg h7.2]
  exact Gives.pure _ _

/-- What the copy of element 0 writes. -/
def Chan.copied (c : Chan) (x : Nat) : Nat :=
  let rd := ({ mode := c.mode.toNat, seed := c.seed.toNat } : Mode).at 0 0
  if c.conv then (convert c.srcCode c.typ rd x).1 else memCode c.typ (x % 2 ^ codeWidth c.typ)

theorem copyElems_one {s a : State} {p x : Nat} {c : Chan} (h1 : Gives (devRead p (c.srcAddr 0) c.es) s (some x) s)
    (h2 : Gives (devWrite p (c.dstAddr 0) c.ed (c.copied x)) s true a) : Gives (copyElems p c 1 0) s true a := by
  unfold copyElems
  exact Gives.bind h1 (Gives.bind (Gives.bind h2 (Gives.pure _ _)) (Gives.pure _ _))

theorem startCopy_gives {s a b t : State} {gr p j n : Nat} {nd d : Bits} {c : Chan} (h1 : Gives (devRead p (ndPkt nd) 48) s (some d) s)
    (h2 : copyChan d = some c) (h4 : Gives (nodeRuns gr p j nd) s () a) (hc : c.count = n)
    (h3 : Gives (copyElems p c n 0) a true b)
    (h5 : Gives (nodeEnds gr j true) b () t) : Gives (startCopy gr p j nd) s () t := by
  refine Gives.bind h1 ?_
  dsimp only
  subst hc
  rw [h2]
  exact Gives.bind h4 (Gives.bind h3 h5)

/-! ### Placing and pre-empting (R117, R343) -/

theorem readMap_gives {s : State} {p : Nat} {b : Bits} (h : Gives (devRead p (mapAddr (s.part p)) 512) s (some b) s) :
    Gives (readMap p) s b s :=
  Gives.bind (Gives.gets _ _) (Gives.bind h (Gives.pure _ _))

theorem preemptible_gives {s : State} {g gg : Nat} {x : Gang} {b : Bits} (h : s.gangOf g = some (gg, x))
    (h1 : (s.part (s.hart g).partid.toNat).state = .run ∧ x.lost.isEmpty = true)
    (h2 : Gives (devRead (s.hart g).partid.toNat (mapAddr (s.part (s.hart g).partid.toNat)) 512) s (some b) s)
    (h3 : x.saved.length ≤ (freeSlots (s.part (s.hart g).partid.toNat) b).length) :
    Gives (preemptible g) s (some gg) s := by
  refine Gives.bind (Gives.getState _) ?_
  rw [h]
  dsimp only
  rw [if_pos h1]
  refine Gives.bind (readMap_gives h2) ?_
  have e := Gives.gets (fun s : State => if x.saved.length ≤ (freeSlots (s.part (s.hart g).partid.toNat) b).length then some gg else none) s
  rw [if_pos h3] at e
  exact e

theorem acquireStart_gives {s : State} {g : Nat} (h : s.core (coreOf g) = { s.core (coreOf g) with l1 := [], scache := [] }) :
    Gives (acquireStart g) s () s := by
  refine Gives.bind (Gives.gets _ _) ?_
  have e : ({ s.core (coreOf g) with l1 := if 1 ≤ 6 then [] else (s.core (coreOf g)).l1
                                     scache := if true = true then [] else (s.core (coreOf g)).scache } : Core) = s.core (coreOf g) := h.symm
  dsimp only
  rw [e, bne_self_eq_false]
  exact Gives.whenM_false _ _

theorem layAnew_gives {s : State} {g : Nat} (h : (s.hart g).spilled = false) :
    Gives (layAnew g) s () (Prim.apply s (.hart g { s.hart g with lay := s.sg g })) := by
  refine Gives.bind (Gives.gets _ _) (Gives.bind (Gives.getHart _ _) ?_)
  refine Gives.bind (x := ()) (s' := s) ?_ (Gives.modHart _ _ _)
  cases ((s.hart g).lay != s.sg g)
  · exact Gives.whenM_false _ _
  · refine Gives.whenM_true (Gives.bind (x := true) (s' := s) ?_ (Gives.pure _ _))
    refine Gives.bind (Gives.getHart _ _) ?_
    rw [h]
    exact Gives.pure _ _

/-- The state with the record of a gang of one, of launch id, that starts on hart g. -/
def State.placed (s : State) (id g : Nat) (l : Launch) (urgent : Bool) : State :=
  let x : Gang := { launch := id, index := l.nextg, members := [g], retired := [], lost := [], placed := s.cycle, urgent := urgent
                    size := 1, arr := 0, epoch := 0, st := 1, streams := [], sRet := [] }
  Prim.apply (Prim.apply s (.nextId (s.nextId + 1))) (.gang s.nextId (some x.withViews))

/-- So, with its hart filled. -/
def State.filled (s : State) (id g : Nat) (l : Launch) (urgent : Bool) : State :=
  Prim.apply (s.placed id g l urgent) (.hart g (entryHart (s.part l.part) l
    { launch := id, gang := s.nextId, index := 0, since := s.cycle } l.nextg))

/-- The state with the one member of a starting gang of launch id on hart g. -/
def State.membered (s : State) (id g : Nat) (l : Launch) (urgent : Bool) : State :=
  Prim.apply (s.filled id g l urgent) (.hart g { (s.filled id g l urgent).hart g with lay := (s.filled id g l urgent).sg g })

theorem startGang_gives {s : State} {id g : Nat} {l : Launch} {urgent : Bool}
    (h : (s.membered id g l urgent).core (coreOf g) = { (s.membered id g l urgent).core (coreOf g) with l1 := [], scache := [] })
    (hs : l.seq = 0)
    (hb : decide (coreBanksWith (s.placed id g l urgent) g ((s.placed id g l urgent).hart g).banks <
      coreBanksWith (s.filled id g l urgent) g ((s.filled id g l urgent).hart g).banks) = false) :
    Gives (startGang id l urgent [g]) s () (Prim.apply (s.membered id g l urgent)
      (.launch id (some { l with nextg := l.nextg + 1, live := l.live + 1 }))) := by
  have hf : Gives (fillSlot g (entryHart ((Prim.apply s (.nextId (s.nextId + 1))).part l.part) l
      { launch := id, gang := s.nextId, index := 0, since := s.cycle } l.nextg)) (s.placed id g l urgent) ()
      (s.filled id g l urgent) := by
    refine Gives.bind (Gives.gets _ _) (Gives.bind (Gives.putHart _ _ _) ?_)
    refine Gives.bind (x := false) (s' := s.filled id g l urgent) ?_ (Gives.pure _ _)
    have e := Gives.gets (fun u : State => decide (coreBanksWith (s.placed id g l urgent) g ((s.placed id g l urgent).hart g).banks <
      coreBanksWith u g (u.hart g).banks)) (s.filled id g l urgent)
    rw [hb] at e
    exact e
  have hl : Gives (layAnew g) (s.filled id g l urgent) () (s.membered id g l urgent) := by
    refine layAnew_gives ?_
    rw [State.filled, hart_apply_hart_same]
    rfl
  refine Gives.bind (Gives.bind (Gives.gets _ _) (Gives.bind (Gives.upd _ _) (Gives.pure _ _))) (Gives.bind (Gives.gets _ _)
    (Gives.bind (Gives.upd _ _) (Gives.bind (x := ()) (s' := s.filled id g l urgent) ?_
      (Gives.bind (Gives.eachM_cons (Gives.bind hl (acquireStart_gives h)) (Gives.eachM_nil _ _)) (Gives.bind (Gives.upd _ _) ?_)))))
  · exact Gives.bind (Gives.getState _) (Gives.bind hf (Gives.pure _ _))
  have e (t : State) : Gives (journalStatus l.part l.seq 2) t () t := by
    unfold journalStatus
    rw [if_pos hs]
    exact Gives.pure _ _
  cases (l.nextg == 0)
  · exact Gives.whenM_false _ _
  · exact Gives.whenM_true (e _)

theorem leaveQueue_gives {s : State} {id : Nat} {l : Launch} (h : tabFind s.launches id = some l)
    (hq : l.queued = true ∧ l.resume.isEmpty = true ∧ Packet.gangs l.packet ≤ l.nextg) :
    Gives (leaveQueue id) s () (Prim.apply (Prim.apply s (.launch id (some { l with queued := false })))
      (.queue l.queue { s.queue l.queue with pkts := (s.queue l.queue).pkts.filter (fun k => k != id) })) := by
  refine Gives.bind (Gives.gets _ _) ?_
  rw [h]
  dsimp only
  rw [if_pos hq]
  exact Gives.bind (Gives.upd _ _) (Gives.modQueue _ _ _)

/-- The state after a queue and a partition won a turn of a tower. -/
def State.won (s : State) (tower q p : Nat) : State :=
  let s1 := Prim.apply s (.queue q { s.queue q with step := 0, ageAt := s.cycle, urgent := none })
  let s2 := Prim.apply s1 (.part p (if tower = 0 then { s1.part p with last0 := q } else { s1.part p with last1 := q }))
  Prim.apply s2 (.tower tower { s2.tower tower with lastPart := p })

theorem placeChosen_gives {s a b : State} {tower : Nat} {c : Cand} {hs : List Nat} {q : Nat} (h : c.g = none)
    (h1 : Gives (startGang c.id c.l c.urgent hs) s () a) (h2 : Gives (leaveQueue c.id) a () b)
    (h3 : ((b.won tower c.q c.l.part).part c.l.part).queueList = [q]) :
    Gives (placeChosen tower c hs) s () (Prim.apply (b.won tower c.q c.l.part) (.queue q (((b.won tower c.q c.l.part).queue q).refresh
      ((b.won tower c.q c.l.part).part c.l.part) (b.won tower c.q c.l.part).cycle))) := by
  unfold placeChosen
  rw [h]
  exact Gives.bind h1 (Gives.bind h2 (Gives.bind (Gives.gets _ _) (Gives.bind (Gives.modQueue _ _ _) (Gives.bind (Gives.modPart _ _ _)
    (Gives.bind (Gives.modTower _ _ _) (refreshPart_gives h3))))))

/-! ### The fault queue (R127) -/

theorem postRetry_full {s : State} {p len : Nat} {v hd : Bits} (h : Gives (devRead p (s.part p).fqbase 24) s (some hd) s)
    (f : 4096 < bitsGet hd 0 64 + len - bitsGet hd 64 64) : Gives (postWaiting.postRetry p len v) s .full s := by
  refine Gives.bind (Gives.gets _ _) (Gives.bind h ?_)
  dsimp only
  rw [if_pos f]
  exact Gives.pure _ _

theorem postRetry_at {s a b : State} {p : Nat} {v hd : Bits} (h : Gives (devRead p (s.part p).fqbase 24) s (some hd) s)
    (f : ¬ 4096 < bitsGet hd 0 64 + 1 - bitsGet hd 64 64)
    (h1 : Gives (devWrite p ((s.part p).fqbase + 128 + 128 * ((bitsGet hd 0 64 + 0) % 4096)) 128
      ((v + bitsGet hd 0 64 * 2 ^ 320 + (s.cycle % 2 ^ 64) * 2 ^ 384) % 2 ^ 1024)) s true a)
    (h2 : Gives (devWrite p (s.part p).fqbase 8 (bitsGet hd 0 64 + 1)) a true b) :
    Gives (postWaiting.postRetry p 1 v) s (.at ((s.part p).fqbase + 128 + 128 * (bitsGet hd 0 64 % 4096))) b := by
  refine Gives.bind (Gives.gets _ _) (Gives.bind h ?_)
  dsimp only
  rw [if_neg f]
  refine Gives.bind (Gives.gets _ _) (Gives.bind h ?_)
  dsimp only
  rw [if_neg f]
  refine Gives.bind (Gives.gets _ _) (Gives.bind (x := true) (s' := a) ?_ ?_)
  · exact Gives.bind h1 (Gives.pure _ _)
  · exact Gives.bind h2 (Gives.pure _ _)

/-! ### The save area (R348) -/

theorem roomForAll_gives {s : State} {p : Nat} {b : Bits} {but : Option Nat} (r : Bool)
    (h : Gives (devRead p (mapAddr (s.part p)) 512) s (some b) s)
    (e : decide (((gangsOf s p but).map (fun e => e.2.saved.length)).sum ≤ (freeSlots (s.part p) b).length) = r) :
    Gives (roomForAll p but) s r s := by
  subst e
  exact Gives.bind (readMap_gives h) (Gives.gets _ _)

theorem stopEmpty_gives {s a b : State} {p : Nat} (h1 : gangsOf s p none = []) (h2 : broadcastsDone s p = true)
    (h3 : s.harts.filter (fun e => e.2.place.isSome && e.2.partid.toNat == p) = []) (h4 : launchesOf s p = []) (h5 : s.graphs = [])
    (h6 : Gives (devWrite p ((s.part p).ctxbase + 0x80) 8192 (packBytes ((List.range 64).map (fun q =>
      (if bitAt (s.part p).queues q then queueRecord [] (s.queue q) else fieldBits [(66, 2, noIndex)], 128))))) s true a)
    (h7 : Gives (devWrite p (s.part p).ctxbase 128 (regionHeader (s.part p) 0 0)) a true b) (h8 : (s.part p).stood = []) :
    Gives (do suspendAll p none; drainBroadcasts p; discardRest p; writeRegion p) s () b := by
  have e1 : Gives (suspendAll p none) s () s := by
    refine Gives.bind (Gives.gets _ _) ?_
    rw [h1]
    exact Gives.eachM_nil _ _
  have e2 : Gives (drainBroadcasts p) s () s := by
    refine Gives.bind (Gives.getState _) ?_
    rw [if_pos h2]
    exact Gives.pure _ _
  have e3 : Gives (discardRest p) s () s := by
    refine Gives.bind (Gives.gets _ _) ?_
    rw [h1]
    refine Gives.bind (Gives.eachM_nil _ _) (Gives.bind (Gives.gets _ _) ?_)
    rw [h3]
    exact Gives.eachM_nil _ _
  have e4 : Gives (writeRegion p) s () b := by
    refine Gives.bind (Gives.getState _) ?_
    rw [h4, h5]
    refine Gives.bind (Gives.bind h6 (Gives.pure _ _)) (Gives.bind (Gives.eachM_nil _ _) (Gives.bind (Gives.eachM_nil _ _)
      (Gives.bind (Gives.eachM_nil _ _) (Gives.bind (x := ()) (s' := b) (Gives.bind h7 (Gives.pure _ _)) ?_))))
    simp only [h8, List.map_nil]
    exact Gives.whenM_false _ _
  exact Gives.bind e1 (Gives.bind e2 (Gives.bind e3 e4))

theorem reload_gives {s t : State} {p : Nat} {b : Bits} (ht : t = Prim.apply s (.part p { s.part p with pause := false, kept := false, quiescer := none, stood := [] }))
    (h : Gives (devRead p (s.part p).ctxbase 0x2E4280) s (some b) s)
    (h1 : cutBytes b 0 4 = 0x49585331 ∧ cutBytes b 4 2 = 1 ∧ cutBytes b 6 1 = 0)
    (h2 : (t.part p).queueList = []) : Gives (reload p) s true t := by
  refine Gives.bind (Gives.gets _ _) (Gives.bind h ?_)
  have e : Gives (regionToLoad p (s.part p) b) s (some none) s := by
    unfold regionToLoad
    rw [h1.1, h1.2.1, h1.2.2]
    exact Gives.pure _ _
  refine Gives.bind e (Gives.bind (x := ()) (s' := t) (ht ▸ Gives.modPart _ _ _) (Gives.bind (x := ()) (s' := t) ?_ (Gives.pure _ _)))
  refine Gives.bind (Gives.gets _ _) ?_
  rw [h2]
  refine Gives.bind (Gives.eachM_nil _ _) (Gives.bind (Gives.getState _) ?_)
  rw [h2]
  exact Gives.eachM_nil _ _

/-! ### The Ethernet ports (R378) -/

/-- The state after the counts of a port go on by free values. -/
def State.framed (s : State) (e : Nat) : State :=
  let n := Config.freeValue s.freeCtr % 2 ^ 384
  let t := Prim.apply s (.freeCtr (s.freeCtr + 1))
  Prim.apply t (.port e { t.port e with
    counts := (List.range 6).foldl (fun c k => addTo c k (bitsGet n (64 * k) 64)) (t.port e).counts })

theorem countFrames_gives (s : State) (e : Nat) : Gives (countFrames e) s () (s.framed e) :=
  Gives.bind (Gives.bind (Gives.gets _ _) (Gives.bind (Gives.upd _ _) (Gives.pure _ _))) (Gives.modPort _ _ _)

theorem completion_gives {s a : State} {p caddr status len : Nat}
    (h : Gives (devWrite p caddr 16 (status + len % 2 ^ 32 * 2 ^ 32 + s.cycle % 2 ^ 64 * 2 ^ 64)) s true a) :
    Gives (completion p caddr status len) s () a :=
  Gives.bind (Gives.gets _ _) (Gives.bind h (Gives.pure _ _))

theorem completionError_gives {s a : State} {p caddr : Nat}
    (h : Gives (completion p caddr 2 (Config.freeValue s.freeCtr % 2 ^ 32)) (Prim.apply s (.freeCtr (s.freeCtr + 1))) () a) :
    Gives (completionError p caddr) s () a :=
  Gives.bind (Gives.bind (Gives.gets _ _) (Gives.bind (Gives.upd _ _) (Gives.pure _ _))) h

theorem moveWork_gives {s a : State} {p : Nat} {b : Bits} {data : List (BitVec 8)} {ok : Bool} (h1 : lineOp b = 2)
    (h2 : Gives (devWrite p (lineLva b) (lineLen b) (numOf (data.take (lineLen b)))) s ok a) : Gives (moveWork p b data) s ok a := by
  unfold moveWork
  rw [if_pos h1]
  exact h2

end Sys2Proof.Machine
end

