-- ==== Sys2Proof/Laws/PerInstr.lean ====
section
/-!
SUPPORT. Laws/PerInstr.lean: per instruction, decoding gives back what was encoded (R179 to R205).
-/
set_option Elab.async false

namespace Sys2Proof

/-! ### Words as strings of bits -/

theorem wordsOf_base {w : BitVec 32} (h : w.extractLsb' 0 2 = 1#2) : wordsOf (Words.base w).bits = .base w := by
  have e1 : (w.zeroExtend 64).extractLsb' 0 32 = w := by
    ext i hi
    simp [BitVec.getElem_extractLsb']
    grind
  have e2 : (w.zeroExtend 64).extractLsb' 0 2 = w.extractLsb' 0 2 := by
    ext i hi
    simp [BitVec.getElem_extractLsb']
    grind
  have e3 : (w.zeroExtend 64).extractLsb' 0 1 = 1#1 := by
    have : (w.extractLsb' 0 2).extractLsb' 0 1 = 1#1 := by
      rw [h]
      rfl
    rw [← this]
    ext i hi
    have : i = 0 := by omega
    subst this
    simp
  rw [wordsOf, Words.bits, e3, e2, h, e1]
  rfl

theorem wordsOf_prefixed {p w : BitVec 32} (h : p.extractLsb' 0 2 = 3#2) : wordsOf (Words.prefixed p w).bits = .prefixed p w := by
  have e1 : (w ++ p).extractLsb' 0 32 = p := by
    ext i hi
    simp [BitVec.getElem_extractLsb']
    grind
  have e4 : (w ++ p).extractLsb' 32 32 = w := by
    ext i hi
    simp [BitVec.getElem_extractLsb']
    grind
  have e2 : (w ++ p).extractLsb' 0 2 = p.extractLsb' 0 2 := by
    ext i hi
    simp [BitVec.getElem_extractLsb']
    grind
  have e3 : (w ++ p).extractLsb' 0 1 = 1#1 := by
    have : (p.extractLsb' 0 2).extractLsb' 0 1 = 1#1 := by
      rw [h]
      rfl
    rw [← this]
    ext i hi
    have : i = 0 := by omega
    subst this
    simp
    grind
  change (if (w ++ p).extractLsb' 0 1 = 0#1 then _ else if (w ++ p).extractLsb' 0 2 = 1#2 then _ else Words.prefixed ((w ++ p).extractLsb' 0 32) ((w ++ p).extractLsb' 32 32)) = _
  rw [e3, e2, h, e1, e4]
  rfl

theorem wordsOf_parcel {p : BitVec 16} (h : p.extractLsb' 0 1 = 0#1) : wordsOf (Words.parcel p).bits = .parcel p := by
  have e1 : (p.zeroExtend 64).extractLsb' 0 16 = p := by
    ext i hi
    simp [BitVec.getElem_extractLsb']
    grind
  have e3 : (p.zeroExtend 64).extractLsb' 0 1 = 0#1 := by
    rw [← h]
    ext i hi
    have : i = 0 := by omega
    subst this
    simp
  rw [wordsOf, Words.bits, e3, e1]
  rfl

/-- A well-formed instruction whose words select it. -/
theorem decode_of_raw {i : Instr} {ws : Words} (hw : i.wf = true) (h : wordsOf ws.bits = ws) (hr : rawDecode ws = .ok i) :
    decode (wordsOf ws.bits) = .ok i := by
  have : i.illFormed = none := by simpa [Instr.wf] using hw
  rw [h, decode, hr]
  simp only [this]

/-- Decoding gives back what was encoded. -/
def Laws.RoundTrip.Statement (i : Instr) : Prop := i.wf = true → ∀ ws, encode i = some ws → decode (wordsOf ws.bits) = .ok i

theorem Laws.RoundTrip.add d a b : Statement (.add d a b) := by
  intro hw ws he
  obtain rfl := Option.some.inj he
  refine decode_of_raw hw (wordsOf_base (low_rWord ..)) ?_
  simp [rawDecode, raw32, decOp, need]
theorem Laws.RoundTrip.sub d a b : Statement (.sub d a b) := by
  intro hw ws he
  obtain rfl := Option.some.inj he
  refine decode_of_raw hw (wordsOf_base (low_rWord ..)) ?_
  simp [rawDecode, raw32, decOp, need]
theorem Laws.RoundTrip.and d a b : Statement (.and d a b) := by
  intro hw ws he
  obtain rfl := Option.some.inj he
  refine decode_of_raw hw (wordsOf_base (low_rWord ..)) ?_
  simp [rawDecode, raw32, decOp, need]
theorem Laws.RoundTrip.or d a b : Statement (.or d a b) := by
  intro hw ws he
  obtain rfl := Option.some.inj he
  refine decode_of_raw hw (wordsOf_base (low_rWord ..)) ?_
  simp [rawDecode, raw32, decOp, need]
theorem Laws.RoundTrip.xor d a b : Statement (.xor d a b) := by
  intro hw ws he
  obtain rfl := Option.some.inj he
  refine decode_of_raw hw (wordsOf_base (low_rWord ..)) ?_
  simp [rawDecode, raw32, decOp, need]
theorem Laws.RoundTrip.sll d a b : Statement (.sll d a b) := by
  intro hw ws he
  obtain rfl := Option.some.inj he
  refine decode_of_raw hw (wordsOf_base (low_rWord ..)) ?_
  simp [rawDecode, raw32, decOp, need]
theorem Laws.RoundTrip.srl d a b : Statement (.srl d a b) := by
  intro hw ws he
  obtain rfl := Option.some.inj he
  refine decode_of_raw hw (wordsOf_base (low_rWord ..)) ?_
  simp [rawDecode, raw32, decOp, need]
theorem Laws.RoundTrip.sra d a b : Statement (.sra d a b) := by
  intro hw ws he
  obtain rfl := Option.some.inj he
  refine decode_of_raw hw (wordsOf_base (low_rWord ..)) ?_
  simp [rawDecode, raw32, decOp, need]
theorem Laws.RoundTrip.mul d a b : Statement (.mul d a b) := by
  intro hw ws he
  obtain rfl := Option.some.inj he
  refine decode_of_raw hw (wordsOf_base (low_rWord ..)) ?_
  simp [rawDecode, raw32, decOp, need]
theorem Laws.RoundTrip.mulh d a b : Statement (.mulh d a b) := by
  intro hw ws he
  obtain rfl := Option.some.inj he
  refine decode_of_raw hw (wordsOf_base (low_rWord ..)) ?_
  simp [rawDecode, raw32, decOp, need]
theorem Laws.RoundTrip.mulhn d a b : Statement (.mulhn d a b) := by
  intro hw ws he
  obtain rfl := Option.some.inj he
  refine decode_of_raw hw (wordsOf_base (low_rWord ..)) ?_
  simp [rawDecode, raw32, decOp, need]
theorem Laws.RoundTrip.div d a b : Statement (.div d a b) := by
  intro hw ws he
  obtain rfl := Option.some.inj he
  refine decode_of_raw hw (wordsOf_base (low_rWord ..)) ?_
  simp [rawDecode, raw32, decOp, need]
theorem Laws.RoundTrip.divn d a b : Statement (.divn d a b) := by
  intro hw ws he
  obtain rfl := Option.some.inj he
  refine decode_of_raw hw (wordsOf_base (low_rWord ..)) ?_
  simp [rawDecode, raw32, decOp, need]
theorem Laws.RoundTrip.rem d a b : Statement (.rem d a b) := by
  intro hw ws he
  obtain rfl := Option.some.inj he
  refine decode_of_raw hw (wordsOf_base (low_rWord ..)) ?_
  simp [rawDecode, raw32, decOp, need]
theorem Laws.RoundTrip.remn d a b : Statement (.remn d a b) := by
  intro hw ws he
  obtain rfl := Option.some.inj he
  refine decode_of_raw hw (wordsOf_base (low_rWord ..)) ?_
  simp [rawDecode, raw32, decOp, need]
theorem Laws.RoundTrip.slt d a b : Statement (.slt d a b) := by
  intro hw ws he
  obtain rfl := Option.some.inj he
  refine decode_of_raw hw (wordsOf_base (low_rWord ..)) ?_
  simp [rawDecode, raw32, decOp, need]
theorem Laws.RoundTrip.sltn d a b : Statement (.sltn d a b) := by
  intro hw ws he
  obtain rfl := Option.some.inj he
  refine decode_of_raw hw (wordsOf_base (low_rWord ..)) ?_
  simp [rawDecode, raw32, decOp, need]
theorem Laws.RoundTrip.min d a b : Statement (.min d a b) := by
  intro hw ws he
  obtain rfl := Option.some.inj he
  refine decode_of_raw hw (wordsOf_base (low_rWord ..)) ?_
  simp [rawDecode, raw32, decOp, need]
theorem Laws.RoundTrip.max d a b : Statement (.max d a b) := by
  intro hw ws he
  obtain rfl := Option.some.inj he
  refine decode_of_raw hw (wordsOf_base (low_rWord ..)) ?_
  simp [rawDecode, raw32, decOp, need]
theorem Laws.RoundTrip.minn d a b : Statement (.minn d a b) := by
  intro hw ws he
  obtain rfl := Option.some.inj he
  refine decode_of_raw hw (wordsOf_base (low_rWord ..)) ?_
  simp [rawDecode, raw32, decOp, need]
theorem Laws.RoundTrip.maxn d a b : Statement (.maxn d a b) := by
  intro hw ws he
  obtain rfl := Option.some.inj he
  refine decode_of_raw hw (wordsOf_base (low_rWord ..)) ?_
  simp [rawDecode, raw32, decOp, need]
theorem Laws.RoundTrip.clz d a : Statement (.clz d a) := by
  intro hw ws he
  obtain rfl := Option.some.inj he
  refine decode_of_raw hw (wordsOf_base (low_rWord ..)) ?_
  simp [rawDecode, raw32, decOp, need]
theorem Laws.RoundTrip.ctz d a : Statement (.ctz d a) := by
  intro hw ws he
  obtain rfl := Option.some.inj he
  refine decode_of_raw hw (wordsOf_base (low_rWord ..)) ?_
  simp [rawDecode, raw32, decOp, need]
theorem Laws.RoundTrip.popc d a : Statement (.popc d a) := by
  intro hw ws he
  obtain rfl := Option.some.inj he
  refine decode_of_raw hw (wordsOf_base (low_rWord ..)) ?_
  simp [rawDecode, raw32, decOp, need]
theorem Laws.RoundTrip.sext d a w : Statement (.sext d a w) := by
  intro hw ws he
  obtain rfl := Option.some.inj he
  refine decode_of_raw hw (wordsOf_base (low_rWord ..)) ?_
  simp [rawDecode, raw32, decOp, need]
theorem Laws.RoundTrip.zext d a w : Statement (.zext d a w) := by
  intro hw ws he
  obtain rfl := Option.some.inj he
  refine decode_of_raw hw (wordsOf_base (low_rWord ..)) ?_
  simp [rawDecode, raw32, decOp, need]
theorem Laws.RoundTrip.addi d a i : Statement (.addi d a i) := by
  intro hw ws he
  obtain rfl := Option.some.inj he
  refine decode_of_raw hw (wordsOf_base (low_iWord ..)) ?_
  simp [rawDecode, raw32]
theorem Laws.RoundTrip.andi d a i : Statement (.andi d a i) := by
  intro hw ws he
  obtain rfl := Option.some.inj he
  refine decode_of_raw hw (wordsOf_base (low_iWord ..)) ?_
  simp [rawDecode, raw32]
theorem Laws.RoundTrip.ori d a i : Statement (.ori d a i) := by
  intro hw ws he
  obtain rfl := Option.some.inj he
  refine decode_of_raw hw (wordsOf_base (low_iWord ..)) ?_
  simp [rawDecode, raw32]
theorem Laws.RoundTrip.xori d a i : Statement (.xori d a i) := by
  intro hw ws he
  obtain rfl := Option.some.inj he
  refine decode_of_raw hw (wordsOf_base (low_iWord ..)) ?_
  simp [rawDecode, raw32]
theorem Laws.RoundTrip.slti d a i : Statement (.slti d a i) := by
  intro hw ws he
  obtain rfl := Option.some.inj he
  refine decode_of_raw hw (wordsOf_base (low_iWord ..)) ?_
  simp [rawDecode, raw32]
theorem Laws.RoundTrip.slli d a c : Statement (.slli d a c) := by
  intro hw ws he
  obtain rfl := Option.some.inj he
  refine decode_of_raw hw (wordsOf_base (low_iWord ..)) ?_
  simp [rawDecode, raw32, decShi]
theorem Laws.RoundTrip.srli d a c : Statement (.srli d a c) := by
  intro hw ws he
  obtain rfl := Option.some.inj he
  refine decode_of_raw hw (wordsOf_base (low_iWord ..)) ?_
  simp [rawDecode, raw32, decShi]
theorem Laws.RoundTrip.srai d a c : Statement (.srai d a c) := by
  intro hw ws he
  obtain rfl := Option.some.inj he
  refine decode_of_raw hw (wordsOf_base (low_iWord ..)) ?_
  simp [rawDecode, raw32, decShi]
theorem Laws.RoundTrip.lih d i : Statement (.lih d i) := by
  intro hw ws he
  obtain rfl := Option.some.inj he
  refine decode_of_raw hw (wordsOf_base (low_jWord ..)) ?_
  simp [rawDecode, raw32]
theorem Laws.RoundTrip.addpc d i : Statement (.addpc d i) := by
  intro hw ws he
  obtain rfl := Option.some.inj he
  refine decode_of_raw hw (wordsOf_base (low_jWord ..)) ?_
  simp [rawDecode, raw32]
theorem Laws.RoundTrip.jal d i : Statement (.jal d i) := by
  intro hw ws he
  obtain rfl := Option.some.inj he
  refine decode_of_raw hw (wordsOf_base (low_jWord ..)) ?_
  simp [rawDecode, raw32]
theorem Laws.RoundTrip.jalr d a i : Statement (.jalr d a i) := by
  intro hw ws he
  obtain rfl := Option.some.inj he
  refine decode_of_raw hw (wordsOf_base (low_iWord ..)) ?_
  simp [rawDecode, raw32]
theorem Laws.RoundTrip.beq a b i : Statement (.beq a b i) := by
  intro hw ws he
  obtain rfl := Option.some.inj he
  refine decode_of_raw hw (wordsOf_base (low_sWord ..)) ?_
  simp [rawDecode, raw32]
theorem Laws.RoundTrip.bne a b i : Statement (.bne a b i) := by
  intro hw ws he
  obtain rfl := Option.some.inj he
  refine decode_of_raw hw (wordsOf_base (low_sWord ..)) ?_
  simp [rawDecode, raw32]
theorem Laws.RoundTrip.blt a b i : Statement (.blt a b i) := by
  intro hw ws he
  obtain rfl := Option.some.inj he
  refine decode_of_raw hw (wordsOf_base (low_sWord ..)) ?_
  simp [rawDecode, raw32]
theorem Laws.RoundTrip.bge a b i : Statement (.bge a b i) := by
  intro hw ws he
  obtain rfl := Option.some.inj he
  refine decode_of_raw hw (wordsOf_base (low_sWord ..)) ?_
  simp [rawDecode, raw32]
theorem Laws.RoundTrip.bltn a b i : Statement (.bltn a b i) := by
  intro hw ws he
  obtain rfl := Option.some.inj he
  refine decode_of_raw hw (wordsOf_base (low_sWord ..)) ?_
  simp [rawDecode, raw32]
theorem Laws.RoundTrip.bgen a b i : Statement (.bgen a b i) := by
  intro hw ws he
  obtain rfl := Option.some.inj he
  refine decode_of_raw hw (wordsOf_base (low_sWord ..)) ?_
  simp [rawDecode, raw32]
theorem Laws.RoundTrip.loop a i : Statement (.loop a i) := by
  intro hw ws he
  obtain rfl := Option.some.inj he
  refine decode_of_raw hw (wordsOf_base (low_iWord ..)) ?_
  simp [rawDecode, raw32, need]
theorem Laws.RoundTrip.ldS8 d a i : Statement (.ldS8 d a i) := by
  intro hw ws he
  obtain rfl := Option.some.inj he
  refine decode_of_raw hw (wordsOf_base (low_iWord ..)) ?_
  simp [rawDecode, raw32]
theorem Laws.RoundTrip.ldN8 d a i : Statement (.ldN8 d a i) := by
  intro hw ws he
  obtain rfl := Option.some.inj he
  refine decode_of_raw hw (wordsOf_base (low_iWord ..)) ?_
  simp [rawDecode, raw32]
theorem Laws.RoundTrip.ldS16 d a i : Statement (.ldS16 d a i) := by
  intro hw ws he
  obtain rfl := Option.some.inj he
  refine decode_of_raw hw (wordsOf_base (low_iWord ..)) ?_
  simp [rawDecode, raw32]
theorem Laws.RoundTrip.ldN16 d a i : Statement (.ldN16 d a i) := by
  intro hw ws he
  obtain rfl := Option.some.inj he
  refine decode_of_raw hw (wordsOf_base (low_iWord ..)) ?_
  simp [rawDecode, raw32]
theorem Laws.RoundTrip.ldS32 d a i : Statement (.ldS32 d a i) := by
  intro hw ws he
  obtain rfl := Option.some.inj he
  refine decode_of_raw hw (wordsOf_base (low_iWord ..)) ?_
  simp [rawDecode, raw32]
theorem Laws.RoundTrip.ldN32 d a i : Statement (.ldN32 d a i) := by
  intro hw ws he
  obtain rfl := Option.some.inj he
  refine decode_of_raw hw (wordsOf_base (low_iWord ..)) ?_
  simp [rawDecode, raw32]
theorem Laws.RoundTrip.ld64 d a i : Statement (.ld64 d a i) := by
  intro hw ws he
  obtain rfl := Option.some.inj he
  refine decode_of_raw hw (wordsOf_base (low_iWord ..)) ?_
  simp [rawDecode, raw32]
theorem Laws.RoundTrip.st8 a b i : Statement (.st8 a b i) := by
  intro hw ws he
  obtain rfl := Option.some.inj he
  refine decode_of_raw hw (wordsOf_base (low_sWord ..)) ?_
  simp [rawDecode, raw32]
theorem Laws.RoundTrip.st16 a b i : Statement (.st16 a b i) := by
  intro hw ws he
  obtain rfl := Option.some.inj he
  refine decode_of_raw hw (wordsOf_base (low_sWord ..)) ?_
  simp [rawDecode, raw32]
theorem Laws.RoundTrip.st32 a b i : Statement (.st32 a b i) := by
  intro hw ws he
  obtain rfl := Option.some.inj he
  refine decode_of_raw hw (wordsOf_base (low_sWord ..)) ?_
  simp [rawDecode, raw32]
theorem Laws.RoundTrip.st64 a b i : Statement (.st64 a b i) := by
  intro hw ws he
  obtain rfl := Option.some.inj he
  refine decode_of_raw hw (wordsOf_base (low_sWord ..)) ?_
  simp [rawDecode, raw32]
theorem Laws.RoundTrip.fadd d a b f : Statement (.fadd d a b f) := by
  intro hw ws he
  obtain rfl := Option.some.inj he
  refine decode_of_raw hw (wordsOf_base (low_rWord ..)) ?_
  simp [rawDecode, raw32, decFp, need]
theorem Laws.RoundTrip.fsub d a b f : Statement (.fsub d a b f) := by
  intro hw ws he
  obtain rfl := Option.some.inj he
  refine decode_of_raw hw (wordsOf_base (low_rWord ..)) ?_
  simp [rawDecode, raw32, decFp, need]
theorem Laws.RoundTrip.fmul d a b f : Statement (.fmul d a b f) := by
  intro hw ws he
  obtain rfl := Option.some.inj he
  refine decode_of_raw hw (wordsOf_base (low_rWord ..)) ?_
  simp [rawDecode, raw32, decFp, need]
theorem Laws.RoundTrip.fdiv d a b f : Statement (.fdiv d a b f) := by
  intro hw ws he
  obtain rfl := Option.some.inj he
  refine decode_of_raw hw (wordsOf_base (low_rWord ..)) ?_
  simp [rawDecode, raw32, decFp, need]
theorem Laws.RoundTrip.fsqrt d a f : Statement (.fsqrt d a f) := by
  intro hw ws he
  obtain rfl := Option.some.inj he
  refine decode_of_raw hw (wordsOf_base (low_rWord ..)) ?_
  simp [rawDecode, raw32, decFp, need]
theorem Laws.RoundTrip.fma d a b f : Statement (.fma d a b f) := by
  intro hw ws he
  obtain rfl := Option.some.inj he
  refine decode_of_raw hw (wordsOf_base (low_rWord ..)) ?_
  simp [rawDecode, raw32, decFp, need]
theorem Laws.RoundTrip.fmin d a b f : Statement (.fmin d a b f) := by
  intro hw ws he
  obtain rfl := Option.some.inj he
  refine decode_of_raw hw (wordsOf_base (low_rWord ..)) ?_
  simp [rawDecode, raw32, decFp, need]
theorem Laws.RoundTrip.fmax d a b f : Statement (.fmax d a b f) := by
  intro hw ws he
  obtain rfl := Option.some.inj he
  refine decode_of_raw hw (wordsOf_base (low_rWord ..)) ?_
  simp [rawDecode, raw32, decFp, need]
theorem Laws.RoundTrip.fcmp d a b f c : Statement (.fcmp d a b f c) := by
  intro hw ws he
  obtain rfl := Option.some.inj he
  refine decode_of_raw hw (wordsOf_base (low_rWord ..)) ?_
  simp [rawDecode, raw32, decFp]
theorem Laws.RoundTrip.fclass d a f : Statement (.fclass d a f) := by
  intro hw ws he
  obtain rfl := Option.some.inj he
  refine decode_of_raw hw (wordsOf_base (low_rWord ..)) ?_
  simp [rawDecode, raw32, decFp, need]
theorem Laws.RoundTrip.fcvtToFloat d a b f : Statement (.fcvtToFloat d a b f) := by
  intro hw ws he
  obtain rfl := Option.some.inj he
  refine decode_of_raw hw (wordsOf_base (low_rWord ..)) ?_
  simp [rawDecode, raw32, decFp, need]
theorem Laws.RoundTrip.fcvtToInt d a b f : Statement (.fcvtToInt d a b f) := by
  intro hw ws he
  obtain rfl := Option.some.inj he
  refine decode_of_raw hw (wordsOf_base (low_rWord ..)) ?_
  simp [rawDecode, raw32, decFp, need]
theorem Laws.RoundTrip.csrrw d a c : Statement (.csrrw d a c) := by
  intro hw ws he
  obtain rfl := Option.some.inj he
  refine decode_of_raw hw (wordsOf_base (low_iWord ..)) ?_
  simp [rawDecode, raw32, need]
theorem Laws.RoundTrip.csrrs d a c : Statement (.csrrs d a c) := by
  intro hw ws he
  obtain rfl := Option.some.inj he
  refine decode_of_raw hw (wordsOf_base (low_iWord ..)) ?_
  simp [rawDecode, raw32, need]
theorem Laws.RoundTrip.csrrc d a c : Statement (.csrrc d a c) := by
  intro hw ws he
  obtain rfl := Option.some.inj he
  refine decode_of_raw hw (wordsOf_base (low_iWord ..)) ?_
  simp [rawDecode, raw32, need]
theorem Laws.RoundTrip.trap k : Statement (.trap k) := by
  intro hw ws he
  obtain rfl := Option.some.inj he
  refine decode_of_raw hw (wordsOf_base (low_rWord ..)) ?_
  simp [rawDecode, raw32, decSys, need]
theorem Laws.RoundTrip.brk : Statement (.brk) := by
  intro hw ws he
  obtain rfl := Option.some.inj he
  refine decode_of_raw hw (wordsOf_base (low_rWord ..)) ?_
  simp [rawDecode, raw32, decSys, need]
theorem Laws.RoundTrip.eret : Statement (.eret) := by
  intro hw ws he
  obtain rfl := Option.some.inj he
  refine decode_of_raw hw (wordsOf_base (low_rWord ..)) ?_
  simp [rawDecode, raw32, decSys, need]
theorem Laws.RoundTrip.wfe : Statement (.wfe) := by
  intro hw ws he
  obtain rfl := Option.some.inj he
  refine decode_of_raw hw (wordsOf_base (low_rWord ..)) ?_
  simp [rawDecode, raw32, decSys, need]
theorem Laws.RoundTrip.icsync : Statement (.icsync) := by
  intro hw ws he
  obtain rfl := Option.some.inj he
  refine decode_of_raw hw (wordsOf_base (low_rWord ..)) ?_
  simp [rawDecode, raw32, decSys, need]
theorem Laws.RoundTrip.tlbi a : Statement (.tlbi a) := by
  intro hw ws he
  obtain rfl := Option.some.inj he
  refine decode_of_raw hw (wordsOf_base (low_rWord ..)) ?_
  simp [rawDecode, raw32, decSys, need]
theorem Laws.RoundTrip.tlbiAll : Statement (.tlbiAll) := by
  intro hw ws he
  obtain rfl := Option.some.inj he
  refine decode_of_raw hw (wordsOf_base (low_rWord ..)) ?_
  simp [rawDecode, raw32, decSys, need]
theorem Laws.RoundTrip.savectx a : Statement (.savectx a) := by
  intro hw ws he
  obtain rfl := Option.some.inj he
  refine decode_of_raw hw (wordsOf_base (low_rWord ..)) ?_
  simp [rawDecode, raw32, decSys, need]
theorem Laws.RoundTrip.rstctx d a : Statement (.rstctx d a) := by
  intro hw ws he
  obtain rfl := Option.some.inj he
  refine decode_of_raw hw (wordsOf_base (low_rWord ..)) ?_
  simp [rawDecode, raw32, decSys, need]
theorem Laws.RoundTrip.quiesce d : Statement (.quiesce d) := by
  intro hw ws he
  obtain rfl := Option.some.inj he
  refine decode_of_raw hw (wordsOf_base (low_rWord ..)) ?_
  simp [rawDecode, raw32, decSys, need]
theorem Laws.RoundTrip.retire : Statement (.retire) := by
  intro hw ws he
  obtain rfl := Option.some.inj he
  refine decode_of_raw hw (wordsOf_base (low_rWord ..)) ?_
  simp [rawDecode, raw32, decSys, need]
theorem Laws.RoundTrip.fenceSv s : Statement (.fenceSv s) := by
  intro hw ws he
  obtain rfl := Option.some.inj he
  refine decode_of_raw hw (wordsOf_base (low_rWord ..)) ?_
  simp [rawDecode, raw32, raw32Queue, decFence, need]
theorem Laws.RoundTrip.fenceVs s : Statement (.fenceVs s) := by
  intro hw ws he
  obtain rfl := Option.some.inj he
  refine decode_of_raw hw (wordsOf_base (low_rWord ..)) ?_
  simp [rawDecode, raw32, raw32Queue, decFence, need]
theorem Laws.RoundTrip.fenceVv s : Statement (.fenceVv s) := by
  intro hw ws he
  obtain rfl := Option.some.inj he
  refine decode_of_raw hw (wordsOf_base (low_rWord ..)) ?_
  simp [rawDecode, raw32, raw32Queue, decFence, need]
theorem Laws.RoundTrip.fenceAll s : Statement (.fenceAll s) := by
  intro hw ws he
  obtain rfl := Option.some.inj he
  refine decode_of_raw hw (wordsOf_base (low_rWord ..)) ?_
  simp [rawDecode, raw32, raw32Queue, decFence, need]
theorem Laws.RoundTrip.fenceSys d : Statement (.fenceSys d) := by
  intro hw ws he
  obtain rfl := Option.some.inj he
  refine decode_of_raw hw (wordsOf_base (low_rWord ..)) ?_
  simp [rawDecode, raw32, raw32Queue, decFence, need]
theorem Laws.RoundTrip.amoAddW d a b s q l : Statement (.amoAddW d a b s q l) := by
  intro hw ws he
  obtain rfl := Option.some.inj he
  refine decode_of_raw hw (wordsOf_base (low_rWord ..)) ?_
  simp [rawDecode, raw32, decAmoW]
theorem Laws.RoundTrip.amoAndW d a b s q l : Statement (.amoAndW d a b s q l) := by
  intro hw ws he
  obtain rfl := Option.some.inj he
  refine decode_of_raw hw (wordsOf_base (low_rWord ..)) ?_
  simp [rawDecode, raw32, decAmoW]
theorem Laws.RoundTrip.amoOrW d a b s q l : Statement (.amoOrW d a b s q l) := by
  intro hw ws he
  obtain rfl := Option.some.inj he
  refine decode_of_raw hw (wordsOf_base (low_rWord ..)) ?_
  simp [rawDecode, raw32, decAmoW]
theorem Laws.RoundTrip.amoXorW d a b s q l : Statement (.amoXorW d a b s q l) := by
  intro hw ws he
  obtain rfl := Option.some.inj he
  refine decode_of_raw hw (wordsOf_base (low_rWord ..)) ?_
  simp [rawDecode, raw32, decAmoW]
theorem Laws.RoundTrip.amoMinW d a b s q l : Statement (.amoMinW d a b s q l) := by
  intro hw ws he
  obtain rfl := Option.some.inj he
  refine decode_of_raw hw (wordsOf_base (low_rWord ..)) ?_
  simp [rawDecode, raw32, decAmoW]
theorem Laws.RoundTrip.amoMaxW d a b s q l : Statement (.amoMaxW d a b s q l) := by
  intro hw ws he
  obtain rfl := Option.some.inj he
  refine decode_of_raw hw (wordsOf_base (low_rWord ..)) ?_
  simp [rawDecode, raw32, decAmoW]
theorem Laws.RoundTrip.amoMinnW d a b s q l : Statement (.amoMinnW d a b s q l) := by
  intro hw ws he
  obtain rfl := Option.some.inj he
  refine decode_of_raw hw (wordsOf_base (low_rWord ..)) ?_
  simp [rawDecode, raw32, decAmoW]
theorem Laws.RoundTrip.amoMaxnW d a b s q l : Statement (.amoMaxnW d a b s q l) := by
  intro hw ws he
  obtain rfl := Option.some.inj he
  refine decode_of_raw hw (wordsOf_base (low_rWord ..)) ?_
  simp [rawDecode, raw32, decAmoW]
theorem Laws.RoundTrip.amoSwapW d a b s q l : Statement (.amoSwapW d a b s q l) := by
  intro hw ws he
  obtain rfl := Option.some.inj he
  refine decode_of_raw hw (wordsOf_base (low_rWord ..)) ?_
  simp [rawDecode, raw32, decAmoW]
theorem Laws.RoundTrip.amoCasW d a b s q l : Statement (.amoCasW d a b s q l) := by
  intro hw ws he
  obtain rfl := Option.some.inj he
  refine decode_of_raw hw (wordsOf_base (low_rWord ..)) ?_
  simp [rawDecode, raw32, decAmoW]
theorem Laws.RoundTrip.amoAddD d a b s q l : Statement (.amoAddD d a b s q l) := by
  intro hw ws he
  obtain rfl := Option.some.inj he
  refine decode_of_raw hw (wordsOf_base (low_rWord ..)) ?_
  simp [rawDecode, raw32, decAmoD]
theorem Laws.RoundTrip.amoAndD d a b s q l : Statement (.amoAndD d a b s q l) := by
  intro hw ws he
  obtain rfl := Option.some.inj he
  refine decode_of_raw hw (wordsOf_base (low_rWord ..)) ?_
  simp [rawDecode, raw32, decAmoD]
theorem Laws.RoundTrip.amoOrD d a b s q l : Statement (.amoOrD d a b s q l) := by
  intro hw ws he
  obtain rfl := Option.some.inj he
  refine decode_of_raw hw (wordsOf_base (low_rWord ..)) ?_
  simp [rawDecode, raw32, decAmoD]
theorem Laws.RoundTrip.amoXorD d a b s q l : Statement (.amoXorD d a b s q l) := by
  intro hw ws he
  obtain rfl := Option.some.inj he
  refine decode_of_raw hw (wordsOf_base (low_rWord ..)) ?_
  simp [rawDecode, raw32, decAmoD]
theorem Laws.RoundTrip.amoMinD d a b s q l : Statement (.amoMinD d a b s q l) := by
  intro hw ws he
  obtain rfl := Option.some.inj he
  refine decode_of_raw hw (wordsOf_base (low_rWord ..)) ?_
  simp [rawDecode, raw32, decAmoD]
theorem Laws.RoundTrip.amoMaxD d a b s q l : Statement (.amoMaxD d a b s q l) := by
  intro hw ws he
  obtain rfl := Option.some.inj he
  refine decode_of_raw hw (wordsOf_base (low_rWord ..)) ?_
  simp [rawDecode, raw32, decAmoD]
theorem Laws.RoundTrip.amoMinnD d a b s q l : Statement (.amoMinnD d a b s q l) := by
  intro hw ws he
  obtain rfl := Option.some.inj he
  refine decode_of_raw hw (wordsOf_base (low_rWord ..)) ?_
  simp [rawDecode, raw32, decAmoD]
theorem Laws.RoundTrip.amoMaxnD d a b s q l : Statement (.amoMaxnD d a b s q l) := by
  intro hw ws he
  obtain rfl := Option.some.inj he
  refine decode_of_raw hw (wordsOf_base (low_rWord ..)) ?_
  simp [rawDecode, raw32, decAmoD]
theorem Laws.RoundTrip.amoSwapD d a b s q l : Statement (.amoSwapD d a b s q l) := by
  intro hw ws he
  obtain rfl := Option.some.inj he
  refine decode_of_raw hw (wordsOf_base (low_rWord ..)) ?_
  simp [rawDecode, raw32, decAmoD]
theorem Laws.RoundTrip.amoCasD d a b s q l : Statement (.amoCasD d a b s q l) := by
  intro hw ws he
  obtain rfl := Option.some.inj he
  refine decode_of_raw hw (wordsOf_base (low_rWord ..)) ?_
  simp [rawDecode, raw32, decAmoD]
theorem Laws.RoundTrip.vsetlT d a t : Statement (.vsetlT d a t) := by
  intro hw ws he
  obtain rfl := Option.some.inj he
  refine decode_of_raw hw (wordsOf_base (low_iWord ..)) ?_
  simp [rawDecode, raw32, decVsetl]
theorem Laws.RoundTrip.vsetl d a : Statement (.vsetl d a) := by
  intro hw ws he
  obtain rfl := Option.some.inj he
  refine decode_of_raw hw (wordsOf_base (low_iWord ..)) ?_
  simp [rawDecode, raw32, decVsetl, need]
theorem Laws.RoundTrip.vcfg b n : Statement (.vcfg b n) := by
  intro hw ws he
  obtain rfl := Option.some.inj he
  refine decode_of_raw hw (wordsOf_base (low_rWord ..)) ?_
  simp [-Nat.reduceAdd, rawDecode, raw32, decVconf, need]
theorem Laws.RoundTrip.vsett d a b : Statement (.vsett d a b) := by
  intro hw ws he
  obtain rfl := Option.some.inj he
  refine decode_of_raw hw (wordsOf_base (low_rWord ..)) ?_
  simp [rawDecode, raw32, decVconf, need]
theorem Laws.RoundTrip.vadd d a b m : Statement (.vadd d a b m) := by
  intro hw ws he
  obtain rfl := Option.some.inj he
  refine decode_of_raw hw (wordsOf_base (low_rWord ..)) ?_
  simp [rawDecode, raw32, raw32Queue, decVint]
theorem Laws.RoundTrip.vsub d a b m : Statement (.vsub d a b m) := by
  intro hw ws he
  obtain rfl := Option.some.inj he
  refine decode_of_raw hw (wordsOf_base (low_rWord ..)) ?_
  simp [rawDecode, raw32, raw32Queue, decVint]
theorem Laws.RoundTrip.vmul d a b m : Statement (.vmul d a b m) := by
  intro hw ws he
  obtain rfl := Option.some.inj he
  refine decode_of_raw hw (wordsOf_base (low_rWord ..)) ?_
  simp [rawDecode, raw32, raw32Queue, decVint]
theorem Laws.RoundTrip.vmulh d a b m : Statement (.vmulh d a b m) := by
  intro hw ws he
  obtain rfl := Option.some.inj he
  refine decode_of_raw hw (wordsOf_base (low_rWord ..)) ?_
  simp [rawDecode, raw32, raw32Queue, decVint]
theorem Laws.RoundTrip.vmacc d a b m : Statement (.vmacc d a b m) := by
  intro hw ws he
  obtain rfl := Option.some.inj he
  refine decode_of_raw hw (wordsOf_base (low_rWord ..)) ?_
  simp [rawDecode, raw32, raw32Queue, decVint]
theorem Laws.RoundTrip.vdiv d a b m : Statement (.vdiv d a b m) := by
  intro hw ws he
  obtain rfl := Option.some.inj he
  refine decode_of_raw hw (wordsOf_base (low_rWord ..)) ?_
  simp [rawDecode, raw32, raw32Queue, decVint]
theorem Laws.RoundTrip.vrem d a b m : Statement (.vrem d a b m) := by
  intro hw ws he
  obtain rfl := Option.some.inj he
  refine decode_of_raw hw (wordsOf_base (low_rWord ..)) ?_
  simp [rawDecode, raw32, raw32Queue, decVint]
theorem Laws.RoundTrip.vmin d a b m : Statement (.vmin d a b m) := by
  intro hw ws he
  obtain rfl := Option.some.inj he
  refine decode_of_raw hw (wordsOf_base (low_rWord ..)) ?_
  simp [rawDecode, raw32, raw32Queue, decVint]
theorem Laws.RoundTrip.vmax d a b m : Statement (.vmax d a b m) := by
  intro hw ws he
  obtain rfl := Option.some.inj he
  refine decode_of_raw hw (wordsOf_base (low_rWord ..)) ?_
  simp [rawDecode, raw32, raw32Queue, decVint]
theorem Laws.RoundTrip.vand d a b m : Statement (.vand d a b m) := by
  intro hw ws he
  obtain rfl := Option.some.inj he
  refine decode_of_raw hw (wordsOf_base (low_rWord ..)) ?_
  simp [rawDecode, raw32, raw32Queue, decVint]
theorem Laws.RoundTrip.vor d a b m : Statement (.vor d a b m) := by
  intro hw ws he
  obtain rfl := Option.some.inj he
  refine decode_of_raw hw (wordsOf_base (low_rWord ..)) ?_
  simp [rawDecode, raw32, raw32Queue, decVint]
theorem Laws.RoundTrip.vxor d a b m : Statement (.vxor d a b m) := by
  intro hw ws he
  obtain rfl := Option.some.inj he
  refine decode_of_raw hw (wordsOf_base (low_rWord ..)) ?_
  simp [rawDecode, raw32, raw32Queue, decVint]
theorem Laws.RoundTrip.vsll d a b m : Statement (.vsll d a b m) := by
  intro hw ws he
  obtain rfl := Option.some.inj he
  refine decode_of_raw hw (wordsOf_base (low_rWord ..)) ?_
  simp [rawDecode, raw32, raw32Queue, decVint]
theorem Laws.RoundTrip.vsrl d a b m : Statement (.vsrl d a b m) := by
  intro hw ws he
  obtain rfl := Option.some.inj he
  refine decode_of_raw hw (wordsOf_base (low_rWord ..)) ?_
  simp [rawDecode, raw32, raw32Queue, decVint]
theorem Laws.RoundTrip.vsra d a b m : Statement (.vsra d a b m) := by
  intro hw ws he
  obtain rfl := Option.some.inj he
  refine decode_of_raw hw (wordsOf_base (low_rWord ..)) ?_
  simp [rawDecode, raw32, raw32Queue, decVint]
theorem Laws.RoundTrip.vadds d a b m : Statement (.vadds d a b m) := by
  intro hw ws he
  obtain rfl := Option.some.inj he
  refine decode_of_raw hw (wordsOf_base (low_rWord ..)) ?_
  simp [rawDecode, raw32, raw32Queue, decVint]
theorem Laws.RoundTrip.vsubs d a b m : Statement (.vsubs d a b m) := by
  intro hw ws he
  obtain rfl := Option.some.inj he
  refine decode_of_raw hw (wordsOf_base (low_rWord ..)) ?_
  simp [rawDecode, raw32, raw32Queue, decVint]
theorem Laws.RoundTrip.vadc d a b m : Statement (.vadc d a b m) := by
  intro hw ws he
  obtain rfl := Option.some.inj he
  refine decode_of_raw hw (wordsOf_base (low_rWord ..)) ?_
  simp [rawDecode, raw32, raw32Queue, decVint]
theorem Laws.RoundTrip.vsbc d a b m : Statement (.vsbc d a b m) := by
  intro hw ws he
  obtain rfl := Option.some.inj he
  refine decode_of_raw hw (wordsOf_base (low_rWord ..)) ?_
  simp [rawDecode, raw32, raw32Queue, decVint]
theorem Laws.RoundTrip.vmerge d a b m : Statement (.vmerge d a b m) := by
  intro hw ws he
  obtain rfl := Option.some.inj he
  refine decode_of_raw hw (wordsOf_base (low_rWord ..)) ?_
  simp [rawDecode, raw32, raw32Queue, decVint]
theorem Laws.RoundTrip.vaddX d a b m : Statement (.vaddX d a b m) := by
  intro hw ws he
  obtain rfl := Option.some.inj he
  refine decode_of_raw hw (wordsOf_base (low_rWord ..)) ?_
  simp [rawDecode, raw32, raw32Queue, decVintx]
theorem Laws.RoundTrip.vsubX d a b m : Statement (.vsubX d a b m) := by
  intro hw ws he
  obtain rfl := Option.some.inj he
  refine decode_of_raw hw (wordsOf_base (low_rWord ..)) ?_
  simp [rawDecode, raw32, raw32Queue, decVintx]
theorem Laws.RoundTrip.vmulX d a b m : Statement (.vmulX d a b m) := by
  intro hw ws he
  obtain rfl := Option.some.inj he
  refine decode_of_raw hw (wordsOf_base (low_rWord ..)) ?_
  simp [rawDecode, raw32, raw32Queue, decVintx]
theorem Laws.RoundTrip.vmulhX d a b m : Statement (.vmulhX d a b m) := by
  intro hw ws he
  obtain rfl := Option.some.inj he
  refine decode_of_raw hw (wordsOf_base (low_rWord ..)) ?_
  simp [rawDecode, raw32, raw32Queue, decVintx]
theorem Laws.RoundTrip.vmaccX d a b m : Statement (.vmaccX d a b m) := by
  intro hw ws he
  obtain rfl := Option.some.inj he
  refine decode_of_raw hw (wordsOf_base (low_rWord ..)) ?_
  simp [rawDecode, raw32, raw32Queue, decVintx]
theorem Laws.RoundTrip.vdivX d a b m : Statement (.vdivX d a b m) := by
  intro hw ws he
  obtain rfl := Option.some.inj he
  refine decode_of_raw hw (wordsOf_base (low_rWord ..)) ?_
  simp [rawDecode, raw32, raw32Queue, decVintx]
theorem Laws.RoundTrip.vremX d a b m : Statement (.vremX d a b m) := by
  intro hw ws he
  obtain rfl := Option.some.inj he
  refine decode_of_raw hw (wordsOf_base (low_rWord ..)) ?_
  simp [rawDecode, raw32, raw32Queue, decVintx]
theorem Laws.RoundTrip.vminX d a b m : Statement (.vminX d a b m) := by
  intro hw ws he
  obtain rfl := Option.some.inj he
  refine decode_of_raw hw (wordsOf_base (low_rWord ..)) ?_
  simp [rawDecode, raw32, raw32Queue, decVintx]
theorem Laws.RoundTrip.vmaxX d a b m : Statement (.vmaxX d a b m) := by
  intro hw ws he
  obtain rfl := Option.some.inj he
  refine decode_of_raw hw (wordsOf_base (low_rWord ..)) ?_
  simp [rawDecode, raw32, raw32Queue, decVintx]
theorem Laws.RoundTrip.vandX d a b m : Statement (.vandX d a b m) := by
  intro hw ws he
  obtain rfl := Option.some.inj he
  refine decode_of_raw hw (wordsOf_base (low_rWord ..)) ?_
  simp [rawDecode, raw32, raw32Queue, decVintx]
theorem Laws.RoundTrip.vorX d a b m : Statement (.vorX d a b m) := by
  intro hw ws he
  obtain rfl := Option.some.inj he
  refine decode_of_raw hw (wordsOf_base (low_rWord ..)) ?_
  simp [rawDecode, raw32, raw32Queue, decVintx]
theorem Laws.RoundTrip.vxorX d a b m : Statement (.vxorX d a b m) := by
  intro hw ws he
  obtain rfl := Option.some.inj he
  refine decode_of_raw hw (wordsOf_base (low_rWord ..)) ?_
  simp [rawDecode, raw32, raw32Queue, decVintx]
theorem Laws.RoundTrip.vsllX d a b m : Statement (.vsllX d a b m) := by
  intro hw ws he
  obtain rfl := Option.some.inj he
  refine decode_of_raw hw (wordsOf_base (low_rWord ..)) ?_
  simp [rawDecode, raw32, raw32Queue, decVintx]
theorem Laws.RoundTrip.vsrlX d a b m : Statement (.vsrlX d a b m) := by
  intro hw ws he
  obtain rfl := Option.some.inj he
  refine decode_of_raw hw (wordsOf_base (low_rWord ..)) ?_
  simp [rawDecode, raw32, raw32Queue, decVintx]
theorem Laws.RoundTrip.vsraX d a b m : Statement (.vsraX d a b m) := by
  intro hw ws he
  obtain rfl := Option.some.inj he
  refine decode_of_raw hw (wordsOf_base (low_rWord ..)) ?_
  simp [rawDecode, raw32, raw32Queue, decVintx]
theorem Laws.RoundTrip.vaddsX d a b m : Statement (.vaddsX d a b m) := by
  intro hw ws he
  obtain rfl := Option.some.inj he
  refine decode_of_raw hw (wordsOf_base (low_rWord ..)) ?_
  simp [rawDecode, raw32, raw32Queue, decVintx]
theorem Laws.RoundTrip.vsubsX d a b m : Statement (.vsubsX d a b m) := by
  intro hw ws he
  obtain rfl := Option.some.inj he
  refine decode_of_raw hw (wordsOf_base (low_rWord ..)) ?_
  simp [rawDecode, raw32, raw32Queue, decVintx]
theorem Laws.RoundTrip.vadcX d a b m : Statement (.vadcX d a b m) := by
  intro hw ws he
  obtain rfl := Option.some.inj he
  refine decode_of_raw hw (wordsOf_base (low_rWord ..)) ?_
  simp [rawDecode, raw32, raw32Queue, decVintx]
theorem Laws.RoundTrip.vsbcX d a b m : Statement (.vsbcX d a b m) := by
  intro hw ws he
  obtain rfl := Option.some.inj he
  refine decode_of_raw hw (wordsOf_base (low_rWord ..)) ?_
  simp [rawDecode, raw32, raw32Queue, decVintx]
theorem Laws.RoundTrip.vmergeX d a b m : Statement (.vmergeX d a b m) := by
  intro hw ws he
  obtain rfl := Option.some.inj he
  refine decode_of_raw hw (wordsOf_base (low_rWord ..)) ?_
  simp [rawDecode, raw32, raw32Queue, decVintx]
theorem Laws.RoundTrip.vcmpeq d a b m : Statement (.vcmpeq d a b m) := by
  intro hw ws he
  obtain rfl := Option.some.inj he
  refine decode_of_raw hw (wordsOf_base (low_rWord ..)) ?_
  simp [rawDecode, raw32, raw32Queue, decVcmp]
theorem Laws.RoundTrip.vcmpne d a b m : Statement (.vcmpne d a b m) := by
  intro hw ws he
  obtain rfl := Option.some.inj he
  refine decode_of_raw hw (wordsOf_base (low_rWord ..)) ?_
  simp [rawDecode, raw32, raw32Queue, decVcmp]
theorem Laws.RoundTrip.vcmplt d a b m : Statement (.vcmplt d a b m) := by
  intro hw ws he
  obtain rfl := Option.some.inj he
  refine decode_of_raw hw (wordsOf_base (low_rWord ..)) ?_
  simp [rawDecode, raw32, raw32Queue, decVcmp]
theorem Laws.RoundTrip.vcmple d a b m : Statement (.vcmple d a b m) := by
  intro hw ws he
  obtain rfl := Option.some.inj he
  refine decode_of_raw hw (wordsOf_base (low_rWord ..)) ?_
  simp [rawDecode, raw32, raw32Queue, decVcmp]
theorem Laws.RoundTrip.vcmpgt d a b m : Statement (.vcmpgt d a b m) := by
  intro hw ws he
  obtain rfl := Option.some.inj he
  refine decode_of_raw hw (wordsOf_base (low_rWord ..)) ?_
  simp [rawDecode, raw32, raw32Queue, decVcmp]
theorem Laws.RoundTrip.vcmpge d a b m : Statement (.vcmpge d a b m) := by
  intro hw ws he
  obtain rfl := Option.some.inj he
  refine decode_of_raw hw (wordsOf_base (low_rWord ..)) ?_
  simp [rawDecode, raw32, raw32Queue, decVcmp]
theorem Laws.RoundTrip.vfcmpeq d a b m : Statement (.vfcmpeq d a b m) := by
  intro hw ws he
  obtain rfl := Option.some.inj he
  refine decode_of_raw hw (wordsOf_base (low_rWord ..)) ?_
  simp [rawDecode, raw32, raw32Queue, decVcmp]
theorem Laws.RoundTrip.vfcmplt d a b m : Statement (.vfcmplt d a b m) := by
  intro hw ws he
  obtain rfl := Option.some.inj he
  refine decode_of_raw hw (wordsOf_base (low_rWord ..)) ?_
  simp [rawDecode, raw32, raw32Queue, decVcmp]
theorem Laws.RoundTrip.vfcmple d a b m : Statement (.vfcmple d a b m) := by
  intro hw ws he
  obtain rfl := Option.some.inj he
  refine decode_of_raw hw (wordsOf_base (low_rWord ..)) ?_
  simp [rawDecode, raw32, raw32Queue, decVcmp]
theorem Laws.RoundTrip.vfcmpne d a b m : Statement (.vfcmpne d a b m) := by
  intro hw ws he
  obtain rfl := Option.some.inj he
  refine decode_of_raw hw (wordsOf_base (low_rWord ..)) ?_
  simp [rawDecode, raw32, raw32Queue, decVcmp]
theorem Laws.RoundTrip.vfcmpun d a b m : Statement (.vfcmpun d a b m) := by
  intro hw ws he
  obtain rfl := Option.some.inj he
  refine decode_of_raw hw (wordsOf_base (low_rWord ..)) ?_
  simp [rawDecode, raw32, raw32Queue, decVcmp]
theorem Laws.RoundTrip.vfadd d a b m : Statement (.vfadd d a b m) := by
  intro hw ws he
  obtain rfl := Option.some.inj he
  refine decode_of_raw hw (wordsOf_base (low_rWord ..)) ?_
  simp [rawDecode, raw32, raw32Queue, decVfp]
theorem Laws.RoundTrip.vfsub d a b m : Statement (.vfsub d a b m) := by
  intro hw ws he
  obtain rfl := Option.some.inj he
  refine decode_of_raw hw (wordsOf_base (low_rWord ..)) ?_
  simp [rawDecode, raw32, raw32Queue, decVfp]
theorem Laws.RoundTrip.vfmul d a b m : Statement (.vfmul d a b m) := by
  intro hw ws he
  obtain rfl := Option.some.inj he
  refine decode_of_raw hw (wordsOf_base (low_rWord ..)) ?_
  simp [rawDecode, raw32, raw32Queue, decVfp]
theorem Laws.RoundTrip.vfma d a b m : Statement (.vfma d a b m) := by
  intro hw ws he
  obtain rfl := Option.some.inj he
  refine decode_of_raw hw (wordsOf_base (low_rWord ..)) ?_
  simp [rawDecode, raw32, raw32Queue, decVfp]
theorem Laws.RoundTrip.vfdiv d a b m : Statement (.vfdiv d a b m) := by
  intro hw ws he
  obtain rfl := Option.some.inj he
  refine decode_of_raw hw (wordsOf_base (low_rWord ..)) ?_
  simp [rawDecode, raw32, raw32Queue, decVfp]
theorem Laws.RoundTrip.vfsqrt d a m : Statement (.vfsqrt d a m) := by
  intro hw ws he
  obtain rfl := Option.some.inj he
  refine decode_of_raw hw (wordsOf_base (low_rWord ..)) ?_
  simp [rawDecode, raw32, raw32Queue, decVfp, need]
theorem Laws.RoundTrip.vfmin d a b m : Statement (.vfmin d a b m) := by
  intro hw ws he
  obtain rfl := Option.some.inj he
  refine decode_of_raw hw (wordsOf_base (low_rWord ..)) ?_
  simp [rawDecode, raw32, raw32Queue, decVfp]
theorem Laws.RoundTrip.vfmax d a b m : Statement (.vfmax d a b m) := by
  intro hw ws he
  obtain rfl := Option.some.inj he
  refine decode_of_raw hw (wordsOf_base (low_rWord ..)) ?_
  simp [rawDecode, raw32, raw32Queue, decVfp]
theorem Laws.RoundTrip.vfcvt d a m k : Statement (.vfcvt d a m k) := by
  intro hw ws he
  obtain rfl := Option.some.inj he
  refine decode_of_raw hw (wordsOf_base (low_rWord ..)) ?_
  simp [rawDecode, raw32, raw32Queue, decVfp]
theorem Laws.RoundTrip.vfrcp d a m : Statement (.vfrcp d a m) := by
  intro hw ws he
  obtain rfl := Option.some.inj he
  refine decode_of_raw hw (wordsOf_base (low_rWord ..)) ?_
  simp [rawDecode, raw32, raw32Queue, decVfp, need]
theorem Laws.RoundTrip.vfrsq d a m : Statement (.vfrsq d a m) := by
  intro hw ws he
  obtain rfl := Option.some.inj he
  refine decode_of_raw hw (wordsOf_base (low_rWord ..)) ?_
  simp [rawDecode, raw32, raw32Queue, decVfp, need]
theorem Laws.RoundTrip.vfexp2 d a m : Statement (.vfexp2 d a m) := by
  intro hw ws he
  obtain rfl := Option.some.inj he
  refine decode_of_raw hw (wordsOf_base (low_rWord ..)) ?_
  simp [rawDecode, raw32, raw32Queue, decVfp, need]
theorem Laws.RoundTrip.vflog2 d a m : Statement (.vflog2 d a m) := by
  intro hw ws he
  obtain rfl := Option.some.inj he
  refine decode_of_raw hw (wordsOf_base (low_rWord ..)) ?_
  simp [rawDecode, raw32, raw32Queue, decVfp, need]
theorem Laws.RoundTrip.vftanh d a m : Statement (.vftanh d a m) := by
  intro hw ws he
  obtain rfl := Option.some.inj he
  refine decode_of_raw hw (wordsOf_base (low_rWord ..)) ?_
  simp [rawDecode, raw32, raw32Queue, decVfp, need]
theorem Laws.RoundTrip.vfaddX d a b m : Statement (.vfaddX d a b m) := by
  intro hw ws he
  obtain rfl := Option.some.inj he
  refine decode_of_raw hw (wordsOf_base (low_rWord ..)) ?_
  simp [rawDecode, raw32, raw32Queue, decVfpx]
theorem Laws.RoundTrip.vfsubX d a b m : Statement (.vfsubX d a b m) := by
  intro hw ws he
  obtain rfl := Option.some.inj he
  refine decode_of_raw hw (wordsOf_base (low_rWord ..)) ?_
  simp [rawDecode, raw32, raw32Queue, decVfpx]
theorem Laws.RoundTrip.vfmulX d a b m : Statement (.vfmulX d a b m) := by
  intro hw ws he
  obtain rfl := Option.some.inj he
  refine decode_of_raw hw (wordsOf_base (low_rWord ..)) ?_
  simp [rawDecode, raw32, raw32Queue, decVfpx]
theorem Laws.RoundTrip.vfmaX d a b m : Statement (.vfmaX d a b m) := by
  intro hw ws he
  obtain rfl := Option.some.inj he
  refine decode_of_raw hw (wordsOf_base (low_rWord ..)) ?_
  simp [rawDecode, raw32, raw32Queue, decVfpx]
theorem Laws.RoundTrip.vfminX d a b m : Statement (.vfminX d a b m) := by
  intro hw ws he
  obtain rfl := Option.some.inj he
  refine decode_of_raw hw (wordsOf_base (low_rWord ..)) ?_
  simp [rawDecode, raw32, raw32Queue, decVfpx]
theorem Laws.RoundTrip.vfmaxX d a b m : Statement (.vfmaxX d a b m) := by
  intro hw ws he
  obtain rfl := Option.some.inj he
  refine decode_of_raw hw (wordsOf_base (low_rWord ..)) ?_
  simp [rawDecode, raw32, raw32Queue, decVfpx]
theorem Laws.RoundTrip.vmv d a m : Statement (.vmv d a m) := by
  intro hw ws he
  obtain rfl := Option.some.inj he
  refine decode_of_raw hw (wordsOf_base (low_rWord ..)) ?_
  simp [rawDecode, raw32, raw32Queue, decVperm, need]
theorem Laws.RoundTrip.vmvFromScalar d a m : Statement (.vmvFromScalar d a m) := by
  intro hw ws he
  obtain rfl := Option.some.inj he
  refine decode_of_raw hw (wordsOf_base (low_rWord ..)) ?_
  simp [rawDecode, raw32, raw32Queue, decVperm, need]
theorem Laws.RoundTrip.vslideup d a b m : Statement (.vslideup d a b m) := by
  intro hw ws he
  obtain rfl := Option.some.inj he
  refine decode_of_raw hw (wordsOf_base (low_rWord ..)) ?_
  simp [rawDecode, raw32, raw32Queue, decVperm]
theorem Laws.RoundTrip.vslidedn d a b m : Statement (.vslidedn d a b m) := by
  intro hw ws he
  obtain rfl := Option.some.inj he
  refine decode_of_raw hw (wordsOf_base (low_rWord ..)) ?_
  simp [rawDecode, raw32, raw32Queue, decVperm]
theorem Laws.RoundTrip.vperm d a b m : Statement (.vperm d a b m) := by
  intro hw ws he
  obtain rfl := Option.some.inj he
  refine decode_of_raw hw (wordsOf_base (low_rWord ..)) ?_
  simp [rawDecode, raw32, raw32Queue, decVperm]
theorem Laws.RoundTrip.vcompress d a b : Statement (.vcompress d a b) := by
  intro hw ws he
  obtain rfl := Option.some.inj he
  refine decode_of_raw hw (wordsOf_base (low_rWord ..)) ?_
  simp [rawDecode, raw32, raw32Queue, decVperm, need]
theorem Laws.RoundTrip.viota d a m : Statement (.viota d a m) := by
  intro hw ws he
  obtain rfl := Option.some.inj he
  refine decode_of_raw hw (wordsOf_base (low_rWord ..)) ?_
  simp [rawDecode, raw32, raw32Queue, decVperm, need]
theorem Laws.RoundTrip.vid d m : Statement (.vid d m) := by
  intro hw ws he
  obtain rfl := Option.some.inj he
  refine decode_of_raw hw (wordsOf_base (low_rWord ..)) ?_
  simp [rawDecode, raw32, raw32Queue, decVperm, need]
theorem Laws.RoundTrip.vmvToScale d a : Statement (.vmvToScale d a) := by
  intro hw ws he
  obtain rfl := Option.some.inj he
  refine decode_of_raw hw (wordsOf_base (low_rWord ..)) ?_
  simp [rawDecode, raw32, raw32Queue, decVperm, need]
theorem Laws.RoundTrip.vmvFromScale d a : Statement (.vmvFromScale d a) := by
  intro hw ws he
  obtain rfl := Option.some.inj he
  refine decode_of_raw hw (wordsOf_base (low_rWord ..)) ?_
  simp [rawDecode, raw32, raw32Queue, decVperm, need]
theorem Laws.RoundTrip.vredAdd d a b m : Statement (.vredAdd d a b m) := by
  intro hw ws he
  obtain rfl := Option.some.inj he
  refine decode_of_raw hw (wordsOf_base (low_rWord ..)) ?_
  simp [rawDecode, raw32, raw32Queue, decVred]
theorem Laws.RoundTrip.vredAnd d a b m : Statement (.vredAnd d a b m) := by
  intro hw ws he
  obtain rfl := Option.some.inj he
  refine decode_of_raw hw (wordsOf_base (low_rWord ..)) ?_
  simp [rawDecode, raw32, raw32Queue, decVred]
theorem Laws.RoundTrip.vredOr d a b m : Statement (.vredOr d a b m) := by
  intro hw ws he
  obtain rfl := Option.some.inj he
  refine decode_of_raw hw (wordsOf_base (low_rWord ..)) ?_
  simp [rawDecode, raw32, raw32Queue, decVred]
theorem Laws.RoundTrip.vredXor d a b m : Statement (.vredXor d a b m) := by
  intro hw ws he
  obtain rfl := Option.some.inj he
  refine decode_of_raw hw (wordsOf_base (low_rWord ..)) ?_
  simp [rawDecode, raw32, raw32Queue, decVred]
theorem Laws.RoundTrip.vredMin d a b m : Statement (.vredMin d a b m) := by
  intro hw ws he
  obtain rfl := Option.some.inj he
  refine decode_of_raw hw (wordsOf_base (low_rWord ..)) ?_
  simp [rawDecode, raw32, raw32Queue, decVred]
theorem Laws.RoundTrip.vredMax d a b m : Statement (.vredMax d a b m) := by
  intro hw ws he
  obtain rfl := Option.some.inj he
  refine decode_of_raw hw (wordsOf_base (low_rWord ..)) ?_
  simp [rawDecode, raw32, raw32Queue, decVred]
theorem Laws.RoundTrip.vfredo d a b m : Statement (.vfredo d a b m) := by
  intro hw ws he
  obtain rfl := Option.some.inj he
  refine decode_of_raw hw (wordsOf_base (low_rWord ..)) ?_
  simp [rawDecode, raw32, raw32Queue, decVred]
theorem Laws.RoundTrip.vfredt d a b m : Statement (.vfredt d a b m) := by
  intro hw ws he
  obtain rfl := Option.some.inj he
  refine decode_of_raw hw (wordsOf_base (low_rWord ..)) ?_
  simp [rawDecode, raw32, raw32Queue, decVred]
theorem Laws.RoundTrip.mand d a b : Statement (.mand d a b) := by
  intro hw ws he
  obtain rfl := Option.some.inj he
  refine decode_of_raw hw (wordsOf_base (low_rWord ..)) ?_
  simp [rawDecode, raw32, raw32Queue, decMask, need]
theorem Laws.RoundTrip.mor d a b : Statement (.mor d a b) := by
  intro hw ws he
  obtain rfl := Option.some.inj he
  refine decode_of_raw hw (wordsOf_base (low_rWord ..)) ?_
  simp [rawDecode, raw32, raw32Queue, decMask, need]
theorem Laws.RoundTrip.mxor d a b : Statement (.mxor d a b) := by
  intro hw ws he
  obtain rfl := Option.some.inj he
  refine decode_of_raw hw (wordsOf_base (low_rWord ..)) ?_
  simp [rawDecode, raw32, raw32Queue, decMask, need]
theorem Laws.RoundTrip.mandn d a b : Statement (.mandn d a b) := by
  intro hw ws he
  obtain rfl := Option.some.inj he
  refine decode_of_raw hw (wordsOf_base (low_rWord ..)) ?_
  simp [rawDecode, raw32, raw32Queue, decMask, need]
theorem Laws.RoundTrip.mnot d a : Statement (.mnot d a) := by
  intro hw ws he
  obtain rfl := Option.some.inj he
  refine decode_of_raw hw (wordsOf_base (low_rWord ..)) ?_
  simp [rawDecode, raw32, raw32Queue, decMask, need]
theorem Laws.RoundTrip.mwhile d a : Statement (.mwhile d a) := by
  intro hw ws he
  obtain rfl := Option.some.inj he
  refine decode_of_raw hw (wordsOf_base (low_rWord ..)) ?_
  simp [rawDecode, raw32, raw32Queue, decMask, need]
theorem Laws.RoundTrip.mpop d a : Statement (.mpop d a) := by
  intro hw ws he
  obtain rfl := Option.some.inj he
  refine decode_of_raw hw (wordsOf_base (low_rWord ..)) ?_
  simp [rawDecode, raw32, raw32Queue, decMask, need]
theorem Laws.RoundTrip.mpopVl d a : Statement (.mpopVl d a) := by
  intro hw ws he
  obtain rfl := Option.some.inj he
  refine decode_of_raw hw (wordsOf_base (low_rWord ..)) ?_
  simp [rawDecode, raw32, raw32Queue, decMask, need]
theorem Laws.RoundTrip.mfirst d a : Statement (.mfirst d a) := by
  intro hw ws he
  obtain rfl := Option.some.inj he
  refine decode_of_raw hw (wordsOf_base (low_rWord ..)) ?_
  simp [rawDecode, raw32, raw32Queue, decMask, need]
theorem Laws.RoundTrip.mlast d a : Statement (.mlast d a) := by
  intro hw ws he
  obtain rfl := Option.some.inj he
  refine decode_of_raw hw (wordsOf_base (low_rWord ..)) ?_
  simp [rawDecode, raw32, raw32Queue, decMask, need]
theorem Laws.RoundTrip.mshup d a : Statement (.mshup d a) := by
  intro hw ws he
  obtain rfl := Option.some.inj he
  refine decode_of_raw hw (wordsOf_base (low_rWord ..)) ?_
  simp [rawDecode, raw32, raw32Queue, decMask, need]
theorem Laws.RoundTrip.vtopk d a b m : Statement (.vtopk d a b m) := by
  intro hw ws he
  obtain rfl := Option.some.inj he
  refine decode_of_raw hw (wordsOf_base (low_rWord ..)) ?_
  simp [rawDecode, raw32, raw32Queue, decMask]
theorem Laws.RoundTrip.vld d a m : Statement (.vld d a m) := by
  intro hw ws he
  obtain rfl := Option.some.inj he
  refine decode_of_raw hw (wordsOf_base (low_rWord ..)) ?_
  simp [rawDecode, raw32, raw32Queue, decVmem, need]
theorem Laws.RoundTrip.vlds d a b m : Statement (.vlds d a b m) := by
  intro hw ws he
  obtain rfl := Option.some.inj he
  refine decode_of_raw hw (wordsOf_base (low_rWord ..)) ?_
  simp [rawDecode, raw32, raw32Queue, decVmem]
theorem Laws.RoundTrip.vlx d a b m : Statement (.vlx d a b m) := by
  intro hw ws he
  obtain rfl := Option.some.inj he
  refine decode_of_raw hw (wordsOf_base (low_rWord ..)) ?_
  simp [rawDecode, raw32, raw32Queue, decVmem]
theorem Laws.RoundTrip.vldff d a m : Statement (.vldff d a m) := by
  intro hw ws he
  obtain rfl := Option.some.inj he
  refine decode_of_raw hw (wordsOf_base (low_rWord ..)) ?_
  simp [rawDecode, raw32, raw32Queue, decVmem, need]
theorem Laws.RoundTrip.vlxff d a b m : Statement (.vlxff d a b m) := by
  intro hw ws he
  obtain rfl := Option.some.inj he
  refine decode_of_raw hw (wordsOf_base (low_rWord ..)) ?_
  simp [rawDecode, raw32, raw32Queue, decVmem]
theorem Laws.RoundTrip.vldScale d a : Statement (.vldScale d a) := by
  intro hw ws he
  obtain rfl := Option.some.inj he
  refine decode_of_raw hw (wordsOf_base (low_rWord ..)) ?_
  simp [rawDecode, raw32, raw32Queue, decVmem, need]
theorem Laws.RoundTrip.vldMask d a : Statement (.vldMask d a) := by
  intro hw ws he
  obtain rfl := Option.some.inj he
  refine decode_of_raw hw (wordsOf_base (low_rWord ..)) ?_
  simp [rawDecode, raw32, raw32Queue, decVmem, need]
theorem Laws.RoundTrip.vst d a m : Statement (.vst d a m) := by
  intro hw ws he
  obtain rfl := Option.some.inj he
  refine decode_of_raw hw (wordsOf_base (low_rWord ..)) ?_
  simp [rawDecode, raw32, raw32Queue, decVmem, need]
theorem Laws.RoundTrip.vsts d a b m : Statement (.vsts d a b m) := by
  intro hw ws he
  obtain rfl := Option.some.inj he
  refine decode_of_raw hw (wordsOf_base (low_rWord ..)) ?_
  simp [rawDecode, raw32, raw32Queue, decVmem]
theorem Laws.RoundTrip.vsx d a b m : Statement (.vsx d a b m) := by
  intro hw ws he
  obtain rfl := Option.some.inj he
  refine decode_of_raw hw (wordsOf_base (low_rWord ..)) ?_
  simp [rawDecode, raw32, raw32Queue, decVmem]
theorem Laws.RoundTrip.vscadd d a b m : Statement (.vscadd d a b m) := by
  intro hw ws he
  obtain rfl := Option.some.inj he
  refine decode_of_raw hw (wordsOf_base (low_rWord ..)) ?_
  simp [rawDecode, raw32, raw32Queue, decVmem]
theorem Laws.RoundTrip.vstScale d a : Statement (.vstScale d a) := by
  intro hw ws he
  obtain rfl := Option.some.inj he
  refine decode_of_raw hw (wordsOf_base (low_rWord ..)) ?_
  simp [rawDecode, raw32, raw32Queue, decVmem, need]
theorem Laws.RoundTrip.vstMask d a : Statement (.vstMask d a) := by
  intro hw ws he
  obtain rfl := Option.some.inj he
  refine decode_of_raw hw (wordsOf_base (low_rWord ..)) ?_
  simp [rawDecode, raw32, raw32Queue, decVmem, need]
theorem Laws.RoundTrip.vxlate d a b m : Statement (.vxlate d a b m) := by
  intro hw ws he
  obtain rfl := Option.some.inj he
  refine decode_of_raw hw (wordsOf_base (low_rWord ..)) ?_
  simp [rawDecode, raw32, raw32Queue, decVmem]
theorem Laws.RoundTrip.vxlateff d a b m : Statement (.vxlateff d a b m) := by
  intro hw ws he
  obtain rfl := Option.some.inj he
  refine decode_of_raw hw (wordsOf_base (low_rWord ..)) ?_
  simp [rawDecode, raw32, raw32Queue, decVmem]
theorem Laws.RoundTrip.vamoAdd d b m s q l : Statement (.vamoAdd d b m s q l) := by
  intro hw ws he
  obtain rfl := Option.some.inj he
  refine decode_of_raw hw (wordsOf_base (low_rWord ..)) ?_
  simp [-Nat.reduceAdd, rawDecode, raw32, raw32Queue, decVamo]
theorem Laws.RoundTrip.vamoAnd d b m s q l : Statement (.vamoAnd d b m s q l) := by
  intro hw ws he
  obtain rfl := Option.some.inj he
  refine decode_of_raw hw (wordsOf_base (low_rWord ..)) ?_
  simp [-Nat.reduceAdd, rawDecode, raw32, raw32Queue, decVamo]
theorem Laws.RoundTrip.vamoOr d b m s q l : Statement (.vamoOr d b m s q l) := by
  intro hw ws he
  obtain rfl := Option.some.inj he
  refine decode_of_raw hw (wordsOf_base (low_rWord ..)) ?_
  simp [-Nat.reduceAdd, rawDecode, raw32, raw32Queue, decVamo]
theorem Laws.RoundTrip.vamoXor d b m s q l : Statement (.vamoXor d b m s q l) := by
  intro hw ws he
  obtain rfl := Option.some.inj he
  refine decode_of_raw hw (wordsOf_base (low_rWord ..)) ?_
  simp [-Nat.reduceAdd, rawDecode, raw32, raw32Queue, decVamo]
theorem Laws.RoundTrip.vamoMin d b m s q l : Statement (.vamoMin d b m s q l) := by
  intro hw ws he
  obtain rfl := Option.some.inj he
  refine decode_of_raw hw (wordsOf_base (low_rWord ..)) ?_
  simp [-Nat.reduceAdd, rawDecode, raw32, raw32Queue, decVamo]
theorem Laws.RoundTrip.vamoMax d b m s q l : Statement (.vamoMax d b m s q l) := by
  intro hw ws he
  obtain rfl := Option.some.inj he
  refine decode_of_raw hw (wordsOf_base (low_rWord ..)) ?_
  simp [-Nat.reduceAdd, rawDecode, raw32, raw32Queue, decVamo]
theorem Laws.RoundTrip.vamoMinn d b m s q l : Statement (.vamoMinn d b m s q l) := by
  intro hw ws he
  obtain rfl := Option.some.inj he
  refine decode_of_raw hw (wordsOf_base (low_rWord ..)) ?_
  simp [-Nat.reduceAdd, rawDecode, raw32, raw32Queue, decVamo]
theorem Laws.RoundTrip.vamoMaxn d b m s q l : Statement (.vamoMaxn d b m s q l) := by
  intro hw ws he
  obtain rfl := Option.some.inj he
  refine decode_of_raw hw (wordsOf_base (low_rWord ..)) ?_
  simp [-Nat.reduceAdd, rawDecode, raw32, raw32Queue, decVamo]
theorem Laws.RoundTrip.vamoSwap d b m s q l : Statement (.vamoSwap d b m s q l) := by
  intro hw ws he
  obtain rfl := Option.some.inj he
  refine decode_of_raw hw (wordsOf_base (low_rWord ..)) ?_
  simp [-Nat.reduceAdd, rawDecode, raw32, raw32Queue, decVamo]
theorem Laws.RoundTrip.fwdmove a b m : Statement (.fwdmove a b m) := by
  intro hw ws he
  obtain rfl := Option.some.inj he
  refine decode_of_raw hw (wordsOf_base (low_rWord ..)) ?_
  simp [rawDecode, raw32, raw32Queue, decFwd, need]
theorem Laws.RoundTrip.fwdres d a m : Statement (.fwdres d a m) := by
  intro hw ws he
  obtain rfl := Option.some.inj he
  refine decode_of_raw hw (wordsOf_base (low_rWord ..)) ?_
  simp [rawDecode, raw32, raw32Queue, decFwd, need]
theorem Laws.RoundTrip.fwdresff d a m : Statement (.fwdresff d a m) := by
  intro hw ws he
  obtain rfl := Option.some.inj he
  refine decode_of_raw hw (wordsOf_base (low_rWord ..)) ?_
  simp [rawDecode, raw32, raw32Queue, decFwd, need]
theorem Laws.RoundTrip.pcmpr d a b m : Statement (.pcmpr d a b m) := by
  intro hw ws he
  obtain rfl := Option.some.inj he
  refine decode_of_raw hw (wordsOf_base (low_rWord ..)) ?_
  simp [rawDecode, raw32, raw32Queue, decFwd]
theorem Laws.RoundTrip.fwdpath a m : Statement (.fwdpath a m) := by
  intro hw ws he
  obtain rfl := Option.some.inj he
  refine decode_of_raw hw (wordsOf_base (low_rWord ..)) ?_
  simp [rawDecode, raw32, raw32Queue, decFwd, need]
theorem Laws.RoundTrip.fwdrecl a : Statement (.fwdrecl a) := by
  intro hw ws he
  obtain rfl := Option.some.inj he
  refine decode_of_raw hw (wordsOf_base (low_rWord ..)) ?_
  simp [rawDecode, raw32, raw32Queue, decFwd, need]
theorem Laws.RoundTrip.fwdreclTomb a : Statement (.fwdreclTomb a) := by
  intro hw ws he
  obtain rfl := Option.some.inj he
  refine decode_of_raw hw (wordsOf_base (low_rWord ..)) ?_
  simp [rawDecode, raw32, raw32Queue, decFwd, need]
theorem Laws.RoundTrip.cpstep c : Statement (.cpstep c) := by
  intro hw ws he
  obtain rfl := Option.some.inj he
  refine decode_of_raw hw (wordsOf_base (low_rWord ..)) ?_
  simp [rawDecode, raw32, raw32Queue, decCopy, need]
theorem Laws.RoundTrip.cpwait c : Statement (.cpwait c) := by
  intro hw ws he
  obtain rfl := Option.some.inj he
  refine decode_of_raw hw (wordsOf_base (low_rWord ..)) ?_
  simp [rawDecode, raw32, raw32Queue, decCopy, need]
theorem Laws.RoundTrip.cpland d c : Statement (.cpland d c) := by
  intro hw ws he
  obtain rfl := Option.some.inj he
  refine decode_of_raw hw (wordsOf_base (low_rWord ..)) ?_
  simp [rawDecode, raw32, raw32Queue, decCopy, need]
theorem Laws.RoundTrip.cpcfg a c t : Statement (.cpcfg a c t) := by
  intro hw ws he
  obtain rfl := Option.some.inj he
  refine decode_of_raw hw (wordsOf_base (low_iWord ..)) ?_
  simp [rawDecode, raw32, raw32Queue, need]
theorem Laws.RoundTrip.launch d a b : Statement (.launch d a b) := by
  intro hw ws he
  obtain rfl := Option.some.inj he
  refine decode_of_raw hw (wordsOf_base (low_rWord ..)) ?_
  simp [rawDecode, raw32, decWork, need]
theorem Laws.RoundTrip.claim d a : Statement (.claim d a) := by
  intro hw ws he
  obtain rfl := Option.some.inj he
  refine decode_of_raw hw (wordsOf_base (low_rWord ..)) ?_
  simp [rawDecode, raw32, decWork, need]
theorem Laws.RoundTrip.grun d a : Statement (.grun d a) := by
  intro hw ws he
  obtain rfl := Option.some.inj he
  refine decode_of_raw hw (wordsOf_base (low_rWord ..)) ?_
  simp [rawDecode, raw32, decWork, need]
theorem Laws.RoundTrip.gbar : Statement (.gbar) := by
  intro hw ws he
  obtain rfl := Option.some.inj he
  refine decode_of_raw hw (wordsOf_base (low_rWord ..)) ?_
  simp [rawDecode, raw32, raw32Queue, decGang, need]
theorem Laws.RoundTrip.sopen d a k : Statement (.sopen d a k) := by
  intro hw ws he
  obtain rfl := Option.some.inj he
  refine decode_of_raw hw (wordsOf_base (low_rWord ..)) ?_
  simp [rawDecode, raw32, raw32Queue, decGang, need]
theorem Laws.RoundTrip.sclose d : Statement (.sclose d) := by
  intro hw ws he
  obtain rfl := Option.some.inj he
  refine decode_of_raw hw (wordsOf_base (low_rWord ..)) ?_
  simp [rawDecode, raw32, raw32Queue, decGang, need]
theorem Laws.RoundTrip.bstVector d a m : Statement (.bstVector d a m) := by
  intro hw ws he
  obtain rfl := Option.some.inj he
  refine decode_of_raw hw (wordsOf_base (low_rWord ..)) ?_
  simp [rawDecode, raw32, raw32Queue, decGang, need]
theorem Laws.RoundTrip.bstScalar a b : Statement (.bstScalar a b) := by
  intro hw ws he
  obtain rfl := Option.some.inj he
  refine decode_of_raw hw (wordsOf_base (low_rWord ..)) ?_
  simp [rawDecode, raw32, raw32Queue, decGang, need]
theorem Laws.RoundTrip.bacq : Statement (.bacq) := by
  intro hw ws he
  obtain rfl := Option.some.inj he
  refine decode_of_raw hw (wordsOf_base (low_rWord ..)) ?_
  simp [rawDecode, raw32, raw32Queue, decGang, need]
theorem Laws.RoundTrip.mopa d a b ta tb sa sb sat scl : Statement (.mopa d a b ta tb sa sb sat scl) := by
  intro hw ws he
  obtain rfl := Option.some.inj he
  refine decode_of_raw hw (wordsOf_prefixed (low_pWord ..)) ?_
  simp [-Nat.reduceAdd, rawDecode, raw64, decMatrix, need]
theorem Laws.RoundTrip.mzero d : Statement (.mzero d) := by
  intro hw ws he
  obtain rfl := Option.some.inj he
  refine decode_of_raw hw (wordsOf_prefixed (low_pWord ..)) ?_
  simp [rawDecode, raw64, decMatrix, need]
theorem Laws.RoundTrip.mfill d a : Statement (.mfill d a) := by
  intro hw ws he
  obtain rfl := Option.some.inj he
  refine decode_of_raw hw (wordsOf_prefixed (low_pWord ..)) ?_
  simp [rawDecode, raw64, decMatrix, need]
theorem Laws.RoundTrip.mdrain d a b m ta : Statement (.mdrain d a b m ta) := by
  intro hw ws he
  obtain rfl := Option.some.inj he
  refine decode_of_raw hw (wordsOf_prefixed (low_pWord ..)) ?_
  simp [rawDecode, raw64, decMatrix, need]
theorem Laws.RoundTrip.mrdrow d a b ta : Statement (.mrdrow d a b ta) := by
  intro hw ws he
  obtain rfl := Option.some.inj he
  refine decode_of_raw hw (wordsOf_prefixed (low_pWord ..)) ?_
  simp [rawDecode, raw64, decMatrix, need]
theorem Laws.RoundTrip.vhad d a m ta tb n : Statement (.vhad d a m ta tb n) := by
  intro hw ws he
  obtain rfl := Option.some.inj he
  refine decode_of_raw hw (wordsOf_prefixed (low_pWord ..)) ?_
  simp [rawDecode, raw64, decNarrow, need]
theorem Laws.RoundTrip.vcvtn d a m ta tb sa scl : Statement (.vcvtn d a m ta tb sa scl) := by
  intro hw ws he
  obtain rfl := Option.some.inj he
  refine decode_of_raw hw (wordsOf_prefixed (low_pWord ..)) ?_
  simp [-Nat.reduceAdd, rawDecode, raw64, decNarrow, need]
theorem Laws.RoundTrip.vcvtw d a m ta tb sa scl : Statement (.vcvtw d a m ta tb sa scl) := by
  intro hw ws he
  obtain rfl := Option.some.inj he
  refine decode_of_raw hw (wordsOf_prefixed (low_pWord ..)) ?_
  simp [-Nat.reduceAdd, rawDecode, raw64, decNarrow, need]
theorem Laws.RoundTrip.vscale d a ta tb : Statement (.vscale d a ta tb) := by
  intro hw ws he
  obtain rfl := Option.some.inj he
  refine decode_of_raw hw (wordsOf_prefixed (low_pWord ..)) ?_
  simp [rawDecode, raw64, decNarrow, need]
theorem Laws.RoundTrip.xcfg d a : Statement (.xcfg d a) := by
  intro hw ws he
  obtain rfl := Option.some.inj he
  refine decode_of_raw hw (wordsOf_prefixed (low_pWord ..)) ?_
  simp [rawDecode, raw64, decHist, need]
theorem Laws.RoundTrip.xckpt d a m : Statement (.xckpt d a m) := by
  intro hw ws he
  obtain rfl := Option.some.inj he
  refine decode_of_raw hw (wordsOf_prefixed (low_pWord ..)) ?_
  simp [rawDecode, raw64, decHist, need]
theorem Laws.RoundTrip.xdrain d a m : Statement (.xdrain d a m) := by
  intro hw ws he
  obtain rfl := Option.some.inj he
  refine decode_of_raw hw (wordsOf_prefixed (low_pWord ..)) ?_
  simp [rawDecode, raw64, decHist, need]
theorem Laws.RoundTrip.xstat d a m f : Statement (.xstat d a m f) := by
  intro hw ws he
  obtain rfl := Option.some.inj he
  refine decode_of_raw hw (wordsOf_prefixed (low_pWord ..)) ?_
  simp [rawDecode, raw64, decHist, need]
theorem Laws.RoundTrip.xclr d : Statement (.xclr d) := by
  intro hw ws he
  obtain rfl := Option.some.inj he
  refine decode_of_raw hw (wordsOf_prefixed (low_pWord ..)) ?_
  simp [rawDecode, raw64, decHist, need]
theorem Laws.RoundTrip.cAdd d a b : Statement (.cAdd d a b) := by
  intro hw ws he
  obtain rfl := Option.some.inj he
  refine decode_of_raw hw (wordsOf_parcel (low_cWord ..)) ?_
  have hz : ¬ cWord 0#4 (0#2 ++ b) a d = 0#16 := by
    intro e
    obtain ⟨h1, h2, h3⟩ := cWord_eq_zero e
    have h4 := congrArg (fun x : BitVec 5 => x.extractLsb' 0 3) h1
    have h4 : b = 0#3 := by simpa using h4
    simp [Instr.wf, Instr.illFormed, Instr.checks, firstFailing, h2, h3, h4] at hw
  simp [rawDecode, raw16, decC, need, hz]
theorem Laws.RoundTrip.cSub d a b : Statement (.cSub d a b) := by
  intro hw ws he
  obtain rfl := Option.some.inj he
  refine decode_of_raw hw (wordsOf_parcel (low_cWord ..)) ?_
  simp [rawDecode, raw16, decC, need, cWord_ne_zero]
theorem Laws.RoundTrip.cAnd d a b : Statement (.cAnd d a b) := by
  intro hw ws he
  obtain rfl := Option.some.inj he
  refine decode_of_raw hw (wordsOf_parcel (low_cWord ..)) ?_
  simp [rawDecode, raw16, decC, need, cWord_ne_zero]
theorem Laws.RoundTrip.cOr d a b : Statement (.cOr d a b) := by
  intro hw ws he
  obtain rfl := Option.some.inj he
  refine decode_of_raw hw (wordsOf_parcel (low_cWord ..)) ?_
  simp [rawDecode, raw16, decC, need, cWord_ne_zero]
theorem Laws.RoundTrip.cXor d a b : Statement (.cXor d a b) := by
  intro hw ws he
  obtain rfl := Option.some.inj he
  refine decode_of_raw hw (wordsOf_parcel (low_cWord ..)) ?_
  simp [rawDecode, raw16, decC, need, cWord_ne_zero]
theorem Laws.RoundTrip.cAddi d a i : Statement (.cAddi d a i) := by
  intro hw ws he
  obtain rfl := Option.some.inj he
  refine decode_of_raw hw (wordsOf_parcel (low_cWord ..)) ?_
  simp [rawDecode, raw16, decC, cWord_ne_zero]
theorem Laws.RoundTrip.cLi d i : Statement (.cLi d i) := by
  intro hw ws he
  obtain rfl := Option.some.inj he
  refine decode_of_raw hw (wordsOf_parcel (low_cWord ..)) ?_
  simp [rawDecode, raw16, decC, need, cWord_ne_zero]
theorem Laws.RoundTrip.cSlli d a i : Statement (.cSlli d a i) := by
  intro hw ws he
  obtain rfl := Option.some.inj he
  refine decode_of_raw hw (wordsOf_parcel (low_cWord ..)) ?_
  simp [rawDecode, raw16, decC, cWord_ne_zero]
theorem Laws.RoundTrip.cSrli d a i : Statement (.cSrli d a i) := by
  intro hw ws he
  obtain rfl := Option.some.inj he
  refine decode_of_raw hw (wordsOf_parcel (low_cWord ..)) ?_
  simp [rawDecode, raw16, decC, cWord_ne_zero]
theorem Laws.RoundTrip.cSrai d a i : Statement (.cSrai d a i) := by
  intro hw ws he
  obtain rfl := Option.some.inj he
  refine decode_of_raw hw (wordsOf_parcel (low_cWord ..)) ?_
  simp [rawDecode, raw16, decC, cWord_ne_zero]
theorem Laws.RoundTrip.cLdS32 d a i : Statement (.cLdS32 d a i) := by
  intro hw ws he
  obtain rfl := Option.some.inj he
  refine decode_of_raw hw (wordsOf_parcel (low_cWord ..)) ?_
  simp [rawDecode, raw16, decC, cWord_ne_zero]
theorem Laws.RoundTrip.cLd64 d a i : Statement (.cLd64 d a i) := by
  intro hw ws he
  obtain rfl := Option.some.inj he
  refine decode_of_raw hw (wordsOf_parcel (low_cWord ..)) ?_
  simp [rawDecode, raw16, decC, cWord_ne_zero]
theorem Laws.RoundTrip.cSt32 d a i : Statement (.cSt32 d a i) := by
  intro hw ws he
  obtain rfl := Option.some.inj he
  refine decode_of_raw hw (wordsOf_parcel (low_cWord ..)) ?_
  simp [rawDecode, raw16, decC, cWord_ne_zero]
theorem Laws.RoundTrip.cSt64 d a i : Statement (.cSt64 d a i) := by
  intro hw ws he
  obtain rfl := Option.some.inj he
  refine decode_of_raw hw (wordsOf_parcel (low_cWord ..)) ?_
  simp [rawDecode, raw16, decC, cWord_ne_zero]
theorem Laws.RoundTrip.cBeq a i : Statement (.cBeq a i) := by
  intro hw ws he
  obtain rfl := Option.some.inj he
  refine decode_of_raw hw (wordsOf_parcel (low_cWord ..)) ?_
  simp [rawDecode, raw16, decC, cWord_ne_zero]
theorem Laws.RoundTrip.cBne a i : Statement (.cBne a i) := by
  intro hw ws he
  obtain rfl := Option.some.inj he
  refine decode_of_raw hw (wordsOf_parcel (low_cWord ..)) ?_
  simp [rawDecode, raw16, decC, cWord_ne_zero]
theorem Laws.RoundTrip.vtypeWrite u0 u1 : Statement (.vtypeWrite u0 u1) := by
  intro _ _ he
  cases he
theorem Laws.RoundTrip.vstartWrite u0 u1 : Statement (.vstartWrite u0 u1) := by
  intro _ _ he
  cases he
theorem Laws.RoundTrip.rmodeWrite u0 u1 : Statement (.rmodeWrite u0 u1) := by
  intro _ _ he
  cases he
theorem Laws.RoundTrip.vlcapWrite u0 u1 : Statement (.vlcapWrite u0 u1) := by
  intro _ _ he
  cases he
theorem Laws.RoundTrip.spbanksWrite u0 u1 : Statement (.spbanksWrite u0 u1) := by
  intro _ _ he
  cases he
theorem Laws.RoundTrip.ptrootWrite u0 u1 : Statement (.ptrootWrite u0 u1) := by
  intro _ _ he
  cases he
theorem Laws.RoundTrip.csrWrite u0 u1 u2 : Statement (.csrWrite u0 u1 u2) := by
  intro _ _ he
  cases he
theorem Laws.RoundTrip.enqueueStore u0 u1 u2 u3 u4 : Statement (.enqueueStore u0 u1 u2 u3 u4) := by
  intro _ _ he
  cases he
theorem Laws.RoundTrip.graphStartWindow u0 u1 u2 u3 : Statement (.graphStartWindow u0 u1 u2 u3) := by
  intro _ _ he
  cases he
theorem Laws.RoundTrip.placeGang u0 : Statement (.placeGang u0) := by
  intro _ _ he
  cases he
theorem Laws.RoundTrip.agingStep u0 : Statement (.agingStep u0) := by
  intro _ _ he
  cases he
theorem Laws.RoundTrip.preemption u0 : Statement (.preemption u0) := by
  intro _ _ he
  cases he
theorem Laws.RoundTrip.graphNodeStart u0 u1 : Statement (.graphNodeStart u0 u1) := by
  intro _ _ he
  cases he
theorem Laws.RoundTrip.vectorEntryComplete u0 : Statement (.vectorEntryComplete u0) := by
  intro _ _ he
  cases he
theorem Laws.RoundTrip.faultRecordPost u0 : Statement (.faultRecordPost u0) := by
  intro _ _ he
  cases he
theorem Laws.RoundTrip.eventDelivery u0 : Statement (.eventDelivery u0) := by
  intro _ _ he
  cases he
theorem Laws.RoundTrip.eventWindowWrite u0 u1 u2 : Statement (.eventWindowWrite u0 u1 u2) := by
  intro _ _ he
  cases he
theorem Laws.RoundTrip.wfeTimeout u0 : Statement (.wfeTimeout u0) := by
  intro _ _ he
  cases he
theorem Laws.RoundTrip.stripFetch u0 u1 u2 : Statement (.stripFetch u0 u1 u2) := by
  intro _ _ he
  cases he
theorem Laws.RoundTrip.elementLanding u0 u1 u2 : Statement (.elementLanding u0 u1 u2) := by
  intro _ _ he
  cases he
theorem Laws.RoundTrip.moveComplete u0 : Statement (.moveComplete u0) := by
  intro _ _ he
  cases he
theorem Laws.RoundTrip.reclaimComplete u0 u1 : Statement (.reclaimComplete u0 u1) := by
  intro _ _ he
  cases he
theorem Laws.RoundTrip.postedWriteFollow u0 : Statement (.postedWriteFollow u0) := by
  intro _ _ he
  cases he
theorem Laws.RoundTrip.scrub u0 u1 u2 u3 : Statement (.scrub u0 u1 u2 u3) := by
  intro _ _ he
  cases he
theorem Laws.RoundTrip.uncorrectableError u0 : Statement (.uncorrectableError u0) := by
  intro _ _ he
  cases he
theorem Laws.RoundTrip.laneGroupRetirement u0 u1 : Statement (.laneGroupRetirement u0 u1) := by
  intro _ _ he
  cases he
theorem Laws.RoundTrip.frameBoundary u0 : Statement (.frameBoundary u0) := by
  intro _ _ he
  cases he
theorem Laws.RoundTrip.slotTransmission u0 u1 u2 : Statement (.slotTransmission u0 u1 u2) := by
  intro _ _ he
  cases he
theorem Laws.RoundTrip.broadcastApply u0 u1 : Statement (.broadcastApply u0 u1) := by
  intro _ _ he
  cases he
theorem Laws.RoundTrip.tierSleep u0 : Statement (.tierSleep u0) := by
  intro _ _ he
  cases he
theorem Laws.RoundTrip.tierWake u0 : Statement (.tierWake u0) := by
  intro _ _ he
  cases he
theorem Laws.RoundTrip.wakeLogReplayEnd u0 : Statement (.wakeLogReplayEnd u0) := by
  intro _ _ he
  cases he
theorem Laws.RoundTrip.replicaRefillEnd u0 : Statement (.replicaRefillEnd u0) := by
  intro _ _ he
  cases he
theorem Laws.RoundTrip.powerSample u0 u1 : Statement (.powerSample u0 u1) := by
  intro _ _ he
  cases he
theorem Laws.RoundTrip.thermalShutdown : Statement (.thermalShutdown) := by
  intro _ _ he
  cases he
theorem Laws.RoundTrip.powerUp u0 u1 u2 u3 : Statement (.powerUp u0 u1 u2 u3) := by
  intro _ _ he
  cases he
theorem Laws.RoundTrip.linkRetrainEntry u0 : Statement (.linkRetrainEntry u0) := by
  intro _ _ he
  cases he
theorem Laws.RoundTrip.trainingAttemptEnd u0 u1 : Statement (.trainingAttemptEnd u0 u1) := by
  intro _ _ he
  cases he
theorem Laws.RoundTrip.linkDownTimeout u0 : Statement (.linkDownTimeout u0) := by
  intro _ _ he
  cases he
theorem Laws.RoundTrip.fabricRequest u0 u1 u2 : Statement (.fabricRequest u0 u1 u2) := by
  intro _ _ he
  cases he
theorem Laws.RoundTrip.partInfo u0 u1 u2 : Statement (.partInfo u0 u1 u2) := by
  intro _ _ he
  cases he
theorem Laws.RoundTrip.counters u0 u1 u2 u3 : Statement (.counters u0 u1 u2 u3) := by
  intro _ _ he
  cases he
theorem Laws.RoundTrip.shootdown u0 u1 u2 u3 u4 : Statement (.shootdown u0 u1 u2 u3 u4) := by
  intro _ _ he
  cases he
theorem Laws.RoundTrip.resume u0 u1 u2 : Statement (.resume u0 u1 u2) := by
  intro _ _ he
  cases he
theorem Laws.RoundTrip.abandon u0 u1 u2 u3 u4 : Statement (.abandon u0 u1 u2 u3 u4) := by
  intro _ _ he
  cases he
theorem Laws.RoundTrip.setevent u0 u1 u2 u3 u4 : Statement (.setevent u0 u1 u2 u3 u4) := by
  intro _ _ he
  cases he
theorem Laws.RoundTrip.quota u0 u1 u2 u3 u4 : Statement (.quota u0 u1 u2 u3 u4) := by
  intro _ _ he
  cases he
theorem Laws.RoundTrip.qpair u0 u1 u2 u3 u4 : Statement (.qpair u0 u1 u2 u3 u4) := by
  intro _ _ he
  cases he
theorem Laws.RoundTrip.mreg u0 u1 u2 u3 u4 u5 u6 u7 : Statement (.mreg u0 u1 u2 u3 u4 u5 u6 u7) := by
  intro _ _ he
  cases he
theorem Laws.RoundTrip.mdereg u0 u1 u2 u3 : Statement (.mdereg u0 u1 u2 u3) := by
  intro _ _ he
  cases he
theorem Laws.RoundTrip.qpconn u0 u1 u2 u3 u4 u5 : Statement (.qpconn u0 u1 u2 u3 u4 u5) := by
  intro _ _ he
  cases he
theorem Laws.RoundTrip.create u0 u1 u2 u3 u4 : Statement (.create u0 u1 u2 u3 u4) := by
  intro _ _ he
  cases he
theorem Laws.RoundTrip.lock u0 u1 u2 u3 : Statement (.lock u0 u1 u2 u3) := by
  intro _ _ he
  cases he
theorem Laws.RoundTrip.start u0 u1 u2 u3 : Statement (.start u0 u1 u2 u3) := by
  intro _ _ he
  cases he
theorem Laws.RoundTrip.stop u0 u1 u2 u3 : Statement (.stop u0 u1 u2 u3) := by
  intro _ _ he
  cases he
theorem Laws.RoundTrip.teardown u0 u1 u2 u3 : Statement (.teardown u0 u1 u2 u3) := by
  intro _ _ he
  cases he
theorem Laws.RoundTrip.slots u0 u1 u2 u3 u4 u5 u6 u7 : Statement (.slots u0 u1 u2 u3 u4 u5 u6 u7) := by
  intro _ _ he
  cases he
theorem Laws.RoundTrip.access u0 u1 u2 u3 u4 u5 : Statement (.access u0 u1 u2 u3 u4 u5) := by
  intro _ _ he
  cases he
theorem Laws.RoundTrip.link u0 u1 u2 u3 : Statement (.link u0 u1 u2 u3) := by
  intro _ _ he
  cases he
theorem Laws.RoundTrip.domain u0 u1 u2 u3 : Statement (.domain u0 u1 u2 u3) := by
  intro _ _ he
  cases he
theorem Laws.RoundTrip.migrate u0 u1 u2 u3 u4 u5 u6 u7 : Statement (.migrate u0 u1 u2 u3 u4 u5 u6 u7) := by
  intro _ _ he
  cases he
theorem Laws.RoundTrip.sleep u0 u1 u2 u3 u4 u5 : Statement (.sleep u0 u1 u2 u3 u4 u5) := by
  intro _ _ he
  cases he
theorem Laws.RoundTrip.workLinePost u0 u1 u2 u3 u4 : Statement (.workLinePost u0 u1 u2 u3 u4) := by
  intro _ _ he
  cases he
theorem Laws.RoundTrip.workLineCompletion u0 u1 u2 u3 : Statement (.workLineCompletion u0 u1 u2 u3) := by
  intro _ _ he
  cases he
theorem Laws.RoundTrip.receiveLinePost u0 u1 u2 u3 u4 : Statement (.receiveLinePost u0 u1 u2 u3 u4) := by
  intro _ _ he
  cases he
theorem Laws.RoundTrip.inboundSend u0 u1 u2 : Statement (.inboundSend u0 u1 u2) := by
  intro _ _ he
  cases he
theorem Laws.RoundTrip.inboundRdmaWrite u0 u1 u2 u3 u4 : Statement (.inboundRdmaWrite u0 u1 u2 u3 u4) := by
  intro _ _ he
  cases he
theorem Laws.RoundTrip.inboundRdmaRead u0 u1 u2 u3 u4 : Statement (.inboundRdmaRead u0 u1 u2 u3 u4) := by
  intro _ _ he
  cases he
theorem Laws.RoundTrip.getVersion u0 : Statement (.getVersion u0) := by
  intro _ _ he
  cases he
theorem Laws.RoundTrip.getCapabilities u0 : Statement (.getCapabilities u0) := by
  intro _ _ he
  cases he
theorem Laws.RoundTrip.negotiateAlgorithms u0 u1 : Statement (.negotiateAlgorithms u0 u1) := by
  intro _ _ he
  cases he
theorem Laws.RoundTrip.getDigests u0 : Statement (.getDigests u0) := by
  intro _ _ he
  cases he
theorem Laws.RoundTrip.getCertificate u0 u1 u2 : Statement (.getCertificate u0 u1 u2) := by
  intro _ _ he
  cases he
theorem Laws.RoundTrip.challenge u0 u1 : Statement (.challenge u0 u1) := by
  intro _ _ he
  cases he
theorem Laws.RoundTrip.getMeasurements u0 u1 u2 : Statement (.getMeasurements u0 u1 u2) := by
  intro _ _ he
  cases he
theorem Laws.RoundTrip.keyExchange u0 u1 : Statement (.keyExchange u0 u1) := by
  intro _ _ he
  cases he
theorem Laws.RoundTrip.finish u0 u1 : Statement (.finish u0 u1) := by
  intro _ _ he
  cases he
theorem Laws.RoundTrip.endSession u0 u1 : Statement (.endSession u0 u1) := by
  intro _ _ he
  cases he
theorem Laws.RoundTrip.postedWriteAck u0 u1 : Statement (.postedWriteAck u0 u1) := by
  intro _ _ he
  cases he
theorem Laws.RoundTrip.flitCrcFailure u0 : Statement (.flitCrcFailure u0) := by
  intro _ _ he
  cases he

end Sys2Proof
end

