-- ==== Sys2Proof/Laws/ScalarFp.lean ====
section
/-!
SUPPORT. Laws/ScalarFp.lean: how a scalar floating-point instruction ends (R227): completing when no trap is enabled, or in the trap of
its lowest enabled flag.
-/
set_option Elab.async false

namespace Sys2Proof.Machine

theorem trappedFlag_zero (flags : Nat) : trappedFlag flags 0 = none := by simp [trappedFlag]

/-- The hart after a scalar floating-point instruction that completes. -/
def Hart.fpDone (h : Hart) (d : BitVec 5) (rounds : Bool) (r : Word × Nat) : Hart :=
  (if rounds then ((h.orFlags r.2).setX d r.1).takeSeed else (h.orFlags r.2).setX d r.1).advance 4

theorem fpEnd_gives {s : State} (d : BitVec 5) (rounds : Bool) (r : Word × Nat) (h : trapEnables s.me.rmode = 0) :
    Gives (fpEnd s.cur s.me d rounds r) s () (s.setMe (s.me.fpDone d rounds r)) := by
  unfold fpEnd
  rw [h, trappedFlag_zero]
  exact Gives.putHart _ _ _

theorem fpRound_run {s : State} {d : BitVec 5} {rs : List (BitVec 5)} {f : BitVec 2} {op : Hart → Ex} (hf : s.me.free (d :: rs))
    (h : trapEnables s.me.rmode = 0) :
    runM (fpRound d rs f op) s = .next (s.setMe (s.me.fpDone d true
      (BitVec.ofNat 64 ((fpFmt f).finish s.me.scalarRnd (op s.me)).1, ((fpFmt f).finish s.me.scalarRnd (op s.me)).2))) := by
  rw [fpRound, scalar_run hf]
  exact (fpEnd_gives d true _ h).run

theorem fpPlain_run {s : State} {d : BitVec 5} {rs : List (BitVec 5)} {op : Hart → Nat × Nat} (hf : s.me.free (d :: rs))
    (h : trapEnables s.me.rmode = 0) :
    runM (fpPlain d rs op) s = .next (s.setMe (s.me.fpDone d false (BitVec.ofNat 64 (op s.me).1, (op s.me).2))) := by
  rw [fpPlain, scalar_run hf]
  exact (fpEnd_gives d false _ h).run

/-- An enabled flag traps with nothing written but its flag. -/
theorem fpEnd_traps {s : State} (d : BitVec 5) (rounds : Bool) (r : Word × Nat) {k : Nat}
    (hq : s.me.vqHeld = true ∨ s.me.vq = []) (h : trappedFlag r.2 (trapEnables s.me.rmode) = some k) :
    Halts (fpEnd s.cur s.me d rounds r) s
      (s.setMe ((s.me.orFlags (2 ^ k)).canon.enterTrap 0x20 (s.me.orFlags (2 ^ k)).canon.pc 0 0 .drained s.me.vqHeld)) := by
  unfold fpEnd
  rw [h]
  refine (needDrained_gives hq).bind_halts ((Gives.modHart _ _ _).bind_halts ((Gives.getHart _ _).bind_halts ?_))
  intro f b k'
  refine (scalarTrap_halts _ _ _ _ _ f b k').trans ?_
  change Host.Outcome.next ((s.setMe (s.me.orFlags (2 ^ k))).setMe (((s.setMe (s.me.orFlags (2 ^ k))).me).enterTrap 0x20
    ((s.setMe (s.me.orFlags (2 ^ k))).me).pc 0 0 .drained ((s.setMe (s.me.orFlags (2 ^ k))).me).vqHeld)) = _
  rw [me_setMe, setMe_setMe]
  rfl

end Sys2Proof.Machine
end

