-- ==== Sys2Proof/Laws/Vector.lean ====
section
/-!
SUPPORT. Laws/Vector.lean: sending a vector-side instruction to an empty queue: it performs at once, in a context that the sender's
record gives, and completes.
-/
set_option Elab.async false

namespace Sys2Proof.Machine

/-! ### Fields that going on keeps -/

theorem Hart.goto_eq (h : Hart) (f : Flow) (n : Word) : h.goto f n =
    { h with x := (h.goto f n).x, lp := (h.goto f n).lp, pc := (h.goto f n).pc, chans := (h.goto f n).chans } := by
  unfold Hart.goto Hart.tripEnd Hart.setX
  split_ifs <;> rfl

/-- The record with the instruction in its queue, before it goes on. -/
def Hart.queued (h : Hart) (i : Instr) (op : VOp) : Hart :=
  { h with
    vq := h.vq ++ [
      { pc := h.pc, insn := i, vtype := h.vtype, mode := BitVec.ofNat 3 (bitsGet h.rmode.toNat 0 3),
        seed := BitVec.ofNat 32 (bitsGet h.rmode.toNat 32 32), opa := (op.opa.map h.getX).getD 0,
        opb := (op.opb.map h.getX).getD 0, vl := h.vl, vstart := if h.vsWritten then h.vstart else 0,
        rq := op.xd.map (fun _ => BitVec.ofNat 3 h.rq.length), vlPend := h.vq.any (fun e => changesVl e.insn), begun := false,
        ten := BitVec.ofNat 5 (trapEnables h.rmode), size := h.lay, freed := h.chans.toList.map (fun (c : Chan) => c.released) }]
    rq := h.rq ++ op.xd.toList.map (fun r => { reg := r, qpos := BitVec.ofNat 5 h.vq.length, value := none })
    rmode := if op.rounds ∧ bitsGet h.rmode.toNat 0 3 = mSR then
      (h.rmode &&& 0xFFFFFFFF) ||| (BitVec.ofNat 64 ((bitsGet h.rmode.toNat 32 32 + 1) % 2 ^ 32) <<< 32) else h.rmode
    vsWritten := false
    vqHeld := false
    bpSkip := false
    vstart := if h.vsWritten then 0 else h.vstart }

/-- Sending goes on, or leaves a trip undecided. -/
theorem Hart.enqueue_cases (h : Hart) (i : Instr) (op : VOp) : h.enqueue i op =
    if op.xd = some h.lp.reg ∧ h.lp.reg ≠ 0#5 ∧ h.inBody h.pc ∧ h.pc + BitVec.ofNat 64 (lengthOf i) = h.lp.stop then
      { h.queued i op with pc := h.pc + BitVec.ofNat 64 (lengthOf i), lp := { h.lp with trip := .atPc } }
    else (h.queued i op).goto .inline (h.pc + BitVec.ofNat 64 (lengthOf i)) := rfl

theorem Hart.enqueue_queued (h : Hart) (i : Instr) {op : VOp} (hx : op.xd ≠ some h.lp.reg) :
    h.enqueue i op = (h.queued i op).goto .inline (h.pc + BitVec.ofNat 64 (lengthOf i)) := if_neg (fun e => hx e.1)

/-- Sending changes the queues, the rounding seed, VSTART's marks, and what going on changes. -/
theorem Hart.enqueue_eq (h : Hart) (i : Instr) (op : VOp) : h.enqueue i op =
    { h.queued i op with
      x := (h.enqueue i op).x
      lp := (h.enqueue i op).lp
      pc := (h.enqueue i op).pc
      chans := (h.enqueue i op).chans } := by
  rw [Hart.enqueue_cases]
  split
  · rfl
  · exact Hart.goto_eq _ _ _

/-- What is asked of an instruction by the queue rests on four fields of the record. -/
theorem vop_congr (i : Instr) (v : Word) (h h' : Hart) (hl : h'.lay = h.lay) (hm : h'.tilem = h.tilem) (hn : h'.tilen = h.tilen)
    (hk : h'.tilek = h.tilek) : vop i v h' = vop i v h := by
  cases i <;> first | rfl | simp only [vop, convOp, mopaOp, narrowOp, hadOp, hl, hm, hn, hk]

/-! ### The entry and its context -/

/-- The entry that an instruction becomes in an empty queue. -/
def headOf (h : Hart) (i : Instr) (op : VOp) : VEntry :=
  { pc := h.pc, insn := i, vtype := h.vtype, mode := BitVec.ofNat 3 (bitsGet h.rmode.toNat 0 3),
    seed := BitVec.ofNat 32 (bitsGet h.rmode.toNat 32 32), opa := (op.opa.map h.getX).getD 0, opb := (op.opb.map h.getX).getD 0,
    vl := h.vl, vstart := if h.vsWritten then h.vstart else 0, rq := op.xd.map (fun _ => 0), vlPend := false, begun := false,
    ten := BitVec.ofNat 5 (trapEnables h.rmode), size := h.lay, freed := h.chans.toList.map (fun (c : Chan) => c.released) }

/-- The context in which it performs. -/
def ctxOf (s : State) (i : Instr) (op : VOp) : VCtx :=
  { g := s.cur, e := headOf s.me i op, lim := s.me.vl.toNat, bps := [], items := [], cover := 2 ^ 23 }

theorem enqueue_vq {h : Hart} {i : Instr} {op : VOp} (hv : h.vq = []) (hr : h.rq = []) :
    (h.enqueue i op).vq = [headOf h i op] := by
  rw [Hart.enqueue_eq]
  simp [Hart.queued, hv, hr, headOf]

theorem enqueue_rq {h : Hart} {i : Instr} {op : VOp} (hv : h.vq = []) (hr : h.rq = []) :
    (h.enqueue i op).rq = op.xd.toList.map (fun r => { reg := r, qpos := 0, value := none }) := by
  rw [Hart.enqueue_eq]
  simp [Hart.queued, hv, hr]

theorem enqueue_flags (h : Hart) (i : Instr) (op : VOp) :
    (h.enqueue i op).vsWritten = false ∧ (h.enqueue i op).vqHeld = false := by
  rw [Hart.enqueue_eq]
  exact ⟨rfl, rfl⟩

/-- The record in the queue's state, field by field but for those that going on changes. -/
theorem sent_me (s : State) (i : Instr) (op : VOp) : (s.sent i op).me = (s.me.enqueue i op).canon := me_setMe _ _

theorem sent_hart (s : State) (i : Instr) (op : VOp) : (s.sent i op).hart s.cur = (s.me.enqueue i op).canon := me_setMe _ _

theorem stopAt_none {h : Hart} {e : VEntry} (op : VOp) (hb : ∀ k (hk : k < 8), (h.bpctl[k].getLsbD 0 && h.bpctl[k].getLsbD 1) = false) :
    stopAt h e op = (e.vl.toNat, []) := by
  have hn : elementBps h e = [] := by
    unfold elementBps
    rw [List.filterMap_eq_nil_iff]
    intro n _
    have := hb (n % 8) (Nat.mod_lt _ (by decide))
    dsimp only
    rw [if_neg]
    rintro ⟨h0, h1, _⟩
    simp [BitVec.getLsbD, h0, h1] at this
  simp [stopAt, hn]

theorem streams_none {s : State} {g : Nat} {op : VOp} (h : ∀ k x, s.gangOf g = some (k, x) → x.streams = []) :
    consumed s g op = [] ∧ produced s g op = [] ∧ streamMisuse s g op = false := by
  unfold consumed produced streamMisuse
  cases hg : s.gangOf g with
  | none => simp
  | some p =>
    have := h p.1 p.2 (by rw [hg])
    simp [this]

theorem streamsDone_nil (g n : Nat) (s : State) : Gives (streamsDone g n [] []) s () s := by
  refine (Gives.getState s).bind ?_
  split
  · exact Gives.pure _ _
  · exact (Gives.eachM_nil _ s).bind (Gives.eachM_nil _ s)

/-- An instruction sent to an empty queue performs at once. -/
theorem send_gives {s t : State} {i : Instr} {op : VOp} (hl : s.Lone) (hz : sized i = true → s.sg s.cur = s.me.lay)
    (hv : vop i s.me.vtype s.me = some op) (hi : sendIllegal s.me op = false) (hp : Gives (perform (ctxOf s i op) i) (s.sent i op) true t) :
    Gives (send i) s () t := by
  obtain ⟨⟨_, ⟨hvq, hrq, hmig, hlag⟩, ⟨_, _, hsp, _⟩, hbr⟩, hun⟩ := hl
  have hsz : s.me.sizedFor i (s.sg s.cur) = s.me := by
    unfold Hart.sizedFor
    split
    · rename_i h
      rw [hz h]
    · rfl
  have hfree : s.me.free (op.opa.toList ++ op.opb.toList) := by
    constructor
    · intro r _
      simp [Hart.pendingX, hrq]
    · intro _
      simp [Hart.pendingX, hrq]
  refine (Gives.getState s).bind ?_
  change Gives (match vop i s.me.vtype (s.me.sizedFor i (s.sg s.cur)) with | none => _ | some op => _) s () t
  rw [hsz, hv]
  refine (needRegs_gives hfree).bind ?_
  rw [show sendIllegal (s.hart s.cur) op = false from hi]
  refine (needPast_gives _ hvq).bind ?_
  refine (Gives.gets _ s).bind ?_
  rw [(streams_none hun).2.2]
  refine (Gives.getHart _ s).bind ?_
  have hroom : Hart.roomFor (s.hart s.cur) op = true := by
    have h1 : (s.hart s.cur).vq = [] := hvq
    have h2 : (s.hart s.cur).rq = [] := hrq
    simp [Hart.roomFor, h1, h2, Config.vqDepth, Config.rqDepth]
  rw [hroom]
  refine (Gives.whenM_false _ s).bind ?_
  refine (Gives.getHart _ s).bind ?_
  rw [if_pos hroom]
  refine (Gives.putHart _ _ s).bind ?_
  have hlay : ({ ((s.hart s.cur).sizedFor i (s.sg s.cur)).enqueue i op with lay := (s.hart s.cur).lay } : Hart) = s.me.enqueue i op := by
    change ({ (s.me.sizedFor i (s.sg s.cur)).enqueue i op with lay := s.me.lay } : Hart) = _
    rw [hsz, Hart.enqueue_eq]
    rfl
  rw [hlay, hlag]
  change Gives (runQueue s.cur ((s.hart s.cur).vq.length + 1)) (s.sent i op) () t
  have hq0 : (s.hart s.cur).vq = [] := hvq
  rw [hq0]
  -- the head
  have hsq : ((s.sent i op).hart s.cur).vq = [headOf s.me i op] := by
    rw [sent_hart]
    exact enqueue_vq hvq hrq
  have hmod : Prim.apply (s.sent i op) (.hart s.cur (((s.sent i op).hart s.cur).modHead (fun _ => headOf s.me i op))) = s.sent i op := by
    have e : ((s.sent i op).hart s.cur).modHead (fun _ => headOf s.me i op) = (s.me.enqueue i op).canon := by
      rw [sent_hart] at hsq ⊢
      generalize (s.me.enqueue i op).canon = H at hsq
      unfold Hart.modHead
      rw [hsq]
      cases H
      simp at hsq
      subst hsq
      rfl
    rw [e]
    change (s.setMe (s.me.enqueue i op)).setMe _ = _
    rw [setMe_setMe]
    simp [State.setMe, Prim.apply, State.sent]
  have hhead : Gives (runHead s.cur) (s.sent i op) true t := by
    refine (Gives.getHart _ _).bind ?_
    rw [hsq]
    dsimp only
    have hheld : ((s.sent i op).hart s.cur).vqHeld = false := by
      rw [sent_hart]
      exact (enqueue_flags _ _ _).2
    have hmig' : ((s.sent i op).hart s.cur).migVec = none := by
      rw [sent_hart]
      change (s.me.enqueue i op).migVec = none
      rw [Hart.enqueue_eq]
      exact hmig
    rw [hheld, hmig']
    simp only [Bool.false_eq_true, Option.isSome_none, or_self, if_false]
    have hspill : ((s.sent i op).hart s.cur).spilled = false := by
      rw [sent_hart]
      change (s.me.enqueue i op).spilled = false
      rw [Hart.enqueue_eq]
      exact hsp
    refine Gives.bind (x := true) (s' := s.sent i op) ?_ ?_
    · refine (Gives.getHart _ _).bind ?_
      rw [hspill]
      exact Gives.pure _ _
    rw [if_pos rfl]
    refine (Gives.getHart _ _).bind ?_
    have hpend : (headOf s.me i op).vlPend = false := rfl
    rw [if_neg (by simp [hpend])]
    refine (Gives.modHart _ _ _).bind ?_
    rw [hmod]
    have hvop : vop (headOf s.me i op).insn (headOf s.me i op).vtype
        { (s.sent i op).hart s.cur with lay := (headOf s.me i op).size } = some op := by
      rw [← hv, sent_hart, Hart.enqueue_eq]
      exact vop_congr _ _ _ _ rfl rfl rfl rfl
    rw [hvop]
    dsimp only
    unfold performHead
    refine (Gives.getState _).bind ?_
    have hst : stopAt ((s.sent i op).hart s.cur) (headOf s.me i op) op = ((headOf s.me i op).vl.toNat, []) := by
      apply stopAt_none
      rw [sent_hart]
      change ∀ k (hk : k < 8), ((s.me.enqueue i op).bpctl[k].getLsbD 0 && (s.me.enqueue i op).bpctl[k].getLsbD 1) = false
      rw [Hart.enqueue_eq]
      exact hbr
    have hun' : ∀ k x, (s.sent i op).gangOf s.cur = some (k, x) → x.streams = [] := by
      intro k x hx
      apply hun k x
      rw [← hx]
      unfold State.gangOf
      rw [sent_hart]
      have e : (s.me.enqueue i op).canon.place = s.me.place := by
        change (s.me.enqueue i op).place = _
        rw [Hart.enqueue_eq]
        rfl
      rw [e]
      rfl
    dsimp only
    have hit : itemsFor (s.sent i op) s.cur op = [] := by
      unfold itemsFor
      rw [(streams_none hun').1]
      cases (s.sent i op).gangOf s.cur <;> rfl
    have hck : streamsCheck (s.sent i op) s.cur (headOf s.me i op) op = .ready := by
      unfold streamsCheck
      rw [(streams_none hun').1, (streams_none hun').2.1]
      cases (s.sent i op).gangOf s.cur <;> rfl
    rw [hst, hit, hck, (streams_none hun').1, (streams_none hun').2.1]
    have hre : itemsReach (headOf s.me i op) [] = none := rfl
    simp only [hre, Option.filter_none, Option.getD_none, Option.isSome_none, List.map_nil, List.foldl_nil, Nat.lt_irrefl, false_and,
      if_false, Bool.false_eq_true]
    refine Gives.bind (x := true) hp ?_
    rw [if_pos rfl]
    exact (Gives.getHart _ _).bind ((streamsDone_nil _ _ _).bind (Gives.pure _ _))
  exact hhead.bind (by rw [if_pos rfl]; exact Gives.pure _ _)

/-! ### The record after completing -/

/-- Where going on leads rests on the pc, the loop, the x registers and the channels. -/
theorem Hart.goto_congr {h h' : Hart} (f : Flow) (n : Word) (hx : h'.x = h.x) (hl : h'.lp = h.lp) (hp : h'.pc = h.pc)
    (hc : h'.chans = h.chans) : (h'.goto f n).x = (h.goto f n).x ∧ (h'.goto f n).lp = (h.goto f n).lp ∧
      (h'.goto f n).pc = (h.goto f n).pc ∧ (h'.goto f n).chans = (h.goto f n).chans := by
  unfold Hart.goto Hart.tripEnd Hart.setX Hart.getX Hart.inBody
  simp only [hx, hl, hp, hc]
  split_ifs <;> simp_all

theorem Hart.takeSeed_eq (h : Hart) : h.takeSeed = { h with rmode := h.takeSeed.rmode } := by
  unfold Hart.takeSeed
  split <;> rfl

/-- Going past an instruction keeps every register but the x registers. -/
theorem past_fields (h : Hart) (i : Instr) {op : VOp} (hx : op.xd = none) :
    let p := h.past (lengthOf i) op.rounds
    p.v = h.v ∧ p.m = h.m ∧ p.w = h.w ∧ p.a = h.a ∧ p.e = h.e ∧ p.lay = h.lay ∧ p.fflags = h.fflags ∧ p.vl = h.vl ∧
    p.xfallbk = h.xfallbk ∧ p.mxcyc = h.mxcyc ∧ p.ilk = h.ilk.map Ilk.passed ∧ p.chans = (h.enqueue i op).chans := by
  dsimp only
  have hT : ∃ r, (if op.rounds then h.takeSeed else h) = { h with rmode := r } := by
    split
    · exact ⟨_, Hart.takeSeed_eq h⟩
    · exact ⟨h.rmode, rfl⟩
  obtain ⟨r, hT⟩ := hT
  have hg := (Hart.goto_congr (h := { h with rmode := r }) (h' := h.queued i op) .inline
    (h.pc + BitVec.ofNat 64 (lengthOf i)) rfl rfl rfl rfl).2.2.2
  unfold Hart.past
  rw [hT, Hart.enqueue_queued h i (by simp [hx]), hg]
  rw [Hart.goto_eq]
  exact ⟨rfl, rfl, rfl, rfl, rfl, rfl, rfl, rfl, rfl, rfl, rfl, rfl⟩

/-- The record after an entry without an x result has completed, whatever its own effect on vector, mask, scale and accumulator
registers, histories, flags and VL was. -/
theorem popEntry_past {h : Hart} {i : Instr} {op : VOp} {len k : Nat} (hq : h.vq = [] ∧ h.rq = [] ∧ h.migVec = none)
    (hx : op.xd = none) (hlen : lengthOf i = len) (hk : k = h.groups) (v m w a e fl vl xf mx ch il) :
    (Hart.popEntry { (h.enqueue i op).canon with
      v := v, m := m, w := w, a := a, e := e, fflags := fl, vl := vl, xfallbk := xf, mxcyc := mx, chans := ch
      ilk := il } k).canon = ({ h.past len op.rounds with
      v := v, m := m, w := w, a := a, e := e, fflags := fl, vl := vl, xfallbk := xf, mxcyc := mx, chans := ch
      ilk := il.map Ilk.passed } : Hart).canon := by
  obtain ⟨h1, h2, h3⟩ := hq
  have hvq := enqueue_vq (i := i) (op := op) h1 h2
  have hrq := enqueue_rq (i := i) (op := op) h1 h2
  have hseed : (h.queued i op).rmode = (if op.rounds then h.takeSeed else h).rmode := by
    unfold Hart.queued Hart.takeSeed
    cases op.rounds <;> simp
    split <;> rfl
  have hg := Hart.goto_congr (h := if op.rounds then h.takeSeed else h) (h' := h.queued i op) .inline
    (h.pc + BitVec.ofNat 64 len) (by rw [Hart.takeSeed_eq]; split <;> rfl) (by rw [Hart.takeSeed_eq]; split <;> rfl)
    (by rw [Hart.takeSeed_eq]; split <;> rfl) (by rw [Hart.takeSeed_eq]; split <;> rfl)
  have hpast : h.past len op.rounds = { ((if op.rounds then h.takeSeed else h).goto .inline (h.pc + BitVec.ofNat 64 len)) with
      vstart := 0
      vsWritten := false
      vqHeld := false
      bpSkip := false
      migVec := none
      holdV := false
      stoppedAt := false
      flight := none
      ilk := h.ilk.map Ilk.passed
      instret := h.instret + 1
      egops := h.egops + BitVec.ofNat 64 h.groups } := rfl
  rw [hpast]
  have hT : ∃ r, (if op.rounds then h.takeSeed else h) = { h with rmode := r } := by
    split
    · exact ⟨_, Hart.takeSeed_eq h⟩
    · exact ⟨h.rmode, rfl⟩
  obtain ⟨r, hT⟩ := hT
  rw [hT] at hseed hg ⊢
  subst hk hlen
  obtain ⟨g1, g2, g3, _⟩ := hg
  have hq := Hart.enqueue_queued h i (op := op) (by simp [hx])
  have e1 : (h.enqueue i op).x = _ := (congrArg Hart.x hq).trans g1
  have e2 : (h.enqueue i op).lp = _ := (congrArg Hart.lp hq).trans g2
  have e3 : (h.enqueue i op).pc = _ := (congrArg Hart.pc hq).trans g3
  clear hq
  have hG := Hart.goto_eq { h with rmode := r } .inline (h.pc + BitVec.ofNat 64 (lengthOf i))
  generalize Hart.goto { h with rmode := r } .inline (h.pc + BitVec.ofNat 64 (lengthOf i)) = G at *
  have hE := Hart.enqueue_eq h i op
  rw [e1, e2, e3] at hE
  generalize h.enqueue i op = E at *
  have hrq' : (h.queued i op).rq = [] := by
    rw [Hart.queued, h2, hx]
    rfl
  have hvqn : (if changesVl (headOf h i op).insn = true then takeVl vl ([] : List VEntry) else []) = h.vq := by
    rw [h1]
    split <;> rfl
  unfold Hart.popEntry
  have hv' : E.canon.vq = [headOf h i op] := hvq
  rw [hv']
  dsimp only
  rw [hvqn]
  rw [hG, hE]
  unfold Hart.canon
  dsimp only
  simp only [hrq', List.map_nil, hseed]
  simp only [Hart.queued, h2]
  simp [BitVec.and_assoc]

/-! ### An entry with an x result -/

theorem and_even (a : Word) : (a &&& ~~~1#64) &&& ~~~1#64 = a &&& ~~~1#64 := by
  rw [BitVec.and_assoc, BitVec.and_self]

theorem set_zero_set (x : Vector Word 32) (r : BitVec 5) (hr : r ≠ 0#5) (b : Word) :
    ((x.set 0 0).set r.toNat b r.isLt).set 0 0 = (x.set r.toNat b r.isLt).set 0 0 := by
  have : r.toNat ≠ 0 := fun h => hr (BitVec.eq_of_toNat_eq (by simpa using h))
  apply Vector.ext
  intro k hk
  simp only [Vector.getElem_set]
  split_ifs <;> simp_all

/-- A record with the four fields that going on changes. -/
def Hart.moved (h : Hart) (x : Vector Word 32) (lp : LoopState) (pc : Word) (ch : Vector Chan 4) : Hart :=
  { h with x := x, lp := lp, pc := pc, chans := ch }

/-- The four fields agree, as going on and canonical form leave them. -/
def Hart.sameFour (h k : Hart) : Prop :=
  h.x.set 0 0 = k.x.set 0 0 ∧ h.lp = k.lp ∧ h.pc &&& ~~~1#64 = k.pc &&& ~~~1#64 ∧ h.chans = k.chans

theorem fillRq_waiting {Y : Hart} {e : VEntry} {d : BitVec 5} (v : Word) (y1 : Y.vq = [e])
    (y2 : Y.rq = [{ reg := d, qpos := 0, value := none }]) (y3 : e.rq = some 0) :
    Y.fillRq v = if d = Y.lp.reg then ({ Y.setX d v with rq := [] } : Hart).decideTrip else { Y.setX d v with rq := [] } := by
  unfold Hart.fillRq
  rw [y1, y2]
  dsimp only
  rw [y3]
  simp only [Option.isSome_some, if_true, List.map_nil]
  rw [← y1]
  cases Y
  unfold Hart.setX
  split_ifs <;> simp_all

/-- The trip that waits is decided as the value says. -/
theorem fillRq_decided {Y : Hart} {e : VEntry} {d : BitVec 5} (v : Word) (y1 : Y.vq = [e])
    (y2 : Y.rq = [{ reg := d, qpos := 0, value := none }]) (y3 : e.rq = some 0) (y4 : d = Y.lp.reg) (y5 : d ≠ 0#5)
    (y6 : Y.lp.active = true) (y7 : Y.lp.trip = .atPc) :
    let T := (Hart.setX { Y with lp := { Y.lp with trip := .no } } d v).tripEnd
    Y.fillRq v = ({ Y with rq := [] } : Hart).moved T.x T.lp T.pc T.chans := by
  rw [fillRq_waiting v y1 y2 y3, if_pos y4]
  unfold Hart.decideTrip Hart.setX
  rw [if_neg y5, if_neg y5]
  dsimp only
  rw [y7]
  dsimp only
  rw [if_pos y6]
  unfold Hart.tripEnd Hart.setX Hart.moved Hart.getX
  dsimp only
  split_ifs <;> rfl

/-- Without one only the register is written. -/
theorem fillRq_plain {Y : Hart} {e : VEntry} {d : BitVec 5} (v : Word) (y1 : Y.vq = [e])
    (y2 : Y.rq = [{ reg := d, qpos := 0, value := none }]) (y3 : e.rq = some 0) (y7 : Y.lp.trip = .no) :
    Y.fillRq v = ({ Y with rq := [] } : Hart).moved (Y.setX d v).x Y.lp Y.pc Y.chans := by
  rw [fillRq_waiting v y1 y2 y3]
  unfold Hart.decideTrip Hart.setX Hart.moved
  split_ifs <;> simp_all

theorem tripEnd_four {h k : Hart} (hc : k.lp = h.lp ∧ k.chans = h.chans) (hx : k.x.set 0 0 = h.x.set 0 0) (hr : h.lp.reg ≠ 0#5) :
    k.tripEnd.sameFour h.tripEnd := by
  obtain ⟨a, b⟩ := hc
  have hne : (0 : Nat) ≠ h.lp.reg.toNat := fun e => hr (BitVec.eq_of_toNat_eq (by simpa using e.symm))
  have hg : k.getX h.lp.reg = h.getX h.lp.reg := by
    have := congrArg (fun x => x[h.lp.reg.toNat]'h.lp.reg.isLt) hx
    simpa [Vector.getElem_set, hne, Hart.getX] using this
  have hsx : ∀ v, (k.x.set h.lp.reg.toNat v h.lp.reg.isLt).set 0 0 = (h.x.set h.lp.reg.toNat v h.lp.reg.isLt).set 0 0 := by
    intro v
    rw [← set_zero_set _ _ hr, hx, set_zero_set _ _ hr]
  unfold Hart.tripEnd Hart.setX
  rw [a, hg, if_neg hr, if_neg hr, b]
  split_ifs <;> exact ⟨hsx _, rfl, rfl, rfl⟩

/-- The record after the x result of the oldest entry has arrived. -/
theorem fillRq_fields {h : Hart} {i : Instr} {op : VOp} {d : BitVec 5} (v : Word)
    (hq : h.vq = [] ∧ h.rq = []) (ht : h.lp.trip = .no) (hx : op.xd = some d) :
    ∃ F : Hart, (h.enqueue i op).canon.fillRq v = ({ (h.queued i op).canon with rq := [] } : Hart).moved F.x F.lp F.pc F.chans ∧
      F.sameFour ((h.setX d v).goto .inline (h.pc + BitVec.ofNat 64 (lengthOf i))) := by
  obtain ⟨h1, h2⟩ := hq
  have hqv : (h.queued i op).vq = [headOf h i op] := by simp [Hart.queued, h1, h2, headOf]
  have hqr : (h.queued i op).rq = [{ reg := d, qpos := 0, value := none }] := by simp [Hart.queued, h1, h2, hx]
  have hd : (headOf h i op).rq = some 0 := by simp [headOf, hx]
  have q1 : (h.queued i op).x = h.x := rfl
  have q2 : (h.queued i op).lp = h.lp := rfl
  have q3 : (h.queued i op).pc = h.pc := rfl
  have q4 : (h.queued i op).chans = h.chans := rfl
  rw [Hart.enqueue_cases]
  generalize hQ : h.queued i op = Q at *
  have hb : (h.setX d v).inBody (h.setX d v).pc = h.inBody h.pc := by
    unfold Hart.setX Hart.inBody
    split_ifs <;> rfl
  have hlp : (h.setX d v).lp = h.lp := by
    unfold Hart.setX
    split_ifs <;> rfl
  have hch : (h.setX d v).chans = h.chans := by
    unfold Hart.setX
    split_ifs <;> rfl
  by_cases hw : op.xd = some h.lp.reg ∧ h.lp.reg ≠ 0#5 ∧ h.inBody h.pc = true ∧ h.pc + BitVec.ofNat 64 (lengthOf i) = h.lp.stop
  · rw [if_pos hw]
    obtain ⟨w1, w2, w3, w4⟩ := hw
    rw [hx] at w1
    obtain rfl : d = h.lp.reg := by simpa using w1
    have hact : h.lp.active = true := by
      simp only [Hart.inBody, Bool.and_eq_true] at w3
      exact w3.1.1
    have e0 : h.lp = { h.lp with trip := .no } := by
      rw [← ht]
    change ∃ F : Hart, (Hart.canon (Q.moved Q.x { h.lp with trip := .atPc } (h.pc + BitVec.ofNat 64 (lengthOf i)) Q.chans)).fillRq v = _ ∧ _
    refine ⟨_, fillRq_decided (e := headOf h i op) (d := h.lp.reg) v hqv hqr hd rfl w2 hact rfl, ?_⟩
    unfold Hart.goto
    rw [hb, if_pos w3, hlp, if_pos w4]
    refine tripEnd_four (h := h.setX h.lp.reg v) ⟨?_, ?_⟩ ?_ (by rw [hlp]; exact w2)
    · rw [hlp, Hart.setX, if_neg w2]
      exact e0.symm
    · rw [hch, Hart.setX, if_neg w2]
      exact q4
    · rw [Hart.setX, if_neg w2, Hart.setX, if_neg w2]
      change ((Q.x.set 0 0).set h.lp.reg.toNat v h.lp.reg.isLt).set 0 0 = _
      rw [set_zero_set _ _ w2, q1]
  · rw [if_neg hw]
    have hlp2 : (Q.goto .inline (h.pc + BitVec.ofNat 64 (lengthOf i))).lp.trip = .no := by
      unfold Hart.goto Hart.tripEnd Hart.setX
      split_ifs <;> simp_all
    rw [show Q.goto .inline (h.pc + BitVec.ofNat 64 (lengthOf i)) = Q.moved
      (Q.goto .inline (h.pc + BitVec.ofNat 64 (lengthOf i))).x (Q.goto .inline (h.pc + BitVec.ofNat 64 (lengthOf i))).lp
      (Q.goto .inline (h.pc + BitVec.ofNat 64 (lengthOf i))).pc (Q.goto .inline (h.pc + BitVec.ofNat 64 (lengthOf i))).chans
      from Hart.goto_eq _ _ _]
    refine ⟨Q.moved _ _ _ _, fillRq_plain (e := headOf h i op) (d := d) v hqv hqr hd hlp2, ?_⟩
    have hco := Hart.goto_congr (h := h) (h' := Q) .inline (h.pc + BitVec.ofNat 64 (lengthOf i)) q1 q2 q3 q4
    obtain ⟨c1, c2, c3, c4⟩ := hco
    rw [c1, c2, c3, c4]
    by_cases d0 : d = 0#5
    · subst d0
      have hs : ∀ Y : Hart, ∀ v, Y.setX 0#5 v = Y := fun Y v => if_pos rfl
      rw [hs, hs]
      refine ⟨?_, rfl, ?_, rfl⟩
      · apply Vector.ext
        intro k hk
        simp only [Hart.moved, Hart.canon, Vector.getElem_set]
        split_ifs <;> rfl
      · exact and_even _
    · have hs : ∀ Y : Hart, ∀ v, Y.setX d v = { Y with x := Y.x.set d.toNat v d.isLt } := fun Y v => if_neg d0
      rw [hs, hs]
      unfold Hart.goto
      have hb' : Hart.inBody { h with x := h.x.set d.toNat v d.isLt } h.pc = h.inBody h.pc := rfl
      dsimp only
      rw [hb']
      by_cases k1 : h.inBody h.pc = true
      · rw [if_pos k1, if_pos k1]
        by_cases k2 : h.pc + BitVec.ofNat 64 (lengthOf i) = h.lp.stop
        · rw [if_pos k2, if_pos k2]
          have hne : h.lp.reg ≠ 0#5 → d ≠ h.lp.reg := fun e1 e2 => hw ⟨by rw [hx, e2], e1, k1, k2⟩
          have hst : ∀ (x : Vector Word 32) (a b : Word), d ≠ h.lp.reg →
              ((x.set h.lp.reg.toNat a h.lp.reg.isLt).set d.toNat b d.isLt) =
                (x.set d.toNat b d.isLt).set h.lp.reg.toNat a h.lp.reg.isLt := by
            intro x a b hn
            have : h.lp.reg.toNat ≠ d.toNat := fun e => hn (BitVec.eq_of_toNat_eq e.symm)
            exact Vector.set_comm _ _ this
          have hgx : d ≠ h.lp.reg → Hart.getX { h with x := h.x.set d.toNat v d.isLt } h.lp.reg = h.getX h.lp.reg := by
            intro hn
            have : d.toNat ≠ h.lp.reg.toNat := fun e => hn (BitVec.eq_of_toNat_eq e)
            simp [Hart.getX, this]
          by_cases r0 : h.lp.reg = 0#5
          · have hn : d ≠ h.lp.reg := fun e => d0 (e.trans r0)
            unfold Hart.tripEnd
            dsimp only
            rw [hgx hn]
            unfold Hart.setX
            rw [if_pos r0, if_pos r0, if_pos r0]
            split_ifs <;> exact ⟨set_zero_set _ _ d0 _, rfl, and_even _, rfl⟩
          · have hn := hne r0
            unfold Hart.tripEnd
            dsimp only
            rw [hgx hn]
            unfold Hart.setX
            rw [if_neg r0, if_neg r0, if_neg r0]
            split_ifs <;> refine ⟨?_, rfl, and_even _, rfl⟩
            · refine (set_zero_set _ _ d0 _).trans ?_
              exact congrArg (fun x => Vector.set x 0 0) (hst _ _ _ hn)
            · refine (set_zero_set _ _ d0 _).trans ?_
              exact congrArg (fun x => Vector.set x 0 0) (hst _ _ _ hn)
        · rw [if_neg k2, if_neg k2]
          simp only [reduceCtorEq, false_and, if_false]
          refine ⟨set_zero_set _ _ d0 _, rfl, ?_, rfl⟩
          exact and_even _
      · rw [if_neg k1, if_neg k1]
        refine ⟨set_zero_set _ _ d0 _, rfl, ?_, rfl⟩
        exact and_even _
/-- The record after an entry with an x result has completed: x[d] is written before the hart goes on, so that a trip which ends
there is decided on the value (R125, R220). -/
theorem popEntry_past_x {h : Hart} {i : Instr} {op : VOp} {d : BitVec 5} {len : Nat} (v : Word)
    (hq : h.vq = [] ∧ h.rq = [] ∧ h.migVec = none) (ht : h.lp.trip = .no) (hx : op.xd = some d) (hlen : lengthOf i = len) :
    (Hart.popEntry ((h.enqueue i op).canon.fillRq v) h.groups).canon = ((h.setX d v).past len op.rounds).canon := by
  subst hlen
  obtain ⟨F, e, f1, f2, f3, f4⟩ := fillRq_fields (i := i) v ⟨hq.1, hq.2.1⟩ ht hx
  rw [e]
  have hs : h.setX d v = { h with x := (h.setX d v).x } := by
    unfold Hart.setX
    split_ifs <;> rfl
  generalize (h.setX d v).x = X at hs
  rw [hs] at f1 f2 f3 f4 ⊢
  have hT : ∃ r, (if op.rounds then Hart.takeSeed { h with x := X } else { h with x := X }) = ({ h with x := X, rmode := r } : Hart) := by
    split
    · exact ⟨_, Hart.takeSeed_eq _⟩
    · exact ⟨h.rmode, rfl⟩
  have hseed : (h.queued i op).rmode = (if op.rounds then Hart.takeSeed { h with x := X } else { h with x := X }).rmode := by
    unfold Hart.queued Hart.takeSeed
    cases op.rounds <;> simp
    split <;> rfl
  obtain ⟨r, hT⟩ := hT
  unfold Hart.past
  rw [hT] at hseed ⊢
  rw [show Hart.groups { h with x := X } = h.groups from rfl]
  have hg := Hart.goto_congr (h := { h with x := X }) (h' := { h with x := X, rmode := r }) .inline
    (h.pc + BitVec.ofNat 64 (lengthOf i)) rfl rfl rfl rfl
  obtain ⟨g1, g2, g3, g4⟩ := hg
  rw [Hart.goto_eq { h with x := X, rmode := r }]
  rw [← g1] at f1
  rw [← g2] at f2
  rw [← g3] at f3
  rw [← g4] at f4
  generalize Hart.goto { h with x := X, rmode := r } .inline (h.pc + BitVec.ofNat 64 (lengthOf i)) = G at *
  have hqv : (h.queued i op).vq = [headOf h i op] := by simp [Hart.queued, hq.1, hq.2.1, headOf]
  have hvqn : (if changesVl (headOf h i op).insn = true then takeVl h.vl ([] : List VEntry) else []) = h.vq := by
    rw [hq.1]
    split <;> rfl
  unfold Hart.popEntry
  rw [show (({ (h.queued i op).canon with rq := [] } : Hart).moved F.x F.lp F.pc F.chans).vq = [headOf h i op] from hqv]
  dsimp only
  rw [show (({ (h.queued i op).canon with rq := [] } : Hart).moved F.x F.lp F.pc F.chans).vl = h.vl from rfl, hvqn]
  unfold Hart.moved Hart.canon
  dsimp only
  rw [f1, f2, f3, f4, hseed]
  dsimp only
  simp [Hart.queued, BitVec.and_assoc, hq.2.1]

/-! ### Element loops -/

/-- A record that differs from another in vector registers and flags alone. -/
def Hart.near (h H : Hart) : Prop := ∃ v f, H = { h with v := v, fflags := f }

theorem Hart.near.vput {h H : Hart} (hn : h.near H) (t : BitVec 8) (b i x : Nat) : h.near (H.vput t b i x) := by
  obtain ⟨v, f, rfl⟩ := hn
  exact ⟨_, _, rfl⟩

theorem Hart.near.orFlags {h H : Hart} (hn : h.near H) (f : Nat) : h.near (H.orFlags f) := by
  obtain ⟨v, f, rfl⟩ := hn
  exact ⟨_, _, rfl⟩

theorem Hart.near.trim {h H : Hart} (hn : h.near H) (t : BitVec 8) (b n : Nat) : h.near (H.trim t b n) := by
  obtain ⟨v, f, rfl⟩ := hn
  rw [Hart.trim_v]
  exact ⟨_, _, rfl⟩

theorem Hart.near.lay {h H : Hart} (hn : h.near H) : H.lay = h.lay := by
  obtain ⟨v, f, rfl⟩ := hn
  rfl

theorem orFlags_bit (h : Hart) (f k : Nat) (hk : k < 5) :
    (h.orFlags f).fflags.getLsbD k = (h.fflags.getLsbD k || f.testBit k) := by
  rw [Hart.orFlags, BitVec.getLsbD_or, BitVec.getLsbD_ofNat]
  simp [hk]

/-- An element loop over a vector group, when no flag traps. -/
theorem fold_writes {t : BitVec 8} {d n ten : Nat} (hb : d + n ≤ 32) {h0 : Hart} {f : Nat → Hart → Nat × Nat} {val fl : Nat → Nat}
    (l : List Nat) (hl : l.Pairwise (· < ·)) (hcap : ∀ e ∈ l, e < n * perReg h0.lay (codeWidth t))
    (hten : ∀ e ∈ l, trappedFlag (fl e) ten = none)
    (hf : ∀ e ∈ l, ∀ H, h0.near H → (∀ r, r < 32 → r < d ∨ d + n ≤ r → H.vreg r = h0.vreg r) →
      H.vget t d e = h0.vget t d e → f e H = (val e, fl e)) :
    ∀ H, h0.near H → (∀ r, r < 32 → r < d ∨ d + n ≤ r → H.vreg r = h0.vreg r) →
      (∀ e ∈ l, H.vget t d e = h0.vget t d e) →
      ∃ H', VCtx.fold ten (fun i h => (h.vput t d i (f i h).1, (f i h).2)) l H = (H', none) ∧ h0.near H' ∧
        (∀ r, r < 32 → r < d ∨ d + n ≤ r → H'.vreg r = h0.vreg r) ∧
        (∀ e, e < n * perReg h0.lay (codeWidth t) →
          H'.vget t d e = if e ∈ l then val e % 2 ^ codeWidth t else H.vget t d e) ∧
        (∀ k, k < 5 → (H'.fflags.getLsbD k = true ↔ H.fflags.getLsbD k = true ∨ ∃ e ∈ l, (fl e).testBit k = true)) := by
  induction l with
  | nil =>
    intro H hn ho _
    exact ⟨H, rfl, hn, ho, fun e _ => by simp, fun k _ => by simp⟩
  | cons i is ih =>
    intro H hn ho hv
    have hi := hf i (List.mem_cons_self ..) H hn ho (hv i (List.mem_cons_self ..))
    have hci := hcap i (List.mem_cons_self ..)
    rw [List.pairwise_cons] at hl
    have hlay := hn.lay
    let H1 := (H.vput t d i (val i)).orFlags (fl i)
    have hne : ∀ e, e ∈ is → e ≠ i := fun e he => by
      have := hl.1 e he
      omega
    have hv1 : ∀ e, e < n * perReg h0.lay (codeWidth t) → e ≠ i → H1.vget t d e = H.vget t d e := by
      intro e he hei
      rw [← hlay] at he hci
      exact Hart.vget_vput_other H t (val i) hb hci he (Ne.symm hei)
    have hv0 : H1.vget t d i = val i % 2 ^ codeWidth t := by
      rw [← hlay] at hci
      exact Hart.vget_vput_same H t (val i) hb hci
    obtain ⟨H', e1, e2, e3, e4, e5⟩ := ih hl.2 (fun e he => hcap e (List.mem_cons_of_mem _ he))
      (fun e he => hten e (List.mem_cons_of_mem _ he)) (fun e he => hf e (List.mem_cons_of_mem _ he)) H1
      ((hn.vput _ _ _ _).orFlags _)
      (fun r hr hro => by
        rw [← ho r hr hro]
        rw [← hlay] at hci
        exact Hart.vreg_vput_outside H t (val i) hb hci hr hro)
      (fun e he => by
        rw [hv1 e (hcap e (List.mem_cons_of_mem _ he)) (hne e he)]
        exact hv e (List.mem_cons_of_mem _ he))
    refine ⟨H', ?_, e2, e3, ?_, ?_⟩
    · rw [VCtx.fold, hi]
      dsimp only
      rw [hten i (List.mem_cons_self ..)]
      exact e1
    · intro e he
      rw [e4 e he]
      by_cases hei : e = i
      · subst hei
        have : e ∉ is := fun h => hne e h rfl
        simp [this, hv0]
      · rw [hv1 e he hei]
        simp [hei]
    · intro k hk
      rw [e5 k hk, orFlags_bit _ _ _ hk]
      have : (H.vput t d i (val i)).fflags = H.fflags := rfl
      rw [this]
      simp [or_assoc]

theorem trappedFlag_none (ten : Nat) : trappedFlag 0 ten = none := by simp [trappedFlag]

/-- The elements from the first one up to VL, in order. -/
theorem range'_sorted (i n : Nat) : (range' i n).Pairwise (· < ·) := by
  unfold range'
  rw [List.pairwise_map]
  exact List.pairwise_lt_range.imp (fun h => by omega)

theorem mem_range' {i n e : Nat} : e ∈ range' i n ↔ i ≤ e ∧ e < i + n := by
  unfold range'
  simp only [List.mem_map, List.mem_range]
  constructor
  · rintro ⟨k, hk, rfl⟩
    omega
  · intro h
    exact ⟨e - i, by omega, by omega⟩

theorem mem_elems (s : State) (i : Instr) (op : VOp) (e : Nat) :
    e ∈ (ctxOf s i op).elems ↔ s.me.first ≤ e ∧ e < s.me.vl.toNat := by
  have : (ctxOf s i op).start = s.me.first := by
    unfold VCtx.start ctxOf headOf Hart.first
    dsimp only
    split <;> rfl
  rw [VCtx.elems, this, mem_range']
  change _ ∧ e < s.me.first + (s.me.vl.toNat - s.me.first) ↔ _
  omega

/-- Every element below VL is covered where no stream is bound. -/
theorem on_eq (s : State) (i : Instr) (op : VOp) (h : Hart) (m : BitVec 4) {e : Nat} (he : e < s.me.vl.toNat) :
    (ctxOf s i op).on h m e = (m == 12 || (h.mreg m.toNat).testBit e) := by
  have := s.me.vl.isLt
  have : e < (ctxOf s i op).cover := by
    change e < 2 ^ 23
    omega
  simp [VCtx.on, this]

theorem groupsTo_eq (s : State) (i : Instr) (op : VOp) : (ctxOf s i op).groupsTo (ctxOf s i op).lim = s.me.groups := by
  have : (ctxOf s i op).start = s.me.first := by
    unfold VCtx.start ctxOf headOf Hart.first
    dsimp only
    split <;> rfl
  unfold VCtx.groupsTo Hart.groups
  rw [this]
  rfl

theorem finish_gives (s u : State) (i : Instr) (op : VOp) (h : Hart) :
    Gives ((ctxOf s i op).finish h) u true (Prim.apply u (.hart s.cur (h.popEntry s.me.groups))) := by
  have hb : (ctxOf s i op).breaks = false := by simp [VCtx.breaks, ctxOf]
  have hm : (ctxOf s i op).more = false := rfl
  unfold VCtx.finish
  rw [hb, hm, groupsTo_eq]
  simp only [Bool.false_eq_true, false_and, if_false]
  exact (Gives.putHart _ _ _).bind (Gives.pure _ _)

/-! ### An elementwise instruction into a vector group -/

/-- The registers that a group lies in. -/
theorem group_fits {h : Hart} {d : BitVec 5} (hd : d.toNat % vtGroup h.vtype = 0) : d.toNat + vtGroup h.vtype ≤ 32 := by
  have h1 := d.isLt
  unfold vtGroup at *
  generalize BitVec.extractLsb' 8 2 h.vtype = c at *
  have four : ∀ c : BitVec 2, c = 0#2 ∨ c = 1#2 ∨ c = 2#2 ∨ c = 3#2 := by decide
  have := four c
  rcases this with rfl | rfl | rfl | rfl <;> simp at * <;> omega

/-- The record in the queue's state has the sender's registers. -/
theorem sent_fields (s : State) (i : Instr) (op : VOp) :
    let h := (s.sent i op).hart s.cur
    h.v = s.me.v ∧ h.m = s.me.m ∧ h.w = s.me.w ∧ h.a = s.me.a ∧ h.e = s.me.e ∧ h.lay = s.me.lay ∧ h.fflags = s.me.fflags ∧
    h.vl = s.me.vl ∧ h.tilem = s.me.tilem ∧ h.tilen = s.me.tilen ∧ h.tilek = s.me.tilek ∧
    trapEnables h.rmode = trapEnables s.me.rmode := by
  dsimp only
  rw [sent_hart, Hart.enqueue_eq]
  refine ⟨rfl, rfl, rfl, rfl, rfl, rfl, rfl, rfl, rfl, rfl, rfl, ?_⟩
  unfold trapEnables Hart.canon Hart.queued
  dsimp only
  have bits : ∀ x y : Word, (∀ k, 3 ≤ k → k < 8 → x.getLsbD k = y.getLsbD k) → bitsGet x.toNat 3 5 = bitsGet y.toNat 3 5 := by
    intro x y h
    apply Nat.eq_of_testBit_eq
    intro k
    rw [testBit_bitsGet, testBit_bitsGet]
    by_cases hk : k < 5
    · have := h (3 + k) (by omega) (by omega)
      simp only [BitVec.getLsbD] at this
      rw [this]
    · simp [hk]
  apply bits
  intro k h1 h2
  have hm : rmodeMask.getLsbD k = true := by
    unfold rmodeMask
    interval_cases k <;> decide
  rw [BitVec.getLsbD_and, hm, Bool.and_true]
  split
  · rw [BitVec.getLsbD_or, BitVec.getLsbD_and, BitVec.getLsbD_shiftLeft]
    have h3 : (0xFFFFFFFF#64).getLsbD k = true := by interval_cases k <;> decide
    have h4 : k < 32 := by omega
    change (_ && (0xFFFFFFFF#64).getLsbD k || _) = _
    rw [h3]
    simp [h4]
  · rfl

/-- The entry holds the trap enables of its send. -/
theorem ten_eq (s : State) (i : Instr) (op : VOp) : (ctxOf s i op).e.ten.toNat = trapEnables s.me.rmode := by
  change (BitVec.ofNat 5 (trapEnables s.me.rmode)).toNat = _
  rw [BitVec.toNat_ofNat]
  exact Nat.mod_eq_of_lt (Nat.mod_lt _ (by decide))

theorem elementwise_gives {c : VCtx} {on : Hart → Nat → Bool} {f : Nat → Hart → Hart × Nat} {last : Hart → Hart} {s u : State}
    {H : Hart} (h : VCtx.fold c.e.ten.toNat f (c.elems.filter (on (s.hart c.g))) (s.hart c.g) = (H, none))
    (hf : Gives (c.finish (if c.elems.isEmpty then H else last H)) s true u) : Gives (c.elementwise on f last) s true u := by
  refine (Gives.getHart _ _).bind ?_
  dsimp only
  rw [h]
  exact hf

/-- What an elementwise instruction into a group of VTYPE's format gives, when no flag of its elements traps. -/
theorem toVector_run {s : State} {i : Instr} {op : VOp} {m : BitVec 4} {t : BitVec 8} {d : BitVec 5} {n len : Nat}
    {f : Nat → Hart → Nat × Nat} {val fl : Nat → Nat} (hl : s.Lone) (hz : sized i = true → s.sg s.cur = s.me.lay) (hv : vop i s.me.vtype s.me = some op)
    (hi : sendIllegal s.me op = false) (hx : op.xd = none) (hlen : lengthOf i = len)
    (hp : perform (ctxOf s i op) i = (ctxOf s i op).toVector m t d n f)
    (hb : d.toNat + n ≤ 32) (hcap : s.me.vl.toNat ≤ n * perReg s.me.lay (codeWidth t))
    (hten : ∀ e, s.me.active m e = true → trappedFlag (fl e) (trapEnables s.me.rmode) = none)
    (hf : ∀ e H, s.me.active m e = true → ((s.sent i op).hart s.cur).near H →
      (∀ r, r < 32 → r < d.toNat ∨ d.toNat + n ≤ r → H.vreg r = s.me.vreg r) →
      H.vget t d.toNat e = s.me.vget t d.toNat e → f e H = (val e, fl e)) :
    ∃ h : Hart, runM (send i) s = .next (s.setMe h) ∧ h = { s.me.past len op.rounds with v := h.v, fflags := h.fflags } ∧
      s.me.Writes h t d n (s.me.active m) (fun e => val e % 2 ^ codeWidth t) ∧ s.me.Flags h (s.me.active m) fl := by
  let h0 := (s.sent i op).hart s.cur
  obtain ⟨f1, f2, f3, f4, f5, f6, f7, f8, f9, f10, f11, f12⟩ := sent_fields s i op
  have hreg : ∀ r, h0.vreg r = s.me.vreg r := fun r => by simp only [Hart.vreg, h0, f1]
  have hget : ∀ b e, h0.vget t b e = s.me.vget t b e := fun b e => by simp only [Hart.vget, h0, f6, hreg]
  have hon : ∀ e, e ∈ (ctxOf s i op).elems.filter (fun e => (ctxOf s i op).on h0 m e) ↔ s.me.active m e = true := by
    intro e
    rw [List.mem_filter, mem_elems]
    unfold Hart.active
    constructor
    · rintro ⟨⟨h1, h2⟩, h3⟩
      rw [on_eq s i op h0 m h2] at h3
      have : h0.mreg m.toNat = s.me.mreg m.toNat := by simp only [Hart.mreg, h0, f2]
      rw [this] at h3
      rw [h3]
      simp [h1, h2]
    · intro h
      simp only [Bool.and_eq_true, decide_eq_true_eq] at h
      refine ⟨h.1, ?_⟩
      rw [on_eq s i op h0 m h.1.2]
      have : h0.mreg m.toNat = s.me.mreg m.toNat := by simp only [Hart.mreg, h0, f2]
      rw [this]
      exact h.2
  have hlist : ((ctxOf s i op).elems.filter (fun e => (ctxOf s i op).on h0 m e)).Pairwise (· < ·) :=
    (range'_sorted _ _).filter _
  have hcap' : ∀ e, s.me.active m e = true → e < n * perReg h0.lay (codeWidth t) := by
    intro e he
    have : e < s.me.vl.toNat := by
      unfold Hart.active at he
      simp only [Bool.and_eq_true, decide_eq_true_eq] at he
      exact he.1.2
    simp only [h0, f6]
    omega
  obtain ⟨H, e1, e2, e3, e4, e5⟩ := fold_writes (t := t) (d := d.toNat) (n := n) (ten := (ctxOf s i op).e.ten.toNat) hb (h0 := h0)
    (f := f) (val := val) (fl := fl) ((ctxOf s i op).elems.filter (fun e => (ctxOf s i op).on h0 m e)) hlist
    (fun e he => hcap' e ((hon e).1 he))
    (fun e he => by rw [ten_eq]; exact hten e ((hon e).1 he))
    (fun e he H hn ho hve => hf e H ((hon e).1 he) hn (fun r h1 h2 => (ho r h1 h2).trans (hreg r)) (by rw [hve]; exact hget _ _))
    h0 ⟨h0.v, h0.fflags, rfl⟩ (fun _ _ _ => rfl) (fun _ _ => rfl)
  -- the record that completes
  let G : Hart := if (ctxOf s i op).elems.isEmpty then H else H.trim t d.toNat n
  have hG : h0.near G := by
    unfold G
    split
    · exact e2
    · exact e2.trim _ _ _
  have hGget : ∀ e, e < n * perReg s.me.lay (codeWidth t) → G.vget t d.toNat e = H.vget t d.toNat e := by
    intro e he
    unfold G
    split
    · rfl
    · exact Hart.vget_trim H t hb (Nat.le_refl n) (by rw [e2.lay]; simpa only [h0, f6] using he)
  have hGreg : ∀ r, r < 32 → r < d.toNat ∨ d.toNat + n ≤ r → G.vreg r = s.me.vreg r := by
    intro r h1 h2
    unfold G
    split
    · exact (e3 r h1 h2).trans (hreg r)
    · rw [Hart.vreg_trim_outside H t hb (Nat.le_refl n) h1 h2]
      exact (e3 r h1 h2).trans (hreg r)
  have hGfl : G.fflags = H.fflags := by
    unfold G
    split
    · rfl
    · rw [Hart.trim_v]
  have hperf : Gives (perform (ctxOf s i op) i) (s.sent i op) true
      (Prim.apply (s.sent i op) (.hart s.cur (G.popEntry s.me.groups))) := by
    rw [hp]
    exact elementwise_gives (c := ctxOf s i op) (H := H) e1 (finish_gives s _ i op G)
  let h : Hart := { s.me.past len op.rounds with v := G.v, fflags := G.fflags }
  refine ⟨h, ?_, rfl, ⟨?_, ?_⟩, ?_⟩
  · rw [(send_gives hl hz hv hi hperf).run]
    congr 1
    change (s.setMe (s.me.enqueue i op)).setMe (G.popEntry s.me.groups) = _
    rw [setMe_setMe]
    have key : (G.popEntry s.me.groups).canon = h.canon := by
      obtain ⟨v, fl', hG'⟩ := hG
      unfold h
      rw [hG']
      simp only [h0, sent_hart]
      have := popEntry_past (h := s.me) (i := i) (op := op) (len := len) (k := s.me.groups) ⟨hl.idle.1, hl.idle.2.1, hl.idle.2.2.1⟩
        hx hlen rfl v (s.me.enqueue i op).canon.m (s.me.enqueue i op).canon.w (s.me.enqueue i op).canon.a (s.me.enqueue i op).canon.e fl' (s.me.enqueue i op).canon.vl (s.me.enqueue i op).canon.xfallbk
        (s.me.enqueue i op).canon.mxcyc (s.me.enqueue i op).canon.chans (s.me.enqueue i op).canon.ilk
      refine this.trans ?_
      subst hlen
      obtain ⟨_, p2, p3, p4, p5, _, _, p8, p9, p10, p11, p12⟩ := past_fields s.me i hx
      have hE := Hart.enqueue_eq s.me i op
      have q2 : (s.me.enqueue i op).canon.m = s.me.m := by rw [hE]; rfl
      have q3 : (s.me.enqueue i op).canon.w = s.me.w := by rw [hE]; rfl
      have q4 : (s.me.enqueue i op).canon.a = s.me.a := by rw [hE]; rfl
      have q5 : (s.me.enqueue i op).canon.e = s.me.e := by rw [hE]; rfl
      have q6 : (s.me.enqueue i op).canon.vl = s.me.vl := by rw [hE]; rfl
      have q7 : (s.me.enqueue i op).canon.xfallbk = s.me.xfallbk := by rw [hE]; rfl
      have q8 : (s.me.enqueue i op).canon.mxcyc = s.me.mxcyc := by rw [hE]; rfl
      have q9 : (s.me.enqueue i op).canon.ilk = s.me.ilk := by rw [hE]; rfl
      rw [q2, q3, q4, q5, q6, q7, q8, q9, ← p2, ← p3, ← p4, ← p5, ← p8, ← p9, ← p10, ← p11]
      have q10 : (s.me.enqueue i op).canon.chans = (s.me.past (lengthOf i) op.rounds).chans := p12.symm
      rw [q10]
    simp [State.setMe, Prim.apply, key]
  · intro e he
    have : h.vget t d.toNat e = G.vget t d.toNat e := by
      have hlay : h.lay = G.lay := by
        rw [hG.lay]
        simp only [h0, f6]
        subst hlen
        exact (past_fields s.me i hx).2.2.2.2.2.1
      unfold Hart.vget
      rw [hlay]
      rfl
    rw [this, hGget e he, e4 e (by simpa only [h0, f6] using he)]
    simp only [hon]
    simp [hget]
  · intro r h1 h2
    exact hGreg r h1 h2
  · intro k hk
    change G.fflags.getLsbD k = true ↔ _
    rw [hGfl, e5 k hk]
    simp only [h0, f7, hon]

/-- VILL is bit 15 of VTYPE. -/
theorem vtIll_eq (v : Word) : vtIll v = v.getLsbD 15 := by
  rw [vtIll, Bool.eq_iff_iff, beq_iff_eq]
  constructor
  · intro h
    have := congrArg (fun x : BitVec 1 => x.getLsbD 0) h
    simpa using this
  · intro h
    apply BitVec.eq_of_getLsbD_eq
    intro i hi
    have : i = 0 := by omega
    subst this
    simpa using h

/-- A register that starts a group within the named registers is a legal operand. -/
theorem legal_of {h : Hart} {r : BitVec 5} (hg : r.toNat % vtGroup h.vtype = 0 ∧ r.toNat + vtGroup h.vtype ≤ h.named) (w : Nat) :
    VOperand.legal ⟨r.toNat, vtGroup h.vtype, w⟩ h.named = true := by
  simp [VOperand.legal, hg.1, hg.2]

/-- A source element of a group, read before the loop reaches it, is the sender's. -/
theorem ctx_src {s : State} {i : Instr} {op : VOp} {d r : BitVec 5} {H : Hart} {e : Nat}
    (hd : d.toNat % vtGroup s.me.vtype = 0) (hr : r.toNat % vtGroup s.me.vtype = 0)
    (he : e < s.me.capacity) (hn : ((s.sent i op).hart s.cur).near H)
    (ho : ∀ q, q < 32 → q < d.toNat ∨ d.toNat + vtGroup s.me.vtype ≤ q → H.vreg q = s.me.vreg q)
    (hv : H.vget (vtCode s.me.vtype) d.toNat e = s.me.vget (vtCode s.me.vtype) d.toNat e) :
    (ctxOf s i op).src H r e = s.me.elem r e := by
  have hlay : H.lay = s.me.lay := by rw [hn.lay]; exact (sent_fields s i op).2.2.2.2.2.1
  have key : (ctxOf s i op).src H r e = H.vget (vtCode s.me.vtype) r.toNat e := rfl
  rw [key]
  by_cases h : r = d
  · subst h
    exact hv
  · unfold Hart.elem Hart.vget
    rw [hlay]
    dsimp only
    have hi := group_index (group_fits hr) (show e < vtGroup s.me.vtype * perReg s.me.lay (codeWidth (vtCode s.me.vtype)) from he)
    rw [ho _ hi.2.1]
    have hne : r.toNat ≠ d.toNat := fun h' => h (BitVec.eq_of_toNat_eq h')
    have h1 := hi.1
    generalize vtGroup s.me.vtype = G at *
    have : 0 < G := Nat.lt_of_le_of_lt (Nat.zero_le _) h1
    -- aligned groups
    obtain ⟨x, hx⟩ := Nat.dvd_of_mod_eq_zero hd
    obtain ⟨y, hy⟩ := Nat.dvd_of_mod_eq_zero hr
    generalize e / perReg s.me.lay (codeWidth (vtCode s.me.vtype)) = q at *
    rw [hx, hy] at hne ⊢
    rcases Nat.lt_trichotomy x y with hxy | hxy | hxy
    · right
      have := Nat.mul_le_mul_left G (show x + 1 ≤ y from hxy)
      rw [Nat.mul_succ] at this
      omega
    · exact absurd (by rw [hxy]) hne
    · left
      have := Nat.mul_le_mul_left G (show y + 1 ≤ x from hxy)
      rw [Nat.mul_succ] at this
      omega

end Sys2Proof.Machine
end

