-- ==== Sys2Proof/Tests/Slice0.lean ====
section
/-!
SUPPORT. Tests/Slice0.lean: the ill-formed terms, words written out from the spec's own worked encodings, single steps of worked
examples, and a state and operands for the hypotheses of each statement.
-/
set_option Elab.async false

namespace Sys2Proof.Tests
open Sys2Proof Sys2Proof.Machine

/-! ### One ill-formed term for each check (R206) -/

/-- The first check an instruction fails. -/
def fails (i : Instr) : Option IllFormed := firstFailing i.checks

theorem test_ill_formed :
    fails (.vadd 3 1 2 13) = some .maskField ∧ fails (.vadc 3 1 2 12) = some .maskField ∧
    fails (.mand 12 0 0) = some .registerKind ∧ fails (.vsetlT 9 8 0x0C) = some .typeCode ∧
    fails (.fenceAll 7) = some .scopeCode ∧ fails (.vfcvt 1 2 12 8) = some .conversionCode ∧
    fails (.cpstep 4) = some .channel ∧ fails (.sext 1 2 3) = some .constant ∧ fails (.loop 1 2) = some .immediate ∧
    fails (.claim 5 5) = some .claimRegisters ∧ fails (.mopa 0 1 2 0x78 0x78 0 0 false true) = some .mopaPair ∧
    fails (.vcvtn 1 2 12 0x78 0x7B 0 true) = some .flags ∧ fails (.cAdd 0 0 0) = some .zeroParcel := by
  decide +kernel

theorem test_well_formed :
    fails (.vadd 3 1 2 12) = none ∧ fails (.vadc 3 1 2 11) = none ∧ fails (.mand 11 0 0) = none ∧
    fails (.vsetlT 9 8 0x7B) = none ∧ fails (.fenceAll 6) = none ∧ fails (.cpstep 3) = none ∧ fails (.sext 1 2 2) = none ∧
    fails (.loop 1 3) = none ∧ fails (.claim 5 6) = none ∧ fails (.mopa 0 1 2 0x78 0x78 0 0 true false) = none ∧
    fails (.cAdd 1 0 0) = none := by
  decide +kernel

/-! ### Words from the spec's worked encodings -/

/-- A base word decodes to an instruction. -/
def reads (w : BitVec 32) (i : Instr) : Prop := decode (.base w) = .ok i

/-- From "Worked encodings", R184 and R201: m = 13 and a VINT word behind a prefix select nothing. -/
theorem test_decode_worked :
    reads 0x010823A1 (.vadd 3 1 2 2) ∧ reads 0x04090999 (.vsetlT 9 8 2) ∧ reads 0x10001081 (.csrrs 16 0 0x400) ∧
    decode (.parcel 0x212A) = .ok (.cAddi 1 1 4) ∧
    decode (.prefixed 0x00787803 0x060820FD) = .ok (.mopa 0 1 2 0x78 0x78 0 0 false false) ∧
    decode (.base 0x068823A1) ≠ .ok (.vadd 3 1 2 13) ∧ fails (.vadd 3 1 2 13) ≠ none ∧
    decode (.prefixed 0x00787803 0x060820A1) ≠ .ok (.vadd 0 1 2 12) := by
  unfold reads
  decide +kernel

/-- R233. -/
theorem test_decode_sys :
    reads 0x00140089 (.trap 5) ∧ reads 0x08000089 .brk ∧ reads 0x10000089 .eret ∧ reads 0x18000089 .wfe ∧
    reads 0x20000089 .icsync ∧ reads 0x48000089 .retire := by
  unfold reads
  decide +kernel

/-- The word tables of chapters 11, 12 and 14. -/
theorem test_decode_scalar :
    reads 0x00000925 (.addpc 9 0) ∧ reads 0x00001009 (.addi 16 0 0) ∧ reads 0x001D0049 (.loop 8 7) ∧
    reads 0x0001315D (.ldS32 17 9 0) ∧ reads 0x00418071 (.st32 12 16 0) ∧ reads 0x00461005 (.add 16 16 17) ∧
    reads 0x9841F205 (.minn 18 15 16) ∧ reads 0x1FC01121 (.lih 17 0xFE00) ∧ reads 0x0000202D (.jalr 0 1 0) ∧
    reads 0x10800881 (.csrrs 8 0 0x420) ∧ reads 0x06158691 (.amoAddW 6 12 5 4 1 0) := by
  unfold reads
  decide +kernel

theorem test_decode_vector :
    reads 0x0000C09D (.vcfg 1 2) ∧ reads 0x0842099D (.vsett 9 16 16) ∧ reads 0x880823A1 (.vadc 3 1 2 0) ∧
    reads 0x260821A9 (.vcmpgt 1 1 2 12) ∧ reads 0x2E01A2BD (.mwhile 2 13) ∧ reads 0x5A2465BD (.vtopk 5 3 9 4) ∧
    reads 0x108442AD (.vfmul 2 2 1 1) ∧ reads 0x2E058EB5 (.vcompress 14 12 1) ∧ reads 0x3E0008B5 (.vid 8 12) := by
  unfold reads
  decide +kernel

theorem test_decode_memory :
    reads 0x060181C1 (.vld 1 12 12) ∧ reads 0x009A84C5 (.vamoAdd 4 6 1 4 0 1) ∧ reads 0x0800008D (.fenceVs 0) ∧
    reads 0x064E40C9 (.fwdmove 18 19 12) ∧ reads 0x1E1881C9 (.pcmpr 1 4 6 12) ∧ reads 0x260080C9 (.fwdpath 4 12) ∧
    reads 0x2E01E0C9 (.fwdrecl 15) ∧ reads 0x000920D1 (.cpcfg 9 0 2) ∧ reads 0x16000BCD (.cpland 11 0) := by
  unfold reads
  decide +kernel

theorem test_decode_work :
    reads 0x003586D5 (.launch 6 12 13) ∧ reads 0x08016AD5 (.claim 10 11) ∧ reads 0x100186D5 (.grun 6 12) ∧
    reads 0x000000D9 .gbar ∧ reads 0x080E88D9 (.sopen 8 20 3) ∧ reads 0x100008D9 (.sclose 8) ∧
    reads 0x210183D9 (.bstVector 3 12 2) ∧ reads 0x281580D9 (.bstScalar 12 5) ∧ reads 0x338000D9 .bacq := by
  unfold reads
  decide +kernel

theorem test_decode_prefixed :
    decode (.prefixed 0x00F90903 0x061820FD) = .ok (.mopa 0 1 6 0x09 0xF9 0 0 false false) ∧
    decode (.prefixed 0x00000203 0x260008FD) = .ok (.mrdrow 8 0 0 2) ∧
    decode (.prefixed 0x0000000B 0x060260FD) = .ok (.xcfg 0 19) ∧
    decode (.prefixed 0x0200000B 0x188003FD) = .ok (.xstat 3 0 1 2) := by
  decide +kernel

/-! ### States for the hypotheses -/

/-- Hart 0 in a running partition 0 that holds 16 MiB at 0x1000000, the page at 0 mapped to 0x1020000 for every access. -/
def start : State := State.reset.withProgram

/-- Its hart's record. -/
def hart0 : Hart := start.hart 0

/-- The state with another record of its hart. -/
def on (h : Hart) : State := { start with harts := [(0, h)] }

/-- The record with x registers set. -/
def xs (l : List (BitVec 5 × Word)) (h : Hart) : Hart := l.foldl (fun h e => h.setX e.1 e.2) h

/-- What the walk of an address of that page gives. -/
def leaf (va : Nat) : Leaf :=
  { pa := 0x1020000 + va, line := 0x1010000, idx := 0, entry := 0x10200DF, prog := false, big := false }

/-- The invariant, as a computation. -/
def invCheck (s : State) : Bool :=
  memWf s.mem && s.cores.all (fun e => memWf e.2.spad) &&
    decide (s.lines.Pairwise (fun x y => x.1 < y.1)) && s.lines.all (fun e => decide (e.2 ≠ LineMeta.reset)) &&
    s.harts.all (fun e => decide (e.2.canon = e.2))

theorem inv_of {s : State} (h : invCheck s = true) : s.Inv := by
  simp only [invCheck, Bool.and_eq_true, List.all_eq_true, decide_eq_true_eq] at h
  exact ⟨h.1.1.1.1, h.1.1.1.2, ⟨h.1.1.2, h.1.2⟩, h.2⟩

/-- An access with nothing in its way, as a computation, where no cluster holds a line. -/
def opensCheck (s : State) (acc : Acc) (va n : Nat) (l : Leaf) : Bool :=
  decide ((0 < n ∧ va % 128 + n ≤ 128 ∧ va + n ≤ Config.spadBase) ∧ walk s (s.walker s.cur) acc va = .ok l ∧
    l.pa % 128 = va % 128 ∧ leafMarked (s.bytes l.line 128) l.idx acc.writes = s.bytes l.line 128 ∧
    (pkgOf l.pa = s.pkg ∧ localOf l.pa < Config.localBytes ∧ l.bc = false) ∧
    s.line (l.pa / 128) = { LineMeta.reset with ptag := (s.line (l.pa / 128)).ptag } ∧
    (s.tier (homeTier (localOf l.pa))).power = .awake ∧
    (tabFind (s.core (coreOf s.cur)).icache (l.pa / 128) = none ∧
      tabFind (s.core (coreOf s.cur)).scache (l.pa / 128) = none ∧ tabFind (s.core (coreOf s.cur)).l1 (l.pa / 128) = none) ∧
    (∀ e ∈ s.clusters, e.2 = []) ∧ ((∀ e ∈ s.harts, e.2.posted = []) ∧ s.lag.stores = false ∧ s.reclaims = []) ∧
    (∀ e ∈ s.me.vq, acquiresBoth e.insn = false) ∧
    (∀ e ∈ s.harts, e.2.shooting = none) ∧ (s.part s.me.partid.toNat).shooting = none)

theorem tabGet_empty {α : Type} {l : Tab (List α)} (h : ∀ e ∈ l, e.2 = []) (c : Nat) : tabGet [] l c = [] := by
  induction l with
  | nil => rfl
  | cons e es ih =>
    obtain ⟨k, v⟩ := e
    rw [tabGet]
    split
    · exact h (k, v) (by simp)
    · exact ih (fun e' he => h e' (by simp [he]))

theorem cluster_of_empty {s : State} (h : ∀ e ∈ s.clusters, e.2 = []) (c : Nat) : s.cluster c = [] := tabGet_empty h c

theorem cluster_of_nil {s : State} (h : s.clusters = []) (c : Nat) : s.cluster c = [] :=
  cluster_of_empty (by simp [h]) c

theorem opens_of {s : State} {acc : Acc} {va n : Nat} {l : Leaf} (h : opensCheck s acc va n l = true) :
    s.Opens acc va n l := by
  simp only [opensCheck, decide_eq_true_eq] at h
  obtain ⟨a, b, c, d, e, f, g, i, j, k, m, n⟩ := h
  refine ⟨a, b, c, d, e, f, g, i, ?_, k, ?_, m, n⟩
  · intro c x hx
    rw [cluster_of_empty j] at hx
    simp [tabFind] at hx
  · simp [State.linesHeld, tierClusters, cluster_of_empty j, dirPlaces]

/-- Nothing under way on the vector side; no stream; no channel: each as a computation. -/
def idleCheck (s : State) : Bool :=
  decide (s.me.lp.trip = .no ∧ (s.me.vq = [] ∧ s.me.rq = [] ∧ s.me.migVec = none ∧ s.lag.vside = false) ∧
    s.me.flight = none ∧ s.me.ilkAt = none ∧ s.me.spilled = false ∧ VCtx.tableFull s.me = false) &&
    (List.finRange 8).all (fun k => !(s.me.bpctl[k].getLsbD 0 && s.me.bpctl[k].getLsbD 1))

def loneCheck (s : State) : Bool := idleCheck s && (s.gangOf s.cur).all (fun e => e.2.streams.isEmpty)

def calmCheck (s : State) : Bool := loneCheck s && (List.finRange 4).all (fun n => !s.me.chans[n].active)

theorem idle_of {s : State} (h : idleCheck s = true) : s.Idle := by
  simp only [idleCheck, Bool.and_eq_true, List.all_eq_true, decide_eq_true_eq, Bool.not_eq_true'] at h
  exact ⟨h.1.1, h.1.2.1, h.1.2.2, fun k hk => by simpa using h.2 ⟨k, hk⟩ (List.mem_finRange _)⟩

theorem lone_of {s : State} (h : loneCheck s = true) : s.Lone := by
  simp only [loneCheck, Bool.and_eq_true] at h
  refine ⟨idle_of h.1, fun k x hx => ?_⟩
  have h2 := h.2
  rw [hx] at h2
  simpa using h2

theorem calm_of {s : State} (h : calmCheck s = true) : s.Calm := by
  simp only [calmCheck, Bool.and_eq_true, List.all_eq_true, Bool.not_eq_true'] at h
  exact ⟨lone_of h.1, fun n hn => by simpa using h.2 ⟨n, hn⟩ (List.mem_finRange _)⟩

/-- Nothing begun is left to wait for, as a computation, where no cluster holds a line. -/
def settledCheck (s : State) : Bool :=
  decide ((s.me.vq = [] ∧ ∀ e ∈ s.harts, e.2.posted = []) ∧ s.clusters = []) && (List.finRange 4).all (fun n => !s.me.chans[n].active)

theorem settled_of {s : State} (h : settledCheck s = true) : s.Settled := by
  simp only [settledCheck, Bool.and_eq_true, List.all_eq_true, decide_eq_true_eq, Bool.not_eq_true'] at h
  obtain ⟨⟨a, b⟩, c⟩ := h
  refine ⟨⟨a, fun n hn => ?_⟩, fun e he => ?_⟩
  · simpa using c ⟨n, hn⟩ (List.mem_finRange _)
  · rw [cluster_of_nil b] at he; cases he

/-- No register of the list is waited for, as a computation. -/
def freeCheck (h : Hart) (rs : List (BitVec 5)) : Bool :=
  rs.all (fun r => !h.pendingX r) && !(h.inBody h.pc && h.pendingX h.lp.reg)

theorem free_of {h : Hart} {rs : List (BitVec 5)} (k : freeCheck h rs = true) : h.free rs := by
  simp only [freeCheck, Bool.and_eq_true, List.all_eq_true, Bool.not_eq_true', Bool.and_eq_false_iff] at k
  refine ⟨k.1, fun b => ?_⟩
  rcases k.2 with c | c
  · rw [b] at c; cases c
  · exact c

theorem start_inv : start.Inv := inv_of (by decide +kernel)
theorem start_calm : start.Calm := calm_of (by decide +kernel)
theorem start_settled : start.Settled := settled_of (by decide +kernel)
theorem start_opens (acc : Acc) (h : acc ≠ .bst) : start.Opens acc 0x1000 8 (leaf 0x1000) := by
  cases acc <;> first | exact absurd rfl h | exact opens_of (by decide +kernel)


/-! ### Witnesses: scalar arithmetic and control transfer -/

theorem witness_IntegerResults : start.me.free [1, 2, 3] ∧ start.me.free [1, 0] := by
  unfold Hart.free
  decide +kernel

theorem witness_ImmediateAndCompressedResults :
    start.me.free [1, 2] ∧ start.me.free [1] ∧ start.me.free [1#2 ++ 0#3, 1#2 ++ 1#3, 1#2 ++ 7#3] ∧
    start.me.free [1#2 ++ 0#3, 1#2 ++ 1#3] ∧ start.me.free [1#2 ++ 0#3] := by
  unfold Hart.free
  decide +kernel

/-- Equal registers take BEQ, BGE and BGEN; a negative one and a positive one take BLT and BGEN. -/
theorem witness_BranchesAndJumps :
    start.Inv ∧ start.me.free [1, 2] ∧ start.me.free [1#2 ++ 0#3, 0] ∧ start.me.free [1] ∧
    start.me.getX 1 = start.me.getX 2 ∧ (on (xs [(1, -1), (2, 1)] hart0)).me.free [1, 2] ∧
    ((on (xs [(1, -1), (2, 1)] hart0)).me.getX 1).toInt < ((on (xs [(1, -1), (2, 1)] hart0)).me.getX 2).toInt ∧
    ((on (xs [(1, -1), (2, 1)] hart0)).me.getX 2).toNat < ((on (xs [(1, -1), (2, 1)] hart0)).me.getX 1).toNat :=
  ⟨start_inv, by unfold Hart.free; decide +kernel⟩

/-- The last instruction of a loop's body of four bytes at 4, with n trips left in x5. -/
def looping (n : Word) : State :=
  on { xs [(5, n)] hart0 with
    pc := 4
    lp := { active := true, start := 4, stop := 8, reg := 5, pinned := none, trip := .no } }

theorem witness_LoopsStartAndEnd :
    start.me.free [1] ∧ start.me.getX 1 = 0 ∧ (on (xs [(1, 3)] hart0)).me.free [1] ∧ (on (xs [(1, 3)] hart0)).me.getX 1 ≠ 0 ∧
    ∀ k : Fin 3,
      let s := looping (BitVec.ofNat 64 k)
      s.me.free [1, 2] ∧ s.me.lp.active = true ∧ s.me.lp.start.toNat ≤ s.me.pc.toNat ∧ s.me.pc.toNat < s.me.lp.stop.toNat ∧
      s.me.pc + 4 = s.me.lp.stop ∧ (1 : BitVec 5) ≠ s.me.lp.reg ∧ s.me.lp.reg ≠ 0 ∧
      (s.me.getX s.me.lp.reg).toNat = k := by
  unfold Hart.free
  decide +kernel

/-! ### Witnesses: encodings, the step and the traps -/

theorem witness_EncodeThenDecode :
    (Instr.vadd 3 1 2 2).wf = true ∧ encode (.vadd 3 1 2 2) = some (.base 0x010823A1) ∧
    (Instr.cAdd 1 0 0).wf = true ∧ encode (.cAdd 1 0 0) = some (.parcel 0x0020) ∧
    (Instr.mzero 3).wf = true ∧ (encode (.mzero 3)).isSome = true := by
  decide +kernel

theorem witness_DecodeThenEncode : decode (wordsOf 0x010823A1) = .ok (.vadd 3 1 2 2) := by decide +kernel

theorem witness_ReservedWordsSelectNothing :
    (0xFFFFFF01#64).extractLsb' 0 2 = 1#2 ∧ (0xFFFFFF01#64).extractLsb' 2 6 = 0#6 ∧
    (0xDD#64).extractLsb' 0 2 = 1#2 ∧ ((0xDD#64).extractLsb' 2 6).toNat = 0x37 ∧
    (0xFD#64).extractLsb' 0 2 = 1#2 ∧ ((0xFD#64).extractLsb' 2 6).toNat = 0x3F ∧
    (0xFD0000000F#64).extractLsb' 0 2 = 3#2 ∧ ((0xFD0000000F#64).extractLsb' 2 6).toNat = 3 ∧
    (0xA100000003#64).extractLsb' 0 2 = 3#2 ∧ (0xA100000003#64).extractLsb' 32 8 ≠ 0xFD#8 ∧
    (0x10000#64).extractLsb' 0 16 = 0#16 := by
  decide +kernel

/-- The vadd word at the pc. -/
def coded : State := start.withFetchWord 32 0x010823A1

theorem witness_StepRunsDecoded :
    coded.Fetches (leaf 0) ∧ decode (wordsOf (BitVec.ofNat 64 (coded.bytes (leaf 0).pa 8))) = .ok (.vadd 3 1 2 2) ∧
    fetchStops coded.me (some (.vadd 3 1 2 2)) = [] :=
  ⟨⟨by decide +kernel, by decide +kernel, opens_of (by decide +kernel), by decide +kernel⟩, by decide +kernel, by decide +kernel⟩

theorem witness_StepKeepsInv : coded.Inv ∧ (match step coded with | .next _ => true | _ => false) = true :=
  ⟨inv_of (by decide +kernel), by decide +kernel⟩

/-- Outside a loop's body, and within one. -/
theorem witness_TrapAndBreakEnter :
    start.Drained ∧ start.me.inBody start.me.pc = false ∧ (looping 2).Drained ∧ (looping 2).me.inBody (looping 2).me.pc = true := by
  unfold State.Drained Hart.free
  decide +kernel

/-- In supervisor, in no handler, in one that the queue drained for, and in one that holds the queue. -/
def inHandler (l : List TrapKind) : State := on { hart0 with sup := true, erets := l, vstart := 3, status := 5 }

theorem witness_EretReturns :
    ∀ l ∈ [[], [TrapKind.drained], [.queue, .drained]], (inHandler l).me.free [] ∧ (inHandler l).me.sup = true := by
  unfold Hart.free
  decide +kernel

theorem witness_IllegalByPrivilege : start.Drained ∧ start.me.free [1, 2] ∧ start.me.sup = false := by
  unfold State.Drained Hart.free
  decide +kernel

/-! ### Witnesses: scalar floating point and CSRs -/

/-- With no trap enabled, every flag that an instruction sets is untrapped. -/
theorem untrapped_of {h : Hart} (e : trapEnables h.rmode = 0) (flags : Nat) : h.untrapped flags := by
  unfold Hart.untrapped
  rw [e, Nat.and_zero]

/-- No trap enabled; and that of DZ alone, where an inexact or an invalid result still completes. -/
theorem witness_ScalarFloatResults :
    start.me.free [1, 2, 3] ∧ start.me.free [1, 2] ∧ (∀ flags, start.me.untrapped flags) ∧
    trapEnables (on { hart0 with rmode := 0x10 }).me.rmode = 2 ∧ (on { hart0 with rmode := 0x10 }).me.untrapped 17 :=
  ⟨by unfold Hart.free; decide +kernel, by unfold Hart.free; decide +kernel, untrapped_of (by decide +kernel), by decide +kernel,
    by unfold Hart.untrapped; decide +kernel⟩

/-- 1.0 in x1, 0 in x2, and every flag's trap enabled: the quotient raises DZ alone. -/
def dividing : State := on { xs [(1, 0x3FF0000000000000)] hart0 with rmode := 0xF8 }

theorem witness_EnabledFlagTraps :
    dividing.Inv ∧ dividing.Drained ∧ dividing.me.free [3, 1, 2] ∧
    ((fpFmt 1).finish dividing.me.scalarRnd (fDiv (fpArg 1 (dividing.me.getX 1)) (fpArg 1 (dividing.me.getX 2)))).2 = 2 ∧
    (trapEnables dividing.me.rmode).testBit 1 = true ∧ dividing.me.untrapped (2 % 2 ^ 1) :=
  ⟨inv_of (by decide +kernel), by unfold State.Drained Hart.free Hart.untrapped; decide +kernel⟩

/-- In supervisor. -/
def super : State := on { xs [(1, 0x1000), (2, 64), (3, 0x0C), (4, 2), (5, 0x100000)] hart0 with sup := true }

theorem super_inv : super.Inv := inv_of (by decide +kernel)
theorem super_calm : super.Calm := calm_of (by decide +kernel)
theorem super_settled : super.Settled := settled_of (by decide +kernel)

theorem witness_CsrReadsAndWrites :
    super.Inv ∧ super.me.free [6, 1] ∧ super.me.free [6, 0] ∧ super.me.vq = [] ∧ super.me.sup = true ∧
    super.pkg < 900 ∧ super.cur < 1536 :=
  ⟨super_inv, by unfold Hart.free; decide +kernel⟩

theorem witness_CsrReadsAndWrites_mvl :
    let s := on { hart0 with vtype := 0x8000 }
    invCheck s = true ∧ s.me.free [6, 0] ∧ s.me.vq = [] ∧ s.me.vtype.getLsbD 15 = true := by
  unfold Hart.free
  decide +kernel

/-- A valid type in x4 and a reserved one in x3; in x2 the least cap, in x5 more than the largest. -/
theorem witness_CsrWritesWithEffects :
    super.Inv ∧ super.me.free [6, 4] ∧ super.me.free [6, 3] ∧ super.me.free [0, 2] ∧ super.me.free [0, 5] ∧ super.me.vq = [] ∧
    super.me.lp.active = false ∧ super.me.sup = true ∧ codeValid ((super.me.getX 4).extractLsb' 0 8) = true ∧
    codeValid ((super.me.getX 3).extractLsb' 0 8) = false ∧
    (∀ k ∈ coreHarts (super.cur / 4), (super.hart k).posted = [] ∧ (k ≠ super.cur → (super.hart k).flight = none)) :=
  ⟨super_inv, by unfold Hart.free; decide +kernel⟩

/-! ### Witnesses: scalar memory -/

/-- x1 points to a line, x2 to its last eight bytes, and x8 to x10 to the same for the compressed forms. -/
def pointing : State := on (xs [(1, 0x1000), (2, 0x1078), (3, 0x1122334455667788), (8, 0x1000), (9, 0x0F84), (10, 0x5555)] hart0)

theorem pointing_inv : pointing.Inv := inv_of (by decide +kernel)

theorem witness_LoadResults :
    pointing.Inv ∧ pointing.me.free [6, 1] ∧ pointing.me.free [1#2 ++ 2#3, 1#2 ++ 1#3] ∧
    pointing.Opens .load (pointing.me.getX 1 + (0#14).signExtend 64).toNat 1 (leaf 0x1000) ∧
    pointing.Opens .load (pointing.me.getX 1 + (0x3FFE#14).signExtend 64).toNat 2 (leaf 0x0FFE) ∧
    pointing.Opens .load (pointing.me.getX 2 + (4#14).signExtend 64).toNat 4 (leaf 0x107C) ∧
    pointing.Opens .load (pointing.me.getX 2 + (0#14).signExtend 64).toNat 8 (leaf 0x1078) ∧
    pointing.Opens .load (pointing.me.getX (1#2 ++ 1#3) + 4 * (31#5).zeroExtend 64).toNat 4 (leaf 0x1000) ∧
    pointing.Opens .load (pointing.me.getX (1#2 ++ 0#3) + 8 * (0#5).zeroExtend 64).toNat 8 (leaf 0x1000) :=
  ⟨pointing_inv, by unfold Hart.free; decide +kernel, by unfold Hart.free; decide +kernel, opens_of (by decide +kernel),
    opens_of (by decide +kernel), opens_of (by decide +kernel), opens_of (by decide +kernel), opens_of (by decide +kernel),
    opens_of (by decide +kernel)⟩

theorem witness_StoreResults :
    pointing.Inv ∧ pointing.me.free [1, 3] ∧ pointing.me.free [1#2 ++ 0#3, 1#2 ++ 2#3] ∧
    pointing.Opens .store (pointing.me.getX 1 + (0#14).signExtend 64).toNat 1 (leaf 0x1000) ∧
    pointing.Opens .store (pointing.me.getX 1 + (0x3FFE#14).signExtend 64).toNat 2 (leaf 0x0FFE) ∧
    pointing.Opens .store (pointing.me.getX 2 + (4#14).signExtend 64).toNat 4 (leaf 0x107C) ∧
    pointing.Opens .store (pointing.me.getX 2 + (0#14).signExtend 64).toNat 8 (leaf 0x1078) ∧
    pointing.Opens .store (pointing.me.getX (1#2 ++ 1#3) + 4 * (31#5).zeroExtend 64).toNat 4 (leaf 0x1000) ∧
    pointing.Opens .store (pointing.me.getX (1#2 ++ 0#3) + 8 * (0#5).zeroExtend 64).toNat 8 (leaf 0x1000) :=
  ⟨pointing_inv, by unfold Hart.free; decide +kernel, by unfold Hart.free; decide +kernel, opens_of (by decide +kernel),
    opens_of (by decide +kernel), opens_of (by decide +kernel), opens_of (by decide +kernel), opens_of (by decide +kernel),
    opens_of (by decide +kernel)⟩

/-- x1 = 2^57, x2 the window's first byte, x3 misaligned, x4 the first byte of a page that is not mapped. -/
def astray : State := on (xs [(1, 0x200000000000000), (2, 0x01FFFFFFFFF80000), (3, 0x1001), (4, 0x10000)] hart0)

theorem witness_ScalarAccessFaults :
    astray.Drained ∧ astray.me.free [6, 1, 0] ∧ astray.me.free [6, 2, 0] ∧ astray.me.free [6, 3, 0] ∧ astray.me.free [6, 4, 0] ∧
    2 ^ 57 ≤ (astray.me.getX 1 + (0#14).signExtend 64).toNat ∧
    Config.spadBase ≤ (astray.me.getX 2 + (0#14).signExtend 64).toNat ∧ (astray.me.getX 2 + (0#14).signExtend 64).toNat < 2 ^ 57 ∧
    (astray.me.getX 3).toNat + 8 ≤ Config.spadBase ∧ (astray.me.getX 3).toNat % 8 ≠ 0 ∧
    (astray.me.getX 4 + (0#14).signExtend 64).toNat + 8 ≤ Config.spadBase ∧
    (astray.me.getX 4 + (0#14).signExtend 64).toNat % 65536 ≤ 65528 ∧
    walk astray (astray.walker astray.cur) .load (astray.me.getX 4 + (0#14).signExtend 64).toNat = .fault .xlateNone ∧
    walk astray (astray.walker astray.cur) .store (astray.me.getX 4 + (0#14).signExtend 64).toNat = .fault .xlateNone := by
  unfold State.Drained Hart.free
  decide +kernel

theorem witness_AtomicResults :
    pointing.Inv ∧ pointing.me.free [6, 1, 3] ∧ pointing.me.free [6, 2, 3] ∧ pointing.Settled ∧ 2 ≤ (2#3).toNat ∧ (6#3).toNat ≤ 6 ∧
    pointing.Opens .atomic (pointing.me.getX 1).toNat 4 (leaf 0x1000) ∧ (pointing.me.getX 1).toNat % 4 = 0 ∧
    pointing.Opens .atomic (pointing.me.getX 2).toNat 8 (leaf 0x1078) ∧ (pointing.me.getX 2).toNat % 8 = 0 ∧
    (1#3).toNat ≤ 1 ∧ homeTier (localOf (leaf 0x1078).pa) = tierOf pointing.cur ∧
    ∀ x, tabFind (pointing.cluster (clusterOf pointing.cur)) ((leaf 0x1078).pa / 128) = some x → x.st ≠ .m := by
  refine ⟨pointing_inv, by unfold Hart.free; decide +kernel, by unfold Hart.free; decide +kernel, settled_of (by decide +kernel),
    by decide, by decide, opens_of (by decide +kernel), by decide +kernel, opens_of (by decide +kernel), by decide +kernel,
    by decide, by decide +kernel, fun x hx => ?_⟩
  rw [cluster_of_nil (by decide +kernel)] at hx
  simp [tabFind] at hx

/-- A write to package 7 that no acknowledgement has answered, its link down. -/
def awaiting : State := on { hart0 with remote := [(0, 7)] }

/-- Bytes 0 to 3 of the line at 0x1000 dirty in the hart's cluster. -/
def dirtied : State := { start with clusters := [(0, [(0x20420, { st := .l, data := 0x04030201, mask := 15, cores := 1 })])] }

theorem dirtied_still : ∀ n : Fin 4, dirtied.me.chans[n].active = false := by decide +kernel

theorem witness_FencesComplete :
    (start.Inv ∧ start.me.free [6] ∧ start.Settled ∧ start.me.remote = []) ∧
    (awaiting.Inv ∧ awaiting.me.free [6] ∧ awaiting.Settled ∧ awaiting.me.remote = [(0, 7)] ∧ 7 < 900 ∧
      (awaiting.link (Config.linkOf 7).val).st = .down) ∧
    dirtied.Inv ∧ dirtied.me.free [] ∧ dirtied.Quiet ∧ dirtied.me.remote = [] ∧ 2 ≤ (2#3).toNat ∧ (4#3).toNat ≤ 4 ∧
    dirtied.cluster (clusterOf dirtied.cur) = [(0x20420, { st := .l, data := 0x04030201, mask := 15, cores := 1 })] := by
  refine ⟨⟨start_inv, by unfold Hart.free; decide +kernel, start_settled, by decide +kernel⟩,
    ⟨inv_of (by decide +kernel), by unfold Hart.free; decide +kernel, settled_of (by decide +kernel), by decide +kernel, by decide, ?_⟩,
    inv_of (by decide +kernel), by unfold Hart.free; decide +kernel, ⟨by decide +kernel, fun n hn => ?_⟩, by decide +kernel, by decide, by decide,
    by decide +kernel⟩
  · have h : awaiting.links = [] := by decide +kernel
    simp [State.link, h, Link.reset]
  · exact dirtied_still ⟨n, hn⟩

/-! ### Witnesses: system instructions -/

/-- start with 16 MiB more mapped at 0x10000000, where the save area is, for a hart in supervisor whose x1 points there. -/
def roomy : State :=
  let m := memWrite (memWrite (memWrite start.mem 0x1004008 8 0x1008003) 0x1008000 8 0x20000DF) 0x1008048 8 0x101
  let p := start.part 0
  { start with
    mem := m
    parts := [(0, { p with ranges := [(0x1000000, 0x2000000)], queues := 1, ctxbase := 0x10000000, ctxcap := 64 })]
    harts := [(0, { xs [(1, 0x10100000), (3, 0x1000)] hart0 with sup := true, lay := 64 })] }

/-- What the walk of an address there gives. -/
def wide (va : Nat) : Leaf :=
  { pa := 0x2000000 + va % 0x1000000, line := 0x1008000, idx := 0, entry := 0x20000DF, prog := false, big := true }

theorem roomy_inv : roomy.Inv := inv_of (by decide +kernel)
theorem roomy_settled : roomy.Settled := settled_of (by decide +kernel)

/-- An event for the hart. -/
def called : State := { start with parts := [(0, { start.part 0 with target := some 0, event := 1 })] }

theorem witness_WaitingAndSynchronising :
    called.me.free [] ∧ eventPending called called.cur = true ∧
    (on { hart0 with wfe := some (0, 1, 0) }).me.free [] ∧
    barrierOf (on { hart0 with wfe := some (0, 1, 0) }) 0 ≠ (1, 0) ∧
    start.me.free [] ∧ eventPending start start.cur = false ∧ start.me.wfe = none ∧
    roomy.Inv ∧ roomy.Settled ∧ roomy.me.free [1] ∧ roomy.me.sup = true ∧ roomy.me.migWait = none ∧ roomy.me.migVec = none ∧
    roomy.me.shooting = none ∧ (∀ n : Fin 4, roomy.me.chans[n].mig = none) ∧ (∀ e ∈ roomy.harts, e.2.flight = none) :=
  ⟨by unfold Hart.free; decide +kernel, by decide +kernel, by unfold Hart.free; decide +kernel, by decide +kernel,
    by unfold Hart.free; decide +kernel, by decide +kernel, by decide +kernel, roomy_inv, roomy_settled,
    by unfold Hart.free; decide +kernel, by decide +kernel, by decide +kernel, by decide +kernel⟩

/-- Each line of a stretch opens. -/
def linesOpen (s : State) (acc : Acc) (va len : Nat) : Bool :=
  (List.range ((len + 127) / 128)).all (fun k => opensCheck s acc (va + 128 * k) (min 128 (len - 128 * k)) (wide (va + 128 * k)))

theorem linesOpen_at {s : State} {acc : Acc} {va len : Nat} (h : linesOpen s acc va len = true)
    (hv : va % 0x1000000 + len ≤ 0x1000000) (k : Nat) (hk : 128 * k < len) :
    s.Opens acc (va + 128 * k) (min 128 (len - 128 * k)) { wide va with pa := (wide va).pa + 128 * k } := by
  have h := opens_of ((List.all_eq_true.1 h) k (List.mem_range.2 (by omega)))
  have e : wide (va + 128 * k) = { wide va with pa := (wide va).pa + 128 * k } := by
    simp only [wide, Leaf.mk.injEq, and_true]
    omega
  rwa [e] at h

theorem witness_SavectxWritesImage :
    roomy.Inv ∧ roomy.me.free [1] ∧ roomy.Quiet ∧ roomy.me.sup = true ∧ roomy.me.inBody roomy.me.pc = false ∧
    roomy.me.wfe = none ∧ roomy.me.spilled = false ∧ roomy.me.flight = none ∧ (roomy.me.getX 1).toNat / 128 * 128 = 0x10100000 ∧
    0x10100000 % 65536 + (imageFrom roomy roomy.cur roomy.me).length ≤ 65536 ∧
    linesOpen roomy .store 0x10100000 (imageFrom roomy roomy.cur roomy.me).length = true :=
  ⟨roomy_inv, by unfold Hart.free; decide +kernel, roomy_settled.toQuiet, by decide +kernel⟩

/-- roomy after its SAVECTX, with no line left in its cluster's cache. -/
def saved : State :=
  match execSavectx 1 roomy with
  | .next t => { t with clusters := [] }
  | _ => roomy

theorem witness_RstctxRestores :
    saved.Inv ∧ saved.me.free [2, 1] ∧ saved.me.vq = [] ∧ saved.me.sup = true ∧
    (saved.me.getX 1).toNat / 128 * 128 = 0x10100000 ∧ bitsGet (saved.bytes (wide 0x10100000).pa 16) 64 64 = 18944 ∧
    linesOpen saved .load 0x10100000 18944 = true ∧ headerGood (saved.bytes (wide 0x10100000).pa 0x2000) = true ∧
    (imageOf (saved.bytes (wide 0x10100000).pa 18944)).map (restoreStatus saved saved.cur) = some 0 :=
  ⟨inv_of (by decide +kernel), by unfold Hart.free; decide +kernel, by decide +kernel⟩

/-- roomy with another state and pause of its partition. -/
def paused (st : PState) (pause : Bool) : State :=
  { roomy with parts := [(0, { roomy.part 0 with state := st, pause := pause })] }

theorem witness_QuiesceStatuses :
    (paused .config false).Inv ∧ (paused .config false).me.free [2] ∧ (paused .config false).me.sup = true ∧
    ((paused .config false).part 0).state ≠ .run ∧
    (paused .run true).Inv ∧ (paused .run true).me.free [2] ∧ (paused .run true).me.sup = true ∧
    ((paused .run true).part 0).state = .run ∧ ((paused .run true).part 0).pause = true ∧
    ((paused .run true).part 0).quiescer ≠ some 0 ∧
    roomy.Inv ∧ roomy.me.free [2] ∧ roomy.me.sup = true ∧ (roomy.part 0).state = .run ∧ (roomy.part 0).pause = false ∧
    gangsOf roomy 0 (roomy.me.place.map (fun e => e.gang)) = [] ∧ broadcastsDone roomy 0 = true ∧
    completes (do
      if ← roomForAll 0 (roomy.me.place.map (fun e => e.gang)) then pure () else halt
      modPart 0 (fun x => { x with pause := true, quiescer := some roomy.cur })
      refreshPart 0
      writeRegion 0) roomy = true :=
  ⟨inv_of (by decide +kernel), by unfold Hart.free; decide +kernel, by decide +kernel, by decide +kernel,
    inv_of (by decide +kernel), by unfold Hart.free; decide +kernel, by decide +kernel, by decide +kernel, by decide +kernel,
    by decide +kernel, roomy_inv, by unfold Hart.free; decide +kernel, by decide +kernel⟩

/-- A gang of two on cluster 0, of which hart 0 is the first, and its launch of a packet of one gang. -/
def gang2 : Gang :=
  { launch := 1, index := 0, members := [0, 1], retired := [], lost := [], placed := 0, urgent := false, size := 2, arr := 0,
    epoch := 0, st := 1, streams := [], sRet := [] }

def launch2 : Launch :=
  { packet := 0x100 + 2 ^ 58 + 2 ^ 256 + 2 ^ 281 + 2 ^ 288, paddr := 0, src := 1, seq := 0, part := 0, queue := 0, queued := false,
    nextg := 1, resume := [], claim := 0, live := 2, node := none }

def placed2 : Place := { launch := 1, gang := 0, index := 0, since := 0 }

def ganged : State :=
  { start with gangs := [(0, gang2)], launches := [(1, launch2)], harts := [(0, { hart0 with place := some placed2 })], nextId := 2 }

theorem ganged_inv : ganged.Inv := inv_of (by decide +kernel)
theorem ganged_settled : ganged.Settled := settled_of (by decide +kernel)

theorem witness_RetireFreesHart :
    ganged.Inv ∧ ganged.me.free [] ∧ ganged.Settled ∧ ganged.me.remote = [] ∧ ganged.me.bstQueued = 0 ∧
    ganged.me.place = some placed2 ∧ tabFind ganged.gangs placed2.gang = some gang2 ∧ gang2.spans = false ∧
    tabFind ganged.launches placed2.launch = some launch2 ∧ 2 ≤ launch2.live :=
  ⟨ganged_inv, by unfold Hart.free; decide +kernel, ganged_settled, by decide +kernel⟩

/-! ### Witnesses: configuration and work -/

/-- super on a core whose scratchpad has 64 banks: 64 more find no room. -/
def crowded : State := { super with cores := [(0, { Core.reset with spbanks := 64 })] }

theorem witness_VectorConfiguration :
    super.Inv ∧ super.me.free [6, 2] ∧ super.me.free [6, 2, 4] ∧ super.me.free [] ∧ super.me.vq = [] ∧ super.me.sFix = none ∧
    super.me.vlcap.toNat ≤ 65536 ∧ super.me.lp.active = false ∧ hasStream super super.cur = false ∧
    super.me.vtype.getLsbD 15 = false ∧
    coreBanksWith super super.cur (16 * 2 ^ (0#2).toNat) + (super.core 0).spbanks.toNat + 16 ≤ 96 ∧
    coreBanksWith super super.cur (16 * 2 ^ (2#2).toNat) + (super.core 0).spbanks.toNat + 16 ≤ 96 ∧
    crowded.Inv ∧ crowded.me.free [] ∧ crowded.me.vq = [] ∧ hasStream crowded crowded.cur = false ∧
    96 < coreBanksWith crowded crowded.cur (16 * 2 ^ (2#2).toNat) + (crowded.core 0).spbanks.toNat + 16 ∧
    (∀ s ∈ [super, crowded], ∀ k ∈ coreHarts (s.cur / 4), (s.hart k).posted = []) :=
  ⟨super_inv, by unfold Hart.free; decide +kernel, by unfold Hart.free; decide +kernel, by unfold Hart.free; decide +kernel,
    by decide +kernel, by decide +kernel, by decide +kernel, by decide +kernel, by decide +kernel, by decide +kernel,
    by decide +kernel, by decide +kernel, inv_of (by decide +kernel), by unfold Hart.free; decide +kernel, by decide +kernel⟩

/-- A launch packet: one gang of one hart, entered at 0x100, on tier 0 of either tower. -/
def packet1 : Bits := 0x100 + 2 ^ 57 + 2 ^ 256 + 2 ^ 280 + 2 ^ 288

/-- A packet's bytes at 0x1000, where x1 points; x2 names queue 0 and x3 no queue; the partition owns queue 0. -/
def launching (pkt : Bits) (pause : Bool) (queued : List Nat) : State :=
  { start with
    mem := memWrite start.mem 0x1021000 128 pkt
    parts := [(0, { start.part 0 with queues := 1, pause := pause })]
    queues := [(0, { Queue.reset with pkts := queued })]
    harts := [(0, xs [(1, 0x1000), (3, 64)] hart0)] }

/-- What every LAUNCH statement asks, as a computation. -/
def launchCheck (s : State) : Bool :=
  invCheck s && settledCheck s && freeCheck s.me [6, 1, 2] && freeCheck s.me [6, 1, 3] &&
    opensCheck s .load (s.me.getX 1).toNat 128 (leaf 0x1000) && decide (s.me.remote = [] ∧ (s.me.getX 1).toNat % 128 = 0)

theorem launch_of {s : State} (h : launchCheck s = true) :
    s.Inv ∧ s.Settled ∧ s.me.free [6, 1, 2] ∧ s.me.free [6, 1, 3] ∧ s.Opens .load (s.me.getX 1).toNat 128 (leaf 0x1000) ∧
    s.me.remote = [] ∧ (s.me.getX 1).toNat % 128 = 0 := by
  simp only [launchCheck, Bool.and_eq_true, decide_eq_true_eq] at h
  obtain ⟨⟨⟨⟨⟨a, b⟩, c⟩, d⟩, e⟩, f⟩ := h
  exact ⟨inv_of a, settled_of b, free_of c, free_of d, opens_of e, f⟩

theorem witness_LaunchClaimAndGraph_launch :
    (let s := launching packet1 false []
     launchCheck s = true ∧ (s.me.getX 2).toNat < 64 ∧
     bitAt (s.part 0).queues (s.me.getX 2).toNat = true ∧ (s.part 0).state = .run ∧ (s.part 0).pause = false ∧
     packetCheck (s.part 0) (s.bytes (leaf 0x1000).pa 128) = none ∧ (s.queue 0).pkts.length < 32 ∧
     ¬ ((s.me.getX 3).toNat < 64)) ∧
    (let s := launching packet1 true []
     launchCheck s = true ∧ (s.part 0).pause = true) ∧
    (let s := launching 0 false []
     launchCheck s = true ∧
     packetCheck (s.part 0) (s.bytes (leaf 0x1000).pa 128) = some 1) ∧
    (let s := launching packet1 false (List.range 32)
     launchCheck s = true ∧
     packetCheck (s.part 0) (s.bytes (leaf 0x1000).pa 128) = none ∧ 32 ≤ (s.queue 0).pkts.length) := by
  decide +kernel

theorem witness_LaunchClaimAndGraph_claim :
    ganged.Drained ∧ ganged.me.free [1, 2] ∧ (1 : BitVec 5) ≠ 2 ∧ (2 : BitVec 5) ≠ 0 ∧ ganged.me.place = some placed2 ∧
    tabFind ganged.launches placed2.launch = some launch2 := by
  unfold State.Drained Hart.free
  decide +kernel

/-- A graph-start line of one root, node 0, in the scalar cache at 0x1000; the node table is at 0x2000. -/
def graphing : State :=
  { start with
    parts := [(0, { start.part 0 with nodecnt := 1, nodebase := 0x2000 })]
    cores := [(0, { Core.reset with scache := [(0x20420, { va := 0x20, data := 1 })] })]
    harts := [(0, xs [(1, 0x1000)] hart0)] }

theorem witness_LaunchClaimAndGraph_grun :
    graphing.Inv ∧ graphing.me.free [2, 1] ∧ graphing.Settled ∧ graphing.me.remote = [] ∧ graphing.me.holdS = false ∧
    (graphing.me.getX 1).toNat % 128 = 0 ∧ (graphing.me.getX 1).toNat + 128 ≤ Config.spadBase ∧
    walk graphing (graphing.walker graphing.cur) .load (graphing.me.getX 1).toNat = .ok (leaf 0x1000) ∧
    targetOf graphing (tierOf graphing.cur) (leaf 0x1000) = .line (leaf 0x1000).pa ∧ (leaf 0x1000).pa % 128 = 0 ∧
    leafMarked (graphing.bytes (leaf 0x1000).line 128) (leaf 0x1000).idx false = graphing.bytes (leaf 0x1000).line 128 ∧
    (leaf 0x1000).bc = false ∧
    tabFind (graphing.core (coreOf graphing.cur)).scache ((leaf 0x1000).pa / 128) = some { va := 0x20, data := 1 } ∧
    0x20 = (graphing.me.getX 1).toNat / 128 ∧
    answers (do
      match ← graphRefusal 0 1 with
      | some none => graphStart 0 0 (graphing.me.getX 1) 0 1
      | _ => pure false) graphing = true :=
  ⟨inv_of (by decide +kernel), by unfold Hart.free; decide +kernel, settled_of (by decide +kernel), by decide +kernel⟩

/-- The other member of the gang has arrived. -/
def lastIn : State := { ganged with gangs := [(0, { gang2 with arr := 1 })] }

theorem witness_BarrierAndBroadcastWaits :
    (start.Inv ∧ start.me.free [] ∧ start.Settled ∧ start.gangOf start.cur = none) ∧
    (ganged.Inv ∧ ganged.me.free [] ∧ ganged.Settled ∧ ganged.me.place = some placed2 ∧ tabFind ganged.gangs 0 = some gang2 ∧
      gang2.spans = false ∧ gang2.st = 1 ∧ ganged.me.arrived = false ∧ gang2.size ≠ 0 ∧ gang2.arr + 1 ≠ gang2.size) ∧
    (lastIn.Inv ∧ lastIn.me.free [] ∧ lastIn.Settled ∧ lastIn.me.place = some placed2 ∧
      tabFind lastIn.gangs 0 = some { gang2 with arr := 1 } ∧ (1#7) + 1 = gang2.size ∧ lastIn.me.arrived = false) ∧
    start.me.vq = [] ∧ start.me.bstQueued = 0 ∧ start.me.bstNext = none ∧ start.me.bacq = none ∧ start.me.bacqAt = none ∧
    (start.tier (tierOf start.cur)).replica = .current ∧
    (start.tier (tierOf start.cur)).applied = (start.tower (towerOf start.cur)).seq :=
  ⟨⟨start_inv, by unfold Hart.free; decide +kernel, start_settled, by decide +kernel⟩,
    ⟨ganged_inv, by unfold Hart.free; decide +kernel, ganged_settled, by decide +kernel⟩,
    ⟨inv_of (by decide +kernel), by unfold Hart.free; decide +kernel, settled_of (by decide +kernel), by decide +kernel⟩,
    by decide +kernel⟩

/-! ### Witnesses: vector arithmetic -/

/-- Registers of 64 bytes, four elements of the format of code t from element 0 on, of which mask m1 takes the second and the
fourth, and m2 the third alone. v4 to v9 hold addresses and offsets. -/
def vhart (t : BitVec 8) : Hart :=
  { xs [(1, 0x1000), (2, 3), (3, 0x01FFFFFFFFF80000), (4, 16)] hart0 with
    lay := 64
    capNow := 64
    vtype := t.zeroExtend 64
    vl := 4
    v := hart0.v.set 1 0x40000000C0A000003F80000041200000
      |>.set 2 0x3F800000BF800000400000003F000000
      |>.set 5 0x00080000000800000008000000000000
      |>.set 6 (0x1008 * 2 ^ 128)
      |>.set 8 (0x1000 * 2 ^ 128)
      |>.set 9 (0x2000 * 2 ^ 128)
    m := hart0.m.set 1 10 |>.set 2 4 }

def vstate (t : BitVec 8) : State := on (vhart t)

/-- What the statements of the vector side ask of such a state and of registers 3, 1 and 2, as a computation. -/
def vectorCheck (s : State) : Bool :=
  invCheck s && calmCheck s && settledCheck s &&
    decide (s.me.vtype.getLsbD 15 = false ∧ s.me.vl.toNat ≤ s.me.capacity ∧ s.me.lay % 8 = 0 ∧ trapEnables s.me.rmode = 0 ∧
      (s.sg s.cur = s.me.lay ∧ s.me.remote = []) ∧
      (∀ r ∈ [(3 : BitVec 5), 1, 2], r.toNat % vtGroup s.me.vtype = 0 ∧ r.toNat + vtGroup s.me.vtype ≤ s.me.named))

theorem vector_of {s : State} (h : vectorCheck s = true) :
    s.Inv ∧ s.Calm ∧ s.Settled ∧ s.me.vtype.getLsbD 15 = false ∧ s.me.vl.toNat ≤ s.me.capacity ∧ s.me.lay % 8 = 0 ∧
    (∀ flags, s.me.untrapped flags) ∧ (s.sg s.cur = s.me.lay ∧ s.me.remote = []) ∧ s.me.grouped [3, 1, 2] := by
  simp only [vectorCheck, Bool.and_eq_true, decide_eq_true_eq] at h
  obtain ⟨⟨⟨a, b⟩, c⟩, d, e, f, g, m, k⟩ := h
  exact ⟨inv_of a, calm_of b, settled_of c, d, e, f, untrapped_of g, m, k⟩

/-- .s32, the narrow .i4 and .z4, .f32, .f64, .n64 and .b1. -/
theorem vector_states :
    ∀ t ∈ [(0x02 : BitVec 8), 0x38, 0x39, 0x7B, 0x8B, 0x07, 0x0A, 0x04, 0x03], vectorCheck (vstate t) = true := by
  simp only [List.forall_mem_cons]
  decide +kernel

/-- A format of CLASS 0 to 9 at the ends of the range, under no mask and under one. -/
theorem witness_VectorIntegerResults :
    vectorCheck (vstate 0x02) = true ∧ codeClass (vtCode (vstate 0x02).me.vtype) ≤ 9 ∧
    vectorCheck (vstate 0x39) = true ∧ codeClass (vtCode (vstate 0x39).me.vtype) = 9 := by
  decide +kernel

theorem witness_VectorCarryAndMerge :
    vectorCheck (vstate 0x02) = true ∧ codeClass (vtCode (vstate 0x02).me.vtype) ≤ 9 ∧ (11#4).toNat < 12 := by
  decide +kernel

theorem witness_VectorCompares :
    vectorCheck (vstate 0x02) = true ∧ codeClass (vtCode (vstate 0x02).me.vtype) ≤ 9 ∧ (11#5).toNat < 12 ∧
    vectorCheck (vstate 0x7B) = true ∧ codeClass 0x7B = 11 ∧ codeSub 0x7B = 7 ∧ codeSub 0x5B = 5 ∧ codeSub 0x8B = 8 := by
  decide +kernel

theorem witness_VectorFloatResults :
    vectorCheck (vstate 0x7B) = true ∧ vectorCheck (vstate 0x8B) = true ∧
    codeClass (vtCode (vstate 0x7B).me.vtype) = 11 ∧ codeSub (vtCode (vstate 0x7B).me.vtype) = 7 ∧
    codeSub (vtCode (vstate 0x8B).me.vtype) = 8 := by
  decide +kernel

theorem witness_VectorConversions :
    vectorCheck (vstate 0x7B) = true ∧ (vop (.vfcvt 3 1 12 2) (vstate 0x7B).me.vtype (vstate 0x7B).me).isSome = true ∧
    (vop (.vfcvt 3 1 12 2) (vstate 0x7B).me.vtype (vstate 0x7B).me).map (sendIllegal (vstate 0x7B).me) = some false := by
  decide +kernel

theorem witness_VectorMoves :
    vectorCheck (vstate 0x02) = true ∧ codeClass 0x02 ≠ 10 ∧ codeClass 0x02 ≤ 7 ∧ codeClass 0x39 = 9 ∧ vectorCheck (vstate 0x04) = true ∧
    vtCode (vstate 0x04).me.vtype = 4 ∧ (7#5).toNat < 8 := by
  decide +kernel

/-- One element, and none, set in m1 under VL. -/
theorem witness_Reductions :
    vectorCheck (vstate 0x02) = true ∧ codeClass 0x02 ≤ 7 ∧
    ((vstate 0x02).me.takesPart 12 1 && ((vstate 0x02).me.mreg 1).testBit 1) = true ∧
    ((vstate 0x02).me.takesPart 12 0 && ((vstate 0x02).me.mreg 1).testBit 0) = false ∧
    (∀ k : Fin 4, ((vstate 0x02).me.mreg 0).testBit k = false) ∧
    vectorCheck (vstate 0x7B) = true ∧ (vstate 0x7B).me.vl.toNat ≤ 2 ^ 2 ∧ 2 ^ (2 - 1) < (vstate 0x7B).me.vl.toNat ∧
    (∀ e : Fin 4, (vstate 0x7B).me.takesPart 12 e = true) := by
  decide +kernel

theorem witness_MaskResults :
    vectorCheck (vstate 0x02) = true ∧ (11#5).toNat < 12 ∧ codeClass (vtCode (vstate 0x02).me.vtype) ≠ 10 ∧
    vectorCheck (vstate 0x7B) = true ∧ codeClass (vtCode (vstate 0x7B).me.vtype) = 11 := by
  decide +kernel

/-! ### Witnesses: vector memory -/

/-- A mask that one element of VL alone is active under. -/
theorem single_of {h : Hart} {m : BitVec 4} {e : Nat} (hc : (List.range h.vl.toNat).all (fun k => h.active m k == (k == e)) = true)
    (he : e < h.vl.toNat) : ∀ k, h.active m k = true ↔ k = e := by
  intro k
  rw [List.all_eq_true] at hc
  by_cases hk : k < h.vl.toNat
  · have := hc k (List.mem_range.2 hk)
    rw [beq_iff_eq] at this
    rw [this, beq_iff_eq]
  · constructor
    · intro ha
      simp only [Hart.active, Bool.and_eq_true, decide_eq_true_eq] at ha
      exact absurd ha.1.2 hk
    · rintro rfl
      exact absurd he hk

/-- vstate with eight banks of scratchpad. -/
def padded (t : BitVec 8) : State :=
  { vstate t with cores := [(0, { Core.reset with spbanks := 8, spad := memWrite [] 0 16 0x0102030405060708090A0B0C0D0E0F10 })] }

/-- Elements from x3 lie in the scratchpad; the third from x1 is in memory; by v5's offsets from x3 the first is in the scratchpad
and the others end above the address space. -/
theorem witness_VectorLoads :
    vectorCheck (padded 0x02) = true ∧ codeClass (vtCode (padded 0x02).me.vtype) ≠ 10 ∧
    (∀ e : Fin 4, let va := ((padded 0x02).me.getX 3 + BitVec.ofNat 64 (e * 4)).toNat
      Config.spadBase ≤ va ∧ va + 4 ≤ Config.spadBase + 8192 * 8 ∧ va + 4 ≤ 2 ^ 57) ∧
    (∀ e : Fin 4, let va := ((padded 0x02).me.getX 3 + BitVec.ofNat 64 e * (padded 0x02).me.getX 4).toNat
      Config.spadBase ≤ va ∧ va + 4 ≤ Config.spadBase + 8192 * 8 ∧ va + 4 ≤ 2 ^ 57) ∧
    (List.range 4).all (fun k => (padded 0x02).me.active 2 k == (k == 2)) = true ∧
    opensCheck (padded 0x02) .load ((padded 0x02).me.getX 1 + BitVec.ofNat 64 (2 * 4)).toNat 4 (leaf 0x1008) = true ∧
    (padded 0x02).me.first < 1 ∧ (padded 0x02).me.active 12 1 = true ∧
    ((padded 0x02).me.getX 3 + BitVec.ofNat 64 ((padded 0x02).me.elem 5 0)).toNat = Config.spadBase ∧
    (∀ e : Fin 3, 2 ^ 57 < ((padded 0x02).me.getX 3 + BitVec.ofNat 64 ((padded 0x02).me.elem 5 (e + 1))).toNat + 4) ∧
    ((padded 0x02).core 0).spbanks = 8 := by
  decide +kernel

theorem witness_VectorStores :
    vectorCheck (padded 0x02) = true ∧
    opensCheck (padded 0x02) .store ((padded 0x02).me.getX 1 + BitVec.ofNat 64 (2 * 4)).toNat 4 (leaf 0x1008) = true ∧
    (List.range 4).all (fun k => (padded 0x02).me.active 2 k == (k == 2)) = true ∧
    Config.spadBase ≤ ((padded 0x02).me.getX 3).toNat ∧ ((padded 0x02).me.getX 3).toNat + 4 ≤ Config.spadBase + 8192 * 8 := by
  decide +kernel

/-- The third element's address in v6, and its offset 0 from x1 in v4. -/
theorem witness_VectorAtomics :
    vectorCheck (vstate 0x02) = true ∧ (List.range 4).all (fun k => (vstate 0x02).me.active 2 k == (k == 2)) = true ∧
    (∀ k : Fin 4, (vstate 0x02).me.takesPart 2 k = true → k.val = 2) ∧
    opensCheck (vstate 0x02) .atomic ((vstate 0x02).me.vget 7 6 2) 4 (leaf 0x1008) = true ∧ (vstate 0x02).me.vget 7 6 2 % 4 = 0 ∧
    (vop (.vamoAdd 3 6 2 4 1 1) (vstate 0x02).me.vtype (vstate 0x02).me).map (sendIllegal (vstate 0x02).me) = some false ∧
    opensCheck (vstate 0x02) .atomic ((vstate 0x02).me.getX 1 + BitVec.ofNat 64 ((vstate 0x02).me.elem 4 2)).toNat 4 (leaf 0x1000) = true ∧
    vectorCheck (vstate 0x7B) = true ∧ (List.range 4).all (fun k => (vstate 0x7B).me.active 2 k == (k == 2)) = true ∧
    opensCheck (vstate 0x7B) .atomic ((vstate 0x7B).me.getX 1 + BitVec.ofNat 64 ((vstate 0x7B).me.elem 4 2)).toNat 4 (leaf 0x1000) = true := by
  decide +kernel

/-- v8 holds mapped addresses; with the second element of a group of 2^57 the address is absent. -/
def lost : State := on { vhart 0x07 with v := (vhart 0x07).v.set 8 (0x1000 + 2 ^ 57 * 2 ^ 64) }

theorem witness_VectorTranslations :
    vectorCheck (vstate 0x07) = true ∧ codeClass (vtCode (vstate 0x07).me.vtype) = 7 ∧ vectorCheck (vstate 0x03) = true ∧
    codeClass (vtCode (vstate 0x03).me.vtype) = 3 ∧ (11#5).toNat < 12 ∧
    (∀ e : Fin 4, (vstate 0x07).me.elem 8 e < Config.spadBase ∧
      (match walk (vstate 0x07) ((vstate 0x07).walker 0) .load ((vstate 0x07).me.elem 8 e) with | .ok _ => true | _ => false) = true) ∧
    vectorCheck lost = true ∧ lost.me.active 12 1 = true ∧ 2 ^ 57 ≤ lost.me.elem 8 1 ∧ lost.me.elem 8 0 < Config.spadBase ∧
    (match walk lost (lost.walker 0) .load (lost.me.elem 8 0) with | .ok _ => true | _ => false) = true := by
  decide +kernel

/-! ### Witnesses: pointers and lines -/

/-- The last state of a program. -/
def after (m : M Unit) (s : State) : State :=
  match runM m s with
  | .next t => t
  | _ => s

/-- The line at 0x1000 forwards to 0x2000, and that one to 0x3000; the relocation table at 0x8000 names no region. -/
def forwarding : State :=
  { vstate 0x07 with
    mem := memWrite (memWrite start.mem 0x1021000 128 (fwdRecord 0x2000 0)) 0x1022000 128 (fwdRecord 0x3000 0)
    lines := [(0x20420, { LineMeta.reset with mark := true, st := 2, ptag := 0 }),
      (0x20440, { LineMeta.reset with mark := true, st := 2, ptag := 0 })]
    parts := [(0, { start.part 0 with relbase := 0x8000 })] }

/-- The same with the one line alone a record. -/
def forwarding1 : State :=
  { vstate 0x07 with
    mem := memWrite start.mem 0x1021000 128 (fwdRecord 0x2000 0)
    lines := [(0x20420, { LineMeta.reset with mark := true, st := 2, ptag := 0 })]
    parts := [(0, { start.part 0 with relbase := 0x8000 })] }

/-- One hop, as a computation. -/
def hopsCheck (s : State) (acc : Acc) (va : Nat) (l : Leaf) (nva : Nat) : Bool :=
  decide (va < Config.spadBase ∧ walk s (s.walker s.cur) acc va = .ok l ∧ l.pa % 128 = va % 128 ∧
    leafMarked (s.bytes l.line 128) l.idx acc.writes = s.bytes l.line 128 ∧
    (pkgOf l.pa = s.pkg ∧ localOf l.pa < Config.localBytes ∧ l.bc = false) ∧
    s.line (l.pa / 128) = { LineMeta.reset with mark := true, st := 2, ptag := (s.line (l.pa / 128)).ptag } ∧
    recordGood (s.bytes (l.pa / 128 * 128) 128) s.me.partid.toNat = true ∧
    nva = bitsGet (s.bytes (l.pa / 128 * 128) 128) 0 57 / 128 * 128 + va % 128)

theorem hops_of {s : State} {acc : Acc} {va : Nat} {l : Leaf} {nva : Nat} (h : hopsCheck s acc va l nva = true) :
    s.Hops acc va l nva := by
  simp only [hopsCheck, decide_eq_true_eq] at h
  obtain ⟨a, b, c, d, e, f, g, k⟩ := h
  exact ⟨a, b, c, d, e, f, g, k⟩

/-- A relocation table, as a computation. -/
def tableCheck (s : State) (p : Nat) (t : Bits) : Bool :=
  match devLeaves s p .load (pagePieces (s.part p).relbase 32768) with
  | some ls => ls.all (fun e => leafMarked (s.bytes e.1.line 128) e.1.idx false == s.bytes e.1.line 128 && devPlain s e.1 e.2) &&
      devGet s ls == t
  | none => false

theorem table_of {s : State} {p : Nat} {t : Bits} (h : tableCheck s p t = true) : s.TableHolds p t := by
  unfold tableCheck at h
  split at h
  · rename_i ls hl
    simp only [Bool.and_eq_true, List.all_eq_true, beq_iff_eq] at h
    exact ⟨ls, hl, h.1, h.2⟩
  · cases h

/-- An empty table names no region. -/
theorem regionIn_zero (va : Nat) (l : List Nat) : regionIn 0 va l = none := by
  induction l with
  | nil => rfl
  | cons i l ih =>
    have h : regionAt 0 i = none := by simp [regionAt, bitsGet]
    rw [regionIn, h, ih]

theorem alone_of {s : State} (h : tableCheck s s.me.partid.toNat 0 = true) :
    ∃ q, s.TableHolds s.me.partid.toNat q ∧ ∀ va, regionIn q va (List.range 1024) = none :=
  ⟨0, table_of h, fun va => regionIn_zero va _⟩

/-- forwarding after FWDPATH's write of its first record. -/
def shortened : State := after (homeWrite 0x1021000 128 (fwdRecord 0x3000 0)) forwarding

theorem shortened_gives : Gives (homeWrite 0x1021000 128 (fwdRecord 0x3000 0)) forwarding () shortened := fun _ _ _ => rfl

theorem witness_PointerResults :
    (vectorCheck (vstate 0x07) = true ∧ codeClass (vtCode (vstate 0x07).me.vtype) = 7 ∧
      (List.range 4).all (fun k => (vstate 0x07).me.active 2 k == (k == 2)) = true ∧ (vstate 0x07).me.elem 8 2 = 0x1000 ∧
      (vstate 0x07).me.elem 9 2 = 0x2000 ∧ opensCheck (vstate 0x07) .load 0x1000 1 (leaf 0x1000) = true ∧
      opensCheck (vstate 0x07) .load 0x2000 1 (leaf 0x2000) = true ∧ opensCheck (vstate 0x07) .path 0x1000 128 (leaf 0x1000) = true) ∧
    (vectorCheck forwarding1 = true ∧ forwarding1.me.elem 8 2 = 0x1000 ∧ forwarding1.me.elem 9 2 = 0x2000 ∧
      hopsCheck forwarding1 .load 0x1000 (leaf 0x1000) 0x2000 = true ∧ opensCheck forwarding1 .load 0x2000 1 (leaf 0x2000) = true ∧
      tableCheck forwarding1 0 0 = true) ∧
    vectorCheck forwarding = true ∧ forwarding.me.elem 8 2 = 0x1000 ∧ hopsCheck forwarding .path 0x1000 (leaf 0x1000) 0x2000 = true ∧
    hopsCheck forwarding .load 0x2000 (leaf 0x2000) 0x3000 = true ∧ opensCheck forwarding .load 0x3000 1 (leaf 0x3000) = true ∧
    forwarding.me.fwdlim ≠ 1 ∧
    leafMarked (forwarding.bytes (leaf 0x1000).line 128) (leaf 0x1000).idx true = forwarding.bytes (leaf 0x1000).line 128 ∧
    tableCheck shortened 0 0 = true := by
  decide +kernel

/-- One region, the page at 0, ACTIVE or of another state, in the relocation table at 0x8000. -/
def regional (st : Nat) : State :=
  { vstate 0x07 with
    mem := memWrite start.mem 0x1028000 16 (16 + st * 2 ^ 64)
    parts := [(0, { start.part 0 with relbase := 0x8000 })] }

/-- That region. -/
def region0 (st : Nat) : Region := { idx := 0, base := 0, lsize := 16, st := st, fhit := 0, moves := 0 }

/-- A move from the line at 0x1000 to that at 0x2000 begun, done and counted. -/
def moved1 : State :=
  ((regional 1).remark 0x20420 (fun x => { x with
    mark := true, st := 1, move := some { dst := 0x20440, newva := 0x2000, part := 0, failed := false } })).remark 0x20440
    (fun d => { d with reserved := true })
def moved2 : State := moved1.moved 0x20420 0x20440 0x2000 0
def moved3 : State := moved2.wrote 0x1028014 4 1

theorem moved1_gives (f : Hart) : Gives (moveBegin 0x20420 0x20440 0x2000 0) ((regional 1).setMe f) () (moved1.setMe f) := by
  have h : (regional 1).clusters = [] := by decide +kernel
  unfold moved1
  generalize regional 1 = s at *
  have g := moveBegin_gives (s := s.setMe f) (src := 0x20420) (dst := 0x20440) (newva := 0x2000) (p := 0) h
  rwa [remark_setMe, remark_setMe] at g

theorem moved_setMe (s : State) (f : Hart) (src dst newva p : Nat) :
    (s.setMe f).moved src dst newva p = (s.moved src dst newva p).setMe f := by
  unfold State.moved
  rw [setMe_bytes, wrote_setMe, remark_setMe, wrote_setMe, remark_setMe]

theorem moved2_gives (f : Hart) : Gives (moveDone 0x20420 0x20440 0x2000 0) (moved1.setMe f) true (moved2.setMe f) := by
  have h : moved1.clusters = [] ∧ moved1.reclaims = [] ∧ (moved1.line 0x20420).poison = false ∧
      (moved1.line 0x20420).move.any (fun m => m.failed) = false ∧
      (((moved1.wrote (0x20440 * 128) 128 (moved1.bytes (0x20420 * 128) 128)).remark 0x20440
        (fun d => { d with reserved := false })).line 0x20440).held = [] ∧
      ((moved1.moved 0x20420 0x20440 0x2000 0).line 0x20420).held = [] := by decide +kernel
  unfold moved2
  generalize moved1 = s at *
  rw [← moved_setMe]
  refine moveDone_gives h.1 h.2.1 h.2.2.1 h.2.2.2.1 ?_ ?_
  · rw [setMe_bytes, wrote_setMe, remark_setMe, setMe_line]
    exact h.2.2.2.2.1
  · rw [moved_setMe, setMe_line]
    exact h.2.2.2.2.2

/-- The pages and leaves that the counts and the table of the region need. -/
theorem moved_leaves :
    devLeaves moved2 0 .load [(0x8000, 32768)] = some [(leaf 0x8000, 32768)] ∧
    devLeaves moved2 0 .store [(0x8014, 4)] = some [(leaf 0x8014, 4)] ∧
    devLeaves (regional 1) 0 .store [(0x8008, 1)] = some [(leaf 0x8008, 1)] ∧
    (∀ s ∈ [moved2, regional 1], (leafEntry (s.bytes 0x1010000 128) 0).testBit 7 = true ∧
      leafMarked (s.bytes 0x1010000 128) 0 true = s.bytes 0x1010000 128 ∧
      leafMarked (s.bytes 0x1010000 128) 0 false = s.bytes 0x1010000 128) ∧
    regionIn (moved2.bytes 0x1028000 32768) 0x1000 (List.range 1024) = some (region0 1) ∧ (moved2.part 0).relbase = 0x8000 ∧
    (devPlain moved2 (leaf 0x8000) 32768 = true ∧ devPlain moved2 (leaf 0x8014) 4 = true ∧ moved2.clusters = []) ∧
    devPlain (regional 1) (leaf 0x8008) 1 = true ∧ (regional 1).clusters = [] := by
  decide +kernel

theorem moved3_gives (f : Hart) : Gives (countMove 0 0 0x1000) (moved2.setMe f) () (moved3.setMe f) := by
  obtain ⟨a, b, -, c, d, e, ⟨k1, k2, k3⟩, -⟩ := moved_leaves
  obtain ⟨c1, c2, c3⟩ := c moved2 (by simp)
  unfold moved3
  generalize moved2 = s at *
  have h := homeWrite_gives (s := s.setMe f) (pa := 0x1028014) (n := 4) 1 (by decide) (by decide)
  rw [wrote_setMe] at h
  refine countMove_gives (t := s.bytes 0x1028000 32768) (r := region0 1) ?_ d ?_
  · rw [setMe_part, e]
    exact devRead_gives (l := leaf 0x8000) (by decide +kernel) ((devLeaves_setMe _ _ _ _ _).trans a) c3 k1
  · rw [setMe_part, e]
    exact needWrite_gives (devWrite_gives (l := leaf 0x8014) (by decide +kernel) ((devLeaves_setMe _ _ _ _ _).trans b) c1 c2 k2 k3 h)

theorem witness_LinesForwardedAndReclaimed_move :
    vectorCheck (regional 1) = true ∧ codeClass (vtCode (regional 1).me.vtype) = 7 ∧
    (List.range 4).all (fun k => (regional 1).me.active 2 k == (k == 2)) = true ∧ (regional 1).lag.moves = false ∧
    (regional 1).me.elem 8 2 = 0x1000 ∧ (regional 1).me.elem 9 2 = 0x2000 ∧
    opensCheck (regional 1) .atomic 0x1000 128 (leaf 0x1000) = true ∧ opensCheck (regional 1) .store 0x2000 128 (leaf 0x2000) = true ∧
    ((regional 1).line ((leaf 0x2000).pa / 128)).ptag = 127 ∧ tableCheck (regional 1) 0 (16 + 2 ^ 64) = true ∧
    regionIn (16 + 2 ^ 64) 0x1000 (List.range 1024) = some (region0 1) ∧
    start.reclaims = [] ∧ (start.line 0x20420).poison = false ∧ start.clusters = [] ∧ 128 * 0x20440 + 128 ≤ Config.localBytes := by
  decide +kernel

/-- The same region made TOMB, and RECLAIM, and free. -/
def entombed : State := (regional 1).wrote 0x1028008 1 3
def reclaiming : State := (regional 1).wrote 0x1028008 1 4
def reclaim0 : Reclaim := { part := 0, idx := 0, frames := [(0x1020000, 65536)], awaited := [] }
def reclaimed : State := reclaiming.wrote 0x1028008 1 0

theorem state_gives (f : Hart) (v : Nat) (hv : v < 256) :
    Gives (needWrite 0 0 0x8008 1 v) ((regional 1).setMe f) () (((regional 1).wrote 0x1028008 1 v).setMe f) := by
  obtain ⟨-, -, a, c, -, -, -, k1, k2⟩ := moved_leaves
  obtain ⟨c1, c2, -⟩ := c (regional 1) (by simp)
  have e : v % 2 ^ (8 * 1) = v := Nat.mod_eq_of_lt (by omega)
  have h := homeWrite_gives (s := (regional 1).setMe f) (pa := 0x1028008) (n := 1) v (by decide) (by decide)
  rw [wrote_setMe] at h
  generalize regional 1 = s at *
  exact needWrite_gives (devWrite_gives (l := leaf 0x8008) (by decide +kernel) ((devLeaves_setMe _ _ _ _ _).trans a) c1 c2 k1 k2
    (by rw [e]; exact h))

theorem reclaiming_facts :
    devLeaves reclaiming 0 .store [(0x8008, 1)] = some [(leaf 0x8008, 1)] ∧
    (leafEntry (reclaiming.bytes 0x1010000 128) 0).testBit 7 = true ∧
    leafMarked (reclaiming.bytes 0x1010000 128) 0 true = reclaiming.bytes 0x1010000 128 ∧
    markedLines reclaiming [(0x1020000, 65536)] [2, 3] = [] ∧ (reclaiming.part 0).relbase = 0x8000 ∧ reclaiming.reclaims = [] ∧
    devPlain reclaiming (leaf 0x8008) 1 = true ∧ reclaiming.clusters = [] := by
  decide +kernel

theorem reclaimed_gives (f : Hart) :
    Gives (reclaimFinish reclaim0) (Prim.apply (reclaiming.setMe f) (.reclaims [reclaim0])) () (reclaimed.setMe f) := by
  obtain ⟨a, b, c, d, e, r, k1, k2⟩ := reclaiming_facts
  unfold reclaimed
  generalize reclaiming = s at *
  refine reclaimFinish_gives d ?_
  have ht : Prim.apply (Prim.apply (s.setMe f) (.reclaims [reclaim0])) (.reclaims
      ((Prim.apply (s.setMe f) (.reclaims [reclaim0])).reclaims.filter
        (fun x => !(x.part == reclaim0.part && x.idx == reclaim0.idx)))) = s.setMe f := by
    have h : (Prim.apply (s.setMe f) (.reclaims [reclaim0])).reclaims = [reclaim0] := rfl
    rw [h]
    have h2 : [reclaim0].filter (fun x => !(x.part == reclaim0.part && x.idx == reclaim0.idx)) = (s.setMe f).reclaims := by
      rw [setMe_reclaims, r]
      rfl
    rw [h2]
    rfl
  simp only [ht]
  rw [setMe_part]
  show Gives (devWrite 0 ((s.part 0).relbase + 32 * 0 + 8) 1 0) _ _ _
  rw [e]
  exact devWrite_gives (l := leaf 0x8008) (by decide +kernel) ((devLeaves_setMe _ _ _ _ _).trans a) b c k1 k2
    (homeWrite_gives 0 (by decide) (by decide))

/-- The walks of the region's pages find the one page. -/
def onePage (s : State) : Bool :=
  match regionLeaves s (s.walker 0) (pagesOf s (s.walker 0) 0 16) with
  | .ok ls => ls == [(0, leaf 0)]
  | _ => false

theorem witness_LinesForwardedAndReclaimed_reclaim :
    vectorCheck (regional 1) = true ∧ tableCheck (regional 1) 0 (16 + 2 ^ 64) = true ∧
    VCtx.namedRegion (16 + 2 ^ 64) ((regional 1).me.getX 0) = some (region0 1) ∧
    onePage (regional 1) = true ∧
    leafMarked ((regional 1).bytes (leaf 0).line 128) (leaf 0).idx true = (regional 1).bytes (leaf 0).line 128 ∧
    entombed = { regional 1 with mem := entombed.mem, lines := entombed.lines } ∧
    (regional 1).lag.reclaim = false ∧ (regional 1).reclaims = [] ∧ begunAccesses (regional 1) 0 = [] ∧
    markedLines reclaiming [(0x1020000, 65536)] [1] = [] ∧
    reclaiming = { regional 1 with mem := reclaiming.mem, lines := reclaiming.lines } ∧ reclaimed.reclaims = [] ∧
    vectorCheck (regional 3) = true ∧ tableCheck (regional 3) 0 (16 + 3 * 2 ^ 64) = true ∧
    VCtx.namedRegion (16 + 3 * 2 ^ 64) ((regional 3).me.getX 0) = some (region0 3) ∧
    onePage (regional 3) = true := by
  decide +kernel

/-! ### Witnesses: channels, streams, fences and broadcasts -/

/-- A descriptor at 0x1000: four elements of .s32 from 0x1100 to 0x1200, side by side. -/
def copying (vl : BitVec 23) : State :=
  { start with
    mem := memWrite start.mem 0x1021000 40 (4 + 2 * 2 ^ 48 + 0x1100 * 2 ^ 64 + 0x1200 * 2 ^ 128 + 4 * 2 ^ 192 + 4 * 2 ^ 256)
    harts := [(0, { vhart 0x02 with vl := vl })] }

/-- The channel that it describes. -/
def channel (s : State) : Chan :=
  { Chan.reset with
    desc := Vector.ofFn (fun (k : Fin 5) => BitVec.ofNat 64 (bitsGet (s.bytes 0x1021000 40) (64 * k.val) 64))
    typ := 2
    mode := s.me.rmode.extractLsb' 0 3
    seed := s.me.rmode.extractLsb' 32 32
    active := true
    exp := s.me.vl
    released := 4
    cfgPc := s.me.pc }

theorem witness_CopyChannels :
    loneCheck (copying 4) = true ∧ invCheck (copying 4) = true ∧ calmCheck (copying 4) = true ∧ (3#5).toNat < 4 ∧
    (((copying 4).me.past 4 false).chan 3).active = false ∧ (copying 4).me.vl ≠ 0 ∧
    opensCheck (copying 4) .load ((copying 4).me.getX 1).toNat 40 (leaf 0x1000) = true ∧
    (channel (copying 4)).bad = false ∧ (channel (copying 4)).inWindow = none ∧
    invCheck (copying 0) = true ∧ calmCheck (copying 0) = true ∧ (copying 0).me.vl = 0 := by
  decide +kernel

/-- ganged with x1 naming member 1; and with a stream from it into v8. -/
def opening : State := { ganged with harts := [(0, { xs [(1, 1)] hart0 with place := some placed2 })] }
def streaming : State :=
  { opening with gangs := [(0, { gang2 with streams := [
    { prod := 1, k := 3, cons := 0, vd := 8, written := 0, read := 0, item := none, done := false }] })] }

theorem witness_StreamsOpenAndClose :
    (invCheck opening = true ∧ loneCheck opening = true ∧ opening.gangOf opening.cur = some (0, gang2) ∧ (8#5).toNat < opening.me.named ∧
      (opening.me.getX 1).toNat = 1 ∧ sopenFault opening opening.cur gang2 1 3 8 = none) ∧
    (start.gangOf start.cur = none ∧ (8#5).toNat < start.me.named) ∧
    invCheck streaming = true ∧ idleCheck streaming = true ∧ (8#5).toNat < streaming.me.named ∧
    (match streaming.gangOf streaming.cur with | some (_, x) => (x.into streaming.me.index 8).isSome | none => false) = true := by
  decide +kernel

/-- The page at 0 is a broadcast page of tower 0; x5 points to the last word of a block, x1 to its first. -/
def casting : State :=
  { start with
    mem := memWrite start.mem 0x1010000 8 0x10202DF
    towers := [(0, { Tower.reset with table := { SlotTable.reset with bOff := 0x1020000, bLen := 65536 } })]
    harts := [(0, xs [(5, 0x11F8)] (vhart 0x07))] }

def castLeaf (va : Nat) : Leaf := { leaf va with entry := 0x10202DF }

/-- What a BST to the block asks of an address. -/
def castCheck (va i k : Nat) : Bool :=
  decide (va % 8 = 0 ∧ va + 8 ≤ Config.spadBase ∧ walk casting (casting.walker casting.cur) .bst va = .ok (castLeaf va) ∧
    leafMarked (casting.bytes 0x1010000 128) 0 true = casting.bytes 0x1010000 128 ∧ localOf (castLeaf va).pa < Config.localBytes ∧
    VCtx.blockOf casting casting.cur (castLeaf va).pa = some (i, k) ∧ (tabGet [] (casting.tier (tierOf casting.cur)).tx 0).length < 64)

theorem witness_VectorFencesAndBroadcasts :
    invCheck casting = true ∧ loneCheck casting = true ∧ settledCheck casting = true ∧ casting.cur < 1536 ∧
    castCheck (casting.me.getX 5).toNat 8 63 = true ∧ (63 < 64) ∧ vectorCheck casting = true ∧
    codeClass (vtCode casting.me.vtype) = 7 ∧ (List.range 4).all (fun k => casting.me.active 2 k == (k == 2)) = true ∧
    castCheck (casting.me.getX 1 + BitVec.ofNat 64 (8 * 2)).toNat 8 2 = true := by
  decide +kernel

/-! ### Witnesses: matrix and narrow formats, histories -/

/-- Tiles of two rows and two columns, TILEK 16, over the scratchpad of padded. -/
def tiling (t : BitVec 8) (vl : BitVec 23) : State :=
  { padded t with harts := [(0, { vhart t with tilem := 2, tilen := 2, tilek := 16, vl := vl, a := hart0.a.set 1 0x000000050000000600000007 })] }

/-- The queue accepts an instruction. -/
def accepted (s : State) (i : Instr) : Bool := (vop i s.me.vtype s.me).any (fun op => !(sendIllegal s.me op))

theorem witness_MatrixResults :
    vectorCheck (tiling 0x02 4) = true ∧ (tiling 0x02 4).me.first < (tiling 0x02 4).me.vl.toNat ∧
    accepted (tiling 0x02 4) (.mopa 3 1 2 0 4 0 0 false false) = true ∧ codeFloat 0 = false ∧ codeFloat 4 = false ∧
    accepted (tiling 0x02 4) (.mopa 3 1 2 0x6B 0x6B 0 0 false false) = true ∧ codeFloat 0x6B = true ∧
    (tiling 0x02 4).me.tilek.toNat = 16 ∧ vtCode (tiling 0x02 4).me.vtype = 2 ∧
    (∀ i j : Fin 2, let va := ((tiling 0x02 4).me.getX 3 + BitVec.ofNat 64 i * (tiling 0x02 4).me.getX 4 + BitVec.ofNat 64 (4 * j)).toNat
      va = Config.spadBase + 16 * i + 4 * j) ∧
    ((tiling 0x02 4).core 0).spbanks = 8 := by
  decide +kernel

theorem witness_NarrowFormats :
    vectorCheck (vstate 0x7B) = true ∧ accepted (vstate 0x7B) (.vcvtn 3 1 12 0x0B 0x7B 0 false) = true ∧
    accepted (vstate 0x7B) (.vcvtn 3 1 12 0x2B 0x7B 1 true) = true ∧ accepted (vstate 0x7B) (.vcvtw 8 1 12 0x2B 0x7B 1 true) = true ∧
    accepted (vstate 0x7B) (.vcvtw 8 1 12 0x78 0x7B 0 false) = true ∧ accepted (vstate 0x7B) (.vscale 7 1 0x2B 0x7B) = true ∧
    (7#5).toNat < 8 ∧ accepted (vstate 0x7B) (.vhad 3 1 12 0x7B 0x7B 1) = true ∧
    accepted (vstate 0x7B) (.vhad 3 1 12 0x38 0x7B 7) = true := by
  decide +kernel

/-- A history of four elements of depth 3 in FP32, with the given entries. -/
def history (es : List Nat) (stag : Bool) : Hist :=
  { cfg := 0x1E03, nel := 4, elems := List.replicate 4 { entries := es, prev := none, nzd := false, stag := stag, conv := false, div := false } }

def remembering : State := on { vhart 0x7B with e := hart0.e.set 0 (history [0x3F800000, 0x3FC00000, 0x3FE00000] false) }

/-- 1, 1.5 and 1.75 have a second difference of a quarter. -/
theorem witness_HistoryResults :
    vectorCheck remembering = true ∧ remembering.me.first < remembering.me.vl.toNat ∧ Hist.bad (remembering.me.getX 2) = false ∧
    ({ cfg := remembering.me.getX 2, nel := remembering.me.vl.toNat, elems := [] } : Hist).bytes +
      remembering.histBytes remembering.cur (some 0) ≤ 65536 ∧
    (11#5).toNat < 12 ∧ vtCode remembering.me.vtype = (remembering.me.hist 0).code ∧
    (remembering.me.hist 0).elems.length = (remembering.me.hist 0).nel ∧
    (let x := history [0x3F800000, 0x3FC00000, 0x3FE00000] false
     x.mode = 0 ∧ (x.elem 0).stag = false ∧ (x.elem 0).entries = [] ++ [0x3F800000, 0x3FC00000, 0x3FE00000] ∧
     tooSmall x 0xBE800000 [0x3F800000, 0x3FC00000, 0x3FE00000] = false) := by
  decide +kernel

/-! ### Witnesses: steps that no encoding selects -/

theorem witness_CsrWriteSteps :
    (start.hart 5).runs = false ∧ csrValue start 0 0x015 = none ∧ csrAllowed 0x800 (start.hart 0).sup true = false ∧
    csrAllowed 0x400 (super.hart 0).sup true = false ∧ invCheck super = true ∧ (super.hart 0).runs = true ∧ (super.hart 0).vq = [] ∧
    (super.hart 0).sup = true ∧ invCheck start = true ∧ (start.hart 0).runs = true ∧ (start.hart 0).vq = [] ∧
    (start.hart 0).sup = false ∧
    (∀ k ∈ coreHarts 0, (super.hart k).posted = [] ∧ (super.hart k).flight = none) ∧ codeValid ((0x0C#64).extractLsb' 0 8) = false ∧ codeValid ((0xFF9#64).extractLsb' 0 8) = true := by
  decide +kernel

/-- The channel of copying runs, with element 1 fetched. -/
def fetching : State :=
  { copying 4 with harts := [(0, { vhart 0x02 with
    chans := (vhart 0x02).chans.set 3 { channel (copying 4) with fetched := [(1, 0x11223344)] } })] }

theorem witness_HartSteps_channels :
    invCheck fetching = true ∧ chanRuns fetching.me 3 = true ∧ 3 < (fetching.me.chan 3).limit ∧
    (fetching.me.chan 3).isFetched 3 = false ∧ opensCheck fetching .load ((fetching.me.chan 3).srcAddr 3) (fetching.me.chan 3).es (leaf 0x110C) = true ∧
    fetching.me.chanMay 3 3 false ((fetching.me.chan 3).srcAddr 3) (fetching.me.chan 3).es = true ∧
    fetching.me.chanMay 3 1 true ((fetching.me.chan 3).dstAddr 1) (fetching.me.chan 3).ed = true ∧
    (fetching.me.chan 3).isFetched 1 = true ∧ (fetching.me.chan 3).limit = 4 ∧ tabFind (fetching.me.chan 3).fetched 3 = none ∧
    tabFind (fetching.me.chan 3).fetched 1 = some 0x11223344 ∧
    opensCheck fetching .store ((fetching.me.chan 3).dstAddr 1) (fetching.me.chan 3).ed (leaf 0x1204) = true ∧
    trappedFlag 0 (trapEnables fetching.me.rmode) = none := by
  decide +kernel

/-- moved1 with its source's data lost. -/
def spoilt : State := moved1.remark 0x20420 (fun x => { x with poison := true })

/-- The reclamation waits, for nothing and for a completed write of the hart. -/
def waitingFor (l : List (Nat × Nat)) : State :=
  { reclaiming with
    reclaims := [{ reclaim0 with awaited := l }]
    harts := [(0, { vhart 0x07 with posted := [{ va := 0x1000, pa := 0x1021000, size := 8, data := 0x1122334455667788, pc := 0, vec := false }] })] }

theorem witness_HartSteps_lines :
    (∀ s ∈ [moved1, spoilt], invCheck s = true ∧ (s.line 0x20420).st = 1 ∧
      (s.line 0x20420).move = some { dst := 0x20440, newva := 0x2000, part := 0, failed := false } ∧ moverOf s 0x20420 = none ∧
      s.reclaims = [] ∧ s.clusters = []) ∧
    (moved1.line 0x20420).poison = false ∧ (spoilt.line 0x20420).poison = true ∧ 128 * 0x20440 + 128 ≤ Config.localBytes ∧
    (start.line 0x20420).move = none ∧
    (let s (l : List (Nat × Nat)) : State := { waitingFor l with harts := [(0, { vhart 0x07 with holdS := true })] }
     reclaimReady (s [(0, 1)]) { reclaim0 with awaited := [(0, 1)] } = false ∧ reclaimReady (s []) reclaim0 = true ∧
     completes (reclaimFinish reclaim0) (s []) = true ∧ ∀ e ∈ (s []).harts, e.2.posted = []) := by
  simp only [List.forall_mem_cons]
  decide +kernel

/-- A completed write waits at its hart, one to a peer for its acknowledgement, and one of a suspended hart as well. -/
def behind : State := on { hart0 with
  posted := [{ va := 0x1000, pa := 0x1021000, size := 8, data := 0x1122334455667788, pc := 0, vec := false }], remote := [(4, 7)] }

def hiddenRow : Hidden :=
  { sup := false, status := 0, erets := [], resumePc := 0, tvec := 0, vqHeld := false, vsWritten := false, bpSkip := false,
    stoppedAt := false, capNow := 65536, cfgPcs := [], remote := [(4, 7)] }

def hiddenRemote : State := { start with parts := [(0, { start.part 0 with hidden := [(0, hiddenRow)] })] }

theorem witness_HartSteps_writes :
    start.me.posted = [] ∧ invCheck behind = true ∧ behind.me.posted ≠ [] ∧ (∀ p ∈ behind.me.posted, p.mig = none) ∧
    (∀ e ∈ behind.harts, e.1 ≠ 0 → e.2.posted = []) ∧ behind.linesHeld (homeTier (localOf 0x1021000)) < dirPlaces ∧
    0x1021000 % 128 + 8 ≤ 128 ∧ pkgOf 0x1021000 = behind.pkg ∧ localOf 0x1021000 < Config.localBytes ∧
    behind.line (0x1021000 / 128) = { LineMeta.reset with ptag := (behind.line (0x1021000 / 128)).ptag } ∧
    (behind.tier (homeTier (localOf 0x1021000))).power = .awake ∧ behind.reclaims = [] ∧ behind.clusters = [] ∧
    (tabFind behind.me.remote 4).isSome = true ∧ tabFind (State.reset.hart 0).remote 4 = none ∧ State.reset.parts = [] ∧
    invCheck hiddenRemote = true ∧ tabFind hiddenRemote.me.remote 4 = none ∧ hiddenRemote.parts.length = 1 ∧
    (hiddenRemote.part 0).hidden.any (fun e => (tabFind e.2.remote 4).isSome) = true := by
  decide +kernel

theorem witness_HartSteps_entries :
    vectorCheck (padded 0x02) = true ∧ (padded 0x02).me.runs = true ∧ accepted (padded 0x02) (.mnot 3 1) = true ∧
    accepted (padded 0x02) (.vadd 3 1 2 12) = true ∧ accepted (padded 0x02) (.vld 7 3 12) = true ∧
    start.me.vq = [] ∧ start.me.wfe = none ∧ (on { hart0 with wfe := some (0, 0, 0) }).me.runs = true ∧
    (on { hart0 with wfe := some (0, 0, 0) }).cycle < 0 + 65536 ∧
    0 + 65536 ≤ ({ on { hart0 with wfe := some (0, 0, 0) } with cycle := 65536 } : State).cycle := by
  decide +kernel

/-! ### Witnesses: the part's steps -/

/-- Core 0 holds a copy of line 5, tier 0 is awake, and another partition is in ERROR. -/
def copied : State :=
  { start with
    cores := [(0, { Core.reset with l1 := [(5, { va := 5, data := 1 })], icache := [(5, { va := 5, data := 1 })] })]
    parts := [(0, start.part 0), (1, { Part.reset with state := .error })] }

theorem witness_PartSteps_errors :
    tierOfPa copied (128 * 5) = some 0 ∧ (copied.line 5).ptag = 127 ∧ (tabFind (copied.core 0).l1 5).isSome = true ∧
    tabFind (copied.core 1).l1 5 = none ∧ tabFind (copied.core 1).scache 5 = none ∧ tabFind (copied.core 1).icache 5 = none ∧
    (copied.part 0).state = .run ∧ (copied.part 1).state = .error ∧ (copied.part 2).state = .free ∧
    (∀ e ∈ copied.lines, e.2.move = none) ∧ completes (errorAt (.dirtyLine 5)) copied = true ∧ (∀ e ∈ copied.harts, e.2.posted = []) ∧
    (copied.hart 0).lp.pinned = none ∧ (let s := on { hart0 with lp := { hart0.lp with pinned := some 0 } }; s.me.lp.pinned ≠ none) ∧
    (let s : State := { copied with clusters := [(1, [(5, { st := .s, data := 1, mask := 0, cores := 0 })])] }
     tabFind (s.core 4).l1 5 = none ∧ ((tabFind (s.cluster (4 / 4)) 5).map (fun y => y.st)) = some .s) := by
  decide +kernel

/-- The fault queue at 0 is full: a lost hart's record waits. -/
def fullQueue : State := { ganged with mem := memWrite ganged.mem 0x1020000 8 4096 }

theorem witness_PartSteps_lost :
    invCheck fullQueue = true ∧ (fullQueue.hart 0).place = some placed2 ∧ (fullQueue.hart 0).hstop ≠ .lost ∧
    tabFind fullQueue.gangs placed2.gang = some gang2 ∧ gang2.spans = false ∧ (fullQueue.core 0).ceunc < 2 ^ 32 ∧
    (fullQueue.core 0).resmis < 2 ^ 32 ∧ (∀ e ∈ fullQueue.harts, e.2.posted = []) := by
  decide +kernel

theorem witness_PartSteps_lost_completes :
    completes (errorAt (.hartState 0)) fullQueue = true ∧ completes (errorAt (.residue 0)) fullQueue = true := by
  decide +kernel

theorem witness_PartSteps_retirement :
    (∀ g, g / 4 = 0 → (State.reset.hart g).place = none) ∧ (State.reset.core 0).lglive.getLsbD 7 = true ∧
    ∃ g, g / 4 = 0 ∧ (start.hart g).place ≠ none := by
  refine ⟨fun g _ => ?_, by decide +kernel, 0, by decide +kernel⟩
  simp [State.hart, State.reset, Hart.reset]

/-- A block write of hart 0. -/
def blockWrite : BWrite := { hart := 0, what := .block 3 5 (2 ^ 128 + 9) }

/-- Slot 2 of tower 0 is tier 0's, for partition 0, whose queue there holds the write; the write is sent to tier 1 already. -/
def slotted : State :=
  { start with
    towers := [(0, { Tower.reset with
      seq := 1
      table := { SlotTable.reset with slots := SlotTable.reset.slots.set 2 0, bOff := 0x1000, bLen := 0x1000 }
      sent := [(0, blockWrite)] })]
    tiers := [(0, { Tier.reset with applied := 1, tx := [(0, [blockWrite])] })]
    harts := [(0, { hart0 with bstQueued := 1 })] }

theorem witness_PartSteps_broadcast :
    invCheck slotted = true ∧
    (let e := ((slotted.tower 0).table.slots.getD 2 15).toNat
     e % 16 < 12 ∧ (slotted.tier (12 * 0 + e % 16)).power = .awake ∧
     tabGet [] (slotted.tier (12 * 0 + e % 16)).tx (e / 64 % 64) = [blockWrite]) ∧
    12 ≤ ((slotted.tower 0).table.slots.getD 3 15).toNat % 16 ∧
    tabFind (slotted.tower (0 / 12)).sent (((slotted.tier 0).applied + (slotted.tier 0).wlogged) % 2 ^ 48) = none ∧
    tabFind (slotted.tower (1 / 12)).sent (((slotted.tier 1).applied + (slotted.tier 1).wlogged) % 2 ^ 48) = some blockWrite ∧
    (slotted.tier 1).replica = .current ∧ 5 < 2 ^ 64 := by
  decide +kernel

/-- Tier 1 may sleep; tier 2 wakes; tier 3 replays an empty wake log; tier 4 awaits a refill. -/
def tiered : State :=
  { start with
    cycle := 65536
    towers := [(0, { Tower.reset with table := { SlotTable.reset with bOff := 0x1000, bLen := 128, wlogs := List.replicate 12 0x100000 } })]
    tiers := [(1, { Tier.reset with policy := true }), (2, { Tier.reset with power := .waking, replica := .logging }),
      (3, { Tier.reset with power := .replaying, replica := .logging, applied := 7 }),
      (4, { Tier.reset with power := .replaying, replica := .stale })]
    mem := memWrite start.mem (start.physical (5 * Config.tierBytes + 0x1000)) 8 0x1122334455667788 }

theorem witness_PartSteps_tiers :
    invCheck tiered = true ∧ (tiered.tier 1).policy = true ∧ (tiered.tower (1 / 12)).table.wlogs.getD (1 % 12) 0 ≠ 0 ∧
    seqReached (((tiered.tier 3).applied + (tiered.tier 3).wlogged) % 2 ^ 48) (tiered.tier 3).wakeSeq = true ∧
    (let x : Tier := { tiered.tier 3 with wakeSeq := 8 }; seqReached ((x.applied + x.wlogged) % 2 ^ 48) x.wakeSeq = false) ∧
    (tiered.tier 1).power = .awake ∧ (tiered.tier 1).replica = .current ∧
    (∀ e ∈ tiered.harts, tierOf e.1 = 1 → e.2.place = none) ∧ (tiered.tier 1).idleFrom + 65536 ≤ tiered.cycle ∧
    (tiered.tier 0).policy = false ∧ (tiered.tier 2).power = .waking ∧ (tiered.tier 3).power = .replaying ∧
    (tiered.tier 3).replica = .logging ∧ (tiered.tier 3).applied < 2 ^ 48 ∧ (tiered.tier 3).wlogged = 0 ∧
    (tiered.tier 4).power = .replaying ∧ (tiered.tier 4).replica = .stale ∧ refillFrom tiered 4 = some 5 ∧
    tiered.cycle < (tiered.tier 2).idleFrom + 65537 := by
  decide +kernel

theorem start_unwatched : start.Unwatched := by unfold State.Unwatched; decide +kernel

theorem witness_PartSteps_power :
    start.Unwatched ∧ State.reset.security.boot = .off ∧ (Prim.apply start (.powered false)).powered = false ∧
    (let s := { start with security := { start.security with boot := .monitor } }
     s.powered = true ∧ s.security.boot ≠ .off) ∧
    (∀ e ∈ [(5, 2)], e.1 < 384 ∧ e.2 < 8) ∧ ∀ e ∈ [((5 : Nat), (2 : Nat))], e.1 ≠ 6 :=
  ⟨start_unwatched, by decide +kernel⟩

/-! ### Witnesses: links and the fabric -/

/-- The fabric is open; endpoint 900 reaches partition 0; link 0 is UP, link 1 eight times retried, links 2 and 3 in RETRAIN. -/
def opened : State :=
  { start with
    cycle := 1100000
    security := { start.security with boot := .open }
    access := [(900, (1, true))]
    links := [(0, { Link.reset with st := .up }), (1, { Link.reset with st := .up, retries := 8 }), (2, { Link.reset with st := .retrain }),
      (3, { Link.reset with st := .retrain, leftAt := 1 })] }

theorem opened_inv : opened.Inv := inv_of (by decide +kernel)
theorem opened_unwatched : opened.Unwatched := by unfold State.Unwatched; decide +kernel

theorem witness_LinksAndFabric :
    opened.Unwatched ∧ (opened.link 0).st = .up ∧ (opened.link 0).retries ≠ 8 ∧ (opened.link 1).st = .up ∧ (opened.link 1).retries = 8 ∧
    (opened.link 2).st = .retrain ∧ (opened.link 2).leftAt + 1100000 ≤ opened.cycle ∧ (opened.link 3).st = .retrain ∧
    opened.cycle < (opened.link 3).leftAt + 1100000 ∧ start.security.boot ≠ .open ∧ invCheck opened = true ∧
    opened.security.boot = .open ∧ 0x1021000 + 8 ≤ Config.localBytes ∧ 0x1021000 % 128 + 8 ≤ 128 ∧
    opened.inBroadcast 0x1021000 = false ∧ lineOpen opened 901 none 0x20420 = false ∧ lineOpen opened 900 none 0x20420 = true ∧
    opened.physical 0x1021000 / 128 = 0x20420 ∧
    opened.line 0x20420 = { LineMeta.reset with ptag := (opened.line 0x20420).ptag } ∧
    (opened.tier (homeTier (localOf 0x1021000))).power = .awake ∧ opened.reclaims = [] ∧ opened.clusters = [] ∧
    (∀ e ∈ opened.harts, e.2.posted = []) ∧ amoResult 0 64 1 2 0 ≠ none ∧ amoResult 9 64 1 2 0 = none :=
  ⟨opened_unwatched, by decide +kernel⟩

/-! ### Witnesses: the front end -/

/-- The device reads, or writes, n bytes at va at leaf l: each as a computation. -/
def readCheck (s : State) (p va n : Nat) (l : Leaf) : Bool :=
  decide (pagePieces va n = [(va, n)] ∧ devLeaves s p .load [(va, n)] = some [(l, n)] ∧
    leafMarked (s.bytes l.line 128) l.idx false = s.bytes l.line 128 ∧ devPlain s l n = true)

def writeCheck (s : State) (p va n : Nat) (l : Leaf) : Bool :=
  decide (pagePieces va n = [(va, n)] ∧ devLeaves s p .store [(va, n)] = some [(l, n)] ∧
    (leafEntry (s.bytes l.line 128) l.idx).testBit 7 = true ∧ leafMarked (s.bytes l.line 128) l.idx true = s.bytes l.line 128 ∧
    devPlain s l n = true ∧ s.clusters = [] ∧ 0 < n ∧ l.pa % 128 + n ≤ 128)

theorem reads_of {s : State} {p va n : Nat} {l : Leaf} {v : Bits} (h : readCheck s p va n l = true) (hv : s.bytes l.pa n = v) :
    Gives (devRead p va n) s (some v) s := by
  simp only [readCheck, decide_eq_true_eq] at h
  subst hv
  exact devRead_gives h.1 h.2.1 h.2.2.1 h.2.2.2

theorem writes_of {s : State} {p va n : Nat} {l : Leaf} {v : Bits} (h : writeCheck s p va n l = true) :
    Gives (devWrite p va n v) s true (s.wrote l.pa n (v % 2 ^ (8 * n))) := by
  simp only [writeCheck, decide_eq_true_eq] at h
  obtain ⟨a, b, c, d, e, f, g, k⟩ := h
  exact devWrite_gives a b c d e f (homeWrite_gives _ g k)

/-- opened with a journal at 0x2000, whose slots lie in a second page, at 0x200000, and a node table at 0x8000; queue 0 is the
partition's, and holds the given packets. -/
def fronting (pause : Bool) (queued : List Nat) : State :=
  { opened with
    mem := memWrite (memWrite opened.mem 0x1010200 8 0x10300DF) 0x1010248 8 0x101
    parts := [(0, { opened.part 0 with queues := 1, pause := pause, jbase := 0x2000, nodecnt := 1, nodebase := 0x8000 })]
    queues := [(0, { Queue.reset with pkts := queued })] }

/-- The leaf of an address of the second page. -/
def leaf2 (va : Nat) : Leaf :=
  { pa := 0x1030000 + va - 0x200000, line := 0x1010200, idx := 0, entry := 0x10300DF, prog := false, big := false }

theorem witness_FrontEndSteps_window :
    start.security.boot ≠ .open ∧ opened.security.boot = .open ∧ windowPart opened 900 0 = none ∧
    windowPart (fronting true []) 900 0 = some 0 ∧ ((fronting true []).part 0).pause = true ∧
    windowPart (fronting false []) 900 0 = some 0 ∧ ((fronting false []).part 0).pause = false ∧
    packetCheck ((fronting false []).part 0) 0 = some 1 ∧ lineMalformed ((fronting false []).part 0) 0 = true ∧
    packetCheck ((fronting false []).part 0) packet1 = none ∧ ((fronting false []).queue 0).pkts.length < 32 ∧
    32 ≤ ((fronting false (List.range 32)).queue 0).pkts.length := by
  decide +kernel

/-- After the packet slot, the entry and NEXTSEQ of the first command. -/
def journaled1 (s : State) (line : Bits) : State := s.wrote (leaf2 0x202100).pa 128 (line % 2 ^ (8 * 128))
def journaled2 (s : State) (kind : Nat) (line : Bits) : State :=
  (journaled1 s line).wrote (leaf 0x20A0).pa 32
    ((1 + kind * 2 ^ 64 + 1 * 2 ^ 72 + 0 * 2 ^ 80 + journalSlot (s.part 0) 1 * 2 ^ 128 + (s.cycle % 2 ^ 64) * 2 ^ 192) % 2 ^ (8 * 32))
def journaled (s : State) (kind : Nat) (line : Bits) : State :=
  (journaled2 s kind line).wrote (leaf 0x2000).pa 8 ((1 + 1) % 2 ^ (8 * 8))

theorem looks_of {s : State} (h : readCheck s 0 (s.part 0).jbase 8 (leaf 0x2000) = true ∧ s.bytes (leaf 0x2000).pa 8 = 0 ∧
    readCheck s 0 (journalEntry (s.part 0) 1 + 9) 1 (leaf 0x20A9) = true ∧ s.bytes (leaf 0x20A9).pa 1 = 0) :
    Gives (journalLook 0) s (.next 1) s :=
  journalLook_gives (reads_of h.1 h.2.1) (by decide) (by decide) (reads_of h.2.2.1 h.2.2.2) (by decide)

theorem journals_of {s : State} {kind : Nat} {line : Bits} (h1 : writeCheck s 0 (journalSlot (s.part 0) 1) 128 (leaf2 0x202100) = true)
    (h2 : writeCheck (journaled1 s line) 0 (journalEntry (s.part 0) 1) 32 (leaf 0x20A0) = true)
    (h3 : writeCheck (journaled2 s kind line) 0 (s.part 0).jbase 8 (leaf 0x2000) = true) :
    Gives (journalAccept 0 0 kind 1 line) s true (journaled s kind line) :=
  journalAccept_gives (writes_of h1) (writes_of h2) (writes_of h3)

theorem witness_FrontEndSteps_journal :
    Gives (journalLook 0) (fronting false []) (.next 1) (fronting false []) ∧
    Gives (journalAccept 0 0 1 1 packet1) (fronting false []) true (journaled (fronting false []) 1 packet1) ∧
    journaled (fronting false []) 1 packet1 = { fronting false [] with
      mem := (journaled (fronting false []) 1 packet1).mem, lines := (journaled (fronting false []) 1 packet1).lines } :=
  ⟨looks_of (by decide +kernel), journals_of (by decide +kernel) (by decide +kernel) (by decide +kernel), by decide +kernel⟩

/-- After an accepted graph start of root 0. -/
def readied1 (s : State) : State := s.wrote (leaf 0x8001).pa 1 (ndReady % 2 ^ (8 * 1))
def readied (s : State) : State := (readied1 s).wrote (leaf 0x8038).pa 8 ((s.cycle % 2 ^ 64) % 2 ^ (8 * 8))

theorem readied_gives {s : State} {addr : Word} (h1 : writeCheck s 0 (nodeAddr (s.part 0) 0 + 1) 1 (leaf 0x8001) = true)
    (h2 : writeCheck (readied1 s) 0 (nodeAddr (s.part 0) 0 + 56) 8 (leaf 0x8038) = true) :
    ∃ d, Gives (graphStart 0 0 addr 1 1) s true d :=
  ⟨_, graphStart_gives (j := 0) (by decide +kernel) (writes_of h1) (writes_of h2)⟩

theorem witness_FrontEndSteps_graph :
    Gives (graphRefusal 0 1) (fronting false []) (some none) (fronting false []) ∧
    Gives (journalLook 0) (fronting false []) (.next 1) (fronting false []) ∧
    Gives (journalAccept 0 0 2 1 1) (fronting false []) true (journaled (fronting false []) 2 1) ∧
    (journaled (fronting false []) 2 1).parts = (fronting false []).parts ∧
    ∃ d, Gives (graphStart 0 0 (BitVec.ofNat 64 (journalSlot ((fronting false []).part 0) 1)) 1 1)
      (journaled (fronting false []) 2 1) true d :=
  ⟨graphRefusal_gives (j := 0) (st := 0) (by decide +kernel) (by decide +kernel) (by decide +kernel)
      (reads_of (l := leaf 0x8001) (by decide +kernel) (by decide +kernel)) (by decide) (by decide +kernel),
    looks_of (by decide +kernel), journals_of (by decide +kernel) (by decide +kernel) (by decide +kernel), by decide +kernel,
    readied_gives (by decide +kernel) (by decide +kernel)⟩

/-- A launch of one gang of one hart waits in queue 0, behind no other. -/
def queuing : State :=
  { fronting false [0] with
    parts := [(0, { (fronting false [0]).part 0 with quota0 := 768 })]
    launches := [(0, { launch2 with packet := packet1, seq := 0, queued := true, nextg := 0, live := 0 })]
    queues := [(0, { Queue.reset with pkts := [0], ready := some 0 })]
    nextId := 1 }

def aged (s : State) : State := Prim.apply s (.queue 0 ((s.queue 0).aged s.cycle 8))

/-- The gang that a tower chooses there, for hart 1. -/
def cand1 : Cand :=
  { q := 0, id := 0, l := { launch2 with packet := packet1, seq := 0, queued := true, nextg := 0, live := 0 }, g := none, urgent := true
    key := [0, 524288, 8, 0, 0] }

/-- That gang placed. -/
def gangPlaced : State :=
  Prim.apply ((aged queuing).membered 0 1 cand1.l true) (.launch 0 (some { cand1.l with nextg := 1, live := 1 }))
def packetGone : State :=
  Prim.apply (Prim.apply gangPlaced (.launch 0 (some { cand1.l with nextg := 1, live := 1, queued := false }))) (.queue 0 { gangPlaced.queue 0 with
    pkts := (gangPlaced.queue 0).pkts.filter (fun k => k != 0) })

theorem placed_gives : ∃ b, Gives (placeChosen 0 cand1 [1]) (aged queuing) () b :=
  ⟨_, placeChosen_gives (q := 0) (b := packetGone) rfl (startGang_gives (by decide +kernel) rfl (by decide +kernel))
    (leaveQueue_gives (l := { cand1.l with nextg := 1, live := 1 }) (by decide +kernel) (by decide +kernel)) (by decide +kernel)⟩

theorem witness_FrontEndSteps_place :
    queuing.Inv ∧ runningParts queuing = [0] ∧ Gives (agePart 0) queuing () (aged queuing) ∧
    planFor (aged queuing) 0 (candidates (aged queuing) 0 0) = { place := some (cand1, [1]), wakes := [], room := none } ∧
    (∃ b, Gives (placeChosen 0 cand1 [1]) (aged queuing) () b) ∧ cand1.g = none ∧ cand1.l.seq = 0 ∧ [1].Nodup ∧
    (∀ e ∈ queuing.harts, e.2.posted = []) ∧ planFor (aged (fronting false [])) 0 (candidates (aged (fronting false [])) 0 0) = { place := none, wakes := [], room := none } ∧
    runningParts State.reset = [] :=
  ⟨inv_of (by decide +kernel), by decide +kernel, agePart_gives (by decide +kernel), by decide +kernel, placed_gives, by decide +kernel⟩

theorem witness_FrontEndSteps_aging :
    (queuing.queue 0).ready ≠ none ∧ (queuing.queue 0).step < 8 ∧ (queuing.queue 0).ageAt + 65536 ≤ queuing.cycle ∧
    ((fronting false []).queue 0).ready = none := by
  decide +kernel

/-! ### Witnesses: pre-emption, graph nodes and events -/

/-- A gang of hart 0 alone, and a save area at 0x10000000 in a page of 16 MiB, with one image slot. -/
def saving (slots : Nat) : State :=
  { start with
    mem := memWrite (memWrite (memWrite start.mem 0x1004008 8 0x1011003) 0x1011000 8 0x20000DF) 0x1011048 8 0x101
    parts := [(0, { start.part 0 with
      ranges := [(0x1000000, 0x1000000), (0x2000000, 0x1000000)]
      ctxbase := 0x10000000
      ctxcap := slots })]
    gangs := [(0, { gang2 with members := [0], size := 1 })]
    launches := [(1, { launch2 with packet := packet1, live := 1 })]
    harts := [(0, { hart0 with vcfg := 0, vlcap := 64, capNow := 64, lay := 64, place := some placed2 })]
    nextId := 2 }

/-- The leaf of an address of that page. -/
def leafBig (va : Nat) : Leaf :=
  { pa := 0x2000000 + va - 0x10000000, line := 0x1011000, idx := 0, entry := 0x20000DF, prog := false, big := true }

theorem witness_FrontEndSteps_preemption :
    (saving 1).Inv ∧ start.gangOf 1 = none ∧ ((saving 1).part 0).state = .run ∧
    Gives (preemptible 0) (saving 1) (some 0) (saving 1) ∧
    tabFind (saving 1).gangs 0 = some { gang2 with members := [0], size := 1 } ∧
    tabFind (saving 1).launches 1 = some { launch2 with packet := packet1, live := 1 } ∧
    completes (suspendGang 0) (saving 1) = true ∧
    (∀ e ∈ ({ gang2 with members := [0], size := 1 } : Gang).saved, ((saving 1).hart e.2).spilled = false) ∧ ((copied.hart 0).partid.toNat = 0) ∧ (State.reset.part 0).state ≠ .run :=
  ⟨inv_of (by decide +kernel), by decide +kernel, by decide +kernel,
    preemptible_gives (x := { gang2 with members := [0], size := 1 }) (by decide +kernel) (by decide +kernel)
      (reads_of (l := leafBig 0x102E4080) (v := 0) (by decide +kernel) (by decide +kernel)) (by decide +kernel),
    by decide +kernel⟩

/-- A compute node and a copy node, READY, of one graph; the packet is at 0x1000, the copy's descriptor at 0x1100: one element of
code 0x02, 4 bytes, from 0x1200 to 0x1300. -/
def noding : State :=
  { start with
    mem := memWrite (memWrite (memWrite (memWrite start.mem 0x1021000 128 packet1) 0x1021100 48
        (1 + 0x1200 * 2 ^ 64 + 0x1300 * 2 ^ 128 + 2 * 2 ^ 320)) 0x1028000 64 (1 + 1 * 2 ^ 8 + 0x1000 * 2 ^ 64)) 0x1028040 64
      (2 + 1 * 2 ^ 8 + 0x1100 * 2 ^ 64)
    parts := [(0, { start.part 0 with queues := 1, nodecnt := 2, nodebase := 0x8000 })]
    graphs := [(0, { addr := 0, seq := 0, part := 0, queue := 0, gdone := 0, live := 2, fail := false, begun := true, nodes := [0, 1]
                     abandoned := false })] }

/-- After a node's STATE and STAMP are written. -/
def stated (s : State) (a st : Nat) : State :=
  (s.wrote (leaf (a + 1)).pa 1 (st % 2 ^ (8 * 1))).wrote (leaf (a + 56)).pa 8 ((s.cycle % 2 ^ 64) % 2 ^ (8 * 8))

theorem stated_gives {s : State} {j st : Nat} (a : Nat) (h1 : writeCheck s 0 (nodeAddr (s.part 0) j + 1) 1 (leaf (a + 1)) = true)
    (h2 : writeCheck (s.wrote (leaf (a + 1)).pa 1 (st % 2 ^ (8 * 1))) 0
      (nodeAddr ((s.wrote (leaf (a + 1)).pa 1 (st % 2 ^ (8 * 1))).part 0) j + 56) 8 (leaf (a + 56)) = true) :
    Gives (setNode 0 j st) s () (stated s a st) := setNode_gives (writes_of h1) (writes_of h2)

/-- And after it begins to run. -/
def nodeBegun (s : State) (a : Nat) : State := (stated s a ndRunning).wrote (leaf (a + 6)).pa 2 (0 % 2 ^ (8 * 2))

/-- The nodes as read, and the graph. -/
def node0 : Bits := 1 + 1 * 2 ^ 8 + 0x1000 * 2 ^ 64
def node1 : Bits := 2 + 1 * 2 ^ 8 + 0x1100 * 2 ^ 64
def graph2 : Graph :=
  { addr := 0, seq := 0, part := 0, queue := 0, gdone := 0, live := 2, fail := false, begun := true, nodes := [0, 1], abandoned := false }

/-- The arrival counted; the node begun; the packet in its queue. -/
def counted : State := Prim.apply noding (.queue 0 ((noding.queue 0).count 0))
def begun0 : State := nodeBegun counted 0x8000
def launchOf0 : Launch :=
  { packet := packet1, paddr := 0x1000#64, src := 2, seq := 0, part := 0, queue := 0, queued := true, nextg := 0, resume := [], claim := 0
    live := 0, node := some (0, 0) }
def enqueued0 : State :=
  Prim.apply (begun0.joined 0 launchOf0) (.queue 0 (((begun0.joined 0 launchOf0).queue 0).refresh ((begun0.joined 0 launchOf0).part 0)
    (begun0.joined 0 launchOf0).cycle))

theorem node0_starts : Gives (startCompute 0 0 0 node0) noding () enqueued0 :=
  startCompute_gives (pkt := packet1) (a := begun0) (by decide +kernel) (reads_of (l := leaf 0x1000) (by decide +kernel) (by decide +kernel))
    (by decide +kernel) (by decide +kernel) (by decide +kernel)
    (nodeRuns_gives (x := graph2) (stated_gives 0x8000 (by decide +kernel) (by decide +kernel))
      (writeNode_gives (writes_of (by decide +kernel))) (by decide +kernel) rfl)
    (enqueuePacket_gives (by decide +kernel) (by decide +kernel))


/-- The descriptor, and the channel that it gives. -/
def desc1 : Bits := 1 + 0x1200 * 2 ^ 64 + 0x1300 * 2 ^ 128 + 2 * 2 ^ 320
def chan1 : Chan :=
  { Chan.reset with
    desc := Vector.ofFn (fun (k : Fin 5) => BitVec.ofNat 64 (bitsGet desc1 (64 * k.val) 64))
    typ := 2, mode := 0, seed := 0, active := true }

/-- The copy node begun; its element copied; the node DONE. -/
def begun1 : State := nodeBegun noding 0x8040
def copied1 : State := begun1.wrote (leaf 0x1300).pa 4 (chan1.copied (begun1.bytes (leaf 0x1200).pa 4) % 2 ^ (8 * 4))
def done1 : State := Prim.apply (stated copied1 0x8040 ndDone) (.graph 0 (some { graph2 with live := 1, nodes := [0] }))

theorem copied1_gives : Gives (copyElems 0 chan1 1 0) begun1 true copied1 := by
  have e : chan1.srcAddr 0 = 0x1200 ∧ chan1.es = 4 ∧ chan1.dstAddr 0 = 0x1300 ∧ chan1.ed = 4 := by decide +kernel
  refine copyElems_one (x := begun1.bytes (leaf 0x1200).pa 4) ?_ ?_
  · rw [e.1, e.2.1]; exact reads_of (by decide +kernel) rfl
  · rw [e.2.2.1, e.2.2.2]; exact writes_of (by decide +kernel)

theorem node1_starts : Gives (startCopy 0 0 1 node1) noding () done1 :=
  startCopy_gives (d := desc1) (c := chan1) (a := begun1) (b := copied1) (reads_of (l := leaf 0x1100) (by decide +kernel) (by decide +kernel)) (by decide +kernel)
    (nodeRuns_gives (x := graph2) (stated_gives 0x8040 (by decide +kernel) (by decide +kernel))
      (writeNode_gives (writes_of (by decide +kernel))) (by decide +kernel) rfl) (by decide +kernel)
    copied1_gives
    (nodeEnds_gives (x := graph2) (y := graph2) (nd := node1 + 2 ^ 8) (by decide +kernel) (by decide +kernel)
      (readNode_gives (reads_of (l := leaf 0x8040) (by decide +kernel) (by decide +kernel))) (by decide +kernel)
      (stated_gives 0x8040 (by decide +kernel) (by decide +kernel)) (by decide +kernel) (by decide +kernel))

theorem witness_FrontEndSteps_nodes :
    (let p := noding.part 0
     tabFind noding.graphs 0 = some graph2 ∧ 0 ∈ graph2.nodes ∧ 1 ∈ graph2.nodes ∧ 2 ∉ graph2.nodes ∧ graph2.abandoned = false ∧
     p.pause = false ∧ p.state = .run) ∧ tabFind noding.graphs 1 = none ∧
    Gives (readNode 0 0) noding node0 noding ∧ ndState node0 = 1 ∧ ndKind node0 = 1 ∧ Gives (startCompute 0 0 0 node0) noding () enqueued0 ∧
    (∃ y, tabFind enqueued0.graphs 0 = some y ∧ y.live ≠ 0) ∧
    Gives (readNode 0 1) noding node1 noding ∧ ndState node1 = 1 ∧ ndKind node1 = 2 ∧ Gives (startCopy 0 0 1 node1) noding () done1 ∧
    (∃ y, tabFind done1.graphs 0 = some y ∧ y.live ≠ 0) ∧
    Gives (readNode 0 0) graphing 0 graphing ∧ ndState 0 ≠ 1 :=
  ⟨by decide +kernel, by decide +kernel,
    readNode_gives (reads_of (l := leaf 0x8000) (by decide +kernel) (by decide +kernel)), by decide +kernel, by decide +kernel, node0_starts,
    ⟨graph2, by decide +kernel⟩,
    readNode_gives (reads_of (l := leaf 0x8040) (by decide +kernel) (by decide +kernel)), by decide +kernel, by decide +kernel, node1_starts,
    ⟨{ graph2 with live := 1, nodes := [0] }, by decide +kernel⟩,
    readNode_gives (reads_of (l := leaf 0x2000) (by decide +kernel) (by decide +kernel)), by decide +kernel⟩

/-- A record of one entry waits, of hart 0 or of none; the fault queue at 0x3000 holds so many entries. -/
def recording (who : Option Nat) (prod : Nat) : State :=
  { start with
    mem := memWrite start.mem 0x1023000 8 prod
    parts := [(0, { start.part 0 with fqbase := 0x3000, waiting := [(who, 1, 1)] })]
    harts := [(0, { hart0 with hstop := if who = none then .run else .faultWait { cause := 0x21, epc := 0x40, resume := true } })] }

/-- After the record and PROD are written. -/
def recorded1 (s : State) : State :=
  s.wrote (leaf 0x3080).pa 128 (((1 + bitsGet 0 0 64 * 2 ^ 320 + (s.cycle % 2 ^ 64) * 2 ^ 384) % 2 ^ 1024) % 2 ^ (8 * 128))
def recorded (s : State) : State := (recorded1 s).wrote (leaf 0x3000).pa 8 ((bitsGet 0 0 64 + 1) % 2 ^ (8 * 8))

theorem recorded_gives {s : State} (h : (s.part 0).fqbase = 0x3000) (h1 : readCheck s 0 (s.part 0).fqbase 24 (leaf 0x3000) = true)
    (h2 : s.bytes (leaf 0x3000).pa 24 = 0)
    (h3 : writeCheck s 0 ((s.part 0).fqbase + 128 + 128 * ((bitsGet 0 0 64 + 0) % 4096)) 128 (leaf 0x3080) = true)
    (h4 : writeCheck (recorded1 s) 0 (s.part 0).fqbase 8 (leaf 0x3000) = true) :
    Gives (postWaiting.postRetry 0 1 1) s (.at 0x3080) (recorded s) := by
  have g := postRetry_at (v := 1) (reads_of h1 h2) (by decide) (writes_of h3) (writes_of h4)
  rw [h] at g
  exact g

theorem witness_FrontEndSteps_records :
    (∀ s ∈ [recording (some 0) 0, recording none 0], s.Inv ∧ Gives (postWaiting.postRetry 0 1 1) s (.at 0x3080) (recorded s) ∧
      (recorded s).harts = s.harts ∧ (recorded s).parts = s.parts ∧ (s.part 0).hevaddr = 0) ∧
    (recording (some 0) 4096).Inv ∧
    Gives (postWaiting.postRetry 0 1 1) (recording (some 0) 4096) .full (recording (some 0) 4096) ∧
    ((recording (some 0) 0).hart 0).hstop = .faultWait { cause := 0x21, epc := 0x40, resume := true } ∧
    ((recording (some 0) 0).part 0).waiting = [(some 0, 1, 1)] ∧ ((recording none 0).part 0).waiting = [(none, 1, 1)] ∧
    (start.part 0).waiting = [] := by
  refine ⟨?_, inv_of (by decide +kernel), ?_, by decide +kernel⟩
  · simp only [List.forall_mem_cons]
    exact ⟨⟨inv_of (by decide +kernel), recorded_gives (by decide +kernel) (by decide +kernel) (by decide +kernel) (by decide +kernel)
        (by decide +kernel), by decide +kernel⟩,
      ⟨inv_of (by decide +kernel), recorded_gives (by decide +kernel) (by decide +kernel) (by decide +kernel) (by decide +kernel)
        (by decide +kernel), by decide +kernel⟩, by simp⟩
  · exact postRetry_full (hd := 4096) (reads_of (l := leaf 0x3000) (by decide +kernel) (by decide +kernel)) (by decide)

/-- An event waits for hart 0, which hears it, or does not, and waits in a WFE, or does not. -/
def calling (ie : BitVec 3) (waits : Bool) : State :=
  { opened with
    parts := [(0, { start.part 0 with event := 4, target := some 0 })]
    harts := [(0, { hart0 with status := ie, wfe := if waits then some (0, 0, 0) else none })] }

theorem witness_FrontEndSteps_events : ∀ w : Bool,
    (let s := calling 2 w
     invCheck s = true ∧ (s.part 0).target = some 0 ∧ (s.part 0).event ≠ 0 ∧ (s.hart 0).runsIn 0 = true ∧
      (s.hart 0).status.getLsbD 1 = true ∧ (s.hart 0).migWait = none ∧ (s.hart 0).holdS = false ∧ (s.hart 0).arrived = false ∧
      (s.hart 0).lp.trip ≠ .atPc ∧ (s.hart 0).bacq = none ∧ (s.hart 0).flight = none ∧ (s.hart 0).ilkAt = none) := by
  intro w
  cases w <;> decide +kernel

theorem witness_FrontEndSteps_unheard :
    ((calling 0 false).hart 0).status.getLsbD 1 = false ∧ (start.part 0).target = none ∧ ((calling 2 true).part 0).hevaddr = 0 ∧
    ((calling 2 true).hart 1).runsIn 0 = false ∧ (calling 2 true).security.boot = .open ∧ (calling 2 true).mayReach 900 0 = true ∧
    (calling 2 true).mayReach 901 0 = false := by
  decide +kernel

/-! ### Witnesses: calls of a partition's mailbox -/

theorem hears_of {s : State} {m : Mbox} {w : Caller} (h : mayCall s m w = true ∧ (getBox s m).request = 0)
    (q : ∀ p, (s.part p).hevaddr = 0) : s.Hears m w := ⟨h.1, h.2, fun p _ => q p⟩

/-- No listed partition's event word is also written to memory, so none is. -/
theorem quiet_of {s : State} (h : s.parts.all (fun e => e.2.hevaddr == 0) = true) (p : Nat) : (s.part p).hevaddr = 0 := by
  have g (l : Tab Part) (h : l.all (fun e => e.2.hevaddr == 0) = true) : (tabGet Part.reset l p).hevaddr = 0 := by
    induction l with
    | nil => rfl
    | cons e l ih =>
      simp only [List.all_cons, Bool.and_eq_true, beq_iff_eq] at h
      have i := ih h.2
      simp only [tabGet] at i ⊢
      split
      · exact h.1
      · exact i
  exact g _ h

/-- opened, where partition 0 has two queue pairs of port 0 and registers a region of key 0, and partition 1 another of key 1. -/
def registered : State :=
  { opened with
    ports := [(0, { EthPort.reset with owner := [(0, 0), (1, 0), (2, 1)] })]
    mregs := [(0, { part := 0, port := 0, va := 0, len := 64, rd := true, wr := true }),
      (1, { part := 1, port := 0, va := 0, len := 64, rd := true, wr := true })]
    nextId := 2 }

/-- A partition that holds as many regions as it may. -/
def crammed : State :=
  { opened with
    mregs := (List.range 4096).map (fun k => (k, { part := 0, port := 0, va := 0, len := 64, rd := true, wr := true })) }

theorem registered_hears : registered.Hears (.part 0) (.hart 0) ∧ registered.Hears (.part 0) (.fabric 900) ∧
    registered.Hears .mgmt (.fabric 900) :=
  ⟨hears_of (by decide +kernel) (quiet_of (by decide +kernel)), hears_of (by decide +kernel) (quiet_of (by decide +kernel)),
    hears_of (by decide +kernel) (quiet_of (by decide +kernel))⟩

theorem witness_PartitionCalls :
    registered.Inv ∧ registered.Hears (.part 0) (.hart 0) ∧ registered.Hears (.part 0) (.fabric 900) ∧
    counterRow registered 0 0x1000 ≠ none ∧ counterRow registered 0 0x40 = none ∧ (registered.part 0).pause = false ∧
    registered.launches = [] ∧ registered.graphs = [] ∧ (registered.part 0).clusters.testBit (15 / 16) = true ∧
    (registered.part 0).clusters.testBit (16 / 16) = false ∧ (registered.port 0).freePairs.length < 1022 ∧
    1021 ≤ (registered.port 0).freePairs.length ∧ (registered.mregs.filter (fun r => r.2.part == 0)).length < 4096 ∧
    tabFind (registered.port 0).owner 1 = some 0 ∧ tabFind (registered.port 0).owner 1023 ≠ some 0 ∧
    tabFind registered.mregs 0 = some { part := 0, port := 0, va := 0, len := 64, rd := true, wr := true } ∧
    tabFind registered.mregs 1 = some { part := 1, port := 0, va := 0, len := 64, rd := true, wr := true } ∧
    tabFind registered.mregs 2 = none ∧ (registered.part 0).shooting = none ∧ pinsLeft registered 0 (some 0x1000) = false ∧
    pinsLeft registered 0 none = false :=
  ⟨inv_of (by decide +kernel), registered_hears.1, registered_hears.2.1, by decide +kernel⟩

theorem witness_PartitionCalls_full :
    crammed.Inv ∧ crammed.Hears (.part 0) (.hart 0) ∧ 4096 ≤ (crammed.mregs.filter (fun r => r.2.part == 0)).length := by
  refine ⟨inv_of (by decide +kernel), hears_of (by decide +kernel) (quiet_of (by decide +kernel)), ?_⟩
  have e : crammed.mregs.filter (fun r => r.2.part == 0) = crammed.mregs := by
    rw [List.filter_eq_self]
    intro r hr
    simp only [crammed, List.mem_map] at hr
    obtain ⟨k, -, rfl⟩ := hr
    rfl
  rw [e]
  simp [crammed]

theorem witness_PartitionCalls_abandon :
    queuing.Inv ∧ queuing.Hears (.part 0) (.hart 0) ∧
    (let l := cand1.l
     queuing.launches = [(0, l)] ∧ l.part = 0 ∧ l.paddr = 0 ∧ gangsOfLaunch queuing 0 = [] ∧ l.resume = [] ∧ l.node = none) ∧
    (∀ e ∈ queuing.harts, e.2.posted = []) ∧
    completes (abandonLaunch 0 0 cand1.l 3) (queuing.busy (.part 0) (.hart 0) 5 7) = true ∧
    (∀ k ∈ queuing.launches, k.2.part = 0 → k.2.paddr ≠ 128) ∧
    (∀ k ∈ queuing.graphs, k.2.part = 0 → k.2.abandoned = false → k.2.addr ≠ 128) :=
  ⟨inv_of (by decide +kernel), hears_of (by decide +kernel) (quiet_of (by decide +kernel)), by decide +kernel⟩

/-- A paused partition whose save area holds a region that has been taken up. -/
def pausing : State :=
  { saving 1 with
    mem := memWrite (saving 1).mem 0x2000000 8 0x000149585331
    parts := [(0, { (saving 1).part 0 with pause := true })] }

/-- pausing while RESUME runs there. -/
def resuming : State := pausing.busy (.part 0) (.hart 0) 4 7

/-- The leaves of the whole area. -/
def areaLeaves : List (Leaf × Nat) := (devLeaves resuming 0 .load (pagePieces (resuming.part 0).ctxbase 0x2E4280)).getD []

theorem witness_PartitionCalls_resume :
    pausing.Inv ∧ pausing.Hears (.part 0) (.hart 0) ∧ (pausing.part 0).state = .run ∧ (pausing.part 0).pause = true ∧
    (∃ u, Gives (reload 0) (pausing.busy (.part 0) (.hart 0) 4 7) true u ∧ (u.part 0).hevaddr = 0) :=
  ⟨inv_of (by decide +kernel), hears_of (by decide +kernel) (quiet_of (by decide +kernel)), by decide +kernel, by decide +kernel,
    Prim.apply resuming (.part 0 { resuming.part 0 with pause := false, kept := false, quiescer := none, stood := [] }),
    reload_gives (s := resuming) (b := devGet resuming areaLeaves) rfl
      (devRead_pieces (by decide +kernel) (by decide +kernel) (by decide +kernel)) (by decide +kernel)
      (by decide +kernel), by decide +kernel⟩

/-- A call runs in partition 0's mailbox. -/
def callRuns : State := { opened with mailboxes := [(0, { request := 2, response := 0 })] }

theorem witness_PartitionCalls_unheard :
    opened.security.boot = .open ∧ opened.Hears .mgmt (.fabric 900) ∧ mayCall opened (.part 0) (.hart 1) = false ∧
    mayCall opened (.part 0) (.fabric 901) = false ∧ mayCall callRuns (.part 0) (.hart 0) = true ∧ (callRuns.mailbox 0).request ≠ 0 ∧
    (callRuns.mailbox 0).request ≠ 1 + (7#16).toNat * 2 ^ 16 :=
  ⟨by decide +kernel, hears_of (by decide +kernel) (quiet_of (by decide +kernel)), by decide +kernel⟩

/-! ### Witnesses: calls of the management mailbox -/

theorem writes_lines {s : State} {p va n : Nat} {l : Leaf} {v : Bits} (h : pagePieces va n = [(va, n)] ∧ devLeaves s p .store [(va, n)] = some [(l, n)] ∧
    (leafEntry (s.bytes l.line 128) l.idx).testBit 7 = true ∧ leafMarked (s.bytes l.line 128) l.idx true = s.bytes l.line 128 ∧
    devPlain s l n = true ∧ s.clusters = []) :
    Gives (devWrite p va n v) s true (s.wroteLines l.pa n (v % 2 ^ (8 * n))) :=
  devWrite_gives h.1 h.2.1 h.2.2.1 h.2.2.2.1 h.2.2.2.2.1 h.2.2.2.2.2 (homeWrite_lines _ _ _ _)

/-- The fabric open: partition 1 in CONFIG, 2 in CONFIG too on partition 0's queue, 3 LOCKED with a packet in queue 5, 4 in ERROR. -/
def managed : State :=
  { opened with
    parts := [(0, { start.part 0 with queues := 1 }), (1, { Part.reset with state := .config, ranges := [(0x3000000, 128)] }),
      (2, { Part.reset with state := .config, queues := 1 }), (3, { Part.reset with state := .locked, queues := 32 }),
      (4, { Part.reset with state := .error })]
    queues := [(5, { Queue.reset with pkts := [0] })]
    launches := [(0, { launch2 with part := 3, queue := 5, queued := true, live := 0 })] }

/-- A partition entry whose dirty log holds as little as it may. -/
def goodEntry : BitVec 2048 := 12 <<< 448

theorem managed_hears : managed.Hears .mgmt (.fabric 900) := hears_of (by decide +kernel) (quiet_of (by decide +kernel))

/-- A table that gives tier 0 of tower 0 to partition 0, and one that gives it nothing. -/
def slots0 : SlotTable := { slots := 0 :: List.replicate 255 15, bOff := 0, bLen := 0, wlogs := List.replicate 12 0 }

theorem managed_unwatched : managed.Unwatched := by unfold State.Unwatched; decide +kernel

theorem witness_ManagementCalls_states :
    managed.Inv ∧ managed.Hears .mgmt (.fabric 900) ∧ managed.security.boot = .open ∧ entryGood goodEntry.toNat = true ∧
    entryGood (2 ^ 9) = false ∧
    (let state (p : Nat) : PState := (managed.part p).state
     state 0 = .run ∧ state 1 = .config ∧ state 2 = .config ∧ state 3 = .locked ∧ state 4 = .error ∧ state 5 = .free) ∧
    (managed.part 3).locked ≠ (partOf goodEntry.toNat).locked :=
  ⟨inv_of (by decide +kernel), managed_hears, by decide +kernel⟩

theorem witness_ManagementCalls_locks :
    lockable managed 1 (managed.part 1) = true ∧ lockable managed 2 (managed.part 2) = false ∧
    (managed.part 3).queues.testBit 5 = true ∧ (managed.part 3).pause = false ∧ (managed.queue 5).ready = none ∧
    (managed.queue 5).pkts ≠ [] ∧
    ∀ p ∈ [1, 4], gangsOf managed p none = [] ∧ ∀ e ∈ managed.harts, e.2.partid.toNat = p → e.2.place = none := by
  simp only [List.forall_mem_cons]
  decide +kernel

theorem witness_ManagementCalls_domain :
    slotsGood managed 0 slots0 = true ∧ slotsGood managed 0 SlotTable.reset = false ∧ slotsGood managed 2 slots0 = false ∧
    (managed.link 3).st ≠ .down ∧ (managed.link 4).st = .down ∧ (∃ e ∈ managed.parts, e.2.state ≠ .free) ∧
    (∃ t : Fin 12, Nat.testBit 1 t.val = true ∧ (managed.tower 0).coming.wlogs.getD t.val 0 = 0) ∧
    ∀ t : Fin 12, Nat.testBit 0 t.val = true → False := by
  decide +kernel

theorem witness_ManagementCalls_free :
    (let s := { managed with parts := [] }
     s.Inv ∧ s.Hears .mgmt (.fabric 900) ∧ ∀ e ∈ s.parts, e.2.state = .free) :=
  ⟨inv_of (by decide +kernel), hears_of (by decide +kernel) (quiet_of (by decide +kernel)), by decide +kernel⟩

/-- A running partition with a save area, one image slot or none, with the fabric open; with its gang or without. -/
def stopping (slots : Nat) (gang : Bool) : State :=
  let s := saving slots
  { s with
    security := opened.security
    access := opened.access
    gangs := if gang then s.gangs else []
    launches := if gang then s.launches else []
    harts := if gang then s.harts else [] }

/-- That state while STOP runs, and after the region is written. -/
def stopped : State := (stopping 1 false).busy .mgmt (.fabric 900) 19 7
def region1 : State :=
  stopped.wroteLines (leafBig 0x10000080).pa 8192 (packBytes ((List.range 64).map (fun q =>
    (if bitAt (stopped.part 0).queues q then queueRecord [] (stopped.queue q) else fieldBits [(66, 2, noIndex)], 128))) % 2 ^ (8 * 8192))

theorem witness_ManagementCalls_stop :
    (stopping 1 false).Inv ∧ (stopping 1 false).Hears .mgmt (.fabric 900) ∧ (stopping 1 false).security.boot = .open ∧
    ((stopping 1 false).part 0).state = .run ∧
    Gives (roomForAll 0 none) ((stopping 1 false).busy .mgmt (.fabric 900) 19 7) true stopped ∧
    (∃ v, Gives (do suspendAll 0 none; drainBroadcasts 0; discardRest 0; writeRegion 0) stopped () v) ∧
    (stopping 0 true).Inv ∧ (stopping 0 true).Hears .mgmt (.fabric 900) ∧ ((stopping 0 true).part 0).state = .run ∧
    Gives (roomForAll 0 none) ((stopping 0 true).busy .mgmt (.fabric 900) 19 7) false ((stopping 0 true).busy .mgmt (.fabric 900) 19 7) :=
  ⟨inv_of (by decide +kernel), hears_of (by decide +kernel) (quiet_of (by decide +kernel)), by decide +kernel, by decide +kernel,
    roomForAll_gives true (reads_of (s := stopped) (l := leafBig 0x102E4080) (v := 0) (by decide +kernel) (by decide +kernel)) (by decide +kernel),
    ⟨_, stopEmpty_gives (s := stopped) (a := region1) (by decide +kernel) (by decide +kernel) (by decide +kernel) (by decide +kernel) (by decide +kernel)
      (writes_lines (by decide +kernel)) (writes_lines (l := leafBig 0x10000000) (by decide +kernel)) (by decide +kernel)⟩,
    inv_of (by decide +kernel), hears_of (by decide +kernel) (quiet_of (by decide +kernel)), by decide +kernel,
    roomForAll_gives false (reads_of (l := leafBig 0x102E4080) (v := 0) (by decide +kernel) (by decide +kernel)) (by decide +kernel)⟩

/-- managed with a finished session with peer 7, every link UP, and wake logs for tower 0. -/
def peered : State :=
  { managed with
    security := { opened.security with sessions := [(0, { peer := 7, finished := true })] }
    links := (List.range 18).map (fun k => (k, { Link.reset with st := .up }))
    towers := [(0, { Tower.reset with table := { SlotTable.reset with wlogs := List.replicate 12 0x100000 } })] }

theorem peered_up (peer : Nat) : peerUp peered peer = true := by
  have h : ∀ k : Fin 18, ((peered.link k.val).st != .down) = true := by decide +kernel
  exact h _

theorem cut_off (peer : Nat) : peerUp State.reset peer = false := by
  have h : ∀ k : Fin 18, ((State.reset.link k.val).st != .down) = false := by decide +kernel
  exact h _

theorem witness_ManagementCalls_peers :
    peered.Inv ∧ peered.Hears .mgmt (.fabric 900) ∧ peered.security.boot = .open ∧ sessionWith peered 7 = true ∧ peerUp peered 7 = true ∧
    sessionWith peered 8 = false ∧ (peered.part 0).state = .run ∧ (peered.part 1).state = .config ∧
    (peered.part 1).holds 0x3000000 = true ∧ (peered.part 5).state = .free ∧ entryGood goodEntry.toNat = true ∧
    (∀ t, t < 12 → Nat.testBit 1 t = true → (peered.tower 0).coming.wlogs.getD t 0 ≠ 0) ∧
    (let s := { peered with links := [] }
     s.Inv ∧ s.Hears .mgmt (.fabric 900) ∧ sessionWith s 7 = true ∧ peerUp s 7 = false) :=
  ⟨inv_of (by decide +kernel), hears_of (by decide +kernel) (quiet_of (by decide +kernel)), by decide +kernel, by decide +kernel,
    peered_up 7, by decide +kernel, by decide +kernel, by decide +kernel, by decide +kernel, by decide +kernel, by decide +kernel,
    by decide +kernel, inv_of (by decide +kernel), hears_of (by decide +kernel) (quiet_of (by decide +kernel)), by decide +kernel, cut_off 7⟩

theorem witness_ManagementCalls_boot :
    managed.Hears (.part 0) (.hart 0) ∧ (∀ b ∈ [Boot.refused, .monitor, .off],
      (let s := { start with security := { start.security with boot := b } }
       s.mgmtBox.request = 0 ∧ s.security.boot = b)) :=
  ⟨hears_of (by decide +kernel) (quiet_of (by decide +kernel)), by decide +kernel⟩

/-! ### Witnesses: Ethernet and SPDM -/

/-- An RDMA READ, or a receive, of 8 bytes to lva on queue pair qp, its completion at 0x2000. -/
def workLine (lva qp : Nat) : Bits := lva + 8 * 2 ^ 64 + qp * 2 ^ 96 + 2 * 2 ^ 112 + 0x2000 * 2 ^ 256

/-- opened, where partition 0 has the connected queue pair 5 of port 0, with a work line and a receive line of it outstanding, and a
registration of the first 128 bytes of the page at 0. -/
def ported (lva qp : Nat) : State :=
  { opened with
    ports := [(0, { EthPort.reset with
      owner := [(5, 0)]
      conns := [(5, { peerAddr := 0, v6 := false, peerMac := 0, peerQp := 0, sendPsn := 0, recvPsn := 0, mtu := 4096, tclass := 0 })]
      work := [(0, workLine lva qp)]
      recv := [(5, 0, workLine lva qp)] })]
    mregs := [(0, { part := 0, port := 0, va := 0x1000, len := 128, rd := true, wr := true })]
    nextId := 1 }

theorem witness_EthernetAndSpdm_device :
    (ported 0x1000 5).Inv ∧ (ported 0x1000 5).DeviceOpens 0 .store 0x1000 8 (leaf 0x1000) ∧
    (ported 0x1000 5).DeviceOpens 0 .load 0x1000 8 (leaf 0x1000) ∧
    devLeaves (ported 0x1000 5) 0 .store (pagePieces 0x10000 8) = none ∧ devLeaves (ported 0x1000 5) 0 .load (pagePieces 0x10000 8) = none :=
  ⟨inv_of (by decide +kernel), ⟨by decide +kernel, by decide +kernel, by decide +kernel, by decide +kernel⟩,
    ⟨by decide +kernel, by decide +kernel, by decide +kernel, by decide +kernel⟩, by decide +kernel⟩

/-- A port where the partition has as many lines outstanding as it may. -/
def clogged : State :=
  { opened with ports := [(0, { EthPort.reset with owner := [(5, 0)], work := List.replicate 256 (0, 0) })] }

theorem witness_EthernetAndSpdm_posting :
    (let s := ported 0x1000 5
     s.security.boot = .open ∧ s.mayReach 901 0 = false ∧ s.mayReach 900 0 = true ∧ (s.port 0).heldBy 0 = true ∧ (s.port 0).outstanding 0 < 256 ∧
     lineBad (workLine 0 5) = false ∧ tabFind (s.port 0).owner (lineQp (workLine 0 5)) = some 0 ∧ lineBad 0 = true ∧
     tabFind (s.port 0).owner (lineQp (workLine 0 6)) ≠ some 0 ∧
     completes (completionError 0 (lineCaddr (workLine 0 6))) s = true ∧ (s.hart 0).runsIn 0 = true ∧ (s.hart 1).runsIn 0 = false) ∧
    (opened.port 0).heldBy 0 = false ∧ (clogged.port 0).heldBy 0 = true ∧ 256 ≤ (clogged.port 0).outstanding 0 ∧ opened.mayReach 900 0 = true ∧
    invCheck clogged = true := by
  decide +kernel

theorem wrote_ports (s : State) (pa n : Nat) (v : Bits) : (s.wrote pa n v).ports = s.ports := rfl

/-- The line taken, and the counts moved. -/
def taken (lva qp : Nat) : State := (Prim.apply (ported lva qp) (.port 0 { (ported lva qp).port 0 with work := [] })).framed 0

theorem witness_EthernetAndSpdm_completion :
    (∀ qp ∈ [5, 6], (ported 0x1000 qp).Inv ∧ takeWork 0 ((ported 0x1000 qp).port 0).work = some (workLine 0x1000 qp, [])) ∧
    takeWork 1 ((ported 0x1000 5).port 0).work = none ∧
    Gives (countFrames 0) (Prim.apply (ported 0x1000 6) (.port 0 { (ported 0x1000 6).port 0 with work := [] })) () (taken 0x1000 6) ∧
    workGood ((ported 0x1000 6).port 0) 0 (workLine 0x1000 6) = false ∧
    (taken 0x1000 6).DeviceOpens 0 .store (lineCaddr (workLine 0x1000 6)) 16 (leaf 0x2000) ∧
    Gives (countFrames 0) (Prim.apply (ported 0x1000 5) (.port 0 { (ported 0x1000 5).port 0 with work := [] })) () (taken 0x1000 5) ∧
    workGood ((ported 0x1000 5).port 0) 0 (workLine 0x1000 5) = true ∧
    ∃ u, Gives (moveWork 0 (workLine 0x1000 5) [1]) (taken 0x1000 5) true u ∧ u.cycle = (ported 0x1000 5).cycle ∧
      u.ports = (taken 0x1000 5).ports ∧ u.DeviceOpens 0 .store (lineCaddr (workLine 0x1000 5)) 16 (leaf 0x2000) := by
  refine ⟨?_, by decide +kernel, countFrames_gives _ _, by decide +kernel,
    ⟨by decide +kernel, by decide +kernel, by decide +kernel, by decide +kernel⟩, countFrames_gives _ _,
    by decide +kernel, (taken 0x1000 5).wrote (leaf 0x1000).pa 8 (numOf ([1].take 8) % 2 ^ (8 * 8)), ?_, by decide +kernel, wrote_ports _ _ _ _,
    ⟨by decide +kernel, by decide +kernel, by decide +kernel, by decide +kernel⟩⟩
  · simp only [List.forall_mem_cons]
    exact ⟨⟨inv_of (by decide +kernel), by decide +kernel⟩, ⟨inv_of (by decide +kernel), by decide +kernel⟩, by simp⟩
  · exact moveWork_gives (by decide +kernel) (writes_of (by decide +kernel))

/-- A message's frames counted; the receive line taken. -/
def received (lva : Nat) : State :=
  let a := (ported lva 5).framed 0
  Prim.apply a (.port 0 { a.port 0 with recv := [] })

/-- Its bytes written; a completion due for them that gives ERROR. -/
def filled : State := (received 0x1000).wrote (leaf 0x1000).pa 2 (numOf [3, 4] % 2 ^ (8 * 2))
def refused : State := Prim.apply (received 0x10000) (.reply (.nak 2))

theorem unopened_gives {s : State} {p va n : Nat} {v : Bits} (h : devLeaves s p .store (pagePieces va n) = none) :
    Gives (devWrite p va n v) s false s := by
  refine Gives.bind (Gives.gets _ _) ?_
  rw [h]
  exact Gives.pure _ _

theorem witness_EthernetAndSpdm_inbound :
    (ported 0x1000 5).Inv ∧ connected ((ported 0x1000 5).port 0) 6 = none ∧ connected ((ported 0x1000 5).port 0) 5 = some 0 ∧
    takeRecv 5 ((ported 0x1000 5).port 0).recv = some (workLine 0x1000 5, []) ∧ [3#8, 4#8].length ≤ lineLen (workLine 0x1000 5) ∧
    Gives (countFrames 0) (ported 0x1000 5) () ((ported 0x1000 5).framed 0) ∧
    Gives (devWrite 0 (lineLva (workLine 0x1000 5)) [3#8, 4#8].length (numOf [3, 4])) (received 0x1000) true filled ∧
    (∃ v, Gives (completion 0 (lineCaddr (workLine 0x1000 5)) 1 [3#8, 4#8].length) filled () v) ∧
    takeRecv 5 ((ported 0x10000 5).port 0).recv = some (workLine 0x10000 5, []) ∧
    Gives (devWrite 0 (lineLva (workLine 0x10000 5)) [3#8, 4#8].length (numOf [3, 4])) (received 0x10000) false (received 0x10000) ∧
    (∃ v, Gives (completionError 0 (lineCaddr (workLine 0x10000 5))) refused () v) ∧
    regionFor (ported 0x1000 5) 0 0 0 0x107F 2 true = false ∧ regionFor (ported 0x1000 5) 0 0 0 0x107F 2 false = false ∧
    regionFor (ported 0x1000 5) 0 0 0 0x107E 2 true = true ∧ regionFor (ported 0x1000 5) 0 0 0 0x1000 128 false = true ∧
    (∃ u, Gives (devWrite 0 0x107E 2 (numOf [3, 4])) ((ported 0x1000 5).framed 0) true u) ∧
    (∃ u v, Gives (devRead 0 0x1000 128) ((ported 0x1000 5).framed 0) (some v) u) ∧
    (let s := { ported 0x1000 5 with ports := [(0, { (ported 0x1000 5).port 0 with recv := [] })] }
     invCheck s = true ∧ connected (s.port 0) 5 = some 0 ∧ takeRecv 5 (s.port 0).recv = none) :=
  ⟨inv_of (by decide +kernel), by decide +kernel, by decide +kernel, by decide +kernel, by decide +kernel, countFrames_gives _ _,
    writes_of (l := leaf 0x1000) (by decide +kernel), ⟨_, completion_gives (writes_of (l := leaf 0x2000) (by decide +kernel))⟩,
    by decide +kernel, unopened_gives (by decide +kernel),
    ⟨_, completionError_gives (completion_gives (writes_of (l := leaf 0x2000) (by decide +kernel)))⟩,
    by decide +kernel, by decide +kernel, by decide +kernel, by decide +kernel, ⟨_, writes_of (l := leaf 0x107E) (by decide +kernel)⟩,
    ⟨_, _, reads_of (l := leaf 0x1000) (by decide +kernel) rfl⟩, by decide +kernel⟩

/-- Peer 1 has asked for everything and peer 2 for the version; the sessions of some numbers stand, the last of them unfinished. -/
def spoken (leaf n : Nat) : State :=
  { opened with
    security := { opened.security with
      leaf := leaf
      versioned := [1, 2]
      capable := [1]
      negotiated := [1]
      sessions := (List.range n).map (fun k => (k, { peer := 1, finished := k != n - 1 })) } }

theorem witness_EthernetAndSpdm_spdm :
    start.security.boot ≠ .open ∧
    (let x := (spoken (2 ^ 40 - 1) 3).security
     x.boot = .open ∧ x.versioned.contains 3 = false ∧ x.versioned.contains 2 = true ∧ x.capable.contains 2 = false ∧
     x.capable.contains 1 = true ∧ x.negotiated.contains 2 = false ∧ x.negotiated.contains 1 = true ∧ x.leaf < 2 ^ 40 ∧
     x.sessions.length < 4 ∧ tabFind x.sessions 2 = some { peer := 1, finished := false } ∧
     tabFind x.sessions 1 = some { peer := 1, finished := true } ∧ tabFind x.sessions 3 = none) ∧
    2 ^ 40 ≤ (spoken (2 ^ 40) 4).security.leaf ∧ 4 ≤ (spoken (2 ^ 40) 4).security.sessions.length ∧
    2 ^ 40 ≤ (spoken (2 ^ 40) 3).security.leaf ∧ (spoken (2 ^ 40) 3).security.sessions.length < 4 ∧
    (let all := [SpdmAlg.ecdheP384, .aes256Gcm, .sha384, .hssVendor]
     .ecdheP384 ∈ all ∧ .aes256Gcm ∈ all ∧ .sha384 ∈ all ∧ .hssVendor ∈ all ∧ SpdmAlg.hssVendor ∉ all.take 3) ∧
    measurement (spoken 0 0) 0 = none ∧ measurement (spoken 0 0) 5 = none ∧ measurement (spoken 0 0) 3 = some [] := by
  decide +kernel

end Sys2Proof.Tests
end

section
/-!
Proofs/Reductions.lean: the reductions and mask counts write their scalar (R56 to R58, R258, R259, R262, R263). First what every
instruction with an x result shares, then the integer reductions and mask counts, then the floating-point sums.
-/
set_option Elab.async false

namespace Sys2Proof.Machine

/-! ### Updates apart from completing -/

/-- An update of a hart's record that writes nothing of what completing a queue's only entry, or canonical form, reads or writes. -/
structure Apart (U : Hart → Hart) : Prop where
  pop   : ∀ h e k, h.vq = [e] → (U h).popEntry k = U (h.popEntry k)
  canon : ∀ h, (U h).canon = U h.canon

theorem apart_id : Apart id := ⟨fun _ _ _ _ => rfl, fun _ => rfl⟩

theorem apart_orFlags (f : Nat) : Apart (fun h => h.orFlags f) where
  pop h e k hq := by
    have hq' : (h.orFlags f).vq = [e] := hq
    unfold Hart.popEntry
    rw [hq, hq']
    rfl
  canon _ := rfl

theorem takeVl_nil (n : BitVec 23) : takeVl n [] = [] := rfl

theorem apart_vl (n : BitVec 23) : Apart (fun h => { h with vl := n }) where
  pop h e k hq := by
    unfold Hart.popEntry
    simp only [hq, takeVl_nil]
  canon _ := rfl

theorem Hart.orFlags_zero (h : Hart) : h.orFlags 0 = h := by simp [Hart.orFlags]

theorem tripEnd_orFlags (h : Hart) (f : Nat) : (h.orFlags f).tripEnd = h.tripEnd.orFlags f := by
  unfold Hart.tripEnd Hart.setX Hart.getX Hart.orFlags
  split_ifs <;> rfl

theorem decideTrip_orFlags (h : Hart) (f : Nat) : (h.orFlags f).decideTrip = h.decideTrip.orFlags f := by
  have ht := tripEnd_orFlags { h with lp := { h.lp with trip := .no } } f
  have hl : (h.orFlags f).lp = h.lp := rfl
  unfold Hart.decideTrip
  rw [hl]
  cases h.lp.trip with
  | no => rfl
  | atPc =>
    dsimp only
    split
    · exact ht
    · rfl
  | atResume =>
    dsimp only
    split
    · exact congrArg (fun t : Hart => { t with pc := h.pc, resumePc := t.pc }) ht
    · rfl

/-- The x result of a queue's only entry does not touch the flags. -/
theorem fillRq_orFlags {Y : Hart} {e : VEntry} {d : BitVec 5} (v : Word) (f : Nat) (y1 : Y.vq = [e])
    (y2 : Y.rq = [{ reg := d, qpos := 0, value := none }]) (y3 : e.rq = some 0) :
    (Y.orFlags f).fillRq v = (Y.fillRq v).orFlags f := by
  have hs : ({ (Y.orFlags f).setX d v with rq := [] } : Hart) = ({ Y.setX d v with rq := [] } : Hart).orFlags f := by
    unfold Hart.setX
    split <;> rfl
  rw [fillRq_waiting v y1 y2 y3, fillRq_waiting (Y := Y.orFlags f) v y1 y2 y3, hs, decideTrip_orFlags]
  exact (apply_ite (fun t : Hart => t.orFlags f) _ _ _).symm

/-! ### Sending an instruction with an x result -/

/-- The record in the queue's state holds one entry, whose x result leaves it there. -/
theorem sent_fillRq_vq {s : State} {i : Instr} {op : VOp} {d : BitVec 5} (hl : s.Lone) (hx : op.xd = some d) (v : Word) :
    (((s.sent i op).hart s.cur).fillRq v).vq = [headOf s.me i op] := by
  obtain ⟨hvq, hrq, _, _⟩ := hl.idle
  obtain ⟨F, e, _⟩ := fillRq_fields (i := i) v ⟨hvq, hrq⟩ hl.decided hx
  rw [sent_hart, e]
  simp [Hart.moved, Hart.queued, hvq, hrq, headOf]

/-- Flags added before the x result arrives are those added after it. -/
theorem sent_fillRq_orFlags {s : State} {i : Instr} {op : VOp} {d : BitVec 5} (hl : s.Lone) (hx : op.xd = some d) (v : Word) (f : Nat) :
    (((s.sent i op).hart s.cur).orFlags f).fillRq v = (((s.sent i op).hart s.cur).fillRq v).orFlags f := by
  obtain ⟨hvq, hrq, _, _⟩ := hl.idle
  rw [sent_hart]
  refine fillRq_orFlags (e := headOf s.me i op) (d := d) v f (enqueue_vq hvq hrq) ((enqueue_rq hvq hrq).trans ?_) ?_
  · rw [hx]
    rfl
  · simp [headOf, hx]

/-- What completing leaves of the state in which an instruction was sent, once its x result v has arrived and U has changed the
record. -/
def State.answered (s : State) (i : Instr) (op : VOp) (v : Word) (U : Hart → Hart) : State :=
  Prim.apply (s.sent i op) (.hart s.cur ((U (((s.sent i op).hart s.cur).fillRq v)).popEntry s.me.groups))

/-- An instruction whose performance gives an x result, and another update of the record apart from that, writes x[d] before the hart
goes on, and has that effect. -/
theorem send_x_run {s : State} {i : Instr} {op : VOp} {d : BitVec 5} {len : Nat} {v : Word} {U : Hart → Hart} (hU : Apart U)
    (hl : s.Lone) (hz : sized i = false) (hv : vop i s.me.vtype s.me = some op) (hi : sendIllegal s.me op = false)
    (hx : op.xd = some d) (hlen : lengthOf i = len)
    (hp : Gives (perform (ctxOf s i op) i) (s.sent i op) true (s.answered i op v U)) :
    runM (send i) s = .next (s.setMe (U ((s.me.setX d v).past len op.rounds))) := by
  have hz' : sized i = true → s.sg s.cur = s.me.lay := fun h => by rw [hz] at h; cases h
  rw [(send_gives hl hz' hv hi hp).run]
  congr 1
  change (s.setMe (s.me.enqueue i op)).setMe _ = _
  rw [setMe_setMe, hU.pop _ _ _ (sent_fillRq_vq hl hx v)]
  have key := popEntry_past_x (i := i) v ⟨hl.idle.1, hl.idle.2.1, hl.idle.2.2.1⟩ hl.decided hx hlen
  rw [← sent_hart] at key
  simp [State.setMe, Prim.apply, hU.canon, key]

/-- One that has no other effect. -/
theorem send_x_only_run {s : State} {i : Instr} {op : VOp} {d : BitVec 5} {len : Nat} {rounds : Bool} {v : Word} (hl : s.Lone)
    (hz : sized i = false) (hv : vop i s.me.vtype s.me = some op) (hi : sendIllegal s.me op = false) (hx : op.xd = some d)
    (hlen : lengthOf i = len) (hr : op.rounds = rounds)
    (hp : Gives (perform (ctxOf s i op) i) (s.sent i op) true (s.answered i op v id)) :
    runM (send i) s = .next (s.setMe ((s.me.setX d v).past len rounds)) :=
  hr ▸ send_x_run apart_id hl hz hv hi hx hlen hp

/-! ### What the context of an entry reads -/

/-- A field of RMODE, captured in as many bits as it has. -/
theorem captured_field (v k w : Nat) : (BitVec.ofNat w (bitsGet v k w)).toNat = bitsGet v k w := by
  rw [BitVec.toNat_ofNat, Nat.mod_eq_of_lt (bitsGet_lt v k w)]

/-- x[b] as a code of VTYPE's format. -/
def Hart.startOf (h : Hart) (b : BitVec 5) : Nat := (h.getX b).toNat % 2 ^ codeWidth (vtCode h.vtype)

section Context

variable (s : State) (i : Instr) (op : VOp)

theorem ctxOf_g : (ctxOf s i op).g = s.cur := rfl

theorem ctxOf_start : (ctxOf s i op).start = s.me.first := by
  unfold VCtx.start ctxOf headOf Hart.first
  dsimp only
  split <;> rfl

theorem ctxOf_vl : (ctxOf s i op).vl = s.me.vl.toNat := rfl

theorem ctxOf_rnd (e n : Nat) : (ctxOf s i op).rnd e n = s.me.rndAt e n := by
  have h : (ctxOf s i op).mode = { mode := bitsGet s.me.rmode.toNat 0 3, seed := bitsGet s.me.rmode.toNat 32 32 } :=
    congrArg₂ Mode.mk (captured_field _ _ _) (captured_field _ _ _)
  rw [VCtx.rnd, h, Hart.rndAt]

theorem ctxOf_down : (ctxOf s i op).down = (bitsGet s.me.rmode.toNat 0 3 == 4) :=
  congrArg (fun n => n == 4) (captured_field _ _ _)

theorem ctxOf_scalarB {op : VOp} {b : BitVec 5} (hb : op.opb = some b) :
    (ctxOf s i op).scalarB = s.me.startOf b := by
  change ((op.opb.map s.me.getX).getD 0).toNat % _ = _
  rw [hb]
  rfl

/-- A source element, read from the record as it was sent, is the sender's. -/
theorem ctxOf_src (r : BitVec 5) (e : Nat) : (ctxOf s i op).src ((s.sent i op).hart s.cur) r e = s.me.elem r e := by
  obtain ⟨hv, _, _, _, _, hlay, _⟩ := sent_fields s i op
  change ((s.sent i op).hart s.cur).vget (vtCode s.me.vtype) r.toNat e = _
  simp only [Hart.elem, Hart.vget, Hart.vreg, hv, hlay]

theorem sent_mreg (r : Nat) : ((s.sent i op).hart s.cur).mreg r = s.me.mreg r := by
  simp only [Hart.mreg, (sent_fields s i op).2.1]

/-- Where any element performs, those that a mask field selects below VL are those that take part. -/
theorem ctxOf_on {e : Nat} (m : BitVec 4) (hs : s.me.first < s.me.vl.toNat) (he : e < s.me.vl.toNat) :
    (ctxOf s i op).on ((s.sent i op).hart s.cur) m e = s.me.takesPart m e := by
  rw [on_eq s i op _ m he, sent_mreg]
  simp [Hart.takesPart, hs, he]

theorem filter_ctxOf_on (m : BitVec 4) (hs : s.me.first < s.me.vl.toNat) :
    (ctxOf s i op).all.filter (fun e => (ctxOf s i op).on ((s.sent i op).hart s.cur) m e) =
      (List.range s.me.vl.toNat).filter (s.me.takesPart m) :=
  List.filter_congr fun _ he => ctxOf_on s i op m hs (List.mem_range.1 he)

end Context

/-- From VL on no element takes part. -/
theorem takesPart_none {h : Hart} (hs : ¬ h.first < h.vl.toNat) (m : BitVec 4) (e : Nat) : h.takesPart m e = false := by
  simp [Hart.takesPart, hs]

theorem takesPart_ge {h : Hart} (m : BitVec 4) {e : Nat} (he : h.vl.toNat ≤ e) : h.takesPart m e = false := by
  simp [Hart.takesPart, Nat.not_lt.2 he]

theorem filter_takesPart_nil {h : Hart} (hs : ¬ h.first < h.vl.toNat) (m : BitVec 4) (l : List Nat) :
    l.filter (h.takesPart m) = [] :=
  List.filter_eq_nil_iff.2 fun e _ => by simp [takesPart_none hs m e]

/-! ### Whole-instruction x results -/

theorem legal_ill {h : Hart} {op : VOp} (hill : h.vtype.getLsbD 15 = false) (hok : op.ok = true)
    (hg : (op.srcs ++ op.dsts ++ op.names).all (fun o => o.legal h.named) = true) : sendIllegal h op = false := by
  rw [sendIllegal, vtIll_eq, hill, hok, hg]
  simp

/-- A reduction that VTYPE's format allows, of a register that may stand for a group, is legal. -/
theorem fold_legal {h : Hart} {a b d : BitVec 5} {ok : Bool} (hill : h.vtype.getLsbD 15 = false) (hok : ok = true)
    (hg : h.grouped [a]) (w : Nat) : sendIllegal h (VOp.fold ok ⟨a.toNat, vtGroup h.vtype, w⟩ b d) = false :=
  legal_ill hill hok (by simp [VOp.fold, VOp.base, legal_of (hg a (List.mem_singleton.2 rfl)) w])

/-- A whole-instruction x result: the function's value where any element performs, else the one for none. -/
theorem wholeScalar_gives {s : State} {i : Instr} {op : VOp} {none' v : Word} {f : Hart → Word}
    (hs : s.me.first < s.me.vl.toNat → f ((s.sent i op).hart s.cur) = v) (hn : ¬ s.me.first < s.me.vl.toNat → none' = v) :
    Gives ((ctxOf s i op).wholeScalar none' f) (s.sent i op) true (s.answered i op v id) := by
  refine (Gives.getHart _ _).bind ?_
  rw [ctxOf_start, ctxOf_vl]
  have hv : (if s.me.first < s.me.vl.toNat then f ((s.sent i op).hart s.cur) else none') = v := by
    split
    · exact hs ‹_›
    · exact hn ‹_›
  exact hv ▸ finish_gives s _ i op _

/-! ### Integer reductions (R56, R258) -/

/-- The reduction of the elements that take part, in order, from the start value. -/
def Hart.reduced (h : Hart) (a b : BitVec 5) (m : BitVec 4) (f : Nat → Nat → Nat) : Nat :=
  ((List.range h.vl.toNat).filter (h.takesPart m)).foldl (fun acc e => f acc (h.elem a e)) (h.startOf b)

theorem reduced_none {h : Hart} (hs : ¬ h.first < h.vl.toNat) (a b : BitVec 5) (m : BitVec 4) (f : Nat → Nat → Nat) :
    h.reduced a b m f = h.startOf b := by
  rw [Hart.reduced, filter_takesPart_nil hs, List.foldl_nil]

/-- An integer reduction gives its result, extended (R56). -/
theorem vred_gives {s : State} {i : Instr} {op : VOp} {b : BitVec 5} (hb : op.opb = some b) (a : BitVec 5) (m : BitVec 4)
    (f : VCtx.IntOp) :
    let t := vtCode s.me.vtype
    Gives ((ctxOf s i op).vred a m f) (s.sent i op) true (s.answered i op (BitVec.ofInt 64 (intOf (codeSigned t) (codeWidth t)
      (s.me.reduced a b m (fun x y => f (codeSigned t) (codeWidth t) x y 0)))) id) := by
  refine wholeScalar_gives (fun hs => ?_) (fun hs => ?_)
  · rw [filter_ctxOf_on s i op m hs, List.foldl_map, ctxOf_scalarB s i hb]
    simp only [ctxOf_src]
    rfl
  · rw [reduced_none hs, ctxOf_scalarB s i hb]
    rfl

/-- An integer reduction writes its result to x[d], and nothing else. -/
theorem vred_run {s : State} {i : Instr} {d a b : BitVec 5} {m : BitVec 4} (f : VCtx.IntOp)
    (hl : s.Lone) (hill : s.me.vtype.getLsbD 15 = false) (hc : codeClass (vtCode s.me.vtype) ≤ 7) (hg : s.me.grouped [a])
    (hz : sized i = false) (hlen : lengthOf i = 4)
    (hv : vop i s.me.vtype s.me = some (VOp.fold (packedInt (vtCode s.me.vtype))
      ⟨a.toNat, vtGroup s.me.vtype, codeWidth (vtCode s.me.vtype)⟩ b d))
    (hp : ∀ op, perform (ctxOf s i op) i = (ctxOf s i op).vred a m f) :
    runM (send i) s = .next (s.setMe ((s.me.setX d (BitVec.ofInt 64 (intOf (codeSigned (vtCode s.me.vtype))
      (codeWidth (vtCode s.me.vtype)) (s.me.reduced a b m
        (fun x y => f (codeSigned (vtCode s.me.vtype)) (codeWidth (vtCode s.me.vtype)) x y 0))))).past 4 false)) := by
  refine send_x_only_run hl hz hv (fold_legal hill (decide_eq_true hc) hg _) rfl hlen rfl ?_
  rw [hp]
  exact vred_gives rfl a m f

/-! ### Mask counts (R262, R263) -/

/-- The elements whose bit of a mask counts: below VL, where any element performs. -/
def Hart.counted (h : Hart) (a : BitVec 5) (e : Nat) : Bool := h.takesPart 12 e && (h.mreg a.toNat).testBit e

theorem counted_none {h : Hart} (hs : ¬ h.first < h.vl.toNat) (a : BitVec 5) (e : Nat) : h.counted a e = false := by
  rw [Hart.counted, takesPart_none hs, Bool.false_and]

theorem counted_lt {h : Hart} {a : BitVec 5} {e : Nat} (he : h.counted a e = true) : h.first < h.vl.toNat ∧ e < h.vl.toNat := by
  simp only [Hart.counted, Hart.takesPart, Bool.and_eq_true, decide_eq_true_eq] at he
  exact he.1.1

theorem setBelow_eq {s : State} (i : Instr) (op : VOp) (a : BitVec 5) (hs : s.me.first < s.me.vl.toNat) :
    (ctxOf s i op).setBelow ((s.sent i op).hart s.cur) a = (List.range s.me.vl.toNat).filter (s.me.counted a) := by
  refine List.filter_congr fun e he => ?_
  have hlt : e < s.me.vl.toNat := List.mem_range.1 he
  rw [sent_mreg]
  simp [Hart.counted, Hart.takesPart, hs, hlt]

/-- The first of the numbers below n that satisfy p. -/
theorem filter_range_first {p : Nat → Bool} {n e : Nat} (hn : e < n) (he : p e = true) (hb : ∀ k, k < e → p k = false) :
    ∃ l, (List.range n).filter p = e :: l := by
  have hf : (List.range n).find? p = some e :=
    List.find?_range_eq_some.2 ⟨he, List.mem_range.2 hn, fun k hk => by simp [hb k hk]⟩
  rw [← List.head?_filter] at hf
  exact ⟨_, (List.cons_head?_tail hf).symm⟩

/-- The last of the numbers below n that satisfy p. -/
theorem filter_range_last {p : Nat → Bool} {n e : Nat} (hn : e < n) (he : p e = true) (ha : ∀ k, e < k → p k = false) :
    ((List.range n).filter p).getLast? = some e := by
  obtain ⟨k, rfl⟩ : ∃ k, n = e + 1 + k := ⟨n - (e + 1), by omega⟩
  have habove : ((List.range k).map (e + 1 + ·)).filter p = [] := by
    rw [List.filter_eq_nil_iff]
    intro x hx
    obtain ⟨y, _, rfl⟩ := List.mem_map.1 hx
    simp [ha (e + 1 + y) (by omega)]
  rw [List.range_add, List.filter_append, habove, List.append_nil, List.range_succ, List.filter_append,
    List.filter_singleton, he]
  exact List.getLast?_concat

/-- The elements counted. -/
def Hart.count (h : Hart) (a : BitVec 5) : Nat := (List.range h.vl.toNat).countP (h.counted a)

theorem count_none {h : Hart} (hs : ¬ h.first < h.vl.toNat) (a : BitVec 5) : h.count a = 0 :=
  List.countP_eq_zero.2 fun e _ => by simp [counted_none hs a e]

theorem setBelow_length {s : State} (i : Instr) (op : VOp) (a : BitVec 5) (hs : s.me.first < s.me.vl.toNat) :
    ((ctxOf s i op).setBelow ((s.sent i op).hart s.cur) a).length = s.me.count a := by
  rw [setBelow_eq i op a hs, Hart.count, List.countP_eq_length_filter]

theorem setBelow_none {s : State} (i : Instr) (op : VOp) {a : BitVec 5} (hn : ∀ e, s.me.counted a e = false)
    (hs : s.me.first < s.me.vl.toNat) : (ctxOf s i op).setBelow ((s.sent i op).hart s.cur) a = [] := by
  rw [setBelow_eq i op a hs]
  exact List.filter_eq_nil_iff.2 fun e _ => by simp [hn e]

/-- What a mask count into x[d] is to the queue. -/
def countOp (d : BitVec 5) : VOp := { VOp.base with whole := true, xd := some d }

theorem countOp_legal {h : Hart} (d : BitVec 5) (hill : h.vtype.getLsbD 15 = false) : sendIllegal h (countOp d) = false :=
  legal_ill hill rfl rfl

section MaskCounts

variable {s : State} (d a : BitVec 5) (hl : s.Lone) (hill : s.me.vtype.getLsbD 15 = false)

include hl hill

theorem count_run {i : Instr} {v : Word} (hz : sized i = false) (hlen : lengthOf i = 4)
    (hv : vop i s.me.vtype s.me = some (countOp d))
    (hp : Gives (perform (ctxOf s i (countOp d)) i) (s.sent i (countOp d)) true (s.answered i (countOp d) v id)) :
    runM (send i) s = .next (s.setMe ((s.me.setX d v).past 4 false)) :=
  send_x_only_run hl hz hv (countOp_legal d hill) rfl hlen rfl hp

/-- MPOP writes the count (R262). -/
theorem mpop_run : runM (send (.mpop d a)) s = .next (s.setMe ((s.me.setX d (BitVec.ofNat 64 (s.me.count a))).past 4 false)) := by
  refine count_run d hl hill rfl rfl rfl (wholeScalar_gives (fun hs => ?_) (fun hs => ?_))
  · rw [setBelow_length _ _ a hs]
  · rw [count_none hs]
    rfl

/-- MPOP.VL writes it, and makes it VL as well (R262). -/
theorem mpopVl_run : runM (send (.mpopVl d a)) s = .next (s.setMe
    { (s.me.setX d (BitVec.ofNat 64 (s.me.count a))).past 4 false with vl := BitVec.ofNat 23 (s.me.count a) }) := by
  refine send_x_run (op := countOp d) (apart_vl (BitVec.ofNat 23 (s.me.count a))) hl rfl rfl (countOp_legal d hill) rfl rfl ?_
  refine (Gives.getHart _ _).bind ?_
  have hn : (if (ctxOf s (.mpopVl d a) (countOp d)).start < (ctxOf s (.mpopVl d a) (countOp d)).vl then
      ((ctxOf s (.mpopVl d a) (countOp d)).setBelow ((s.sent (.mpopVl d a) (countOp d)).hart s.cur) a).length else 0) =
      s.me.count a := by
    rw [ctxOf_start, ctxOf_vl]
    split
    · exact setBelow_length _ _ a ‹_›
    · exact (count_none ‹_› a).symm
  rw [ctxOf_g]
  dsimp only
  rw [hn]
  exact finish_gives s _ _ _ _

/-- MFIRST, where element e is the first counted (R263). -/
theorem mfirst_run {e : Nat} (he : s.me.counted a e = true) (hb : ∀ k, k < e → s.me.counted a k = false) :
    runM (send (.mfirst d a)) s = .next (s.setMe ((s.me.setX d (BitVec.ofNat 64 e)).past 4 false)) := by
  obtain ⟨hs, hlt⟩ := counted_lt he
  obtain ⟨l, hf⟩ := filter_range_first hlt he hb
  refine count_run d hl hill rfl rfl rfl (wholeScalar_gives (fun _ => ?_) (fun hn => absurd hs hn))
  rw [setBelow_eq _ _ a hs, hf]

/-- MLAST, where element e is the last counted (R263). -/
theorem mlast_run {e : Nat} (he : s.me.counted a e = true) (ha : ∀ k, e < k → s.me.counted a k = false) :
    runM (send (.mlast d a)) s = .next (s.setMe ((s.me.setX d (BitVec.ofNat 64 e)).past 4 false)) := by
  obtain ⟨hs, hlt⟩ := counted_lt he
  refine count_run d hl hill rfl rfl rfl (wholeScalar_gives (fun _ => ?_) (fun hn => absurd hs hn))
  rw [setBelow_eq _ _ a hs, filter_range_last hlt he ha]

/-- MFIRST, where none is counted. -/
theorem mfirst_run_none (hn : ∀ e, s.me.counted a e = false) :
    runM (send (.mfirst d a)) s = .next (s.setMe ((s.me.setX d (BitVec.allOnes 64)).past 4 false)) :=
  count_run d hl hill rfl rfl rfl (wholeScalar_gives (fun hs => by rw [setBelow_none _ _ hn hs]; rfl) (fun _ => rfl))

/-- MLAST, where none is counted. -/
theorem mlast_run_none (hn : ∀ e, s.me.counted a e = false) :
    runM (send (.mlast d a)) s = .next (s.setMe ((s.me.setX d (BitVec.allOnes 64)).past 4 false)) :=
  count_run d hl hill rfl rfl rfl (wholeScalar_gives (fun hs => by rw [setBelow_none _ _ hn hs]; rfl) (fun _ => rfl))

end MaskCounts

/-! ### Flags that trap nothing -/

theorem trappedFlag_untrapped {flags ten : Nat} (h : flags &&& ten = 0) : trappedFlag flags ten = none := by
  rw [trappedFlag, List.find?_eq_none]
  intro k _
  rw [← Nat.testBit_and, h, Nat.zero_testBit]
  decide

theorem or_untrapped {x y ten : Nat} : (x ||| y) &&& ten = 0 ↔ x &&& ten = 0 ∧ y &&& ten = 0 := by
  rw [Nat.and_or_distrib_right, Nat.or_eq_zero_iff]

namespace VCtx

/-- A rounding that traps nothing takes its sum and adds its flags. -/
theorem push_untrapped {ten code flags : Nat} {x : Nat × Nat} (h : x.2 &&& ten = 0) :
    Acc1.push { code := code, flags := flags, trap := none } ten x = { code := x.1, flags := flags ||| x.2, trap := none } := by
  simp only [Acc1.push, trappedFlag_untrapped h]

/-! ### The ordered sum (R57) -/

/-- The sum of a running code and the next element, and its flags beside those before it. -/
def orderedStep (c : VCtx) (q : Nat × Nat) (e : Nat × Nat) : Nat × Nat :=
  let y := addCodes (codeFmt c.code) c.down (c.rnd e.1 0) q.1 e.2
  (y.1, q.2 ||| y.2)

/-- Where none of its flags traps, the ordered sum is the fold of R57. -/
theorem ordered_untrapped (c : VCtx) {ten start : Nat} (l : List (Nat × Nat))
    (h : (l.foldl c.orderedStep (start, 0)).2 &&& ten = 0) :
    c.ordered ten l start =
      { code := (l.foldl c.orderedStep (start, 0)).1, flags := (l.foldl c.orderedStep (start, 0)).2, trap := none } := by
  induction l using List.reverseRecOn with
  | nil => rfl
  | append_singleton l e ih =>
    rw [List.foldl_concat] at h ⊢
    obtain ⟨hl, he⟩ := or_untrapped.1 h
    have key := ih hl
    unfold ordered at key ⊢
    rw [List.foldl_concat, key]
    exact push_untrapped he

/-! ### The tree sum (R58) -/

/-- The sum at a node of R58's tree. -/
def nodeSum (c : VCtx) (level node x y : Nat) : Nat × Nat :=
  addCodes (codeFmt c.code) c.down (c.rnd (node * 2 ^ level) (level - 1)) x y

end VCtx

section Tree

variable (add : Nat → Nat → Nat → Nat → Nat × Nat) (leaf : Nat → Option Nat)

/-- The flags of the sum at node j of the level above one: none where it has not two present children. -/
def ownFlags (level j : Nat) : Nat :=
  match (sumTree add leaf level (2 * j)).1, (sumTree add leaf level (2 * j + 1)).1 with
  | some x, some y => (add (level + 1) j x y).2
  | _, _ => 0

/-- The flags below a node are those below its children and its own. -/
theorem sumTree_flags (level j : Nat) : (sumTree add leaf (level + 1) j).2 =
    (sumTree add leaf level (2 * j)).2 ||| (sumTree add leaf level (2 * j + 1)).2 ||| ownFlags add leaf level j := by
  rw [sumTree, ownFlags]
  cases (sumTree add leaf level (2 * j)).1 <;> cases (sumTree add leaf level (2 * j + 1)).1 <;> simp

/-- A node is absent where both its children are. -/
theorem sumTree_eq_none {level j : Nat} : (sumTree add leaf (level + 1) j).1 = none ↔
    (sumTree add leaf level (2 * j)).1 = none ∧ (sumTree add leaf level (2 * j + 1)).1 = none := by
  rw [sumTree]
  cases (sumTree add leaf level (2 * j)).1 with
  | none => simp
  | some x => cases (sumTree add leaf level (2 * j + 1)).1 <;> simp

/-- An absent node has no flags below it. -/
theorem sumTree_absent {level j : Nat} (h : (sumTree add leaf level j).1 = none) : (sumTree add leaf level j).2 = 0 := by
  induction level generalizing j with
  | zero => rfl
  | succ level ih =>
    obtain ⟨hp, hq⟩ := (sumTree_eq_none add leaf).1 h
    rw [sumTree_flags, ih hp, ih hq, ownFlags, hp, hq]
    simp

/-- Over absent leaves every node is absent. -/
theorem sumTree_none {leaf} (h : ∀ e, leaf e = none) (level j : Nat) : (sumTree add leaf level j).1 = none := by
  induction level generalizing j with
  | zero => exact h j
  | succ level ih => exact (sumTree_eq_none add _).2 ⟨ih _, ih _⟩

/-- What no flag below the root traps, none below any node of a level traps. -/
theorem sumTree_untrapped {ten : Nat} (n level : Nat) (h : (sumTree add leaf (level + n) 0).2 &&& ten = 0) :
    ∀ j, j < 2 ^ n → (sumTree add leaf level j).2 &&& ten = 0 := by
  induction n generalizing level with
  | zero =>
    intro j hj
    obtain rfl : j = 0 := by omega
    exact h
  | succ n ih =>
    intro j hj
    have hup := ih (level + 1) (by rwa [Nat.add_right_comm]) (j / 2) (by omega)
    rw [sumTree_flags] at hup
    obtain ⟨hpq, _⟩ := or_untrapped.1 hup
    obtain ⟨hp, hq⟩ := or_untrapped.1 hpq
    rcases Nat.mod_two_eq_zero_or_one j with hj2 | hj2
    · rwa [show 2 * (j / 2) = j by omega] at hp
    · rwa [show 2 * (j / 2) + 1 = j by omega] at hq

/-- The n nodes of a level from node j on. -/
def levelNodes (level j n : Nat) : List (Option Nat) := (List.range' j n).map (fun i => (sumTree add leaf level i).1)

/-- The flags below them. -/
def levelFlags (level j : Nat) : Nat → Nat
  | 0 => 0
  | n + 1 => (sumTree add leaf level j).2 ||| levelFlags level (j + 1) n

/-- The flags of the sums of n nodes of the next level, from node j on. -/
def levelOwn (level j : Nat) : Nat → Nat
  | 0 => 0
  | n + 1 => ownFlags add leaf level j ||| levelOwn level (j + 1) n

theorem levelNodes_pair (level j n : Nat) : levelNodes add leaf level (2 * j) (2 * (n + 1)) =
    (sumTree add leaf level (2 * j)).1 :: (sumTree add leaf level (2 * j + 1)).1 :: levelNodes add leaf level (2 * (j + 1)) (2 * n) := by
  rw [levelNodes, Nat.mul_succ, List.range'_succ, List.range'_succ]
  rfl

theorem levelNodes_succ (level j n : Nat) : levelNodes add leaf level j (n + 1) =
    (sumTree add leaf level j).1 :: levelNodes add leaf level (j + 1) n := by
  rw [levelNodes, List.range'_succ]
  rfl

theorem levelFlags_pair (level j n : Nat) : levelFlags add leaf level (2 * j) (2 * (n + 1)) =
    (sumTree add leaf level (2 * j)).2 ||| ((sumTree add leaf level (2 * j + 1)).2 ||| levelFlags add leaf level (2 * (j + 1)) (2 * n)) :=
  rfl

/-- The flags below a level are those below the one beneath and those of its own sums. -/
theorem levelFlags_up (level j n : Nat) :
    levelFlags add leaf (level + 1) j n = levelFlags add leaf level (2 * j) (2 * n) ||| levelOwn add leaf level j n := by
  induction n generalizing j with
  | zero => simp [levelFlags, levelOwn]
  | succ n ih =>
    rw [levelFlags, ih, sumTree_flags, levelOwn, levelFlags_pair]
    ac_rfl

theorem levelFlags_leaves (j n : Nat) : levelFlags add leaf 0 j n = 0 := by
  induction n generalizing j with
  | zero => rfl
  | succ n ih => simp [levelFlags, ih, sumTree]

theorem levelOwn_untrapped {ten level : Nat} (n j : Nat) (h : ∀ i, j ≤ i → i < j + n → ownFlags add leaf level i &&& ten = 0) :
    levelOwn add leaf level j n &&& ten = 0 := by
  induction n generalizing j with
  | zero => exact Nat.zero_and _
  | succ n ih =>
    exact or_untrapped.2 ⟨h j (Nat.le_refl j) (by omega), ih (j + 1) fun i h1 h2 => h i (by omega) (by omega)⟩

end Tree

namespace VCtx

/-- One level of the tree, where none of its sums traps: the nodes of that level, and the flags of its sums beside those before. -/
theorem treeLevel_untrapped (c : VCtx) (leaf : Nat → Option Nat) {ten level : Nat} (n j code flags : Nat)
    (h : levelOwn c.nodeSum leaf level j n &&& ten = 0) :
    ∃ code', c.treeLevel ten (level + 1) j (levelNodes c.nodeSum leaf level (2 * j) (2 * n))
        { code := code, flags := flags, trap := none } =
      (levelNodes c.nodeSum leaf (level + 1) j n,
        { code := code', flags := flags ||| levelOwn c.nodeSum leaf level j n, trap := none }) := by
  induction n generalizing j code flags with
  | zero => exact ⟨code, by simp [levelNodes, levelOwn, treeLevel]⟩
  | succ n ih =>
    obtain ⟨hown, hrest⟩ := or_untrapped.1 h
    rw [levelNodes_pair, levelNodes_succ, levelOwn, ← Nat.or_assoc]
    rw [sumTree]
    rw [ownFlags] at hown ⊢
    cases hx : (sumTree c.nodeSum leaf level (2 * j)).1 with
    | none =>
      obtain ⟨code', hr⟩ := ih (j + 1) code flags hrest
      refine ⟨code', ?_⟩
      simp [treeLevel, hr]
    | some x =>
      cases hy : (sumTree c.nodeSum leaf level (2 * j + 1)).1 with
      | none =>
        obtain ⟨code', hr⟩ := ih (j + 1) code flags hrest
        refine ⟨code', ?_⟩
        simp [treeLevel, hr]
      | some y =>
        rw [hx, hy] at hown
        have hpush := push_untrapped (code := code) (flags := flags) (x := c.nodeSum (level + 1) j x y) hown
        obtain ⟨code', hr⟩ := ih (j + 1) _ _ hrest
        refine ⟨code', ?_⟩
        rw [treeLevel]
        dsimp only
        have hsum : addCodes (codeFmt c.code) c.down (c.rnd (j * 2 ^ (level + 1)) (level + 1 - 1)) x y =
          c.nodeSum (level + 1) j x y := rfl
        rw [hsum, hpush, hr]

/-- The levels of the tree, where no flag below the root traps: the root, and the flags below it. -/
theorem treeLevels_untrapped (c : VCtx) (leaf : Nat → Option Nat) {ten : Nat} (n level code : Nat)
    (h : (sumTree c.nodeSum leaf (level + n) 0).2 &&& ten = 0) :
    ∃ code', c.treeLevels ten n (level + 1) (levelNodes c.nodeSum leaf level 0 (2 ^ n))
        { code := code, flags := levelFlags c.nodeSum leaf level 0 (2 ^ n), trap := none } =
      ([(sumTree c.nodeSum leaf (level + n) 0).1], { code := code', flags := (sumTree c.nodeSum leaf (level + n) 0).2, trap := none }) := by
  induction n generalizing level code with
  | zero => exact ⟨code, by simp [treeLevels, levelNodes, levelFlags]⟩
  | succ n ih =>
    rw [show level + (n + 1) = level + 1 + n by omega] at h ⊢
    have hown : levelOwn c.nodeSum leaf level 0 (2 ^ n) &&& ten = 0 := by
      refine levelOwn_untrapped _ _ _ _ fun i _ hi => ?_
      have hi' := sumTree_untrapped c.nodeSum leaf n (level + 1) h i (by omega)
      rw [sumTree_flags] at hi'
      exact (or_untrapped.1 hi').2
    obtain ⟨code1, hl⟩ := c.treeLevel_untrapped leaf (2 ^ n) 0 code (levelFlags c.nodeSum leaf level 0 (2 ^ (n + 1))) hown
    obtain ⟨code2, hu⟩ := ih (level + 1) code1 h
    refine ⟨code2, ?_⟩
    rw [levelFlags_up] at hu
    rw [treeLevels, Nat.pow_succ']
    rw [Nat.pow_succ', Nat.mul_zero] at hl
    rw [hl]
    exact hu

/-- R58's number of levels: the least that has place for the leaves. -/
theorem treeDepth_eq {n k : Nat} (h : n ≤ 2 ^ k) (hk : k = 0 ∨ 2 ^ (k - 1) < n) : treeDepth n = k := by
  unfold treeDepth
  rcases hk with rfl | hk
  · rw [if_pos (by simpa using h)]
  · cases k with
    | zero => rw [if_pos (by simpa using h)]
    | succ k =>
      have hpos : 0 < 2 ^ k := Nat.two_pow_pos k
      rw [Nat.add_sub_cancel] at hk
      rw [if_neg (by omega), (Nat.log2_eq_iff (k := k) (by omega)).2 ⟨by omega, by omega⟩]

/-- Leaves with absent ones after them fill the bottom of the tree. -/
theorem padded_eq {leaf : Nat → Option Nat} (add : Nat → Nat → Nat → Nat → Nat × Nat) {n N : Nat} (hn : n ≤ N)
    (h : ∀ e, n ≤ e → leaf e = none) :
    (List.range n).map leaf ++ List.replicate (N - n) none = levelNodes add leaf 0 0 N := by
  refine List.ext_getElem (by simp [levelNodes, hn]) fun e h1 h2 => ?_
  by_cases he : e < n
  · simp [levelNodes, sumTree, List.getElem_append_left, he]
  · rw [List.getElem_append_right (by simpa using he)]
    simp [levelNodes, sumTree, h e (by omega)]

/-- The code and the flags of R58's sum over k levels: the start value alone where no leaf is present. -/
def treeSum (c : VCtx) (leaf : Nat → Option Nat) (k start : Nat) : Nat × Nat :=
  let root := sumTree c.nodeSum leaf k 0
  match root.1 with
  | none => (start, 0)
  | some x =>
    let y := addCodes (codeFmt c.code) c.down (c.rnd 0 k) start x
    (y.1, root.2 ||| y.2)

/-- Where none of its flags traps, the tree over n leaves is R58's sum. -/
theorem tree_untrapped (c : VCtx) {leaf : Nat → Option Nat} {ten n k start : Nat} (hn : n ≤ 2 ^ k)
    (hk : k = 0 ∨ 2 ^ (k - 1) < n) (hleaf : ∀ e, n ≤ e → leaf e = none) (h : (c.treeSum leaf k start).2 &&& ten = 0) :
    c.tree ten ((List.range n).map leaf) start =
      { code := (c.treeSum leaf k start).1, flags := (c.treeSum leaf k start).2, trap := none } := by
  have htree (hu : (sumTree c.nodeSum leaf k 0).2 &&& ten = 0) := c.treeLevels_untrapped leaf (ten := ten) k 0 start (by rwa [Nat.zero_add])
  simp only [levelFlags_leaves, Nat.zero_add, ← padded_eq _ hn hleaf] at htree
  rw [treeSum] at h ⊢
  unfold tree
  rw [List.length_map, List.length_range, treeDepth_eq hn hk]
  cases hroot : (sumTree c.nodeSum leaf k 0).1 with
  | none =>
    have h0 := sumTree_absent _ _ hroot
    obtain ⟨code', ht⟩ := htree (by rw [h0, Nat.zero_and])
    simp only [ht, hroot, h0]
  | some x =>
    simp only [hroot] at h
    obtain ⟨hu, hs⟩ := or_untrapped.1 h
    obtain ⟨code', ht⟩ := htree hu
    simp only [ht, hroot, push_untrapped hs]

end VCtx

/-! ### Floating-point reductions (R57, R58, R259) -/

/-- The n-th rounding of element e of the sum of two codes of VTYPE's format. -/
def Hart.addAt (h : Hart) (e n x y : Nat) : Nat × Nat :=
  let F := codeFmt (vtCode h.vtype)
  F.finish (h.rndAt e n) (fAdd (bitsGet h.rmode.toNat 0 3 == 4) (F.decode x) (F.decode y))

/-- The elements that take part, added in order to the start value (R57), and the flags. -/
def Hart.orderedSum (h : Hart) (a b : BitVec 5) (m : BitVec 4) : Nat × Nat :=
  ((List.range h.vl.toNat).filter (h.takesPart m)).foldl
    (fun q e => let y := h.addAt e 0 q.1 (h.elem a e); (y.1, q.2 ||| y.2)) (h.startOf b, 0)

/-- The element that a leaf of R58's tree holds. -/
def Hart.leafOf (h : Hart) (a : BitVec 5) (m : BitVec 4) (e : Nat) : Option Nat := if h.takesPart m e then some (h.elem a e) else none

/-- The sum at a node of R58's tree. -/
def Hart.nodeAt (h : Hart) (level node : Nat) : Nat → Nat → Nat × Nat := h.addAt (node * 2 ^ level) (level - 1)

theorem addCodes_ctxOf (s : State) (i : Instr) (op : VOp) (e n x y : Nat) :
    VCtx.addCodes (codeFmt (ctxOf s i op).code) (ctxOf s i op).down ((ctxOf s i op).rnd e n) x y = s.me.addAt e n x y := by
  rw [VCtx.addCodes, ctxOf_down, ctxOf_rnd]
  rfl

theorem nodeSum_ctxOf (s : State) (i : Instr) (op : VOp) : (ctxOf s i op).nodeSum = s.me.nodeAt := by
  funext level node x y
  exact addCodes_ctxOf s i op _ _ x y

/-- What a floating-point reduction runs over, where any element performs. -/
def VCtx.running (c : VCtx) (h : Hart) (a : BitVec 5) (m : BitVec 4) (ordered' : Bool) : VCtx.Acc1 :=
  if ordered' then c.ordered c.e.ten.toNat ((c.all.filter (fun i => c.on h m i)).map (fun i => (i, c.src h a i))) c.scalarB
  else c.tree c.e.ten.toNat (c.all.map (fun i => if c.on h m i then some (c.src h a i) else none)) c.scalarB

/-- A floating-point reduction that traps nothing adds its flags and gives its code. -/
theorem vfred_gives {s : State} {i : Instr} {op : VOp} {a : BitVec 5} {m : BitVec 4} {ordered' : Bool} {r : Nat × Nat}
    (hs : s.me.first < s.me.vl.toNat → (ctxOf s i op).running ((s.sent i op).hart s.cur) a m ordered' =
      { code := r.1, flags := r.2, trap := none })
    (hn : ¬ s.me.first < s.me.vl.toNat → r = ((ctxOf s i op).scalarB, 0)) :
    Gives ((ctxOf s i op).vfred a m ordered') (s.sent i op) true (Prim.apply (s.sent i op)
      (.hart s.cur (((((s.sent i op).hart s.cur).orFlags r.2).fillRq (BitVec.ofNat 64 r.1)).popEntry s.me.groups))) := by
  unfold VCtx.running at hs
  refine (Gives.getHart _ _).bind ?_
  rw [ctxOf_start, ctxOf_vl]
  by_cases hlt : s.me.first < s.me.vl.toNat
  · rw [if_pos hlt, ctxOf_g]
    dsimp only
    rw [hs hlt]
    exact finish_gives s _ i op _
  · rw [if_neg hlt, hn hlt, Hart.orFlags_zero]
    exact finish_gives s _ i op _

/-- A floating-point reduction adds the flags of its sum and writes the code to x[d]. -/
theorem vfred_run {s : State} {i : Instr} {d a b : BitVec 5} {m : BitVec 4} {ordered' : Bool} {op : VOp} {r : Nat × Nat} (hl : s.Lone)
    (hill : s.me.vtype.getLsbD 15 = false) (hok : fpOk (vtCode s.me.vtype) = true) (hg : s.me.grouped [a])
    (hz : sized i = false) (hlen : lengthOf i = 4)
    (hop : op = (VOp.fold (fpOk (vtCode s.me.vtype)) ⟨a.toNat, vtGroup s.me.vtype, codeWidth (vtCode s.me.vtype)⟩ b d).rounding)
    (hv : vop i s.me.vtype s.me = some op) (hp : perform (ctxOf s i op) i = (ctxOf s i op).vfred a m ordered')
    (hs : s.me.first < s.me.vl.toNat → (ctxOf s i op).running ((s.sent i op).hart s.cur) a m ordered' =
      { code := r.1, flags := r.2, trap := none })
    (hn : ¬ s.me.first < s.me.vl.toNat → r = (s.me.startOf b, 0)) :
    runM (send i) s = .next (s.setMe (((s.me.setX d (BitVec.ofNat 64 r.1)).past 4 true).orFlags r.2)) := by
  have hx : op.xd = some d := by rw [hop]; rfl
  have hb : op.opb = some b := by rw [hop]; rfl
  have hr : op.rounds = true := by rw [hop]; rfl
  have hi : sendIllegal s.me op = false := by rw [hop]; exact fold_legal (b := b) (d := d) hill hok hg _
  rw [← hr]
  refine send_x_run (v := BitVec.ofNat 64 r.1) (apart_orFlags r.2) hl hz hv hi hx hlen ?_
  rw [hp, State.answered, ← sent_fillRq_orFlags hl hx]
  exact vfred_gives hs fun h => by rw [hn h, ctxOf_scalarB s i hb]

/-- The ordered sum, where none of its flags traps. -/
theorem running_ordered {s : State} {i : Instr} {op : VOp} {a b : BitVec 5} {m : BitVec 4} (hb : op.opb = some b)
    (hlt : s.me.first < s.me.vl.toNat) (hu : s.me.untrapped (s.me.orderedSum a b m).2) :
    (ctxOf s i op).running ((s.sent i op).hart s.cur) a m true =
      { code := (s.me.orderedSum a b m).1, flags := (s.me.orderedSum a b m).2, trap := none } := by
  have hsum : (((List.range s.me.vl.toNat).filter (s.me.takesPart m)).map (fun e => (e, s.me.elem a e))).foldl
      (ctxOf s i op).orderedStep (s.me.startOf b, 0) = s.me.orderedSum a b m := by
    rw [List.foldl_map, Hart.orderedSum]
    unfold VCtx.orderedStep
    simp only [addCodes_ctxOf]
  unfold VCtx.running
  rw [if_pos rfl, filter_ctxOf_on s i op m hlt, ten_eq, ctxOf_scalarB s i hb]
  simp only [ctxOf_src]
  rw [← hsum] at hu ⊢
  exact VCtx.ordered_untrapped _ _ hu

/-- The sum of R58 over k levels, and the flags. -/
def Hart.treeSum (h : Hart) (a b : BitVec 5) (m : BitVec 4) (k : Nat) : Nat × Nat :=
  let root := sumTree h.nodeAt (h.leafOf a m) k 0
  match root.1 with
  | none => (h.startOf b, 0)
  | some x => ((h.addAt 0 k (h.startOf b) x).1, root.2 ||| (h.addAt 0 k (h.startOf b) x).2)

theorem treeSum_absent {h : Hart} {a : BitVec 5} {m : BitVec 4} {k : Nat} (b : BitVec 5)
    (hr : (sumTree h.nodeAt (h.leafOf a m) k 0).1 = none) : h.treeSum a b m k = (h.startOf b, 0) := by
  simp only [Hart.treeSum, hr]

theorem treeSum_present {h : Hart} {a : BitVec 5} {m : BitVec 4} {k x : Nat} (b : BitVec 5)
    (hr : (sumTree h.nodeAt (h.leafOf a m) k 0).1 = some x) : h.treeSum a b m k =
      ((h.addAt 0 k (h.startOf b) x).1, (sumTree h.nodeAt (h.leafOf a m) k 0).2 ||| (h.addAt 0 k (h.startOf b) x).2) := by
  simp only [Hart.treeSum, hr]

theorem treeSum_ctxOf (s : State) (i : Instr) (op : VOp) (a b : BitVec 5) (m : BitVec 4) (k : Nat) :
    (ctxOf s i op).treeSum (s.me.leafOf a m) k (s.me.startOf b) = s.me.treeSum a b m k := by
  rw [VCtx.treeSum, Hart.treeSum, nodeSum_ctxOf]
  simp only [addCodes_ctxOf]

/-- Where no element takes part the tree's sum is the start value. -/
theorem treeSum_none {h : Hart} (hn : ¬ h.first < h.vl.toNat) (a b : BitVec 5) (m : BitVec 4) (k : Nat) :
    h.treeSum a b m k = (h.startOf b, 0) := by
  have hleaf : ∀ e, h.leafOf a m e = none := fun e => by simp [Hart.leafOf, takesPart_none hn]
  exact treeSum_absent b (sumTree_none _ hleaf k 0)

/-- The tree sum, where none of its flags traps. -/
theorem running_tree {s : State} {i : Instr} {op : VOp} {a b : BitVec 5} {m : BitVec 4} {k : Nat} (hb : op.opb = some b)
    (hlt : s.me.first < s.me.vl.toNat) (hvl : s.me.vl.toNat ≤ 2 ^ k) (hk : k = 0 ∨ 2 ^ (k - 1) < s.me.vl.toNat)
    (hu : s.me.untrapped (s.me.treeSum a b m k).2) :
    (ctxOf s i op).running ((s.sent i op).hart s.cur) a m false =
      { code := (s.me.treeSum a b m k).1, flags := (s.me.treeSum a b m k).2, trap := none } := by
  have hleaves : (ctxOf s i op).all.map (fun e => if (ctxOf s i op).on ((s.sent i op).hart s.cur) m e then
      some ((ctxOf s i op).src ((s.sent i op).hart s.cur) a e) else none) = (List.range s.me.vl.toNat).map (s.me.leafOf a m) :=
    List.map_congr_left fun e he => by rw [ctxOf_on s i op m hlt (List.mem_range.1 he), ctxOf_src, Hart.leafOf]
  have habsent : ∀ e, s.me.vl.toNat ≤ e → s.me.leafOf a m e = none := fun e he => by simp [Hart.leafOf, takesPart_ge m he]
  unfold VCtx.running
  rw [if_neg Bool.false_ne_true, hleaves, ten_eq, ctxOf_scalarB s i hb]
  rw [← treeSum_ctxOf s i op] at hu ⊢
  exact VCtx.tree_untrapped _ hvl hk habsent hu

section FloatReductions

variable {s : State} {d a b : BitVec 5} {m : BitVec 4} (hl : s.Lone) (hill : s.me.vtype.getLsbD 15 = false)
  (hok : fpOk (vtCode s.me.vtype) = true) (hg : s.me.grouped [a])

include hl hill hok hg

/-- VFREDO, where no flag of its sum has its trap enabled. -/
theorem vfredo_run (hu : s.me.untrapped (s.me.orderedSum a b m).2) :
    runM (send (.vfredo d a b m)) s = .next (s.setMe
      (((s.me.setX d (BitVec.ofNat 64 (s.me.orderedSum a b m).1)).past 4 true).orFlags (s.me.orderedSum a b m).2)) :=
  vfred_run hl hill hok hg rfl rfl rfl rfl rfl (fun hlt => running_ordered rfl hlt hu)
    (fun hn => by rw [Hart.orderedSum, filter_takesPart_nil hn, List.foldl_nil])

/-- VFREDT, where no flag of its sum has its trap enabled. -/
theorem vfredt_run {k : Nat} (hvl : s.me.vl.toNat ≤ 2 ^ k) (hk : k = 0 ∨ 2 ^ (k - 1) < s.me.vl.toNat)
    (hu : s.me.untrapped (s.me.treeSum a b m k).2) :
    runM (send (.vfredt d a b m)) s = .next (s.setMe
      (((s.me.setX d (BitVec.ofNat 64 (s.me.treeSum a b m k).1)).past 4 true).orFlags (s.me.treeSum a b m k).2)) :=
  vfred_run hl hill hok hg rfl rfl rfl rfl rfl (fun hlt => running_tree rfl hlt hvl hk hu) (fun hn => treeSum_none hn a b m k)

end FloatReductions

/-- Settles O39: each instruction performs in the step that sends it, gives its x result through the read queue, and completes with
`popEntry_past_x`; the running reductions of R57 and R58 meet their folds because no flag on the way traps. -/
theorem reductions : Obligations.Reductions := by
  unfold Obligations.Reductions
  refine ⟨fun s d a b m hl hill => ⟨fun hc hg => ⟨?_, ?_, ?_, ?_, ?_, ?_⟩, ?_, ?_, ?_, ?_, ?_⟩, ?_⟩
  · exact (exec_vredAdd d a b m s).trans (vred_run (i := .vredAdd d a b m) VCtx.iAdd hl hill hc hg rfl rfl rfl (fun _ => rfl))
  · exact (exec_vredAnd d a b m s).trans (vred_run (i := .vredAnd d a b m) VCtx.iAnd hl hill hc hg rfl rfl rfl (fun _ => rfl))
  · exact (exec_vredOr d a b m s).trans (vred_run (i := .vredOr d a b m) VCtx.iOr hl hill hc hg rfl rfl rfl (fun _ => rfl))
  · exact (exec_vredXor d a b m s).trans (vred_run (i := .vredXor d a b m) VCtx.iXor hl hill hc hg rfl rfl rfl (fun _ => rfl))
  · exact (exec_vredMin d a b m s).trans (vred_run (i := .vredMin d a b m) VCtx.iMin hl hill hc hg rfl rfl rfl (fun _ => rfl))
  · exact (exec_vredMax d a b m s).trans (vred_run (i := .vredMax d a b m) VCtx.iMax hl hill hc hg rfl rfl rfl (fun _ => rfl))
  · exact (exec_mpop d a s).trans (mpop_run d a hl hill)
  · exact (exec_mpopVl d a s).trans (mpopVl_run d a hl hill)
  · exact fun e he hb => (exec_mfirst d a s).trans (mfirst_run d a hl hill he hb)
  · exact fun e he ha => (exec_mlast d a s).trans (mlast_run d a hl hill he ha)
  · exact fun hn => ⟨(exec_mfirst d a s).trans (mfirst_run_none d a hl hill hn),
      (exec_mlast d a s).trans (mlast_run_none d a hl hill hn)⟩
  · intro s d a b m hl hill hclass hlo hhi hg
    have hok : fpOk (vtCode s.me.vtype) = true := by simp [fpOk, codeFloat, hclass, hlo, hhi]
    refine ⟨fun hu => (exec_vfredo d a b m s).trans (vfredo_run hl hill hok hg hu), fun k hvl hk => ?_⟩
    have key := vfredt_run (d := d) (b := b) (m := m) hl hill hok hg hvl hk
    dsimp only
    split
    · rename_i hroot
      rw [treeSum_absent b hroot] at key
      exact fun hu => (exec_vfredt d a b m s).trans (key hu)
    · rename_i x hroot
      rw [treeSum_present b hroot] at key
      exact fun hu => (exec_vfredt d a b m s).trans (key hu)

end Sys2Proof.Machine
end

section
/-!
Proofs/TrapEntry.lean: what TRAP, BRK and every trap entry write (R211, R212), and what no trap entry writes (R221).
-/
set_option Elab.async false

namespace Sys2Proof.Machine

/-! ### STATUS of a trap entry (R211) -/

/-- STATUS after a trap entry, by its bits: the privilege and EIE that stood, in bits 0 and 2, and EIE cleared, in bit 1. -/
theorem Hart.enterTrap_status_bits (h : Hart) (c : BitVec 16) (p v : Word) (q : BitVec 5) (k : TrapKind) (b : Bool) :
    let status := (h.enterTrap c p v q k b).status
    status.getLsbD 0 = h.sup ∧ status.getLsbD 2 = h.status.getLsbD 1 ∧ status.getLsbD 1 = false := by
  rw [Hart.enterTrap_status]
  cases h.sup <;> grind

/-! ### TRAP and BRK (R212) -/

/-- TRAP completes, and traps as the completed hart: its EPC is the pc that completing chose (R221). -/
theorem trap_run {s : State} (k : BitVec 5) (hs : s.Drained) :
    exec (.trap k) s = .next (s.setMe
      ((s.me.advance 4).enterTrap 3 (s.me.advance 4).pc (k.zeroExtend 64) 0 .drained (s.me.advance 4).vqHeld)) := by
  obtain ⟨hfree, hqueue⟩ := hs
  exact (exec_trap k s).trans (scalar_gives hfree ((needDrained_gives hqueue).bind (Gives.modHart _ _ _)))

/-- BRK does not complete: its EPC is the instruction. -/
theorem brk_run {s : State} (hs : s.Drained) :
    exec .brk s = .next (s.setMe (s.me.enterTrap 2 s.me.pc 0 0 .drained s.me.vqHeld)) := by
  obtain ⟨hfree, hqueue⟩ := hs
  exact (exec_brk s).trans ((scalar_run hfree).trans (trapAfter_halts .break_ 0 hqueue).run)

/-- Settles O13: `trap_run` and `brk_run` end in one trap entry each, that of the completed hart and that of the hart as it stands;
every entry's fields are those of the laws of `Hart.enterTrap`, with STATUS read bit by bit. -/
theorem trapAndBreakEnter : Obligations.TrapAndBreakEnter := by
  unfold Obligations.TrapAndBreakEnter
  intro s k hs
  refine ⟨trap_run k hs, fun hb => congrArg Hart.pc (advance_outside s.me 4 hb), brk_run hs,
    fun h cause epc eval eqpos kind held => ?_⟩
  obtain ⟨hsup, hprior, heie⟩ := h.enterTrap_status_bits cause epc eval eqpos kind held
  exact ⟨hsup, hprior, heie, h.enterTrap_sup .., h.enterTrap_epc .., h.enterTrap_ecause .., h.enterTrap_eval ..,
    h.enterTrap_eqpos .., h.enterTrap_pc .., h.enterTrap_traps .., h.enterTrap_x .., h.enterTrap_lp .., h.enterTrap_instret ..⟩

end Sys2Proof.Machine
end

section
/-!
Proofs/RegisterFiles.lean: what the vector-side instructions that write one file of registers share. Their flags are none, so that an
element loop is a plain fold; their effect is on vector, mask or scale registers alone, and completing keeps it.
-/
set_option Elab.async false

namespace Sys2Proof.Machine

/-! ### An instruction that writes registers of the vector side alone -/

/-- The record as the entry of an instruction finds it. -/
def State.sentMe (s : State) (i : Instr) (op : VOp) : Hart := (s.sent i op).hart s.cur

/-- The record K that a performance leaves differs from h in the vector, mask and scale registers alone. -/
def Hart.refiled (h K : Hart) : Prop := K = { h with v := K.v, m := K.m, w := K.w }

/-- What an instruction without an x result leaves once it has completed, where it changes vector, mask and scale registers alone: their
new contents, and the hart past it. -/
theorem send_refiled_run {s : State} {i : Instr} {op : VOp} {len : Nat} {K : Hart} (hl : s.Lone) (hz : sized i = false)
    (hv : vop i s.me.vtype s.me = some op) (hi : sendIllegal s.me op = false) (hx : op.xd = none) (hlen : lengthOf i = len)
    (hK : (s.sentMe i op).refiled K)
    (hp : Gives (perform (ctxOf s i op) i) (s.sent i op) true
      (Prim.apply (s.sent i op) (.hart s.cur (K.popEntry s.me.groups)))) :
    runM (send i) s = .next (s.setMe { s.me.past len op.rounds with v := K.v, m := K.m, w := K.w }) := by
  have hz' : sized i = true → s.sg s.cur = s.me.lay := fun h => by rw [hz] at h; cases h
  obtain ⟨hvq, hrq, hmig, _⟩ := hl.idle
  rw [(send_gives hl hz' hv hi hp).run]
  congr 1
  change (s.setMe (s.me.enqueue i op)).setMe (K.popEntry s.me.groups) = _
  rw [setMe_setMe]
  subst hlen
  obtain ⟨_, _, _, ha, he, _, hfl, hvl, hxf, hmx, hilk, hch⟩ := past_fields s.me i hx
  have hE := Hart.enqueue_eq s.me i op
  have hrec : K = { (s.me.enqueue i op).canon with
      v := K.v, m := K.m, w := K.w, a := s.me.a, e := s.me.e, fflags := s.me.fflags, vl := s.me.vl, xfallbk := s.me.xfallbk,
      mxcyc := s.me.mxcyc, chans := (s.me.enqueue i op).chans, ilk := s.me.ilk } := by
    rw [Hart.refiled, State.sentMe, sent_hart] at hK
    rw [hE] at hK ⊢
    exact hK
  have key := popEntry_past (i := i) (op := op) (k := s.me.groups) ⟨hvq, hrq, hmig⟩ hx rfl rfl K.v K.m K.w s.me.a s.me.e s.me.fflags
    s.me.vl s.me.xfallbk s.me.mxcyc (s.me.enqueue i op).chans s.me.ilk
  rw [← hrec, ← ha, ← he, ← hfl, ← hvl, ← hxf, ← hmx, ← hilk, ← hch] at key
  simp only [State.setMe, Prim.apply, key]

/-- Instruction i passes through the vector queue as op: four bytes that set no x register, round nothing, and are legal under VTYPE as
it stands. -/
structure State.Sends (s : State) (i : Instr) (op : VOp) : Prop where
  runs   : exec i s = runM (send i) s
  free   : sized i = false
  length : lengthOf i = 4
  asOp   : vop i s.me.vtype s.me = some op
  legal  : sendIllegal s.me op = false
  noX    : op.xd = none
  noSeed : op.rounds = false

/-- Going past such an instruction keeps the registers. -/
theorem past_registers {s : State} {i : Instr} {op : VOp} (hs : s.Sends i op) :
    (s.me.past 4 false).v = s.me.v ∧ (s.me.past 4 false).m = s.me.m ∧ (s.me.past 4 false).w = s.me.w ∧
      (s.me.past 4 false).lay = s.me.lay ∧ (s.me.past 4 false).fflags = s.me.fflags := by
  have hpast := past_fields s.me i hs.noX
  rw [hs.length, hs.noSeed] at hpast
  obtain ⟨hv, hm, hw, _, _, hlay, hflags, _⟩ := hpast
  exact ⟨hv, hm, hw, hlay, hflags⟩

/-- Sending keeps them too. -/
theorem sentMe_registers (s : State) (i : Instr) (op : VOp) :
    (s.sentMe i op).v = s.me.v ∧ (s.sentMe i op).m = s.me.m ∧ (s.sentMe i op).w = s.me.w ∧ (s.sentMe i op).lay = s.me.lay := by
  obtain ⟨hv, hm, hw, _, _, hlay, _⟩ := sent_fields s i op
  exact ⟨hv, hm, hw, hlay⟩

section Completing

variable {s : State} {i : Instr} {op : VOp} {K : Hart} (hs : s.Sends i op) (hl : s.Lone)
  (hp : Gives (perform (ctxOf s i op) i) (s.sent i op) true (Prim.apply (s.sent i op) (.hart s.cur (K.popEntry s.me.groups))))

include hs hl hp

/-- Such an instruction leaves the new contents of those registers, and the hart past it. -/
theorem send_refiled (hK : (s.sentMe i op).refiled K) :
    exec i s = .next (s.setMe { s.me.past 4 false with v := K.v, m := K.m, w := K.w }) := by
  rw [hs.runs, send_refiled_run hl hs.free hs.asOp hs.legal hs.noX hs.length hK hp, hs.noSeed]

/-- Where it changes vector registers alone. -/
theorem send_only_v (hK : K = { s.sentMe i op with v := K.v }) :
    exec i s = .next (s.setMe { s.me.past 4 false with v := K.v }) := by
  obtain ⟨_, pm, pw, _⟩ := past_registers hs
  obtain ⟨_, sm, sw, _⟩ := sentMe_registers s i op
  have hm : K.m = (s.me.past 4 false).m := (congrArg Hart.m hK).trans (sm.trans pm.symm)
  have hw : K.w = (s.me.past 4 false).w := (congrArg Hart.w hK).trans (sw.trans pw.symm)
  rw [send_refiled hs hl hp (by rw [Hart.refiled, hK]), hm, hw]

/-- Where it changes mask registers alone. -/
theorem send_only_m (hK : K = { s.sentMe i op with m := K.m }) :
    exec i s = .next (s.setMe { s.me.past 4 false with m := K.m }) := by
  obtain ⟨pv, _, pw, _⟩ := past_registers hs
  obtain ⟨sv, _, sw, _⟩ := sentMe_registers s i op
  have hv : K.v = (s.me.past 4 false).v := (congrArg Hart.v hK).trans (sv.trans pv.symm)
  have hw : K.w = (s.me.past 4 false).w := (congrArg Hart.w hK).trans (sw.trans pw.symm)
  rw [send_refiled hs hl hp (by rw [Hart.refiled, hK]), hv, hw]

/-- Where it changes scale registers alone. -/
theorem send_only_w (hK : K = { s.sentMe i op with w := K.w }) :
    exec i s = .next (s.setMe { s.me.past 4 false with w := K.w }) := by
  obtain ⟨pv, pm, _⟩ := past_registers hs
  obtain ⟨sv, sm, _⟩ := sentMe_registers s i op
  have hv : K.v = (s.me.past 4 false).v := (congrArg Hart.v hK).trans (sv.trans pv.symm)
  have hm : K.m = (s.me.past 4 false).m := (congrArg Hart.m hK).trans (sm.trans pm.symm)
  rw [send_refiled hs hl hp (by rw [Hart.refiled, hK]), hv, hm]

end Completing

/-- The group at r in VTYPE's format, as an operand. -/
def Hart.operand (h : Hart) (r : BitVec 5) : VOperand := ⟨r.toNat, vtGroup h.vtype, codeWidth (vtCode h.vtype)⟩

/-- An instruction all of whose operands are groups is legal, where VTYPE's format allows it. -/
theorem grouped_legal {h : Hart} {op : VOp} {rs : List (BitVec 5)} (hill : h.vtype.getLsbD 15 = false) (hg : h.grouped rs)
    (hok : op.ok = true) (hsub : op.srcs ++ op.dsts ++ op.names ⊆ rs.map h.operand) : sendIllegal h op = false := by
  refine legal_ill hill hok (List.all_eq_true.2 fun o ho => ?_)
  obtain ⟨r, hr, rfl⟩ := List.mem_map.1 (hsub ho)
  exact legal_of (hg r hr) _

/-! ### Element loops without flags -/

/-- An element loop none of whose elements sets a flag is a plain fold. -/
theorem fold_unflagged (ten : Nat) (f : Nat → Hart → Hart) (l : List Nat) (h : Hart) :
    VCtx.fold ten (fun e h => (f e h, 0)) l h = (l.foldl (fun h e => f e h) h, none) := by
  induction l generalizing h with
  | nil => rfl
  | cons e l ih =>
    rw [VCtx.fold]
    simp only [trappedFlag_none, Hart.orFlags_zero, ih, List.foldl_cons]

section Reads

variable (s : State) (i : Instr) (op : VOp)

theorem sentMe_lay : (s.sentMe i op).lay = s.me.lay := by
  obtain ⟨_, _, _, hlay⟩ := sentMe_registers s i op
  exact hlay

theorem sentMe_mreg (r : Nat) : (s.sentMe i op).mreg r = s.me.mreg r := sent_mreg s i op r

theorem sentMe_wreg (r : Nat) : (s.sentMe i op).wreg r = s.me.wreg r := by
  obtain ⟨_, _, hw, _⟩ := sentMe_registers s i op
  rw [Hart.wreg, hw, Hart.wreg]

theorem sentMe_src (r : BitVec 5) (e : Nat) : (ctxOf s i op).src (s.sentMe i op) r e = s.me.elem r e := ctxOf_src s i op r e

theorem sentMe_wget (r j : Nat) : (s.sentMe i op).wget r j = s.me.wget r j := by
  rw [Hart.wget, sentMe_wreg, Hart.wget]

theorem sentMe_wCodes : (s.sentMe i op).wCodes = s.me.wCodes := by rw [Hart.wCodes, sentMe_lay, Hart.wCodes]

/-- The elements that an element loop runs over are the active ones. -/
theorem mem_filter_on (m : BitVec 4) (e : Nat) :
    e ∈ (ctxOf s i op).elems.filter (fun e => (ctxOf s i op).on (s.sentMe i op) m e) ↔ s.me.active m e = true := by
  rw [List.mem_filter, mem_elems, Hart.active]
  simp only [Bool.and_eq_true, decide_eq_true_eq]
  exact and_congr_right fun he => by rw [on_eq s i op _ m he.2, sentMe_mreg]

theorem elems_nodup (p : Nat → Bool) : ((ctxOf s i op).elems.filter p).Nodup :=
  ((range'_sorted _ _).filter p).imp (fun h => Nat.ne_of_lt h)

end Reads

/-- An element of a group has no more bits than its format. -/
theorem elem_mod (h : Hart) (r : BitVec 5) (e : Nat) : h.elem r e % 2 ^ codeWidth (vtCode h.vtype) = h.elem r e := by
  apply Nat.eq_of_testBit_eq
  intro k
  rw [Nat.testBit_mod_two_pow, Hart.elem, Hart.vget, testBit_elemGet]
  simp

theorem active_lt {h : Hart} {m : BitVec 4} {e : Nat} (he : h.active m e = true) : e < h.vl.toNat := by
  simp only [Hart.active, Bool.and_eq_true, decide_eq_true_eq] at he
  exact he.1.2

theorem takesPart_lt {h : Hart} {m : BitVec 4} {e : Nat} (he : h.takesPart m e = true) : h.first < h.vl.toNat ∧ e < h.vl.toNat := by
  simp only [Hart.takesPart, Bool.and_eq_true, decide_eq_true_eq] at he
  exact he.1

/-- The elements that take part are those of the list that a whole-instruction performance runs over. -/
theorem takesPart_iff_on (s : State) (i : Instr) (op : VOp) (m : BitVec 4) (e : Nat) : s.me.takesPart m e = true ↔
    s.me.first < s.me.vl.toNat ∧ e < s.me.vl.toNat ∧ (ctxOf s i op).on (s.sentMe i op) m e = true := by
  by_cases hsome : s.me.first < s.me.vl.toNat
  · by_cases he : e < s.me.vl.toNat
    · rw [← ctxOf_on s i op m hsome he]
      simp [hsome, he, State.sentMe]
    · simp [takesPart_ge m (Nat.not_lt.1 he), he]
  · simp [takesPart_none hsome, hsome]

end Sys2Proof.Machine
end

section
/-!
Proofs/VectorMoves.lean: the vector moves and permutes place elements (R254 to R257), and VPERM's word (R256).
-/
set_option Elab.async false

namespace Sys2Proof.Machine

/-! ### Writing a vector group -/

theorem Hart.Writes.congr {h h' : Hart} {t : BitVec 8} {d : BitVec 5} {n : Nat} {on on' : Nat → Bool} {val val' : Nat → Nat}
    (hw : h.Writes h' t d n on val) (hon : ∀ e, e < n * perReg h.lay (codeWidth t) → on e = on' e)
    (hval : ∀ e, on' e = true → val e = val' e) : h.Writes h' t d n on' val' := by
  obtain ⟨helems, hregs⟩ := hw
  refine ⟨fun e he => ?_, hregs⟩
  rw [helems e he, hon e he]
  split
  · exact hval e ‹_›
  · rfl

/-- Writes speaks of the vector registers and their size alone. -/
theorem Hart.Writes.transfer {h h' k k' : Hart} {t : BitVec 8} {d : BitVec 5} {n : Nat} {on : Nat → Bool} {val : Nat → Nat}
    (hw : h.Writes h' t d n on val) (hv : h.v = k.v) (hl : h.lay = k.lay) (hv' : h'.v = k'.v) (hl' : h'.lay = k'.lay) :
    k.Writes k' t d n on val := by
  simp only [Hart.Writes, Hart.vget, Hart.vreg, hv, hl, hv', hl'] at hw ⊢
  exact hw

theorem Hart.Writes.refl (h : Hart) (t : BitVec 8) (d : BitVec 5) (n : Nat) (val : Nat → Nat) :
    h.Writes h t d n (fun _ => false) val := ⟨fun _ _ => rfl, fun _ _ _ => rfl⟩

/-- Tidying a group keeps what was written there. -/
theorem Hart.Writes.trim {h h' : Hart} {t : BitVec 8} {d : BitVec 5} {n : Nat} {on : Nat → Bool} {val : Nat → Nat}
    (hw : h.Writes h' t d n on val) (hb : d.toNat + n ≤ 32) (hl : h'.lay = h.lay) :
    h.Writes (h'.trim t d.toNat n) t d n on val := by
  obtain ⟨helems, hregs⟩ := hw
  refine ⟨fun e he => ?_, fun r hr ho => ?_⟩
  · rw [Hart.vget_trim h' t hb (Nat.le_refl n) (by rwa [hl]), helems e he]
  · rw [Hart.vreg_trim_outside h' t hb (Nat.le_refl n) hr ho, hregs r hr ho]

theorem putAll_v (h : Hart) (t : BitVec 8) (d : BitVec 5) (l : List (Nat × Nat)) :
    VCtx.putAll h t d l = { h with v := (VCtx.putAll h t d l).v } := by
  induction l generalizing h with
  | nil => rfl
  | cons p l ih =>
    rw [VCtx.putAll, ih]
    rfl

theorem putAll_lay (h : Hart) (t : BitVec 8) (d : BitVec 5) (l : List (Nat × Nat)) : (VCtx.putAll h t d l).lay = h.lay := by
  rw [putAll_v]

/-- Elements written all at once, whose values rest on their numbers alone. -/
theorem putAll_writes {h : Hart} {t : BitVec 8} {d : BitVec 5} {n : Nat} {val : Nat → Nat} (hb : d.toNat + n ≤ 32)
    (l : List (Nat × Nat)) (hcap : ∀ p ∈ l, p.1 < n * perReg h.lay (codeWidth t))
    (hval : ∀ p ∈ l, p.2 % 2 ^ codeWidth t = val p.1) :
    h.Writes (VCtx.putAll h t d l) t d n (fun e => decide (e ∈ l.map Prod.fst)) val := by
  induction l generalizing h with
  | nil => exact (Hart.Writes.refl h t d n val).congr (fun _ _ => by simp) (fun _ _ => rfl)
  | cons p l ih =>
    obtain ⟨i, x⟩ := p
    have hi : i < n * perReg h.lay (codeWidth t) := hcap (i, x) List.mem_cons_self
    have hx : x % 2 ^ codeWidth t = val i := hval (i, x) List.mem_cons_self
    obtain ⟨helems, hregs⟩ := ih (h := h.vput t d.toNat i x) (fun p hp => hcap p (List.mem_cons_of_mem _ hp))
      (fun p hp => hval p (List.mem_cons_of_mem _ hp))
    refine ⟨fun e he => ?_, fun r hr ho => ?_⟩
    · rw [VCtx.putAll, helems e he]
      by_cases hl : e ∈ l.map Prod.fst
      · simp [hl]
      · by_cases hei : e = i
        · subst hei
          simp [hl, Hart.vget_vput_same h t x hb hi, hx]
        · simp [hl, hei, Hart.vget_vput_other h t x hb hi he (Ne.symm hei)]
    · rw [VCtx.putAll, hregs r hr ho, Hart.vreg_vput_outside h t x hb hi hr ho]

/-! ### Instructions into a vector group -/

/-- Instruction i completes with the elements of the group at d as val gives them where on holds, and nothing else changed. -/
def State.Puts (s : State) (i : Instr) (d : BitVec 5) (on : Nat → Bool) (val : Nat → Nat) : Prop :=
  ∃ h', exec i s = .next (s.setMe h') ∧ h' = { s.me.past 4 false with v := h'.v } ∧
    s.me.Writes h' (vtCode s.me.vtype) d (vtGroup s.me.vtype) on val

section Puts

variable {s : State} {i : Instr} {op : VOp} {d : BitVec 5} {m : BitVec 4} {val : Nat → Nat} (hs : s.Sends i op) (hl : s.Lone)
  (hd : d.toNat % vtGroup s.me.vtype = 0) (hcap : s.me.vl.toNat ≤ s.me.capacity)

include hs hl

/-- One whose performance writes the group and leaves the rest of the record. -/
theorem send_puts {K : Hart} {on : Nat → Bool} (hK : K = { s.sentMe i op with v := K.v })
    (hp : Gives (perform (ctxOf s i op) i) (s.sent i op) true (Prim.apply (s.sent i op) (.hart s.cur (K.popEntry s.me.groups))))
    (hw : (s.sentMe i op).Writes K (vtCode s.me.vtype) d (vtGroup s.me.vtype) on val) : s.Puts i d on val := by
  obtain ⟨_, _, _, play, _⟩ := past_registers hs
  obtain ⟨hv, _, _, hlay⟩ := sentMe_registers s i op
  have hKlay : K.lay = s.me.lay := (congrArg Hart.lay hK).trans hlay
  exact ⟨{ s.me.past 4 false with v := K.v }, send_only_v hs hl hp hK, rfl, hw.transfer hv hlay rfl (hKlay.trans play.symm)⟩

include hd hcap

/-- An elementwise instruction into a vector group, without flags. -/
theorem toVector_puts {f : Nat → Hart → Nat × Nat}
    (hp : perform (ctxOf s i op) i = (ctxOf s i op).toVector m (vtCode s.me.vtype) d (vtGroup s.me.vtype) f)
    (hval : ∀ e, s.me.active m e = true → val e % 2 ^ codeWidth (vtCode s.me.vtype) = val e)
    (hf : ∀ e H, s.me.active m e = true → (s.sentMe i op).near H →
      (∀ r, r < 32 → r < d.toNat ∨ d.toNat + vtGroup s.me.vtype ≤ r → H.vreg r = s.me.vreg r) →
      H.vget (vtCode s.me.vtype) d.toNat e = s.me.vget (vtCode s.me.vtype) d.toNat e → f e H = (val e, 0)) :
    s.Puts i d (s.me.active m) val := by
  obtain ⟨h, hrun, hh, hw, hfl⟩ := toVector_run (fl := fun _ => 0) hl (fun h => by rw [hs.free] at h; cases h) hs.asOp hs.legal hs.noX
    hs.length hp (group_fits hd) hcap (fun _ _ => trappedFlag_none _) hf
  have hflags : h.fflags = (s.me.past 4 false).fflags := by
    obtain ⟨_, _, _, _, pflags⟩ := past_registers hs
    rw [pflags]
    apply BitVec.eq_of_getLsbD_eq
    intro k hk
    rw [Bool.eq_iff_iff, hfl k hk]
    simp
  rw [hs.noSeed, hflags] at hh
  exact ⟨h, hs.runs.trans hrun, hh, hw.congr (fun _ _ => rfl) hval⟩

/-- A whole-instruction vector result. -/
theorem wholeVector_puts {f : Hart → List (Nat × Nat)} {on : Nat → Bool}
    (hp : perform (ctxOf s i op) i = (ctxOf s i op).wholeVector d (vtGroup s.me.vtype) f)
    (hbelow : ∀ e, on e = true → s.me.first < s.me.vl.toNat ∧ e < s.me.vl.toNat)
    (hon : s.me.first < s.me.vl.toNat → ∀ e, on e = true ↔ e ∈ (f (s.sentMe i op)).map Prod.fst)
    (hval : s.me.first < s.me.vl.toNat → ∀ p ∈ f (s.sentMe i op), p.2 % 2 ^ codeWidth (vtCode s.me.vtype) = val p.1) :
    s.Puts i d on val := by
  have hlay := sentMe_lay s i op
  by_cases hsome : s.me.first < s.me.vl.toNat
  · have hin : ∀ p ∈ f (s.sentMe i op), p.1 < vtGroup s.me.vtype * perReg (s.sentMe i op).lay (codeWidth (vtCode s.me.vtype)) := by
      intro p hpm
      rw [hlay]
      obtain ⟨_, hlt⟩ := hbelow _ ((hon hsome _).2 (List.mem_map_of_mem hpm))
      exact hlt.trans_le hcap
    have hw := (putAll_writes (group_fits hd) _ hin (hval hsome)).trim (group_fits hd) (putAll_lay ..)
    refine send_puts hs hl (K := (VCtx.putAll (s.sentMe i op) (vtCode s.me.vtype) d (f (s.sentMe i op))).trim (vtCode s.me.vtype) d.toNat
      (vtGroup s.me.vtype)) ?_ ?_ (hw.congr (fun e _ => ?_) (fun _ _ => rfl))
    · rw [Hart.trim_v, putAll_v]
    · rw [hp]
      refine (Gives.getHart _ _).bind ?_
      rw [ctxOf_start, ctxOf_vl, if_pos hsome]
      exact finish_gives s _ i op _
    · rw [Bool.eq_iff_iff, hon hsome, decide_eq_true_eq]
  · refine send_puts hs hl (K := s.sentMe i op) rfl ?_ ((Hart.Writes.refl ..).congr (fun e _ => ?_) (fun _ _ => rfl))
    · rw [hp]
      refine (Gives.getHart _ _).bind ?_
      rw [ctxOf_start, ctxOf_vl, if_neg hsome]
      exact finish_gives s _ i op _
    · exact (Bool.eq_false_iff.2 fun he => hsome (hbelow e he).1).symm

/-- One that writes, of the elements below VL, those that keep selects. -/
theorem wholeVector_filter_puts {f : Hart → List (Nat × Nat)} {on keep : Nat → Bool} {x : Nat → Nat}
    (hp : perform (ctxOf s i op) i = (ctxOf s i op).wholeVector d (vtGroup s.me.vtype) f)
    (hf : f (s.sentMe i op) = ((List.range s.me.vl.toNat).filter keep).map (fun e => (e, x e)))
    (hon : ∀ e, on e = true ↔ s.me.first < s.me.vl.toNat ∧ e < s.me.vl.toNat ∧ keep e = true)
    (hval : ∀ e, on e = true → x e % 2 ^ codeWidth (vtCode s.me.vtype) = val e) : s.Puts i d on val := by
  refine wholeVector_puts hs hl hd hcap hp (fun e he => ?_) (fun hsome e => ?_) (fun hsome p hpm => ?_)
  · obtain ⟨hsome, hlt, _⟩ := (hon e).1 he
    exact ⟨hsome, hlt⟩
  · rw [hon, hf]
    simp [hsome, List.map_map, Function.comp_def]
  · rw [hf] at hpm
    obtain ⟨e, he, rfl⟩ := List.mem_map.1 hpm
    obtain ⟨hlt, hk⟩ := List.mem_filter.1 he
    exact hval e ((hon e).2 ⟨hsome, List.mem_range.1 hlt, hk⟩)

end Puts

/-! ### What the permutes perform -/

section Performs

variable (c : VCtx) (d a b : BitVec 5) (m : BitVec 4)

theorem perform_vmv : perform c (.vmv d a m) = c.vmv d a m := rfl
theorem perform_vmvFromScalar : perform c (.vmvFromScalar d a m) = c.vmvScalar d m := rfl
theorem perform_vid : perform c (.vid d m) = c.vid d m := rfl
theorem perform_vmvToScale : perform c (.vmvToScale d a) = c.vmvToScale d a := rfl
theorem perform_vmvFromScale : perform c (.vmvFromScale d a) = c.vmvFromScale d a := rfl
theorem perform_vslideup : perform c (.vslideup d a b m) = c.vslideup d a m := rfl
theorem perform_vslidedn : perform c (.vslidedn d a b m) = c.vslidedn d a m := rfl
theorem perform_vperm : perform c (.vperm d a b m) = c.vperm d a b m := rfl
theorem perform_vcompress : perform c (.vcompress d a b) = c.vcompress d a b := rfl
theorem perform_viota : perform c (.viota d a m) = c.viota d a m := rfl

end Performs

section Moves

variable {s : State} {d a b : BitVec 5} {m : BitVec 4} (hl : s.Lone) (hill : s.me.vtype.getLsbD 15 = false)
  (hcap : s.me.vl.toNat ≤ s.me.capacity)

include hl hill hcap

/-! ### Moves (R254) -/

theorem vmv_puts (hg : s.me.grouped [d, a]) : s.Puts (.vmv d a m) d (s.me.active m) (s.me.elem a) := by
  have hs : s.Sends (.vmv d a m) (.vv true (s.me.operand d) (s.me.operand a)) :=
    ⟨exec_vmv d a m s, rfl, rfl, rfl, grouped_legal hill hg rfl (by simp [VOp.vv, VOp.base]), rfl, rfl⟩
  refine toVector_puts hs hl (hg d (by simp)).1 hcap (perform_vmv ..) (fun e _ => elem_mod s.me a e) (fun e H he hn ho hv => ?_)
  exact congrArg (·, 0) (ctx_src (hg d (by simp)).1 (hg a (by simp)).1 (Nat.lt_of_lt_of_le (active_lt he) hcap) hn ho hv)

theorem vmvFromScalar_puts (hc : codeClass (vtCode s.me.vtype) ≠ 10) (hg : s.me.grouped [d]) :
    s.Puts (.vmvFromScalar d a m) d (s.me.active m) (fun _ => (s.me.getX a).toNat % 2 ^ codeWidth (vtCode s.me.vtype)) := by
  have hs : s.Sends (.vmvFromScalar d a m) { VOp.base with ok := notB1 (vtCode s.me.vtype), dsts := [s.me.operand d], opa := some a } :=
    ⟨exec_vmvFromScalar d a m s, rfl, rfl, rfl, grouped_legal hill hg (bne_iff_ne.2 hc) (by simp [VOp.base]), rfl, rfl⟩
  exact toVector_puts hs hl (hg d (by simp)).1 hcap (perform_vmvFromScalar ..) (fun _ _ => Nat.mod_mod _ _) (fun _ _ _ _ _ _ => rfl)

theorem vid_puts (hc : codeClass (vtCode s.me.vtype) ≤ 9) (hg : s.me.grouped [d]) :
    s.Puts (.vid d m) d (s.me.active m) (fun e => e % 2 ^ codeWidth (vtCode s.me.vtype)) := by
  have hs : s.Sends (.vid d m) { VOp.base with ok := intOk (vtCode s.me.vtype), dsts := [s.me.operand d] } :=
    ⟨exec_vid d m s, rfl, rfl, rfl, grouped_legal hill hg (decide_eq_true hc) (by simp [VOp.base]), rfl, rfl⟩
  exact toVector_puts hs hl (hg d (by simp)).1 hcap (perform_vid ..) (fun _ _ => Nat.mod_mod _ _) (fun _ _ _ _ _ _ => rfl)

theorem vmvFromScale_puts (ht : vtCode s.me.vtype = 4) (hg : s.me.grouped [d]) :
    s.Puts (.vmvFromScale d a) d (s.me.active 12) (fun e => if e < s.me.wCodes then s.me.wget a.toNat e else 0) := by
  have hs : s.Sends (.vmvFromScale d a) { VOp.base with ok := vtCode s.me.vtype == 4#8, dsts := [s.me.operand d] } :=
    ⟨exec_vmvFromScale d a s, rfl, rfl, rfl, grouped_legal hill hg (beq_iff_eq.2 ht) (by simp [VOp.base]), rfl, rfl⟩
  have hw : codeWidth (vtCode s.me.vtype) = 8 := by
    rw [ht]
    rfl
  refine toVector_puts hs hl (hg d (by simp)).1 hcap (perform_vmvFromScale ..) (fun e _ => ?_) (fun e H _ hn _ _ => ?_)
  · rw [hw]
    split
    · exact Nat.mod_eq_of_lt (bitsGet_lt _ _ _)
    · rfl
  · obtain ⟨v, f, rfl⟩ := hn
    change (if e < (s.sentMe _ _).wCodes then (s.sentMe _ _).wget a.toNat e else 0, 0) = _
    rw [sentMe_wCodes, sentMe_wget]

/-! ### Permutes (R255 to R257) -/

theorem vslideup_puts (hg : s.me.grouped [d, a]) :
    s.Puts (.vslideup d a b m) d (fun e => s.me.takesPart m e && decide ((s.me.getX b).toNat ≤ e))
      (fun e => s.me.elem a (e - (s.me.getX b).toNat)) := by
  have hs : s.Sends (.vslideup d a b m) (VOp.vvx true (s.me.operand d) (s.me.operand a) b).atOnce :=
    ⟨exec_vslideup d a b m s, rfl, rfl, rfl,
      grouped_legal hill hg rfl (by simp [VOp.vvx, VOp.base, VOp.atOnce]), rfl, rfl⟩
  refine wholeVector_filter_puts hs hl (hg d (by simp)).1 hcap (perform_vslideup ..) rfl (fun e => ?_) (fun e _ => ?_)
  · rw [Bool.and_eq_true, takesPart_iff_on s (.vslideup d a b m) _ m e, Bool.and_eq_true]
    tauto
  · rw [sentMe_src]
    exact elem_mod s.me a _

theorem vslidedn_puts (hg : s.me.grouped [d, a]) :
    s.Puts (.vslidedn d a b m) d (s.me.takesPart m)
      (fun e => if e + (s.me.getX b).toNat < s.me.vl.toNat then s.me.elem a (e + (s.me.getX b).toNat) else 0) := by
  have hs : s.Sends (.vslidedn d a b m) (VOp.vvx true (s.me.operand d) (s.me.operand a) b).atOnce :=
    ⟨exec_vslidedn d a b m s, rfl, rfl, rfl,
      grouped_legal hill hg rfl (by simp [VOp.vvx, VOp.base, VOp.atOnce]), rfl, rfl⟩
  refine wholeVector_filter_puts hs hl (hg d (by simp)).1 hcap (perform_vslidedn ..) rfl (fun e => takesPart_iff_on ..) (fun e _ => ?_)
  rw [sentMe_src]
  change (if e + (s.me.getX b).toNat < s.me.vl.toNat then _ else _) % _ = _
  split
  · exact elem_mod s.me a _
  · rfl

/-- R256's quoted effect: an index from VL on gives 0. -/
theorem vperm_puts (hg : s.me.grouped [d, a, b]) :
    s.Puts (.vperm d a b m) d (s.me.takesPart m)
      (fun e => if s.me.elem b e < s.me.vl.toNat then s.me.elem a (s.me.elem b e) else 0) := by
  have hs : s.Sends (.vperm d a b m) (VOp.vvv true (s.me.operand d) (s.me.operand a) (s.me.operand b)).atOnce :=
    ⟨exec_vperm d a b m s, rfl, rfl, rfl, grouped_legal hill hg rfl (by simp [VOp.vvv, VOp.base, VOp.atOnce]), rfl, rfl⟩
  refine wholeVector_filter_puts hs hl (hg d (by simp)).1 hcap (perform_vperm ..) rfl (fun e => takesPart_iff_on ..) (fun e _ => ?_)
  simp only [sentMe_src, ctxOf_vl]
  split
  · exact elem_mod s.me a _
  · rfl

end Moves

/-! ### VCOMPRESS and VIOTA as lists (R257) -/

/-- A numbered list lists the places of its items. -/
theorem numbered_map (n : Nat) (l : List Nat) (x : Nat → Nat) :
    VCtx.numbered n (l.map x) = (List.range l.length).map (fun k => (n + k, x (l.getD k 0))) := by
  induction l generalizing n with
  | nil => rfl
  | cons e l ih =>
    rw [List.map_cons, VCtx.numbered, ih, List.length_cons, List.range_succ_eq_map, List.map_cons, List.map_map]
    simp [Function.comp_def, Nat.add_assoc, Nat.add_comm 1]

/-- VIOTA gives each element of a rising list the count of those before it whose bit is set. -/
theorem iotaFrom_eq (c : VCtx) (h : Hart) (a : BitVec 5) (n : Nat) (l : List Nat) (hl : l.Pairwise (· < ·)) :
    c.iotaFrom h a n l = l.map (fun e => (e, (n + l.countP (fun k => decide (k < e) && (h.mreg a.toNat).testBit k)) % 2 ^ c.w)) := by
  induction l generalizing n with
  | nil => rfl
  | cons i l ih =>
    obtain ⟨hi, hl⟩ := List.pairwise_cons.1 hl
    have hnone : l.countP (fun k => decide (k < i) && (h.mreg a.toNat).testBit k) = 0 :=
      List.countP_eq_zero.2 fun k hk => by simp [Nat.not_lt.2 (Nat.le_of_lt (hi k hk))]
    rw [VCtx.iotaFrom, ih _ hl, List.map_cons]
    congr 1
    · simp [hnone]
    · refine List.map_congr_left fun e he => ?_
      rw [List.countP_cons]
      simp only [hi e he, decide_true, Bool.true_and]
      split
      · congr 2
        omega
      · rfl

/-- Counting below a bound is counting the numbers below it. -/
theorem countP_range_below {n e : Nat} (he : e ≤ n) (p : Nat → Bool) :
    (List.range n).countP (fun k => decide (k < e) && p k) = (List.range e).countP p := by
  obtain ⟨j, rfl⟩ := Nat.exists_eq_add_of_le he
  have habove : ((List.range j).map (e + ·)).countP (fun k => decide (k < e) && p k) = 0 :=
    List.countP_eq_zero.2 fun k hk => by
      obtain ⟨i, _, rfl⟩ := List.mem_map.1 hk
      simp
  rw [List.range_add, List.countP_append, habove, Nat.add_zero]
  exact List.countP_congr fun k hk => by simp [List.mem_range.1 hk]

/-- The elements below VL that mask register b chooses. -/
def Hart.chosen (h : Hart) (b : BitVec 5) : List Nat := (List.range h.vl.toNat).filter (fun e => (h.mreg b.toNat).testBit e)

theorem chosen_length_le (h : Hart) (b : BitVec 5) : (h.chosen b).length ≤ h.vl.toNat := by
  simpa [Hart.chosen] using List.length_filter_le (fun e => (h.mreg b.toNat).testBit e) (List.range h.vl.toNat)

/-- VCOMPRESS writes the chosen elements to the places from 0 on. -/
theorem compressed_eq (s : State) (i : Instr) (op : VOp) (a b : BitVec 5) :
    VCtx.numbered 0 (((ctxOf s i op).all.filter (fun e =>
      ((s.sentMe i op).mreg b.toNat).testBit e && decide (e < (ctxOf s i op).cover))).map ((ctxOf s i op).src (s.sentMe i op) a)) =
    (List.range (s.me.chosen b).length).map (fun k => (k, s.me.elem a ((s.me.chosen b).getD k 0))) := by
  have hfilter : (ctxOf s i op).all.filter (fun e =>
      ((s.sentMe i op).mreg b.toNat).testBit e && decide (e < (ctxOf s i op).cover)) = s.me.chosen b := by
    refine List.filter_congr fun e he => ?_
    have hvl : e < s.me.vl.toNat := List.mem_range.1 he
    have hcover : e < (ctxOf s i op).cover := hvl.trans s.me.vl.isLt
    rw [sentMe_mreg, decide_eq_true hcover, Bool.and_true]
  rw [hfilter, numbered_map]
  simp only [sentMe_src, Nat.zero_add]

/-- VIOTA counts, before element e, the elements that take part and whose bit is set. -/
theorem iotaCount_eq (s : State) (i : Instr) (op : VOp) (a : BitVec 5) (m : BitVec 4) {e : Nat} (hsome : s.me.first < s.me.vl.toNat)
    (he : e < s.me.vl.toNat) :
    ((ctxOf s i op).all.filter (fun k => (ctxOf s i op).on (s.sentMe i op) m k)).countP
        (fun k => decide (k < e) && ((s.sentMe i op).mreg a.toNat).testBit k) =
      (List.range e).countP (fun k => s.me.takesPart m k && (s.me.mreg a.toNat).testBit k) := by
  rw [State.sentMe, filter_ctxOf_on s i op m hsome, List.countP_filter, ← countP_range_below he.le]
  refine List.countP_congr fun k _ => ?_
  rw [sent_mreg, Bool.and_assoc, Bool.and_comm (s.me.takesPart m k)]

section Permutes

variable {s : State} {d a b : BitVec 5} {m : BitVec 4} (hl : s.Lone) (hill : s.me.vtype.getLsbD 15 = false)
  (hcap : s.me.vl.toNat ≤ s.me.capacity)

include hl hill hcap

theorem vcompress_puts (hg : s.me.grouped [d, a]) :
    s.Puts (.vcompress d a b) d (fun e => decide (s.me.first < s.me.vl.toNat) && decide (e < (s.me.chosen b).length))
      (fun e => s.me.elem a ((s.me.chosen b).getD e 0)) := by
  have hs : s.Sends (.vcompress d a b) (VOp.vv true (s.me.operand d) (s.me.operand a)).atOnce :=
    ⟨exec_vcompress d a b s, rfl, rfl, rfl, grouped_legal hill hg rfl (by simp [VOp.vv, VOp.base, VOp.atOnce]), rfl, rfl⟩
  have hlen := chosen_length_le s.me b
  refine wholeVector_puts hs hl (hg d (by simp)).1 hcap (perform_vcompress ..) (fun e he => ?_) (fun hsome e => ?_)
    (fun _ p hp => ?_)
  · simp only [Bool.and_eq_true, decide_eq_true_eq] at he
    exact ⟨he.1, he.2.trans_le hlen⟩
  · rw [compressed_eq]
    simp [hsome]
  · rw [compressed_eq] at hp
    obtain ⟨k, _, rfl⟩ := List.mem_map.1 hp
    exact elem_mod s.me a _

theorem viota_puts (hc : codeClass (vtCode s.me.vtype) ≤ 7) (hg : s.me.grouped [d]) :
    s.Puts (.viota d a m) d (s.me.takesPart m)
      (fun e => (List.range e).countP (fun k => s.me.takesPart m k && (s.me.mreg a.toNat).testBit k) %
        2 ^ codeWidth (vtCode s.me.vtype)) := by
  have hs : s.Sends (.viota d a m) { VOp.base with ok := packedInt (vtCode s.me.vtype), dsts := [s.me.operand d], whole := true } :=
    ⟨exec_viota d a m s, rfl, rfl, rfl, grouped_legal hill hg (decide_eq_true hc) (by simp [VOp.base]), rfl, rfl⟩
  refine wholeVector_filter_puts hs hl (hg d (by simp)).1 hcap (perform_viota ..)
    (iotaFrom_eq _ _ _ _ _ (List.pairwise_lt_range.filter _)) (fun e => takesPart_iff_on ..) (fun e he => ?_)
  obtain ⟨hsome, hlt⟩ := takesPart_lt he
  rw [iotaCount_eq s _ _ a m hsome hlt, Nat.zero_add]
  exact Nat.mod_mod _ _

end Permutes

/-! ### Writing a scale register -/

theorem Hart.wreg_setWreg (h : Hart) (r q x : Nat) : (h.setWreg r x).wreg q = if r % 8 = q % 8 then x else h.wreg q := by
  simp only [Hart.wreg, Hart.setWreg]
  rw [Vector.getElem_set]

/-- A scale code reads back as written, and the others of the register as they stood. -/
theorem Hart.wget_wput (h : Hart) (r i j x : Nat) : (h.wput r i x).wget r j = if j = i then x % 2 ^ 8 else h.wget r j := by
  apply Nat.eq_of_testBit_eq
  intro k
  rw [Hart.wget, Hart.wput, Hart.wreg_setWreg, if_pos rfl, testBit_bitsGet, testBit_bitsSet]
  by_cases hk : k < 8
  · split
    · rw [if_pos (by omega : j = i), Nat.testBit_mod_two_pow, show 8 * j + k - 8 * i = k by omega]
    · rw [if_neg (by omega : j ≠ i), Hart.wget, testBit_bitsGet]
  · simp only [hk, decide_false, Bool.false_and]
    split
    · rw [Nat.testBit_mod_two_pow, decide_eq_false hk, Bool.false_and]
    · simp [Hart.wget, testBit_bitsGet, hk]

/-- A loop that writes codes of one scale register, each from what is not in the scale registers. -/
theorem foldl_wput {r : Nat} (hr : r < 8) {f : Nat → Hart → Nat} {x : Nat → Nat} (l : List Nat) (h : Hart)
    (hf : ∀ e ∈ l, ∀ w, f e { h with w := w } = x e) :
    let H := l.foldl (fun h e => h.wput r e (f e h)) h
    H = { h with w := H.w } ∧ (∀ j, H.wget r j = if j ∈ l then x j % 2 ^ 8 else h.wget r j) ∧
      ∀ q, q < 8 → q ≠ r → H.wreg q = h.wreg q := by
  induction l generalizing h with
  | nil => exact ⟨rfl, fun j => by simp, fun _ _ _ => rfl⟩
  | cons e l ih =>
    have he : f e h = x e := hf e List.mem_cons_self h.w
    obtain ⟨hrec, hcodes, hregs⟩ := ih (h.wput r e (x e)) (fun i hi => hf i (List.mem_cons_of_mem _ hi))
    dsimp only [List.foldl_cons]
    rw [he]
    refine ⟨hrec, fun j => ?_, fun q hq hne => ?_⟩
    · rw [hcodes, Hart.wget_wput]
      by_cases hj : j ∈ l
      · simp [hj]
      · by_cases hje : j = e
        · simp [hje]
        · simp [hj, hje]
    · rw [hregs q hq hne, Hart.wput, Hart.wreg_setWreg, if_neg (by omega)]

/-- The elements that VMV to a scale register runs over are the active ones whose code the register holds. -/
theorem mem_scaleElems (s : State) (i : Instr) (op : VOp) (j : Nat) :
    j ∈ (ctxOf s i op).elems.filter (fun j => decide (j < (s.sentMe i op).wCodes) && decide (j < (ctxOf s i op).cover)) ↔
      s.me.active 12 j = true ∧ j < s.me.wCodes := by
  have hcover : j < s.me.vl.toNat → j < (ctxOf s i op).cover := fun h => h.trans s.me.vl.isLt
  simp only [List.mem_filter, mem_elems, Bool.and_eq_true, decide_eq_true_eq, sentMe_wCodes, Hart.active, beq_self_eq_true, Bool.true_or,
    and_true]
  tauto

/-- VMV to a scale register writes the codes of the active elements that it holds, and nothing else. -/
theorem vmvToScale_writes {s : State} {d a : BitVec 5} (hl : s.Lone) (hill : s.me.vtype.getLsbD 15 = false) (hg : s.me.grouped [a])
    (ht : vtCode s.me.vtype = 4) (hd : d.toNat < 8) :
    ∃ h', exec (.vmvToScale d a) s = .next (s.setMe h') ∧ h' = { s.me.past 4 false with w := h'.w } ∧
      (∀ j, h'.wget d.toNat j = if s.me.active 12 j ∧ j < s.me.wCodes then s.me.elem a j else s.me.wget d.toNat j) ∧
      ∀ r, r < 8 → r ≠ d.toNat → h'.wreg r = s.me.wreg r := by
  have hs : s.Sends (.vmvToScale d a) (.reads (vtCode s.me.vtype == 4#8) [s.me.operand a]) :=
    ⟨exec_vmvToScale d a s, rfl, rfl, rfl, grouped_legal hill hg (beq_iff_eq.2 ht) (by simp [VOp.reads, VOp.base]), rfl, rfl⟩
  have hcode : ∀ j, s.me.elem a j % 2 ^ 8 = s.me.elem a j := fun j => by
    have := elem_mod s.me a j
    rwa [ht] at this
  generalize VOp.reads (vtCode s.me.vtype == 4#8) [s.me.operand a] = op at hs
  obtain ⟨hrec, hcodes, hregs⟩ := foldl_wput (f := fun j h => (ctxOf s (.vmvToScale d a) op).src h a j) (x := s.me.elem a) hd
    ((ctxOf s (.vmvToScale d a) op).elems.filter (fun j => decide (j < (s.sentMe (.vmvToScale d a) op).wCodes) &&
      decide (j < (ctxOf s (.vmvToScale d a) op).cover))) (s.sentMe (.vmvToScale d a) op) (fun e _ _ => ctxOf_src s _ op a e)
  refine ⟨_, send_only_w hs hl ?_ hrec, rfl, fun j => (hcodes j).trans ?_, fun r hr hne => (hregs r hr hne).trans (sentMe_wreg ..)⟩
  · rw [perform_vmvToScale]
    refine elementwise_gives (fold_unflagged ..) ?_
    rw [id, ite_self]
    exact finish_gives s _ _ op _
  · simp only [mem_scaleElems, hcode, sentMe_wget]

/-! ### VPERM's word (R256) -/

/-- A base word decodes to the well-formed instruction that it encodes. -/
theorem decode_base {i : Instr} {w : BitVec 32} (hr : Laws.RoundTrip.Statement i) (hw : i.wf = true)
    (he : encode i = some (.base w)) (hlow : w.extractLsb' 0 2 = 1#2) : decode (.base w) = .ok i := by
  have := hr hw _ he
  rwa [wordsOf_base hlow] at this

theorem decode_vperm {d a b : BitVec 5} {m : BitVec 4} (hm : m.toNat ≤ 12) :
    decode (.base (4#5 ++ (m ++ (b ++ (a ++ (d ++ 0xB5#8)))))) = .ok (.vperm d a b m) := by
  have hwf : (Instr.vperm d a b m).wf = true := by simp [Instr.wf, Instr.illFormed, Instr.checks, firstFailing, maskOk, hm]
  exact decode_base (w := rWord 0x2D#6 4#5 m b a d) (Laws.RoundTrip.vperm d a b m) hwf rfl (low_rWord ..)

/-- Settles O38. The elementwise moves go through `toVector_puts`, the permutes through `wholeVector_puts`, which writes the list of
elements and values that the record as sent gives; VMV to a scale register is a fold of writes of codes. -/
theorem vectorMoves : Obligations.VectorMoves := by
  unfold Obligations.VectorMoves
  refine ⟨fun d a b m hm => decode_vperm hm, fun s d a b m hl hill hcap => ⟨fun hg => ⟨?_, ?_, ?_, ?_⟩, ?_, fun hg => ?_, ?_⟩⟩
  · exact vmv_puts hl hill hcap hg
  · exact vslideup_puts hl hill hcap hg
  · exact vslidedn_puts hl hill hcap hg
  · exact vcompress_puts hl hill hcap hg
  · exact fun hg => vperm_puts hl hill hcap hg
  · exact ⟨fun hc => vmvFromScalar_puts hl hill hcap hc hg, fun hc => vid_puts hl hill hcap hc hg,
      fun hc => viota_puts hl hill hcap hc hg, fun ht => vmvFromScale_puts hl hill hcap ht hg⟩
  · exact fun hg ht hd => vmvToScale_writes hl hill hg ht hd

end Sys2Proof.Machine
end

section
/-!
Proofs/MaskResults.lean: the mask instructions write one mask register (R260, R261, R264, R265), and the words of MWHILE and MSHUP (R261,
R264).
-/
set_option Elab.async false

namespace Sys2Proof.Machine

/-! ### Writing a mask register -/

theorem Hart.mreg_setMreg (h : Hart) (r q x : Nat) : (h.setMreg r x).mreg q = if r % 12 = q % 12 then x else h.mreg q := by
  simp only [Hart.mreg, Hart.setMreg]
  rw [Vector.getElem_set]

theorem Hart.mreg_mput_same (h : Hart) (r i : Nat) (b : Bool) : (h.mput r i b).mreg r = bitPut (h.mreg r) i b := by
  rw [Hart.mput, Hart.mreg_setMreg, if_pos rfl]

theorem Hart.mreg_mput_other (h : Hart) {r q : Nat} (i : Nat) (b : Bool) (hq : q % 12 ≠ r % 12) : (h.mput r i b).mreg q = h.mreg q := by
  rw [Hart.mput, Hart.mreg_setMreg, if_neg (Ne.symm hq)]

/-- A write of one bit of a mask register leaves every other bit of every mask register. -/
theorem Hart.testBit_mput_other (h : Hart) (r q : Nat) {i k : Nat} (b : Bool) (hk : k ≠ i) :
    ((h.mput r i b).mreg q).testBit k = (h.mreg q).testBit k := by
  rw [Hart.mput, Hart.mreg_setMreg]
  split
  · rename_i hrq
    rw [testBit_bitPut, if_neg hk, Hart.mreg, Hart.mreg]
    simp only [hrq]
  · rfl

theorem putBits_m (h : Hart) (d : BitVec 5) (l : List (Nat × Bool)) :
    VCtx.putBits h d l = { h with m := (VCtx.putBits h d l).m } := by
  induction l generalizing h with
  | nil => rfl
  | cons p l ih =>
    rw [VCtx.putBits, ih]
    rfl

/-- Bits written all at once. -/
theorem putBits_marks {h : Hart} {d : BitVec 5} (hd : d.toNat < 12) (l : List Nat) (val : Nat → Bool) :
    h.Marks (VCtx.putBits h d (l.map (fun e => (e, val e)))) d.toNat (fun e => decide (e ∈ l)) val := by
  induction l generalizing h with
  | nil => exact ⟨fun e => by simp [VCtx.putBits], fun _ _ _ => rfl⟩
  | cons i l ih =>
    obtain ⟨hbits, hregs⟩ := ih (h := h.mput d.toNat i (val i))
    refine ⟨fun e => ?_, fun r hr hne => ?_⟩
    · rw [List.map_cons, VCtx.putBits, hbits e, Hart.mreg_mput_same, testBit_bitPut]
      by_cases hl : e ∈ l
      · simp [hl]
      · by_cases hei : e = i
        · simp [hei]
        · simp [hl, hei]
    · rw [List.map_cons, VCtx.putBits, hregs r hr hne, Hart.mreg_mput_other _ _ _ (by omega)]

/-- A loop that writes each bit once, from bits of the same number, writes what the masks gave at first. -/
theorem foldl_mput {d : BitVec 5} {f : Nat → Hart → Bool} {val : Nat → Bool} {h0 : Hart}
    (hf : ∀ e H, (∀ q, (H.mreg q).testBit e = (h0.mreg q).testBit e) → f e H = val e) (l : List Nat) (hl : l.Nodup) :
    ∀ H, (∀ e ∈ l, ∀ q, (H.mreg q).testBit e = (h0.mreg q).testBit e) →
      l.foldl (fun h e => h.mput d.toNat e (f e h)) H = VCtx.putBits H d (l.map (fun e => (e, val e))) := by
  induction l with
  | nil => exact fun _ _ => rfl
  | cons i l ih =>
    intro H hH
    obtain ⟨hi, hl⟩ := List.nodup_cons.1 hl
    rw [List.foldl_cons, hf i H (hH i List.mem_cons_self), ih hl, List.map_cons, VCtx.putBits]
    intro e he q
    rw [Hart.testBit_mput_other _ _ _ _ (ne_of_mem_of_not_mem he hi), hH e (List.mem_cons_of_mem _ he) q]

/-! ### Instructions into a mask register -/

/-- Marks speaks of the mask registers alone. -/
theorem Hart.Marks.transfer {h h' k k' : Hart} {d : Nat} {on on' val : Nat → Bool} (hw : h.Marks h' d on val) (hm : h.m = k.m)
    (hm' : h'.m = k'.m) (hon : ∀ e, on e = on' e) : k.Marks k' d on' val := by
  simp only [Hart.Marks, Hart.mreg, hm, hm', hon] at hw ⊢
  exact hw

/-- Instruction i completes with the bits of mask register d as val gives them where on holds, and nothing else changed. -/
def State.MarksOnly (s : State) (i : Instr) (d : BitVec 5) (on val : Nat → Bool) : Prop :=
  ∃ h', exec i s = .next (s.setMe h') ∧ h' = { s.me.past 4 false with m := h'.m } ∧ s.me.Marks h' d.toNat on val

section MarksOnly

variable {s : State} {i : Instr} {op : VOp} {d : BitVec 5} {val : Nat → Bool} (hs : s.Sends i op) (hl : s.Lone) (hd : d.toNat < 12)

include hs hl hd

/-- One whose performance writes bits of d at the places of a list. -/
theorem putBits_marksOnly {on : Nat → Bool} (l : List Nat) (hon : ∀ e, e ∈ l ↔ on e = true)
    (hp : Gives (perform (ctxOf s i op) i) (s.sent i op) true (Prim.apply (s.sent i op)
      (.hart s.cur ((VCtx.putBits (s.sentMe i op) d (l.map (fun e => (e, val e)))).popEntry s.me.groups)))) :
    s.MarksOnly i d on val := by
  obtain ⟨_, hm, _⟩ := sentMe_registers s i op
  refine ⟨_, send_only_m hs hl hp (putBits_m ..), rfl, (putBits_marks hd l val).transfer hm rfl fun e => ?_⟩
  rw [Bool.eq_iff_iff, decide_eq_true_eq, hon]

/-- An elementwise instruction into a mask, without flags. -/
theorem toMask_marksOnly {m : BitVec 4} {f : Nat → Hart → Bool}
    (hp : perform (ctxOf s i op) i = (ctxOf s i op).toMask m d (fun e h => (f e h, 0)))
    (hf : ∀ e H, (∀ q, (H.mreg q).testBit e = (s.me.mreg q).testBit e) → f e H = val e) : s.MarksOnly i d (s.me.active m) val := by
  refine putBits_marksOnly hs hl hd _ (mem_filter_on s i op m) ?_
  rw [hp, ← foldl_mput (f := f) (h0 := s.me) hf _ (elems_nodup ..) _ (fun e _ q => by rw [sentMe_mreg])]
  refine elementwise_gives (fold_unflagged ..) ?_
  rw [id, ite_self]
  exact finish_gives s _ i op _

/-- A whole-instruction mask result, over every element below VL. -/
theorem wholeMask_marksOnly {f : Hart → Nat → Bool}
    (hp : perform (ctxOf s i op) i = (ctxOf s i op).wholeMask d (fun h => (ctxOf s i op).all.map (fun e => (e, f h e))))
    (hf : s.me.first < s.me.vl.toNat → ∀ e, e < s.me.vl.toNat → f (s.sentMe i op) e = val e) :
    s.MarksOnly i d (s.me.takesPart 12) val := by
  refine putBits_marksOnly hs hl hd (if s.me.first < s.me.vl.toNat then List.range s.me.vl.toNat else []) (fun e => ?_) ?_
  · split <;> simp [Hart.takesPart, *]
  · rw [hp]
    refine (Gives.getHart _ _).bind ?_
    rw [ctxOf_start, ctxOf_vl]
    split
    · have hlist : (ctxOf s i op).all.map (fun e => (e, f (s.sentMe i op) e)) = (List.range s.me.vl.toNat).map (fun e => (e, val e)) :=
        List.map_congr_left fun e he => by rw [hf ‹_› e (List.mem_range.1 he)]
      rw [← hlist]
      exact finish_gives s _ i op _
    · exact finish_gives s _ i op _

end MarksOnly

/-! ### The mask instructions -/

section Performs

variable (c : VCtx) (d a b : BitVec 5) (m : BitVec 4)

theorem perform_mand : perform c (.mand d a b) = c.mlogic d a b (fun x y => x && y) := rfl
theorem perform_mor : perform c (.mor d a b) = c.mlogic d a b (fun x y => x || y) := rfl
theorem perform_mxor : perform c (.mxor d a b) = c.mlogic d a b (fun x y => x != y) := rfl
theorem perform_mandn : perform c (.mandn d a b) = c.mlogic d a b (fun x y => x && !y) := rfl
theorem perform_mnot : perform c (.mnot d a) = c.mlogic d a a (fun x _ => !x) := rfl
theorem perform_mwhile : perform c (.mwhile d a) = c.mwhile d := rfl
theorem perform_mshup : perform c (.mshup d a) = c.mshup d a := rfl
theorem perform_vtopk : perform c (.vtopk d a b m) = c.vtopk d a m := rfl

end Performs

/-- Bit e of mask register a. -/
def Hart.maskBit (h : Hart) (a : BitVec 5) (e : Nat) : Bool := (h.mreg a.toNat).testBit e

section Masks

variable {s : State} {d a b : BitVec 5} {m : BitVec 4} (hl : s.Lone) (hill : s.me.vtype.getLsbD 15 = false) (hd : d.toNat < 12)

include hl hill hd

/-- The two-operand logic, bit by bit (R260). -/
theorem mlogic_marksOnly {i : Instr} {g : Bool → Bool → Bool} (hr : exec i s = runM (send i) s) (hfree : sized i = false)
    (hlen : lengthOf i = 4) (hv : vop i s.me.vtype s.me = some VOp.base)
    (hp : perform (ctxOf s i VOp.base) i = (ctxOf s i VOp.base).mlogic d a b g) :
    s.MarksOnly i d (s.me.active 12) (fun e => g (s.me.maskBit a e) (s.me.maskBit b e)) :=
  toMask_marksOnly ⟨hr, hfree, hlen, hv, legal_ill hill rfl rfl, rfl, rfl⟩ hl hd hp fun e H hH => by
    rw [hH, hH, Hart.maskBit, Hart.maskBit]

/-- R261's quoted effect. -/
theorem mwhile_marksOnly : s.MarksOnly (.mwhile d a) d (s.me.active 12) (fun e => decide (e < (s.me.getX a).toNat)) := by
  have hs : s.Sends (.mwhile d a) { VOp.base with opa := some a } :=
    ⟨exec_mwhile d a s, rfl, rfl, rfl, legal_ill hill rfl rfl, rfl, rfl⟩
  exact toMask_marksOnly hs hl hd (perform_mwhile ..) (fun _ _ _ => rfl)

/-- The bits one place up, all read before any is written (R264). -/
theorem mshup_marksOnly :
    s.MarksOnly (.mshup d a) d (s.me.takesPart 12) (fun e => decide (0 < e) && s.me.maskBit a (e - 1)) := by
  have hs : s.Sends (.mshup d a) VOp.base.atOnce := ⟨exec_mshup d a s, rfl, rfl, rfl, legal_ill hill rfl rfl, rfl, rfl⟩
  exact wholeMask_marksOnly hs hl hd (perform_mshup ..) (fun _ e _ => by rw [sentMe_mreg, Hart.maskBit])

end Masks

/-! ### VTOPK's order (R265) -/

/-- A NaN is what does not compare with itself. -/
theorem fCmp_self_none (x : FVal) : (fCmp x x == none) = x.isNan := by
  cases x <;> simp [fCmp, FVal.isNan]

/-- Two values that are no NaN compare. -/
theorem fCmp_ordered {x y : FVal} (hx : x.isNan = false) (hy : y.isNan = false) : ∃ o, fCmp x y = some o := by
  cases x with
  | nan q => cases hx
  | inf n => cases y with
    | nan q => cases hy
    | inf p => exact ⟨_, rfl⟩
    | num p k e q => exact ⟨_, rfl⟩
  | num n k e q => cases y with
    | nan q => cases hy
    | inf p => exact ⟨_, rfl⟩
    | num p l f r => exact ⟨_, rfl⟩

/-- Element j with float value x ranks before element e with value y. -/
def rankedFloat (j e : Nat) (x y : FVal) : Bool :=
  (fCmp y y == none && !(fCmp x x == none)) || fCmp x y == some .gt ||
    (decide (j < e) && ((fCmp x x == none && fCmp y y == none) || fCmp x y == some .eq))

/-- Element j with integer value x ranks before element e with value y. -/
def rankedInt (j e : Nat) (x y : Int) : Bool := decide (y < x) || (decide (j < e) && decide (x = y))

/-- Where neither is a NaN, the values' order ranks them, and their numbers where that is equality. -/
theorem rankedFloat_ordered (j e : Nat) {x y : FVal} (hx : x.isNan = false) (hy : y.isNan = false) :
    rankedFloat j e x y = ((fCmp x y).getD .eq == .gt || ((fCmp x y).getD .eq == .eq && decide (j < e))) := by
  obtain ⟨o, ho⟩ := fCmp_ordered hx hy
  rw [rankedFloat, fCmp_self_none, fCmp_self_none, hx, hy, ho, Bool.and_comm (decide (j < e))]
  cases o <;> rfl

theorem ranksBefore_float {t : BitVec 8} (ht : codeFloat t = true) (j x e y : Nat) :
    VCtx.ranksBefore t j x e y = rankedFloat j e ((codeFmt t).decode x) ((codeFmt t).decode y) := by
  unfold VCtx.ranksBefore
  simp only [ht, if_true]
  generalize (codeFmt t).decode x = X
  generalize (codeFmt t).decode y = Y
  cases X with
  | nan p => cases Y <;> simp [rankedFloat, fCmp]
  | inf p => cases Y with
    | nan q => simp [rankedFloat, fCmp]
    | inf q => exact (rankedFloat_ordered j e rfl rfl).symm
    | num q k f r => exact (rankedFloat_ordered j e rfl rfl).symm
  | num p l g u => cases Y with
    | nan q => simp [rankedFloat, fCmp]
    | inf q => exact (rankedFloat_ordered j e rfl rfl).symm
    | num q k f r => exact (rankedFloat_ordered j e rfl rfl).symm

theorem ranksBefore_int {t : BitVec 8} (ht : codeFloat t = false) (j x e y : Nat) :
    VCtx.ranksBefore t j x e y =
      rankedInt j e (intOf (codeSigned t) (codeWidth t) x) (intOf (codeSigned t) (codeWidth t) y) := by
  unfold VCtx.ranksBefore rankedInt
  simp only [ht, Bool.false_eq_true, if_false]
  generalize intOf (codeSigned t) (codeWidth t) x = X
  generalize intOf (codeSigned t) (codeWidth t) y = Y
  rcases lt_trichotomy X Y with h | h | h
  · rw [compare_lt_iff_lt.2 h]
    simp [h.ne, h.le]
  · rw [compare_eq_iff_eq.2 h]
    simp [h]
  · rw [compare_gt_iff_gt.2 h]
    simp [h]

/-- Element j ranks before element e by their elements of register a (R265). -/
def Hart.ranked (h : Hart) (a : BitVec 5) (j e : Nat) : Bool :=
  VCtx.ranksBefore (vtCode h.vtype) j (h.elem a j) e (h.elem a e)

/-- VTOPK's order is that of the elements' values (R265). -/
theorem ranked_eq (h : Hart) (a : BitVec 5) (j e : Nat) :
    let t := vtCode h.vtype
    let V (e : Nat) : Int := intOf (codeSigned t) (codeWidth t) (h.elem a e)
    let X (e : Nat) : FVal := (codeFmt t).decode (h.elem a e)
    h.ranked a j e = if codeClass t = 11 then rankedFloat j e (X j) (X e) else rankedInt j e (V j) (V e) := by
  intro t V X
  split
  · exact ranksBefore_float (beq_iff_eq.2 ‹_›) _ _ _ _
  · exact ranksBefore_int (beq_eq_false_iff_ne.2 ‹_›) _ _ _ _

/-- VTOPK counts, of the elements that take part, those that rank before element e. -/
theorem rankedCount_eq (s : State) (i : Instr) (op : VOp) (a : BitVec 5) (m : BitVec 4) (e : Nat) (hsome : s.me.first < s.me.vl.toNat) :
    ((((ctxOf s i op).all.filter (fun j => (ctxOf s i op).on (s.sentMe i op) m j)).map
        (fun j => (j, (ctxOf s i op).src (s.sentMe i op) a j))).filter
          (fun q => VCtx.ranksBefore (ctxOf s i op).code q.1 q.2 e ((ctxOf s i op).src (s.sentMe i op) a e))).length =
      (List.range s.me.vl.toNat).countP (fun j => s.me.takesPart m j && s.me.ranked a j e) := by
  rw [State.sentMe, filter_ctxOf_on s i op m hsome, List.filter_map, List.length_map, ← List.countP_eq_length_filter, List.countP_filter]
  refine List.countP_congr fun j _ => ?_
  simp only [Function.comp_apply, ctxOf_src, Bool.and_comm (s.me.takesPart m j)]
  rfl

/-- VTOPK marks the candidates of which fewer than x[b] rank before (R265). -/
theorem vtopk_marksOnly {s : State} {d a b : BitVec 5} {m : BitVec 4} (hl : s.Lone) (hill : s.me.vtype.getLsbD 15 = false)
    (hd : d.toNat < 12) (hc : codeClass (vtCode s.me.vtype) ≠ 10) (hg : s.me.grouped [a]) :
    s.MarksOnly (.vtopk d a b m) d (s.me.takesPart 12) (fun e => s.me.takesPart m e &&
      decide ((List.range s.me.vl.toNat).countP (fun j => s.me.takesPart m j && s.me.ranked a j e) < (s.me.getX b).toNat)) := by
  have hs : s.Sends (.vtopk d a b m)
      { VOp.base with ok := notB1 (vtCode s.me.vtype), srcs := [s.me.operand a], opb := some b, whole := true } :=
    ⟨exec_vtopk d a b m s, rfl, rfl, rfl, grouped_legal hill hg (bne_iff_ne.2 hc) (by simp [VOp.base]), rfl, rfl⟩
  refine wholeMask_marksOnly hs hl hd (perform_vtopk ..) (fun hsome e he => ?_)
  rw [rankedCount_eq s _ _ a m e hsome, State.sentMe, ctxOf_on s _ _ m hsome he]
  rfl

/-! ### The words of MWHILE and MSHUP (R261, R264) -/

theorem decode_mshup {d a : BitVec 5} (hd : d.toNat < 12) (ha : a.toNat < 12) :
    decode (.base (10#5 ++ (12#4 ++ (0#5 ++ (a ++ (d ++ 0xBD#8)))))) = .ok (.mshup d a) := by
  have hwf : (Instr.mshup d a).wf = true := by
    simp [Instr.wf, Instr.illFormed, Instr.checks, firstFailing, mRegOk]
    omega
  exact decode_base (w := rWord 0x2F#6 10#5 12#4 0#5 a d) (Laws.RoundTrip.mshup d a) hwf rfl (low_rWord ..)

theorem decode_mwhile : decode (.base 0x2E01A2BD#32) = .ok (.mwhile 2 13) :=
  decode_base (Laws.RoundTrip.mwhile 2 13) (by decide) (by decide) (by decide)

/-- Settles O40. The logic and MWHILE go through `toMask_marksOnly`, MSHUP and VTOPK through `wholeMask_marksOnly`; VTOPK's order is
`ranksBefore_float` for a floating-point format and `ranksBefore_int` for an integer one. -/
theorem maskResults : Obligations.MaskResults := by
  unfold Obligations.MaskResults
  refine ⟨decode_mwhile, fun d a hd ha => decode_mshup hd ha, fun s d a b m hl hill hd =>
    ⟨?_, ?_, ?_, ?_, ?_, ?_, ?_, fun hc hg => ?_⟩⟩
  · exact mlogic_marksOnly hl hill hd (exec_mand d a b s) rfl rfl rfl (perform_mand ..)
  · exact mlogic_marksOnly hl hill hd (exec_mor d a b s) rfl rfl rfl (perform_mor ..)
  · exact mlogic_marksOnly hl hill hd (exec_mxor d a b s) rfl rfl rfl (perform_mxor ..)
  · exact mlogic_marksOnly hl hill hd (exec_mandn d a b s) rfl rfl rfl (perform_mandn ..)
  · exact mlogic_marksOnly (b := a) hl hill hd (exec_mnot d a s) rfl rfl rfl (perform_mnot ..)
  · exact mwhile_marksOnly hl hill hd
  · exact mshup_marksOnly hl hill hd
  · have hmarks := vtopk_marksOnly (b := b) (m := m) hl hill hd hc hg
    simp only [ranked_eq] at hmarks
    exact hmarks

end Sys2Proof.Machine
end
